-- ==== Sys2Proof/Word.lean ====
section
/-! DEFINITION. Word: the value types of the NC420 that the manual treats as words or numbers (00_scope.md, Conventions). -/

namespace Sys2Proof

/-- One byte on a port (R159). -/
abbrev Byte := BitVec 8

/-- One 24-bit audio sample, two's complement (the text before R20). -/
abbrev Sample := BitVec 24

/-- A 16-bit serial, version or calibration sequence: one added to 65535 gives 0 (R63, R76, R116, R124). -/
abbrev Serial := BitVec 16

/-- A channel mask: channel 0 in the least significant bit (00_scope.md, Channels and masks). -/
abbrev ChannelMask := BitVec 4

/-- A day mask: Monday in the least significant bit (00_scope.md, Channels and masks). -/
abbrev DayMask := BitVec 7

/-- A level in hundredths of a decibel (00_scope.md, Level code). -/
abbrev Level := Int

/-- A level, or `none` where the manual says void (R37). -/
abbrev LevelOrVoid := Option Int

/-- A minute number, or `none` where the manual says absent (00_scope.md, Minute number). -/
abbrev MinuteOrAbsent := Option Nat

end Sys2Proof
end

