-- ==== Sys2Proof/Syntax.lean ====
section
/-! DEFINITION. Syntax: the names of the part's objects and the commands and events of spec/opcode_table.json, one constructor per row. -/

namespace Sys2Proof

/-- The two SPI target ports (00_scope.md, The two ports). -/
inductive Port where
  | site
  | compliance
deriving DecidableEq, Repr

/-- The four channels (00_scope.md, Channels and masks). -/
inductive Ch where
  | ch0
  | ch1
  | ch2
  | ch3
deriving DecidableEq, Repr

/-- The two audio lines (01_measurement_channels.md, Audio lines). -/
inductive Line where
  | line0
  | line1
deriving DecidableEq, Repr

/-- How much of its transaction a port's command stands for (R159, R160; DESIGN CHOICE, notes/assumptions/2.md). A transaction may come
whole, or piece by piece with anything else between the pieces. -/
inductive Part where
  /-- The select falls, the command code and `params` are clocked in, and the select rises. -/
  | whole
  /-- The select falls; no byte is clocked in yet. -/
  | fall
  /-- Bytes are clocked in: the command code, if it has not been received yet, then `params`. -/
  | bytes
  /-- The select rises. -/
  | rise
deriving DecidableEq, Repr

/-- A piece of a port's transaction: the part of it, and the parameter bytes received in that part (R159). -/
structure Piece where
  part : Part
  params : List Byte
deriving DecidableEq, Repr

/-- A whole transaction. -/
abbrev Piece.whole (params : List Byte) : Piece := ⟨.whole, params⟩

/-- The fall of the select. -/
abbrev Piece.fall : Piece := ⟨.fall, []⟩

/-- Bytes clocked in. -/
abbrev Piece.bytes (params : List Byte) : Piece := ⟨.bytes, params⟩

/-- The rise of the select. -/
abbrev Piece.rise : Piece := ⟨.rise, []⟩

/-- One command or event of the part, one constructor per row of spec/opcode_table.json.

A command of a port carries the port and the `piece` of its transaction it stands for, whose `params` are the complete bytes received
in it after the command code (R159), whatever their number: a wrong number is what R163 and R164 refuse FRAME.
A command that samples an input pin carries that pin's level at that moment (`wx`: R14, R16, R17; `prot`: R68, R73). -/
inductive Instr where
  | nop (port : Port) (piece : Piece)
  | unknownCommandCode (port : Port) (code : Byte) (piece : Piece)
  | readLive (port : Port) (piece : Piece) (wx : Bool)
  | readChannel (port : Port) (piece : Piece) (wx : Bool)
  | readClock (port : Port) (piece : Piece)
  | readEntry (port : Port) (piece : Piece)
  | readHeader (port : Port) (piece : Piece) (prot : Bool)
  | readDispensation (port : Port) (piece : Piece)
  | readAccount (port : Port) (piece : Piece)
  | readHistogram (port : Port) (piece : Piece)
  | readEvents (port : Port) (piece : Piece)
  | readHistory (port : Port) (piece : Piece)
  | readPeriods (port : Port) (piece : Piece)
  | readNotices (port : Port) (piece : Piece)
  | readCommissioning (port : Port) (piece : Piece)
  | identify (port : Port) (piece : Piece)
  | seek (port : Port) (piece : Piece)
  | startChannels (port : Port) (piece : Piece)
  | stopChannels (port : Port) (piece : Piece)
  | exclude (port : Port) (piece : Piece)
  | setEventTrigger (port : Port) (piece : Piece)
  | calibrate (port : Port) (piece : Piece)
  | abortCalibration (port : Port) (piece : Piece)
  | acceptCalibration (port : Port) (piece : Piece)
  | rejectCalibration (port : Port) (piece : Piece)
  | setTime (port : Port) (piece : Piece)
  | trimClock (port : Port) (piece : Piece)
  | writeEntry (port : Port) (piece : Piece)
  | deleteEntry (port : Port) (piece : Piece)
  | writeHeader (port : Port) (piece : Piece)
  | setProtection (port : Port) (piece : Piece) (prot : Bool)
  | proposeDispensation (port : Port) (piece : Piece)
  | withdrawDispensation (port : Port) (piece : Piece)
  | approveDispensation (port : Port) (piece : Piece)
  | rejectDispensation (port : Port) (piece : Piece)
  | revokeDispensation (port : Port) (piece : Piece)
  | setNoticeEnables (port : Port) (piece : Piece)
  | clearConditions (port : Port) (piece : Piece)
  | setQuietRequest (port : Port) (piece : Piece)
  | portReset (port : Port) (piece : Piece)
  | writeCommissioning (port : Port) (piece : Piece)
  | lockCommissioning (port : Port) (piece : Piece)
  | deviceReset (port : Port) (piece : Piece)
  | resetNLow
  | resetNRelease
  /-- `backupLost`: the backup supply has fallen away as well, which a power-on finds (R54, R172). -/
  | powerOn (backupLost : Bool)
  /-- A complete frame on a line: the first slot's sample (lower channel) and the second slot's (upper channel), R1. -/
  | audioFrame (line : Line) (lower upper : Sample)
  | incompleteFrameDiscard (line : Line)
  | blockEnd (ch : Ch)
  /-- `wx`: the level of the WX line at the slice end (R14). -/
  | frameSliceEnd (ch : Ch) (wx : Bool)
  | crystalSliceEnd (ch : Ch)
  | lineLost (line : Line)
  | lineRestored (line : Line)
  | settlingComplete (ch : Ch) (wx : Bool)
  | calSettleComplete (ch : Ch) (wx : Bool)
  | calMeasureComplete (ch : Ch) (wx : Bool)
  | calRecoverComplete (ch : Ch) (wx : Bool)
  | calResultLapse (ch : Ch)
  | secondTick
  | minuteBoundary
  | eventCloseFell (ch : Ch) (wx : Bool)
  | eventCloseLong (ch : Ch) (wx : Bool)
  | storeWriteBegin
  /-- `readsBack`: the store's read-back matches the contents written (R177). -/
  | storeWriteEnd (readsBack : Bool)
  | lossOfSupply
deriving DecidableEq, Repr

end Sys2Proof
end

