-- ==== Sys2Proof/WellFormed.lean ====
section
/-! DEFINITION. WellFormed: which terms of Instr are commands or events that can reach the part. -/

namespace Sys2Proof

/-- The command codes that name a command (13_record_and_frame_formats.md, Command codes). -/
def knownCodes : List Byte :=
  [0x00, 0x10, 0x11, 0x12, 0x13, 0x14, 0x15, 0x16, 0x17, 0x18, 0x19, 0x1A, 0x1B, 0x1C, 0x1D, 0x20, 0x30, 0x31, 0x32, 0x33,
   0x34, 0x35, 0x36, 0x37, 0x40, 0x41, 0x50, 0x51, 0x52, 0x53, 0x60, 0x61, 0x62, 0x63, 0x64, 0x70, 0x71, 0x72, 0x7E, 0x80,
   0x81, 0xF0]

/-- A term is well formed unless it calls a code of the command code table unknown (R165). Every other term
is one the sender can give: a parameter count that does not fit is refused by the part itself (R163, R164). -/
def Instr.wf : Instr → Bool
  | .unknownCommandCode _ code _ => !knownCodes.contains code
  | _ => true

end Sys2Proof
end

