-- ==== Sys2Proof/Decode.lean ====
section
/-! DEFINITION. Decode: the command a table word spells (the table gives no row bits), and the command a port's transaction spells by the command code table of 13_record_and_frame_formats.md, with its inverse. -/

namespace Sys2Proof

/-- The command that a word spells by the bits of spec/opcode_table.json. Every row's "fields" is empty and none has "fixed"
bits: the table gives no row a bit, so no word spells a command. -/
def decodeTableWord (_nbits _w : Nat) : Option Instr :=
  none

/-- The command a complete command code and its parameter bytes spell (13_record_and_frame_formats.md, Command codes);
every other code is UNKNOWN (R165). `wx` and `prot` are the levels of the two input lines the command may sample, `piece` the
piece of the transaction that is meant. -/
def decodeCommand (port : Port) (wx prot : Bool) (code : Byte) (piece : Piece) : Instr :=
  match code with
  | 0x00 => .nop port piece
  | 0x10 => .readLive port piece wx
  | 0x11 => .readChannel port piece wx
  | 0x12 => .readClock port piece
  | 0x13 => .readEntry port piece
  | 0x14 => .readHeader port piece prot
  | 0x15 => .readDispensation port piece
  | 0x16 => .readAccount port piece
  | 0x17 => .readHistogram port piece
  | 0x18 => .readEvents port piece
  | 0x19 => .readHistory port piece
  | 0x1A => .readPeriods port piece
  | 0x1B => .readNotices port piece
  | 0x1C => .readCommissioning port piece
  | 0x1D => .identify port piece
  | 0x20 => .seek port piece
  | 0x30 => .startChannels port piece
  | 0x31 => .stopChannels port piece
  | 0x32 => .exclude port piece
  | 0x33 => .setEventTrigger port piece
  | 0x34 => .calibrate port piece
  | 0x35 => .abortCalibration port piece
  | 0x36 => .acceptCalibration port piece
  | 0x37 => .rejectCalibration port piece
  | 0x40 => .setTime port piece
  | 0x41 => .trimClock port piece
  | 0x50 => .writeEntry port piece
  | 0x51 => .deleteEntry port piece
  | 0x52 => .writeHeader port piece
  | 0x53 => .setProtection port piece prot
  | 0x60 => .proposeDispensation port piece
  | 0x61 => .withdrawDispensation port piece
  | 0x62 => .approveDispensation port piece
  | 0x63 => .rejectDispensation port piece
  | 0x64 => .revokeDispensation port piece
  | 0x70 => .setNoticeEnables port piece
  | 0x71 => .clearConditions port piece
  | 0x72 => .setQuietRequest port piece
  | 0x7E => .portReset port piece
  | 0x80 => .writeCommissioning port piece
  | 0x81 => .lockCommissioning port piece
  | 0xF0 => .deviceReset port piece
  | code => .unknownCommandCode port code piece

/-- The command a transaction carries: its first byte is the command code, and a transaction in which no complete byte is
received carries none (R159). -/
def decodeTransaction (port : Port) (wx prot : Bool) (bytes : List Byte) (part : Part) : Option Instr :=
  match bytes with
  | [] => none
  | code :: params => some (decodeCommand port wx prot code ⟨part, params⟩)

/-- The command code a port's command has and the parameter bytes it carries: for a whole transaction, the bytes a processor clocks in
to send it. `none` for an event, which no port sends. -/
def encodeTransaction : Instr → Option (List Byte)
  | .nop _ piece => some (0x00 :: piece.params)
  | .readLive _ piece _ => some (0x10 :: piece.params)
  | .readChannel _ piece _ => some (0x11 :: piece.params)
  | .readClock _ piece => some (0x12 :: piece.params)
  | .readEntry _ piece => some (0x13 :: piece.params)
  | .readHeader _ piece _ => some (0x14 :: piece.params)
  | .readDispensation _ piece => some (0x15 :: piece.params)
  | .readAccount _ piece => some (0x16 :: piece.params)
  | .readHistogram _ piece => some (0x17 :: piece.params)
  | .readEvents _ piece => some (0x18 :: piece.params)
  | .readHistory _ piece => some (0x19 :: piece.params)
  | .readPeriods _ piece => some (0x1A :: piece.params)
  | .readNotices _ piece => some (0x1B :: piece.params)
  | .readCommissioning _ piece => some (0x1C :: piece.params)
  | .identify _ piece => some (0x1D :: piece.params)
  | .seek _ piece => some (0x20 :: piece.params)
  | .startChannels _ piece => some (0x30 :: piece.params)
  | .stopChannels _ piece => some (0x31 :: piece.params)
  | .exclude _ piece => some (0x32 :: piece.params)
  | .setEventTrigger _ piece => some (0x33 :: piece.params)
  | .calibrate _ piece => some (0x34 :: piece.params)
  | .abortCalibration _ piece => some (0x35 :: piece.params)
  | .acceptCalibration _ piece => some (0x36 :: piece.params)
  | .rejectCalibration _ piece => some (0x37 :: piece.params)
  | .setTime _ piece => some (0x40 :: piece.params)
  | .trimClock _ piece => some (0x41 :: piece.params)
  | .writeEntry _ piece => some (0x50 :: piece.params)
  | .deleteEntry _ piece => some (0x51 :: piece.params)
  | .writeHeader _ piece => some (0x52 :: piece.params)
  | .setProtection _ piece _ => some (0x53 :: piece.params)
  | .proposeDispensation _ piece => some (0x60 :: piece.params)
  | .withdrawDispensation _ piece => some (0x61 :: piece.params)
  | .approveDispensation _ piece => some (0x62 :: piece.params)
  | .rejectDispensation _ piece => some (0x63 :: piece.params)
  | .revokeDispensation _ piece => some (0x64 :: piece.params)
  | .setNoticeEnables _ piece => some (0x70 :: piece.params)
  | .clearConditions _ piece => some (0x71 :: piece.params)
  | .setQuietRequest _ piece => some (0x72 :: piece.params)
  | .portReset _ piece => some (0x7E :: piece.params)
  | .writeCommissioning _ piece => some (0x80 :: piece.params)
  | .lockCommissioning _ piece => some (0x81 :: piece.params)
  | .deviceReset _ piece => some (0xF0 :: piece.params)
  | .unknownCommandCode _ code piece => some (code :: piece.params)
  | .resetNLow => none
  | .resetNRelease => none
  | .powerOn _ => none
  | .audioFrame _ _ _ => none
  | .incompleteFrameDiscard _ => none
  | .blockEnd _ => none
  | .frameSliceEnd _ _ => none
  | .crystalSliceEnd _ => none
  | .lineLost _ => none
  | .lineRestored _ => none
  | .settlingComplete _ _ => none
  | .calSettleComplete _ _ => none
  | .calMeasureComplete _ _ => none
  | .calRecoverComplete _ _ => none
  | .calResultLapse _ => none
  | .secondTick => none
  | .minuteBoundary => none
  | .eventCloseFell _ _ => none
  | .eventCloseLong _ _ => none
  | .storeWriteBegin => none
  | .storeWriteEnd _ => none
  | .lossOfSupply => none

/-- The port a command is sent from; `none` for an event. -/
def Instr.port? : Instr → Option Port
  | .nop port _ => some port
  | .readLive port _ _ => some port
  | .readChannel port _ _ => some port
  | .readClock port _ => some port
  | .readEntry port _ => some port
  | .readHeader port _ _ => some port
  | .readDispensation port _ => some port
  | .readAccount port _ => some port
  | .readHistogram port _ => some port
  | .readEvents port _ => some port
  | .readHistory port _ => some port
  | .readPeriods port _ => some port
  | .readNotices port _ => some port
  | .readCommissioning port _ => some port
  | .identify port _ => some port
  | .seek port _ => some port
  | .startChannels port _ => some port
  | .stopChannels port _ => some port
  | .exclude port _ => some port
  | .setEventTrigger port _ => some port
  | .calibrate port _ => some port
  | .abortCalibration port _ => some port
  | .acceptCalibration port _ => some port
  | .rejectCalibration port _ => some port
  | .setTime port _ => some port
  | .trimClock port _ => some port
  | .writeEntry port _ => some port
  | .deleteEntry port _ => some port
  | .writeHeader port _ => some port
  | .setProtection port _ _ => some port
  | .proposeDispensation port _ => some port
  | .withdrawDispensation port _ => some port
  | .approveDispensation port _ => some port
  | .rejectDispensation port _ => some port
  | .revokeDispensation port _ => some port
  | .setNoticeEnables port _ => some port
  | .clearConditions port _ => some port
  | .setQuietRequest port _ => some port
  | .portReset port _ => some port
  | .writeCommissioning port _ => some port
  | .lockCommissioning port _ => some port
  | .deviceReset port _ => some port
  | .unknownCommandCode port _ _ => some port
  | .resetNLow => none
  | .resetNRelease => none
  | .powerOn _ => none
  | .audioFrame _ _ _ => none
  | .incompleteFrameDiscard _ => none
  | .blockEnd _ => none
  | .frameSliceEnd _ _ => none
  | .crystalSliceEnd _ => none
  | .lineLost _ => none
  | .lineRestored _ => none
  | .settlingComplete _ _ => none
  | .calSettleComplete _ _ => none
  | .calMeasureComplete _ _ => none
  | .calRecoverComplete _ _ => none
  | .calResultLapse _ => none
  | .secondTick => none
  | .minuteBoundary => none
  | .eventCloseFell _ _ => none
  | .eventCloseLong _ _ => none
  | .storeWriteBegin => none
  | .storeWriteEnd _ => none
  | .lossOfSupply => none

/-- How much of its transaction a command stands for; an event is whole. -/
def Instr.part : Instr → Part
  | .nop _ piece => piece.part
  | .readLive _ piece _ => piece.part
  | .readChannel _ piece _ => piece.part
  | .readClock _ piece => piece.part
  | .readEntry _ piece => piece.part
  | .readHeader _ piece _ => piece.part
  | .readDispensation _ piece => piece.part
  | .readAccount _ piece => piece.part
  | .readHistogram _ piece => piece.part
  | .readEvents _ piece => piece.part
  | .readHistory _ piece => piece.part
  | .readPeriods _ piece => piece.part
  | .readNotices _ piece => piece.part
  | .readCommissioning _ piece => piece.part
  | .identify _ piece => piece.part
  | .seek _ piece => piece.part
  | .startChannels _ piece => piece.part
  | .stopChannels _ piece => piece.part
  | .exclude _ piece => piece.part
  | .setEventTrigger _ piece => piece.part
  | .calibrate _ piece => piece.part
  | .abortCalibration _ piece => piece.part
  | .acceptCalibration _ piece => piece.part
  | .rejectCalibration _ piece => piece.part
  | .setTime _ piece => piece.part
  | .trimClock _ piece => piece.part
  | .writeEntry _ piece => piece.part
  | .deleteEntry _ piece => piece.part
  | .writeHeader _ piece => piece.part
  | .setProtection _ piece _ => piece.part
  | .proposeDispensation _ piece => piece.part
  | .withdrawDispensation _ piece => piece.part
  | .approveDispensation _ piece => piece.part
  | .rejectDispensation _ piece => piece.part
  | .revokeDispensation _ piece => piece.part
  | .setNoticeEnables _ piece => piece.part
  | .clearConditions _ piece => piece.part
  | .setQuietRequest _ piece => piece.part
  | .portReset _ piece => piece.part
  | .writeCommissioning _ piece => piece.part
  | .lockCommissioning _ piece => piece.part
  | .deviceReset _ piece => piece.part
  | .unknownCommandCode _ _ piece => piece.part
  | .resetNLow => .whole
  | .resetNRelease => .whole
  | .powerOn _ => .whole
  | .audioFrame _ _ _ => .whole
  | .incompleteFrameDiscard _ => .whole
  | .blockEnd _ => .whole
  | .frameSliceEnd _ _ => .whole
  | .crystalSliceEnd _ => .whole
  | .lineLost _ => .whole
  | .lineRestored _ => .whole
  | .settlingComplete _ _ => .whole
  | .calSettleComplete _ _ => .whole
  | .calMeasureComplete _ _ => .whole
  | .calRecoverComplete _ _ => .whole
  | .calResultLapse _ => .whole
  | .secondTick => .whole
  | .minuteBoundary => .whole
  | .eventCloseFell _ _ => .whole
  | .eventCloseLong _ _ => .whole
  | .storeWriteBegin => .whole
  | .storeWriteEnd _ => .whole
  | .lossOfSupply => .whole

/-- The WX level a command or event carries, or `wx` where it samples none. -/
def Instr.wxOr (wx : Bool) : Instr → Bool
  | .readLive _ _ w => w
  | .readChannel _ _ w => w
  | _ => wx

/-- The PROT level a command carries, or `prot` where it samples none. -/
def Instr.protOr (prot : Bool) : Instr → Bool
  | .readHeader _ _ p => p
  | .setProtection _ _ p => p
  | _ => prot

end Sys2Proof
end

