-- ==== Sys2Proof/Config.lean ====
section
/-! DEFINITION. Config: what one part fixes for itself, and the free values the manual leaves open. None has a body: no proof can see a value. -/

namespace Sys2Proof

/-- FREE VALUE (notes/assumptions/12.md). The device serial, a 64-bit number different in every part (R169, R181). A constant of the part, not a state: no command
writes it and every reset leaves it (R181). -/
opaque Config.deviceSerial : BitVec 64

/-- FREE VALUE (notes/assumptions/3.md). Where the manual says that several pieces of work of one step may be taken in either
order, their order is the rising order of these keys: `Config.orderKey use i` is the key of the `i`-th piece at the
`use`-th such choice. Any order can arise, so a statement about the model holds for every order. -/
opaque Config.orderKey : Nat → Nat → Nat

end Sys2Proof
end

