-- ==== Sys2Proof/Machine/State.lean ====
section
/-! DEFINITION. State: every piece of state the manual gives the part, as plain data; the (empty) faults and the refusals; the part right after its first power-on. -/

namespace Sys2Proof.Machine

/-- Nothing in the manual stops the part: a command is taken or refused with a result code, and an event acts or finds
nothing to do. No meaning answers a fault, so the type has no constructor (safe). -/
inductive Fault
deriving DecidableEq, Repr

/-- Why a command has no meaning in the model. -/
inductive Refusal where
  /-- Raised by `exec` alone, for a row of the table that has no meaning yet (safe). -/
  | notModelled (mnemonic : String)
deriving DecidableEq, Repr

/-! ### Small collections -/

/-- One value per channel. -/
structure Quad (α : Type) where
  c0 : α
  c1 : α
  c2 : α
  c3 : α
deriving DecidableEq, Repr

/-! ### Measurement channels (01) -/

/-- An audio receiver (R1, R2). -/
structure LineRx where
  /-- Line state: PRESENT or LOST. -/
  present : Bool
  /-- Good-frame run counter, 0 to 4800. -/
  run : Nat
  /-- Whole crystal periods since the last frame taken, counted up to 66 (R1, R2). -/
  pause : Nat
deriving DecidableEq, Repr

/-- The phase of a CALIBRATING channel (R5). -/
inductive Phase where
  | calSettle
  | calMeasure
  | calRecover
deriving DecidableEq, Repr

/-- The return state held while CALIBRATING (R9). -/
inductive ReturnState where
  | settling
  | off
deriving DecidableEq, Repr

/-- The channel state machine (R5). -/
inductive ChannelState where
  | off
  | settling
  | measuring
  | calibrating (phase : Phase) (returnTo : ReturnState)
  | faulted
deriving DecidableEq, Repr

/-- Slice classes (R12). -/
inductive SliceClass where
  | missing
  | calibration
  | settling
  | excluded
  | valid
deriving DecidableEq, Repr

/-- A cause set (R30, R33). -/
structure Causes where
  overload : Bool
  saturation : Bool
  underrange : Bool
  frameLoss : Bool
deriving DecidableEq, Repr

/-- The three fields of a minute boundary (R43). -/
structure Boundary where
  ending : MinuteOrAbsent
  next : MinuteOrAbsent
  timeSet : Bool
deriving DecidableEq, Repr

/-- A waiting close (R45): the held boundary, and whether the close makes the FS switch, which it does if a
switch was pending when the boundary reached the channel (R124). -/
structure WaitingClose where
  boundary : Boundary
  makesSwitch : Bool
deriving DecidableEq, Repr

/-! ### Level engine (02) -/

/-- One weighting section's two most recent inputs and outputs (R21). -/
structure Section where
  x1 : Int
  x2 : Int
  y1 : Int
  y2 : Int
deriving DecidableEq, Repr

/-- The five weighting sections of the A and C paths (R22). -/
structure Filters where
  a1 : Section
  a2 : Section
  a3 : Section
  c1 : Section
  c2 : Section
deriving DecidableEq, Repr

/-- The slice in progress (R11, R25, R27, R30). -/
structure SliceAcc where
  /-- Frames taken in the slice. -/
  frames : Nat
  /-- Crystal periods since a crystal-timed slice began. -/
  crystal : Nat
  /-- Samples and A squares of the partial block. -/
  blockCount : Nat
  blockSum : Nat
  sumA : Nat
  sumC : Nat
  sumZ : Nat
  greatestF : Option Nat
  leastF : Option Nat
  greatestS : Option Nat
  causes : Causes
deriving DecidableEq, Repr

/-- The minute in progress (R32, R33). The count of VALID slices of R32 and of R33 is one count. -/
structure MinuteAcc where
  sumA : Nat
  sumC : Nat
  greatestF : Option Nat
  leastF : Option Nat
  greatestS : Option Nat
  missing : Nat
  calibration : Nat
  settling : Nat
  excluded : Nat
  valid : Nat
  duration : Nat
  causes : Causes
deriving DecidableEq, Repr

/-- The most recent slice result kept for READ LIVE (R31, R40). -/
structure KeptSlice where
  cls : SliceClass
  sumA : Nat
deriving DecidableEq, Repr

/-- A level engine (R21 to R33). -/
structure Engine where
  filters : Filters
  f : Nat
  s : Nat
  slice : SliceAcc
  minute : MinuteAcc
  kept : Option KeptSlice
deriving DecidableEq, Repr

/-! ### Calibration (07) -/

/-- Calibration outcomes (R115). -/
inductive CalOutcome where
  | none
  | running
  | aborted
  | fault
  | overload
  | unstable
  | outOfRange
  | pending
  | applied
  | rejected
  | lapsed
deriving DecidableEq, Repr

/-- A last calibration record (R115). -/
structure CalRecord where
  serial : Serial
  outcome : CalOutcome
  reference : LevelOrVoid
  meas : LevelOrVoid
  delta : LevelOrVoid
  minute : MinuteOrAbsent
  oldFs : LevelOrVoid
  newFs : LevelOrVoid
deriving DecidableEq, Repr

/-- A pending result (R122). -/
structure PendingResult where
  serial : Serial
  newFs : Level
  lapse : Nat
deriving DecidableEq, Repr

/-- The RUNNING calibration unit: the run's channel, serial and accumulators (R114, R117). -/
structure CalRun where
  ch : Ch
  serial : Serial
  zSum : Nat
  count : Nat
  greatestLZ : LevelOrVoid
  leastLZ : LevelOrVoid
  overload : Bool
deriving DecidableEq, Repr

/-- The calibration unit: RUNNING holds a run, IDLE none; and the run serial counter (R114). -/
structure CalUnit where
  run : Option CalRun
  serial : Serial
deriving DecidableEq, Repr

/-! ### Limit schedule (04) and dispensations (05) -/

/-- A schedule entry (R55). -/
structure Entry where
  present : Bool
  channels : ChannelMask
  days : DayMask
  start : Nat
  stop : Nat
  works : Bool
  limit : Level
  trigger : Level
  impulseThreshold : Level
  impulsePenalty : Level
  lowFreqThreshold : Level
  lowFreqPenalty : Level
  cap : Level
  version : Serial
deriving DecidableEq, Repr

/-- The schedule header (R56). -/
structure Header where
  dayStart : Nat
  allowance : Nat
  lowMark : Nat
  coverage : Nat
deriving DecidableEq, Repr

/-- Protection modes (R67). -/
inductive ProtectionMode where
  | openMode
  | line
  | fixed
deriving DecidableEq, Repr

/-- Protection extent and mode (R67). -/
structure Protection where
  extent : Nat
  mode : ProtectionMode
deriving DecidableEq, Repr

/-- Dispensation slot states (R75). -/
inductive SlotState where
  | free
  | proposed
  | approved
  | active
deriving DecidableEq, Repr

/-- How a slot last became FREE (R75, R77). -/
inductive SlotOutcome where
  | none
  | rejected
  | withdrawn
  | lapsed
  | ended
  | revoked
deriving DecidableEq, Repr

/-- A dispensation slot (R75). -/
structure Slot where
  state : SlotState
  serial : Serial
  channels : ChannelMask
  start : Nat
  stop : Nat
  limit : Level
  trigger : Level
  works : Bool
  reason : Byte
  outcome : SlotOutcome
deriving DecidableEq, Repr

/-- The identity of a source (R60). -/
inductive Source where
  | entry (index : Fin 16)
  | dispensation (slot : Fin 8) (serial : Serial)
deriving DecidableEq, Repr

/-! ### Accounts (06) -/

/-- The eight parameters a period copies from its source (R60). -/
structure Rules where
  limit : Level
  trigger : Level
  works : Bool
  impulseThreshold : Level
  impulsePenalty : Level
  lowFreqThreshold : Level
  lowFreqPenalty : Level
  cap : Level
deriving DecidableEq, Repr

/-- An open period account (R90). Its histogram counters are unbounded (DESIGN CHOICE, unsafe: notes/assumptions/8.md). -/
structure Period where
  source : Source
  reason : Byte
  rules : Rules
  opening : Nat
  last : MinuteOrAbsent
  planned : Nat
  elapsed : Nat
  accounted : Nat
  impulsive : Nat
  lowFreq : Nat
  triggers : Nat
  breaches : Nat
  ratedSum : Nat
  plainSum : Nat
  greatestLr : LevelOrVoid
  lafMax : LevelOrVoid
  histogram : Vector Nat 240
deriving DecidableEq, Repr

/-- An open day account (R91). Its breach minutes, to which R91 gives no bound, are an unbounded count (DESIGN CHOICE, unsafe:
notes/assumptions/8.md). -/
structure Day where
  start : Nat
  allowance : Nat
  spent : Nat
  breaches : Nat
  lowGiven : Bool
deriving DecidableEq, Repr

/-- The reason of the device quiet condition; NONE where it does not hold (R109). -/
inductive QuietReason where
  | none
  | noWorks
  | allowanceSpent
  | budgetExhausted
deriving DecidableEq, Repr

/-- Why a period closed (R99). -/
inductive CloseCause where
  | timeSet
  | day
  | source
deriving DecidableEq, Repr

/-- The verdict of a period (R106). -/
inductive Verdict where
  | void
  | compliant
  | incomplete
  | breach
deriving DecidableEq, Repr

/-- A minute record (R138). -/
structure MinuteRecord where
  sequence : Nat
  ch : Ch
  minute : MinuteOrAbsent
  duration : Nat
  missing : Nat
  calibration : Nat
  settling : Nat
  excluded : Nat
  valid : Nat
  laeq : LevelOrVoid
  lceq : LevelOrVoid
  lafmax : LevelOrVoid
  lafmin : LevelOrVoid
  lasmax : LevelOrVoid
  impulsive : Bool
  lowFreq : Bool
  penalty : Level
  lr : LevelOrVoid
  accountable : Bool
  allowanceSpent : Bool
  breach : Bool
  source : Option Source
  fs : Level
  calSeq : Serial
  uncalibrated : Bool
  causes : Causes
deriving DecidableEq, Repr

/-- A period record (R107). -/
structure PeriodRecord where
  sequence : Nat
  ch : Ch
  source : Source
  reason : Byte
  opening : Nat
  closing : MinuteOrAbsent
  cause : CloseCause
  planned : Nat
  elapsed : Nat
  accounted : Nat
  impulsive : Nat
  lowFreq : Nat
  triggers : Nat
  breaches : Nat
  lr : LevelOrVoid
  laeq : LevelOrVoid
  greatestLr : LevelOrVoid
  lafMax : LevelOrVoid
  l10 : LevelOrVoid
  l50 : LevelOrVoid
  l90 : LevelOrVoid
  limit : Level
  verdict : Verdict
deriving DecidableEq, Repr

/-! ### Exceedance events (08) -/

/-- A channel's open event: its record's sequence, the committed figures, the tail and the span count (R127). -/
structure OpenEvent where
  sequence : Nat
  count : Nat
  sumA : Nat
  peak : Level
  tailCount : Nat
  tailSum : Nat
  span : Nat
deriving DecidableEq, Repr

/-- Why an event closed (R128). -/
inductive EndCause where
  | fell
  | interrupted
  | stopped
  | long
deriving DecidableEq, Repr

/-- The figures a record takes at its close (R133). `impulsive` is `none` where the mark is absent. -/
structure EventClose where
  duration : Nat
  peak : Level
  laeq : Level
  lae : Level
  impulsive : Option Bool
  cause : EndCause
deriving DecidableEq, Repr

/-- An event record (R128): OPEN while `closed` is `none`, its duration and peak then being the committed figures of the
channel's open event. -/
structure EventRecord where
  sequence : Nat
  ch : Ch
  startMinute : MinuteOrAbsent
  startOffset : Nat
  continuation : Bool
  closed : Option EventClose
deriving DecidableEq, Repr

/-- One channel: its controller (01, R15, R17, R124, R129), level engine (02), event detector (R127), calibration
standing (R114) and accounts (R90, R91, R110). -/
structure Channel where
  state : ChannelState
  settle : Nat
  excluded : Bool
  trigger : Level
  hysteresis : Level
  fs : Level
  calSeq : Serial
  uncalibrated : Bool
  pendingFs : Option Level
  waiting : Option WaitingClose
  /-- The number of the minute in progress (R129). -/
  minuteNo : MinuteOrAbsent
  engine : Engine
  openEvent : Option OpenEvent
  continuation : Bool
  pendingResult : Option PendingResult
  calRecord : CalRecord
  period : Option Period
  day : Option Day
  quiet : QuietReason
deriving DecidableEq, Repr

/-! ### Site clock (03) -/

/-- The site clock (R42). `elapsed` counts the crystal periods of elapsed clock time since its last tick: they are the prescaler's but after a
SET TIME, which sets the prescaler and does not move elapsed clock time (R50, R122; DEDUCED, notes/assumptions/15.md). -/
structure Clock where
  set : Bool
  minute : Nat
  seconds : Nat
  length : Nat
  prescaler : Nat
  elapsed : Nat
deriving DecidableEq, Repr

/-! ### Ports (10, 11) -/

/-- Notice kinds 1 to 15 (R149). -/
inductive NoticeKind where
  | minute
  | period
  | event
  | allowanceLow
  | breach
  | quiet
  | cal
  | channel
  | condition
  | dispensation
  | schedule
  | clock
  | historyLag
  | store
  | reset
deriving DecidableEq, Repr

/-- A last detail (R148). -/
structure Detail where
  channel : Ch
  qualifier : Byte
  value : BitVec 32
deriving DecidableEq, Repr

/-- One notice kind at a port: flag, enable and last detail (R148). -/
structure Notice where
  flag : Bool
  enable : Bool
  detail : Detail
deriving DecidableEq, Repr

/-- Result codes (R167). -/
inductive Result where
  | ok
  | unknown
  | frame
  | role
  | notFound
  | absent
  | stale
  | state
  | locked
  | protection
  | clock
  | range
  | overlap
  | full
  | inUse
  | busy
deriving DecidableEq, Repr

/-- A port's select line as its decoder takes it: high, low with a transaction in progress, or low and ignored until it has risen and
fallen again (R159, R173, R174). -/
inductive Select where
  | high
  | low
  | ignored
deriving DecidableEq, Repr

/-- The transaction decoder of a port (R159, R160, R174): its select; of the transaction in progress the bytes received, whether a read's
snapshot has been taken, and the bytes that go out, as far as they are fixed; and, the model's own, the bytes shifted out by the latest
transaction so far (notes/assumptions/2.md). -/
structure Transaction where
  select : Select
  received : List Byte
  snapshot : Bool
  answer : List Byte
  sent : List Byte
deriving DecidableEq, Repr

/-- The decoder with the select high: no transaction in progress. -/
def Transaction.idle (sent : List Byte) : Transaction := ⟨.high, [], false, [], sent⟩

/-- A port interface (R140, R148, R153, R155, R162, R174). -/
structure PortState where
  notices : Vector Notice 15
  conditions : Quad Causes
  quietRequest : Bool
  historyCursor : Nat
  periodCursor : Nat
  eventCursor : Nat
  lastResult : Result
  transaction : Transaction
deriving DecidableEq, Repr

/-! ### Setting store and commissioning (12) -/

/-- The commissioning record (R179). -/
structure Commissioning where
  site : Vector Byte 16
  station : BitVec 16
  installed : ChannelMask
  weather : ChannelMask
  labels : Quad (Vector Byte 12)
  locked : Bool
deriving DecidableEq, Repr

/-- What a CHANNEL item holds (R175). -/
structure ChannelItem where
  fs : Level
  calSeq : Serial
  record : CalRecord
deriving DecidableEq, Repr

/-- A store write: an item with its contents (R175). -/
inductive StoreWrite where
  | entry (index : Fin 16) (contents : Entry)
  | header (contents : Header)
  | protection (contents : Protection)
  | channel (ch : Ch) (contents : ChannelItem)
  | commissioning (contents : Commissioning)
deriving DecidableEq, Repr

/-- The stored items; `none` is an item whose completion mark is clear (R175). DESIGN CHOICE: notes/assumptions/10.md. -/
structure StoredItems where
  entries : Vector (Option Entry) 16
  header : Option Header
  protection : Option Protection
  channels : Quad (Option ChannelItem)
  commissioning : Option Commissioning
deriving DecidableEq, Repr

/-- The setting store: items and marks, the write queue in arrival order, the item being written (R175). -/
structure Store where
  items : StoredItems
  queue : List StoreWrite
  writing : Option StoreWrite
deriving DecidableEq, Repr

/-- Causes of a device reset (R158). -/
inductive ResetCause where
  | powerOn
  | line
  | command
deriving DecidableEq, Repr

/-! ### The part -/

/-- The whole part. Sequence and minute numbers are unbounded (DESIGN CHOICE, unsafe: notes/assumptions/8.md). -/
structure State where
  channels : Quad Channel
  line0 : LineRx
  line1 : LineRx
  clock : Clock
  entries : Vector Entry 16
  header : Header
  protection : Protection
  slots : Vector Slot 8
  proposalSerial : Serial
  calUnit : CalUnit
  eventList : List EventRecord
  eventSeq : Nat
  minuteRing : List MinuteRecord
  minuteSeq : Nat
  periodList : List PeriodRecord
  periodSeq : Nat
  site : PortState
  compliance : PortState
  /-- The QUIET line, high or low (R156). -/
  quietLine : Bool
  store : Store
  commissioning : Commissioning
  /-- Levels of the input pins, as last presented: WX, PROT, RESET_N (high is true), and the main supply. -/
  wx : Bool
  prot : Bool
  resetN : Bool
  supply : Bool
  /-- While RESET_N holds the part: the cause the RESET notice will carry, and whether a power-on under the held line found the
  backup supply gone (R158, R172). -/
  resetCause : ResetCause
  clockLossFound : Bool
  /-- The model's own: how many times an order has been taken from the free value `Config.orderKey`. -/
  orderUses : Nat
  /-- The commands and events that wait, first in, first out. -/
  pending : List Instr
deriving DecidableEq, Repr

/-! ### Values after reset -/

/-- The same value for every channel. -/
def Quad.all {α : Type} (a : α) : Quad α := ⟨a, a, a, a⟩

def Causes.none : Causes := ⟨false, false, false, false⟩

/-- R2: LOST with its counter at 0. -/
def LineRx.reset : LineRx := ⟨false, 0, 0⟩

def Section.clear : Section := ⟨0, 0, 0, 0⟩

def Filters.clear : Filters := ⟨.clear, .clear, .clear, .clear, .clear⟩

def SliceAcc.empty : SliceAcc := ⟨0, 0, 0, 0, 0, 0, 0, none, none, none, .none⟩

def MinuteAcc.empty : MinuteAcc := ⟨0, 0, none, none, none, 0, 0, 0, 0, 0, 0, .none⟩

/-- R41. -/
def Engine.reset : Engine := ⟨.clear, 0, 0, .empty, .empty, none⟩

/-- The blank record of R125. -/
def CalRecord.blank : CalRecord := ⟨0, .none, none, none, none, none, none, none⟩

/-- A channel after a device reset whose CHANNEL item loaded as incomplete, before auto-start (R19, R41, R113, R126, R136). -/
def Channel.reset : Channel :=
  { state := .off, settle := 0, excluded := false, trigger := 8000, hysteresis := 300
    fs := 14000, calSeq := 0, uncalibrated := true, pendingFs := none, waiting := none, minuteNo := none
    engine := .reset, openEvent := none, continuation := false, pendingResult := none, calRecord := .blank
    period := none, day := none, quiet := .none }

/-- R54, clock-domain loss. -/
def Clock.lost : Clock := ⟨false, 0, 0, 60, 0, 0⟩

/-- An entry loaded as incomplete, or as delivered: absent, version 0, every field 0 (R74). -/
def Entry.blank : Entry := ⟨false, 0, 0, 0, 0, false, 0, 0, 0, 0, 0, 0, 0, 0⟩

/-- The factory default entry (R74). -/
def Entry.factory : Entry :=
  { present := true, channels := 0xF, days := 0x7F, start := 0, stop := 0, works := false, limit := 7500, trigger := 0
    impulseThreshold := 1500, impulsePenalty := 0, lowFreqThreshold := 1500, lowFreqPenalty := 0, cap := 1000, version := 0 }

/-- The factory default header (R56). -/
def Header.factory : Header := ⟨420, 30, 5, 75⟩

/-- R89. -/
def Slot.reset : Slot := ⟨.free, 0, 0, 0, 0, 0, 0, false, 0, .none⟩

def Detail.zero : Detail := ⟨.ch0, 0, 0⟩

def Notice.clear : Notice := ⟨false, false, .zero⟩

/-- The blank commissioning record (R179). -/
def Commissioning.blank : Commissioning :=
  ⟨Vector.replicate 16 0, 0, 0, 0, .all (Vector.replicate 12 0), false⟩

/-- The sixteen entries as delivered: the factory entry and fifteen absent ones (R74). -/
def deliveredEntries : Vector Entry 16 := (Vector.replicate 16 Entry.blank).set 0 Entry.factory

/-- The stored items as delivered (R74, R179, R181): the CHANNEL items have never been written. -/
def StoredItems.delivered : StoredItems :=
  { entries := (Vector.replicate 16 (some Entry.blank)).set 0 (some Entry.factory)
    header := some .factory, protection := some ⟨0, .openMode⟩, channels := .all none, commissioning := some .blank }

/-- A port after the first power-on (R158): RESET set and enabled; CLOCK and STORE set by the clock-domain loss and by the
four incomplete CHANNEL items, the last of which is item 21. -/
def PortState.reset : PortState :=
  { notices := (((Vector.replicate 15 Notice.clear).set 11 ⟨true, false, ⟨.ch0, 3, 0xFFFFFFFF⟩⟩).set 13
        ⟨true, false, ⟨.ch0, 2, 21⟩⟩).set 14 ⟨true, true, ⟨.ch0, 1, 0⟩⟩
    conditions := .all .none, quietRequest := false, historyCursor := 0, periodCursor := 0, eventCursor := 0
    lastResult := .ok, transaction := .idle [] }

/-- The part right after the power-on of a part as delivered, which finds the clock domain lost
(DEDUCED, the pin levels a DESIGN CHOICE, unsafe: notes/assumptions/1.md): the reset tables of R19, R41, R54, R74, R89, R113, R126, R136, R147, R158, R174 and R181, with the stored
settings as delivered. -/
def State.reset : State :=
  { channels := .all .reset, line0 := .reset, line1 := .reset, clock := .lost
    entries := deliveredEntries, header := .factory, protection := ⟨0, .openMode⟩
    slots := Vector.replicate 8 .reset, proposalSerial := 0
    calUnit := ⟨none, 0⟩, eventList := [], eventSeq := 0, minuteRing := [], minuteSeq := 0, periodList := [], periodSeq := 0
    site := .reset, compliance := .reset, quietLine := false
    store := ⟨.delivered, [], none⟩, commissioning := .blank
    wx := false, prot := false, resetN := true, supply := true, resetCause := .powerOn, clockLossFound := false
    orderUses := 0, pending := [] }

end Sys2Proof.Machine
end

