-- ==== Sys2Proof/Machine/Ops.lean ====
section
/-! DEFINITION. Ops: channels, masks and lines by name, the parts of State read and written by name, the order of work the manual leaves open, and setting notices. -/

namespace Sys2Proof

/-- The number of a channel (00_scope.md, Channels and masks). -/
def Ch.index : Ch → Nat
  | .ch0 => 0
  | .ch1 => 1
  | .ch2 => 2
  | .ch3 => 3

/-- The channel a number names, if it names one. -/
def Ch.ofNat? : Nat → Option Ch
  | 0 => some .ch0
  | 1 => some .ch1
  | 2 => some .ch2
  | 3 => some .ch3
  | _ => none

/-- All channels, in rising number. -/
def Ch.list : List Ch := [.ch0, .ch1, .ch2, .ch3]

/-- The line a channel is fed by (01, Audio lines). -/
def Ch.line : Ch → Line
  | .ch0 => .line0
  | .ch1 => .line0
  | .ch2 => .line1
  | .ch3 => .line1

/-- The lower and the upper channel of a line (01, Audio lines). -/
def Line.channels : Line → List Ch
  | .line0 => [.ch0, .ch1]
  | .line1 => [.ch2, .ch3]

/-- Both lines. -/
def Line.list : List Line := [.line0, .line1]

/-- The other port. -/
def Port.other : Port → Port
  | .site => .compliance
  | .compliance => .site

/-- A channel mask holds a channel (00_scope.md, Channels and masks). -/
def maskHas (m : ChannelMask) (ch : Ch) : Bool := m.getLsbD ch.index

/-- The channels of a mask, in rising number. -/
def maskChannels (m : ChannelMask) : List Ch := Ch.list.filter (maskHas m)

end Sys2Proof

namespace Sys2Proof.Machine

/-! ### One value per channel -/

def Quad.get {α : Type} (q : Quad α) : Ch → α
  | .ch0 => q.c0
  | .ch1 => q.c1
  | .ch2 => q.c2
  | .ch3 => q.c3

def Quad.set {α : Type} (q : Quad α) (ch : Ch) (a : α) : Quad α :=
  match ch with
  | .ch0 => { q with c0 := a }
  | .ch1 => { q with c1 := a }
  | .ch2 => { q with c2 := a }
  | .ch3 => { q with c3 := a }

/-! ### Parts of the state by name -/

def State.chan (s : State) (ch : Ch) : Channel := s.channels.get ch

def State.setChan (s : State) (ch : Ch) (c : Channel) : State := { s with channels := s.channels.set ch c }

def State.rx (s : State) : Line → LineRx
  | .line0 => s.line0
  | .line1 => s.line1

def State.setRx (s : State) (l : Line) (r : LineRx) : State :=
  match l with
  | .line0 => { s with line0 := r }
  | .line1 => { s with line1 := r }

/-- The line of a channel is PRESENT. -/
def State.linePresent (s : State) (ch : Ch) : Bool := (s.rx ch.line).present

def State.port (s : State) : Port → PortState
  | .site => s.site
  | .compliance => s.compliance

def State.setPort (s : State) (p : Port) (x : PortState) : State :=
  match p with
  | .site => { s with site := x }
  | .compliance => { s with compliance := x }

/-- The site clock's minute number in progress, absent while UNSET (R42, R115). -/
def State.minuteNow (s : State) : MinuteOrAbsent := if s.clock.set then some s.clock.minute else none

/-- The main supply is up and RESET_N does not hold the part in reset (R172). -/
def State.running (s : State) : Bool := s.supply && s.resetN

/-! ### Orders the manual leaves open -/

/-- Put a keyed element before the first one of greater key. -/
def insertByKey {α : Type} (x : Nat × α) : List (Nat × α) → List (Nat × α)
  | [] => [x]
  | y :: ys => if x.1 ≤ y.1 then x :: y :: ys else y :: insertByKey x ys

/-- A list in rising order of the keys of its positions. -/
def sortByKey {α : Type} (key : Nat → Nat) (l : List α) : List α :=
  ((l.zipIdx.map fun x => (key x.2, x.1)).foldr insertByKey []).map Prod.snd

/-- Pieces of work that may be taken in any order, in the order they are taken: the free value `Config.orderKey` decides
(FREE VALUE, safe: notes/assumptions/3.md). Fewer than two pieces leave no choice. -/
def State.arrange {α : Type} (s : State) (l : List α) : List α × State :=
  match l with
  | [] => ([], s)
  | [a] => ([a], s)
  | l => (sortByKey (Config.orderKey s.orderUses) l, { s with orderUses := s.orderUses + 1 })

/-- Do each piece of work in the order taken. -/
def State.inAnyOrder {α : Type} (s : State) (l : List α) (work : State → α → State) : State :=
  (s.arrange l).1.foldl work (s.arrange l).2

/-! ### Notices (R148, R149) -/

/-- The position of a kind among the fifteen: kind number less one (R149). -/
def NoticeKind.index : NoticeKind → Fin 15
  | .minute => 0
  | .period => 1
  | .event => 2
  | .allowanceLow => 3
  | .breach => 4
  | .quiet => 5
  | .cal => 6
  | .channel => 7
  | .condition => 8
  | .dispensation => 9
  | .schedule => 10
  | .clock => 11
  | .historyLag => 12
  | .store => 13
  | .reset => 14

/-- The notice of a kind at a port. -/
def PortState.notice (x : PortState) (k : NoticeKind) : Notice := x.notices[k.index]

/-- R149: the flag becomes set and the detail is replaced, whatever the flag and the enable were. -/
def PortState.notify (x : PortState) (k : NoticeKind) (d : Detail) : PortState :=
  { x with notices := x.notices.set k.index { x.notice k with flag := true, detail := d } }

/-- Set a notice on one port. -/
def State.notify (s : State) (p : Port) (k : NoticeKind) (d : Detail) : State := s.setPort p ((s.port p).notify k d)

/-- Set a notice on both ports. -/
def State.notifyBoth (s : State) (k : NoticeKind) (d : Detail) : State :=
  { s with site := s.site.notify k d, compliance := s.compliance.notify k d }

/-- An unsigned 32-bit value of a detail. -/
def value32 (n : Nat) : BitVec 32 := BitVec.ofNat 32 n

/-- A 16-bit serial as a detail's value. -/
def serial32 (n : Serial) : BitVec 32 := n.setWidth 32

/-- A minute number in 32 bits, absent as all ones (R182). -/
def minute32 : MinuteOrAbsent → BitVec 32
  | some n => BitVec.ofNat 32 n
  | none => 0xFFFFFFFF

/-- A detail without a qualifier: "none" is laid out as 0 (R149). -/
def plainDetail (ch : Ch) (v : BitVec 32) : Detail := ⟨ch, 0, v⟩

/-- The CAL notice of a channel and a run serial (R149). -/
def State.notifyCal (s : State) (ch : Ch) (serial : Serial) : State :=
  s.notifyBoth .cal (plainDetail ch (serial32 serial))

/-- The states a CHANNEL notice names as entered (R149), with their qualifier codes. -/
inductive Entered where
  | faulted
  | settling
  | off
deriving DecidableEq, Repr

def Entered.code : Entered → Byte
  | .faulted => 1
  | .settling => 2
  | .off => 3

/-- The CHANNEL notice (R149). -/
def State.notifyChannel (s : State) (ch : Ch) (e : Entered) : State := s.notifyBoth .channel ⟨ch, e.code, 0⟩

/-- A port's attention line: high while a notice flag is set with its enable set (R150). While RESET_N holds the part
both lines are low (R172); without the main supply nothing drives them. -/
def State.attention (s : State) (p : Port) : Bool :=
  s.running && (s.port p).notices.toList.any fun n => n.flag && n.enable

/-! ### The QUIET line (R156) -/

/-- The device quiet condition holds for a channel, as the account unit holds it (R110). -/
def Channel.quietHeld (c : Channel) : Bool := c.quiet != .none

/-- The state the six inputs give the QUIET line (R156). -/
def State.quietDemand (s : State) : Bool :=
  s.site.quietRequest || s.compliance.quietRequest || Ch.list.any fun ch => (s.chan ch).quietHeld

/-- What the QUIET notice names as the cause of a change (R156), with its code. -/
inductive QuietInput where
  | channel
  | siteRequest
  | complianceRequest
  | commissioning
deriving DecidableEq, Repr

def QuietInput.code : QuietInput → BitVec 32
  | .channel => 0
  | .siteRequest => 1
  | .complianceRequest => 2
  | .commissioning => 3

/-- The input that is a port's quiet request. -/
def QuietInput.ofPort : Port → QuietInput
  | .site => .siteRequest
  | .compliance => .complianceRequest

/-- R156: bring the line to its state; a change sets the QUIET notice on both ports with the input that moved it. -/
def State.bringQuiet (s : State) (ch : Ch) (input : QuietInput) : State :=
  if s.quietDemand = s.quietLine then s
  else { s with quietLine := s.quietDemand }.notifyBoth .quiet ⟨ch, if s.quietDemand then 1 else 0, input.code⟩

end Sys2Proof.Machine
end

