-- ==== Sys2Proof/Machine/Levels.lean ====
section
/-! DEFINITION. Levels: the exact conversions between energies and levels (R28, R38, R39, and the logarithm of R133), in integers only. -/

namespace Sys2Proof.Machine

/-- The greatest number below `2 ^ bits` above `acc` that a downward closed test admits, by bisection. -/
def greatest (test : Nat → Bool) : (bits acc : Nat) → Nat
  | 0, acc => acc
  | b + 1, acc => if test (acc + 2 ^ b) then greatest test b (acc + 2 ^ b) else greatest test b acc

/-- `1000·log10(num / den)` is at least `k − 1/2`: the same as `(num / den) ^ 2000 ≥ 10 ^ (2k − 1)`, which is decided
without error. Equality cannot arise, since 2k − 1 is odd: no value lies exactly halfway. -/
def logAtLeast (num den : Nat) (k : Int) : Bool :=
  match 2 * k - 1 with
  | .ofNat e => 10 ^ e * den ^ 2000 ≤ num ^ 2000
  | .negSucc e => den ^ 2000 ≤ num ^ 2000 * 10 ^ (e + 1)

/-- `round(1000·log10(num / den))` to the nearest integer, for a ratio from 10^−10 up to 10^6 (R28, R39, R133). A lower
ratio gives −10000 and a higher one a value above 6000: R28 floors the one and R39 clamps both. -/
def roundLog (num den : Nat) : Int :=
  (greatest (fun k => logAtLeast num den ((k : Int) - 10000)) 14 0 : Int) - 10000

/-- A level formed by R28, and whether the conversion was floored. -/
structure Converted where
  level : Level
  floored : Bool
deriving DecidableEq, Repr

/-- The level of a conversion, under a name of its own: a proof can unfold a definition made of it without evaluating the conversion. -/
def Converted.reading (x : Converted) : Level := x.level

/-- R28: the level of a raw sum over `n` samples. -/
def convert (fs : Level) (sum n : Nat) : Converted :=
  if sum * 10 ^ 10 < n * 2 ^ 46 then ⟨fs - 10000, true⟩
  else ⟨fs + roundLog sum (n * 2 ^ 46), false⟩

/-- R28, last paragraph: a running value converts as a raw sum over one sample. -/
def convertRunning (fs : Level) (v : Nat) : Converted := convert fs v 1

/-- `2^32·10^((l − 10000)/1000)` is at least `n − 1/2`, decided without error. -/
def energyAtLeast (l : Level) (n : Nat) : Bool :=
  (2 * n - 1) ^ 1000 * 10 ^ (10000 - l).toNat ≤ 2 ^ 33000 * 10 ^ (l - 10000).toNat

/-- R38: the energy unit of a level from 0 to 16000. -/
def energyUnit (l : Level) : Nat := greatest (energyAtLeast l) 52 0

/-- Bring a value into a range (00_scope.md, Results of commands). -/
def clampTo (lo hi x : Int) : Int := if x < lo then lo else if hi < x then hi else x

/-- R39: the level of an energy sum over `n` minutes; void over none. -/
def reverseLevel (sum n : Nat) : LevelOrVoid :=
  if n = 0 then none
  else if sum = 0 then some 0
  else some (clampTo 0 16000 (10000 + roundLog sum (n * 2 ^ 32)))

/-- R133: `LAE` stands this far from `LAeq` for an event of so many slices. -/
def exposureStep (duration : Nat) : Int := roundLog duration 8

end Sys2Proof.Machine
end

