-- ==== Sys2Proof/Machine/Operands.lean ====
section
/-! DEFINITION. Operands: how parameter bytes are decoded (R183), masked, clamped (R168) and range-checked, and the checks' order. -/

namespace Sys2Proof.Machine

/-- Parameter byte `i`, counted from 0 after the command code. -/
def byteAt (bs : List Byte) (i : Nat) : Byte := bs.getD i 0

/-- A one-byte number. -/
def u8At (bs : List Byte) (i : Nat) : Nat := (byteAt bs i).toNat

/-- A 16-bit field, least significant byte first (R159). -/
def word16At (bs : List Byte) (i : Nat) : BitVec 16 := byteAt bs (i + 1) ++ byteAt bs i

/-- An unsigned 16-bit parameter. -/
def u16At (bs : List Byte) (i : Nat) : Nat := (word16At bs i).toNat

/-- A signed 16-bit level parameter (R183). -/
def levelAt (bs : List Byte) (i : Nat) : Level := (word16At bs i).toInt

/-- An unsigned 32-bit parameter, least significant byte first. -/
def u32At (bs : List Byte) (i : Nat) : Nat := (word16At bs (i + 2) ++ word16At bs i).toNat

/-- A signed byte in two's complement: the trim offset (R183). -/
def s8At (bs : List Byte) (i : Nat) : Int := (byteAt bs i).toInt

/-- A channel mask: bits above channel 3 are ignored (R168). -/
def maskAt (bs : List Byte) (i : Nat) : ChannelMask := (byteAt bs i).setWidth 4

/-- A day mask: bits above Sunday are ignored (R168). -/
def daysAt (bs : List Byte) (i : Nat) : DayMask := (byteAt bs i).setWidth 7

/-- An on/off or works-permitted value: any value other than 0 is taken as on (R168). -/
def flagAt (bs : List Byte) (i : Nat) : Bool := byteAt bs i != 0

/-- A character field, byte for byte (R183). -/
def charsAt (bs : List Byte) (i n : Nat) : Vector Byte n := Vector.ofFn fun k => byteAt bs (i + k.val)

/-- A count parameter brought into a range (R168). -/
def clampCount (lo hi n : Nat) : Nat := if n < lo then lo else if hi < n then hi else n

/-- A value lies within a range, both ends included. -/
def within (lo hi x : Int) : Bool := lo ≤ x && x ≤ hi

/-- The index of a schedule entry, if the number names one (R167). -/
def entryIndex? (n : Nat) : Option (Fin 16) := if h : n < 16 then some ⟨n, h⟩ else none

/-- The number of a dispensation slot, if the number names one (R167). -/
def slotIndex? (n : Nat) : Option (Fin 8) := if h : n < 8 then some ⟨n, h⟩ else none

/-- A character: 0x20 to 0x7E, or the pad 0x00 (R179). -/
def isCharacter (b : Byte) : Bool := b == 0 || (0x20 ≤ b.toNat && b.toNat ≤ 0x7E)

/-- The first check that fails decides the result (R167): `check c r k` refuses with `r` where the condition `c` holds, and goes
on with `k` where it does not. -/
def check {α : Type} (refuse : Bool) (r : Result) (go : Except Result α) : Except Result α :=
  if refuse then .error r else go

end Sys2Proof.Machine
end

