-- ==== Sys2Proof/Machine/Flags.lean ====
section
/-! DEFINITION. Flags: the codes of states, causes, outcomes and results (13, Enumerations), the flag bytes, and the status byte (R161). -/

namespace Sys2Proof.Machine

/-- A flag byte from its flags, bit 0 first; the other bits are 0 (R182). -/
def flagByte : List Bool → Byte
  | [] => 0
  | b :: bs => (if b then 1 else 0) ||| (flagByte bs <<< 1)

/-- R167: the code numbers. -/
def Result.code : Result → Byte
  | .ok => 0
  | .unknown => 1
  | .frame => 2
  | .role => 3
  | .notFound => 4
  | .absent => 5
  | .stale => 6
  | .state => 7
  | .locked => 8
  | .protection => 9
  | .clock => 10
  | .range => 11
  | .overlap => 12
  | .full => 13
  | .inUse => 14
  | .busy => 15

def ChannelState.code : ChannelState → Byte
  | .off => 0
  | .settling => 1
  | .measuring => 2
  | .calibrating _ _ => 3
  | .faulted => 4

def ChannelState.phaseCode : ChannelState → Byte
  | .calibrating .calSettle _ => 1
  | .calibrating .calMeasure _ => 2
  | .calibrating .calRecover _ => 3
  | .off => 0
  | .settling => 0
  | .measuring => 0
  | .faulted => 0

def SlotState.code : SlotState → Byte
  | .free => 0
  | .proposed => 1
  | .approved => 2
  | .active => 3

def SlotOutcome.code : SlotOutcome → Byte
  | .none => 0
  | .rejected => 1
  | .withdrawn => 2
  | .lapsed => 3
  | .ended => 4
  | .revoked => 5

def CalOutcome.code : CalOutcome → Byte
  | .none => 0
  | .running => 1
  | .aborted => 2
  | .fault => 3
  | .overload => 4
  | .unstable => 5
  | .outOfRange => 6
  | .pending => 7
  | .applied => 8
  | .rejected => 9
  | .lapsed => 10

def CloseCause.code : CloseCause → Byte
  | .timeSet => 2
  | .day => 3
  | .source => 4

def Verdict.code : Verdict → Byte
  | .void => 0
  | .compliant => 1
  | .incomplete => 2
  | .breach => 3

def QuietReason.code : QuietReason → Byte
  | .none => 0
  | .noWorks => 1
  | .allowanceSpent => 2
  | .budgetExhausted => 3

def EndCause.code : EndCause → Byte
  | .fell => 1
  | .interrupted => 2
  | .stopped => 3
  | .long => 4

def ProtectionMode.code : ProtectionMode → Byte
  | .openMode => 0
  | .line => 1
  | .fixed => 2

/-- The mode a coded parameter names, if it names one (R183). -/
def protectionMode? (b : Byte) : Option ProtectionMode :=
  match b with
  | 0 => some .openMode
  | 1 => some .line
  | 2 => some .fixed
  | _ => none

def ResetCause.code : ResetCause → Byte
  | .powerOn => 1
  | .line => 2
  | .command => 3

/-- Cause set bits: OVERLOAD bit 0, SATURATION bit 1, UNDERRANGE bit 2, FRAME-LOSS bit 3. -/
def Causes.byte (c : Causes) : Byte := flagByte [c.overload, c.saturation, c.underrange, c.frameLoss]

/-- The union of two cause sets. -/
def Causes.merge (a b : Causes) : Causes :=
  ⟨a.overload || b.overload, a.saturation || b.saturation, a.underrange || b.underrange, a.frameLoss || b.frameLoss⟩

/-- A store write is port-originated: every item but the CHANNEL items (R175). -/
def StoreWrite.fromPort : StoreWrite → Bool
  | .entry _ _ => true
  | .header _ => true
  | .protection _ => true
  | .channel _ _ => false
  | .commissioning _ => true

/-- Port-originated items pending. -/
def Store.portPending (st : Store) : Nat := (st.queue.filter StoreWrite.fromPort).length

/-- The store is busy while the queue is not empty or an item is being written (R175). -/
def Store.busy (st : Store) : Bool := !st.queue.isEmpty || st.writing.isSome

/-- A channel is FAULTED. -/
def Channel.isFaulted (c : Channel) : Bool := c.state == .faulted

/-- R161, with the bit positions of 13 (Status byte). -/
def State.statusByte (s : State) (p : Port) : Byte :=
  flagByte [s.attention p, s.store.busy, 4 ≤ s.store.portPending, s.clock.set, s.calUnit.run.isSome,
    Ch.list.any fun ch => (s.chan ch).isFaulted, s.quietLine, ((s.port p).notice .reset).flag]

end Sys2Proof.Machine
end

