-- ==== Sys2Proof/Machine/Engine.lean ====
section
/-! DEFINITION. Engine: the level engine (02_level_arithmetic.md): weighting sections, squares, blocks, slice results, the minute in progress and its summary. -/

namespace Sys2Proof.Machine

/-! ### Weighting sections (R21, R22) -/

/-- A section's coefficients, in units of 2^−22 (R21). -/
structure Coefficients where
  b0 : Int
  b1 : Int
  b2 : Int
  a1 : Int
  a2 : Int
deriving DecidableEq, Repr

/-- Sections A1 and C1 (R22). DEDUCED: the numbers of the five coefficient sets are the formulas of R22 worked to 50 digits and
rounded to the nearest multiple of 2^−22 (notes/assumptions/4.md); `coefficients_formed` proves it. -/
def coeffsA1 : Coefficients := ⟨4183017, -8366034, 4183017, -8366019, 4171746⟩

/-- Section A2 (R22). -/
def coeffsA2 : Coefficients := ⟨3973086, -7946172, 3973086, -7943469, 3754572⟩

/-- Section A3 (R22). -/
def coeffsA3 : Coefficients := ⟨1039723, 2079446, 1039723, -941866, 52876⟩

/-- Section C2 (R22). -/
def coeffsC2 : Coefficients := ⟨832253, 1664506, 832253, -941866, 52876⟩

/-- The exact sum of R21, in units of 2^−22. -/
def Section.exactSum (k : Coefficients) (q : Section) (x : Int) : Int :=
  k.b0 * x + k.b1 * q.x1 + k.b2 * q.x2 - k.a1 * q.y1 - k.a2 * q.y2

/-- R21: to the nearest integer, a value exactly halfway rounding toward positive. -/
def roundSum (sum : Int) : Int := (sum + 2 ^ 21) / 2 ^ 22

/-- R21: saturated into −2^23 to 2^23−1. -/
def saturate (y : Int) : Int := clampTo (-2 ^ 23) (2 ^ 23 - 1) y

/-- R21: one input of a section; the output is the new `y1`, and the flag says that it saturated. -/
def Section.step (k : Coefficients) (q : Section) (x : Int) : Section × Bool :=
  let r := roundSum (q.exactSum k x)
  (⟨x, q.x1, saturate r, q.y1⟩, saturate r != r)

/-- What one sample gives: the new sections, the A- and C-weighted samples, and whether any section saturated (R22). -/
structure Weighted where
  filters : Filters
  yA : Int
  yC : Int
  saturated : Bool
deriving DecidableEq, Repr

/-- R22: the A path is A1, A2, A3 in cascade, the C path C1, C2. -/
def Filters.step (q : Filters) (x : Int) : Weighted :=
  let a1 := q.a1.step coeffsA1 x
  let a2 := q.a2.step coeffsA2 a1.1.y1
  let a3 := q.a3.step coeffsA3 a2.1.y1
  let c1 := q.c1.step coeffsA1 x
  let c2 := q.c2.step coeffsC2 c1.1.y1
  ⟨⟨a1.1, a2.1, a3.1, c1.1, c2.1⟩, a3.1.y1, c2.1.y1, a1.2 || a2.2 || a3.2 || c1.2 || c2.2⟩

/-- R24: a square, saturated to 2^46−1. -/
def square (y : Int) : Nat := min (y * y).toNat (2 ^ 46 - 1)

/-- R20: a sample equal to either extreme. -/
def isExtreme (x : Int) : Bool := x == -2 ^ 23 || x == 2 ^ 23 - 1

/-- R20, R24, R25, R27, R30: the engine uses one sample. -/
def Engine.useSample (e : Engine) (sample : Sample) : Engine :=
  let x := sample.toInt
  let w := e.filters.step x
  let sl := e.slice
  { e with
    filters := w.filters
    slice := { sl with
      frames := sl.frames + 1
      blockCount := sl.blockCount + 1
      blockSum := sl.blockSum + square w.yA
      sumA := sl.sumA + square w.yA
      sumC := sl.sumC + square w.yC
      sumZ := sl.sumZ + square x
      causes := { sl.causes with
        overload := sl.causes.overload || isExtreme x
        saturation := sl.causes.saturation || w.saturated } } }

/-! ### Blocks and running values (R25, R26) -/

/-- R26: a running value moves toward the block mean by the difference over `divisor`, truncated toward zero. -/
def follow (divisor : Int) (v b : Nat) : Nat := ((v : Int) + Int.tdiv ((b : Int) - v) divisor).toNat

/-- The greater of a value and one that may be none. -/
def raiseTo (o : Option Nat) (v : Nat) : Option Nat :=
  match o with
  | none => some v
  | some m => some (max m v)

/-- The lesser of a value and one that may be none. -/
def lowerTo (o : Option Nat) (v : Nat) : Option Nat :=
  match o with
  | none => some v
  | some m => some (min m v)

/-- R25: the block mean, the quotient truncated to an integer. -/
def SliceAcc.blockMean (sl : SliceAcc) : Nat := sl.blockSum / 48

/-- R25, R26, R27: a block end. -/
def Engine.blockEnd (e : Engine) : Engine :=
  let b := e.slice.blockMean
  let f := follow 125 e.f b
  let s := follow 1000 e.s b
  { e with
    f := f
    s := s
    slice := { e.slice with
      blockCount := 0
      blockSum := 0
      greatestF := raiseTo e.slice.greatestF f
      leastF := lowerTo e.slice.leastF f
      greatestS := raiseTo e.slice.greatestS s } }

/-- R23: the weighting sections and the running values cleared. -/
def Engine.clear (e : Engine) : Engine := { e with filters := .clear, f := 0, s := 0 }

/-! ### Slice results (R31) -/

/-- A slice result (R31). -/
structure SliceResult where
  cls : SliceClass
  laeq : LevelOrVoid
  lafmax : LevelOrVoid
  lzeq : LevelOrVoid
  sumA : Nat
  sumZ : Nat
  fs : Level
  causes : Causes
deriving DecidableEq, Repr

/-- R31: the result of a slice of the given class; MISSING slices carry void levels, sums of 0 and make no conversion. -/
def SliceAcc.result (sl : SliceAcc) (cls : SliceClass) (fs : Level) : SliceResult :=
  match cls with
  | .missing => ⟨.missing, none, none, none, 0, 0, fs, sl.causes⟩
  | cls =>
    let a := convert fs sl.sumA 6000
    let f := convertRunning fs (sl.greatestF.getD 0)
    let z := convert fs sl.sumZ 6000
    ⟨cls, some a.level, some f.level, some z.level, sl.sumA, sl.sumZ, fs,
      { sl.causes with underrange := sl.causes.underrange || a.floored || f.floored || z.floored }⟩

/-! ### The minute in progress (R32, R33, R48) -/

/-- Merge an optional extreme into another. -/
def raiseOpt (o v : Option Nat) : Option Nat :=
  match v with
  | none => o
  | some x => raiseTo o x

def lowerOpt (o v : Option Nat) : Option Nat :=
  match v with
  | none => o
  | some x => lowerTo o x

/-- R33: one is added to the class's count and to the duration. -/
def MinuteAcc.count (m : MinuteAcc) (cls : SliceClass) : MinuteAcc :=
  let m := { m with duration := m.duration + 1 }
  match cls with
  | .missing => { m with missing := m.missing + 1 }
  | .calibration => { m with calibration := m.calibration + 1 }
  | .settling => { m with settling := m.settling + 1 }
  | .excluded => { m with excluded := m.excluded + 1 }
  | .valid => { m with valid := m.valid + 1 }

/-- R32: a VALID slice's sums and block-end values of f and s are taken in. -/
def MinuteAcc.takeLevels (m : MinuteAcc) (sl : SliceAcc) : MinuteAcc :=
  { m with
    sumA := m.sumA + sl.sumA
    sumC := m.sumC + sl.sumC
    greatestF := raiseOpt m.greatestF sl.greatestF
    leastF := lowerOpt m.leastF sl.leastF
    greatestS := raiseOpt m.greatestS sl.greatestS }

/-- R33: the slice's cause set, and FRAME-LOSS for a MISSING slice. -/
def MinuteAcc.takeCauses (m : MinuteAcc) (r : SliceResult) : MinuteAcc :=
  { m with causes := (m.causes.merge r.causes).merge { Causes.none with frameLoss := r.cls == .missing } }

/-- R32, R33, R48: a slice ends into the minute; past 721 slices only its causes are taken. -/
def MinuteAcc.takeSlice (m : MinuteAcc) (sl : SliceAcc) (r : SliceResult) : MinuteAcc :=
  if 721 ≤ m.duration then m.takeCauses r
  else if r.cls = .valid then ((m.count r.cls).takeLevels sl).takeCauses r
  else (m.count r.cls).takeCauses r

/-- R31, R33: the slice ends into the minute, its result is kept, and the next slice begins. -/
def Engine.endSlice (e : Engine) (r : SliceResult) : Engine :=
  { e with
    minute := e.minute.takeSlice e.slice r
    kept := some ⟨r.cls, r.sumA⟩
    slice := .empty }

/-- R8, R19, R30: the slice in progress is discarded; R40: the kept result is dropped as the channel enters OFF. -/
def Engine.discardSlice (e : Engine) : Engine := { e with slice := .empty, kept := none }

/-! ### The minute summary (R34, R35) -/

/-- A minute summary (R35), with the calibration sequence handed beside it (R138). -/
structure Summary where
  ch : Ch
  boundary : Boundary
  duration : Nat
  missing : Nat
  calibration : Nat
  settling : Nat
  excluded : Nat
  valid : Nat
  laeq : LevelOrVoid
  lceq : LevelOrVoid
  lafmax : LevelOrVoid
  lafmin : LevelOrVoid
  lasmax : LevelOrVoid
  fs : Level
  causes : Causes
  uncalibrated : Bool
  calSeq : Serial
deriving DecidableEq, Repr

/-- The five levels of R34 and whether any conversion was floored; all void when no slice was VALID. -/
structure MinuteLevels where
  laeq : LevelOrVoid
  lceq : LevelOrVoid
  lafmax : LevelOrVoid
  lafmin : LevelOrVoid
  lasmax : LevelOrVoid
  floored : Bool
deriving DecidableEq, Repr

/-- R34. -/
def MinuteAcc.levels (m : MinuteAcc) (fs : Level) : MinuteLevels :=
  if m.valid = 0 then ⟨none, none, none, none, none, false⟩
  else
    let a := convert fs m.sumA (6000 * m.valid)
    let c := convert fs m.sumC (6000 * m.valid)
    let fx := convertRunning fs (m.greatestF.getD 0)
    let fn := convertRunning fs (m.leastF.getD 0)
    let sx := convertRunning fs (m.greatestS.getD 0)
    ⟨some a.level, some c.level, some fx.level, some fn.level, some sx.level,
      a.floored || c.floored || fx.floored || fn.floored || sx.floored⟩

/-- R34, R35: the summary of a channel's minute, closed by a boundary. -/
def Channel.summary (c : Channel) (ch : Ch) (b : Boundary) : Summary :=
  let m := c.engine.minute
  let l := m.levels c.fs
  { ch := ch, boundary := b, duration := m.duration, missing := m.missing, calibration := m.calibration, settling := m.settling
    excluded := m.excluded, valid := m.valid, laeq := l.laeq, lceq := l.lceq, lafmax := l.lafmax, lafmin := l.lafmin
    lasmax := l.lasmax, fs := c.fs, causes := { m.causes with underrange := m.causes.underrange || l.floored }
    uncalibrated := c.uncalibrated, calSeq := c.calSeq }

end Sys2Proof.Machine
end

