-- ==== Sys2Proof/Machine/Schedule.lean ====
section
/-! DEFINITION. Schedule: weekdays, coverage, overlap, the mapping of a minute to its source and the parameters of a source (R55 to R61). -/

namespace Sys2Proof.Machine

/-- The minute-of-day of a minute number (00_scope.md, Minute number). -/
def minuteOfDay (n : Nat) : Nat := n % 1440

/-- The weekday of a minute number, Monday as 0 (00_scope.md, Minute number). -/
def weekday (n : Nat) : Nat := (5 + n / 1440) % 7

/-- The weekday before a weekday. -/
def weekdayBefore (wd : Nat) : Nat := (wd + 6) % 7

/-- R57: an entry's day mask, start and end cover a minute-of-day of a weekday: in the weekday's own run, or in the part past
midnight of the run that began the day before. -/
def Entry.coversAt (e : Entry) (wd m : Nat) : Bool :=
  if e.start < e.stop then e.days.getLsbD wd && (e.start ≤ m && m < e.stop)
  else (e.days.getLsbD wd && e.start ≤ m) || (e.days.getLsbD (weekdayBefore wd) && m < e.stop)

/-- R57: an entry covers a minute of a channel. -/
def Entry.covers (e : Entry) (ch : Ch) (n : Nat) : Bool :=
  maskHas e.channels ch && e.coversAt (weekday n) (minuteOfDay n)

/-- R58: there is a channel in both masks, a weekday and a minute-of-day that both entries cover. -/
def Entry.overlaps (a b : Entry) : Bool :=
  a.channels &&& b.channels != 0 &&
    (List.range 7).any fun wd => (List.range 1440).any fun m => a.coversAt wd m && b.coversAt wd m

/-- The entries 1 to 15, in rising index (R59). -/
def entryIndices : List (Fin 16) := (List.finRange 16).filter (· != 0)

/-- R58: an image at an index overlaps some other present entry among 1 to 15. -/
def State.entryOverlap (s : State) (i : Fin 16) (image : Entry) : Bool :=
  entryIndices.any fun j => j != i && s.entries[j].present && image.overlaps s.entries[j]

/-- A slot is APPROVED or ACTIVE. -/
def Slot.granted (x : Slot) : Bool := x.state == .approved || x.state == .active

/-- R59, step 1: an APPROVED or ACTIVE slot that holds the channel and whose span holds the minute. -/
def Slot.governs (x : Slot) (ch : Ch) (n : Nat) : Bool :=
  x.granted && maskHas x.channels ch && x.start ≤ n && n < x.stop

/-- R59, steps 2 and 3: the present entry among 1 to 15 that covers the minute, or entry 0. -/
def State.entryFor (s : State) (ch : Ch) (n : Nat) : Fin 16 :=
  (entryIndices.find? fun i => s.entries[i].present && s.entries[i].covers ch n).getD 0

/-- R59, step 1. -/
def State.slotFor (s : State) (ch : Ch) (n : Nat) : Option (Fin 8) :=
  (List.finRange 8).find? fun i => s.slots[i].governs ch n

/-- R59, R60: the source of minute `n` for a channel. -/
def State.sourceOf (s : State) (ch : Ch) (n : Nat) : Source :=
  match s.slotFor ch n with
  | some i => .dispensation i s.slots[i].serial
  | none => .entry (s.entryFor ch n)

/-- The parameters of an entry source (R60). -/
def Entry.rules (e : Entry) : Rules :=
  ⟨e.limit, e.trigger, e.works, e.impulseThreshold, e.impulsePenalty, e.lowFreqThreshold, e.lowFreqPenalty, e.cap⟩

/-- R60: the parameters a period takes from its source; a dispensation takes its penalty rules from the underlying entry. -/
def State.rulesOf (s : State) (ch : Ch) (n : Nat) : Source → Rules
  | .entry i => s.entries[i].rules
  | .dispensation i _ =>
    { s.entries[s.entryFor ch n].rules with
      limit := s.slots[i].limit, trigger := s.slots[i].trigger, works := s.slots[i].works }

/-- R60, R90: the reason code of a source, 0 for an entry. -/
def State.reasonOf (s : State) : Source → Byte
  | .entry _ => 0
  | .dispensation i _ => s.slots[i].reason

/-- R103: how many minutes after `n` the plan goes on, up to `fuel`: it stops before the account-day start and where the source
changes. -/
def State.plannedAfter (s : State) (ch : Ch) (src : Source) : (fuel n : Nat) → Nat
  | 0, _ => 0
  | fuel + 1, n =>
    if minuteOfDay (n + 1) = s.header.dayStart ∨ s.sourceOf ch (n + 1) ≠ src then 0
    else s.plannedAfter ch src fuel (n + 1) + 1

/-- R103: the planned minutes of a period opened for minute `n`, at least 1 and at most 1440. -/
def State.planned (s : State) (ch : Ch) (n : Nat) : Nat := s.plannedAfter ch (s.sourceOf ch n) 1439 n + 1

/-- R101: the latest minute number at or before `n` at the account-day start, or 0 where there is none. -/
def dayStartOf (start n : Nat) : Nat :=
  if start ≤ minuteOfDay n then n - minuteOfDay n + start
  else if n < 1440 then 0
  else n - minuteOfDay n - 1440 + start

/-- R67: an entry is protected, the header is protected. -/
def State.entryProtected (s : State) (i : Fin 16) : Bool := i.val < s.protection.extent

def State.headerProtected (s : State) : Bool := 0 < s.protection.extent

/-- R78: two spans overlap when each begins before the other ends. -/
def spansOverlap (a b : Slot) : Bool := a.start < b.stop && b.start < a.stop

/-- R78, R81: a slot would overlap another that is APPROVED or ACTIVE on a shared channel. -/
def Slot.clashes (a b : Slot) : Bool := b.granted && a.channels &&& b.channels != 0 && spansOverlap a b

end Sys2Proof.Machine
end

