-- ==== Sys2Proof/Machine/StoreQueue.lean ====
section
/-! DEFINITION. StoreQueue: queuing an item, beginning and ending its write (R66, R175 to R177), and cutting the store short (R172, R178). -/

namespace Sys2Proof.Machine

/-- The number of the item a store write is of (R175). -/
def StoreWrite.item : StoreWrite → Nat
  | .entry i _ => i.val
  | .header _ => 16
  | .protection _ => 17
  | .channel ch _ => 18 + ch.index
  | .commissioning _ => 22

/-- An item is pending in the queue. -/
def Store.isPending (st : Store) (item : Nat) : Bool := st.queue.any fun w => w.item == item

/-- R66, R176: a port-originated item can be queued: it is pending already, or fewer than four port-originated items are. -/
def Store.canTake (st : Store) (item : Nat) : Bool := st.isPending item || st.portPending < 4

/-- R176: the contents replace the pending ones in place, or the item joins the tail. -/
def Store.enqueue (st : Store) (w : StoreWrite) : Store :=
  if st.isPending w.item then { st with queue := st.queue.map fun x => if x.item = w.item then w else x }
  else { st with queue := st.queue ++ [w] }

/-- Queue an item of the part's store. -/
def State.enqueue (s : State) (w : StoreWrite) : State := { s with store := s.store.enqueue w }

/-- The stored item of a write, its completion mark clear (R175). -/
def StoredItems.clearMark (x : StoredItems) : StoreWrite → StoredItems
  | .entry i _ => { x with entries := x.entries.set i none }
  | .header _ => { x with header := none }
  | .protection _ => { x with protection := none }
  | .channel ch _ => { x with channels := x.channels.set ch none }
  | .commissioning _ => { x with commissioning := none }

/-- The stored item of a write, complete with the contents written (R177). -/
def StoredItems.complete (x : StoredItems) : StoreWrite → StoredItems
  | .entry i e => { x with entries := x.entries.set i (some e) }
  | .header h => { x with header := some h }
  | .protection p => { x with protection := some p }
  | .channel ch c => { x with channels := x.channels.set ch (some c) }
  | .commissioning r => { x with commissioning := some r }

/-- R177: the store is not writing and the queue is not empty. -/
def Store.beginDue (st : Store) : Bool := st.writing.isNone && !st.queue.isEmpty

/-- R175, R177: the item at the head leaves the queue, its completion mark is cleared and its write begins. -/
def Store.beginWrite (st : Store) : Store :=
  match st.writing, st.queue with
  | none, w :: rest => { items := st.items.clearMark w, queue := rest, writing := some w }
  | _, _ => st

/-- R177: begin the head item's write, if the store is idle and the queue is not empty. -/
def State.beginStoreWrite (s : State) : State := { s with store := s.store.beginWrite }

/-- R177: the write in progress ends. A read-back that matches completes the item; one that does not leaves its mark clear and
sets STORE with qualifier FAILED. -/
def State.endStoreWrite (s : State) (readsBack : Bool) : State :=
  match s.store.writing with
  | none => s
  | some w =>
    if readsBack then { s with store := { s.store with items := s.store.items.complete w, writing := none } }
    else { s with store := { s.store with writing := none } }.notifyBoth .store ⟨.ch0, 1, value32 w.item⟩

/-- R172, R178: an item being written is cut short (its mark stays clear) and the pending items are lost. -/
def Store.cutShort (st : Store) : Store := { st with queue := [], writing := none }

end Sys2Proof.Machine
end

