-- ==== Sys2Proof/Machine/Accounts.lean ====
section
/-! DEFINITION. Accounts: the account unit (06_period_and_day_accounts.md), the minute ring and period list as it writes them (R137, R139), the condition flags and the history lag (R145, R153). -/

namespace Sys2Proof.Machine

/-! ### The histogram (R92) -/

/-- R92: the bin of a slice LAeq. -/
def histogramBin (l : Level) : Fin 240 := ⟨min ((l - 2000) / 50).toNat 239, by omega⟩

/-- R92: one more slice in the bin of its LAeq. -/
def Period.countSlice (p : Period) (l : Level) : Period :=
  { p with histogram := p.histogram.set (histogramBin l) (p.histogram[histogramBin l] + 1) }

/-- R92: a VALID slice is counted in the open period, if there is one. -/
def Channel.countSlice (c : Channel) (r : SliceResult) : Channel :=
  match r.cls, r.laeq, c.period with
  | .valid, some l, some p => { c with period := some (p.countSlice l) }
  | _, _, _ => c

/-! ### Rating (R94) -/

/-- The rating of a minute (R94). -/
structure Rating where
  impulsive : Bool
  lowFreq : Bool
  penalty : Level
  lr : Level
deriving DecidableEq, Repr

/-- R94. -/
def Rules.rate (r : Rules) (laeq lafmax lceq : Level) : Rating :=
  let impulsive : Bool := r.impulseThreshold ≤ lafmax - laeq
  let lowFreq : Bool := r.lowFreqThreshold ≤ lceq - laeq
  let sum := (if impulsive then r.impulsePenalty else 0) + (if lowFreq then r.lowFreqPenalty else 0)
  let penalty := min sum r.cap
  ⟨impulsive, lowFreq, penalty, laeq + penalty⟩

/-- A level becomes another if it was void or lower (R95). -/
def raiseLevel (o : LevelOrVoid) (l : Level) : LevelOrVoid :=
  match o with
  | none => some l
  | some x => some (max x l)

/-! ### A minute enters the accounts (R93 to R97) -/

/-- R95: an accountable minute changes the open period account. -/
def Period.account (p : Period) (x : Rating) (laeq lafmax : Level) : Period :=
  { p with
    accounted := p.accounted + 1
    impulsive := p.impulsive + (if x.impulsive then 1 else 0)
    lowFreq := p.lowFreq + (if x.lowFreq then 1 else 0)
    ratedSum := p.ratedSum + energyUnit x.lr
    plainSum := p.plainSum + energyUnit laeq
    greatestLr := raiseLevel p.greatestLr x.lr
    lafMax := raiseLevel p.lafMax lafmax }

/-- The remaining allowance of a day account (R91). -/
def Day.remaining (d : Day) : Nat := d.allowance - d.spent

/-- What entering a minute gives: the channel's accounts after it, the marks of its record (R98), and whether ALLOWANCE-LOW
is given (R97). -/
structure MinuteEntry where
  chan : Channel
  source : Option Source
  impulsive : Bool
  lowFreq : Bool
  penalty : Level
  lr : LevelOrVoid
  accountable : Bool
  allowanceSpent : Bool
  breach : Bool
  lowNotice : Bool
deriving DecidableEq, Repr

/-- R96, R97: a trigger minute spends a minute of allowance where the source permits works and some is left, and is a breach
minute otherwise. Answers the day account, whether a minute was spent, and whether ALLOWANCE-LOW is given. -/
def settleTrigger (works : Bool) (day : Option Day) (lowMark : Nat) : Option Day × Bool × Bool :=
  match day with
  | none => (none, false, false)
  | some d =>
    if works && d.spent < d.allowance then
      let d := { d with spent := d.spent + 1 }
      if d.remaining ≤ lowMark && !d.lowGiven then (some { d with lowGiven := true }, true, true) else (some d, true, false)
    else (some { d with breaches := d.breaches + 1 }, false, false)

/-- R93 to R97: the minute of a summary enters the channel's open period, if one is open and the ending minute number is
present. -/
def Channel.enterMinute (c : Channel) (m : Summary) (lowMark : Nat) : MinuteEntry :=
  match c.period, m.boundary.ending with
  | some p, some k =>
    let p := { p with elapsed := p.elapsed + 1, last := some k }
    if 240 ≤ m.valid then
      let laeq := m.laeq.getD 0
      let lafmax := m.lafmax.getD 0
      let x := p.rules.rate laeq lafmax (m.lceq.getD 0)
      let p := p.account x laeq lafmax
      if p.rules.trigger ≠ 0 ∧ p.rules.trigger ≤ x.lr then
        let t := settleTrigger p.rules.works c.day lowMark
        let p := { p with triggers := p.triggers + 1, breaches := p.breaches + (if t.2.1 then 0 else 1) }
        ⟨{ c with period := some p, day := t.1 }, some p.source, x.impulsive, x.lowFreq, x.penalty, some x.lr, true, t.2.1, !t.2.1,
          t.2.2⟩
      else
        ⟨{ c with period := some p }, some p.source, x.impulsive, x.lowFreq, x.penalty, some x.lr, true, false, false, false⟩
    else ⟨{ c with period := some p }, some p.source, false, false, 0, none, false, false, false, false⟩
  | _, _ => ⟨c, none, false, false, 0, none, false, false, false, false⟩

/-! ### The minute record (R98, R137, R138) -/

/-- R137, R139: a record joins a collection at its newest end; the oldest is overwritten where it is full. -/
def pushBounded {α : Type} (cap : Nat) (l : List α) (a : α) : List α :=
  if cap ≤ l.length then l.drop 1 ++ [a] else l ++ [a]

/-- R138: the record of a minute. -/
def minuteRecord (sequence : Nat) (m : Summary) (e : MinuteEntry) : MinuteRecord :=
  { sequence := sequence, ch := m.ch, minute := m.boundary.ending, duration := m.duration, missing := m.missing
    calibration := m.calibration, settling := m.settling, excluded := m.excluded, valid := m.valid, laeq := m.laeq
    lceq := m.lceq, lafmax := m.lafmax, lafmin := m.lafmin, lasmax := m.lasmax, impulsive := e.impulsive, lowFreq := e.lowFreq
    penalty := e.penalty, lr := e.lr, accountable := e.accountable, allowanceSpent := e.allowanceSpent, breach := e.breach
    source := e.source, fs := m.fs, calSeq := m.calSeq, uncalibrated := m.uncalibrated, causes := m.causes }

/-- The four causes in the order of R153, with their qualifier codes. -/
inductive Cause where
  | overload
  | saturation
  | underrange
  | frameLoss
deriving DecidableEq, Repr

def Cause.list : List Cause := [.overload, .saturation, .underrange, .frameLoss]

def Cause.code : Cause → Byte
  | .overload => 1
  | .saturation => 2
  | .underrange => 3
  | .frameLoss => 4

def Causes.has (x : Causes) : Cause → Bool
  | .overload => x.overload
  | .saturation => x.saturation
  | .underrange => x.underrange
  | .frameLoss => x.frameLoss

def Causes.insert (x : Causes) : Cause → Causes
  | .overload => { x with overload := true }
  | .saturation => { x with saturation := true }
  | .underrange => { x with underrange := true }
  | .frameLoss => { x with frameLoss := true }

/-- R153: one cause of a minute record, at one port: a flag held clear becomes set and CONDITION is set. -/
def PortState.takeCause (x : PortState) (r : MinuteRecord) (k : Cause) : PortState :=
  if r.causes.has k && !(x.conditions.get r.ch).has k then
    { x with conditions := x.conditions.set r.ch ((x.conditions.get r.ch).insert k) }.notify .condition
      ⟨r.ch, k.code, value32 r.sequence⟩
  else x

/-- R153: a minute record's cause set, at one port. -/
def PortState.takeCauses (x : PortState) (r : MinuteRecord) : PortState := Cause.list.foldl (fun x k => x.takeCause r k) x

/-- R145: the history lag of a port. -/
def State.historyLag (s : State) (p : Port) : Nat := s.minuteSeq - (s.port p).historyCursor

/-- R145: HISTORY-LAG with the port's history cursor as detail. -/
def State.notifyLag (s : State) (p : Port) : State :=
  s.notify p .historyLag ⟨.ch0, 0, value32 (s.port p).historyCursor⟩

/-- R145: HISTORY-LAG is set where an event has raised a port's lag from below 1792 to 1792 or more. -/
def State.lagRaised (s : State) (before : Nat) (p : Port) : State :=
  if before < 1792 && 1792 ≤ s.historyLag p then s.notifyLag p else s

/-- R98, R137, R153, R145: a minute record is written. -/
def State.writeMinuteRecord (s : State) (r : MinuteRecord) : State :=
  let siteLag := s.historyLag .site
  let complianceLag := s.historyLag .compliance
  let s := { s with minuteRing := pushBounded 2048 s.minuteRing r, minuteSeq := s.minuteSeq + 1 }
  let s := s.notifyBoth .minute (plainDetail r.ch (value32 r.sequence))
  let s := { s with site := s.site.takeCauses r, compliance := s.compliance.takeCauses r }
  (s.lagRaised siteLag .site).lagRaised complianceLag .compliance

/-! ### Period figures (R104 to R106, R108) -/

/-- R104: the period rating level. -/
def Period.lr (p : Period) : LevelOrVoid := reverseLevel p.ratedSum p.accounted

/-- R104: the period equivalent level. -/
def Period.laeq (p : Period) : LevelOrVoid := reverseLevel p.plainSum p.accounted

/-- R105: the sum of the histogram's counters. -/
def Period.total (p : Period) : Nat := p.histogram.toList.sum

/-- R105: the bins from 239 downward, summed as they are taken: the first at which the sum reaches `k`. -/
def binReaching (k : Nat) : (bins : List (Nat × Nat)) → (sum : Nat) → Nat
  | [], _ => 0
  | (b, n) :: rest, sum => if k ≤ sum + n then b else binReaching k rest (sum + n)

/-- R105: the percentile level L_N. -/
def Period.percentile (p : Period) (n : Nat) : LevelOrVoid :=
  if p.total = 0 then none
  else
    let k := (n * p.total + 99) / 100
    let bins := (p.histogram.toList.zipIdx.map fun x => (x.2, x.1)).reverse
    some (2000 + 50 * (binReaching k bins 0 : Int))

/-- A level above another; void is above nothing (R37). -/
def aboveLimit (l : LevelOrVoid) (limit : Level) : Bool :=
  match l with
  | none => false
  | some x => limit < x

/-- R106: the verdict, with the coverage percent of the header. -/
def Period.verdict (p : Period) (coverage : Nat) : Verdict :=
  if p.accounted = 0 then .void
  else if aboveLimit p.lr p.rules.limit then .breach
  else if 100 * p.accounted < coverage * p.elapsed then .incomplete
  else .compliant

/-- The sustainable level (R108): a level, void or EXHAUSTED. -/
inductive Sustainable where
  | void
  | exhausted
  | level (l : Level)
deriving DecidableEq, Repr

/-- R108. -/
def Period.sustainable (p : Period) : Sustainable :=
  let budget := energyUnit p.rules.limit * p.planned
  if p.planned ≤ p.elapsed then .void
  else if budget ≤ p.ratedSum then .exhausted
  else
    match reverseLevel (budget - p.ratedSum) (p.planned - p.elapsed) with
    | none => .void
    | some l => .level l

/-! ### Closing a period (R99, R100, R107) -/

/-- R99, condition 2, for an open day account. -/
def pastDay (day : Option Day) (n : Nat) : Bool :=
  match day with
  | none => false
  | some d => d.start + 1440 ≤ n

/-- R99: the cause for which the open period closes before minute `n`, if it does. -/
def State.closeCause (s : State) (ch : Ch) (timeSet : Bool) (n : Nat) (p : Period) : Option CloseCause :=
  if timeSet then some .timeSet
  else if minuteOfDay n = s.header.dayStart ∨ pastDay (s.chan ch).day n then some .day
  else if s.sourceOf ch n ≠ p.source then some .source
  else none

/-- R107. -/
def periodRecord (sequence : Nat) (ch : Ch) (p : Period) (cause : CloseCause) (coverage : Nat) : PeriodRecord :=
  { sequence := sequence, ch := ch, source := p.source, reason := p.reason, opening := p.opening, closing := p.last
    cause := cause, planned := p.planned, elapsed := p.elapsed, accounted := p.accounted, impulsive := p.impulsive
    lowFreq := p.lowFreq, triggers := p.triggers, breaches := p.breaches, lr := p.lr, laeq := p.laeq, greatestLr := p.greatestLr
    lafMax := p.lafMax, l10 := p.percentile 10, l50 := p.percentile 50, l90 := p.percentile 90, limit := p.rules.limit
    verdict := p.verdict coverage }

/-- R100, R139: the period record is written, PERIOD and, for a BREACH verdict, BREACH are set, and the account is dropped. -/
def State.closePeriod (s : State) (ch : Ch) (p : Period) (cause : CloseCause) : State :=
  let r := periodRecord s.periodSeq ch p cause s.header.coverage
  let s := { s with periodList := pushBounded 96 s.periodList r, periodSeq := s.periodSeq + 1 }
  let s := s.setChan ch { s.chan ch with period := none }
  let s := s.notifyBoth .period (plainDetail ch (value32 r.sequence))
  if r.verdict = .breach then s.notifyBoth .breach ⟨ch, 2, value32 r.sequence⟩ else s

/-! ### Opening the day account and the period (R101, R102) -/

/-- R101: the day account opens or reopens for minute `n`. -/
def State.dayOpens (s : State) (ch : Ch) (timeSet : Bool) (n : Nat) : Bool :=
  match (s.chan ch).day with
  | none => true
  | some d =>
    if timeSet then dayStartOf s.header.dayStart n != d.start
    else minuteOfDay n == s.header.dayStart || d.start + 1440 ≤ n

/-- R101: a day account opened for minute `n`. -/
def State.openDay (s : State) (ch : Ch) (n : Nat) : State :=
  s.setChan ch { s.chan ch with day := some ⟨dayStartOf s.header.dayStart n, s.header.allowance, 0, 0, false⟩ }

/-- R102: a period opened for minute `n`. -/
def State.newPeriod (s : State) (ch : Ch) (n : Nat) : Period :=
  let src := s.sourceOf ch n
  { source := src, reason := s.reasonOf src, rules := s.rulesOf ch n src, opening := n, last := none, planned := s.planned ch n
    elapsed := 0, accounted := 0, impulsive := 0, lowFreq := 0, triggers := 0, breaches := 0, ratedSum := 0, plainSum := 0
    greatestLr := none, lafMax := none, histogram := Vector.replicate 240 0 }

/-- R102. -/
def State.openPeriod (s : State) (ch : Ch) (n : Nat) : State :=
  s.setChan ch { s.chan ch with period := some (s.newPeriod ch n) }

/-- R99: the open period closes before minute `n`, if a cause holds. -/
def State.closeIfDue (s : State) (ch : Ch) (timeSet : Bool) (n : Nat) : State :=
  match (s.chan ch).period with
  | none => s
  | some p =>
    match s.closeCause ch timeSet n p with
    | none => s
    | some cause => s.closePeriod ch p cause

/-- R99 to R102: one minute ahead. -/
def State.lookAhead (s : State) (ch : Ch) (timeSet : Bool) (n : Nat) : State :=
  let opens := s.dayOpens ch timeSet n
  let s := s.closeIfDue ch timeSet n
  let s := if opens then s.openDay ch n else s
  if (s.chan ch).period.isNone then s.openPeriod ch n else s

/-! ### The device quiet condition (R109, R110) -/

/-- The channel is in the installed mask of the working commissioning record. -/
def State.installed (s : State) (ch : Ch) : Bool := maskHas s.commissioning.installed ch

/-- R109: the reason of the device quiet condition of a channel. -/
def State.quietReasonOf (s : State) (ch : Ch) : QuietReason :=
  match (s.chan ch).period with
  | none => .none
  | some p =>
    if !s.installed ch then .none
    else if !p.rules.works then .noWorks
    else if (s.chan ch).day.any fun d => d.remaining == 0 then .allowanceSpent
    else if p.sustainable = .exhausted then .budgetExhausted
    else .none

/-- R110: the account unit evaluates the condition of a channel and holds it. -/
def State.holdQuiet (s : State) (ch : Ch) : State := s.setChan ch { s.chan ch with quiet := s.quietReasonOf ch }

/-- R93, step 4, and R156. -/
def State.evaluateQuiet (s : State) (ch : Ch) : State := (s.holdQuiet ch).bringQuiet ch .channel

/-! ### A minute arrives (R93) -/

/-- R93, steps 1 and 2: the minute is entered and its record written, with the notices of R96 and R97. -/
def State.enterMinute (s : State) (m : Summary) : State :=
  let e := (s.chan m.ch).enterMinute m s.header.lowMark
  let seq := value32 s.minuteSeq
  let r := minuteRecord s.minuteSeq m e
  let s := s.setChan m.ch e.chan
  let s := if e.breach then s.notifyBoth .breach ⟨m.ch, 1, seq⟩ else s
  let s := if e.lowNotice then s.notifyBoth .allowanceLow (plainDetail m.ch seq) else s
  s.writeMinuteRecord r

/-- R93: the whole work of the account unit on a minute summary. -/
def State.accountMinute (s : State) (m : Summary) : State :=
  let s := s.enterMinute m
  let s :=
    match m.boundary.next with
    | none => s
    | some n => s.lookAhead m.ch m.boundary.timeSet n
  s.evaluateQuiet m.ch

end Sys2Proof.Machine
end

