-- ==== Sys2Proof/Machine/Detector.lean ====
section
/-! DEFINITION. Detector: the event detector and the event list (08_exceedance_events.md). -/

namespace Sys2Proof.Machine

/-- R127: the release level. -/
def Channel.release (c : Channel) : Level := c.trigger - c.hysteresis

/-- R134: the list makes room for a record: where it holds 32, the oldest CLOSED record is removed. -/
def makeRoom (l : List EventRecord) : List EventRecord :=
  if 32 ≤ l.length then l.eraseP fun r => r.closed.isSome else l

/-- R129: the event a VALID slice opens. -/
def SliceResult.opens (r : SliceResult) (trigger : Level) : Bool :=
  r.cls == .valid && r.lafmax.any fun l => trigger ≤ l

/-- R129: opening an event on the slice result that opens it; the minute in progress does not hold the slice yet. -/
def State.openEvent (s : State) (ch : Ch) (r : SliceResult) : State :=
  let c := s.chan ch
  let rec' : EventRecord :=
    { sequence := s.eventSeq, ch := ch, startMinute := c.minuteNo, startOffset := c.engine.minute.duration
      continuation := c.continuation, closed := none }
  let e : OpenEvent :=
    { sequence := s.eventSeq, count := 1, sumA := r.sumA, peak := r.lafmax.getD 0, tailCount := 0, tailSum := 0, span := 1 }
  let s := { s with eventList := makeRoom s.eventList ++ [rec'], eventSeq := s.eventSeq + 1 }
  let s := s.setChan ch { c with openEvent := some e }
  s.notifyBoth .event ⟨ch, 1, value32 rec'.sequence⟩

/-- R133: LAeq of an event's committed figures with an FS. -/
def OpenEvent.laeq (e : OpenEvent) (fs : Level) : Level := (convert fs e.sumA (6000 * e.count)).reading

/-- R133: LAE. -/
def OpenEvent.lae (e : OpenEvent) (fs : Level) : Level := e.laeq fs + exposureStep e.count

/-- R133: the figures an event's record takes at its close. The channel's FS and open period are those of that moment. -/
def Channel.closeFigures (c : Channel) (e : OpenEvent) (cause : EndCause) : EventClose :=
  { duration := e.count, peak := e.peak, laeq := e.laeq c.fs, lae := e.lae c.fs
    impulsive := c.period.map fun p => decide (p.rules.impulseThreshold ≤ e.peak - e.laeq c.fs), cause := cause }

/-- R133: the record of a sequence is completed. -/
def completeRecord (l : List EventRecord) (sequence : Nat) (x : EventClose) : List EventRecord :=
  l.map fun r => if r.sequence = sequence then { r with closed := some x } else r

/-- R133: the channel's open event closes, if it has one. -/
def State.closeEvent (s : State) (ch : Ch) (cause : EndCause) : State :=
  let c := s.chan ch
  match c.openEvent with
  | none => s
  | some e =>
    let s := { s with eventList := completeRecord s.eventList e.sequence (c.closeFigures e cause) }
    let s := s.setChan ch { c with openEvent := none }
    s.notifyBoth .event ⟨ch, 2, value32 e.sequence⟩

/-- R130: what a VALID slice does to the committed figures, the tail and the span count. -/
def OpenEvent.takeSlice (e : OpenEvent) (release : Level) (r : SliceResult) : OpenEvent :=
  let e := { e with span := e.span + 1 }
  let l := r.lafmax.getD 0
  if release ≤ l then
    { e with count := e.count + e.tailCount + 1, sumA := e.sumA + e.tailSum + r.sumA, peak := max e.peak l, tailCount := 0
             tailSum := 0 }
  else { e with tailCount := e.tailCount + 1, tailSum := e.tailSum + r.sumA }

/-- R130: the eighth tail slice closes the event with cause FELL. -/
def OpenEvent.fell (e : OpenEvent) : Bool := e.tailCount == 8

/-- R132: the span count closes the event with cause LONG; the check is made after any FELL close. -/
def OpenEvent.tooLong (e : OpenEvent) : Bool := !e.fell && e.span == 28800

/-- R132: the continuation flag of a channel. -/
def State.setContinuation (s : State) (ch : Ch) (b : Bool) : State := s.setChan ch { s.chan ch with continuation := b }

/-- R129 to R132: a slice result reaches the detector. The continuation flag is read by an opening and then cleared; a LONG close
sets it. -/
def State.detectSlice (s : State) (ch : Ch) (r : SliceResult) : State :=
  let c := s.chan ch
  match c.openEvent with
  | none => (if r.opens c.trigger then s.openEvent ch r else s).setContinuation ch false
  | some e =>
    if r.cls ≠ .valid then (s.closeEvent ch .interrupted).setContinuation ch false
    else
      let e := e.takeSlice c.release r
      let s := s.setChan ch { c with openEvent := some e }
      if e.fell then (s.closeEvent ch .fell).setContinuation ch false
      else if e.tooLong then (s.closeEvent ch .long).setContinuation ch true
      else s.setContinuation ch false

/-- R134: the oldest sequence the event list holds, or the next where it is empty. The list is in increasing order, so its
first record has the least sequence. -/
def State.eventOldest (s : State) : Nat :=
  match s.eventList with
  | [] => s.eventSeq
  | r :: _ => r.sequence

end Sys2Proof.Machine
end

