-- ==== Sys2Proof/Machine/CalibrationUnit.lean ====
section
/-! DEFINITION. CalibrationUnit: runs, outcomes, pending results and the FS switch (07_calibration.md). -/

namespace Sys2Proof.Machine

/-- R115: later changes of a record alter only the outcome and the minute number. -/
def CalRecord.conclude (r : CalRecord) (o : CalOutcome) (minute : MinuteOrAbsent) : CalRecord :=
  { r with outcome := o, minute := minute }

/-- R115: a channel's record takes an outcome and the minute number in progress. -/
def State.concludeRecord (s : State) (ch : Ch) (o : CalOutcome) : State :=
  s.setChan ch { s.chan ch with calRecord := (s.chan ch).calRecord.conclude o s.minuteNow }

/-- The unit is RUNNING on a channel. -/
def State.runningOn (s : State) (ch : Ch) : Bool := s.calUnit.run.any fun r => r.ch == ch

/-- R120, R121: the run on a channel ends with ABORTED or FAULT: the accumulators are dropped, the unit becomes IDLE, the
record takes the outcome and CAL is set. Nothing happens where the unit is not RUNNING on the channel. -/
def State.endRun (s : State) (ch : Ch) (o : CalOutcome) : State :=
  if s.runningOn ch then
    let s := { s with calUnit := { s.calUnit with run := none } }
    let s := s.concludeRecord ch o
    s.notifyCal ch (s.chan ch).calRecord.serial
  else s

/-- The greater, and the lesser, of a level and one that may be void. -/
def raiseVoid (o : LevelOrVoid) (l : Level) : LevelOrVoid :=
  match o with
  | none => some l
  | some x => some (max x l)

def lowerVoid (o : LevelOrVoid) (l : Level) : LevelOrVoid :=
  match o with
  | none => some l
  | some x => some (min x l)

/-- R117: a slice result is taken into the run accumulators. -/
def CalRun.takeSlice (x : CalRun) (r : SliceResult) : CalRun :=
  { x with
    zSum := x.zSum + r.sumZ
    count := x.count + 1
    greatestLZ := raiseVoid x.greatestLZ (r.lzeq.getD 0)
    leastLZ := lowerVoid x.leastLZ (r.lzeq.getD 0)
    overload := x.overload || r.causes.overload }

/-- The channel is in CAL-MEASURE. -/
def ChannelState.isMeasure : ChannelState → Bool
  | .calibrating .calMeasure _ => true
  | .calibrating .calSettle _ => false
  | .calibrating .calRecover _ => false
  | .off => false
  | .settling => false
  | .measuring => false
  | .faulted => false

/-- R117: the unit takes a CALIBRATION slice of the run's channel that ends in CAL-MEASURE. -/
def State.calTakeSlice (s : State) (ch : Ch) (r : SliceResult) : State :=
  match s.calUnit.run with
  | none => s
  | some x =>
    if x.ch = ch ∧ (s.chan ch).state.isMeasure = true ∧ r.cls = .calibration then
      { s with calUnit := { s.calUnit with run := some (x.takeSlice r) } }
    else s

/-- What a completed run forms (R118). -/
structure RunFigures where
  meas : Level
  delta : Level
  newFs : Level
  outcome : CalOutcome
deriving DecidableEq, Repr

/-- R118: L_meas, delta, new FS and the outcome, the first that applies. -/
def CalRun.figures (x : CalRun) (fs reference : Level) : RunFigures :=
  let meas := (convert fs x.zSum 960000).level
  let spread := x.greatestLZ.getD 0 - x.leastLZ.getD 0
  let delta := reference - meas
  let newFs := fs + delta
  let outcome :=
    if x.overload then .overload
    else if 30 < spread then .unstable
    else if !within (-300) 300 delta || !within 10000 15000 newFs then .outOfRange
    else if within (-50) 50 delta then .applied
    else .pending
  ⟨meas, delta, newFs, outcome⟩

/-- R119: what the outcome does to the channel: the record, a pending result, or an FS switch asked for (R122, R124). -/
def Channel.takeOutcome (c : Channel) (x : RunFigures) (minute : MinuteOrAbsent) : Channel :=
  let c := { c with calRecord := { c.calRecord with
    outcome := x.outcome, meas := some x.meas, delta := some x.delta, minute := minute, newFs := some x.newFs } }
  match x.outcome with
  | .pending => { c with pendingResult := some ⟨c.calRecord.serial, x.newFs, 0⟩ }
  | .applied => { c with pendingFs := some x.newFs }
  | _ => c

/-- R118, R119: the run on a channel ends with its outcome. -/
def State.completeRun (s : State) (ch : Ch) : State :=
  match s.calUnit.run with
  | none => s
  | some x =>
    if x.ch = ch then
      let c := s.chan ch
      let s := { s with calUnit := { s.calUnit with run := none } }
      let s := s.setChan ch (c.takeOutcome (x.figures c.fs (c.calRecord.reference.getD 0)) s.minuteNow)
      s.notifyCal ch x.serial
    else s

/-- R122: a pending result's lapse count has reached 600. -/
def Channel.lapseDue (c : Channel) : Bool := c.pendingResult.any fun r => 600 ≤ r.lapse

/-- R122: the pending result of a channel lapses, if its count has reached 600. -/
def State.lapseResult (s : State) (ch : Ch) : State :=
  if (s.chan ch).lapseDue then
    let s := s.setChan ch { s.chan ch with pendingResult := none }
    let s := s.concludeRecord ch .lapsed
    s.notifyCal ch (s.chan ch).calRecord.serial
  else s

/-- R122: one tick of elapsed clock time on a channel's pending result. -/
def Channel.tickLapse (c : Channel) : Channel :=
  match c.pendingResult with
  | none => c
  | some r => { c with pendingResult := some { r with lapse := r.lapse + 1 } }

/-- What the CHANNEL item of a channel holds (R124, R175). -/
def Channel.item (c : Channel) : ChannelItem := ⟨c.fs, c.calSeq, c.calRecord⟩

/-- R124: the FS switch of a channel, if one is pending. -/
def State.switchFs (s : State) (ch : Ch) : State :=
  match (s.chan ch).pendingFs with
  | none => s
  | some fs =>
    let c := { s.chan ch with fs := fs, calSeq := (s.chan ch).calSeq + 1, uncalibrated := false, pendingFs := none }
    let s := (s.setChan ch c).enqueue (.channel ch c.item)
    s.notifyCal ch c.calRecord.serial

end Sys2Proof.Machine
end

