-- ==== Sys2Proof/Machine/Minute.lean ====
section
/-! DEFINITION. Minute: minute boundaries, the closing of a channel's minute, slice ends, and the events that start, cut and stop a channel's slices (01, 03, R84). -/

namespace Sys2Proof.Machine

/-! ### Closing a minute (R34, R45 to R47, R124, R129) -/

/-- A channel's minute closes with a boundary: the summary is formed and handed on, the accumulators are cleared (R34), the number of the
minute in progress becomes the boundary's next (R129), the account unit does its work (R93), and the FS switch is made
last, if this close makes it (R124). -/
def State.closeMinute (s : State) (ch : Ch) (w : WaitingClose) : State :=
  let c := s.chan ch
  let m := c.summary ch w.boundary
  let s := s.setChan ch { c with engine := { c.engine with minute := .empty }, minuteNo := w.boundary.next }
  let s := s.accountMinute m
  if w.makesSwitch then s.switchFs ch else s

/-- R45 to R47: the waiting close of a channel, if there is one, is made. -/
def State.closeWaiting (s : State) (ch : Ch) : State :=
  match (s.chan ch).waiting with
  | none => s
  | some w => (s.setChan ch { s.chan ch with waiting := none }).closeMinute ch w

/-- A boundary as a channel holds it: it makes the FS switch if one is pending as it arrives (R124). -/
def Channel.hold (c : Channel) (b : Boundary) : WaitingClose := ⟨b, c.pendingFs.isSome⟩

/-- R46, R47: a boundary makes a channel close a minute at once: it is OFF, or a close is waiting. -/
def Channel.closesAtOnce (c : Channel) : Bool := c.state == .off || c.waiting.isSome

/-- R45 to R47: a minute boundary reaches a channel. -/
def State.receiveBoundary (b : Boundary) (s : State) (ch : Ch) : State :=
  if (s.chan ch).state = .off then s.closeMinute ch ((s.chan ch).hold b)
  else
    let s := s.closeWaiting ch
    s.setChan ch { s.chan ch with waiting := some ((s.chan ch).hold b) }

/-! ### Dispensations at a boundary (R84) -/

/-- R84: what the table's row makes of a slot at a boundary into minute `n`; `none` where no row is met. -/
def Slot.atMinute (x : Slot) (n : Nat) : Option Slot :=
  match x.state with
  | .free => none
  | .proposed => if x.start ≤ n then some { x with state := .free, outcome := .lapsed } else none
  | .approved =>
    if x.stop ≤ n then some { x with state := .free, outcome := .ended }
    else if x.start ≤ n then some { x with state := .active }
    else none
  | .active =>
    if x.stop ≤ n then some { x with state := .free, outcome := .ended }
    else if n < x.start then some { x with state := .approved }
    else none

/-- A slot takes new contents and the DISPENSATION notice is set on both ports (R77). -/
def State.changeSlot (s : State) (i : Fin 8) (x : Slot) : State :=
  { s with slots := s.slots.set i x }.notifyBoth .dispensation ⟨.ch0, BitVec.ofNat 8 i.val, serial32 x.serial⟩

/-- R84: one slot at a boundary. -/
def State.moveSlot (n : Nat) (s : State) (i : Fin 8) : State :=
  match s.slots[i].atMinute n with
  | none => s
  | some x => s.changeSlot i x

/-- R84: the table at a boundary; an absent next minute number moves no slot. -/
def State.moveSlots (s : State) (next : MinuteOrAbsent) : State :=
  match next with
  | none => s
  | some n => s.inAnyOrder ((List.finRange 8).filter fun i => (s.slots[i].atMinute n).isSome) (State.moveSlot n)

/-! ### Boundaries (R43, R44) -/

/-- R44: a boundary reaches the dispensation table and the four channels. The table's changes give the same source of the boundary's next
minute either way (R61). The model moves the slots first, which the source of an older next minute can show where a waiting close is made at
once (R47) (DESIGN CHOICE, unsafe: notes/assumptions/14.md). The channels that close at once do so in any order. While the part is held in
reset its blocks take no boundary. -/
def State.deliver (s : State) (b : Boundary) : State :=
  if s.running then
    let s := s.moveSlots b.next
    let closing := Ch.list.filter fun ch => (s.chan ch).closesAtOnce
    let holding := Ch.list.filter fun ch => !(s.chan ch).closesAtOnce
    holding.foldl (State.receiveBoundary b) (s.inAnyOrder closing (State.receiveBoundary b))
  else s

/-- R43: the ordinary boundary of the minute in progress. -/
def Clock.boundary (c : Clock) : Boundary :=
  if c.set then ⟨some c.minute, some (c.minute + 1), false⟩ else ⟨none, none, false⟩

/-- R43: the clock after an ordinary boundary. -/
def Clock.nextMinute (c : Clock) : Clock :=
  { c with minute := if c.set then c.minute + 1 else c.minute, seconds := 0, length := 60 }

/-- R42, R43: the seconds counter equals or exceeds the current minute length. -/
def Clock.boundaryDue (c : Clock) : Bool := c.length ≤ c.seconds

/-- R43: the clock emits an ordinary boundary, if one is due. -/
def State.emitBoundary (s : State) : State :=
  if s.clock.boundaryDue then { s with clock := s.clock.nextMinute }.deliver s.clock.boundary else s

/-! ### Slice ends (R7, R10 to R12) -/

/-- R14: weather exclusion is in force on a channel. -/
def State.weatherExcluded (s : State) (ch : Ch) : Bool := s.wx && maskHas s.commissioning.weather ch

/-- R12, rows 4 and 5: EXCLUDED while command or weather exclusion holds, VALID otherwise. -/
def State.measuredClass (s : State) (ch : Ch) : SliceClass :=
  if (s.chan ch).excluded || s.weatherExcluded ch then .excluded else .valid

/-- R12: the class a slice takes at its end; `cut` where a line loss or restoration cuts it short. -/
def State.sliceClass (s : State) (ch : Ch) (cut : Bool) : SliceClass :=
  if cut || !s.linePresent ch then .missing
  else
    match (s.chan ch).state with
    | .calibrating .calSettle _ => .calibration
    | .calibrating .calMeasure _ => .calibration
    | .calibrating .calRecover _ => .settling
    | .settling => .settling
    | .off => s.measuredClass ch
    | .measuring => s.measuredClass ch
    | .faulted => s.measuredClass ch

/-- R10: the channel enters OFF from CAL-RECOVER: the slice grid ends, the kept result is dropped (R40), CHANNEL is set. -/
def State.returnToOff (s : State) (ch : Ch) : State :=
  let c := s.chan ch
  (s.setChan ch { c with state := .off, settle := 0, engine := c.engine.discardSlice }).notifyChannel ch .off

/-- A channel enters a state with its settle count at 0. -/
def State.enter (s : State) (ch : Ch) (x : ChannelState) : State := s.setChan ch { s.chan ch with state := x, settle := 0 }

/-- R7, R10: the settle count moves on at a slice end, and with it the state. -/
def State.settleProgress (s : State) (ch : Ch) : State :=
  let c := s.chan ch
  let more := s.setChan ch { c with settle := c.settle + 1 }
  match c.state with
  | .off => s
  | .measuring => s
  | .faulted => s
  | .settling => if 16 ≤ c.settle + 1 then s.enter ch .measuring else more
  | .calibrating .calSettle r => if 40 ≤ c.settle + 1 then s.enter ch (.calibrating .calMeasure r) else more
  | .calibrating .calMeasure r =>
    if 160 ≤ c.settle + 1 then (s.completeRun ch).enter ch (.calibrating .calRecover r) else more
  | .calibrating .calRecover .settling => if 16 ≤ c.settle + 1 then s.enter ch .settling else more
  | .calibrating .calRecover .off => if 16 ≤ c.settle + 1 then s.returnToOff ch else more

/-- The result of the slice in progress, were it to end now (R12, R31). -/
def State.sliceResult (s : State) (ch : Ch) (cut : Bool) : SliceResult :=
  (s.chan ch).engine.slice.result (s.sliceClass ch cut) (s.chan ch).fs

/-- R11: the slice result is handed to the account unit, the event detector and the calibration unit, is added to the minute
and kept, and the next slice begins. -/
def State.handOn (s : State) (ch : Ch) (r : SliceResult) : State :=
  let s := s.setChan ch ((s.chan ch).countSlice r)
  let s := s.detectSlice ch r
  let s := s.calTakeSlice ch r
  s.setChan ch { s.chan ch with engine := (s.chan ch).engine.endSlice r }

/-- R11: a slice ends and its result is handed on; the settle count moves on; a waiting minute closes with this slice as its last
(R45). The detector's close comes before the summary (R133). -/
def State.endSlice (s : State) (ch : Ch) : State :=
  ((s.handOn ch (s.sliceResult ch false)).settleProgress ch).closeWaiting ch

/-- R3, R4, R11: a slice is cut short as MISSING by a line loss or restoration. Its end moves no phase on: the loss or restoration
decides the state (R3, R4, R121). -/
def State.cutSlice (s : State) (ch : Ch) : State := (s.handOn ch (s.sliceResult ch true)).closeWaiting ch

/-- R25: a block of the slice in progress is complete. -/
def Channel.blockDue (c : Channel) : Bool := 48 ≤ c.engine.slice.blockCount

/-- R25, R26: the block end of a channel, if its block is complete. -/
def State.blockEnd (s : State) (ch : Ch) : State :=
  if (s.chan ch).blockDue then s.setChan ch { s.chan ch with engine := (s.chan ch).engine.blockEnd } else s

/-- R11: the slice in progress of a running channel has its 6000th frame. -/
def State.sliceDue (s : State) (ch : Ch) : Bool :=
  s.running && (s.chan ch).state != .off && s.linePresent ch && 6000 ≤ (s.chan ch).engine.slice.frames

/-- R11, R25: the frame-timed slice of a channel ends, if its 6000th frame has been taken; the 6000th sample also ends the slice's
125th block. -/
def State.frameSliceEnd (s : State) (ch : Ch) : State := if s.sliceDue ch then (s.blockEnd ch).endSlice ch else s

/-- R11: the crystal-timed slice of a channel on a LOST line ends. -/
def State.crystalSliceEnd (s : State) (ch : Ch) : State :=
  if s.running && (s.chan ch).state != .off && !s.linePresent ch then s.endSlice ch else s

/-! ### Line loss and restoration (R2 to R4) -/

/-- R3: a channel treats the loss of its line: its slice is cut short, a run in CAL-SETTLE or CAL-MEASURE ends with FAULT, and it
enters FAULTED. -/
def State.loseChannel (s : State) (ch : Ch) : State :=
  match (s.chan ch).state with
  | .off => s
  | .faulted => s
  | _ => (((s.cutSlice ch).endRun ch .fault).enter ch .faulted).notifyChannel ch .faulted

/-- R2, R3: 66 crystal periods have passed on a line without a frame taken. A PRESENT line is declared lost; on a LOST one the
pause sets the run counter back to 0. -/
def State.lineLost (s : State) (l : Line) : State :=
  if s.running then
    if (s.rx l).present then (s.setRx l ⟨false, 0, 66⟩).inAnyOrder l.channels State.loseChannel
    else s.setRx l ⟨false, 0, 66⟩
  else s

/-- R2: the good-frame run counter has reached 4800 on a LOST line. -/
def LineRx.restoreDue (r : LineRx) : Bool := !r.present && 4800 ≤ r.run

/-- R4: a FAULTED channel treats the restoration of its line. -/
def State.restoreChannel (s : State) (ch : Ch) : State :=
  if (s.chan ch).state = .faulted then
    let s := (s.cutSlice ch).enter ch .settling
    let s := s.setChan ch { s.chan ch with engine := (s.chan ch).engine.clear }
    s.notifyChannel ch .settling
  else s

/-- R2, R4: a line is declared restored, if its run counter has reached 4800. -/
def State.lineRestored (s : State) (l : Line) : State :=
  if s.running && (s.rx l).restoreDue then
    (s.setRx l { s.rx l with present := true, run := 4800 }).inAnyOrder l.channels State.restoreChannel
  else s

/-- R1, R2: a frame is taken on a line: on a PRESENT line the samples are used by the channels that are not OFF; on a LOST
one the frame adds one to the run counter. -/
def State.takeFrame (s : State) (l : Line) (lower upper : Sample) : State :=
  let r := s.rx l
  if r.present then
    let s := s.setRx l { r with pause := 0 }
    (l.channels.zip [lower, upper]).foldl (fun s x =>
      if (s.chan x.1).state = .off then s
      else s.setChan x.1 { s.chan x.1 with engine := (s.chan x.1).engine.useSample x.2 }) s
  else s.setRx l { r with run := min (r.run + 1) 4800, pause := 0 }

/-! ### Starting and stopping (R6, R8) -/

/-- R6: an OFF channel starts; a channel in any other state is left exactly as it is. -/
def State.startChannel (s : State) (ch : Ch) : State :=
  if (s.chan ch).state = .off then
    let c := { s.chan ch with settle := 0, engine := { (s.chan ch).engine.clear with slice := .empty } }
    if s.linePresent ch then s.setChan ch { c with state := .settling }
    else (s.setChan ch { c with state := .faulted }).notifyChannel ch .faulted
  else s

/-- R6, R18: the OFF channels of a mask start. -/
def State.startChannels (s : State) (m : ChannelMask) : State :=
  s.inAnyOrder ((maskChannels m).filter fun ch => (s.chan ch).state == .off) State.startChannel

/-- R8, R121: a run in CAL-SETTLE or CAL-MEASURE ends ABORTED, the slice in progress is discarded, the channel enters OFF and its
continuation flag is cleared (R132). -/
def State.switchOff (s : State) (ch : Ch) : State :=
  let s := s.endRun ch .aborted
  let c := s.chan ch
  s.setChan ch { c with state := .off, settle := 0, continuation := false, engine := c.engine.discardSlice }

/-- R8: a channel stops: its event closes STOPPED, it is switched off, CHANNEL is set, and a waiting minute is closed (R46). -/
def State.stopChannel (s : State) (ch : Ch) : State :=
  if (s.chan ch).state = .off then s
  else ((((s.closeEvent ch .stopped).switchOff ch).notifyChannel ch .off).closeWaiting ch)

/-- R8: the running channels of a mask stop. -/
def State.stopChannels (s : State) (m : ChannelMask) : State :=
  s.inAnyOrder ((maskChannels m).filter fun ch => (s.chan ch).state != .off) State.stopChannel

/-! ### Seconds and elapsed clock time (R42, R44) -/

/-- R44, R122: a tick of elapsed clock time reaches the calibration unit, which adds one to every lapse count. -/
def State.tickLapses (s : State) : State :=
  { s with channels := ⟨s.channels.c0.tickLapse, s.channels.c1.tickLapse, s.channels.c2.tickLapse, s.channels.c3.tickLapse⟩ }

/-- R42, R122: elapsed clock time runs on by `n` crystal periods, with a tick where they complete a second of it. -/
def State.elapse (s : State) (n : Nat) : State :=
  let e := s.clock.elapsed + n
  if e < 32768 then { s with clock := { s.clock with elapsed := e } }
  else { s with clock := { s.clock with elapsed := e - 32768 } }.tickLapses

/-- R42, R44: the prescaler wraps, after the periods it has left: a second has passed on the seconds counter, and elapsed clock time has run
on by as many periods. Unless a SET TIME has put the prescaler out of step with it, that is its tick too (notes/assumptions/15.md). -/
def State.secondElapsed (s : State) : State :=
  let s := s.elapse (32768 - s.clock.prescaler)
  { s with clock := { s.clock with prescaler := 0, seconds := s.clock.seconds + 1 } }

end Sys2Proof.Machine
end

