-- ==== Sys2Proof/Machine/Due.lean ====
section
/-! DEFINITION. Due: the part's own steps that have fallen due, taken before anything later is (DESIGN CHOICE, unsafe: notes/assumptions/6.md), and the passing of one crystal period. -/

namespace Sys2Proof.Machine

/-- The part's own steps that a counter of the state can make due, but for block ends and the beginning of a store write. -/
inductive DueStep where
  | slice (ch : Ch)
  | restored (l : Line)
  | lapse (ch : Ch)
  | boundary
deriving DecidableEq, Repr

/-- All of them. -/
def DueStep.list : List DueStep :=
  Ch.list.map .slice ++ Line.list.map .restored ++ Ch.list.map .lapse ++ [.boundary]

/-- The step is due. -/
def State.isDue (s : State) : DueStep → Bool
  | .slice ch => s.sliceDue ch
  | .restored l => s.running && (s.rx l).restoreDue
  | .lapse ch => (s.chan ch).lapseDue
  | .boundary => s.clock.boundaryDue

/-- The step is taken, if it is due at that moment. -/
def State.takeDue (s : State) : DueStep → State
  | .slice ch => s.frameSliceEnd ch
  | .restored l => s.lineRestored l
  | .lapse ch => s.lapseResult ch
  | .boundary => s.emitBoundary

/-- The steps that are due. -/
def State.dueSteps (s : State) : List DueStep := DueStep.list.filter s.isDue

/-- The complete blocks end; each acts on its own channel alone. -/
def State.endBlocks (s : State) : State := Ch.list.foldl State.blockEnd s

/-- Every step that is due is taken: block ends, then the others in any order, then the head item's store write begins. -/
def State.settle (s : State) : State :=
  let s := s.endBlocks
  (s.inAnyOrder s.dueSteps State.takeDue).beginStoreWrite

/-- Nothing is due. -/
def State.settled (s : State) : Bool :=
  (Ch.list.all fun ch => !(s.chan ch).blockDue) && s.dueSteps.isEmpty && !s.store.beginDue

/-! ### One crystal period (R1, R2, R11, R42) -/

/-- What a crystal period can bring about by itself. -/
inductive CrystalStep where
  | second
  | elapsed
  | pause (l : Line)
  | slice (ch : Ch)
deriving DecidableEq, Repr

def CrystalStep.list : List CrystalStep := [.second, .elapsed] ++ Line.list.map .pause ++ Ch.list.map .slice

/-- R1: the pause of a line since the last frame taken, counted to 66 periods. -/
def LineRx.period (r : LineRx) : LineRx := { r with pause := min (r.pause + 1) 66 }

/-- R11: a crystal period of a running channel on a LOST line. -/
def State.crystalChannel (s : State) (ch : Ch) : Channel :=
  let c := s.chan ch
  if c.state != .off && !s.linePresent ch then
    { c with engine := { c.engine with slice := { c.engine.slice with crystal := c.engine.slice.crystal + 1 } } }
  else c

/-- The counters after a crystal period; those of the receivers and channels run only while the part does. -/
def State.countPeriod (s : State) : State :=
  let s := { s with clock := { s.clock with prescaler := s.clock.prescaler + 1, elapsed := s.clock.elapsed + 1 } }
  if s.running then
    { s with
      line0 := s.line0.period, line1 := s.line1.period
      channels := ⟨s.crystalChannel .ch0, s.crystalChannel .ch1, s.crystalChannel .ch2, s.crystalChannel .ch3⟩ }
  else s

/-- What the period just counted brings about: the prescaler has passed 32767 (R42), a second of elapsed clock
time that does not end with the prescaler's is complete (R42, R122), a line has been without a frame for 66
periods (R2), a crystal-timed slice has lasted 4096 (R11). -/
def State.crystalDue (before s : State) : CrystalStep → Bool
  | .second => 32768 ≤ s.clock.prescaler
  | .elapsed => 32768 ≤ s.clock.elapsed && s.clock.prescaler < 32768
  | .pause l => (before.rx l).pause == 65 && (s.rx l).pause == 66
  | .slice ch => s.running && 4096 ≤ (s.chan ch).engine.slice.crystal && (s.chan ch).state != .off && !s.linePresent ch

/-- Take one of them, and every step it makes due. -/
def State.takeCrystal (s : State) (x : CrystalStep) : State :=
  match x with
  | .second => s.secondElapsed.settle
  | .elapsed => (s.elapse 0).settle
  | .pause l => (s.lineLost l).settle
  | .slice ch => (s.crystalSliceEnd ch).settle

/-- One crystal period passes (R42), all that was due before it being done first. -/
def State.crystalPeriod (s : State) : State :=
  let s := s.settle
  let t := s.countPeriod
  t.inAnyOrder (CrystalStep.list.filter (State.crystalDue s t)) State.takeCrystal

end Sys2Proof.Machine
end

