-- ==== Sys2Proof/Machine/Reset.lean ====
section
/-! DEFINITION. Reset: the device reset in its three causes, the store load and auto-start (R18, R158, R171 to R174, R178), and clock-domain loss (R54). -/

namespace Sys2Proof.Machine

/-- R19, R41, R113, R126, R136: a channel at a device reset; its stored settings wait for the store load. -/
def Channel.deviceReset (c : Channel) : Channel :=
  { Channel.reset with fs := c.fs, calSeq := c.calSeq, uncalibrated := c.uncalibrated, calRecord := c.calRecord }

/-- R157, R158: every notice clear with its detail 0, the enables RESET only. -/
def clearedNotices : Vector Notice 15 := (Vector.replicate 15 Notice.clear).set 14 { Notice.clear with enable := true }

/-- R173, R174: a transaction in progress is abandoned untaken, and a select that is low is ignored until it has risen and fallen again. -/
def Transaction.abandoned (x : Transaction) : Transaction :=
  { select := if x.select = .high then .high else .ignored, received := [], snapshot := false, answer := [], sent := x.sent }

/-- R147, R158, R173, R174: a port at a device reset, before the notices the reset sets. -/
def PortState.cleared (x : PortState) : PortState :=
  { notices := clearedNotices, conditions := .all .none, quietRequest := false, historyCursor := 0, periodCursor := 0
    eventCursor := 0, lastResult := .ok, transaction := x.transaction.abandoned }

/-- A device reset begins: every volatile state takes its reset value at once (R19, R41, R89, R113, R126, R136, R147, R158, R174),
the store is cut short (R172, R178; a DEVICE RESET command finds it idle, R171), and the clock domain is left as it is (R54). -/
def State.beginReset (s : State) : State :=
  { s with
    channels := ⟨s.channels.c0.deviceReset, s.channels.c1.deviceReset, s.channels.c2.deviceReset, s.channels.c3.deviceReset⟩
    line0 := .reset, line1 := .reset
    slots := Vector.replicate 8 .reset, proposalSerial := 0
    calUnit := ⟨none, s.calUnit.serial⟩
    eventList := [], eventSeq := 0, minuteRing := [], minuteSeq := 0, periodList := [], periodSeq := 0
    site := s.site.cleared, compliance := s.compliance.cleared, quietLine := false
    store := s.store.cutShort }

/-! ### The store load (R178) -/

/-- R178: what an entry's item loads as. -/
def loadEntry (i : Fin 16) (stored : Option Entry) : Entry :=
  stored.getD (if i = 0 then .factory else .blank)

/-- R178: what a channel's item loads as. -/
def Channel.load (c : Channel) (stored : Option ChannelItem) : Channel :=
  match stored with
  | some x => { c with fs := x.fs, calSeq := x.calSeq, uncalibrated := false, calRecord := x.record }
  | none => { c with fs := 14000, calSeq := 0, uncalibrated := true, calRecord := .blank }

/-- R178: the protection an incomplete item loads as. -/
def Protection.incomplete : Protection := ⟨16, .openMode⟩

/-- R178, steps 1 and 2: the working copies. -/
def State.loadCopies (s : State) : State :=
  let x := s.store.items
  { s with
    entries := Vector.ofFn fun i => loadEntry i x.entries[i]
    header := x.header.getD .factory
    protection := x.protection.getD .incomplete
    channels := ⟨s.channels.c0.load x.channels.c0, s.channels.c1.load x.channels.c1, s.channels.c2.load x.channels.c2,
      s.channels.c3.load x.channels.c3⟩
    commissioning := x.commissioning.getD .blank }

/-- The incomplete items, in rising item number (R175, R178). -/
def StoredItems.incomplete (x : StoredItems) : List Nat :=
  ((List.finRange 16).filter fun i => x.entries[i].isNone).map Fin.val
    ++ (if x.header.isNone then [16] else []) ++ (if x.protection.isNone then [17] else [])
    ++ (Ch.list.filter fun ch => (x.channels.get ch).isNone).map (fun ch => 18 + ch.index)
    ++ (if x.commissioning.isNone then [22] else [])

/-- R178, step 2: STORE with qualifier INCOMPLETE for each incomplete item. -/
def State.notifyIncomplete (s : State) : State :=
  s.store.items.incomplete.foldl (fun s item => s.notifyBoth .store ⟨.ch0, 2, value32 item⟩) s

/-- The SCHEDULE notice of an entry (R149). -/
def State.notifyEntry (s : State) (i : Fin 16) : State := s.notifyBoth .schedule ⟨.ch0, 1, value32 i.val⟩

/-- R178, step 3: an entry overlaps a present entry of lower index among 1 to 15. -/
def State.overlapsLower (s : State) (i : Fin 16) : Bool :=
  s.entries[i].present && entryIndices.any fun j => j.val < i.val && s.entries[j].present && s.entries[i].overlaps s.entries[j]

/-- R178, step 3, one entry: it becomes absent, keeping its fields and version, and SCHEDULE is set. -/
def State.dropOverlapping (s : State) (i : Fin 16) : State :=
  if s.overlapsLower i then { s with entries := s.entries.set i { s.entries[i] with present := false } }.notifyEntry i else s

/-- The greater of two serials. -/
def maxSerial (a b : Serial) : Serial := if a.toNat < b.toNat then b else a

/-- R126, R178, step 4: the run serial counter resumes from the greatest run serial among the four loaded records. -/
def State.resumeSerial (s : State) : State :=
  let serial := Ch.list.foldl (fun m ch => maxSerial m (s.chan ch).calRecord.serial) 0
  { s with calUnit := { s.calUnit with serial := serial } }

/-- R178: the store load. -/
def State.loadStore (s : State) : State :=
  (entryIndices.foldl State.dropOverlapping s.loadCopies.notifyIncomplete).resumeSerial

/-! ### Completing a reset -/

/-- R129: after a device reset the number of each channel's minute in progress is the site clock's. -/
def State.numberMinutes (s : State) : State :=
  let n := s.minuteNow
  { s with channels := ⟨{ s.channels.c0 with minuteNo := n }, { s.channels.c1 with minuteNo := n },
      { s.channels.c2 with minuteNo := n }, { s.channels.c3 with minuteNo := n }⟩ }

/-- R54, R158: CLOCK with qualifier UNSET, where the power-on found the clock domain lost. -/
def State.notifyClockLoss (s : State) (lost : Bool) : State :=
  if lost then s.notifyBoth .clock ⟨.ch0, 3, minute32 none⟩ else s

/-- R158, R172: a device reset completes: RESET with its cause, the store load, and auto-start with the mask just loaded (R18). -/
def State.completeReset (s : State) (cause : ResetCause) (clockLost : Bool) : State :=
  let s := s.beginReset.notifyBoth .reset ⟨.ch0, cause.code, 0⟩
  let s := (s.notifyClockLoss clockLost).loadStore.numberMinutes
  let s := { s with resetCause := cause, clockLossFound := false }
  s.startChannels s.commissioning.installed

/-- R54: clock-domain loss. -/
def State.loseClock (s : State) (lost : Bool) : State := if lost then { s with clock := .lost } else s

/-- R172: the fall of RESET_N. -/
def State.resetLow (s : State) : State :=
  if !s.resetN then s
  else if s.supply then { s.beginReset with resetN := false, resetCause := .line, clockLossFound := false }
  else { s with resetN := false }

/-- R172: the rise of RESET_N. -/
def State.resetRelease (s : State) : State :=
  if s.resetN then s
  else if s.supply then { s with resetN := true }.completeReset s.resetCause s.clockLossFound
  else { s with resetN := true }

/-- R172: the supply rises. While RESET_N is low the line goes on holding the part (DESIGN CHOICE, unsafe: notes/assumptions/9.md). -/
def State.powerUp (s : State) (backupLost : Bool) : State :=
  let s := { s.beginReset with supply := true }.loseClock backupLost
  if s.resetN then s.completeReset .powerOn backupLost
  else { s with resetCause := .powerOn, clockLossFound := s.clockLossFound || backupLost }

/-- R172, R178: the main supply falls away; nothing volatile outlasts it. -/
def State.powerDown (s : State) : State := { s.beginReset with supply := false }

end Sys2Proof.Machine
end

