-- ==== Sys2Proof/Machine/PortProtocol.lean ====
section
/-! DEFINITION. PortProtocol: a transaction on a port, from its framing to its result (11_port_transactions.md). -/

namespace Sys2Proof

/-! ### The parts and pieces of a transaction (R159) -/

/-- The part begins with the fall of the select. -/
def Part.falls : Part → Bool
  | .whole => true
  | .fall => true
  | .bytes => false
  | .rise => false

/-- The part clocks bytes in. -/
def Part.carries : Part → Bool
  | .whole => true
  | .fall => false
  | .bytes => true
  | .rise => false

/-- The part ends with the rise of the select. -/
def Part.rises : Part → Bool
  | .whole => true
  | .fall => false
  | .bytes => false
  | .rise => true

/-- The bytes a piece of a transaction clocks in: the command code goes first, if no byte went before it. -/
def Piece.added (piece : Piece) (first : Bool) (code : Byte) : List Byte :=
  if piece.part.carries then (if first then code :: piece.params else piece.params) else []

end Sys2Proof

namespace Sys2Proof.Machine

/-- The ports a command may be sent from (R166). -/
inductive Role where
  | either
  | complianceOnly
  | siteOnly
deriving DecidableEq, Repr

/-- R166. -/
def Role.allows : Role → Port → Bool
  | .either, _ => true
  | .complianceOnly, .compliance => true
  | .complianceOnly, .site => false
  | .siteOnly, .site => true
  | .siteOnly, .compliance => false

/-- The first `n` bytes of a response, every byte past its end being 0x00 (R160). -/
def clocked (n : Nat) (l : List Byte) : List Byte := (l ++ List.replicate n 0).take n

/-- Output bytes 0 and 1: the status byte and the last result as they stand at the select fall (R160 to R162). -/
def State.opening (s : State) (p : Port) : List Byte := [s.statusByte p, (s.port p).lastResult.code]

/-- The port `p` with another transaction. -/
def State.recordTransaction (s : State) (p : Port) (x : Transaction) : State :=
  s.setPort p { s.port p with transaction := x }

/-- R162: a command's result, where it has one, replaces the port's last result; the transaction goes on or has ended. -/
def State.conclude (s : State) (p : Port) (r : Option Result) (x : Transaction) : State :=
  s.setPort p { s.port p with lastResult := r.getD (s.port p).lastResult, transaction := x }

/-! ### A transaction, piece by piece (R159, R160, R173) -/

/-- R160: the fall of the select begins a transaction, whose output bytes 0 and 1 it fixes. -/
def Transaction.begun (x : Transaction) (piece : Piece) (opening : List Byte) : Transaction :=
  if piece.part.falls then ⟨.low, [], false, opening, []⟩ else x

/-- R173: while its select is ignored a port takes no byte and shifts out 0x00 for each, until the select rises; it drives nothing
without the supply. -/
def Transaction.ignores (x : Transaction) (piece : Piece) (code : Byte) (driven : Bool) : Transaction :=
  if x.select = .high then x
  else
    { select := if piece.part.rises then .high else .ignored, received := [], snapshot := false, answer := []
      sent := x.sent ++ if driven then List.replicate (piece.added x.sent.isEmpty code).length 0 else [] }

/-- R172, R173: while a reset holds the part a port takes no transaction, and a select that falls is ignored (DESIGN CHOICE without the
supply: notes/assumptions/9.md). -/
def State.deaf (s : State) (p : Port) (piece : Piece) (code : Byte) : State :=
  let x := if piece.part.falls then ⟨.ignored, [], false, [], []⟩ else (s.port p).transaction.abandoned
  s.recordTransaction p (x.ignores piece code s.supply)

/-- What a piece of a transaction brings about: the command's result where it is judged in it, the state after it, whether a read's
snapshot is taken, and the bytes a read adds to its answer (R163, R164). -/
structure Judgement where
  result : Option Result
  state : State
  snapshot : Bool
  tail : List Byte
deriving DecidableEq, Repr

/-- Nothing is judged. -/
def Judgement.nothing (s : State) : Judgement := ⟨none, s, false, []⟩

/-- R159, R160, R173: one piece of a transaction on a port, all that was due before it being done first. `judge` is what the
command does with the bytes received before and after the piece, and with the rise of the select. A piece that does not go on from
the transaction in progress changes nothing (DESIGN CHOICE, notes/assumptions/2.md). -/
def State.transact (s : State) (p : Port) (piece : Piece) (code : Byte) (judge : List Byte → List Byte → Bool → State → Judgement) : State :=
  if s.running then
    let s := s.settle
    let x := (s.port p).transaction.begun piece (s.opening p)
    match x.select with
    | .high => s
    | .ignored => s.recordTransaction p (x.ignores piece code true)
    | .low =>
      if x.received.head?.all (· == code) then
        let bytes := x.received ++ piece.added x.received.isEmpty code
        let j := judge x.received bytes piece.part.rises s
        let answer := x.answer ++ j.tail
        let sent := clocked bytes.length answer
        j.state.conclude p j.result (if piece.part.rises then .idle sent else ⟨.low, bytes, x.snapshot || j.snapshot, answer, sent⟩)
      else s
  else s.deaf p piece code

/-! ### Writes, reads and NOP -/

/-- R163: a write of right length, with its parameters: ROLE for the wrong port, then its owner's checks. The owner answers the state
after the command, or the code of the first check that fails; a refused write changes nothing but the last result (R167). -/
def judgeOwner (p : Port) (role : Role) (params : List Byte) (owner : List Byte → State → Except Result State) (s : State) :
    Result × State :=
  if !role.allows p then (.role, s)
  else
    match owner params s with
    | .ok t => (.ok, t)
    | .error r => (r, s)

/-- R163: a write is judged at its select rise, if a byte has been received (R159): FRAME for a wrong number of bytes. -/
def judgeWrite (p : Port) (count : Nat) (role : Role) (owner : List Byte → State → Except Result State)
    (_before bytes : List Byte) (rises : Bool) (s : State) : Judgement :=
  match rises, bytes with
  | true, _ :: params =>
    let x := if params.length ≠ count then (.frame, s) else judgeOwner p role params owner s
    ⟨some x.1, x.2, false, []⟩
  | _, _ => .nothing s

/-- R160, R163: a piece of the transaction of a write. -/
def portWrite (p : Port) (code : Byte) (count : Nat) (role : Role) (piece : Piece)
    (owner : List Byte → State → Except Result State) (s : State) : State :=
  s.transact p piece code (judgeWrite p count role owner)

/-- R164: the parameters of a read are in: the owner answers the response data and the state after the read's effects, or a refusal.
The read's own result goes out at byte max(2, P + 1). Every read may be sent from either port (R166). -/
def judgeSnapshot (count : Nat) (params : List Byte) (owner : List Byte → State → Except Result (State × List Byte)) (s : State) :
    Judgement :=
  match owner params s with
  | .ok (t, data) => ⟨some .ok, t, true, List.replicate (count - 1) 0 ++ Result.ok.code :: data⟩
  | .error r => ⟨some r, s, false, List.replicate (count - 1) 0 ++ [r.code]⟩

/-- R164: a read with `count` parameter bytes is judged when the last of them is received; a select rise before that refuses
it FRAME. Further input bytes are ignored. -/
def judgeRead (count : Nat) (owner : List Byte → State → Except Result (State × List Byte)) (before bytes : List Byte) (rises : Bool)
    (s : State) : Judgement :=
  if before.length ≤ count && count < bytes.length then judgeSnapshot count bytes.tail owner s
  else if rises && bytes.length ≤ count && !bytes.isEmpty then ⟨some .frame, s, false, []⟩
  else .nothing s

/-- R160, R164: a piece of the transaction of a read. -/
def portRead (p : Port) (code : Byte) (count : Nat) (piece : Piece)
    (owner : List Byte → State → Except Result (State × List Byte)) (s : State) : State :=
  s.transact p piece code (judgeRead count owner)

/-- R165: a piece of the transaction of a NOP, which leaves the last result as it is. -/
def portNop (p : Port) (piece : Piece) (s : State) : State :=
  s.transact p piece 0x00 fun _ _ _ => .nothing

/-- R165: a code that names no command is refused UNKNOWN at the select rise, whatever follows it. -/
def judgeUnknown (_before bytes : List Byte) (rises : Bool) (s : State) : Judgement :=
  if rises && !bytes.isEmpty then ⟨some .unknown, s, false, []⟩ else .nothing s

end Sys2Proof.Machine
end

