-- ==== Sys2Proof/Machine/Layout.lean ====
section
/-! DEFINITION. Layout: the byte layouts of records and responses (13_record_and_frame_formats.md, R182), and the calendar they show (R49). -/

namespace Sys2Proof.Machine

/-! ### Encodings (R182) -/

/-- Multi-byte fields, least significant byte first. -/
def le16 (x : BitVec 16) : List Byte := [x.setWidth 8, (x >>> 8).setWidth 8]

def le32 (x : BitVec 32) : List Byte := le16 (x.setWidth 16) ++ le16 ((x >>> 16).setWidth 16)

def le64 (x : BitVec 64) : List Byte := le32 (x.setWidth 32) ++ le32 ((x >>> 32).setWidth 32)

def byteOf (n : Nat) : Byte := BitVec.ofNat 8 n

def count16 (n : Nat) : List Byte := le16 (BitVec.ofNat 16 n)

def count32 (n : Nat) : List Byte := le32 (BitVec.ofNat 32 n)

def count64 (n : Nat) : List Byte := le64 (BitVec.ofNat 64 n)

/-- A level; void is −32768. A level that the rules form outside the span R182 states, −903 to 16000, is carried as formed
(DESIGN CHOICE, unsafe: notes/assumptions/16.md). -/
def levelBytes (l : LevelOrVoid) : List Byte := le16 (BitVec.ofInt 16 (l.getD (-32768)))

/-- The sustainable level, which may also be EXHAUSTED, −32767. -/
def Sustainable.bytes : Sustainable → List Byte
  | .void => levelBytes none
  | .exhausted => levelBytes (some (-32767))
  | .level l => levelBytes (some l)

/-- A minute number; absent is 0xFFFFFFFF. -/
def minuteBytes (n : MinuteOrAbsent) : List Byte := le32 (minute32 n)

def maskByte (m : ChannelMask) : Byte := m.setWidth 8

def dayMaskByte (m : DayMask) : Byte := m.setWidth 8

/-- A source's kind and index, a byte each. -/
def sourceBytes : Option Source → List Byte
  | none => [0, 0]
  | some (.entry i) => [1, byteOf i.val]
  | some (.dispensation i _) => [2, byteOf i.val]

/-- A source's serial: the slot's, 0 otherwise. -/
def sourceSerial : Option Source → Serial
  | none => 0
  | some (.entry _) => 0
  | some (.dispensation _ n) => n

/-! ### Records -/

/-- Minute record, 48 bytes. -/
def MinuteRecord.bytes (r : MinuteRecord) : List Byte :=
  count32 r.sequence ++ minuteBytes r.minute ++
  [byteOf r.ch.index, flagByte [r.impulsive, r.lowFreq, r.accountable, r.allowanceSpent, r.breach, r.uncalibrated], r.causes.byte] ++
  sourceBytes r.source ++ [0] ++ le16 (sourceSerial r.source) ++ count16 r.duration ++
  count16 r.missing ++ count16 r.calibration ++ count16 r.settling ++ count16 r.excluded ++ count16 r.valid ++
  levelBytes r.laeq ++ levelBytes r.lceq ++ levelBytes r.lafmax ++ levelBytes r.lafmin ++ levelBytes r.lasmax ++
  levelBytes (some r.penalty) ++ levelBytes r.lr ++ levelBytes (some r.fs) ++ le16 r.calSeq ++ [0, 0]

/-- Period record, 50 bytes. -/
def PeriodRecord.bytes (r : PeriodRecord) : List Byte :=
  count32 r.sequence ++ [byteOf r.ch.index] ++ sourceBytes (some r.source) ++ [r.reason] ++ le16 (sourceSerial (some r.source)) ++
  [r.cause.code, r.verdict.code] ++ count32 r.opening ++ minuteBytes r.closing ++
  count16 r.planned ++ count16 r.elapsed ++ count16 r.accounted ++
  count16 r.impulsive ++ count16 r.lowFreq ++ count16 r.triggers ++ count16 r.breaches ++
  levelBytes r.lr ++ levelBytes r.laeq ++ levelBytes r.greatestLr ++ levelBytes r.lafMax ++
  levelBytes r.l10 ++ levelBytes r.l50 ++ levelBytes r.l90 ++ levelBytes (some r.limit)

/-- An event's figures as a read shows them: duration, peak, LAeq, LAE (R135). -/
structure EventFigures where
  duration : Nat
  peak : LevelOrVoid
  laeq : LevelOrVoid
  lae : LevelOrVoid
deriving DecidableEq, Repr

/-- R135: a CLOSED record's figures are held; an OPEN record's are the committed figures of its channel's open event, the levels
formed with the FS in force. -/
def State.eventFigures (s : State) (r : EventRecord) : EventFigures :=
  match r.closed with
  | some x => ⟨x.duration, some x.peak, some x.laeq, some x.lae⟩
  | none =>
    match (s.chan r.ch).openEvent with
    | some e => ⟨e.count, some e.peak, some (e.laeq (s.chan r.ch).fs), some (e.lae (s.chan r.ch).fs)⟩
    | none => ⟨0, none, none, none⟩

/-- The impulsive mark's two flags: present, and set (R128). -/
def markFlags : Option Bool → List Bool
  | none => [false, false]
  | some b => [true, b]

/-- Event record, 22 bytes. An LAE above 16000 is sent as R133 forms it (DESIGN CHOICE, unsafe: notes/assumptions/16.md). -/
def State.eventBytes (s : State) (r : EventRecord) : List Byte :=
  let x := s.eventFigures r
  count32 r.sequence ++ minuteBytes r.startMinute ++
  [byteOf r.ch.index, if r.closed.isSome then 1 else 0, (r.closed.map fun c => c.cause.code).getD 0,
    flagByte (r.continuation :: markFlags (r.closed.bind EventClose.impulsive))] ++
  count16 r.startOffset ++ count16 x.duration ++ levelBytes x.peak ++ levelBytes x.laeq ++ levelBytes x.lae

/-- Entry image, 24 bytes. -/
def Entry.bytes (e : Entry) : List Byte :=
  [flagByte [e.present], maskByte e.channels, dayMaskByte e.days, flagByte [e.works]] ++
  count16 e.start ++ count16 e.stop ++ levelBytes (some e.limit) ++ levelBytes (some e.trigger) ++
  levelBytes (some e.impulseThreshold) ++ levelBytes (some e.impulsePenalty) ++
  levelBytes (some e.lowFreqThreshold) ++ levelBytes (some e.lowFreqPenalty) ++ levelBytes (some e.cap) ++ le16 e.version

/-- Dispensation image, 20 bytes. -/
def Slot.bytes (i : Fin 8) (x : Slot) : List Byte :=
  [byteOf i.val, x.state.code, maskByte x.channels, flagByte [x.works], x.reason, x.outcome.code] ++ le16 x.serial ++
  count32 x.start ++ count32 x.stop ++ levelBytes (some x.limit) ++ levelBytes (some x.trigger)

/-- The last calibration record as READ CHANNEL lays it out. A delta below −903 and a new FS above 16000 are sent as R118 and R119 form them
(DESIGN CHOICE, unsafe: notes/assumptions/16.md). -/
def CalRecord.bytes (r : CalRecord) : List Byte :=
  le16 r.serial ++ [r.outcome.code] ++ levelBytes r.reference ++ levelBytes r.meas ++ levelBytes r.delta ++
  minuteBytes r.minute ++ levelBytes r.oldFs ++ levelBytes r.newFs

/-- A notice's detail as READ NOTICES lays it out. -/
def Detail.bytes (d : Detail) : List Byte := [byteOf d.channel.index, d.qualifier] ++ le32 d.value

/-- A notice mask, bit n for kind n and bit 0 unused (R182). -/
def noticeMask (l : List Bool) : List Byte :=
  [flagByte (false :: l.take 7), flagByte (l.drop 7)]

/-! ### Responses -/

/-- One channel of READ LIVE, 13 bytes (R16, R40). -/
def State.liveBytes (s : State) (ch : Ch) : List Byte :=
  let c := s.chan ch
  let e := c.engine
  let silent := c.state = .off ∨ c.state = .faulted
  let last : LevelOrVoid :=
    match e.kept with
    | none => none
    | some k => if k.cls = .missing then none else some (convert c.fs k.sumA 6000).level
  let f : LevelOrVoid := if silent then none else some (convertRunning c.fs e.f).level
  let sl : LevelOrVoid := if silent then none else some (convertRunning c.fs e.s).level
  let top : LevelOrVoid := e.minute.greatestF.map fun v => (convertRunning c.fs v).level
  [c.state.code, c.state.phaseCode, flagByte [s.linePresent ch, c.excluded, s.weatherExcluded ch]] ++
  levelBytes last ++ levelBytes f ++ levelBytes sl ++ levelBytes top ++ count16 e.minute.valid

/-- READ CHANNEL, 29 bytes (R17). -/
def State.channelBytes (s : State) (ch : Ch) : List Byte :=
  let c := s.chan ch
  [byteOf ch.index, flagByte [s.installed ch, c.pendingFs.isSome, c.uncalibrated, c.excluded, s.weatherExcluded ch]] ++
  levelBytes (some c.fs) ++ levelBytes c.pendingFs ++ le16 c.calSeq ++
  levelBytes (some c.trigger) ++ levelBytes (some c.hysteresis) ++ c.calRecord.bytes

/-! ### The calendar (R49) -/

/-- R49. -/
def leapYear (y : Nat) : Bool := y % 4 == 0 && (y % 100 != 0 || y % 400 == 0)

def yearLength (y : Nat) : Nat := if leapYear y then 366 else 365

/-- R49: the length of a month, 1 to 12. -/
def monthLength (y m : Nat) : Nat :=
  if m = 2 then (if leapYear y then 29 else 28)
  else if m = 4 ∨ m = 6 ∨ m = 9 ∨ m = 11 then 30
  else 31

/-- A calendar date, hour and minute. -/
structure Calendar where
  year : Nat
  month : Nat
  day : Nat
  hour : Nat
  minute : Nat
deriving DecidableEq, Repr

/-- Whole days from 2000-01-01 to 1 January of a year. -/
def daysToYear (y : Nat) : Nat := ((List.range (y - 2000)).map fun k => yearLength (2000 + k)).sum

/-- Days from 1 January to the first of a month. -/
def daysToMonth (y m : Nat) : Nat := ((List.range (m - 1)).map fun k => monthLength y (k + 1)).sum

/-- R49: the minute number of a calendar time. -/
def Calendar.minuteNumber (c : Calendar) : Nat :=
  (daysToYear c.year + daysToMonth c.year c.month + (c.day - 1)) * 1440 + c.hour * 60 + c.minute

/-- The year that holds a day counted from 1 January of `y`, and the day within it. -/
def yearOfDay : (fuel y d : Nat) → Nat × Nat
  | 0, y, d => (y, d)
  | fuel + 1, y, d => if d < yearLength y then (y, d) else yearOfDay fuel (y + 1) (d - yearLength y)

/-- The month that holds a day of a year, and the day within it, both counted from `m` and 0. -/
def monthOfDay (y : Nat) : (fuel m d : Nat) → Nat × Nat
  | 0, m, d => (m, d)
  | fuel + 1, m, d => if d < monthLength y m then (m, d) else monthOfDay y fuel (m + 1) (d - monthLength y m)

/-- R49: the calendar date, hour and minute of a minute number. -/
def calendarOf (n : Nat) : Calendar :=
  let d := n / 1440
  let y := yearOfDay (d / 365 + 1) 2000 d
  let m := monthOfDay y.1 12 1 y.2
  ⟨y.1, m.1, m.2 + 1, minuteOfDay n / 60, n % 60⟩

/-- READ CLOCK, 14 bytes (R53). -/
def State.clockBytes (s : State) : List Byte :=
  let c := s.clock
  if c.set then
    let t := calendarOf c.minute
    [1] ++ minuteBytes (some c.minute) ++ count16 t.year ++
    [byteOf t.month, byteOf t.day, byteOf t.hour, byteOf t.minute, byteOf (weekday c.minute), byteOf c.seconds, byteOf c.length]
  else [0] ++ minuteBytes none ++ count16 0 ++ [0, 0, 0, 0, 0, byteOf c.seconds, 60]

/-- READ ENTRY, 25 bytes (R72). -/
def State.entryBytes (s : State) (i : Fin 16) : List Byte := s.entries[i].bytes ++ [flagByte [s.entryProtected i]]

/-- READ HEADER, 10 bytes (R73). -/
def State.headerBytes (s : State) : List Byte :=
  count16 s.header.dayStart ++ count16 s.header.allowance ++ count16 s.header.lowMark ++
  [byteOf s.header.coverage, byteOf s.protection.extent, s.protection.mode.code, flagByte [s.prot]]

/-- READ DISPENSATION, 22 bytes (R88). -/
def State.slotBytes (s : State) (i : Fin 8) : List Byte := s.slots[i].bytes i ++ le16 s.proposalSerial

/-- What the account snapshot shows of a period: as R111 gives it while none is open. -/
structure PeriodView where
  isOpen : Bool
  works : Bool
  source : Option Source
  reason : Byte
  verdict : Verdict
  opening : MinuteOrAbsent
  last : MinuteOrAbsent
  counts : List Nat
  ratedSum : Nat
  plainSum : Nat
  parameters : List LevelOrVoid
  levels : List LevelOrVoid
  sustainable : Sustainable
deriving DecidableEq, Repr

/-- R111. While no period is open the period fields read 0, the levels void, the source none and the verdict VOID. That the opening and last minute
numbers are absent, and that every field encoded as a level is one of the levels, limit, trigger, thresholds, penalties and cap, the greatest
minute Lr and the period LAFmax among them, is a DESIGN CHOICE (unsafe: notes/assumptions/10.md). -/
def periodView (p : Option Period) (coverage : Nat) : PeriodView :=
  match p with
  | none =>
    ⟨false, false, none, 0, .void, none, none, List.replicate 7 0, 0, 0, List.replicate 7 none, List.replicate 7 none, .void⟩
  | some p =>
    ⟨true, p.rules.works, some p.source, p.reason, p.verdict coverage, some p.opening, p.last,
      [p.planned, p.elapsed, p.accounted, p.impulsive, p.lowFreq, p.triggers, p.breaches], p.ratedSum, p.plainSum,
      [p.rules.limit, p.rules.trigger, p.rules.impulseThreshold, p.rules.impulsePenalty, p.rules.lowFreqThreshold,
        p.rules.lowFreqPenalty, p.rules.cap].map some,
      [p.greatestLr, p.lafMax, p.lr, p.laeq, p.percentile 10, p.percentile 50, p.percentile 90], p.sustainable⟩

/-- The account snapshot, 88 bytes (R111). While no day account is open its fields read 0 and no, its minute number absent (DESIGN CHOICE, unsafe:
notes/assumptions/10.md). A count past its field's width, as the day's breach minutes can be, is sent modulo it (DESIGN CHOICE, unsafe:
notes/assumptions/8.md). -/
def State.accountBytes (s : State) (ch : Ch) : List Byte :=
  let c := s.chan ch
  let v := periodView c.period s.header.coverage
  let d := c.day.getD ⟨0, 0, 0, 0, false⟩
  [byteOf ch.index, flagByte [v.isOpen, c.day.isSome, v.works, d.lowGiven, c.quietHeld]] ++
  sourceBytes v.source ++ le16 (sourceSerial v.source) ++ [v.reason, v.verdict.code] ++
  minuteBytes v.opening ++ minuteBytes v.last ++ v.counts.flatMap count16 ++ count64 v.ratedSum ++ count64 v.plainSum ++
  v.parameters.flatMap levelBytes ++ v.levels.flatMap levelBytes ++
  minuteBytes (c.day.map Day.start) ++ count16 d.allowance ++ count16 d.spent ++ count16 d.breaches ++
  v.sustainable.bytes ++ [c.quiet.code, 0]

/-- READ HISTOGRAM (R112): T and the requested counters, each sent modulo 2^32 (DESIGN CHOICE, unsafe: notes/assumptions/8.md); all 0 while no
period is open. -/
def State.histogramBytes (s : State) (ch : Ch) (first count : Nat) : List Byte :=
  let h := match (s.chan ch).period with
    | none => List.replicate 240 0
    | some p => p.histogram.toList
  count32 h.sum ++ ((h.drop first).take count).flatMap count32

/-- The lead of a read of records: the lost count and the number returned (R135, R141). -/
def recordsLead (lost returned : Nat) : List Byte := count32 lost ++ [byteOf returned]

/-- READ NOTICES, 99 bytes (R151). -/
def State.noticeBytes (s : State) (p : Port) : List Byte :=
  let x := s.port p
  let l := x.notices.toList
  noticeMask (l.map Notice.flag) ++ noticeMask (l.map Notice.enable) ++ l.flatMap (fun n => n.detail.bytes) ++
  Ch.list.map (fun ch => (x.conditions.get ch).byte) ++
  [flagByte [x.quietRequest, (s.port p.other).quietRequest, s.quietLine]]

/-- READ COMMISSIONING, 69 bytes (R180). -/
def Commissioning.bytes (r : Commissioning) : List Byte :=
  r.site.toList ++ le16 r.station ++ [maskByte r.installed, maskByte r.weather] ++
  Ch.list.flatMap (fun ch => (r.labels.get ch).toList) ++ [flagByte [r.locked]]

/-- IDENTIFY, 11 bytes (R169): part code 420, silicon revision A, the device serial. -/
def identityBytes : List Byte := count16 420 ++ [0x41] ++ le64 Config.deviceSerial

end Sys2Proof.Machine
end

