-- ==== Sys2Proof/Machine/CalibrationCommands.lean ====
section
/-! DEFINITION. CalibrationCommands: CALIBRATE, ABORT CALIBRATION, ACCEPT CALIBRATION and REJECT CALIBRATION (07_calibration.md, R9). -/

namespace Sys2Proof.Machine

/-- R9, R116: the channel is FAULTED or CALIBRATING, or OFF while its line is LOST, or an FS switch is pending on it. -/
def State.calibrateBarred (s : State) (ch : Ch) : Bool :=
  (match (s.chan ch).state with
    | .faulted => true
    | .calibrating _ _ => true
    | .off => !s.linePresent ch
    | .settling => false
    | .measuring => false) || (s.chan ch).pendingFs.isSome

/-- R116: a pending result is discarded, CAL carrying its serial. -/
def State.supersede (s : State) (ch : Ch) : State :=
  match (s.chan ch).pendingResult with
  | none => s
  | some r => (s.setChan ch { s.chan ch with pendingResult := none }).notifyCal ch r.serial

/-- R9: the channel enters CAL-SETTLE; from OFF its engine is cleared and its first slice begins with the next frame. -/
def Channel.enterCalibration (c : Channel) : Channel :=
  if c.state = .off then
    { c with state := .calibrating .calSettle .off, settle := 0, engine := { c.engine.clear with slice := .empty } }
  else { c with state := .calibrating .calSettle .settling, settle := 0 }

/-- R116: the record of a new run. -/
def CalRecord.newRun (serial : Serial) (reference fs : Level) (minute : MinuteOrAbsent) : CalRecord :=
  ⟨serial, .running, some reference, none, none, minute, some fs, none⟩

/-- R116: a run starts. -/
def State.startRun (s : State) (ch : Ch) (reference : Level) : State :=
  let serial := s.calUnit.serial + 1
  let s := s.supersede ch
  let s := { s with calUnit := ⟨some ⟨ch, serial, 0, 0, none, none, false⟩, serial⟩ }
  let c := (s.chan ch).enterCalibration
  s.setChan ch { c with calRecord := .newRun serial reference c.fs s.minuteNow }

/-- R116. -/
def calibrateOwner (params : List Byte) (s : State) : Except Result State :=
  match Ch.ofNat? (u8At params 0) with
  | none => .error .notFound
  | some ch =>
    check (!s.installed ch) .absent <|
    check (s.calibrateBarred ch) .state <|
    check (!within 8000 13000 (levelAt params 1)) .range <|
    check s.calUnit.run.isSome .inUse <|
    .ok (s.startRun ch (levelAt params 1))

/-- CALIBRATE (R116). -/
def execCalibrate (port : Port) (piece : Piece) (s : State) : Host.Outcome State Fault Refusal :=
  .next (portWrite port 0x34 3 .either piece calibrateOwner s)

/-- R10: the channel moves to CAL-RECOVER with its count at 0; the slice in progress goes on. -/
def Channel.recover (c : Channel) : Channel :=
  match c.state with
  | .calibrating _ r => { c with state := .calibrating .calRecover r, settle := 0 }
  | .off => c
  | .settling => c
  | .measuring => c
  | .faulted => c

/-- R10, R120: the run on a channel is aborted. -/
def State.abortRun (s : State) (ch : Ch) : State :=
  let s := s.endRun ch .aborted
  s.setChan ch (s.chan ch).recover

/-- R120. -/
def abortOwner (params : List Byte) (s : State) : Except Result State :=
  match Ch.ofNat? (u8At params 0) with
  | none => .error .notFound
  | some ch => check (!s.runningOn ch) .state (.ok (s.abortRun ch))

/-- ABORT CALIBRATION (R120). -/
def execAbortCalibration (port : Port) (piece : Piece) (s : State) : Host.Outcome State Fault Refusal :=
  .next (portWrite port 0x35 1 .either piece abortOwner s)

/-- R123: the checks of a decision, and the pending result it acts on. -/
def namedResult (params : List Byte) (s : State) (go : Ch → PendingResult → State) : Except Result State :=
  match Ch.ofNat? (u8At params 0) with
  | none => .error .notFound
  | some ch =>
    check ((s.chan ch).calRecord.serial != word16At params 1) .stale <|
    match (s.chan ch).pendingResult with
    | none => .error .state
    | some r => .ok (go ch r)

/-- R123: a decision drops the pending result, gives the record its outcome and sets CAL. -/
def State.decideResult (s : State) (ch : Ch) (o : CalOutcome) (switch : Option Level) : State :=
  let s := s.setChan ch { s.chan ch with pendingResult := none, pendingFs := switch }
  let s := s.concludeRecord ch o
  s.notifyCal ch (s.chan ch).calRecord.serial

/-- R123: an FS switch to the result's new FS is asked for. -/
def acceptOwner (params : List Byte) (s : State) : Except Result State :=
  namedResult params s fun ch r => s.decideResult ch .applied (some r.newFs)

/-- ACCEPT CALIBRATION (R123). -/
def execAcceptCalibration (port : Port) (piece : Piece) (s : State) : Host.Outcome State Fault Refusal :=
  .next (portWrite port 0x36 3 .complianceOnly piece acceptOwner s)

/-- R123: FS is unchanged, and so is a pending switch. -/
def rejectResultOwner (params : List Byte) (s : State) : Except Result State :=
  namedResult params s fun ch _ => s.decideResult ch .rejected (s.chan ch).pendingFs

/-- REJECT CALIBRATION (R123). -/
def execRejectCalibration (port : Port) (piece : Piece) (s : State) : Host.Outcome State Fault Refusal :=
  .next (portWrite port 0x37 3 .complianceOnly piece rejectResultOwner s)

end Sys2Proof.Machine
end

