-- ==== Sys2Proof/Machine/ChannelCommands.lean ====
section
/-! DEFINITION. ChannelCommands: START CHANNELS, STOP CHANNELS, EXCLUDE, SET EVENT TRIGGER, READ LIVE and READ CHANNEL (01_measurement_channels.md). -/

namespace Sys2Proof.Machine

/-- Change each channel of a mask on its own. -/
def Quad.update {α : Type} (q : Quad α) (m : ChannelMask) (f : α → α) : Quad α :=
  ⟨if maskHas m .ch0 then f q.c0 else q.c0, if maskHas m .ch1 then f q.c1 else q.c1, if maskHas m .ch2 then f q.c2 else q.c2,
    if maskHas m .ch3 then f q.c3 else q.c3⟩

/-- R6: the mask names a channel that is not installed. -/
def State.namesAbsent (s : State) (m : ChannelMask) : Bool := m &&& ~~~s.commissioning.installed != 0

/-- R6. -/
def startOwner (params : List Byte) (s : State) : Except Result State :=
  check (s.namesAbsent (maskAt params 0)) .absent (.ok (s.startChannels (maskAt params 0)))

/-- START CHANNELS (R6). -/
def execStartChannels (port : Port) (piece : Piece) (s : State) : Host.Outcome State Fault Refusal :=
  .next (portWrite port 0x30 1 .either piece startOwner s)

/-- R8. -/
def stopOwner (params : List Byte) (s : State) : Except Result State := .ok (s.stopChannels (maskAt params 0))

/-- STOP CHANNELS (R8). -/
def execStopChannels (port : Port) (piece : Piece) (s : State) : Host.Outcome State Fault Refusal :=
  .next (portWrite port 0x31 1 .complianceOnly piece stopOwner s)

/-- R13: the command exclusion flag of each channel of a mask. -/
def State.excludeChannels (s : State) (m : ChannelMask) (on : Bool) : State :=
  { s with channels := s.channels.update m fun c => { c with excluded := on } }

/-- R13. -/
def excludeOwner (params : List Byte) (s : State) : Except Result State :=
  .ok (s.excludeChannels (maskAt params 0) (flagAt params 1))

/-- EXCLUDE (R13). -/
def execExclude (port : Port) (piece : Piece) (s : State) : Host.Outcome State Fault Refusal :=
  .next (portWrite port 0x32 2 .complianceOnly piece excludeOwner s)

/-- R15: the event trigger and the hysteresis of each channel of a mask. -/
def State.setTriggers (s : State) (m : ChannelMask) (trigger hysteresis : Level) : State :=
  { s with channels := s.channels.update m fun c => { c with trigger := trigger, hysteresis := hysteresis } }

/-- R15, R168: both values are clamped. -/
def setEventTriggerOwner (params : List Byte) (s : State) : Except Result State :=
  .ok (s.setTriggers (maskAt params 0) (clampTo 4000 14000 (levelAt params 1)) (clampTo 0 1000 (levelAt params 3)))

/-- SET EVENT TRIGGER (R15). -/
def execSetEventTrigger (port : Port) (piece : Piece) (s : State) : Host.Outcome State Fault Refusal :=
  .next (portWrite port 0x33 5 .either piece setEventTriggerOwner s)

/-- The level of the WX line, as a command or event samples it (R14, DESIGN CHOICE, notes/assumptions/5.md). -/
def State.sampleWx (s : State) (wx : Bool) : State := { s with wx := wx }

/-- R16. -/
def readLiveOwner (wx : Bool) (s : State) : Except Result (State × List Byte) :=
  let s := s.sampleWx wx
  .ok (s, Ch.list.flatMap s.liveBytes)

/-- READ LIVE (R16, R40). -/
def execReadLive (port : Port) (piece : Piece) (wx : Bool) (s : State) : Host.Outcome State Fault Refusal :=
  .next (portRead port 0x10 0 piece (fun _ => readLiveOwner wx) s)

/-- R17. -/
def readChannelOwner (params : List Byte) (wx : Bool) (s : State) : Except Result (State × List Byte) :=
  match Ch.ofNat? (u8At params 0) with
  | none => .error .notFound
  | some ch =>
    let s := s.sampleWx wx
    .ok (s, s.channelBytes ch)

/-- READ CHANNEL (R17). -/
def execReadChannel (port : Port) (piece : Piece) (wx : Bool) (s : State) : Host.Outcome State Fault Refusal :=
  .next (portRead port 0x11 1 piece (fun params => readChannelOwner params wx) s)

end Sys2Proof.Machine
end

