-- ==== Sys2Proof/Machine/ClockCommands.lean ====
section
/-! DEFINITION. ClockCommands: SET TIME, TRIM CLOCK and READ CLOCK (03_site_clock_and_the_minute_grid.md). -/

namespace Sys2Proof.Machine

/-- The calendar date, hour and minute SET TIME carries (R183). -/
def calendarAt (params : List Byte) : Calendar := ⟨u16At params 0, u8At params 2, u8At params 3, u8At params 4, u8At params 5⟩

/-- R49: a calendar time is valid; the second is checked beside it. -/
def Calendar.valid (c : Calendar) (second : Nat) : Bool :=
  2000 ≤ c.year && c.year ≤ 2099 && 1 ≤ c.month && c.month ≤ 12 && 1 ≤ c.day && c.day ≤ monthLength c.year c.month &&
    c.hour ≤ 23 && c.minute ≤ 59 && second ≤ 59

/-- R50: the boundary of the set reaches the blocks, then the clock takes its new values, and CLOCK is set. Elapsed clock time is not moved
(R42, R50, R122). -/
def State.setTime (s : State) (n second : Nat) : State :=
  let s := s.deliver ⟨s.minuteNow, some n, true⟩
  { s with clock := ⟨true, n, second, 60, 0, s.clock.elapsed⟩ }.notifyBoth .clock ⟨.ch0, 1, value32 n⟩

/-- R50. -/
def setTimeOwner (params : List Byte) (s : State) : Except Result State :=
  let c := calendarAt params
  check (!c.valid (u8At params 6)) .range (.ok (s.setTime c.minuteNumber (u8At params 6)))

/-- SET TIME (R50). -/
def execSetTime (port : Port) (piece : Piece) (s : State) : Host.Outcome State Fault Refusal :=
  .next (portWrite port 0x40 7 .complianceOnly piece setTimeOwner s)

/-- R52: the length of the minute in progress; a boundary it makes due occurs at once; CLOCK carries the minute number after it. -/
def State.trimClock (s : State) (offset : Int) : State :=
  let s := { s with clock := { s.clock with length := (60 + offset).toNat } }.emitBoundary
  s.notifyBoth .clock ⟨.ch0, 2, minute32 s.minuteNow⟩

/-- R52, R168: the offset is clamped. -/
def trimClockOwner (params : List Byte) (s : State) : Except Result State :=
  check (!s.clock.set) .clock (.ok (s.trimClock (clampTo (-30) 30 (s8At params 0))))

/-- TRIM CLOCK (R52). -/
def execTrimClock (port : Port) (piece : Piece) (s : State) : Host.Outcome State Fault Refusal :=
  .next (portWrite port 0x41 1 .complianceOnly piece trimClockOwner s)

/-- R53. -/
def readClockOwner (s : State) : Except Result (State × List Byte) := .ok (s, s.clockBytes)

/-- READ CLOCK (R53). -/
def execReadClock (port : Port) (piece : Piece) (s : State) : Host.Outcome State Fault Refusal :=
  .next (portRead port 0x12 0 piece (fun _ => readClockOwner) s)

end Sys2Proof.Machine
end

