-- ==== Sys2Proof/Machine/ScheduleCommands.lean ====
section
/-! DEFINITION. ScheduleCommands: WRITE ENTRY, DELETE ENTRY, WRITE HEADER, SET PROTECTION, READ ENTRY and READ HEADER (04_limit_schedule.md). -/

namespace Sys2Proof.Machine

/-- The entry image WRITE ENTRY carries after the index: offsets 1 to 21 of the entry image (13, Command codes). It makes the entry present;
the version is the one given. -/
def entryImage (params : List Byte) (version : Serial) : Entry :=
  { present := true, channels := maskAt params 1, days := daysAt params 2, works := flagAt params 3, start := u16At params 4
    stop := u16At params 6, limit := levelAt params 8, trigger := levelAt params 10, impulseThreshold := levelAt params 12
    impulsePenalty := levelAt params 14, lowFreqThreshold := levelAt params 16, lowFreqPenalty := levelAt params 18
    cap := levelAt params 20, version := version }

/-- R55, R75: a limit, and a trigger that is 0 or within its range. -/
def limitInRange (l : Level) : Bool := within 3000 12000 l

def triggerInRange (l : Level) : Bool := l == 0 || within 3000 14000 l

/-- R55: every field of an image lies within its range. -/
def Entry.inRange (e : Entry) : Bool :=
  e.start ≤ 1439 && e.stop ≤ 1439 && limitInRange e.limit && triggerInRange e.trigger &&
    within 500 3000 e.impulseThreshold && within 0 1000 e.impulsePenalty && within 500 4000 e.lowFreqThreshold &&
    within 0 1000 e.lowFreqPenalty && within 0 1000 e.cap

/-- R62, R64: an entry takes new contents, its ENTRY item is queued and SCHEDULE is set. -/
def State.changeEntry (s : State) (i : Fin 16) (e : Entry) : State :=
  ({ s with entries := s.entries.set i e }.enqueue (.entry i e)).notifyEntry i

/-- R62, checks 3 to 6, for an index within the numbering. -/
def writeEntryAt (i : Fin 16) (e : Entry) (s : State) : Except Result State :=
  check (s.entryProtected i) .protection <|
  check (!e.inRange) .range <|
  check (i != 0 && s.entryOverlap i e) .overlap <|
  check (!s.store.canTake i.val) .busy <|
  .ok (s.changeEntry i e)

/-- R62, R63. -/
def writeEntryOwner (params : List Byte) (s : State) : Except Result State :=
  match entryIndex? (u8At params 0) with
  | none => .error .notFound
  | some i => writeEntryAt i (entryImage params (s.entries[i].version + 1)) s

/-- WRITE ENTRY (R62). -/
def execWriteEntry (port : Port) (piece : Piece) (s : State) : Host.Outcome State Fault Refusal :=
  .next (portWrite port 0x50 22 .complianceOnly piece writeEntryOwner s)

/-- R64: the entry deleted: absent, its fields kept, its version moved on. -/
def Entry.deleted (e : Entry) : Entry := { e with present := false, version := e.version + 1 }

/-- R64. -/
def deleteEntryOwner (params : List Byte) (s : State) : Except Result State :=
  match entryIndex? (u8At params 0) with
  | none => .error .notFound
  | some i =>
    check (i == 0 || !s.entries[i].present) .state <|
    check (s.entryProtected i) .protection <|
    check (!s.store.canTake i.val) .busy <|
    .ok (s.changeEntry i s.entries[i].deleted)

/-- DELETE ENTRY (R64). -/
def execDeleteEntry (port : Port) (piece : Piece) (s : State) : Host.Outcome State Fault Refusal :=
  .next (portWrite port 0x51 1 .complianceOnly piece deleteEntryOwner s)

/-- The header WRITE HEADER carries. -/
def headerAt (params : List Byte) : Header := ⟨u16At params 0, u16At params 2, u16At params 4, u16At params 6⟩

/-- R56. -/
def Header.inRange (h : Header) : Bool := h.dayStart ≤ 1439 && h.allowance ≤ 600 && h.lowMark ≤ 600 && h.coverage ≤ 100

/-- R65. -/
def writeHeaderOwner (params : List Byte) (s : State) : Except Result State :=
  let h := headerAt params
  check s.headerProtected .protection <|
  check (!h.inRange) .range <|
  check (!s.store.canTake 16) .busy <|
  .ok (({ s with header := h }.enqueue (.header h)).notifyBoth .schedule ⟨.ch0, 2, 0⟩)

/-- WRITE HEADER (R65). -/
def execWriteHeader (port : Port) (piece : Piece) (s : State) : Host.Outcome State Fault Refusal :=
  .next (portWrite port 0x52 8 .complianceOnly piece writeHeaderOwner s)

/-- R68: the extent and the mode in force. -/
def State.protect (s : State) (x : Protection) : State :=
  ({ s with protection := x }.enqueue (.protection x)).notifyBoth .schedule ⟨.ch0, 3, 0⟩

/-- The level of the PROT line, as a command samples it (R68, R73, DESIGN CHOICE, notes/assumptions/5.md). -/
def State.sampleProt (s : State) (prot : Bool) : State := { s with prot := prot }

/-- R68: the checks use the mode in force and the PROT line as it stands when the command is taken. -/
def setProtectionOwner (params : List Byte) (prot : Bool) (s : State) : Except Result State :=
  check (s.protection.mode == .fixed) .locked <|
  check (s.protection.mode == .line && !prot) .protection <|
  match protectionMode? (byteAt params 1) with
  | none => .error .range
  | some m =>
    check (decide (16 < u8At params 0)) .range <|
    check (!s.store.canTake 17) .busy <|
    .ok ((s.sampleProt prot).protect ⟨u8At params 0, m⟩)

/-- SET PROTECTION (R68). -/
def execSetProtection (port : Port) (piece : Piece) (prot : Bool) (s : State) : Host.Outcome State Fault Refusal :=
  .next (portWrite port 0x53 2 .complianceOnly piece (fun params => setProtectionOwner params prot) s)

/-- R72. -/
def readEntryOwner (params : List Byte) (s : State) : Except Result (State × List Byte) :=
  match entryIndex? (u8At params 0) with
  | none => .error .notFound
  | some i => .ok (s, s.entryBytes i)

/-- READ ENTRY (R72). -/
def execReadEntry (port : Port) (piece : Piece) (s : State) : Host.Outcome State Fault Refusal :=
  .next (portRead port 0x13 1 piece readEntryOwner s)

/-- R73. -/
def readHeaderOwner (prot : Bool) (s : State) : Except Result (State × List Byte) :=
  let s := s.sampleProt prot
  .ok (s, s.headerBytes)

/-- READ HEADER (R73). -/
def execReadHeader (port : Port) (piece : Piece) (prot : Bool) (s : State) : Host.Outcome State Fault Refusal :=
  .next (portRead port 0x14 0 piece (fun _ => readHeaderOwner prot) s)

end Sys2Proof.Machine
end

