-- ==== Sys2Proof/Machine/DispensationCommands.lean ====
section
/-! DEFINITION. DispensationCommands: proposing, withdrawing, approving, rejecting, revoking and reading dispensations (05_dispensations.md). -/

namespace Sys2Proof.Machine

/-- R76, R78: the slot an accepted proposal makes. -/
def proposalAt (params : List Byte) (serial : Serial) : Slot :=
  { state := .proposed, serial := serial, channels := maskAt params 0, start := u32At params 1, stop := u32At params 5
    limit := levelAt params 9, trigger := levelAt params 11, works := flagAt params 13, reason := byteAt params 14, outcome := .none }

/-- R78, check 3: the span, the limit, the trigger and the mask, at a current minute number. -/
def Slot.proposable (x : Slot) (now : Nat) : Bool :=
  now + 1 ≤ x.start && x.start ≤ now + 10080 && x.start < x.stop && x.stop - x.start ≤ 1440 &&
    limitInRange x.limit && triggerInRange x.trigger && x.channels != 0

/-- R78: the lowest-numbered FREE slot. -/
def State.freeSlot (s : State) : Option (Fin 8) := (List.finRange 8).find? fun i => s.slots[i].state == .free

/-- R78. -/
def proposeOwner (params : List Byte) (s : State) : Except Result State :=
  let x := proposalAt params s.proposalSerial
  check (!s.clock.set) .clock <|
  check (!x.proposable s.clock.minute) .range <|
  check (s.slots.any x.clashes) .overlap <|
  match s.freeSlot with
  | none => .error .full
  | some i => .ok ({ s with proposalSerial := s.proposalSerial + 1 }.changeSlot i x)

/-- PROPOSE DISPENSATION (R78). -/
def execProposeDispensation (port : Port) (piece : Piece) (s : State) : Host.Outcome State Fault Refusal :=
  .next (portWrite port 0x60 15 .siteOnly piece proposeOwner s)

/-- R79, checks 2 and 3: the slot a decision names by its number and its serial. -/
def namedSlot (params : List Byte) (s : State) (go : Fin 8 → Except Result State) : Except Result State :=
  match slotIndex? (u8At params 0) with
  | none => .error .notFound
  | some i => check (s.slots[i].serial != word16At params 1) .stale (go i)

/-- R77: a slot freed with an outcome. -/
def Slot.freed (x : Slot) (o : SlotOutcome) : Slot := { x with state := .free, outcome := o }

/-- R80. -/
def withdrawOwner (params : List Byte) (s : State) : Except Result State :=
  namedSlot params s fun i =>
    check (s.slots[i].state != .proposed && s.slots[i].state != .approved) .state <|
    .ok (s.changeSlot i (s.slots[i].freed .withdrawn))

/-- WITHDRAW DISPENSATION (R80). -/
def execWithdrawDispensation (port : Port) (piece : Piece) (s : State) : Host.Outcome State Fault Refusal :=
  .next (portWrite port 0x61 3 .siteOnly piece withdrawOwner s)

/-- R81: the slot would overlap another slot that is APPROVED or ACTIVE. -/
def State.slotClashes (s : State) (i : Fin 8) : Bool :=
  (List.finRange 8).any fun j => j != i && s.slots[i].clashes s.slots[j]

/-- R81. -/
def approveOwner (params : List Byte) (s : State) : Except Result State :=
  namedSlot params s fun i =>
    check (s.slots[i].state != .proposed) .state <|
    check (s.slotClashes i) .overlap <|
    .ok (s.changeSlot i { s.slots[i] with state := .approved })

/-- APPROVE DISPENSATION (R81). -/
def execApproveDispensation (port : Port) (piece : Piece) (s : State) : Host.Outcome State Fault Refusal :=
  .next (portWrite port 0x62 3 .complianceOnly piece approveOwner s)

/-- R82. -/
def rejectOwner (params : List Byte) (s : State) : Except Result State :=
  namedSlot params s fun i =>
    check (s.slots[i].state != .proposed) .state <|
    .ok (s.changeSlot i (s.slots[i].freed .rejected))

/-- REJECT DISPENSATION (R82). -/
def execRejectDispensation (port : Port) (piece : Piece) (s : State) : Host.Outcome State Fault Refusal :=
  .next (portWrite port 0x63 3 .complianceOnly piece rejectOwner s)

/-- R83. -/
def revokeOwner (params : List Byte) (s : State) : Except Result State :=
  namedSlot params s fun i =>
    check (!s.slots[i].granted) .state <|
    .ok (s.changeSlot i (s.slots[i].freed .revoked))

/-- REVOKE DISPENSATION (R83). -/
def execRevokeDispensation (port : Port) (piece : Piece) (s : State) : Host.Outcome State Fault Refusal :=
  .next (portWrite port 0x64 3 .complianceOnly piece revokeOwner s)

/-- R88. -/
def readDispensationOwner (params : List Byte) (s : State) : Except Result (State × List Byte) :=
  match slotIndex? (u8At params 0) with
  | none => .error .notFound
  | some i => .ok (s, s.slotBytes i)

/-- READ DISPENSATION (R88). -/
def execReadDispensation (port : Port) (piece : Piece) (s : State) : Host.Outcome State Fault Refusal :=
  .next (portRead port 0x15 1 piece readDispensationOwner s)

end Sys2Proof.Machine
end

