-- ==== Sys2Proof/Machine/Events.lean ====
section
/-! DEFINITION. Events: audio frames, blocks, slices, lines, calibration and clock events (01, 02, 03, 07, 08). -/

namespace Sys2Proof.Machine

/-- A frame is taken on a line (R1, R2), if the part runs; all that was due before it is done first. -/
def execAudioFrame (line : Line) (lower upper : Sample) (s : State) : Host.Outcome State Fault Refusal :=
  .next (if s.running then s.settle.takeFrame line lower upper else s)

/-- A discarded frame hands on no sample and counts as no frame (R1). -/
def execIncompleteFrameDiscard (_line : Line) (s : State) : Host.Outcome State Fault Refusal := .next s

/-- A block of a channel ends (R25, R26), if it is complete. -/
def execBlockEnd (ch : Ch) (s : State) : Host.Outcome State Fault Refusal := .next (s.blockEnd ch)

/-- R14: the slice end samples the WX line. -/
def State.frameSliceEndAt (s : State) (ch : Ch) (wx : Bool) : State :=
  if s.sliceDue ch then { s with wx := wx }.frameSliceEnd ch else s

/-- A frame-timed slice of a channel ends (R11), if its 6000th frame has been taken. -/
def execFrameSliceEnd (ch : Ch) (wx : Bool) (s : State) : Host.Outcome State Fault Refusal := .next (s.frameSliceEndAt ch wx)

/-- The crystal-timed slice of a channel on a LOST line ends (R11): 4096 crystal periods have passed. -/
def execCrystalSliceEnd (ch : Ch) (s : State) : Host.Outcome State Fault Refusal := .next (s.settle.crystalSliceEnd ch)

/-- A line is declared lost (R2, R3): 66 crystal periods have passed on it without a frame. -/
def execLineLost (line : Line) (s : State) : Host.Outcome State Fault Refusal := .next (s.settle.lineLost line)

/-- A line is declared restored (R2, R4), if its run counter has reached 4800. -/
def execLineRestored (line : Line) (s : State) : Host.Outcome State Fault Refusal := .next (s.lineRestored line)

/-- The next slice end of a channel is its `n`-th in the present settling or phase. -/
def Channel.slicesReach (c : Channel) (n : Nat) : Bool := n ≤ c.settle + 1

/-- R7: the next slice end completes the settling. -/
def Channel.settlingEnds (c : Channel) : Bool := c.state == .settling && c.slicesReach 16

/-- R10: the next slice end completes the phase. -/
def Channel.calSettleEnds (c : Channel) : Bool :=
  (c.state == .calibrating .calSettle .settling || c.state == .calibrating .calSettle .off) && c.slicesReach 40

def Channel.calMeasureEnds (c : Channel) : Bool := c.state.isMeasure && c.slicesReach 160

def Channel.calRecoverEnds (c : Channel) : Bool :=
  (c.state == .calibrating .calRecover .settling || c.state == .calibrating .calRecover .off) && c.slicesReach 16

/-- The slice end that completes a settling or a phase is taken where it is due and completes it; otherwise nothing happens. -/
def State.sliceEndFor (s : State) (ch : Ch) (wx completes : Bool) : State := if completes then s.frameSliceEndAt ch wx else s

/-- The sixteenth slice of SETTLING ends and the channel enters MEASURING (R7). -/
def execSettlingComplete (ch : Ch) (wx : Bool) (s : State) : Host.Outcome State Fault Refusal :=
  .next (s.sliceEndFor ch wx (s.chan ch).settlingEnds)

/-- The fortieth slice of CAL-SETTLE ends (R10). -/
def execCalSettleComplete (ch : Ch) (wx : Bool) (s : State) : Host.Outcome State Fault Refusal :=
  .next (s.sliceEndFor ch wx (s.chan ch).calSettleEnds)

/-- The hundred-and-sixtieth slice of CAL-MEASURE ends, and with it the run (R10, R118, R119). -/
def execCalMeasureComplete (ch : Ch) (wx : Bool) (s : State) : Host.Outcome State Fault Refusal :=
  .next (s.sliceEndFor ch wx (s.chan ch).calMeasureEnds)

/-- The sixteenth slice of CAL-RECOVER ends and the channel returns (R10). -/
def execCalRecoverComplete (ch : Ch) (wx : Bool) (s : State) : Host.Outcome State Fault Refusal :=
  .next (s.sliceEndFor ch wx (s.chan ch).calRecoverEnds)

/-- A pending result lapses (R122), if its count has reached 600. -/
def execCalResultLapse (ch : Ch) (s : State) : Host.Outcome State Fault Refusal := .next (s.lapseResult ch)

/-- The prescaler wraps (R42, R44, R122). -/
def execSecondTick (s : State) : Host.Outcome State Fault Refusal := .next s.settle.secondElapsed

/-- The clock emits a minute boundary (R43), if the seconds counter has reached the minute length. -/
def execMinuteBoundary (s : State) : Host.Outcome State Fault Refusal := .next s.emitBoundary

/-- The result the slice in progress would give were it to end now, its last block being ended with it (R25, R31). -/
def State.nextResult (s : State) (ch : Ch) (wx : Bool) : SliceResult := (({ s with wx := wx }).blockEnd ch).sliceResult ch false

/-- R130, R132: the open event of a channel after the slice that would end now, where that slice is VALID. -/
def State.nextEvent (s : State) (ch : Ch) (wx : Bool) : Option OpenEvent :=
  if (s.nextResult ch wx).cls = .valid then
    (s.chan ch).openEvent.map fun e => e.takeSlice (s.chan ch).release (s.nextResult ch wx)
  else none

/-- The slice end that is due closes the channel's open event with cause FELL (R130); otherwise nothing happens. -/
def execEventCloseFell (ch : Ch) (wx : Bool) (s : State) : Host.Outcome State Fault Refusal :=
  .next (s.sliceEndFor ch wx ((s.nextEvent ch wx).any OpenEvent.fell))

/-- The slice end that is due closes the channel's open event with cause LONG (R132); otherwise nothing happens. -/
def execEventCloseLong (ch : Ch) (wx : Bool) (s : State) : Host.Outcome State Fault Refusal :=
  .next (s.sliceEndFor ch wx ((s.nextEvent ch wx).any OpenEvent.tooLong))

end Sys2Proof.Machine
end

