-- ==== Sys2Proof/Machine/RecordCommands.lean ====
section
/-! DEFINITION. RecordCommands: READ ACCOUNT and READ HISTOGRAM (06), READ EVENTS (08), READ HISTORY, READ PERIODS and SEEK (09). -/

namespace Sys2Proof.Machine

/-! ### Accounts -/

/-- R111. -/
def readAccountOwner (params : List Byte) (s : State) : Except Result (State × List Byte) :=
  match Ch.ofNat? (u8At params 0) with
  | none => .error .notFound
  | some ch => .ok (s, s.accountBytes ch)

/-- READ ACCOUNT (R111). -/
def execReadAccount (port : Port) (piece : Piece) (s : State) : Host.Outcome State Fault Refusal :=
  .next (portRead port 0x16 1 piece readAccountOwner s)

/-- R112, R168: the first bin, and the count of bins from it. -/
def firstBin (params : List Byte) : Nat := clampCount 0 239 (u8At params 1)

def binCount (params : List Byte) : Nat := clampCount 1 (240 - firstBin params) (u8At params 2)

/-- R112. -/
def readHistogramOwner (params : List Byte) (s : State) : Except Result (State × List Byte) :=
  match Ch.ofNat? (u8At params 0) with
  | none => .error .notFound
  | some ch => .ok (s, s.histogramBytes ch (firstBin params) (binCount params))

/-- READ HISTOGRAM (R112). -/
def execReadHistogram (port : Port) (piece : Piece) (s : State) : Host.Outcome State Fault Refusal :=
  .next (portRead port 0x17 3 piece readHistogramOwner s)

/-! ### The three collections (R134, R137, R139) -/

/-- The oldest sequence of the minute ring: next less the number held. -/
def State.historyOldest (s : State) : Nat := s.minuteSeq - s.minuteRing.length

/-- The oldest sequence of the period list. -/
def State.periodOldest (s : State) : Nat := s.periodSeq - s.periodList.length

/-- R135, R141, R168: the count of a read of records. -/
def recordCount (params : List Byte) : Nat := clampCount 1 8 (u8At params 0)

/-- What a read of a collection finds (R135, R141): the lost count, the records, the new cursor. -/
structure Window (α : Type) where
  lost : Nat
  records : List α
  cursor : Nat
deriving DecidableEq, Repr

/-- R141, R142: the records from a cursor upward, of a collection held in sequence order from `oldest`. -/
def window {α : Type} (oldest : Nat) (records : List α) (cursor count : Nat) : Window α :=
  let start := max cursor oldest
  let found := (records.drop (start - oldest)).take count
  ⟨start - cursor, found, start + found.length⟩

def PortState.setHistoryCursor (x : PortState) (n : Nat) : PortState := { x with historyCursor := n }

def PortState.setPeriodCursor (x : PortState) (n : Nat) : PortState := { x with periodCursor := n }

def PortState.setEventCursor (x : PortState) (n : Nat) : PortState := { x with eventCursor := n }

/-- R141. -/
def readHistoryOwner (port : Port) (params : List Byte) (s : State) : Except Result (State × List Byte) :=
  let w := window s.historyOldest s.minuteRing (s.port port).historyCursor (recordCount params)
  .ok (s.setPort port ((s.port port).setHistoryCursor w.cursor),
    recordsLead w.lost w.records.length ++ w.records.flatMap MinuteRecord.bytes)

/-- READ HISTORY (R141). -/
def execReadHistory (port : Port) (piece : Piece) (s : State) : Host.Outcome State Fault Refusal :=
  .next (portRead port 0x19 1 piece (readHistoryOwner port) s)

/-- R142. -/
def readPeriodsOwner (port : Port) (params : List Byte) (s : State) : Except Result (State × List Byte) :=
  let w := window s.periodOldest s.periodList (s.port port).periodCursor (recordCount params)
  .ok (s.setPort port ((s.port port).setPeriodCursor w.cursor),
    recordsLead w.lost w.records.length ++ w.records.flatMap PeriodRecord.bytes)

/-- READ PERIODS (R142). -/
def execReadPeriods (port : Port) (piece : Piece) (s : State) : Host.Outcome State Fault Refusal :=
  .next (portRead port 0x1A 1 piece (readPeriodsOwner port) s)

/-- R135: the new event cursor after a read of these records from a cursor: the first OPEN record's sequence, or one above the last
record's, or the cursor where none is returned. -/
def eventCursorAfter (records : List EventRecord) (cursor : Nat) : Nat :=
  match records.find? fun r => r.closed.isNone, records.getLast? with
  | some r, _ => r.sequence
  | none, some r => r.sequence + 1
  | none, none => cursor

/-- R135: the records of the event list from a cursor upward. -/
def eventWindow (list : List EventRecord) (cursor count : Nat) : Window EventRecord :=
  let found := (list.filter fun r => cursor ≤ r.sequence).take count
  let after := eventCursorAfter found cursor
  ⟨after - cursor - (found.filter fun r => r.sequence < after).length, found, after⟩

/-- R135. -/
def readEventsOwner (port : Port) (params : List Byte) (s : State) : Except Result (State × List Byte) :=
  let w := eventWindow s.eventList (s.port port).eventCursor (recordCount params)
  .ok (s.setPort port ((s.port port).setEventCursor w.cursor),
    recordsLead w.lost w.records.length ++ w.records.flatMap s.eventBytes)

/-- READ EVENTS (R135). -/
def execReadEvents (port : Port) (piece : Piece) (s : State) : Host.Outcome State Fault Refusal :=
  .next (portRead port 0x18 1 piece (readEventsOwner port) s)

/-! ### SEEK (R144) -/

/-- R144: the collections SEEK names. -/
inductive Collection where
  | history
  | periods
  | events
deriving DecidableEq, Repr

/-- R144: the positions SEEK names. -/
inductive Position where
  | oldest
  | next
  | sequence
deriving DecidableEq, Repr

/-- The collection a coded parameter names, if it names one (R183). -/
def collection? (b : Byte) : Option Collection :=
  match b with
  | 0 => some .history
  | 1 => some .periods
  | 2 => some .events
  | _ => none

/-- The position a coded parameter names, if it names one (R183). -/
def position? (b : Byte) : Option Position :=
  match b with
  | 0 => some .oldest
  | 1 => some .next
  | 2 => some .sequence
  | _ => none

def State.oldestOf (s : State) : Collection → Nat
  | .history => s.historyOldest
  | .periods => s.periodOldest
  | .events => s.eventOldest

def State.nextOf (s : State) : Collection → Nat
  | .history => s.minuteSeq
  | .periods => s.periodSeq
  | .events => s.eventSeq

/-- R144: where SEEK sets the cursor. -/
def State.seekTarget (s : State) (c : Collection) (x : Position) (sequence : Nat) : Nat :=
  match x with
  | .oldest => s.oldestOf c
  | .next => s.nextOf c
  | .sequence => clampCount (s.oldestOf c) (s.nextOf c) sequence

/-- R140: a port's cursor into a collection. -/
def PortState.setCursor (x : PortState) (c : Collection) (n : Nat) : PortState :=
  match c with
  | .history => x.setHistoryCursor n
  | .periods => x.setPeriodCursor n
  | .events => x.setEventCursor n

/-- R144, R145: SEEK; a history cursor moved backward may raise the lag to 1792. -/
def State.seekCursor (s : State) (port : Port) (c : Collection) (n : Nat) : State :=
  (s.setPort port ((s.port port).setCursor c n)).lagRaised (s.historyLag port) port

/-- R144. -/
def seekOwner (port : Port) (params : List Byte) (s : State) : Except Result State :=
  match collection? (byteAt params 0), position? (byteAt params 1) with
  | some c, some x => .ok (s.seekCursor port c (s.seekTarget c x (u32At params 2)))
  | _, _ => .error .range

/-- SEEK (R144). -/
def execSeek (port : Port) (piece : Piece) (s : State) : Host.Outcome State Fault Refusal :=
  .next (portWrite port 0x20 6 .either piece (seekOwner port) s)

end Sys2Proof.Machine
end

