-- ==== Sys2Proof/Machine/NoticeCommands.lean ====
section
/-! DEFINITION. NoticeCommands: READ NOTICES, SET NOTICE ENABLES, CLEAR CONDITIONS, SET QUIET REQUEST and PORT RESET (10_notices_conditions_and_the_quiet_line.md). -/

namespace Sys2Proof.Machine

/-- R151: every notice flag becomes clear; the enables and details stay. -/
def PortState.clearFlags (x : PortState) : PortState := { x with notices := x.notices.map fun n => { n with flag := false } }

/-- R151: the response shows the port as it stands, and its flags are cleared at the same snapshot. -/
def readNoticesOwner (port : Port) (s : State) : Except Result (State × List Byte) :=
  .ok (s.setPort port (s.port port).clearFlags, s.noticeBytes port)

/-- READ NOTICES (R151). -/
def execReadNotices (port : Port) (piece : Piece) (s : State) : Host.Outcome State Fault Refusal :=
  .next (portRead port 0x1B 0 piece (fun _ => readNoticesOwner port) s)

/-- R152: the fifteen enables of a mask, bit n for kind n. -/
def PortState.setEnables (x : PortState) (mask : BitVec 16) : PortState :=
  { x with notices := Vector.ofFn fun i => { x.notices[i] with enable := mask.getLsbD (i.val + 1) } }

/-- R152. -/
def setNoticeEnablesOwner (port : Port) (params : List Byte) (s : State) : Except Result State :=
  .ok (s.setPort port ((s.port port).setEnables (word16At params 0)))

/-- SET NOTICE ENABLES (R152). -/
def execSetNoticeEnables (port : Port) (piece : Piece) (s : State) : Host.Outcome State Fault Refusal :=
  .next (portWrite port 0x70 2 .either piece (setNoticeEnablesOwner port) s)

/-- R154: the condition flags of the channels of a mask become clear. -/
def PortState.clearConditions (x : PortState) (m : ChannelMask) : PortState :=
  let keep (ch : Ch) := if maskHas m ch then Causes.none else x.conditions.get ch
  { x with conditions := ⟨keep .ch0, keep .ch1, keep .ch2, keep .ch3⟩ }

/-- R154. -/
def clearConditionsOwner (port : Port) (params : List Byte) (s : State) : Except Result State :=
  .ok (s.setPort port ((s.port port).clearConditions (maskAt params 0)))

/-- CLEAR CONDITIONS (R154). -/
def execClearConditions (port : Port) (piece : Piece) (s : State) : Host.Outcome State Fault Refusal :=
  .next (portWrite port 0x71 1 .either piece (clearConditionsOwner port) s)

/-- R155: a port's quiet request, with the QUIET line brought to its state. -/
def State.requestQuiet (s : State) (port : Port) (on : Bool) : State :=
  (s.setPort port { s.port port with quietRequest := on }).bringQuiet .ch0 (.ofPort port)

/-- R155. -/
def setQuietRequestOwner (port : Port) (params : List Byte) (s : State) : Except Result State :=
  .ok (s.requestQuiet port (flagAt params 0))

/-- SET QUIET REQUEST (R155). -/
def execSetQuietRequest (port : Port) (piece : Piece) (s : State) : Host.Outcome State Fault Refusal :=
  .next (portWrite port 0x72 1 .either piece (setQuietRequestOwner port) s)

/-- R157, steps 1 to 3: flags, details, enables and condition flags. -/
def PortState.clearNotices (x : PortState) : PortState := { x with notices := clearedNotices, conditions := .all .none }

/-- R146: the three cursors at the oldest of their collections. -/
def State.rewindCursors (s : State) (port : Port) : State :=
  s.setPort port { s.port port with
    historyCursor := s.historyOldest, periodCursor := s.periodOldest, eventCursor := s.eventOldest }

/-- R145: a port reset sets HISTORY-LAG whenever the lag it leaves is 1792 or more. -/
def State.lagLeft (s : State) (port : Port) : State := if 1792 ≤ s.historyLag port then s.notifyLag port else s

/-- R157: PORT RESET, in the order of its five steps. -/
def State.portReset (s : State) (port : Port) : State :=
  let s := s.setPort port (s.port port).clearNotices
  let s := s.requestQuiet port false
  (s.rewindCursors port).lagLeft port

/-- R170. -/
def portResetOwner (port : Port) (s : State) : Except Result State := .ok (s.portReset port)

/-- PORT RESET (R157, R170). -/
def execPortReset (port : Port) (piece : Piece) (s : State) : Host.Outcome State Fault Refusal :=
  .next (portWrite port 0x7E 0 .either piece (fun _ => portResetOwner port) s)

end Sys2Proof.Machine
end

