-- ==== Sys2Proof/Machine/PortCommands.lean ====
section
/-! DEFINITION. PortCommands: NOP, unknown codes, IDENTIFY and DEVICE RESET (11_port_transactions.md). -/

namespace Sys2Proof.Machine

/-- NOP (R165). -/
def execNop (port : Port) (piece : Piece) (s : State) : Host.Outcome State Fault Refusal :=
  .next (portNop port piece s)

/-- A command code that names no command (R165). -/
def execUnknownCommandCode (port : Port) (code : Byte) (piece : Piece) (s : State) : Host.Outcome State Fault Refusal :=
  .next (s.transact port piece code judgeUnknown)

/-- R169. -/
def identifyOwner (s : State) : Except Result (State × List Byte) := .ok (s, identityBytes)

/-- IDENTIFY (R169). -/
def execIdentify (port : Port) (piece : Piece) (s : State) : Host.Outcome State Fault Refusal :=
  .next (portRead port 0x1D 0 piece (fun _ => identifyOwner) s)

/-- R171. -/
def deviceResetOwner (s : State) : Except Result State :=
  check s.store.busy .busy (.ok (s.completeReset .command false))

/-- DEVICE RESET (R171). -/
def execDeviceReset (port : Port) (piece : Piece) (s : State) : Host.Outcome State Fault Refusal :=
  .next (portWrite port 0xF0 0 .complianceOnly piece (fun _ => deviceResetOwner) s)

end Sys2Proof.Machine
end

