-- ==== Sys2Proof/Machine/ResetCommands.lean ====
section
/-! DEFINITION. ResetCommands: the RESET_N line, power-on and the loss of supply (R158, R172, R178). -/

namespace Sys2Proof.Machine

/-- RESET_N falls (R172), all that was due before it being done first. -/
def execResetNLow (s : State) : Host.Outcome State Fault Refusal := .next s.settle.resetLow

/-- RESET_N rises and the reset completes (R172). -/
def execResetNRelease (s : State) : Host.Outcome State Fault Refusal := .next s.settle.resetRelease

/-- The supply rises (R172). -/
def execPowerOn (backupLost : Bool) (s : State) : Host.Outcome State Fault Refusal := .next (s.settle.powerUp backupLost)

/-- The main supply is lost (R172, R178). -/
def execLossOfSupply (s : State) : Host.Outcome State Fault Refusal := .next s.settle.powerDown

end Sys2Proof.Machine
end

