-- ==== Sys2Proof/Machine/StoreCommands.lean ====
section
/-! DEFINITION. StoreCommands: the commissioning record's commands and the beginning and end of a store write (12_setting_store_and_commissioning.md). -/

namespace Sys2Proof.Machine

/-- The record WRITE COMMISSIONING carries, locked no (R179). -/
def commissioningAt (params : List Byte) : Commissioning :=
  { site := charsAt params 0 16, station := word16At params 16, installed := maskAt params 18, weather := maskAt params 19
    labels := ⟨charsAt params 20 12, charsAt params 32 12, charsAt params 44 12, charsAt params 56 12⟩, locked := false }

/-- R179: every character of the record is one. -/
def Commissioning.printable (r : Commissioning) : Bool :=
  r.site.all isCharacter && Ch.list.all fun ch => (r.labels.get ch).all isCharacter

/-- R110: the condition of every channel is evaluated anew. -/
def State.holdAllQuiet (s : State) : State := Ch.list.foldl State.holdQuiet s

/-- R156: the lowest channel whose condition differs between two states. -/
def quietChanged (s t : State) : Ch :=
  (Ch.list.find? fun ch => (s.chan ch).quietHeld != (t.chan ch).quietHeld).getD .ch0

/-- R110, R156: the conditions after a WRITE COMMISSIONING, and the QUIET line. -/
def State.reevaluateQuiet (s : State) : State := s.holdAllQuiet.bringQuiet (quietChanged s s.holdAllQuiet) .commissioning

/-- R179, R180: the working record changes and its item is queued. -/
def State.recordCommissioning (s : State) (r : Commissioning) : State :=
  { s with commissioning := r }.enqueue (.commissioning r)

/-- R179. -/
def writeCommissioningOwner (params : List Byte) (s : State) : Except Result State :=
  let r := commissioningAt params
  check s.commissioning.locked .locked <|
  check (!r.printable) .range <|
  check (!s.store.canTake 22) .busy <|
  .ok (s.recordCommissioning r).reevaluateQuiet

/-- WRITE COMMISSIONING (R179). -/
def execWriteCommissioning (port : Port) (piece : Piece) (s : State) : Host.Outcome State Fault Refusal :=
  .next (portWrite port 0x80 68 .complianceOnly piece writeCommissioningOwner s)

/-- R180. -/
def lockCommissioningOwner (s : State) : Except Result State :=
  check s.commissioning.locked .locked <|
  check (!s.store.canTake 22) .busy <|
  .ok (s.recordCommissioning { s.commissioning with locked := true })

/-- LOCK COMMISSIONING (R180). -/
def execLockCommissioning (port : Port) (piece : Piece) (s : State) : Host.Outcome State Fault Refusal :=
  .next (portWrite port 0x81 0 .complianceOnly piece (fun _ => lockCommissioningOwner) s)

/-- R180. -/
def readCommissioningOwner (s : State) : Except Result (State × List Byte) := .ok (s, s.commissioning.bytes)

/-- READ COMMISSIONING (R180). -/
def execReadCommissioning (port : Port) (piece : Piece) (s : State) : Host.Outcome State Fault Refusal :=
  .next (portRead port 0x1C 0 piece (fun _ => readCommissioningOwner) s)

/-- The head item's write begins (R177), if the store is idle and the queue is not empty. -/
def execStoreWriteBegin (s : State) : Host.Outcome State Fault Refusal := .next s.beginStoreWrite

/-- The write in progress ends (R177), if there is one; the next item then begins its own. -/
def execStoreWriteEnd (readsBack : Bool) (s : State) : Host.Outcome State Fault Refusal :=
  .next (s.settle.endStoreWrite readsBack)

end Sys2Proof.Machine
end

