-- ==== Sys2Proof/Machine/Dispatch.lean ====
section
/-! DEFINITION. Dispatch: the meaning of each command and event, one arm per row of spec/opcode_table.json. -/

namespace Sys2Proof.Machine

def exec (i : Instr) (s : State) : Host.Outcome State Fault Refusal :=
  match i with
  | .nop port piece => Sys2Proof.Machine.execNop port piece s
  | .unknownCommandCode port code piece => Sys2Proof.Machine.execUnknownCommandCode port code piece s
  | .readLive port piece wx => Sys2Proof.Machine.execReadLive port piece wx s
  | .readChannel port piece wx => Sys2Proof.Machine.execReadChannel port piece wx s
  | .readClock port piece => Sys2Proof.Machine.execReadClock port piece s
  | .readEntry port piece => Sys2Proof.Machine.execReadEntry port piece s
  | .readHeader port piece prot => Sys2Proof.Machine.execReadHeader port piece prot s
  | .readDispensation port piece => Sys2Proof.Machine.execReadDispensation port piece s
  | .readAccount port piece => Sys2Proof.Machine.execReadAccount port piece s
  | .readHistogram port piece => Sys2Proof.Machine.execReadHistogram port piece s
  | .readEvents port piece => Sys2Proof.Machine.execReadEvents port piece s
  | .readHistory port piece => Sys2Proof.Machine.execReadHistory port piece s
  | .readPeriods port piece => Sys2Proof.Machine.execReadPeriods port piece s
  | .readNotices port piece => Sys2Proof.Machine.execReadNotices port piece s
  | .readCommissioning port piece => Sys2Proof.Machine.execReadCommissioning port piece s
  | .identify port piece => Sys2Proof.Machine.execIdentify port piece s
  | .seek port piece => Sys2Proof.Machine.execSeek port piece s
  | .startChannels port piece => Sys2Proof.Machine.execStartChannels port piece s
  | .stopChannels port piece => Sys2Proof.Machine.execStopChannels port piece s
  | .exclude port piece => Sys2Proof.Machine.execExclude port piece s
  | .setEventTrigger port piece => Sys2Proof.Machine.execSetEventTrigger port piece s
  | .calibrate port piece => Sys2Proof.Machine.execCalibrate port piece s
  | .abortCalibration port piece => Sys2Proof.Machine.execAbortCalibration port piece s
  | .acceptCalibration port piece => Sys2Proof.Machine.execAcceptCalibration port piece s
  | .rejectCalibration port piece => Sys2Proof.Machine.execRejectCalibration port piece s
  | .setTime port piece => Sys2Proof.Machine.execSetTime port piece s
  | .trimClock port piece => Sys2Proof.Machine.execTrimClock port piece s
  | .writeEntry port piece => Sys2Proof.Machine.execWriteEntry port piece s
  | .deleteEntry port piece => Sys2Proof.Machine.execDeleteEntry port piece s
  | .writeHeader port piece => Sys2Proof.Machine.execWriteHeader port piece s
  | .setProtection port piece prot => Sys2Proof.Machine.execSetProtection port piece prot s
  | .proposeDispensation port piece => Sys2Proof.Machine.execProposeDispensation port piece s
  | .withdrawDispensation port piece => Sys2Proof.Machine.execWithdrawDispensation port piece s
  | .approveDispensation port piece => Sys2Proof.Machine.execApproveDispensation port piece s
  | .rejectDispensation port piece => Sys2Proof.Machine.execRejectDispensation port piece s
  | .revokeDispensation port piece => Sys2Proof.Machine.execRevokeDispensation port piece s
  | .setNoticeEnables port piece => Sys2Proof.Machine.execSetNoticeEnables port piece s
  | .clearConditions port piece => Sys2Proof.Machine.execClearConditions port piece s
  | .setQuietRequest port piece => Sys2Proof.Machine.execSetQuietRequest port piece s
  | .portReset port piece => Sys2Proof.Machine.execPortReset port piece s
  | .writeCommissioning port piece => Sys2Proof.Machine.execWriteCommissioning port piece s
  | .lockCommissioning port piece => Sys2Proof.Machine.execLockCommissioning port piece s
  | .deviceReset port piece => Sys2Proof.Machine.execDeviceReset port piece s
  | .resetNLow => Sys2Proof.Machine.execResetNLow s
  | .resetNRelease => Sys2Proof.Machine.execResetNRelease s
  | .powerOn backupLost => Sys2Proof.Machine.execPowerOn backupLost s
  | .audioFrame line lower upper => Sys2Proof.Machine.execAudioFrame line lower upper s
  | .incompleteFrameDiscard line => Sys2Proof.Machine.execIncompleteFrameDiscard line s
  | .blockEnd ch => Sys2Proof.Machine.execBlockEnd ch s
  | .frameSliceEnd ch wx => Sys2Proof.Machine.execFrameSliceEnd ch wx s
  | .crystalSliceEnd ch => Sys2Proof.Machine.execCrystalSliceEnd ch s
  | .lineLost line => Sys2Proof.Machine.execLineLost line s
  | .lineRestored line => Sys2Proof.Machine.execLineRestored line s
  | .settlingComplete ch wx => Sys2Proof.Machine.execSettlingComplete ch wx s
  | .calSettleComplete ch wx => Sys2Proof.Machine.execCalSettleComplete ch wx s
  | .calMeasureComplete ch wx => Sys2Proof.Machine.execCalMeasureComplete ch wx s
  | .calRecoverComplete ch wx => Sys2Proof.Machine.execCalRecoverComplete ch wx s
  | .calResultLapse ch => Sys2Proof.Machine.execCalResultLapse ch s
  | .secondTick => Sys2Proof.Machine.execSecondTick s
  | .minuteBoundary => Sys2Proof.Machine.execMinuteBoundary s
  | .eventCloseFell ch wx => Sys2Proof.Machine.execEventCloseFell ch wx s
  | .eventCloseLong ch wx => Sys2Proof.Machine.execEventCloseLong ch wx s
  | .storeWriteBegin => Sys2Proof.Machine.execStoreWriteBegin s
  | .storeWriteEnd readsBack => Sys2Proof.Machine.execStoreWriteEnd readsBack s
  | .lossOfSupply => Sys2Proof.Machine.execLossOfSupply s

end Sys2Proof.Machine
end

