-- ==== Sys2Proof/Machine/Step.lean ====
section
/-! DEFINITION. Step: the command or event at the front of the queue is taken; with none waiting a crystal period passes. -/

namespace Sys2Proof.Machine

/-- One step: the front of the queue runs on the queue's rest. With an empty queue one period of the 32.768 kHz crystal passes
(DESIGN CHOICE, unsafe: notes/assumptions/7.md). -/
def step (s : State) : Host.Outcome State Fault Refusal :=
  match s.pending with
  | [] => .next s.crystalPeriod
  | i :: rest => exec i { s with pending := rest }

/-- The command a table word spells, put at the front of the queue; the table gives no row bits, so no word spells one. -/
def State.withFetchWord (s : State) (nbits w : Nat) : State :=
  match decodeTableWord nbits w with
  | none => s
  | some i => { s with pending := i :: s.pending }

end Sys2Proof.Machine
end

