-- ==== Sys2Proof/Safety.lean ====
section
/-! DEFINITION. Safety: what always holds of the part, as predicates of its state, and the forms of the commands, in the terms the statements use. -/

namespace Sys2Proof

/-! ### Forms of the commands (13_record_and_frame_formats.md, Command codes; R166) -/

/-- The parameter bytes a port's command carries; none for an event. -/
def Instr.params (i : Instr) : List Byte :=
  match encodeTransaction i with
  | some (_ :: params) => params
  | _ => []

/-- The number of parameter bytes of a write and the ports it may be sent from; `none` for what is no write. -/
def Instr.writeForm : Instr → Option (Nat × Machine.Role)
  | .seek _ _ => some (6, .either)
  | .startChannels _ _ => some (1, .either)
  | .stopChannels _ _ => some (1, .complianceOnly)
  | .exclude _ _ => some (2, .complianceOnly)
  | .setEventTrigger _ _ => some (5, .either)
  | .calibrate _ _ => some (3, .either)
  | .abortCalibration _ _ => some (1, .either)
  | .acceptCalibration _ _ => some (3, .complianceOnly)
  | .rejectCalibration _ _ => some (3, .complianceOnly)
  | .setTime _ _ => some (7, .complianceOnly)
  | .trimClock _ _ => some (1, .complianceOnly)
  | .writeEntry _ _ => some (22, .complianceOnly)
  | .deleteEntry _ _ => some (1, .complianceOnly)
  | .writeHeader _ _ => some (8, .complianceOnly)
  | .setProtection _ _ _ => some (2, .complianceOnly)
  | .proposeDispensation _ _ => some (15, .siteOnly)
  | .withdrawDispensation _ _ => some (3, .siteOnly)
  | .approveDispensation _ _ => some (3, .complianceOnly)
  | .rejectDispensation _ _ => some (3, .complianceOnly)
  | .revokeDispensation _ _ => some (3, .complianceOnly)
  | .setNoticeEnables _ _ => some (2, .either)
  | .clearConditions _ _ => some (1, .either)
  | .setQuietRequest _ _ => some (1, .either)
  | .portReset _ _ => some (0, .either)
  | .writeCommissioning _ _ => some (68, .complianceOnly)
  | .lockCommissioning _ _ => some (0, .complianceOnly)
  | .deviceReset _ _ => some (0, .complianceOnly)
  | _ => none

/-- The number of parameter bytes of a read; `none` for what is no read. -/
def Instr.readForm : Instr → Option Nat
  | .readLive _ _ _ => some 0
  | .readChannel _ _ _ => some 1
  | .readClock _ _ => some 0
  | .readEntry _ _ => some 1
  | .readHeader _ _ _ => some 0
  | .readDispensation _ _ => some 1
  | .readAccount _ _ => some 1
  | .readHistogram _ _ => some 3
  | .readEvents _ _ => some 1
  | .readHistory _ _ => some 1
  | .readPeriods _ _ => some 1
  | .readNotices _ _ => some 0
  | .readCommissioning _ _ => some 0
  | .identify _ _ => some 0
  | _ => none

end Sys2Proof

namespace Sys2Proof.Machine

/-! ### What a list of commands and a transaction leave -/

/-- The commands and events of a list, taken one after the other from the state `s`, lead to `t`. -/
def RunsTo : List Instr → State → State → Prop
  | [], s, t => t = s
  | i :: rest, s, t => ∃ v, exec i s = .next v ∧ RunsTo rest v t

/-- The state `v` with the result `r` and the end of a write's whole transaction at port `p`: while its code and `params` were received,
the status byte and the last result of the state `u` it was judged in were shifted out, then 0x00 (R160, R162). -/
def State.wrote (v : State) (p : Port) (r : Result) (u : State) (params : List Byte) : State :=
  v.setPort p { v.port p with
    lastResult := r
    transaction := .idle (([u.statusByte p, (u.port p).lastResult.code] ++ List.replicate params.length 0).take (params.length + 1)) }

/-- The bytes a read of `count` parameter bytes shifts out while `n` bytes are clocked: the status byte, the last result, its own
result at byte max(2, count + 1), the data, and 0x00 (R160, R164). -/
def readSent (u : State) (p : Port) (count : Nat) (tail : List Byte) (n : Nat) : List Byte :=
  ([u.statusByte p, (u.port p).lastResult.code] ++ List.replicate (count - 1) 0 ++ tail ++ List.replicate n 0).take n

/-- The state `v` with the end of an OK read's whole transaction at port `p`, judged in `u`, answering `data`. -/
def State.answered (v : State) (p : Port) (u : State) (count : Nat) (params data : List Byte) : State :=
  v.setPort p { v.port p with
    lastResult := .ok, transaction := .idle (readSent u p count (Result.ok.code :: data) (params.length + 1)) }

/-- The state `u` with the end of a refused read's whole transaction at port `p`; one whose parameters did not all come shifts out
no result. -/
def State.readRefused (u : State) (p : Port) (r : Result) (count : Nat) (params : List Byte) : State :=
  u.setPort p { u.port p with
    lastResult := r
    transaction := .idle (readSent u p count (if params.length < count then [] else [r.code]) (params.length + 1)) }

/-- The port `p` of `v` with another transaction. -/
def State.withTransaction (v : State) (p : Port) (x : Transaction) : State := v.setPort p { v.port p with transaction := x }

/-- Port `y` differs from `x` at most in the flag and the detail of the notices of one kind (R148, R149). -/
def NoticeOnly (x y : PortState) (k : NoticeKind) : Prop :=
  y = { x with notices := y.notices } ∧ (∀ j, j ≠ k → y.notice j = x.notice j) ∧ (y.notice k).enable = (x.notice k).enable

/-- Port `y` is `x` with one kind of notice set, with a detail (R149). -/
def NoticeSet (x y : PortState) (k : NoticeKind) (d : Detail) : Prop :=
  NoticeOnly x y k ∧ (y.notice k).flag = true ∧ (y.notice k).detail = d

/-- Both ports of `v` are those of `u` with one kind of notice set, with one detail. -/
def SetOnBoth (u v : State) (k : NoticeKind) (d : Detail) : Prop := ∀ q, NoticeSet (u.port q) (v.port q) k d

/-- The notices of port `y` against those of `x`, over work that can only set notices (R148, R149): the enables stay, a flag that was set stays set, and
SCHEDULE, STORE and RESET, which no work on channels, minutes or slots sets, are as they were. -/
structure NoticesRaised (x y : PortState) : Prop where
  enable : ∀ k, (y.notice k).enable = (x.notice k).enable
  flag : ∀ k, (x.notice k).flag = true → (y.notice k).flag = true
  settings : ∀ k, k = .schedule ∨ k = .store ∨ k = .reset → y.notice k = x.notice k

/-- The part's settings, its clock and its inputs, which no work on a channel's minute touches: what a command that acts on channels leaves
as it was. Of a port it can set notices and condition flags. -/
structure State.SameFrame (u v : State) : Prop where
  line0 : v.line0 = u.line0
  line1 : v.line1 = u.line1
  clock : v.clock = u.clock
  entries : v.entries = u.entries
  header : v.header = u.header
  protection : v.protection = u.protection
  slots : v.slots = u.slots
  proposalSerial : v.proposalSerial = u.proposalSerial
  commissioning : v.commissioning = u.commissioning
  prot : v.prot = u.prot
  resetN : v.resetN = u.resetN
  supply : v.supply = u.supply
  resetCause : v.resetCause = u.resetCause
  clockLossFound : v.clockLossFound = u.clockLossFound
  pending : v.pending = u.pending
  items : v.store.items = u.store.items
  writing : v.store.writing = u.store.writing
  ports : ∀ q, v.port q = { u.port q with notices := (v.port q).notices, conditions := (v.port q).conditions }
  raised : ∀ q, NoticesRaised (u.port q) (v.port q)

/-! ### What slice ends, boundaries, store queuing and resets leave -/

/-- What a slice of class `cls` makes of the minute in progress `m` of engine `e` (R32, R33, R48): it is counted, a VALID slice's sums and running
values are taken, unless 721 slices have been; its causes are taken whatever. -/
structure SliceTaken (e : Engine) (cls : SliceClass) (fs : Level) (m : MinuteAcc) : Prop where
  duration : m.duration = if 721 ≤ e.minute.duration then e.minute.duration else e.minute.duration + 1
  missing : m.missing = e.minute.missing + if e.minute.duration < 721 ∧ cls = .missing then 1 else 0
  calibration : m.calibration = e.minute.calibration + if e.minute.duration < 721 ∧ cls = .calibration then 1 else 0
  settling : m.settling = e.minute.settling + if e.minute.duration < 721 ∧ cls = .settling then 1 else 0
  excluded : m.excluded = e.minute.excluded + if e.minute.duration < 721 ∧ cls = .excluded then 1 else 0
  valid : m.valid = e.minute.valid + if e.minute.duration < 721 ∧ cls = .valid then 1 else 0
  sumA : m.sumA = e.minute.sumA + if e.minute.duration < 721 ∧ cls = .valid then e.slice.sumA else 0
  sumC : m.sumC = e.minute.sumC + if e.minute.duration < 721 ∧ cls = .valid then e.slice.sumC else 0
  greatestF : m.greatestF = if e.minute.duration < 721 ∧ cls = .valid then raiseOpt e.minute.greatestF e.slice.greatestF else e.minute.greatestF
  leastF : m.leastF = if e.minute.duration < 721 ∧ cls = .valid then lowerOpt e.minute.leastF e.slice.leastF else e.minute.leastF
  greatestS : m.greatestS = if e.minute.duration < 721 ∧ cls = .valid then raiseOpt e.minute.greatestS e.slice.greatestS else e.minute.greatestS
  overload : m.causes.overload = (e.minute.causes.overload || e.slice.causes.overload)
  saturation : m.causes.saturation = (e.minute.causes.saturation || e.slice.causes.saturation)
  frameLoss : m.causes.frameLoss = (e.minute.causes.frameLoss || e.slice.causes.frameLoss || cls == .missing)
  underrange : m.causes.underrange = (e.minute.causes.underrange || e.slice.causes.underrange || (cls != .missing &&
    ((convert fs e.slice.sumA 6000).floored || (convertRunning fs (e.slice.greatestF.getD 0)).floored || (convert fs e.slice.sumZ 6000).floored)))

/-- The levels of a minute record formed from the minute `m` with `fs` (R34). -/
structure MinuteRecord.LevelsOf (r : MinuteRecord) (m : MinuteAcc) (fs : Level) : Prop where
  void : m.valid = 0 → r.laeq = none ∧ r.lceq = none ∧ r.lafmax = none ∧ r.lafmin = none ∧ r.lasmax = none
  formed : m.valid ≠ 0 →
    r.laeq = some (convert fs m.sumA (6000 * m.valid)).level ∧ r.lceq = some (convert fs m.sumC (6000 * m.valid)).level ∧
    r.lafmax = some (convertRunning fs (m.greatestF.getD 0)).level ∧ r.lafmin = some (convertRunning fs (m.leastF.getD 0)).level ∧
    r.lasmax = some (convertRunning fs (m.greatestS.getD 0)).level

/-- The cause set of a minute record formed from the minute `m` with `fs`: the minute's, and UNDERRANGE where a conversion of its levels was
floored (R33, R34). -/
def MinuteRecord.CausesOf (r : MinuteRecord) (m : MinuteAcc) (fs : Level) : Prop :=
  r.causes.overload = m.causes.overload ∧ r.causes.saturation = m.causes.saturation ∧ r.causes.frameLoss = m.causes.frameLoss ∧
  (r.causes.underrange = true ↔ m.causes.underrange = true ∨ (m.valid ≠ 0 ∧
    ((convert fs m.sumA (6000 * m.valid)).floored = true ∨ (convert fs m.sumC (6000 * m.valid)).floored = true ∨
      (convertRunning fs (m.greatestF.getD 0)).floored = true ∨ (convertRunning fs (m.leastF.getD 0)).floored = true ∨
      (convertRunning fs (m.greatestS.getD 0)).floored = true)))

/-- An item's contents have been queued: in place of the pending contents of that item, or at the tail (R176). -/
structure Queued (a b : Store) (w : StoreWrite) : Prop where
  items : b.items = a.items
  writing : b.writing = a.writing
  replaced : (∃ x ∈ a.queue, x.item = w.item) → b.queue = a.queue.map fun x => if x.item = w.item then w else x
  joined : (∀ x ∈ a.queue, x.item ≠ w.item) → b.queue = a.queue ++ [w]

/-- Between `u` and `v` a channel has made no FS switch: what a switch changes is as it was (R124). -/
def FsKept (u v : State) (ch : Ch) : Prop :=
  (v.chan ch).fs = (u.chan ch).fs ∧ (v.chan ch).calSeq = (u.chan ch).calSeq ∧ (v.chan ch).uncalibrated = (u.chan ch).uncalibrated ∧
    (v.chan ch).pendingFs = (u.chan ch).pendingFs

/-- The CHANNEL item that an FS switch to `fs`, made between `u` and `v`, queues (R124, R125). -/
def switchItem (u v : State) (ch : Ch) (fs : Level) : StoreWrite := .channel ch ⟨fs, (u.chan ch).calSeq + 1, (v.chan ch).calRecord⟩

/-- Between `u` and `v` a channel has made the FS switch to `fs` (R124, R125): `fs` is in force, the calibration sequence has moved on, the
uncalibrated mark is clear and no switch is pending. -/
def FsSwitched (u v : State) (ch : Ch) (fs : Level) : Prop :=
  (v.chan ch).fs = fs ∧ (v.chan ch).calSeq = (u.chan ch).calSeq + 1 ∧ (v.chan ch).uncalibrated = false ∧ (v.chan ch).pendingFs = none

/-- CAL is set on both ports, with a channel and its record's run serial as detail (R124). -/
def CalSet (v : State) (ch : Ch) : Prop :=
  ∀ q, ((v.port q).notice .cal).flag = true ∧ ((v.port q).notice .cal).detail = ⟨ch, 0, (v.chan ch).calRecord.serial.setWidth 32⟩

/-- Between `u` and `v` exactly the channels that `calls` names have called for CAL, in some order: the last of them has left its detail; where none has,
the notice is as it was. -/
def CalCalled (u v : State) (calls : Ch → Prop) : Prop :=
  ((∃ ch, calls ch) → ∃ ch, calls ch ∧ CalSet v ch) ∧ ((∀ ch, ¬ calls ch) → ∀ q, (v.port q).notice .cal = (u.port q).notice .cal)

/-- Between `u` and `v` exactly the FS switches that `makes` names have been made, each queuing its CHANNEL item with the calibration record
`record` (R124, R125, R176). -/
structure SwitchesMade (u v : State) (makes : Ch → Level → Prop) (record : Ch → CalRecord) : Prop where
  switched : ∀ ch fs, makes ch fs → FsSwitched u v ch fs
  kept : ∀ ch, (∀ fs, ¬ makes ch fs) → FsKept u v ch
  queued : ∀ x, x ∈ v.store.queue ↔ (∃ ch fs, makes ch fs ∧ x = .channel ch ⟨fs, (u.chan ch).calSeq + 1, record ch⟩) ∨
    (x ∈ u.store.queue ∧ ∀ ch fs, makes ch fs → x.item ≠ 18 + ch.index)
  none : (∀ ch fs, ¬ makes ch fs) → v.store = u.store

/-! ### The close of a minute (R34, R45, R93) -/

/-- The record `r` of the minute `m` of a channel that stands as `c`, closed by the boundary `b` (R34, R35, R138). What the account unit writes in
it is in `Accounted`. -/
structure MinuteRecord.Of (r : MinuteRecord) (ch : Ch) (c : Channel) (m : MinuteAcc) (b : Boundary) : Prop where
  channel : r.ch = ch
  minute : r.minute = b.ending
  counts : r.duration = m.duration ∧ r.missing = m.missing ∧ r.calibration = m.calibration ∧ r.settling = m.settling ∧
    r.excluded = m.excluded ∧ r.valid = m.valid
  levels : r.LevelsOf m c.fs
  standing : r.fs = c.fs ∧ r.calSeq = c.calSeq ∧ r.uncalibrated = c.uncalibrated
  causes : r.CausesOf m c.fs

/-- The minute summary that a minute record shows, closed by the boundary `b` (R35, R138). -/
def MinuteRecord.summary (r : MinuteRecord) (b : Boundary) : Summary :=
  { ch := r.ch, boundary := b, duration := r.duration, missing := r.missing, calibration := r.calibration, settling := r.settling
    excluded := r.excluded, valid := r.valid, laeq := r.laeq, lceq := r.lceq, lafmax := r.lafmax, lafmin := r.lafmin, lasmax := r.lasmax
    fs := r.fs, causes := r.causes, uncalibrated := r.uncalibrated, calSeq := r.calSeq }

/-- The state `u` once the minute of a summary has been entered and, where the boundary has a next minute, the unit has looked one minute ahead
(R93, steps 1 to 3). -/
def State.turned (u : State) (x : Summary) : State :=
  match x.boundary.next with
  | none => u.enterMinute x
  | some n => (u.enterMinute x).lookAhead x.ch x.boundary.timeSet n

/-- The account unit has done its whole work (R93) on the minute of channel `ch` that the boundary `b` closes and of which `r` is the record: the minute
is entered, the unit looks one minute ahead, and the quiet condition is evaluated, as `MinutesEntered`, `PeriodsTurn` and `QuietConditionHeld` say. It
begins in a state `u` in which all that this work reads for the channel is as in `s`, the open period being `p`; what it leaves on the channel, the
minute record and the record of a period it closes are in `t`. -/
structure Accounted (s u t : State) (ch : Ch) (b : Boundary) (p : Option Period) (r : MinuteRecord) : Prop where
  settings : u.header = s.header ∧ u.entries = s.entries ∧ u.slots = s.slots ∧ u.commissioning = s.commissioning
  before : (u.chan ch).period = p ∧ (u.chan ch).day = (s.chan ch).day
  later : s.minuteSeq ≤ u.minuteSeq ∧ s.periodSeq ≤ u.periodSeq
  marked : (u.enterMinute (r.summary b)).minuteRing.getLast? = some r
  listed : r ∈ t.minuteRing ∧ r.sequence < t.minuteSeq
  period : (t.chan ch).period = ((u.turned (r.summary b)).chan ch).period
  day : (t.chan ch).day = ((u.turned (r.summary b)).chan ch).day
  quiet : (t.chan ch).quiet = (((u.turned (r.summary b)).evaluateQuiet ch).chan ch).quiet
  closed : (u.turned (r.summary b)).periodSeq ≠ u.periodSeq →
    ∃ k ∈ t.periodList, (u.turned (r.summary b)).periodList.getLast? = some k

/-- The kinds of notice that a slice end, a run and an FS switch set beside the account unit's. -/
def NoticeKind.besideAccounts (k : NoticeKind) : Prop := k = .event ∨ k = .cal ∨ k = .channel

/-- The account unit's work (R93) on the minute of a summary `x` is, between `s` and `t`, the only one: it begins in `u` with the collections, the QUIET line and the
ports as in `s`, and `t` has them as it leaves them. -/
structure AccountedAlone (s u t : State) (x : Summary) : Prop where
  collections : u.minuteRing = s.minuteRing ∧ u.minuteSeq = s.minuteSeq ∧ u.periodList = s.periodList ∧ u.periodSeq = s.periodSeq
  line : u.quietLine = s.quietLine ∧ ∀ d, d ≠ x.ch → u.chan d = s.chan d
  ports : ∀ q, u.port q = { s.port q with notices := (u.port q).notices } ∧
    ∀ k, ¬ k.besideAccounts → (u.port q).notice k = (s.port q).notice k
  minuteRing : t.minuteRing = (u.turned x).minuteRing
  periodList : t.periodList = (u.turned x).periodList
  periodSeq : t.periodSeq = (u.turned x).periodSeq
  quietLine : t.quietLine = ((u.turned x).evaluateQuiet x.ch).quietLine
  conditions : ∀ q, (t.port q).conditions = ((u.turned x).port q).conditions
  notices : ∀ q k, ¬ k.besideAccounts → (t.port q).notice k = (((u.turned x).evaluateQuiet x.ch).port q).notice k

/-- The slice that is ending on a channel completes its run: it is the 160th of CAL-MEASURE (R10, R117, R118). -/
def State.completesRun (s : State) (ch : Ch) : Prop :=
  (∃ r, (s.chan ch).state = .calibrating .calMeasure r) ∧ 159 ≤ (s.chan ch).settle ∧ s.runningOn ch = true

/-- Between `s` and `t` the minute `m` of a channel, whose open period is then `p`, has closed with the waiting close `w`, and nothing of another channel
has (R34, R45, R93, R98, R124, R129, R138): the newest minute record is its record, the account unit has done its work on it, the next minute
begins empty, and the FS switch that was pending is made where this close makes it. A switch that a run completed by the same slice asks for is
not one of them. -/
structure MinuteClosed (s t : State) (ch : Ch) (w : WaitingClose) (m : MinuteAcc) (p : Option Period) : Prop where
  waiting : (t.chan ch).waiting = none
  number : (t.chan ch).minuteNo = w.boundary.next
  empty : (t.chan ch).engine.minute = .empty
  sequence : t.minuteSeq = s.minuteSeq + 1
  record : ∃ r u, t.minuteRing.getLast? = some r ∧ r.sequence = s.minuteSeq ∧ r.Of ch (s.chan ch) m w.boundary ∧
    Accounted s u t ch w.boundary p r ∧ AccountedAlone s u t (r.summary w.boundary)
  notice : ∀ q, ((t.port q).notice .minute).flag = true ∧ ((t.port q).notice .minute).detail = ⟨ch, 0, BitVec.ofNat 32 s.minuteSeq⟩
  kept : w.makesSwitch = false → t.store = s.store ∧ (t.chan ch).fs = (s.chan ch).fs ∧ (t.chan ch).calSeq = (s.chan ch).calSeq ∧
    (t.chan ch).uncalibrated = (s.chan ch).uncalibrated ∧ (¬ s.completesRun ch → (t.chan ch).pendingFs = (s.chan ch).pendingFs)
  nonePending : w.makesSwitch = true → ¬ s.completesRun ch → (s.chan ch).pendingFs = none → t.store = s.store ∧ FsKept s t ch
  switched : ∀ fs, w.makesSwitch = true → ¬ s.completesRun ch → (s.chan ch).pendingFs = some fs →
    FsSwitched s t ch fs ∧ Queued s.store t.store (switchItem s t ch fs) ∧ CalSet t ch

/-- Between `s` and `t` the minutes of the channels for which `closes` gives a boundary have closed, one after the other in some order, each with that boundary (R34,
R46, R47, R93, R98, R129, R137, R138, R139, R153, R156): `minute` says what each minute holds. The records join the ring and the list at their newest ends, and
only the oldest leave where these are full; a record's causes set the condition flags of its channel. No other minute record, period record or
change of a condition flag or of the QUIET line comes about. -/
structure MinutesClosed (s t : State) (closes : Ch → Option Boundary) (minute : Ch → MinuteAcc → Prop) : Prop where
  each : ∀ ch b, closes ch = some b → (t.chan ch).minuteNo = b.next ∧ (t.chan ch).engine.minute = .empty ∧
    ∃ m r u, minute ch m ∧ s.minuteSeq ≤ r.sequence ∧ r.Of ch (s.chan ch) m b ∧ Accounted s u t ch b (s.chan ch).period r ∧
      ∀ q, (t.port q).conditions.get ch = ((s.port q).conditions.get ch).merge r.causes
  conditions : ∀ ch, closes ch = none → ∀ q, (t.port q).conditions.get ch = (s.port q).conditions.get ch
  written : t.minuteSeq = s.minuteSeq + (Ch.list.filter fun ch => (closes ch).isSome).length
  minutes : ∃ rs k, s.minuteSeq + rs.length = t.minuteSeq ∧ k ≤ rs.length ∧ t.minuteRing = (s.minuteRing ++ rs).drop k ∧
    (s.minuteRing.length + rs.length ≤ 2048 → k = 0)
  periods : ∃ rs k, s.periodSeq + rs.length = t.periodSeq ∧ k ≤ rs.length ∧ t.periodList = (s.periodList ++ rs).drop k ∧
    (s.periodList.length + rs.length ≤ 96 → k = 0)
  notice : (∃ ch, closes ch ≠ none) → ∃ ch, closes ch ≠ none ∧
    ∀ q, ((t.port q).notice .minute).flag = true ∧ ((t.port q).notice .minute).detail = ⟨ch, 0, BitVec.ofNat 32 (t.minuteSeq - 1)⟩
  line : (∃ ch, closes ch ≠ none) →
    (t.quietLine = true ↔ (∃ q, (s.port q).quietRequest = true) ∨ ∃ ch, (t.chan ch).quiet ≠ .none)
  moved : t.quietLine ≠ s.quietLine → ∃ ch, closes ch ≠ none ∧
    ∀ q, ((t.port q).notice .quiet).flag = true ∧ ((t.port q).notice .quiet).detail = ⟨ch, if t.quietLine then 1 else 0, 0⟩
  unclosed : (∀ ch, closes ch = none) → t.minuteRing = s.minuteRing ∧ t.periodList = s.periodList ∧ t.periodSeq = s.periodSeq ∧
    t.quietLine = s.quietLine ∧ ∀ q k, ¬ k.besideAccounts → k ≠ .dispensation → k ≠ .clock → (t.port q).notice k = (s.port q).notice k

/-- R92: a VALID slice of level `l` counted in the histogram of a period: one is added to the bin of 50 hundredths of a decibel from 2000 that
holds it, the lowest and the highest bin taking what lies outside. Nothing else of the period changes. -/
def CountedIn (l : Level) (p x : Period) : Prop :=
  x = { p with histogram := x.histogram } ∧
    ∀ b : Fin 240, x.histogram[b] = p.histogram[b] +
      if b.val = (if l < 2000 then 0 else min 239 ((l - 2000) / 50).toNat) then 1 else 0

/-- A slice of class `cls` and level `l` reaches the open period `a` of a channel, if it has one, and leaves `b` (R92). -/
def Counted (cls : SliceClass) (l : Level) (a b : Option Period) : Prop :=
  (a = none → b = none) ∧ ∀ p, a = some p → ∃ x, b = some x ∧ (cls = .valid → CountedIn l p x) ∧ (cls ≠ .valid → x = p)

/-- A slice of class `cls`, gathered in engine `e`, ends on a channel between `s` and `t` (R11, R45, R92, R93): it enters the minute, a VALID one is counted in the
open period, and the minute closes where a close waits. The sections and the running values stay as the last block end left them (R23, R27), and the
channel's settings stay; the calibration record, a pending result and the switch asked for change only where the slice completes a run (R117 to R119),
and the unit only takes in a slice of CAL-MEASURE of its run's own channel. -/
structure SliceEnded (s t : State) (ch : Ch) (e : Engine) (cls : SliceClass) : Prop where
  frame : s.SameFrame t
  others : ∀ c, c ≠ ch → t.chan c = s.chan c
  channel : t.chan ch = { s.chan ch with
    engine := { e with slice := .empty, minute := (t.chan ch).engine.minute, kept := (t.chan ch).engine.kept }
    state := (t.chan ch).state, settle := (t.chan ch).settle, openEvent := (t.chan ch).openEvent, continuation := (t.chan ch).continuation
    minuteNo := (t.chan ch).minuteNo, waiting := none, period := (t.chan ch).period, day := (t.chan ch).day, quiet := (t.chan ch).quiet
    fs := (t.chan ch).fs, calSeq := (t.chan ch).calSeq, uncalibrated := (t.chan ch).uncalibrated, pendingFs := (t.chan ch).pendingFs
    pendingResult := (t.chan ch).pendingResult, calRecord := (t.chan ch).calRecord }
  results : ¬ s.completesRun ch → (t.chan ch).pendingResult = (s.chan ch).pendingResult ∧ (t.chan ch).calRecord = (s.chan ch).calRecord
  unit : (s.runningOn ch = true → ∀ r, (s.chan ch).state ≠ .calibrating .calMeasure r) → t.calUnit = s.calUnit
  missed : cls ≠ .calibration → ¬ s.completesRun ch → t.calUnit = s.calUnit
  cal : ¬ s.completesRun ch → (∀ w, (s.chan ch).waiting = some w → w.makesSwitch = true → (s.chan ch).pendingFs = none) →
    ∀ q, (t.port q).notice .cal = (s.port q).notice .cal
  entered : (t.chan ch).state ≠ .off → ∀ q, (t.port q).notice .channel = (s.port q).notice .channel
  minute : ∃ m p, SliceTaken e cls (s.chan ch).fs m ∧ Counted cls (convert (s.chan ch).fs e.slice.sumA 6000).level (s.chan ch).period p ∧
    ((s.chan ch).waiting = none → (t.chan ch).engine.minute = m ∧ (t.chan ch).minuteNo = (s.chan ch).minuteNo ∧
      t.minuteRing = s.minuteRing ∧ t.minuteSeq = s.minuteSeq ∧ t.periodList = s.periodList ∧ t.periodSeq = s.periodSeq ∧
      t.quietLine = s.quietLine ∧ t.store = s.store ∧ (t.chan ch).fs = (s.chan ch).fs ∧ (t.chan ch).calSeq = (s.chan ch).calSeq ∧
      (t.chan ch).uncalibrated = (s.chan ch).uncalibrated ∧ (¬ s.completesRun ch → (t.chan ch).pendingFs = (s.chan ch).pendingFs) ∧
      (t.chan ch).period = p ∧ (t.chan ch).day = (s.chan ch).day ∧ (t.chan ch).quiet = (s.chan ch).quiet ∧
      ∀ q, (t.port q).conditions = (s.port q).conditions ∧ ∀ k, ¬ k.besideAccounts → (t.port q).notice k = (s.port q).notice k) ∧
    ∀ w, (s.chan ch).waiting = some w → MinuteClosed s t ch w m p

/-- The FS switch that a boundary reaching a channel makes at once (R46, R47, R124): on an OFF channel the pending one, on one with a waiting
close that which the older boundary found pending. -/
def State.switchAt (u : State) (ch : Ch) (fs : Level) : Prop :=
  (u.chan ch).pendingFs = some fs ∧
    ((u.chan ch).state = .off ∨ ∃ w, (u.chan ch).waiting = some w ∧ w.makesSwitch = true)

/-- The figures of an event of `count` slices with the A raw sum `sumA` and the peak `peak`, closed on a channel that stands as `c` (R133). -/
structure EventClose.Of (x : EventClose) (c : Channel) (count sumA : Nat) (peak : Level) : Prop where
  duration : x.duration = count
  peak : x.peak = peak
  laeq : x.laeq = (convert c.fs sumA (6000 * count)).level
  lae : x.lae = x.laeq + roundLog count 8
  impulsive : x.impulsive = c.period.map fun p => decide (p.rules.impulseThreshold ≤ x.peak - x.laeq)

/-- The open events of the channels that `closes` names have closed with a cause between `u` and `t`, in some order (R128, R131, R133, R134): in the event list
exactly their records are completed, each with its event's committed figures, and no record joins or leaves it. The last in the order taken leaves its detail
in EVENT; where none closes, the notice is as it was. -/
structure EventsClosed (u t : State) (closes : Ch → Prop) (cause : EndCause) : Prop where
  sequence : t.eventSeq = u.eventSeq
  records : List.Forall₂ (fun r x =>
    ((∀ ch e, closes ch → (u.chan ch).openEvent = some e → e.sequence ≠ r.sequence) → x = r) ∧
    ((∃ ch e, closes ch ∧ (u.chan ch).openEvent = some e ∧ e.sequence = r.sequence) →
      ∃ ch e k, closes ch ∧ (u.chan ch).openEvent = some e ∧ e.sequence = r.sequence ∧ x = { r with closed := some k } ∧
        k.cause = cause ∧ k.Of (u.chan ch) e.count e.sumA e.peak)) u.eventList t.eventList
  notice : (∃ ch e, closes ch ∧ (u.chan ch).openEvent = some e) → ∃ ch e, closes ch ∧ (u.chan ch).openEvent = some e ∧
    ∀ q, ((t.port q).notice .event).flag = true ∧ ((t.port q).notice .event).detail = ⟨ch, 2, BitVec.ofNat 32 e.sequence⟩
  none : (∀ ch, closes ch → (u.chan ch).openEvent = none) → ∀ q, (t.port q).notice .event = (u.port q).notice .event

/-- A minute boundary `b` has reached the dispensation table and the channels between `u` and `v` (R44 to R47, R77, R84, R93, R124, R129). Of the slots that
it moves, the last in the order taken leaves its detail in DISPENSATION. The calibration unit, the event list and the WX level stay. That the clause `closed` takes the slots as the boundary has moved them, for the
older minute of a waiting close too, is the model's choice (DESIGN CHOICE, unsafe: notes/assumptions/14.md). -/
structure BoundaryReached (u v : State) (b : Boundary) : Prop where
  frame : { u with slots := v.slots, clock := v.clock }.SameFrame v
  absent : b.next = none → v.slots = u.slots
  proposed : ∀ n, b.next = some n → ∀ i : Fin 8, u.slots[i].state = .proposed →
    v.slots[i] = if u.slots[i].start ≤ n then { u.slots[i] with state := .free, outcome := .lapsed } else u.slots[i]
  approved : ∀ n, b.next = some n → ∀ i : Fin 8, u.slots[i].state = .approved →
    v.slots[i] = if u.slots[i].stop ≤ n then { u.slots[i] with state := .free, outcome := .ended }
      else if u.slots[i].start ≤ n then { u.slots[i] with state := .active } else u.slots[i]
  active : ∀ n, b.next = some n → ∀ i : Fin 8, u.slots[i].state = .active →
    v.slots[i] = if u.slots[i].stop ≤ n then { u.slots[i] with state := .free, outcome := .ended }
      else if n < u.slots[i].start then { u.slots[i] with state := .approved } else u.slots[i]
  free : ∀ i : Fin 8, u.slots[i].state = .free → v.slots[i] = u.slots[i]
  movedSlot : (∃ i : Fin 8, v.slots[i] ≠ u.slots[i]) → ∃ i : Fin 8, v.slots[i] ≠ u.slots[i] ∧
    ∀ q, ((v.port q).notice .dispensation).flag = true ∧
      ((v.port q).notice .dispensation).detail = ⟨.ch0, BitVec.ofNat 8 i.val, u.slots[i].serial.setWidth 32⟩
  unmoved : (∀ i : Fin 8, v.slots[i] = u.slots[i]) → ∀ q, (v.port q).notice .dispensation = (u.port q).notice .dispensation
  running : ∀ ch, (u.chan ch).state ≠ .off → (u.chan ch).waiting = none →
    v.chan ch = { u.chan ch with waiting := some ⟨b, (u.chan ch).pendingFs.isSome⟩ }
  waited : ∀ ch w, (u.chan ch).state ≠ .off → (u.chan ch).waiting = some w →
    (v.chan ch).waiting = some ⟨b, (v.chan ch).pendingFs.isSome⟩
  off : ∀ ch, (u.chan ch).state = .off → (v.chan ch).waiting = (u.chan ch).waiting
  closed : MinutesClosed { u with slots := v.slots } v
    (fun ch => if (u.chan ch).state = .off then some b else (u.chan ch).waiting.map WaitingClose.boundary)
    (fun ch m => m = (u.chan ch).engine.minute)
  switches : SwitchesMade u v u.switchAt (fun ch => (v.chan ch).calRecord)
  cal : CalCalled u v (fun ch => ∃ fs, u.switchAt ch fs)
  untouched : v.wx = u.wx ∧ v.calUnit = u.calUnit ∧ v.eventList = u.eventList ∧ v.eventSeq = u.eventSeq ∧
    ∀ q, (v.port q).notice .event = (u.port q).notice .event ∧ (v.port q).notice .channel = (u.port q).notice .channel
  rest : ∀ ch, v.chan ch = { u.chan ch with
    engine := { (u.chan ch).engine with minute := (v.chan ch).engine.minute }, minuteNo := (v.chan ch).minuteNo
    waiting := (v.chan ch).waiting, period := (v.chan ch).period, day := (v.chan ch).day, quiet := (v.chan ch).quiet
    fs := (v.chan ch).fs, calSeq := (v.chan ch).calSeq, uncalibrated := (v.chan ch).uncalibrated, pendingFs := (v.chan ch).pendingFs }

/-- The slices of the channels that `acts` names have been cut short as MISSING between `u` and `v`, in some order (R3, R4, R11, R45, R93, R124, R131): each
slice enters its channel's minute, a waiting close of the channel is made with it, with the FS switch that this close makes, and its event
closes INTERRUPTED. The next slice begins. The channel's settings and a pending result stay. -/
structure SlicesCut (u v : State) (acts : Ch → Bool) : Prop where
  slice : ∀ ch, acts ch = true → (v.chan ch).engine.slice = .empty ∧ (v.chan ch).engine.kept = some ⟨.missing, 0⟩ ∧
    (v.chan ch).waiting = none ∧ (v.chan ch).openEvent = none ∧ (v.chan ch).continuation = false
  goesOn : ∀ ch, acts ch = true → (u.chan ch).waiting = none →
    SliceTaken (u.chan ch).engine .missing (u.chan ch).fs (v.chan ch).engine.minute ∧ (v.chan ch).minuteNo = (u.chan ch).minuteNo ∧
      (v.chan ch).period = (u.chan ch).period ∧ (v.chan ch).day = (u.chan ch).day ∧ (v.chan ch).quiet = (u.chan ch).quiet
  closed : MinutesClosed u v (fun ch => if acts ch then (u.chan ch).waiting.map WaitingClose.boundary else none)
    (fun ch m => SliceTaken (u.chan ch).engine .missing (u.chan ch).fs m)
  switches : SwitchesMade u v (fun ch fs => acts ch = true ∧ u.switchAt ch fs) (fun ch => (u.chan ch).calRecord)
  events : EventsClosed u v (fun ch => acts ch = true) .interrupted
  channel : ∀ ch, acts ch = true → v.chan ch = { u.chan ch with
    engine := { (u.chan ch).engine with
      slice := .empty, minute := (v.chan ch).engine.minute, kept := some ⟨.missing, 0⟩
      filters := (v.chan ch).engine.filters, f := (v.chan ch).engine.f, s := (v.chan ch).engine.s }
    state := (v.chan ch).state, settle := (v.chan ch).settle, openEvent := none, continuation := false
    minuteNo := (v.chan ch).minuteNo, waiting := none, period := (v.chan ch).period, day := (v.chan ch).day, quiet := (v.chan ch).quiet
    fs := (v.chan ch).fs, calSeq := (v.chan ch).calSeq, uncalibrated := (v.chan ch).uncalibrated, pendingFs := (v.chan ch).pendingFs
    calRecord := (v.chan ch).calRecord }
  outside : v.wx = u.wx ∧ ∀ q k, k = .dispensation ∨ k = .clock → (v.port q).notice k = (u.port q).notice k

/-- R66, R176: a port's item cannot be queued: it is not pending, and four port-originated items are. -/
def Store.full (a : Store) (item : Nat) : Prop := (∀ x ∈ a.queue, x.item ≠ item) ∧ 4 ≤ a.portPending

/-- R175: the item of a number is incomplete: its completion mark is clear. -/
def StoredItems.Unmarked (x : StoredItems) (n : Nat) : Prop :=
  (∃ i : Fin 16, n = i.val ∧ x.entries[i] = none) ∨ (n = 16 ∧ x.header = none) ∨ (n = 17 ∧ x.protection = none) ∨
    (∃ ch, n = 18 + ch.index ∧ x.channels.get ch = none) ∨ (n = 22 ∧ x.commissioning = none)

/-- R178: the entry that its item loads as, before entries that overlap become absent. -/
def StoredItems.entryLoaded (x : StoredItems) (i : Fin 16) : Entry := x.entries[i].getD (if i = 0 then .factory else .blank)

/-- The notices of both ports once a device reset of cause `cause` has completed between `u` and `v` (R158): RESET alone enabled; set are RESET, CLOCK
where the clock domain was found lost (R54), STORE where an item was incomplete and SCHEDULE where a loaded entry became absent (R178), and CHANNEL where
an installed channel was found FAULTED (R18). A kind not set has detail 0, one that is set that of the last of its notices; the channels are
started in any order, so the last of CHANNEL is of one of those installed. -/
structure ResetNotices (u v : State) (cause : ResetCause) (lost : Bool) : Prop where
  enables : ∀ q k, ((v.port q).notice k).enable = (k == .reset)
  flags : ∀ q k, ((v.port q).notice k).flag = true ↔
    k = .reset ∨ (k = .clock ∧ lost = true) ∨ (k = .channel ∧ ∃ ch, maskHas v.commissioning.installed ch = true) ∨
    (k = .schedule ∧ ∃ i : Fin 16, v.entries[i] ≠ u.store.items.entryLoaded i) ∨ (k = .store ∧ ∃ n, u.store.items.Unmarked n)
  unset : ∀ q k, ((v.port q).notice k).flag = false → ((v.port q).notice k).detail = ⟨.ch0, 0, 0⟩
  reset : ∀ q, ((v.port q).notice .reset).detail = ⟨.ch0, cause.code, 0⟩
  clock : lost = true → ∀ q, ((v.port q).notice .clock).detail = ⟨.ch0, 3, 0xFFFFFFFF⟩
  store : ∀ n, u.store.items.Unmarked n → (∀ m, u.store.items.Unmarked m → m ≤ n) →
    ∀ q, ((v.port q).notice .store).detail = ⟨.ch0, 2, BitVec.ofNat 32 n⟩
  schedule : ∀ i : Fin 16, v.entries[i] ≠ u.store.items.entryLoaded i → (∀ j : Fin 16, i < j → v.entries[j] = u.store.items.entryLoaded j) →
    ∀ q, ((v.port q).notice .schedule).detail = ⟨.ch0, 1, BitVec.ofNat 32 i.val⟩
  channel : (∃ ch, maskHas v.commissioning.installed ch = true) →
    ∃ ch, maskHas v.commissioning.installed ch = true ∧ ∀ q, ((v.port q).notice .channel).detail = ⟨ch, 1, 0⟩

/-- A device reset of cause `cause` has completed between `u` and `v`; `lost` says that its power-on found the clock domain lost (the reset
tables of R19, R41, R89, R113, R126, R136, R147, R158, R174, R181, the store load of R178 and the auto-start of R18). -/
structure ResetDone (u v : State) (cause : ResetCause) (lost : Bool) : Prop where
  pins : v.wx = u.wx ∧ v.prot = u.prot ∧ v.supply = true ∧ v.resetN = true ∧ v.clock = u.clock ∧ v.pending = u.pending
  lines : v.line0 = .reset ∧ v.line1 = .reset
  table : v.slots = Vector.replicate 8 .reset ∧ v.proposalSerial = 0
  lists : v.eventList = [] ∧ v.eventSeq = 0 ∧ v.minuteRing = [] ∧ v.minuteSeq = 0 ∧ v.periodList = [] ∧ v.periodSeq = 0
  quiet : v.quietLine = false
  store : v.store = ⟨u.store.items, [], none⟩
  copies : v.header = u.store.items.header.getD .factory ∧ v.protection = u.store.items.protection.getD ⟨16, .openMode⟩ ∧
    v.commissioning = u.store.items.commissioning.getD .blank
  entries : ∀ i : Fin 16, let e := u.store.items.entryLoaded i
    (v.entries[i] = e ∨ v.entries[i] = { e with present := false }) ∧ (i = 0 → v.entries[i] = e) ∧
      (v.entries[i] ≠ e → ∃ j : Fin 16, 0 < j.val ∧ j.val < i.val ∧ v.entries[j].present = true ∧ e.overlaps v.entries[j] = true)
  apart : ∀ i j : Fin 16, i ≠ 0 → j ≠ 0 → i ≠ j → v.entries[i].present = true → v.entries[j].present = true →
    v.entries[i].overlaps v.entries[j] = false
  channels : ∀ ch, v.chan ch = { Channel.reset with
    state := if maskHas v.commissioning.installed ch then .faulted else .off
    minuteNo := if u.clock.set then some u.clock.minute else none
    fs := ((u.store.items.channels.get ch).map ChannelItem.fs).getD 14000
    calSeq := ((u.store.items.channels.get ch).map ChannelItem.calSeq).getD 0
    uncalibrated := (u.store.items.channels.get ch).isNone
    calRecord := ((u.store.items.channels.get ch).map ChannelItem.record).getD .blank }
  serial : v.calUnit.run = none ∧ (∀ ch, (v.chan ch).calRecord.serial ≤ v.calUnit.serial) ∧
    (v.calUnit.serial = 0 ∨ ∃ ch, (v.chan ch).calRecord.serial = v.calUnit.serial)
  recorded : v.resetCause = cause ∧ v.clockLossFound = false
  ports : ∀ q, v.port q = ⟨(v.port q).notices, .all .none, false, 0, 0, 0, .ok, (u.port q).transaction.abandoned⟩
  notices : ResetNotices u v cause lost

/-- R109: the reason of the device quiet condition of a channel that stands as `c`, in the installed mask or not. -/
structure QuietReasonIs (installed : Bool) (c : Channel) (x : QuietReason) : Prop where
  notHeld : installed = false ∨ c.period = none → x = .none
  noWorks : ∀ p, installed = true → c.period = some p → p.rules.works = false → x = .noWorks
  spent : ∀ p d, installed = true → c.period = some p → p.rules.works = true → c.day = some d → d.allowance ≤ d.spent → x = .allowanceSpent
  budget : ∀ p, installed = true → c.period = some p → p.rules.works = true → (∀ d, c.day = some d → d.spent < d.allowance) →
    x = if p.elapsed < p.planned ∧ energyUnit p.rules.limit * p.planned ≤ p.ratedSum then .budgetExhausted else .none

/-- R22: a set of coefficients is formed from a gain, the sign of its b1 and the unrounded a1 and a2: b0, a1 and a2 rounded to the nearest multiple
of 2^−22, halfway toward positive, b1 and b2 from the rounded b0. -/
structure Coefficients.FormedFrom (k : Coefficients) (gain : ℝ) (sign : Int) (a1 a2 : ℝ) : Prop where
  b0 : k.b0 = ⌊2 ^ 22 * gain + 1 / 2⌋
  b1 : k.b1 = sign * 2 * k.b0
  b2 : k.b2 = k.b0
  a1 : k.a1 = ⌊2 ^ 22 * a1 + 1 / 2⌋
  a2 : k.a2 = ⌊2 ^ 22 * a2 + 1 / 2⌋

/-- R22: the coefficients of the five sections, C1's being A1's: the poles of the four frequencies, the gains of A1 and A2, and those of A3 and C2 that
give their cascades a response of magnitude 1 at 1 kHz, all unrounded. -/
def CoefficientsFormed : Prop :=
  let pole (f : ℝ) : ℝ := (96000 - 2 * Real.pi * f) / (96000 + 2 * Real.pi * f)
  let p1 := pole 20.598997
  let p2 := pole 107.65265
  let p3 := pole 737.86223
  let p4 := pole 12194.217
  let g1 := (1 + p1) ^ 2 / 4
  let g2 := (1 + p2) * (1 + p3) / 4
  let z : ℂ := Complex.exp (-(2 * Real.pi * 1000 / 48000) * Complex.I)
  let response (gain sign a1 a2 : ℝ) : ℝ := ‖(gain * (1 + sign * 2 * z + z ^ 2) / (1 + a1 * z + a2 * z ^ 2) : ℂ)‖
  ∃ gA gC : ℝ, 0 < gA ∧ 0 < gC ∧
    response g1 (-1) (-2 * p1) (p1 ^ 2) * response g2 (-1) (-(p2 + p3)) (p2 * p3) * response gA 1 (-2 * p4) (p4 ^ 2) = 1 ∧
    response g1 (-1) (-2 * p1) (p1 ^ 2) * response gC 1 (-2 * p4) (p4 ^ 2) = 1 ∧
    coeffsA1.FormedFrom g1 (-1) (-2 * p1) (p1 ^ 2) ∧ coeffsA2.FormedFrom g2 (-1) (-(p2 + p3)) (p2 * p3) ∧
    coeffsA3.FormedFrom gA 1 (-2 * p4) (p4 ^ 2) ∧ coeffsC2.FormedFrom gC 1 (-2 * p4) (p4 ^ 2)

/-! ### What always holds -/

/-- R134: the event list is in increasing sequence order below its counter, at most 32 records long, and its OPEN records are the open
events of their channels (R127, R129). -/
structure State.EventsOk (s : State) : Prop where
  short : s.eventList.length ≤ 32
  rising : s.eventList.Pairwise fun a b => a.sequence < b.sequence
  below : ∀ r ∈ s.eventList, r.sequence < s.eventSeq
  opened : ∀ r ∈ s.eventList, r.closed = none → ∃ e, (s.chan r.ch).openEvent = some e ∧ e.sequence = r.sequence
  listed : ∀ ch e, (s.chan ch).openEvent = some e → ∃ r ∈ s.eventList, r.ch = ch ∧ r.sequence = e.sequence ∧ r.closed = none

/-- R137, R139: the minute ring holds the newest 2048 minute records in unbroken sequence, the period list the newest 96 period
records. -/
structure State.HistoryOk (s : State) : Prop where
  minutes : s.minuteRing.map (·.sequence) = List.range' (s.minuteSeq - 2048) (min s.minuteSeq 2048)
  periods : s.periodList.map (·.sequence) = List.range' (s.periodSeq - 96) (min s.periodSeq 96)

/-- R140: no cursor exceeds the next sequence of its collection. -/
def State.CursorsOk (s : State) : Prop :=
  ∀ p, (s.port p).historyCursor ≤ s.minuteSeq ∧ (s.port p).periodCursor ≤ s.periodSeq ∧ (s.port p).eventCursor ≤ s.eventSeq

/-- R175, R177: at most one pending item of a kind in the store's queue, and at most four of them sent by a port; an item being written has its
completion mark clear, so that a write cut short loads as incomplete (R172, R178). -/
structure State.QueueOk (s : State) : Prop where
  once : (s.store.queue.map StoreWrite.item).Nodup
  few : s.store.portPending ≤ 4
  unmarked : ∀ w, s.store.writing = some w → s.store.items.Unmarked w.item

/-- What a store write may carry: entry 0 present, every present entry and every header and protection within their ranges (R55, R56,
R67), an FS within 10000 to 15000 (R28). -/
def StoreWrite.sound : StoreWrite → Prop
  | .entry i e => (i = 0 → e.present = true) ∧ (e.present = true → e.inRange = true)
  | .header h => h.inRange = true
  | .protection x => x.extent ≤ 16
  | .channel _ x => 10000 ≤ x.fs ∧ x.fs ≤ 15000
  | .commissioning _ => True

/-- The stored items carry only what a write may. -/
structure StoredItems.Sound (x : StoredItems) : Prop where
  entries : ∀ i : Fin 16, ∀ e, x.entries[i] = some e → (StoreWrite.entry i e).sound
  header : ∀ h, x.header = some h → (StoreWrite.header h).sound
  protection : ∀ p, x.protection = some p → (StoreWrite.protection p).sound
  channels : ∀ ch c, x.channels.get ch = some c → (StoreWrite.channel ch c).sound

/-- R28, R55, R56, R58, R67, R15: the settings in force and stored lie within their ranges, entry 0 is present, and no two present entries
among 1 to 15 overlap. -/
structure State.SettingsOk (s : State) : Prop where
  entries : ∀ i : Fin 16, (StoreWrite.entry i s.entries[i]).sound
  apart : ∀ i j : Fin 16, i ≠ 0 → j ≠ 0 → i ≠ j → s.entries[i].present = true → s.entries[j].present = true →
    s.entries[i].overlaps s.entries[j] = false
  header : s.header.inRange = true
  protection : s.protection.extent ≤ 16
  triggers : ∀ ch, 4000 ≤ (s.chan ch).trigger ∧ (s.chan ch).trigger ≤ 14000 ∧ 0 ≤ (s.chan ch).hysteresis ∧ (s.chan ch).hysteresis ≤ 1000
  fs : ∀ ch, 10000 ≤ (s.chan ch).fs ∧ (s.chan ch).fs ≤ 15000
  switches : ∀ ch fs, (s.chan ch).pendingFs = some fs → 10000 ≤ fs ∧ fs ≤ 15000
  results : ∀ ch r, (s.chan ch).pendingResult = some r → 10000 ≤ r.newFs ∧ r.newFs ≤ 15000
  stored : s.store.items.Sound
  queued : ∀ w ∈ s.store.queue, w.sound
  written : ∀ w, s.store.writing = some w → w.sound

/-- R78, R81: no two dispensation slots that are APPROVED or ACTIVE overlap on a shared channel. -/
def State.SlotsOk (s : State) : Prop :=
  ∀ i j : Fin 8, i ≠ j → s.slots[i].granted = true → s.slots[i].clashes s.slots[j] = false

/-- R90 to R97, R103: the counts of an open period account. -/
structure Period.Ok (p : Period) : Prop where
  planned : 1 ≤ p.planned ∧ p.planned ≤ 1440
  elapsed : p.elapsed ≤ 1440
  accounted : p.accounted ≤ p.elapsed
  impulsive : p.impulsive ≤ p.accounted
  lowFreq : p.lowFreq ≤ p.accounted
  triggers : p.triggers ≤ p.accounted
  breaches : p.breaches ≤ p.triggers

/-- R91, R96: spent never passes the allowance. Every open account keeps its counts. -/
structure State.AccountsOk (s : State) : Prop where
  periods : ∀ ch p, (s.chan ch).period = some p → p.Ok
  days : ∀ ch d, (s.chan ch).day = some d → d.spent ≤ d.allowance

/-- R44 to R47, R90, R91, R93, R99, R101, R129: while the part runs, the minutes of the channels agree with the clock's. A channel with no close
waiting is in the clock's minute; one with a close waiting is in the minute that close ends, and the clock in the one it begins: the next,
or the one a SET TIME gave it (R50). Its day account holds its minute, and an open period has gone through every minute from its opening, within that day. -/
structure State.MinutesOk (s : State) : Prop where
  off : ∀ ch, (s.chan ch).state = .off → (s.chan ch).waiting = none
  current : ∀ ch, (s.chan ch).waiting = none → (s.chan ch).minuteNo = if s.clock.set then some s.clock.minute else none
  waits : ∀ ch w, (s.chan ch).waiting = some w →
    w.boundary.ending = (s.chan ch).minuteNo ∧ w.boundary.next = (if s.clock.set then some s.clock.minute else none) ∧
      (w.boundary.timeSet = true → w.boundary.next ≠ none) ∧
      ∀ k, w.boundary.timeSet = false → w.boundary.ending = some k → w.boundary.next = some (k + 1)
  days : ∀ ch d, (s.chan ch).day = some d → ∃ k, (s.chan ch).minuteNo = some k ∧ d.start ≤ k ∧ k < d.start + 1440
  periods : ∀ ch p, (s.chan ch).period = some p → ∃ d, (s.chan ch).day = some d ∧ d.start ≤ p.opening ∧
    (s.chan ch).minuteNo = some (p.opening + p.elapsed)

/-- The channel is in CAL-SETTLE or CAL-MEASURE. -/
def ChannelState.inRun : ChannelState → Bool
  | .calibrating .calSettle _ => true
  | .calibrating .calMeasure _ => true
  | .calibrating .calRecover _ => false
  | .off => false
  | .settling => false
  | .measuring => false
  | .faulted => false

/-- R114, R116, R119, R122, R124: the calibration unit is RUNNING on a channel exactly while the channel is in CAL-SETTLE or CAL-MEASURE;
the channel's record then has outcome RUNNING and the run's serial, and neither a result nor an FS switch is pending on it. A
pending result is the one its record calls PENDING, and stands beside no pending switch. A waiting close that makes a switch finds one pending;
an OFF channel has no waiting close (R46). -/
structure State.CalibrationOk (s : State) : Prop where
  off : ∀ ch, (s.chan ch).state = .off → (s.chan ch).waiting = none
  switches : ∀ ch w, (s.chan ch).waiting = some w → w.makesSwitch = true → (s.chan ch).pendingFs ≠ none
  running : ∀ ch, s.runningOn ch = (s.chan ch).state.inRun
  record : ∀ r, s.calUnit.run = some r →
    (s.chan r.ch).calRecord.outcome = .running ∧ (s.chan r.ch).calRecord.serial = r.serial ∧ r.serial = s.calUnit.serial ∧
      (s.chan r.ch).pendingResult = none ∧ (s.chan r.ch).pendingFs = none
  result : ∀ ch r, (s.chan ch).pendingResult = some r →
    (s.chan ch).calRecord.outcome = .pending ∧ (s.chan ch).calRecord.serial = r.serial ∧ (s.chan ch).pendingFs = none

/-- R32, R33, R48: the slice counts of the minute in progress sum to its duration, which is at most 721. -/
structure MinuteAcc.Ok (m : MinuteAcc) : Prop where
  sum : m.missing + m.calibration + m.settling + m.excluded + m.valid = m.duration
  most : m.duration ≤ 721

/-- R2: the run counter of a PRESENT line stands at 4800, and no counter passes its end. -/
structure LineRx.Ok (r : LineRx) : Prop where
  present : r.present = true → r.run = 4800
  run : r.run ≤ 4800
  pause : r.pause ≤ 66

/-- R127, R130, R132: the counts of an open event: every slice of its span is committed or in the tail, which is shorter than 8; the span is
shorter than 28800. -/
structure OpenEvent.Ok (e : OpenEvent) : Prop where
  count : 1 ≤ e.count
  span : e.count + e.tailCount = e.span
  tail : e.tailCount < 8
  short : e.span < 28800

/-- R42, R43, R52, R122: the clock's prescaler, its elapsed clock time within a second, its seconds and minute length. -/
structure Clock.Ok (c : Clock) : Prop where
  prescaler : c.prescaler < 32768
  elapsed : c.elapsed < 32768
  length : 30 ≤ c.length ∧ c.length ≤ 90
  seconds : c.seconds ≤ c.length

/-- R11: the slice in progress ends with its 6000th frame and, on crystal timing, with its 4096th crystal period. The 6000th frame ends it as a step of
its own, so that it can stand; the 4096th period is counted and ends the slice in one step. -/
structure SliceAcc.Ok (x : SliceAcc) : Prop where
  frames : x.frames ≤ 6000
  crystal : x.crystal < 4096

/-- R2 to R4, R6, R11, R25, R26, R32, R42, R48, R52, R122, R130, R132: the counters and running values of the receivers, the engines, the clock, the
pending results and the open events stay within their ranges; and, by which a slice is timed, a running channel is FAULTED exactly while its
line is LOST. -/
structure State.CountersOk (s : State) : Prop where
  lines : ∀ l, (s.rx l).Ok
  faulted : ∀ ch, (s.chan ch).state ≠ .off → ((s.chan ch).state = .faulted ↔ (s.rx ch.line).present = false)
  slices : ∀ ch, (s.chan ch).engine.slice.Ok
  minutes : ∀ ch, (s.chan ch).engine.minute.Ok
  running : ∀ ch, (s.chan ch).engine.f < 2 ^ 46 ∧ (s.chan ch).engine.s < 2 ^ 46
  blocks : ∀ ch, (s.chan ch).engine.slice.blockCount ≤ 48 ∧
    (s.chan ch).engine.slice.blockSum ≤ (s.chan ch).engine.slice.blockCount * (2 ^ 46 - 1)
  clock : s.clock.Ok
  lapses : ∀ ch r, (s.chan ch).pendingResult = some r → r.lapse ≤ 600
  events : ∀ ch e, (s.chan ch).openEvent = some e → e.Ok

/-- R156: the QUIET line is high exactly while one of its six inputs asks for it. -/
def State.QuietOk (s : State) : Prop := s.quietLine = s.quietDemand

end Sys2Proof.Machine
end

