-- ==== Sys2Proof/Certificates/Slice0/Obligations.lean ====
section
/-! DEFINITION. Obligations: what the manual's rules say of the part, stated for the provers. Before a
port's command, an audio frame, a line loss, a second, a crystal-timed slice end, a store write end, a reset or a power event is taken, all that
was due is done first (the model's choice, notes/assumptions/6.md): the state `u` in which the statements judge it is the given state settled. A
command's `.whole params` is its whole transaction; `TransactionsInPieces` says what the pieces of one do (notes/assumptions/2.md). -/

open Sys2Proof Sys2Proof.Machine

/-! ### The part as a whole -/

/-- With a command or event at the front of the queue, a step is exactly its execution on the queue's rest. -/
def Obligations.StepRunsFront : Prop :=
  ∀ (s : State) (i : Instr) (rest : List Instr), s.pending = i :: rest → step s = exec i { s with pending := rest }

/-- No command or event faults or is refused by the model, and none but the step itself touches the queue. -/
def Obligations.EveryCommandAnswers : Prop :=
  ∀ (i : Instr) (s : State), ∃ t, exec i s = .next t ∧ t.pending = s.pending

/-- The model's choice (notes/assumptions/7.md): on an empty queue one crystal period passes. Where nothing was due before it, it adds one to the
prescaler (R42) and to elapsed clock time (notes/assumptions/15.md), to the pause of each line (R1, R2) and to the crystal-timed slices of the
running channels on LOST lines (R11), and changes
nothing else by itself; while the part is held or unpowered only the clock moves. What the count then brings about, a second, the
loss of a line, the end of a crystal-timed slice, is the row of the table that names it, each followed by what it makes due, in some order
(notes/assumptions/3.md); a second of elapsed clock time that ends apart from the prescaler's, as it can after a SET TIME, ticks every lapse count
(R42, R122). -/
def Obligations.CrystalPeriodCounts : Prop :=
  (∀ s : State, s.pending = [] → s.settled = true →
    let counted := s.countPeriod
    let due : CrystalStep → Prop
      | .second => 32767 ≤ s.clock.prescaler
      | .elapsed => 32767 ≤ s.clock.elapsed ∧ s.clock.prescaler < 32767
      | .pause l => s.running = true ∧ (s.rx l).pause = 65
      | .slice ch => s.running = true ∧ (s.chan ch).state ≠ .off ∧ (s.rx ch.line).present = false ∧
          4095 ≤ (s.chan ch).engine.slice.crystal
    (∃ order : List CrystalStep, order.Nodup ∧ (∀ x, x ∈ order ↔ due x) ∧ step s = .next (order.foldl State.takeCrystal
      { counted with orderUses := if order.length < 2 then s.orderUses else s.orderUses + 1 })) ∧
    counted = { s with
      clock := { s.clock with prescaler := s.clock.prescaler + 1, elapsed := s.clock.elapsed + 1 }, line0 := counted.line0, line1 := counted.line1
      channels := counted.channels } ∧
    (∀ l, counted.rx l = if s.running then { s.rx l with pause := min ((s.rx l).pause + 1) 66 } else s.rx l) ∧
    ∀ ch, counted.chan ch =
      if s.running ∧ (s.chan ch).state ≠ .off ∧ (s.rx ch.line).present = false then
        { s.chan ch with engine := { (s.chan ch).engine with slice :=
            { (s.chan ch).engine.slice with crystal := (s.chan ch).engine.slice.crystal + 1 } } }
      else s.chan ch) ∧
  ∀ v : State, v.settled = true →
    (∃ t, exec .secondTick v = .next t ∧ v.takeCrystal .second = t.settle) ∧
    (32768 ≤ v.clock.elapsed →
      ∃ t : State, t = { v with clock := { v.clock with elapsed := v.clock.elapsed - 32768 }, channels := t.channels } ∧
        (∀ ch, t.chan ch = { v.chan ch with pendingResult := (v.chan ch).pendingResult.map fun r => { r with lapse := r.lapse + 1 } }) ∧
        v.takeCrystal .elapsed = t.settle) ∧
    (∀ l, ∃ t, exec (.lineLost l) v = .next t ∧ v.takeCrystal (.pause l) = t.settle) ∧
    ∀ ch, ∃ t, exec (.crystalSliceEnd ch) v = .next t ∧ v.takeCrystal (.slice ch) = t.settle

/-- R2, R4, R11, R25, R43, R122, R177: what is due, and what doing it does. A block of 48 samples, the 6000th frame of the slice of a running channel
on a PRESENT line, a run of 4800 frames on a LOST line, a lapse count of 600, a seconds counter at the minute length, a queue with nothing being written:
each makes its step due, and where there is none of them nothing is due. To do what is due, before a command is judged, is the model's choice
(notes/assumptions/6.md): the complete blocks end, then exactly the other steps that are due are taken, each once, as the row of the table that names
it, in some order (notes/assumptions/3.md), a slice end with the WX level last presented (notes/assumptions/5.md), and then the head item's store write
begins where the store is idle. Where nothing is due this changes nothing: the state a command is judged in is then the state it finds.
And it leaves nothing due, where every running channel of a LOST line is FAULTED, as R3, R4 and R6 have it and `CountsKept` keeps it. -/
def Obligations.SettledStays : Prop :=
  ∀ s : State,
    let due (u : State) : DueStep → Prop
      | .slice ch => u.running = true ∧ (u.chan ch).state ≠ .off ∧ (u.rx ch.line).present = true ∧ 6000 ≤ (u.chan ch).engine.slice.frames
      | .restored l => u.running = true ∧ (u.rx l).present = false ∧ 4800 ≤ (u.rx l).run
      | .lapse ch => ∃ r, (u.chan ch).pendingResult = some r ∧ 600 ≤ r.lapse
      | .boundary => u.clock.length ≤ u.clock.seconds
    let row : DueStep → Instr
      | .slice ch => .frameSliceEnd ch s.wx
      | .restored l => .lineRestored l
      | .lapse ch => .calResultLapse ch
      | .boundary => .minuteBoundary
    (s.settled = true ↔ (∀ ch, (s.chan ch).engine.slice.blockCount < 48) ∧ (∀ x, ¬ due s x) ∧
      (s.store.writing = none → s.store.queue = [])) ∧
    (∃ (order : List DueStep) (b v : State), order.Nodup ∧ (∀ x, x ∈ order ↔ due s x) ∧
      RunsTo (Ch.list.map Instr.blockEnd) s b ∧
      RunsTo (order.map row) { b with orderUses := if order.length < 2 then s.orderUses else s.orderUses + 1 } v ∧
      exec .storeWriteBegin v = .next s.settle) ∧
    (s.settled = true → s.settle = s) ∧
    ((∀ ch, (s.rx ch.line).present = false → (s.chan ch).state = .off ∨ (s.chan ch).state = .faulted) → s.settle.settled = true)

/-- R159, R168, R183 and the command code table: every well-formed command of a port is read back from the bytes that send it, and every
transaction of at least one byte is read as the one well-formed command those bytes send. Parameter bytes are read least significant byte
first, levels and the trim offset signed; mask bits above channel 3 and day bits above Sunday are ignored, and any nonzero flag is on. -/
def Obligations.TransactionsDecode : Prop :=
  (∀ (i : Instr) (p : Port) (bytes : List Byte) (wx prot : Bool), i.wf = true → i.port? = some p →
    encodeTransaction i = some bytes → decodeTransaction p (i.wxOr wx) (i.protOr prot) bytes i.part = some i) ∧
  (∀ (p : Port) (bytes : List Byte) (wx prot : Bool) (part : Part), bytes ≠ [] →
    ∃ i, decodeTransaction p wx prot bytes part = some i ∧ i.wf = true ∧ i.port? = some p ∧ i.part = part ∧
      encodeTransaction i = some bytes) ∧
  ∀ (bs : List Byte) (i : Nat),
    u16At bs i = (bs.getD i 0).toNat + 256 * (bs.getD (i + 1) 0).toNat ∧
    u32At bs i = (bs.getD i 0).toNat + 256 * (bs.getD (i + 1) 0).toNat + 65536 * (bs.getD (i + 2) 0).toNat
      + 16777216 * (bs.getD (i + 3) 0).toNat ∧
    levelAt bs i = (if u16At bs i < 32768 then (u16At bs i : Int) else (u16At bs i : Int) - 65536) ∧
    s8At bs i = (if u8At bs i < 128 then (u8At bs i : Int) else (u8At bs i : Int) - 256) ∧
    (∀ ch, maskHas (maskAt bs i) ch = (bs.getD i 0).getLsbD ch.index) ∧
    (∀ d < 7, (daysAt bs i).getLsbD d = (bs.getD i 0).getLsbD d) ∧
    (flagAt bs i = true ↔ bs.getD i 0 ≠ 0)

/-! ### Transactions -/

/-- R163, R164, R166, R167: a write of the wrong length is refused FRAME, and one of the right length from the wrong port ROLE; a read whose select
rises before its last parameter byte is refused FRAME, without a snapshot. Each leaves the part as it was but for the port's last result
and decoder. -/
def Obligations.FormsRefused : Prop :=
  ∀ (i : Instr) (p : Port) (code : Byte) (params : List Byte) (count : Nat) (s : State), s.running = true →
    i.port? = some p → i.part = .whole → encodeTransaction i = some (code :: params) →
    (∀ role, i.writeForm = some (count, role) →
      (params.length ≠ count → exec i s = .next (s.settle.wrote p .frame s.settle params)) ∧
      (params.length = count → role.allows p = false → exec i s = .next (s.settle.wrote p .role s.settle params))) ∧
    (i.readForm = some count → params.length < count → exec i s = .next (s.settle.readRefused p .frame count params))

/-- R163, R164, R167: whatever a port's command or a piece of it is, if it leaves a last result other than OK it has changed nothing else than the port's last
result and decoder. -/
def Obligations.RefusedChangesNothing : Prop :=
  ∀ (i : Instr) (p : Port) (s t : State), s.running = true → i.port? = some p → exec i s = .next t →
    (t.port p).lastResult ≠ .ok →
    t = s.settle.setPort p { s.settle.port p with
      lastResult := (t.port p).lastResult, transaction := (t.port p).transaction }

/-- R159, R160, R162 to R164, R172, R173: a transaction in pieces, with anything else between them (the model's form of it, notes/assumptions/2.md). The
fall of the select fixes output bytes 0 and 1: the status byte and the last result as they stand then. Bytes clocked in add to those received,
and the one that completes a read's parameters takes what the whole read takes at that moment; the rise takes what the whole write takes. A
select that a reset has left low is ignored, with 0x00 shifted out, until it has risen and fallen again; with the select high, or for the
code of another command, a piece does nothing (the model's choice). While RESET_N holds the part neither port takes a transaction, and each shifts
out 0x00 for every byte; without the main supply it shifts out nothing (the model's choice, notes/assumptions/9.md). -/
def Obligations.TransactionsInPieces : Prop :=
  ∀ (p : Port) (wx prot : Bool) (code : Byte) (params : List Byte) (s : State),
    let command (bytes : List Byte) (part : Part) : Instr := decodeCommand p wx prot code ⟨part, bytes⟩
    let zeros (first : Bool) : List Byte := List.replicate (params.length + if first then 1 else 0) 0
    (s.running = false →
      let x := (s.port p).transaction
      let driven (l : List Byte) : List Byte := if s.supply then l else []
      exec (command params .whole) s = .next (s.withTransaction p ⟨.high, [], false, [], driven (zeros true)⟩) ∧
      exec (command params .fall) s = .next (s.withTransaction p ⟨.ignored, [], false, [], []⟩) ∧
      exec (command params .bytes) s = .next (s.withTransaction p
        (if x.select = .high then ⟨.high, [], false, [], x.sent⟩
         else ⟨.ignored, [], false, [], x.sent ++ driven (zeros x.sent.isEmpty)⟩)) ∧
      exec (command params .rise) s = .next (s.withTransaction p ⟨.high, [], false, [], x.sent⟩)) ∧
    (s.running = true →
      let u := s.settle
      let x := (u.port p).transaction
      let sends (answer : List Byte) (n : Nat) : List Byte := (answer ++ List.replicate n 0).take n
      let opening : List Byte := [u.statusByte p, (u.port p).lastResult.code]
      let goesOn := x.received = [] ∨ x.received.head? = some code
      let all := x.received ++ if x.received = [] then code :: params else params
      let only (v : State) : Prop := exec (command params .bytes) s = .next v
      let rises (v : State) : Prop := exec (command params .rise) s =
        .next (v.withTransaction p ⟨.high, [], false, [], sends x.answer x.received.length⟩)
      exec (command params .fall) s = .next (u.withTransaction p ⟨.low, [], false, opening, []⟩) ∧
      (x.select = .high ∨ (x.select = .low ∧ ¬ goesOn) →
        exec (command params .bytes) s = .next u ∧ exec (command params .rise) s = .next u) ∧
      (x.select = .ignored →
        exec (command params .bytes) s = .next (u.withTransaction p ⟨.ignored, [], false, [], x.sent ++ zeros x.sent.isEmpty⟩) ∧
        exec (command params .rise) s = .next (u.withTransaction p ⟨.high, [], false, [], x.sent⟩)) ∧
      (x.select = .low → goesOn →
        let gathers := only (u.withTransaction p ⟨.low, all, x.snapshot, x.answer, sends x.answer all.length⟩)
        (x.received = [] → rises u) ∧
        ((command params .whole).readForm = none →
          gathers ∧ (x.received ≠ [] → ∃ t, exec (command x.received.tail .whole) s = .next t ∧ rises t)) ∧
        ∀ n, (command params .whole).readForm = some n →
          (all.length ≤ n ∨ n < x.received.length → gathers) ∧
          (x.received.length ≤ n → n < all.length → ∃ tail t, exec (command all.tail .whole) s = .next t ∧
            only (t.withTransaction p ⟨.low, all, x.snapshot || (t.port p).lastResult == .ok, x.answer ++ tail,
              sends (x.answer ++ tail) all.length⟩) ∧
            ∀ more, ∃ t', exec (command (all.tail ++ more) .whole) s = .next t' ∧
              (t'.port p).transaction.sent = sends (opening ++ tail) (all.length + more.length)) ∧
          (x.received ≠ [] → x.received.length ≤ n → rises (u.setPort p { u.port p with lastResult := .frame })) ∧
          (n < x.received.length → rises u)))

/-- R140, R148, R155, R162: a command on one port that resets no part leaves the other port's enables, quiet request, cursors, last
result and decoder as they were; only notices and conditions may be set there. -/
def Obligations.OtherPortKept : Prop :=
  ∀ (i : Instr) (p : Port) (s t : State), i.port? = some p → (∀ q x, i ≠ .deviceReset q x) → exec i s = .next t →
    (∀ k, ((t.port p.other).notice k).enable = ((s.port p.other).notice k).enable) ∧
    t.port p.other = { s.port p.other with
      notices := (t.port p.other).notices, conditions := (t.port p.other).conditions }

/-- R166: whatever the site port sends, it writes no schedule entry, no header, no protection, no commissioning record and no exclusion flag,
and makes no dispensation slot APPROVED or ACTIVE that was neither. -/
def Obligations.SitePortSparesPermits : Prop :=
  ∀ (i : Instr) (s t : State), i.port? = some .site → exec i s = .next t →
    t.entries = s.entries ∧ t.header = s.header ∧ t.protection = s.protection ∧ t.commissioning = s.commissioning ∧
    (∀ ch, (t.chan ch).excluded = (s.chan ch).excluded) ∧
    ∀ j : Fin 8, t.slots[j].granted = true → s.slots[j].granted = true

/-- R161: the bits of the status byte. -/
def Obligations.StatusByteBits : Prop :=
  ∀ (s : State) (p : Port),
    ((s.statusByte p).getLsbD 0 = true ↔ s.running = true ∧ ∃ k, ((s.port p).notice k).flag = true ∧ ((s.port p).notice k).enable = true) ∧
    ((s.statusByte p).getLsbD 1 = true ↔ s.store.queue ≠ [] ∨ s.store.writing ≠ none) ∧
    ((s.statusByte p).getLsbD 2 = true ↔ 4 ≤ s.store.portPending) ∧
    ((s.statusByte p).getLsbD 3 = true ↔ s.clock.set = true) ∧
    ((s.statusByte p).getLsbD 4 = true ↔ s.calUnit.run ≠ none) ∧
    ((s.statusByte p).getLsbD 5 = true ↔ ∃ ch, (s.chan ch).state = .faulted) ∧
    ((s.statusByte p).getLsbD 6 = true ↔ s.quietLine = true) ∧
    ((s.statusByte p).getLsbD 7 = true ↔ ((s.port p).notice .reset).flag = true)

/-- R165: a NOP of any length shifts out the status byte and the last result and leaves the last result as it is; a code that names no
command, with any number of bytes after it, is refused UNKNOWN. -/
def Obligations.NopAndUnknown : Prop :=
  ∀ (p : Port) (code : Byte) (params : List Byte) (s : State), s.running = true →
    exec (.nop p (.whole params)) s = .next (s.settle.wrote p (s.settle.port p).lastResult s.settle params) ∧
    exec (.unknownCommandCode p code (.whole params)) s = .next (s.settle.wrote p .unknown s.settle params)

/-! ### Reads -/

/-- R16, R53, R73, R151, R180, R169, R164: the six reads without parameters. Each is taken whatever bytes follow its code, shows the part as it
stands at the snapshot, and leaves everything as it was but its own port's last result and decoder; READ NOTICES also clears its port's notice
flags, and READ LIVE and READ HEADER sample the pin they show. -/
def Obligations.PlainReads : Prop :=
  ∀ (p : Port) (params : List Byte) (wx prot : Bool) (s : State), s.running = true →
    let u := s.settle
    exec (.readLive p (.whole params) wx) s =
      .next ({ u with wx := wx }.answered p u 0 params (Ch.list.flatMap (State.liveBytes { u with wx := wx }))) ∧
    exec (.readClock p (.whole params)) s = .next (u.answered p u 0 params u.clockBytes) ∧
    exec (.readHeader p (.whole params) prot) s =
      .next ({ u with prot := prot }.answered p u 0 params (State.headerBytes { u with prot := prot })) ∧
    exec (.readNotices p (.whole params)) s =
      .next ((u.setPort p { u.port p with notices := (u.port p).notices.map fun n => { n with flag := false } }).answered p u 0
        params (u.noticeBytes p)) ∧
    exec (.readCommissioning p (.whole params)) s = .next (u.answered p u 0 params u.commissioning.bytes) ∧
    exec (.identify p (.whole params)) s = .next (u.answered p u 0 params identityBytes)

/-- R17, R72, R88, R111, R112: the five reads that name a channel, an entry or a slot. A number outside its numbering is refused NOT_FOUND; any
other is answered, and nothing changes but the port's last result and decoder (and the WX pin READ CHANNEL samples). -/
def Obligations.NumberedReads : Prop :=
  ∀ (p : Port) (params : List Byte) (wx : Bool) (s : State), s.running = true →
    let u := s.settle
    let n := (params.getD 0 0).toNat
    (1 ≤ params.length →
      (3 < n → exec (.readChannel p (.whole params) wx) s = .next (u.readRefused p .notFound 1 params) ∧
        exec (.readAccount p (.whole params)) s = .next (u.readRefused p .notFound 1 params)) ∧
      (∀ ch : Ch, ch.index = n →
        exec (.readChannel p (.whole params) wx) s =
          .next ({ u with wx := wx }.answered p u 1 params (State.channelBytes { u with wx := wx } ch)) ∧
        exec (.readAccount p (.whole params)) s = .next (u.answered p u 1 params (u.accountBytes ch))) ∧
      (15 < n → exec (.readEntry p (.whole params)) s = .next (u.readRefused p .notFound 1 params)) ∧
      (∀ i : Fin 16, i.val = n → exec (.readEntry p (.whole params)) s = .next (u.answered p u 1 params (u.entryBytes i))) ∧
      (7 < n → exec (.readDispensation p (.whole params)) s = .next (u.readRefused p .notFound 1 params)) ∧
      (∀ i : Fin 8, i.val = n → exec (.readDispensation p (.whole params)) s = .next (u.answered p u 1 params (u.slotBytes i)))) ∧
    (3 ≤ params.length →
      (3 < n → exec (.readHistogram p (.whole params)) s = .next (u.readRefused p .notFound 3 params)) ∧
      ∀ ch : Ch, ch.index = n →
        let first := min (params.getD 1 0).toNat 239
        let count := max 1 (min (params.getD 2 0).toNat (240 - first))
        exec (.readHistogram p (.whole params)) s = .next (u.answered p u 3 params (u.histogramBytes ch first count)))

/-- 13, Responses and Enumerations, R16, R17, R40, R53, R72, R73, R88, R111, R112, R151, R167, R169, R182: the data of a taken read have the lengths the
layouts give, and every field of READ LIVE, READ CHANNEL, READ CLOCK, READ HEADER, READ ACCOUNT, READ HISTOGRAM, READ NOTICES and IDENTIFY, with the
last fields of READ ENTRY and READ DISPENSATION, stands at its place: a level with no value as void, an absent minute number as all ones, each state,
outcome, cause, verdict, reason and result as its code number. The model's choices are that a number past its field's width goes out modulo that
width (notes/assumptions/8.md), that a level outside the span R182 states goes out as formed (a delta or a new FS of a calibration record,
notes/assumptions/16.md), that the opening and last minute numbers with no period open and the day start with no day account open are shown
absent, and that every level of an account snapshot is void while no period is open, its limit, trigger, thresholds, penalties and cap among them
(notes/assumptions/10.md). -/
def Obligations.ResponsesLaidOut : Prop :=
  ∀ s : State,
    let level (l : LevelOrVoid) : BitVec 16 := BitVec.ofInt 16 (l.getD (-32768))
    let minute (n : MinuteOrAbsent) : Nat := (n.map fun k => k % 2 ^ 32).getD 0xFFFFFFFF
    let weather (ch : Ch) : Bool := s.wx && maskHas s.commissioning.weather ch
    (∀ ch,
      let b := s.liveBytes ch
      let c := s.chan ch
      let silent := c.state = .off ∨ c.state = .faulted
      b.length = 13 ∧ byteAt b 0 = c.state.code ∧ byteAt b 1 = c.state.phaseCode ∧
      byteAt b 2 = flagByte [(s.rx ch.line).present, c.excluded, weather ch] ∧
      word16At b 3 = level (match c.engine.kept with
        | none => none
        | some k => if k.cls = .missing then none else some (convert c.fs k.sumA 6000).level) ∧
      word16At b 5 = level (if silent then none else some (convertRunning c.fs c.engine.f).level) ∧
      word16At b 7 = level (if silent then none else some (convertRunning c.fs c.engine.s).level) ∧
      word16At b 9 = level (c.engine.minute.greatestF.map fun v => (convertRunning c.fs v).level) ∧
      u16At b 11 = c.engine.minute.valid % 2 ^ 16) ∧
    (∀ ch,
      let b := s.channelBytes ch
      let c := s.chan ch
      let r := c.calRecord
      b.length = 29 ∧ u8At b 0 = ch.index ∧
      byteAt b 1 = flagByte [maskHas s.commissioning.installed ch, c.pendingFs.isSome, c.uncalibrated, c.excluded, weather ch] ∧
      word16At b 2 = level (some c.fs) ∧ word16At b 4 = level c.pendingFs ∧ word16At b 6 = c.calSeq ∧
      word16At b 8 = level (some c.trigger) ∧ word16At b 10 = level (some c.hysteresis) ∧ word16At b 12 = r.serial ∧
      byteAt b 14 = r.outcome.code ∧ word16At b 15 = level r.reference ∧ word16At b 17 = level r.meas ∧ word16At b 19 = level r.delta ∧
      u32At b 21 = minute r.minute ∧ word16At b 25 = level r.oldFs ∧ word16At b 27 = level r.newFs) ∧
    (let b := s.clockBytes
     let c := calendarOf s.clock.minute
     b.length = 14 ∧ u8At b 12 = s.clock.seconds % 256 ∧
     (s.clock.set = true → u8At b 0 = 1 ∧ u32At b 1 = minute (some s.clock.minute) ∧ u16At b 5 = c.year % 2 ^ 16 ∧ u8At b 7 = c.month % 256 ∧
       u8At b 8 = c.day % 256 ∧ u8At b 9 = c.hour % 256 ∧ u8At b 10 = c.minute % 256 ∧ u8At b 11 = (5 + s.clock.minute / 1440) % 7 ∧
       u8At b 13 = s.clock.length % 256) ∧
     (s.clock.set = false → b.take 12 = [0, 0xFF, 0xFF, 0xFF, 0xFF, 0, 0, 0, 0, 0, 0, 0] ∧ u8At b 13 = 60)) ∧
    (let b := s.headerBytes
     b.length = 10 ∧ u16At b 0 = s.header.dayStart % 2 ^ 16 ∧ u16At b 2 = s.header.allowance % 2 ^ 16 ∧
     u16At b 4 = s.header.lowMark % 2 ^ 16 ∧ u8At b 6 = s.header.coverage % 256 ∧ u8At b 7 = s.protection.extent % 256 ∧
     byteAt b 8 = s.protection.mode.code ∧ byteAt b 9 = flagByte [s.prot]) ∧
    (∀ ch,
      let b := s.accountBytes ch
      let c := s.chan ch
      let day (f : Day → Nat) : Nat := (c.day.map f).getD 0 % 2 ^ 16
      b.length = 88 ∧ u8At b 0 = ch.index ∧
      byteAt b 1 = flagByte [c.period.isSome, c.day.isSome, c.period.any fun p => p.rules.works, c.day.any fun d => d.lowGiven,
        c.quiet != .none] ∧
      u32At b 74 = minute (c.day.map Day.start) ∧ u16At b 78 = day Day.allowance ∧ u16At b 80 = day Day.spent ∧
      u16At b 82 = day Day.breaches ∧ byteAt b 86 = c.quiet.code ∧ byteAt b 87 = 0 ∧
      (c.period = none →
        (∀ i, 2 ≤ i → i < 8 → byteAt b i = 0) ∧ u32At b 8 = minute none ∧ u32At b 12 = minute none ∧
        (∀ i, 16 ≤ i → i < 46 → byteAt b i = 0) ∧ (∀ i < 14, word16At b (46 + 2 * i) = level none) ∧ word16At b 84 = level none) ∧
      ∀ p, c.period = some p →
        byteAt b 2 = (match p.source with | .entry _ => 1 | .dispensation _ _ => 2) ∧
        u8At b 3 = (match p.source with | .entry i => i.val | .dispensation i _ => i.val) ∧
        word16At b 4 = (match p.source with | .entry _ => 0 | .dispensation _ n => n) ∧
        byteAt b 6 = p.reason ∧ byteAt b 7 = (p.verdict s.header.coverage).code ∧ u32At b 8 = p.opening % 2 ^ 32 ∧ u32At b 12 = minute p.last ∧
        [u16At b 16, u16At b 18, u16At b 20, u16At b 22, u16At b 24, u16At b 26, u16At b 28] =
          [p.planned, p.elapsed, p.accounted, p.impulsive, p.lowFreq, p.triggers, p.breaches].map (· % 2 ^ 16) ∧
        u32At b 30 + 2 ^ 32 * u32At b 34 = p.ratedSum % 2 ^ 64 ∧ u32At b 38 + 2 ^ 32 * u32At b 42 = p.plainSum % 2 ^ 64 ∧
        (∀ i < 14, word16At b (46 + 2 * i) = level ([some p.rules.limit, some p.rules.trigger, some p.rules.impulseThreshold,
          some p.rules.impulsePenalty, some p.rules.lowFreqThreshold, some p.rules.lowFreqPenalty, some p.rules.cap, p.greatestLr, p.lafMax,
          reverseLevel p.ratedSum p.accounted, reverseLevel p.plainSum p.accounted, p.percentile 10, p.percentile 50,
          p.percentile 90].getD i none)) ∧
        (let budget := energyUnit p.rules.limit * p.planned
         (p.planned ≤ p.elapsed → word16At b 84 = level none) ∧
         (p.elapsed < p.planned → budget ≤ p.ratedSum → word16At b 84 = level (some (-32767))) ∧
         (p.elapsed < p.planned → p.ratedSum < budget →
           word16At b 84 = level (reverseLevel (budget - p.ratedSum) (p.planned - p.elapsed))))) ∧
    (∀ ch first count, 1 ≤ count → first + count ≤ 240 →
      let b := s.histogramBytes ch first count
      let h : Vector Nat 240 := ((s.chan ch).period.map Period.histogram).getD (Vector.replicate 240 0)
      b.length = 4 + 4 * count ∧ u32At b 0 = h.toList.sum % 2 ^ 32 ∧
      ∀ i < count, u32At b (4 + 4 * i) = h.toList.getD (first + i) 0 % 2 ^ 32) ∧
    (∀ p,
      let b := s.noticeBytes p
      let x := s.port p
      b.length = 99 ∧ (word16At b 0).getLsbD 0 = false ∧ (word16At b 2).getLsbD 0 = false ∧
      (∀ k : NoticeKind, (word16At b 0).getLsbD (k.index.val + 1) = (x.notice k).flag ∧
        (word16At b 2).getLsbD (k.index.val + 1) = (x.notice k).enable ∧
        u8At b (4 + 6 * k.index.val) = (x.notice k).detail.channel.index ∧ byteAt b (5 + 6 * k.index.val) = (x.notice k).detail.qualifier ∧
        u32At b (6 + 6 * k.index.val) = (x.notice k).detail.value.toNat) ∧
      (∀ ch : Ch, byteAt b (94 + ch.index) = (x.conditions.get ch).byte) ∧
      byteAt b 98 = flagByte [x.quietRequest, (s.port p.other).quietRequest, s.quietLine]) ∧
    (s.commissioning.bytes.length = 69 ∧
      (∀ i : Fin 16, (s.entryBytes i).length = 25 ∧ (s.entryBytes i).take 24 = s.entries[i].bytes ∧
        byteAt (s.entryBytes i) 24 = flagByte [decide (i.val < s.protection.extent)]) ∧
      ∀ i : Fin 8, (s.slotBytes i).length = 22 ∧ (s.slotBytes i).take 20 = s.slots[i].bytes i ∧ word16At (s.slotBytes i) 20 = s.proposalSerial) ∧
    (identityBytes.length = 11 ∧ u16At identityBytes 0 = 420 ∧ byteAt identityBytes 2 = 0x41 ∧
      u32At identityBytes 3 + 2 ^ 32 * u32At identityBytes 7 = Config.deviceSerial.toNat) ∧
    ([Result.ok, .unknown, .frame, .role, .notFound, .absent, .stale, .state, .locked, .protection, .clock, .range, .overlap, .full, .inUse,
      .busy].map Result.code = [0, 1, 2, 3, 4, 5, 6, 7, 8, 9, 10, 11, 12, 13, 14, 15] ∧
      [ChannelState.off, .settling, .measuring, .faulted].map ChannelState.code = [0, 1, 2, 4] ∧
      [ChannelState.off, .settling, .measuring, .faulted].map ChannelState.phaseCode = [0, 0, 0, 0] ∧
      (∀ x r, (ChannelState.calibrating x r).code = 3 ∧ (ChannelState.calibrating x r).phaseCode =
        match x with | .calSettle => 1 | .calMeasure => 2 | .calRecover => 3) ∧
      [SlotState.free, .proposed, .approved, .active].map SlotState.code = [0, 1, 2, 3] ∧
      [SlotOutcome.none, .rejected, .withdrawn, .lapsed, .ended, .revoked].map SlotOutcome.code = [0, 1, 2, 3, 4, 5] ∧
      [CalOutcome.none, .running, .aborted, .fault, .overload, .unstable, .outOfRange, .pending, .applied, .rejected, .lapsed].map
        CalOutcome.code = [0, 1, 2, 3, 4, 5, 6, 7, 8, 9, 10] ∧
      [CloseCause.timeSet, .day, .source].map CloseCause.code = [2, 3, 4] ∧
      [Verdict.void, .compliant, .incomplete, .breach].map Verdict.code = [0, 1, 2, 3] ∧
      [QuietReason.none, .noWorks, .allowanceSpent, .budgetExhausted].map QuietReason.code = [0, 1, 2, 3] ∧
      [EndCause.fell, .interrupted, .stopped, .long].map EndCause.code = [1, 2, 3, 4] ∧
      [ProtectionMode.openMode, .line, .fixed].map ProtectionMode.code = [0, 1, 2] ∧
      [ResetCause.powerOn, .line, .command].map ResetCause.code = [1, 2, 3] ∧
      ∀ c : Causes, c.byte = (if c.overload then 1 else 0) + (if c.saturation then 2 else 0) + (if c.underrange then 4 else 0) +
        (if c.frameLoss then 8 else 0))

/-- 13, R182, R183: what a read shows of a setting is what the write of that setting carries. An entry within its ranges, a commissioning
record and the fields of a dispensation slot are read back whole from the bytes that show them. -/
def Obligations.ImagesReadBack : Prop :=
  (∀ (e : Entry) (index : Byte), e.inRange = true →
    entryImage (index :: (e.bytes.drop 1).take 21) e.version = { e with present := true } ∧ word16At e.bytes 22 = e.version ∧
      (flagAt e.bytes 0 = true ↔ e.present = true)) ∧
  (∀ r : Commissioning, commissioningAt (r.bytes.take 68) = { r with locked := false } ∧ (flagAt r.bytes 68 = true ↔ r.locked = true)) ∧
  ∀ (i : Fin 8) (x : Slot), x.start < 2 ^ 32 → x.stop < 2 ^ 32 → limitInRange x.limit = true → triggerInRange x.trigger = true →
    u8At (x.bytes i) 0 = i.val ∧ byteAt (x.bytes i) 1 = x.state.code ∧ maskAt (x.bytes i) 2 = x.channels ∧
      (flagAt (x.bytes i) 3 = true ↔ x.works = true) ∧ byteAt (x.bytes i) 4 = x.reason ∧ byteAt (x.bytes i) 5 = x.outcome.code ∧
      word16At (x.bytes i) 6 = x.serial ∧ u32At (x.bytes i) 8 = x.start ∧ u32At (x.bytes i) 12 = x.stop ∧
      levelAt (x.bytes i) 16 = x.limit ∧ levelAt (x.bytes i) 18 = x.trigger

/-- 13, Minute record, Period record and Event record, R135, R182: every field of a record stands at its offset, counts taken
into their width (past it modulo it, the model's choice, notes/assumptions/8.md). That an event's LAE above 16000, outside the span R182 states, goes
out as R133 forms it is the model's choice too (notes/assumptions/16.md). -/
def Obligations.RecordsLaidOut : Prop :=
  let level (l : LevelOrVoid) : BitVec 16 := BitVec.ofInt 16 (l.getD (-32768))
  let minute (n : MinuteOrAbsent) : Nat := (n.map fun k => k % 2 ^ 32).getD 0xFFFFFFFF
  let kind (x : Option Source) : Nat := match x with | none => 0 | some (.entry _) => 1 | some (.dispensation _ _) => 2
  let index (x : Option Source) : Nat := match x with | none => 0 | some (.entry i) => i.val | some (.dispensation i _) => i.val
  let serial (x : Option Source) : Serial := match x with | some (.dispensation _ n) => n | _ => 0
  (∀ r : MinuteRecord,
    r.bytes.length = 48 ∧ u32At r.bytes 4 = minute r.minute ∧
    byteAt r.bytes 9 = flagByte [r.impulsive, r.lowFreq, r.accountable, r.allowanceSpent, r.breach, r.uncalibrated] ∧
    u8At r.bytes 11 = kind r.source ∧ u8At r.bytes 12 = index r.source ∧ byteAt r.bytes 13 = 0 ∧ word16At r.bytes 14 = serial r.source ∧
    word16At r.bytes 46 = 0 ∧
    u32At r.bytes 0 = r.sequence % 2 ^ 32 ∧ u8At r.bytes 8 = r.ch.index ∧ byteAt r.bytes 10 = r.causes.byte ∧
    u16At r.bytes 16 = r.duration % 2 ^ 16 ∧ u16At r.bytes 18 = r.missing % 2 ^ 16 ∧ u16At r.bytes 20 = r.calibration % 2 ^ 16 ∧
    u16At r.bytes 22 = r.settling % 2 ^ 16 ∧ u16At r.bytes 24 = r.excluded % 2 ^ 16 ∧ u16At r.bytes 26 = r.valid % 2 ^ 16 ∧
    word16At r.bytes 28 = level r.laeq ∧ word16At r.bytes 30 = level r.lceq ∧
    word16At r.bytes 32 = level r.lafmax ∧ word16At r.bytes 34 = level r.lafmin ∧
    word16At r.bytes 36 = level r.lasmax ∧ word16At r.bytes 38 = level (some r.penalty) ∧
    word16At r.bytes 40 = level r.lr ∧ word16At r.bytes 42 = level (some r.fs) ∧
    word16At r.bytes 44 = r.calSeq) ∧
  (∀ r : PeriodRecord,
    r.bytes.length = 50 ∧ u8At r.bytes 5 = kind (some r.source) ∧ u8At r.bytes 6 = index (some r.source) ∧
    word16At r.bytes 8 = serial (some r.source) ∧ u32At r.bytes 16 = minute r.closing ∧ word16At r.bytes 38 = level r.greatestLr ∧
    word16At r.bytes 40 = level r.lafMax ∧ word16At r.bytes 42 = level r.l10 ∧ word16At r.bytes 44 = level r.l50 ∧
    word16At r.bytes 46 = level r.l90 ∧
    u32At r.bytes 0 = r.sequence % 2 ^ 32 ∧ u8At r.bytes 4 = r.ch.index ∧ byteAt r.bytes 7 = r.reason ∧
    byteAt r.bytes 10 = r.cause.code ∧ byteAt r.bytes 11 = r.verdict.code ∧ u32At r.bytes 12 = r.opening % 2 ^ 32 ∧
    u16At r.bytes 20 = r.planned % 2 ^ 16 ∧ u16At r.bytes 22 = r.elapsed % 2 ^ 16 ∧ u16At r.bytes 24 = r.accounted % 2 ^ 16 ∧
    u16At r.bytes 26 = r.impulsive % 2 ^ 16 ∧ u16At r.bytes 28 = r.lowFreq % 2 ^ 16 ∧ u16At r.bytes 30 = r.triggers % 2 ^ 16 ∧
    u16At r.bytes 32 = r.breaches % 2 ^ 16 ∧ word16At r.bytes 34 = level r.lr ∧
    word16At r.bytes 36 = level r.laeq ∧ word16At r.bytes 48 = level (some r.limit)) ∧
  ∀ (s : State) (r : EventRecord),
    let b := s.eventBytes r
    b.length = 22 ∧ u32At b 0 = r.sequence % 2 ^ 32 ∧ u32At b 4 = minute r.startMinute ∧ u8At b 8 = r.ch.index ∧
    u16At b 12 = r.startOffset % 2 ^ 16 ∧
    (∀ x, r.closed = some x → byteAt b 9 = 1 ∧ byteAt b 10 = x.cause.code ∧
      byteAt b 11 = flagByte [r.continuation, x.impulsive.isSome, x.impulsive.getD false] ∧ u16At b 14 = x.duration % 2 ^ 16 ∧
      word16At b 16 = level (some x.peak) ∧ word16At b 18 = level (some x.laeq) ∧ word16At b 20 = level (some x.lae)) ∧
    ∀ e, r.closed = none → (s.chan r.ch).openEvent = some e →
      let laeq := (convert (s.chan r.ch).fs e.sumA (6000 * e.count)).level
      byteAt b 9 = 0 ∧ byteAt b 10 = 0 ∧ byteAt b 11 = flagByte [r.continuation] ∧ u16At b 14 = e.count % 2 ^ 16 ∧
      word16At b 16 = level (some e.peak) ∧ word16At b 18 = level (some laeq) ∧ word16At b 20 = level (some (laeq + roundLog e.count 8))

/-- R141, R142: READ HISTORY and READ PERIODS return the records of their collection from the cursor, or from the oldest where the cursor has
fallen below it, as many as the clamped count allows, after the lost count and their number; the port's cursor moves past them, and nothing
else changes. Stated of collections in unbroken sequence, as `HistoryOk` says they always are. -/
def Obligations.CollectionsRead : Prop :=
  ∀ (p : Port) (params : List Byte) (s : State), s.running = true → 1 ≤ params.length → s.settle.HistoryOk →
    let u := s.settle
    let n := max 1 (min (params.getD 0 0).toNat 8)
    (let c := (u.port p).historyCursor
     let start := max c (u.minuteSeq - 2048)
     let found := u.minuteRing.filter fun r => start ≤ r.sequence && r.sequence < start + n
     exec (.readHistory p (.whole params)) s =
       .next ((u.setPort p { u.port p with historyCursor := start + found.length }).answered p u 1 params
         (count32 (start - c) ++ [byteOf found.length] ++ found.flatMap MinuteRecord.bytes))) ∧
    (let c := (u.port p).periodCursor
     let start := max c (u.periodSeq - 96)
     let found := u.periodList.filter fun r => start ≤ r.sequence && r.sequence < start + n
     exec (.readPeriods p (.whole params)) s =
       .next ((u.setPort p { u.port p with periodCursor := start + found.length }).answered p u 1 params
         (count32 (start - c) ++ [byteOf found.length] ++ found.flatMap PeriodRecord.bytes)))

/-- R135: READ EVENTS returns the records held at or above the cursor, in sequence order, as many as the clamped count allows. The new cursor
is the first OPEN record's sequence, or one above the last record's, or unmoved where none is returned; the lost count is the number of
sequences the cursor passes that are not among the records returned. Stated of a list in increasing order, as `EventsOk` says it always is. -/
def Obligations.EventsRead : Prop :=
  ∀ (p : Port) (params : List Byte) (s : State), s.running = true → 1 ≤ params.length → s.settle.EventsOk →
    let u := s.settle
    let c := (u.port p).eventCursor
    let found := (u.eventList.filter fun r => c ≤ r.sequence).take (max 1 (min (params.getD 0 0).toNat 8))
    ∃ after lost,
      exec (.readEvents p (.whole params)) s =
        .next ((u.setPort p { u.port p with eventCursor := after }).answered p u 1 params
          (count32 lost ++ [byteOf found.length] ++ found.flatMap u.eventBytes)) ∧
      (found = [] → after = c) ∧
      (∀ r ∈ found, r.closed = none → after ≤ r.sequence) ∧
      ((∃ r ∈ found, r.closed = none) → ∃ r ∈ found, r.closed = none ∧ r.sequence = after) ∧
      (found ≠ [] → (∀ r ∈ found, r.closed ≠ none) → (∀ r ∈ found, r.sequence < after) ∧ ∃ r ∈ found, r.sequence + 1 = after) ∧
      lost = ((List.range' c (after - c)).filter fun n => found.all fun r => r.sequence != n).length

/-- R144, R145: SEEK sets the sending port's cursor of the named collection to its oldest or next sequence, or to the sequence carried brought
within the two, and changes nothing else but that port's HISTORY-LAG notice, where the move has raised the lag to 1792 or more. A
collection or a position above 2 is refused RANGE. -/
def Obligations.SeekMovesCursor : Prop :=
  ∀ (p : Port) (params : List Byte) (s : State), s.running = true → params.length = 6 →
    let u := s.settle
    let place := (params.getD 1 0).toNat
    let target (oldest next : Nat) : Nat :=
      if place = 0 then oldest else if place = 1 then next else if u32At params 2 < oldest then oldest else min (u32At params 2) next
    ((2 < (params.getD 0 0).toNat ∨ 2 < place) → exec (.seek p (.whole params)) s = .next (u.wrote p .range u params)) ∧
    ((params.getD 0 0).toNat = 1 → place ≤ 2 → exec (.seek p (.whole params)) s =
      .next ((u.setPort p { u.port p with periodCursor := target u.periodOldest u.periodSeq }).wrote p .ok u params)) ∧
    ((params.getD 0 0).toNat = 2 → place ≤ 2 → exec (.seek p (.whole params)) s =
      .next ((u.setPort p { u.port p with eventCursor := target u.eventOldest u.eventSeq }).wrote p .ok u params)) ∧
    ((params.getD 0 0).toNat = 0 → place ≤ 2 → ∃ v, exec (.seek p (.whole params)) s = .next (v.wrote p .ok u params) ∧
      v = u.setPort p (v.port p) ∧
      (let x : PortState := { u.port p with historyCursor := target u.historyOldest u.minuteSeq }
       if u.minuteSeq - (u.port p).historyCursor < 1792 ∧ 1792 ≤ u.minuteSeq - x.historyCursor then
         NoticeSet x (v.port p) .historyLag ⟨.ch0, 0, BitVec.ofNat 32 x.historyCursor⟩
       else v.port p = x))


/-! ### Channels, slices and lines -/

/-- R6: START CHANNELS is refused ABSENT where its mask names a channel that is not installed. Otherwise each OFF channel of the mask enters
SETTLING, or FAULTED with the CHANNEL notice where its line is LOST, its engine cleared; every other channel and everything else stays. -/
def Obligations.ChannelsStart : Prop :=
  ∀ (p : Port) (params : List Byte) (s : State), s.running = true → params.length = 1 →
    let u := s.settle
    let m := maskAt params 0
    let starts := fun ch : Ch => maskHas m ch = true ∧ (u.chan ch).state = .off
    ((∃ ch, maskHas m ch = true ∧ maskHas u.commissioning.installed ch = false) →
      exec (.startChannels p (.whole params)) s = .next (u.wrote p .absent u params)) ∧
    ((∀ ch, maskHas m ch = true → maskHas u.commissioning.installed ch = true) →
      ∃ v, exec (.startChannels p (.whole params)) s = .next (v.wrote p .ok u params) ∧
        v = { u with channels := v.channels, site := v.site, compliance := v.compliance, orderUses := v.orderUses } ∧
        (∀ ch, starts ch → v.chan ch = { u.chan ch with
          state := if (u.rx ch.line).present then .settling else .faulted, settle := 0
          engine := { (u.chan ch).engine with filters := .clear, f := 0, s := 0, slice := .empty } }) ∧
        (∀ ch, ¬ starts ch → v.chan ch = u.chan ch) ∧
        ((∃ ch, starts ch ∧ (u.rx ch.line).present = false) →
          ∃ ch, starts ch ∧ (u.rx ch.line).present = false ∧ SetOnBoth u v .channel ⟨ch, 1, 0⟩) ∧
        ((∀ ch, starts ch → (u.rx ch.line).present = true) → v.site = u.site ∧ v.compliance = u.compliance))

/-- R8, R46, R93, R120, R121, R124, R131, R132: STOP CHANNELS, for any mask: each running channel of the mask enters OFF, its slice discarded, its run
ABORTED, its event closed STOPPED, its continuation flag cleared and a waiting minute closed, with the account unit's work on it and the FS
switch that close makes; CHANNEL, and where it applies CAL and EVENT, are set. Every other channel stays whole, and of a channel that stops the
settings, the sections, the running values and a pending result; the unit stays where no run is in progress, and in the event list every record but
those of the closed events (R13, R15, R121, R134). -/
def Obligations.ChannelsStop : Prop :=
  ∀ (params : List Byte) (s : State), s.running = true → params.length = 1 →
    let u := s.settle
    let stops := fun ch : Ch => maskHas (maskAt params 0) ch = true ∧ (u.chan ch).state ≠ .off
    let record := fun ch : Ch => if u.runningOn ch then
      { (u.chan ch).calRecord with outcome := .aborted, minute := if u.clock.set then some u.clock.minute else none }
      else (u.chan ch).calRecord
    ∃ v, exec (.stopChannels .compliance (.whole params)) s = .next (v.wrote .compliance .ok u params) ∧ u.SameFrame v ∧ v.wx = u.wx ∧
      (∀ ch, ¬ stops ch → v.chan ch = u.chan ch) ∧
      (∀ ch, stops ch → (u.chan ch).waiting = none → v.chan ch = { u.chan ch with
        state := .off, settle := 0, openEvent := none, continuation := false
        engine := { (u.chan ch).engine with slice := .empty, kept := none }
        calRecord := record ch }) ∧
      (∀ ch w, stops ch → (u.chan ch).waiting = some w →
        v.chan ch = { u.chan ch with
          state := .off, settle := 0, openEvent := none, continuation := false, waiting := none, minuteNo := w.boundary.next
          engine := { (u.chan ch).engine with slice := .empty, kept := none, minute := .empty }
          calRecord := record ch, period := (v.chan ch).period, day := (v.chan ch).day, quiet := (v.chan ch).quiet
          fs := (v.chan ch).fs, calSeq := (v.chan ch).calSeq, uncalibrated := (v.chan ch).uncalibrated, pendingFs := (v.chan ch).pendingFs }) ∧
      MinutesClosed u v
        (fun ch => if maskHas (maskAt params 0) ch = true ∧ (u.chan ch).state ≠ .off then (u.chan ch).waiting.map WaitingClose.boundary else none)
        (fun ch m => m = (u.chan ch).engine.minute) ∧
      SwitchesMade u v (fun ch fs => stops ch ∧ u.switchAt ch fs) (fun ch => (v.chan ch).calRecord) ∧
      CalCalled u v (fun ch => stops ch ∧ (u.runningOn ch = true ∨ ∃ fs, u.switchAt ch fs)) ∧
      (u.calUnit.run = none → v.calUnit = u.calUnit) ∧
      (∀ r, u.calUnit.run = some r → (stops r.ch → v.calUnit = { u.calUnit with run := none }) ∧ (¬ stops r.ch → v.calUnit = u.calUnit)) ∧
      (∀ r, u.calUnit.run = some r → stops r.ch → ∀ q, ((v.port q).notice .cal).flag = true ∧
        ((∀ ch fs, stops ch → ¬ u.switchAt ch fs) →
          ((v.port q).notice .cal).detail = ⟨r.ch, 0, (u.chan r.ch).calRecord.serial.setWidth 32⟩)) ∧
      EventsClosed u v stops .stopped ∧
      ((∃ ch, stops ch) → ∃ ch, stops ch ∧ ∀ q, ((v.port q).notice .channel).flag = true ∧ ((v.port q).notice .channel).detail = ⟨ch, 3, 0⟩) ∧
      ((∀ ch, ¬ stops ch) → ∀ q, (v.port q).notice .channel = (u.port q).notice .channel) ∧
      ∀ q k, k = .dispensation ∨ k = .clock → (v.port q).notice k = (u.port q).notice k

/-- R13, R15, R168: EXCLUDE sets or clears the command exclusion flag, and SET EVENT TRIGGER the trigger and hysteresis, clamped, of each
channel of the mask, in any state, installed or not; both are taken OK and change nothing else. -/
def Obligations.ChannelSettings : Prop :=
  ∀ (s : State), s.running = true →
    let u := s.settle
    (∀ params : List Byte, params.length = 2 →
      ∃ v : State, exec (.exclude .compliance (.whole params)) s = .next (v.wrote .compliance .ok u params) ∧ v = { u with channels := v.channels } ∧
        ∀ ch, v.chan ch = if maskHas (maskAt params 0) ch then { u.chan ch with excluded := decide (params.getD 1 0 ≠ 0) } else u.chan ch) ∧
    ∀ (p : Port) (params : List Byte), params.length = 5 →
      ∃ v : State, exec (.setEventTrigger p (.whole params)) s = .next (v.wrote p .ok u params) ∧ v = { u with channels := v.channels } ∧
        ∀ ch, v.chan ch = if maskHas (maskAt params 0) ch then
          { u.chan ch with trigger := max 4000 (min 14000 (levelAt params 1)), hysteresis := max 0 (min 1000 (levelAt params 3)) }
          else u.chan ch

/-- R1, R2, R20 to R22, R24, R25, R27, R30: a frame taken sets the pause back. On a PRESENT line each of its channels that is not OFF uses its
sample: weighted by the sections, squared with saturation, summed, the extremes and the saturations noted. The integers that stand for the coefficients
(notes/assumptions/4.md) are the formulas of R22, each rounded to the nearest multiple of 2^−22. On a LOST line the frame only
adds to the run counter, up to 4800. A discarded frame changes nothing. -/
def Obligations.FramesTaken : Prop :=
  ∀ (l : Line) (lower upper : Sample) (s : State),
    CoefficientsFormed ∧ exec (.incompleteFrameDiscard l) s = .next s ∧
    (s.running = true →
      let u := s.settle
      let sq (y : Int) : Nat := min (y * y).toNat (2 ^ 46 - 1)
      let sum (k : Coefficients) (q : Section) (x : Int) : Int := k.b0 * x + k.b1 * q.x1 + k.b2 * q.x2 - k.a1 * q.y1 - k.a2 * q.y2
      let out (k : Coefficients) (q : Section) (x : Int) : Int := max (-2 ^ 23) (min (2 ^ 23 - 1) ((sum k q x + 2 ^ 21) / 2 ^ 22))
      let spills (k : Coefficients) (q : Section) (x : Int) : Prop :=
        (sum k q x + 2 ^ 21) / 2 ^ 22 < -2 ^ 23 ∨ 2 ^ 23 ≤ (sum k q x + 2 ^ 21) / 2 ^ 22
      ((u.rx l).present = false →
        exec (.audioFrame l lower upper) s = .next (u.setRx l ⟨false, min ((u.rx l).run + 1) 4800, 0⟩)) ∧
      ((u.rx l).present = true →
        ∃ t, exec (.audioFrame l lower upper) s = .next t ∧
          t = { (u.setRx l { u.rx l with pause := 0 }) with channels := t.channels } ∧
          (∀ ch, ch.line ≠ l ∨ (u.chan ch).state = .off → t.chan ch = u.chan ch) ∧
          ∀ ch, ch.line = l → (u.chan ch).state ≠ .off →
            let x := (if ch = .ch0 ∨ ch = .ch2 then lower else upper).toInt
            let e := (u.chan ch).engine
            let q := e.filters
            let y1 := out coeffsA1 q.a1 x
            let y2 := out coeffsA2 q.a2 y1
            let yA := out coeffsA3 q.a3 y2
            let z1 := out coeffsA1 q.c1 x
            let yC := out coeffsC2 q.c2 z1
            ∃ causes, t.chan ch = { u.chan ch with engine := { e with
                filters := ⟨⟨x, q.a1.x1, y1, q.a1.y1⟩, ⟨y1, q.a2.x1, y2, q.a2.y1⟩, ⟨y2, q.a3.x1, yA, q.a3.y1⟩, ⟨x, q.c1.x1, z1, q.c1.y1⟩,
                  ⟨z1, q.c2.x1, yC, q.c2.y1⟩⟩
                slice := { e.slice with
                  frames := e.slice.frames + 1, blockCount := e.slice.blockCount + 1, blockSum := e.slice.blockSum + sq yA
                  sumA := e.slice.sumA + sq yA, sumC := e.slice.sumC + sq yC, sumZ := e.slice.sumZ + sq x, causes := causes } } } ∧
              causes.underrange = e.slice.causes.underrange ∧ causes.frameLoss = e.slice.causes.frameLoss ∧
              (causes.overload = true ↔ e.slice.causes.overload = true ∨ x = -2 ^ 23 ∨ x = 2 ^ 23 - 1) ∧
              (causes.saturation = true ↔ e.slice.causes.saturation = true ∨ spills coeffsA1 q.a1 x ∨ spills coeffsA2 q.a2 y1 ∨
                spills coeffsA3 q.a3 y2 ∨ spills coeffsA1 q.c1 x ∨ spills coeffsC2 q.c2 z1)))

/-- R25, R26, R27: a block end forms the block mean, the sum over 48 truncated, and moves the running values toward it by the difference over
125 and over 1000, truncated toward zero, which never carries them past it. It changes nothing else. -/
def Obligations.BlocksEnd : Prop :=
  ∀ (ch : Ch) (s : State),
    let e := (s.chan ch).engine
    (e.slice.blockCount < 48 → exec (.blockEnd ch) s = .next s) ∧
    (48 ≤ e.slice.blockCount →
      ∃ f x : Nat, exec (.blockEnd ch) s = .next (s.setChan ch { s.chan ch with engine := { e with f := f, s := x, slice := { e.slice with
          blockCount := 0, blockSum := 0, greatestF := some (max (e.slice.greatestF.getD f) f)
          leastF := some (min (e.slice.leastF.getD f) f), greatestS := some (max (e.slice.greatestS.getD x) x) } } }) ∧
        (let b := e.slice.blockSum / 48
         (f : Int) = e.f + Int.tdiv ((b : Int) - e.f) 125 ∧ (x : Int) = e.s + Int.tdiv ((b : Int) - e.s) 1000 ∧
         min e.f b ≤ f ∧ f ≤ max e.f b ∧ min e.s b ≤ x ∧ x ≤ max e.s b))

/-- R11, R12, R14, R31 to R34, R45, R48, R92, R93, R124, R131: a frame-timed slice that has its 6000 frames ends: it takes its class from the channel's state, the
exclusion flag and the WX line, enters the minute and the histogram, is kept, and closes a waiting minute, with the account unit's work on it and its FS switch; the next
slice begins. A slice that is not VALID closes an open event INTERRUPTED, its record alone completed (R133). The sections, the running values and the
settings stay (R13, R15, R23, R27), the results where no run completes, and the unit takes in no slice but one of CAL-MEASURE of its run's own channel
(R117). Where no close waits, the conditions and the notices beside the event's and the run's stay. Before that nothing happens. -/
def Obligations.FrameSlicesEnd : Prop :=
  ∀ (ch : Ch) (wx : Bool) (s : State),
    (s.running = false ∨ (s.chan ch).state = .off ∨ (s.rx ch.line).present = false ∨ (s.chan ch).engine.slice.frames < 6000 →
      exec (.frameSliceEnd ch wx) s = .next s) ∧
    (s.running = true → (s.chan ch).state ≠ .off → (s.rx ch.line).present = true → 6000 ≤ (s.chan ch).engine.slice.frames →
      ∃ t cls, exec (.frameSliceEnd ch wx) s = .next t ∧ t.wx = wx ∧
        SliceEnded s t ch ((s.blockEnd ch).chan ch).engine cls ∧
        (((s.chan ch).state = .settling ∨ ∃ r, (s.chan ch).state = .calibrating .calRecover r) → cls = .settling) ∧
        ((∃ r, (s.chan ch).state = .calibrating .calSettle r ∨ (s.chan ch).state = .calibrating .calMeasure r) → cls = .calibration) ∧
        ((s.chan ch).state = .measuring →
          cls = if (s.chan ch).excluded = true ∨ (wx = true ∧ maskHas s.commissioning.weather ch = true) then .excluded else .valid) ∧
        ((t.chan ch).state ≠ .off → (t.chan ch).engine.kept = some ⟨cls, (s.chan ch).engine.slice.sumA⟩) ∧
        ((t.chan ch).state = .off → (t.chan ch).engine.kept = none) ∧
        (cls ≠ .valid → (t.chan ch).openEvent = none ∧ (t.chan ch).continuation = false ∧ EventsClosed s t (· = ch) .interrupted) ∧
        ((s.chan ch).state = .measuring → (t.chan ch).state = .measuring ∧ (t.chan ch).settle = (s.chan ch).settle))

/-- R11, R12, R31, R45, R93, R131: the crystal-timed slice of a running channel on a LOST line ends as MISSING: FRAME-LOSS enters its minute, a waiting
minute closes as at any slice end, its event closes INTERRUPTED, its record alone completed; a FAULTED channel stays FAULTED. What
FrameSlicesEnd says is kept is kept here too, the WX level as well. On a PRESENT line and on an OFF channel nothing happens. That the row, taken as a
command, stands for the slice's 4096 crystal periods having passed, whatever number of them has been counted, is the model's choice
(notes/assumptions/7.md). -/
def Obligations.CrystalSlicesEnd : Prop :=
  ∀ (ch : Ch) (s : State),
    let u := s.settle
    (s.running = false ∨ (u.chan ch).state = .off ∨ (u.rx ch.line).present = true → exec (.crystalSliceEnd ch) s = .next u) ∧
    (s.running = true → (u.chan ch).state ≠ .off → (u.rx ch.line).present = false →
      ∃ t, exec (.crystalSliceEnd ch) s = .next t ∧ SliceEnded u t ch (u.chan ch).engine .missing ∧
        t.wx = u.wx ∧ (t.chan ch).openEvent = none ∧ (t.chan ch).continuation = false ∧ EventsClosed u t (· = ch) .interrupted ∧
        ((u.chan ch).state = .faulted → (t.chan ch).state = .faulted ∧ (t.chan ch).settle = (u.chan ch).settle ∧
          (t.chan ch).engine.kept = some ⟨.missing, 0⟩ ∧ t.calUnit = u.calUnit))

/-- R2, R3, R4, R11, R23, R45, R93, R121, R124, R131: the loss of a PRESENT line cuts the slices of its running channels short as MISSING and takes
them to FAULTED, a calibration run ending FAULT with CAL; the restoration of a LOST line whose run counter stands at 4800 cuts the slices of its FAULTED
channels short and takes them to SETTLING with cleared filters. Both close a waiting minute with the cut slice, with the account unit's work
on it and the FS switch that close makes, close an open event INTERRUPTED, its record alone completed (R133), and set CHANNEL; the other line and its
channels stay, as do OFF channels, and of a cut channel the settings and a pending result (R13, R15, R121), and at a loss the filters and running values. That the row LINE_LOST forces the pause to 66, where 66 periods have not passed, and on a LOST line leaves run 0 and pause 66, is the
model's choice (notes/assumptions/7.md, notes/assumptions/13.md). -/
def Obligations.LinesLostAndRestored : Prop :=
  ∀ (l : Line) (s : State),
    (let u := s.settle
     (s.running = false → exec (.lineLost l) s = .next u) ∧
     (s.running = true → (u.rx l).present = false → exec (.lineLost l) s = .next (u.setRx l ⟨false, 0, 66⟩)) ∧
     (s.running = true → (u.rx l).present = true →
       let falls := fun ch : Ch => decide (ch.line = l ∧ (u.chan ch).state ≠ .off ∧ (u.chan ch).state ≠ .faulted)
       ∃ t, exec (.lineLost l) s = .next t ∧ (u.setRx l ⟨false, 0, 66⟩).SameFrame t ∧ t.wx = u.wx ∧
         (∀ ch, falls ch = false → t.chan ch = u.chan ch) ∧ SlicesCut u t falls ∧
         (∀ ch, falls ch = true → (t.chan ch).state = .faulted ∧ (t.chan ch).settle = 0 ∧
           (t.chan ch).engine.filters = (u.chan ch).engine.filters ∧ (t.chan ch).engine.f = (u.chan ch).engine.f ∧
           (t.chan ch).engine.s = (u.chan ch).engine.s ∧
           (t.chan ch).calRecord = if u.runningOn ch then
             { (u.chan ch).calRecord with outcome := .fault, minute := if u.clock.set then some u.clock.minute else none }
             else (u.chan ch).calRecord) ∧
         ((∀ ch, falls ch = true → u.runningOn ch = false) → t.calUnit = u.calUnit) ∧
         ((∃ ch, falls ch = true ∧ u.runningOn ch = true) → t.calUnit = { u.calUnit with run := none }) ∧
         CalCalled u t (fun ch => falls ch = true ∧ (u.runningOn ch = true ∨ ∃ fs, u.switchAt ch fs)) ∧
         (∀ ch, falls ch = true → u.runningOn ch = true → (∀ d fs, falls d = true → ¬ u.switchAt d fs) →
           ∀ q, ((t.port q).notice .cal).detail = ⟨ch, 0, (u.chan ch).calRecord.serial.setWidth 32⟩) ∧
         ((∃ ch, falls ch = true) → ∃ ch, falls ch = true ∧
           ∀ q, ((t.port q).notice .channel).flag = true ∧ ((t.port q).notice .channel).detail = ⟨ch, 1, 0⟩) ∧
         ((∀ ch, falls ch = false) → ∀ q, (t.port q).notice .channel = (u.port q).notice .channel))) ∧
    (s.running = false ∨ (s.rx l).present = true ∨ (s.rx l).run < 4800 → exec (.lineRestored l) s = .next s) ∧
    (s.running = true → (s.rx l).present = false → 4800 ≤ (s.rx l).run →
      let rises := fun ch : Ch => decide (ch.line = l ∧ (s.chan ch).state = .faulted)
      ∃ t, exec (.lineRestored l) s = .next t ∧ (s.setRx l { s.rx l with present := true, run := 4800 }).SameFrame t ∧ t.wx = s.wx ∧
        (∀ ch, rises ch = false → t.chan ch = s.chan ch) ∧ SlicesCut s t rises ∧
        (∀ ch, rises ch = true → (t.chan ch).state = .settling ∧ (t.chan ch).settle = 0 ∧ (t.chan ch).engine.filters = .clear ∧
          (t.chan ch).engine.f = 0 ∧ (t.chan ch).engine.s = 0 ∧ (t.chan ch).calRecord = (s.chan ch).calRecord) ∧
        t.calUnit = s.calUnit ∧ CalCalled s t (fun ch => rises ch = true ∧ ∃ fs, s.switchAt ch fs) ∧
        ((∃ ch, rises ch = true) → ∃ ch, rises ch = true ∧
          ∀ q, ((t.port q).notice .channel).flag = true ∧ ((t.port q).notice .channel).detail = ⟨ch, 2, 0⟩) ∧
        ((∀ ch, rises ch = false) → ∀ q, (t.port q).notice .channel = (s.port q).notice .channel))

/-- R7, R10: the slice end that is due ends the settling or the phase where it is its last (the 16th of SETTLING and of CAL-RECOVER, the 40th of
CAL-SETTLE): the next state with a count of 0, CHANNEL being set by a return to OFF. Before it the slice only counts. That a row of the table that
names a completion is that whole slice end where it brings the completion about, and does nothing otherwise, is the model's choice
(notes/assumptions/6.md). -/
def Obligations.PhasesComplete : Prop :=
  ∀ (ch : Ch) (wx : Bool) (s : State), s.running = true → (s.rx ch.line).present = true → 6000 ≤ (s.chan ch).engine.slice.frames →
    let c := s.chan ch
    (c.state = .settling →
      (15 ≤ c.settle → ∃ t, exec (.settlingComplete ch wx) s = .next t ∧ exec (.frameSliceEnd ch wx) s = .next t ∧
        (t.chan ch).state = .measuring ∧ (t.chan ch).settle = 0) ∧
      (c.settle < 15 → exec (.settlingComplete ch wx) s = .next s ∧ ∃ t, exec (.frameSliceEnd ch wx) s = .next t ∧
        (t.chan ch).state = .settling ∧ (t.chan ch).settle = c.settle + 1)) ∧
    (∀ r, c.state = .calibrating .calSettle r →
      (39 ≤ c.settle → ∃ t, exec (.calSettleComplete ch wx) s = .next t ∧ exec (.frameSliceEnd ch wx) s = .next t ∧
        (t.chan ch).state = .calibrating .calMeasure r ∧ (t.chan ch).settle = 0) ∧
      (c.settle < 39 → exec (.calSettleComplete ch wx) s = .next s ∧ ∃ t, exec (.frameSliceEnd ch wx) s = .next t ∧
        (t.chan ch).state = c.state ∧ (t.chan ch).settle = c.settle + 1)) ∧
    (∀ r, c.state = .calibrating .calRecover r →
      (15 ≤ c.settle → ∃ t, exec (.calRecoverComplete ch wx) s = .next t ∧ exec (.frameSliceEnd ch wx) s = .next t ∧
        (t.chan ch).state = (if r = .off then .off else .settling) ∧ (t.chan ch).settle = 0 ∧
        (r = .off → ∀ q, ((t.port q).notice .channel).flag = true ∧ ((t.port q).notice .channel).detail = ⟨ch, 3, 0⟩)) ∧
      (c.settle < 15 → exec (.calRecoverComplete ch wx) s = .next s ∧ ∃ t, exec (.frameSliceEnd ch wx) s = .next t ∧
        (t.chan ch).state = c.state ∧ (t.chan ch).settle = c.settle + 1))

/-! ### Calibration -/

/-- R10, R93, R117, R118, R119: the 160th slice of CAL-MEASURE, the last the run takes in, ends the run: L_meas, delta and the new FS are formed, the
first outcome that applies is recorded, CAL is set, and a PENDING result or an FS switch is left on the channel, after which a waiting minute
closes, with the account unit's work on it. Earlier slices only count and are taken in. A waiting close makes no switch on a channel with a run: a switch would be pending
(CalibrationOk). That CAL_MEASURE_COMPLETE is that whole slice end, and does nothing before it, is the model's choice
(notes/assumptions/6.md). -/
def Obligations.RunsComplete : Prop :=
  ∀ (ch : Ch) (wx : Bool) (r : ReturnState) (x : CalRun) (reference : Level) (s : State), s.running = true →
    (s.rx ch.line).present = true → 6000 ≤ (s.chan ch).engine.slice.frames → (s.chan ch).state = .calibrating .calMeasure r →
    s.calUnit.run = some x → x.ch = ch → (s.chan ch).calRecord.reference = some reference →
    (∀ w, (s.chan ch).waiting = some w → w.makesSwitch = false) →
    let c := s.chan ch
    let lz := (convert c.fs c.engine.slice.sumZ 6000).level
    let zSum := x.zSum + c.engine.slice.sumZ
    let top := max (x.greatestLZ.getD lz) lz
    let bottom := min (x.leastLZ.getD lz) lz
    let loud : Bool := x.overload || c.engine.slice.causes.overload
    (c.settle < 159 → exec (.calMeasureComplete ch wx) s = .next s ∧ ∃ t, exec (.frameSliceEnd ch wx) s = .next t ∧
      (t.chan ch).state = c.state ∧ (t.chan ch).settle = c.settle + 1 ∧
      t.calUnit = { s.calUnit with run := some ⟨ch, x.serial, zSum, x.count + 1, some top, some bottom, loud⟩ }) ∧
    (159 ≤ c.settle →
      let meas := (convert c.fs zSum 960000).level
      let delta := reference - meas
      let outcome : CalOutcome :=
        if loud then .overload else if 30 < top - bottom then .unstable
        else if delta < -300 ∨ 300 < delta ∨ c.fs + delta < 10000 ∨ 15000 < c.fs + delta then .outOfRange
        else if -50 ≤ delta ∧ delta ≤ 50 then .applied else .pending
      ∃ t, exec (.calMeasureComplete ch wx) s = .next t ∧ exec (.frameSliceEnd ch wx) s = .next t ∧
        (t.chan ch).state = .calibrating .calRecover r ∧ (t.chan ch).settle = 0 ∧ t.calUnit = { s.calUnit with run := none } ∧
        (t.chan ch).calRecord = { c.calRecord with outcome := outcome, meas := some meas, delta := some delta
                                                   minute := if s.clock.set then some s.clock.minute else none, newFs := some (c.fs + delta) } ∧
        (t.chan ch).pendingResult = (if outcome = .pending then some ⟨c.calRecord.serial, c.fs + delta, 0⟩ else c.pendingResult) ∧
        (t.chan ch).pendingFs = (if outcome = .applied then some (c.fs + delta) else c.pendingFs) ∧ (t.chan ch).fs = c.fs ∧
        (∀ w, c.waiting = some w → ∃ m, SliceTaken ((s.blockEnd ch).chan ch).engine .calibration c.fs m ∧ MinuteClosed s t ch w m c.period) ∧
        ∀ q, ((t.port q).notice .cal).flag = true ∧ ((t.port q).notice .cal).detail = ⟨ch, 0, x.serial.setWidth 32⟩)

/-- R9, R116: CALIBRATE's checks in their order, and the run it starts: the serial moves on, the unit becomes RUNNING, the channel enters
CAL-SETTLE with its return state, its record is a new run's, and a pending result is superseded with CAL. -/
def Obligations.CalibrateStartsRun : Prop :=
  ∀ (p : Port) (params : List Byte) (s : State), s.running = true → params.length = 3 →
    let u := s.settle
    let reference := levelAt params 1
    (3 < (params.getD 0 0).toNat → exec (.calibrate p (.whole params)) s = .next (u.wrote p .notFound u params)) ∧
    ∀ ch : Ch, ch.index = (params.getD 0 0).toNat →
      let c := u.chan ch
      let barred := c.state = .faulted ∨ (∃ x r, c.state = .calibrating x r) ∨ (c.state = .off ∧ (u.rx ch.line).present = false) ∨ c.pendingFs ≠ none
      (maskHas u.commissioning.installed ch = false → exec (.calibrate p (.whole params)) s = .next (u.wrote p .absent u params)) ∧
      (maskHas u.commissioning.installed ch = true →
        (barred → exec (.calibrate p (.whole params)) s = .next (u.wrote p .state u params)) ∧
        (¬ barred → (reference < 8000 ∨ 13000 < reference) → exec (.calibrate p (.whole params)) s = .next (u.wrote p .range u params)) ∧
        (¬ barred → 8000 ≤ reference → reference ≤ 13000 → u.calUnit.run ≠ none →
          exec (.calibrate p (.whole params)) s = .next (u.wrote p .inUse u params)) ∧
        (¬ barred → 8000 ≤ reference → reference ≤ 13000 → u.calUnit.run = none →
          ∃ v, exec (.calibrate p (.whole params)) s = .next (v.wrote p .ok u params) ∧
            v = { u with channels := v.channels, calUnit := v.calUnit, site := v.site, compliance := v.compliance } ∧
            v.calUnit = ⟨some ⟨ch, u.calUnit.serial + 1, 0, 0, none, none, false⟩, u.calUnit.serial + 1⟩ ∧
            (∀ d, d ≠ ch → v.chan d = u.chan d) ∧
            v.chan ch = { c with
              state := .calibrating .calSettle (if c.state = .off then .off else .settling), settle := 0, pendingResult := none
              calRecord := ⟨u.calUnit.serial + 1, .running, some reference, none, none,
                if u.clock.set then some u.clock.minute else none, some c.fs, none⟩
              engine := if c.state = .off then { c.engine with filters := .clear, f := 0, s := 0, slice := .empty } else c.engine } ∧
            (c.pendingResult = none → v.site = u.site ∧ v.compliance = u.compliance) ∧
            ∀ r, c.pendingResult = some r → SetOnBoth u v .cal ⟨ch, 0, r.serial.setWidth 32⟩))

/-- R10, R120: ABORT CALIBRATION is refused NOT_FOUND or STATE, or ends the run ABORTED: the channel goes to CAL-RECOVER with its count at 0, its
slice goes on, and CAL is set. -/
def Obligations.RunsAborted : Prop :=
  ∀ (p : Port) (params : List Byte) (s : State), s.running = true → params.length = 1 →
    let u := s.settle
    (3 < (params.getD 0 0).toNat → exec (.abortCalibration p (.whole params)) s = .next (u.wrote p .notFound u params)) ∧
    ∀ ch : Ch, ch.index = (params.getD 0 0).toNat →
      ((∀ r, u.calUnit.run = some r → r.ch ≠ ch) → exec (.abortCalibration p (.whole params)) s = .next (u.wrote p .state u params)) ∧
      ∀ r x back, u.calUnit.run = some r → r.ch = ch → (u.chan ch).state = .calibrating x back →
        ∃ v, exec (.abortCalibration p (.whole params)) s = .next (v.wrote p .ok u params) ∧
          v = { u with channels := v.channels, calUnit := { u.calUnit with run := none }, site := v.site, compliance := v.compliance } ∧
          (∀ d, d ≠ ch → v.chan d = u.chan d) ∧
          v.chan ch = { u.chan ch with
            state := .calibrating .calRecover back, settle := 0
            calRecord := { (u.chan ch).calRecord with outcome := .aborted, minute := if u.clock.set then some u.clock.minute else none } } ∧
          SetOnBoth u v .cal ⟨ch, 0, (u.chan ch).calRecord.serial.setWidth 32⟩

/-- R123: ACCEPT and REJECT CALIBRATION: the channel, the serial and the pending result are checked in that order; a decision drops the result,
records it APPLIED or REJECTED and sets CAL, an acceptance asking for the switch to the result's new FS. -/
def Obligations.ResultsDecided : Prop :=
  ∀ (params : List Byte) (s : State), s.running = true → params.length = 3 →
    let u := s.settle
    (3 < (params.getD 0 0).toNat →
      exec (.acceptCalibration .compliance (.whole params)) s = .next (u.wrote .compliance .notFound u params) ∧
      exec (.rejectCalibration .compliance (.whole params)) s = .next (u.wrote .compliance .notFound u params)) ∧
    ∀ ch : Ch, ch.index = (params.getD 0 0).toNat →
      let c := u.chan ch
      (c.calRecord.serial ≠ word16At params 1 →
        exec (.acceptCalibration .compliance (.whole params)) s = .next (u.wrote .compliance .stale u params) ∧
        exec (.rejectCalibration .compliance (.whole params)) s = .next (u.wrote .compliance .stale u params)) ∧
      (c.calRecord.serial = word16At params 1 → c.pendingResult = none →
        exec (.acceptCalibration .compliance (.whole params)) s = .next (u.wrote .compliance .state u params) ∧
        exec (.rejectCalibration .compliance (.whole params)) s = .next (u.wrote .compliance .state u params)) ∧
      ∀ r, c.calRecord.serial = word16At params 1 → c.pendingResult = some r →
        let decided (o : CalOutcome) (fs : Option Level) (v : State) : Prop :=
          v = { u with channels := v.channels, site := v.site, compliance := v.compliance } ∧ (∀ d, d ≠ ch → v.chan d = u.chan d) ∧
          v.chan ch = { c with
            pendingResult := none, pendingFs := fs
            calRecord := { c.calRecord with outcome := o, minute := if u.clock.set then some u.clock.minute else none } } ∧
          SetOnBoth u v .cal ⟨ch, 0, c.calRecord.serial.setWidth 32⟩
        (∃ v, exec (.acceptCalibration .compliance (.whole params)) s = .next (v.wrote .compliance .ok u params) ∧ decided .applied (some r.newFs) v) ∧
        ∃ v, exec (.rejectCalibration .compliance (.whole params)) s = .next (v.wrote .compliance .ok u params) ∧ decided .rejected c.pendingFs v

/-- R42, R44, R50, R122: a wrap of the prescaler counts a second on the seconds counter, and moves elapsed clock time by the crystal periods that were
left of it, which ticks every pending result's lapse count where they complete a second of it: always, while the two are in step
(notes/assumptions/15.md); the model forces the wrap where the row is commanded (notes/assumptions/7.md). No command or event but this
one and a power-on moves elapsed clock time or a lapse count: neither SET TIME nor TRIM CLOCK does. A pending result whose count has
reached 600 lapses with CAL; before that it does not. -/
def Obligations.SecondsAndLapses : Prop :=
  ∀ s : State,
    (let u := s.settle
     let passed := u.clock.elapsed + (32768 - u.clock.prescaler)
     ∃ t, exec .secondTick s = .next t ∧
       t = { u with
         clock := { u.clock with
           prescaler := 0, seconds := u.clock.seconds + 1, elapsed := if 32768 ≤ passed then passed - 32768 else passed }
         channels := t.channels } ∧
       (∀ ch, t.chan ch = if 32768 ≤ passed then
         { u.chan ch with pendingResult := (u.chan ch).pendingResult.map fun r => { r with lapse := r.lapse + 1 } } else u.chan ch) ∧
       (u.clock.elapsed = u.clock.prescaler → u.clock.prescaler < 32768 → 32768 ≤ passed ∧ t.clock.elapsed = 0)) ∧
    (∀ i t, i ≠ .secondTick → (∀ lost, i ≠ .powerOn lost) → exec i s = .next t → t.clock.elapsed = s.clock.elapsed ∧
      ∀ ch r, (t.chan ch).pendingResult = some r → (s.chan ch).pendingResult = some r ∨ r.lapse = 0) ∧
    ∀ ch,
      ((∀ r, (s.chan ch).pendingResult = some r → r.lapse < 600) → exec (.calResultLapse ch) s = .next s) ∧
      ∀ r, (s.chan ch).pendingResult = some r → 600 ≤ r.lapse →
        ∃ t, exec (.calResultLapse ch) s = .next t ∧ t = { s with channels := t.channels, site := t.site, compliance := t.compliance } ∧
          (∀ d, d ≠ ch → t.chan d = s.chan d) ∧
          t.chan ch = { s.chan ch with
            pendingResult := none
            calRecord := { (s.chan ch).calRecord with outcome := .lapsed, minute := if s.clock.set then some s.clock.minute else none } } ∧
          SetOnBoth s t .cal ⟨ch, 0, (s.chan ch).calRecord.serial.setWidth 32⟩

/-! ### Events -/

/-- R127, R129, R130, R132, R133, R134: how a VALID frame-timed slice moves a channel's event. With none open it opens one where its LAFmax is at or above
the trigger, its record joining the list at its end after the oldest CLOSED one has left a list of 32; with one open the eighth slice below the
release level closes it FELL, and the 28800th slice closes it LONG, which sets the continuation flag. Every other such slice clears that flag. That a row of the table that names one of these closes takes that whole slice end, and does nothing where it does not close the event
so, is the model's choice (notes/assumptions/6.md). A slice of another class is in `FrameSlicesEnd` and `CrystalSlicesEnd`. -/
def Obligations.EventsOpenAndClose : Prop :=
  ∀ (ch : Ch) (wx : Bool) (l : Level) (s : State), s.running = true → (s.rx ch.line).present = true →
    6000 ≤ (s.chan ch).engine.slice.frames → (s.chan ch).state = .measuring → (s.nextResult ch wx).cls = .valid →
    (s.nextResult ch wx).lafmax = some l →
    let c := s.chan ch
    let sumA := c.engine.slice.sumA
    ∃ t, exec (.frameSliceEnd ch wx) s = .next t ∧
      (c.openEvent = none → l < c.trigger → (t.chan ch).openEvent = none ∧ (t.chan ch).continuation = false ∧ t.eventList = s.eventList ∧
        t.eventSeq = s.eventSeq ∧ ∀ q, (t.port q).notice .event = (s.port q).notice .event) ∧
      (c.openEvent = none → c.trigger ≤ l →
        (t.chan ch).openEvent = some ⟨s.eventSeq, 1, sumA, l, 0, 0, 1⟩ ∧ (t.chan ch).continuation = false ∧ t.eventSeq = s.eventSeq + 1 ∧
        (let opened : EventRecord := ⟨s.eventSeq, ch, c.minuteNo, c.engine.minute.duration, c.continuation, none⟩
         (s.eventList.length < 32 ∨ (∀ r ∈ s.eventList, r.closed = none) → t.eventList = s.eventList ++ [opened]) ∧
         ∀ older r newer, 32 ≤ s.eventList.length → s.eventList = older ++ r :: newer → (∀ x ∈ older, x.closed = none) → r.closed ≠ none →
           t.eventList = older ++ newer ++ [opened]) ∧
        ∀ q, ((t.port q).notice .event).flag = true ∧ ((t.port q).notice .event).detail = ⟨ch, 1, BitVec.ofNat 32 s.eventSeq⟩) ∧
      ∀ e, c.openEvent = some e →
        let up := c.trigger - c.hysteresis ≤ l
        let count := if up then e.count + e.tailCount + 1 else e.count
        let total := if up then e.sumA + e.tailSum + sumA else e.sumA
        let peak := if up then max e.peak l else e.peak
        let tail := if up then 0 else e.tailCount + 1
        let closes (o : EndCause) : Prop :=
          (t.chan ch).openEvent = none ∧ (t.chan ch).continuation = (o == .long) ∧
          t.eventSeq = s.eventSeq ∧ (∃ x : EventClose, x.Of c count total peak ∧ x.cause = o ∧
            t.eventList = s.eventList.map fun r => if r.sequence = e.sequence then { r with closed := some x } else r) ∧
          ∀ q, ((t.port q).notice .event).flag = true ∧ ((t.port q).notice .event).detail = ⟨ch, 2, BitVec.ofNat 32 e.sequence⟩
        (tail = 8 → closes .fell ∧ exec (.eventCloseFell ch wx) s = .next t ∧ exec (.eventCloseLong ch wx) s = .next s) ∧
        (tail ≠ 8 → e.span = 28799 → closes .long ∧ exec (.eventCloseLong ch wx) s = .next t ∧ exec (.eventCloseFell ch wx) s = .next s) ∧
        (tail ≠ 8 → e.span ≠ 28799 → (t.chan ch).openEvent =
            some ⟨e.sequence, count, total, peak, tail, if up then 0 else e.tailSum + sumA, e.span + 1⟩ ∧
          (t.chan ch).continuation = false ∧ t.eventList = s.eventList ∧ t.eventSeq = s.eventSeq ∧
          (∀ q, (t.port q).notice .event = (s.port q).notice .event) ∧
          exec (.eventCloseFell ch wx) s = .next s ∧ exec (.eventCloseLong ch wx) s = .next s)

/-! ### The clock -/

/-- R49: the Gregorian calendar from 2000-01-01 00:00: its month lengths; a valid calendar time comes back from its minute number, every minute number is that of its
calendar time, whose fields are in range, and a day later is the next date at the same time. -/
def Obligations.CalendarInverse : Prop :=
  (∀ (c : Calendar) (second : Nat), c.valid second = true → calendarOf c.minuteNumber = c) ∧
  calendarOf 0 = ⟨2000, 1, 1, 0, 0⟩ ∧
  (∀ y, monthLength y 2 = if y % 4 = 0 ∧ (y % 100 ≠ 0 ∨ y % 400 = 0) then 29 else 28) ∧
  (∀ y m, 1 ≤ m → m ≤ 12 → m ≠ 2 → monthLength y m = if m = 4 ∨ m = 6 ∨ m = 9 ∨ m = 11 then 30 else 31) ∧
  ∀ n : Nat,
    let c := calendarOf n
    let later := calendarOf (n + 1440)
    c.minuteNumber = n ∧ 2000 ≤ c.year ∧ 1 ≤ c.month ∧ c.month ≤ 12 ∧ 1 ≤ c.day ∧ c.day ≤ monthLength c.year c.month ∧
    c.hour ≤ 23 ∧ c.minute ≤ 59 ∧ c.hour * 60 + c.minute = n % 1440 ∧
    later = if c.day < monthLength c.year c.month then { c with day := c.day + 1 }
      else if c.month < 12 then { c with month := c.month + 1, day := 1 } else { c with year := c.year + 1, month := 1, day := 1 }

/-- R43 to R47, R50, R52, R77, R84: the three ways a minute boundary comes about. An ordinary boundary, where the seconds counter has reached the minute
length, moves the clock to the next minute; TRIM CLOCK changes the length and makes a boundary that this makes due at once, and is refused
CLOCK while the clock is UNSET; SET TIME is refused RANGE for an invalid time, and otherwise sets the clock after the boundary of the set. Each
boundary reaches the dispensation table, which sets DISPENSATION for a slot it moves, and the channels whole, the account unit doing its work on each
minute that closes (R93) and an FS switch being made at each close that makes one (R124). A boundary leaves the calibration unit, the event list and the
WX level as they were. That a boundary due
while the part is held or unpowered moves the clock alone, and reaches no block, is the model's choice (notes/assumptions/9.md). That a channel with
a waiting close accounts its older minute under the slots as this boundary has already moved them (`BoundaryReached.closed`) is the model's choice
too, since R44 leaves that order open (notes/assumptions/14.md); where a channel closes the minute of this boundary itself, either order gives the
same source (R44, R61). -/
def Obligations.BoundariesComeAbout : Prop :=
  (∀ s : State,
    let b : Boundary := if s.clock.set then ⟨some s.clock.minute, some (s.clock.minute + 1), false⟩ else ⟨none, none, false⟩
    let after : Clock := { s.clock with minute := if s.clock.set then s.clock.minute + 1 else s.clock.minute, seconds := 0, length := 60 }
    (s.clock.seconds < s.clock.length → exec .minuteBoundary s = .next s) ∧
    (s.clock.length ≤ s.clock.seconds → s.running = false → exec .minuteBoundary s = .next { s with clock := after }) ∧
    (s.clock.length ≤ s.clock.seconds → s.running = true →
      ∃ v, exec .minuteBoundary s = .next v ∧ v.clock = after ∧ BoundaryReached s v b ∧
        ∀ q, (v.port q).notice .clock = (s.port q).notice .clock)) ∧
  (∀ (params : List Byte) (s : State), s.running = true → params.length = 1 →
    let u := s.settle
    let length := (60 + max (-30) (min 30 (s8At params 0))).toNat
    (u.clock.set = false → exec (.trimClock .compliance (.whole params)) s = .next (u.wrote .compliance .clock u params)) ∧
    (u.clock.set = true → ∃ v, exec (.trimClock .compliance (.whole params)) s = .next (v.wrote .compliance .ok u params) ∧
      (u.clock.seconds < length → v.clock = { u.clock with length := length } ∧
        v = { u with clock := v.clock, site := v.site, compliance := v.compliance } ∧
        SetOnBoth u v .clock ⟨.ch0, 2, BitVec.ofNat 32 u.clock.minute⟩) ∧
      (length ≤ u.clock.seconds → v.clock = { u.clock with minute := u.clock.minute + 1, seconds := 0, length := 60 } ∧
        BoundaryReached u v ⟨some u.clock.minute, some (u.clock.minute + 1), false⟩ ∧
        ∀ q, ((v.port q).notice .clock).flag = true ∧ ((v.port q).notice .clock).detail = ⟨.ch0, 2, BitVec.ofNat 32 (u.clock.minute + 1)⟩))) ∧
  ∀ (params : List Byte) (s : State), s.running = true → params.length = 7 →
    let u := s.settle
    let c : Calendar := ⟨u16At params 0, u8At params 2, u8At params 3, u8At params 4, u8At params 5⟩
    let second := u8At params 6
    let valid := 2000 ≤ c.year ∧ c.year ≤ 2099 ∧ 1 ≤ c.month ∧ c.month ≤ 12 ∧ 1 ≤ c.day ∧ c.day ≤ monthLength c.year c.month ∧
      c.hour ≤ 23 ∧ c.minute ≤ 59 ∧ second ≤ 59
    (¬ valid → exec (.setTime .compliance (.whole params)) s = .next (u.wrote .compliance .range u params)) ∧
    (valid → ∃ v, exec (.setTime .compliance (.whole params)) s = .next (v.wrote .compliance .ok u params) ∧
      v.clock = ⟨true, c.minuteNumber, second, 60, 0, u.clock.elapsed⟩ ∧
      BoundaryReached u v ⟨if u.clock.set then some u.clock.minute else none, some c.minuteNumber, true⟩ ∧
      ∀ q, ((v.port q).notice .clock).flag = true ∧ ((v.port q).notice .clock).detail = ⟨.ch0, 1, BitVec.ofNat 32 c.minuteNumber⟩)

/-! ### The limit schedule and dispensations -/

/-- R55, R58, R62, R63, R64, R66, R67: the checks of WRITE ENTRY and DELETE ENTRY in their order, and what an accepted one does: the entry takes
its contents with the next version, its ENTRY item is queued, and SCHEDULE is set. -/
def Obligations.EntriesWritten : Prop :=
  ∀ (params : List Byte) (s : State), s.running = true →
    let u := s.settle
    let n := (params.getD 0 0).toNat
    let queued (i : Fin 16) (e : Entry) (v : State) : Prop :=
      v = { u with entries := u.entries.set i e, store := v.store, site := v.site, compliance := v.compliance } ∧
      Queued u.store v.store (.entry i e) ∧ SetOnBoth u v .schedule ⟨.ch0, 1, BitVec.ofNat 32 i.val⟩
    (params.length = 22 →
      let refused (r : Result) : Prop := exec (.writeEntry .compliance (.whole params)) s = .next (u.wrote .compliance r u params)
      (15 < n → refused .notFound) ∧
      ∀ i : Fin 16, i.val = n →
        let e := entryImage params (u.entries[i].version + 1)
        let meets := i ≠ 0 ∧ ∃ j : Fin 16, j ≠ 0 ∧ j ≠ i ∧ u.entries[j].present = true ∧
          ∃ (ch : Ch) (k : Nat), e.covers ch k = true ∧ u.entries[j].covers ch k = true
        (i.val < u.protection.extent → refused .protection) ∧
        (u.protection.extent ≤ i.val →
          (e.inRange = false → refused .range) ∧
          (e.inRange = true → meets → refused .overlap) ∧
          (e.inRange = true → ¬ meets → u.store.full i.val → refused .busy) ∧
          (e.inRange = true → ¬ meets → ¬ u.store.full i.val →
            ∃ v, exec (.writeEntry .compliance (.whole params)) s = .next (v.wrote .compliance .ok u params) ∧ queued i e v))) ∧
    (params.length = 1 →
      let refused (r : Result) : Prop := exec (.deleteEntry .compliance (.whole params)) s = .next (u.wrote .compliance r u params)
      (15 < n → refused .notFound) ∧
      ∀ i : Fin 16, i.val = n →
        (i = 0 ∨ u.entries[i].present = false → refused .state) ∧
        (i ≠ 0 → u.entries[i].present = true →
          (i.val < u.protection.extent → refused .protection) ∧
          (u.protection.extent ≤ i.val → u.store.full i.val → refused .busy) ∧
          (u.protection.extent ≤ i.val → ¬ u.store.full i.val →
            ∃ v, exec (.deleteEntry .compliance (.whole params)) s = .next (v.wrote .compliance .ok u params) ∧
              queued i { u.entries[i] with present := false, version := u.entries[i].version + 1 } v)))

/-- R56, R65, R66, R67, R68: the checks of WRITE HEADER and SET PROTECTION in their order, and what an accepted one does: the working copy changes, its
item is queued, and SCHEDULE is set. The model records the PROT level an accepted SET PROTECTION sampled (notes/assumptions/5.md). -/
def Obligations.HeaderAndProtection : Prop :=
  ∀ (params : List Byte) (prot : Bool) (s : State), s.running = true →
    let u := s.settle
    (params.length = 8 →
      let h : Header := ⟨u16At params 0, u16At params 2, u16At params 4, u16At params 6⟩
      let fits := h.dayStart ≤ 1439 ∧ h.allowance ≤ 600 ∧ h.lowMark ≤ 600 ∧ h.coverage ≤ 100
      let refused (r : Result) : Prop := exec (.writeHeader .compliance (.whole params)) s = .next (u.wrote .compliance r u params)
      (0 < u.protection.extent → refused .protection) ∧
      (u.protection.extent = 0 → ¬ fits → refused .range) ∧
      (u.protection.extent = 0 → fits → u.store.full 16 → refused .busy) ∧
      (u.protection.extent = 0 → fits → ¬ u.store.full 16 →
        ∃ v, exec (.writeHeader .compliance (.whole params)) s = .next (v.wrote .compliance .ok u params) ∧
          v = { u with header := h, store := v.store, site := v.site, compliance := v.compliance } ∧
          Queued u.store v.store (.header h) ∧ SetOnBoth u v .schedule ⟨.ch0, 2, 0⟩)) ∧
    (params.length = 2 →
      let refused (r : Result) : Prop := exec (.setProtection .compliance (.whole params) prot) s = .next (u.wrote .compliance r u params)
      let extent := (params.getD 0 0).toNat
      let fits := extent ≤ 16 ∧ (params.getD 1 0).toNat ≤ 2
      (u.protection.mode = .fixed → refused .locked) ∧
      (u.protection.mode = .line → prot = false → refused .protection) ∧
      (u.protection.mode ≠ .fixed → (u.protection.mode = .line → prot = true) →
        (¬ fits → refused .range) ∧
        (fits → u.store.full 17 → refused .busy) ∧
        (fits → ¬ u.store.full 17 → ∀ m : ProtectionMode, m.code = params.getD 1 0 →
          ∃ v, exec (.setProtection .compliance (.whole params) prot) s = .next (v.wrote .compliance .ok u params) ∧
            v = { u with protection := ⟨extent, m⟩, prot := prot, store := v.store, site := v.site, compliance := v.compliance } ∧
            Queued u.store v.store (.protection ⟨extent, m⟩) ∧ SetOnBoth u v .schedule ⟨.ch0, 3, 0⟩)))

/-- R57 to R61: a minute of a channel has one source: at most one slot governs it and at most one entry among 1 to 15 covers it, entry 0 where none
does; and a boundary into the minute gives the same source before and after it has moved the slots. -/
def Obligations.SourceIsOne : Prop :=
  ∀ (s : State) (ch : Ch) (n : Nat),
    (s.moveSlots (some n)).sourceOf ch n = s.sourceOf ch n ∧
    (s.SlotsOk → ∀ i : Fin 8, s.slots[i].granted = true → maskHas s.slots[i].channels ch = true → s.slots[i].start ≤ n → n < s.slots[i].stop →
      s.sourceOf ch n = .dispensation i s.slots[i].serial) ∧
    (s.SettingsOk → (∀ i : Fin 8, s.slots[i].granted = true → maskHas s.slots[i].channels ch = true → s.slots[i].start ≤ n → s.slots[i].stop ≤ n) →
      (∀ i : Fin 16, i ≠ 0 → s.entries[i].present = true → s.entries[i].covers ch n = true → s.sourceOf ch n = .entry i) ∧
      ((∀ i : Fin 16, i ≠ 0 → s.entries[i].present = true → s.entries[i].covers ch n = false) → s.sourceOf ch n = .entry 0))

/-- R76, R78: PROPOSE DISPENSATION's checks in their order, and the slot an accepted proposal makes: the lowest-numbered FREE one, PROPOSED with
the proposal serial, which moves on, and DISPENSATION set. -/
def Obligations.DispensationsProposed : Prop :=
  ∀ (params : List Byte) (s : State), s.running = true → params.length = 15 →
    let u := s.settle
    let x : Slot := ⟨.proposed, u.proposalSerial, maskAt params 0, u32At params 1, u32At params 5, levelAt params 9, levelAt params 11,
      flagAt params 13, byteAt params 14, .none⟩
    let fits := u.clock.minute < x.start ∧ x.start ≤ u.clock.minute + 10080 ∧ x.start < x.stop ∧ x.stop ≤ x.start + 1440 ∧
      3000 ≤ x.limit ∧ x.limit ≤ 12000 ∧ (x.trigger = 0 ∨ (3000 ≤ x.trigger ∧ x.trigger ≤ 14000)) ∧ ∃ ch, maskHas x.channels ch = true
    let meets := ∃ j : Fin 8, (u.slots[j].state = .approved ∨ u.slots[j].state = .active) ∧
      (∃ ch, maskHas x.channels ch = true ∧ maskHas u.slots[j].channels ch = true) ∧ x.start < u.slots[j].stop ∧ u.slots[j].start < x.stop
    let refused (r : Result) : Prop := exec (.proposeDispensation .site (.whole params)) s = .next (u.wrote .site r u params)
    (u.clock.set = false → refused .clock) ∧
    (u.clock.set = true → ¬ fits → refused .range) ∧
    (u.clock.set = true → fits → meets → refused .overlap) ∧
    (u.clock.set = true → fits → ¬ meets → (∀ j : Fin 8, u.slots[j].state ≠ .free) → refused .full) ∧
    ∀ i : Fin 8, u.clock.set = true → fits → ¬ meets → u.slots[i].state = .free → (∀ j : Fin 8, j < i → u.slots[j].state ≠ .free) →
      ∃ v, exec (.proposeDispensation .site (.whole params)) s = .next (v.wrote .site .ok u params) ∧
        v = { u with slots := u.slots.set i x, proposalSerial := u.proposalSerial + 1, site := v.site, compliance := v.compliance } ∧
        SetOnBoth u v .dispensation ⟨.ch0, BitVec.ofNat 8 i.val, u.proposalSerial.setWidth 32⟩

/-- R77, R79 to R83: the four decisions on a dispensation: the slot number, its serial and its state are checked in that order (an approval then for
overlap); a decision moves the slot, keeps its fields, and sets DISPENSATION. -/
def Obligations.DispensationsDecided : Prop :=
  ∀ (params : List Byte) (s : State), s.running = true → params.length = 3 →
    let u := s.settle
    let decides (i : Instr) (p : Port) (may : Slot → Prop) (bars : Fin 8 → Prop) (after : Slot → Slot) : Prop :=
      let refused (r : Result) : Prop := exec i s = .next (u.wrote p r u params)
      (7 < (params.getD 0 0).toNat → refused .notFound) ∧
      ∀ j : Fin 8, j.val = (params.getD 0 0).toNat →
        (u.slots[j].serial ≠ word16At params 1 → refused .stale) ∧
        (u.slots[j].serial = word16At params 1 →
          (¬ may u.slots[j] → refused .state) ∧
          (may u.slots[j] → bars j → refused .overlap) ∧
          (may u.slots[j] → ¬ bars j → ∃ v, exec i s = .next (v.wrote p .ok u params) ∧
            v = { u with slots := u.slots.set j (after u.slots[j]), site := v.site, compliance := v.compliance } ∧
            SetOnBoth u v .dispensation ⟨.ch0, BitVec.ofNat 8 j.val, u.slots[j].serial.setWidth 32⟩))
    decides (.withdrawDispensation .site (.whole params)) .site (fun x => x.state = .proposed ∨ x.state = .approved) (fun _ => False)
      (fun x => { x with state := .free, outcome := .withdrawn }) ∧
    decides (.approveDispensation .compliance (.whole params)) .compliance (fun x => x.state = .proposed)
      (fun j => ∃ k : Fin 8, k ≠ j ∧ (u.slots[k].state = .approved ∨ u.slots[k].state = .active) ∧
        (∃ ch, maskHas u.slots[j].channels ch = true ∧ maskHas u.slots[k].channels ch = true) ∧
        u.slots[j].start < u.slots[k].stop ∧ u.slots[k].start < u.slots[j].stop)
      (fun x => { x with state := .approved }) ∧
    decides (.rejectDispensation .compliance (.whole params)) .compliance (fun x => x.state = .proposed) (fun _ => False)
      (fun x => { x with state := .free, outcome := .rejected }) ∧
    decides (.revokeDispensation .compliance (.whole params)) .compliance (fun x => x.state = .approved ∨ x.state = .active) (fun _ => False)
      (fun x => { x with state := .free, outcome := .revoked })

/-! ### Notices, conditions and the QUIET line -/

/-- R152: SET NOTICE ENABLES from either port, for any mask, bits outside the fifteen ignored, replaces the sending port's enables and brings its
attention line to them; an empty mask keeps the line low whatever flags are set. Beside it, R154: CLEAR CONDITIONS clears the sending port's
condition flags of the mask's channels and sets no notice. -/
def Obligations.EnablesAndConditions : Prop :=
  ∀ (p : Port) (params : List Byte) (s : State), s.running = true →
    let u := s.settle
    (params.length = 2 →
      ∃ v : State, exec (.setNoticeEnables p (.whole params)) s = .next (v.wrote p .ok u params) ∧ v = u.setPort p (v.port p) ∧
        v.port p = { u.port p with notices := (v.port p).notices } ∧
        (∀ k, ((v.port p).notice k).enable = (word16At params 0).getLsbD (k.index.val + 1)) ∧
        (∀ k, ((v.port p).notice k).flag = ((u.port p).notice k).flag ∧ ((v.port p).notice k).detail = ((u.port p).notice k).detail) ∧
        (v.attention p = true ↔ ∃ k : NoticeKind, ((u.port p).notice k).flag = true ∧ (word16At params 0).getLsbD (k.index.val + 1) = true) ∧
        v.attention p.other = u.attention p.other ∧
        ((∀ k : NoticeKind, (word16At params 0).getLsbD (k.index.val + 1) = false) →
          ∀ w : State, (∀ k, ((w.port p).notice k).enable = ((v.port p).notice k).enable) → w.attention p = false)) ∧
    (params.length = 1 →
      ∃ v : State, exec (.clearConditions p (.whole params)) s = .next (v.wrote p .ok u params) ∧ v = u.setPort p (v.port p) ∧
        v.port p = { u.port p with conditions := (v.port p).conditions } ∧
        ∀ ch, (v.port p).conditions.get ch = if maskHas (maskAt params 0) ch then ⟨false, false, false, false⟩ else (u.port p).conditions.get ch)

/-- R155, R156: SET QUIET REQUEST sets or clears the sending port's request and brings the QUIET line to its six inputs; a change of the line sets
QUIET on both ports with the request as its cause. -/
def Obligations.QuietRequested : Prop :=
  ∀ (p : Port) (params : List Byte) (s : State), s.running = true → params.length = 1 →
    let u := s.settle
    let on := decide (params.getD 0 0 ≠ 0)
    ∃ v : State, exec (.setQuietRequest p (.whole params)) s = .next (v.wrote p .ok u params) ∧
      v = { u with quietLine := v.quietLine, site := v.site, compliance := v.compliance } ∧
      (v.quietLine = true ↔ on = true ∨ (u.port p.other).quietRequest = true ∨ ∃ ch, (u.chan ch).quiet ≠ .none) ∧
      (∀ q, v.port q = { u.port q with quietRequest := if q = p then on else (u.port q).quietRequest, notices := (v.port q).notices }) ∧
      (v.quietLine = u.quietLine → ∀ q, (v.port q).notices = (u.port q).notices) ∧
      (v.quietLine ≠ u.quietLine → ∀ q, (∀ k, k ≠ .quiet → (v.port q).notice k = (u.port q).notice k) ∧
        (v.port q).notice .quiet = ⟨true, ((u.port q).notice .quiet).enable,
          ⟨.ch0, if v.quietLine then 1 else 0, if p = .site then 1 else 2⟩⟩)

/-- R109, R110, R156: the account unit's evaluation of a channel's device quiet condition: its reason from the installed mask, the open period and
the day account, held on the channel, and the QUIET line brought to its inputs. -/
def Obligations.QuietConditionHeld : Prop :=
  ∀ (s : State) (ch : Ch),
    let t := s.evaluateQuiet ch
    let c := s.chan ch
    (∀ d, d ≠ ch → t.chan d = s.chan d) ∧ (∃ x, t.chan ch = { c with quiet := x }) ∧
    QuietReasonIs (maskHas s.commissioning.installed ch) c (t.chan ch).quiet ∧
    t = { s with channels := t.channels, quietLine := t.quietLine, site := t.site, compliance := t.compliance } ∧
    (t.quietLine = true ↔ s.site.quietRequest = true ∨ s.compliance.quietRequest = true ∨ ∃ d, (t.chan d).quiet ≠ .none) ∧
    (t.quietLine = s.quietLine → t.site = s.site ∧ t.compliance = s.compliance) ∧
    (t.quietLine ≠ s.quietLine → SetOnBoth s t .quiet ⟨ch, if t.quietLine then 1 else 0, 0⟩)

/-- R145, R146, R157, R170: a PORT RESET clears the port's notices, details, conditions and quiet request, leaves its enables at RESET only, and sets
its cursors to the oldest of their collections; only QUIET, where the line moves, and HISTORY-LAG, where the lag it leaves is 1792 or more,
are then set on it. The other port keeps all but a QUIET notice. -/
def Obligations.PortResets : Prop :=
  ∀ (p : Port) (s : State), s.running = true →
    let u := s.settle
    ∃ v : State, exec (.portReset p (.whole [])) s = .next (v.wrote p .ok u []) ∧
      v = { u with quietLine := v.quietLine, site := v.site, compliance := v.compliance } ∧
      (v.quietLine = true ↔ (u.port p.other).quietRequest = true ∨ ∃ ch, (u.chan ch).quiet ≠ .none) ∧
      v.port p = { u.port p with
        notices := (v.port p).notices, conditions := ⟨.none, .none, .none, .none⟩, quietRequest := false, historyCursor := u.historyOldest
        periodCursor := u.periodOldest, eventCursor := u.eventOldest } ∧
      (∀ k, (v.port p).notice k =
        if k = .quiet ∧ v.quietLine ≠ u.quietLine then ⟨true, false, ⟨.ch0, if v.quietLine then 1 else 0, if p = .site then 1 else 2⟩⟩
        else if k = .historyLag ∧ 1792 ≤ u.minuteSeq - u.historyOldest then ⟨true, false, ⟨.ch0, 0, BitVec.ofNat 32 u.historyOldest⟩⟩
        else ⟨false, k == NoticeKind.reset, ⟨.ch0, 0, 0⟩⟩) ∧
      (v.quietLine = u.quietLine → v.port p.other = u.port p.other) ∧
      (v.quietLine ≠ u.quietLine →
        NoticeSet (u.port p.other) (v.port p.other) .quiet ⟨.ch0, if v.quietLine then 1 else 0, if p = .site then 1 else 2⟩)

/-! ### The setting store and commissioning -/

/-- R66, R109, R110, R156, R179, R180: WRITE and LOCK COMMISSIONING: the checks in their order; the working record changes, its item is queued, and for
a write every channel's device quiet condition is evaluated anew and the QUIET line brought to its inputs, QUIET naming the lowest channel whose
condition changed where the line moves. -/
def Obligations.CommissioningWritten : Prop :=
  ∀ (params : List Byte) (s : State), s.running = true →
    let u := s.settle
    (params.length = 68 →
      let r := commissioningAt params
      let printable := ∀ i, i < 16 ∨ 20 ≤ i → i < 68 → byteAt params i = 0 ∨ (0x20 ≤ u8At params i ∧ u8At params i ≤ 0x7E)
      let refused (x : Result) : Prop := exec (.writeCommissioning .compliance (.whole params)) s = .next (u.wrote .compliance x u params)
      (u.commissioning.locked = true → refused .locked) ∧
      (u.commissioning.locked = false → ¬ printable → refused .range) ∧
      (u.commissioning.locked = false → printable → u.store.full 22 → refused .busy) ∧
      (u.commissioning.locked = false → printable → ¬ u.store.full 22 →
        ∃ v : State, exec (.writeCommissioning .compliance (.whole params)) s = .next (v.wrote .compliance .ok u params) ∧
          v = { u with commissioning := r, store := v.store, channels := v.channels, quietLine := v.quietLine, site := v.site
                       compliance := v.compliance } ∧
          Queued u.store v.store (.commissioning r) ∧
          (∀ ch, ∃ x, v.chan ch = { u.chan ch with quiet := x } ∧ QuietReasonIs (maskHas r.installed ch) (u.chan ch) x) ∧
          (v.quietLine = true ↔ u.site.quietRequest = true ∨ u.compliance.quietRequest = true ∨ ∃ ch, (v.chan ch).quiet ≠ .none) ∧
          (v.quietLine = u.quietLine → v.site = u.site ∧ v.compliance = u.compliance) ∧
          (v.quietLine ≠ u.quietLine →
            let moved := fun ch : Ch => ¬ ((u.chan ch).quiet = .none ↔ (v.chan ch).quiet = .none)
            ∃ ch, SetOnBoth u v .quiet ⟨ch, if v.quietLine then 1 else 0, 3⟩ ∧ ∀ d, moved d → moved ch ∧ ch.index ≤ d.index))) ∧
    (u.commissioning.locked = true → exec (.lockCommissioning .compliance (.whole [])) s = .next (u.wrote .compliance .locked u [])) ∧
    (u.commissioning.locked = false → u.store.full 22 → exec (.lockCommissioning .compliance (.whole [])) s = .next (u.wrote .compliance .busy u [])) ∧
    (u.commissioning.locked = false → ¬ u.store.full 22 →
      ∃ v : State, exec (.lockCommissioning .compliance (.whole [])) s = .next (v.wrote .compliance .ok u []) ∧
        v = { u with commissioning := { u.commissioning with locked := true }, store := v.store } ∧
        Queued u.store v.store (.commissioning { u.commissioning with locked := true }))

/-- R175, R177: the item at the head of the queue leaves it as its write begins, its completion mark clear; the write's end completes the item
with the contents written, or leaves its mark clear and sets STORE where the read-back fails. Nothing else of the part changes; with nothing
to begin or to end, nothing does. -/
def Obligations.StoreWrites : Prop :=
  ∀ s : State,
    let stored (x : StoredItems) (w : StoreWrite) (mark : Bool) : StoredItems :=
      match w with
      | .entry i e => { x with entries := x.entries.set i (if mark then some e else none) }
      | .header h => { x with header := if mark then some h else none }
      | .protection y => { x with protection := if mark then some y else none }
      | .channel ch c => { x with channels := x.channels.set ch (if mark then some c else none) }
      | .commissioning r => { x with commissioning := if mark then some r else none }
    (s.store.writing ≠ none ∨ s.store.queue = [] → exec .storeWriteBegin s = .next s) ∧
    (∀ w rest, s.store.writing = none → s.store.queue = w :: rest →
      exec .storeWriteBegin s = .next { s with store := ⟨stored s.store.items w false, rest, some w⟩ }) ∧
    (∀ ok, s.settle.store.writing = none → exec (.storeWriteEnd ok) s = .next s.settle) ∧
    ∀ w, s.settle.store.writing = some w →
      exec (.storeWriteEnd true) s = .next { s.settle with store := ⟨stored s.settle.store.items w true, s.settle.store.queue, none⟩ } ∧
      ∃ t, exec (.storeWriteEnd false) s = .next t ∧
        t = { s.settle with store := { s.settle.store with writing := none }, site := t.site, compliance := t.compliance } ∧
        SetOnBoth s.settle t .store ⟨.ch0, 1, BitVec.ofNat 32 w.item⟩

/-! ### Resets -/

/-- R18, R158, R171, R172, R178: the three device resets: DEVICE RESET, refused BUSY while the store is busy; the release of RESET_N; and the rise
of the supply, with or without the clock domain lost. Each leaves the reset tables' values and the store's settings, and starts the
installed channels; every notice is as R158 has it, a kind not set with detail 0 and one that is set with that of its last notice; a transaction in
progress is abandoned, its select ignored (R173, R174). The model's choices (notes/assumptions/9.md) are that
the release of a high RESET_N does nothing and that without the supply only raises the line, the remembered cause and clock loss, and that
a power-on of a part that has power is one like any other; that a lost clock begins its second of
elapsed clock time anew is notes/assumptions/15.md. -/
def Obligations.DeviceResets : Prop :=
  ∀ s : State,
    let u := s.settle
    (s.running = true → (u.store.queue ≠ [] ∨ u.store.writing ≠ none) →
      exec (.deviceReset .compliance (.whole [])) s = .next (u.wrote .compliance .busy u [])) ∧
    (s.running = true → u.store.queue = [] → u.store.writing = none →
      ∃ v : State, exec (.deviceReset .compliance (.whole [])) s = .next (v.wrote .compliance .ok u []) ∧ ResetDone u v .command false) ∧
    (s.resetN = true → exec .resetNRelease s = .next u) ∧
    (s.resetN = false → s.supply = true → ∃ v : State, exec .resetNRelease s = .next v ∧ ResetDone u v u.resetCause u.clockLossFound) ∧
    (s.resetN = false → s.supply = false → exec .resetNRelease s = .next { u with resetN := true }) ∧
    ∀ lost, s.resetN = true →
      ∃ v : State, exec (.powerOn lost) s = .next v ∧ ResetDone { u with clock := if lost then ⟨false, 0, 0, 60, 0, 0⟩ else u.clock } v .powerOn lost

/-- R54, R172, R178: the fall of RESET_N and the loss of the supply leave every volatile state at its reset value at once, cut the store short and
leave the clock and what is stored. The model's choices (notes/assumptions/9.md) are that a fall of RESET_N with the line already low changes nothing,
that without the supply it only lowers the line, and that a rise of the supply under a low RESET_N does the same as the fall and remembers a
lost clock; that a lost clock's second of elapsed clock time begins anew is notes/assumptions/15.md. -/
def Obligations.ResetsHold : Prop :=
  ∀ s : State,
    let u := s.settle
    let volatile (v : State) : Prop :=
      v.line0 = .reset ∧ v.line1 = .reset ∧ v.slots = Vector.replicate 8 .reset ∧ v.proposalSerial = 0 ∧ v.calUnit.run = none ∧
      v.eventList = [] ∧ v.eventSeq = 0 ∧ v.minuteRing = [] ∧ v.minuteSeq = 0 ∧ v.periodList = [] ∧ v.periodSeq = 0 ∧ v.quietLine = false ∧
      v.store = ⟨u.store.items, [], none⟩ ∧ v.pending = u.pending ∧
      (∀ ch, v.chan ch = { Channel.reset with
        fs := (v.chan ch).fs, calSeq := (v.chan ch).calSeq, uncalibrated := (v.chan ch).uncalibrated, calRecord := (v.chan ch).calRecord }) ∧
      ∀ q, v.port q = ⟨(v.port q).notices, .all .none, false, 0, 0, 0, .ok, (u.port q).transaction.abandoned⟩ ∧
        ∀ k, (v.port q).notice k = ⟨false, k == .reset, ⟨.ch0, 0, 0⟩⟩
    (s.resetN = false → exec .resetNLow s = .next u) ∧
    (s.resetN = true → s.supply = false → exec .resetNLow s = .next { u with resetN := false }) ∧
    (s.resetN = true → s.supply = true → ∃ v : State, exec .resetNLow s = .next v ∧ volatile v ∧ v.resetN = false ∧ v.supply = true ∧
      v.clock = u.clock ∧ v.resetCause = .line ∧ v.clockLossFound = false) ∧
    (∃ v : State, exec .lossOfSupply s = .next v ∧ volatile v ∧ v.supply = false ∧ v.resetN = s.resetN ∧ v.clock = u.clock) ∧
    ∀ lost, s.resetN = false → ∃ v : State, exec (.powerOn lost) s = .next v ∧ volatile v ∧ v.resetN = false ∧ v.supply = true ∧
      v.clock = (if lost then ⟨false, 0, 0, 60, 0, 0⟩ else u.clock) ∧ v.resetCause = .powerOn ∧
      (v.clockLossFound = true ↔ u.clockLossFound = true ∨ lost = true)

/-- The model's reset state (notes/assumptions/1.md): the first power-on of a part as delivered, which finds the clock domain lost, leaves
exactly `State.reset`, but for the levels last presented at WX and PROT, the decoders of the ports, the orders used and the queue. -/
def Obligations.FirstPowerOn : Prop :=
  ∀ s : State, s.supply = false → s.resetN = true → s.store = ⟨.delivered, [], none⟩ →
    exec (.powerOn true) s = .next { State.reset with
      site := { State.reset.site with transaction := s.settle.site.transaction.abandoned }
      compliance := { State.reset.compliance with transaction := s.settle.compliance.transaction.abandoned }
      wx := s.settle.wx, prot := s.settle.prot, orderUses := s.settle.orderUses, pending := s.settle.pending }

/-! ### Accounts and levels -/

/-- R93 to R98, R137, R138, R145, R153: a minute that arrives writes its record, which shows its summary, with MINUTE. Each cause of the record whose
condition flag a port holds clear is set there with CONDITION, the last in the order of R153 leaving its detail; HISTORY-LAG is set on a port whose lag
the record raises to 1792 or more. A minute with no period open, or with an absent ending minute number, is not entered: the accounts stay and its record
has no source, no rating and no marks. A minute entered into an open period: elapsed and the last minute number in every case; where 240 slices were
VALID it is rated with the period's copied parameters, the period takes its energy units, and a trigger minute spends a minute of allowance or is a
breach minute. The newest minute record carries the marks. BREACH is set by a breach minute, and by no other minute; ALLOWANCE-LOW by a spent minute that
leaves the remaining allowance at or below the low mark before the day's notice was given, and by no other. That a trigger minute finds no
allowance left where no day account is open is the model's choice (notes/assumptions/10.md). -/
def Obligations.MinutesEntered : Prop :=
  ∀ (s : State) (m : Summary),
    let c := s.chan m.ch
    let t := s.enterMinute m
    (∀ d, d ≠ m.ch → t.chan d = s.chan d) ∧ t.minuteSeq = s.minuteSeq + 1 ∧
    t = { s with channels := t.channels, minuteRing := t.minuteRing, minuteSeq := t.minuteSeq, site := t.site, compliance := t.compliance } ∧
    let stays (k : NoticeKind) : Prop := ∀ q, (t.port q).notice k = (s.port q).notice k
    (∀ q, t.port q = { s.port q with notices := (t.port q).notices, conditions := (t.port q).conditions } ∧
      (∀ k, ((t.port q).notice k).enable = ((s.port q).notice k).enable) ∧
      ∀ k, k ≠ .minute → k ≠ .condition → k ≠ .historyLag → k ≠ .breach → k ≠ .allowanceLow → (t.port q).notice k = (s.port q).notice k) ∧
    (∃ r, t.minuteRing = (if s.minuteRing.length < 2048 then s.minuteRing else s.minuteRing.drop 1) ++ [r] ∧ r.sequence = s.minuteSeq ∧ r.ch = m.ch ∧
      r.minute = m.boundary.ending ∧ r.causes = m.causes ∧ r.summary m.boundary = m ∧
      (c.period = none ∨ m.boundary.ending = none → t.chan m.ch = c ∧ r.source = none ∧ r.accountable = false ∧ r.impulsive = false ∧
        r.lowFreq = false ∧ r.penalty = 0 ∧ r.lr = none ∧ r.allowanceSpent = false ∧ r.breach = false ∧ stays .breach ∧ stays .allowanceLow)) ∧
    (∀ q,
      let x := s.port q
      let y := t.port q
      let old := x.conditions.get m.ch
      let new : Causes := ⟨m.causes.overload && !old.overload, m.causes.saturation && !old.saturation,
        m.causes.underrange && !old.underrange, m.causes.frameLoss && !old.frameLoss⟩
      (y.notice .minute).flag = true ∧ (y.notice .minute).detail = ⟨m.ch, 0, BitVec.ofNat 32 s.minuteSeq⟩ ∧
      (∀ ch, y.conditions.get ch = if ch = m.ch then ⟨old.overload || m.causes.overload, old.saturation || m.causes.saturation,
        old.underrange || m.causes.underrange, old.frameLoss || m.causes.frameLoss⟩ else x.conditions.get ch) ∧
      y.notice .condition = (if new = ⟨false, false, false, false⟩ then x.notice .condition else
        ⟨true, (x.notice .condition).enable, ⟨m.ch, if new.frameLoss then 4 else if new.underrange then 3 else if new.saturation then 2 else 1,
          BitVec.ofNat 32 s.minuteSeq⟩⟩) ∧
      y.notice .historyLag =
        if s.minuteSeq - x.historyCursor < 1792 ∧ 1792 ≤ s.minuteSeq + 1 - x.historyCursor then
          ⟨true, (x.notice .historyLag).enable, ⟨.ch0, 0, BitVec.ofNat 32 x.historyCursor⟩⟩
        else x.notice .historyLag) ∧
    ∀ (p : Period) (k : Nat), c.period = some p → m.boundary.ending = some k → ∃ r, t.minuteRing.getLast? = some r ∧ r.source = some p.source ∧
      (m.valid < 240 →
        t.chan m.ch = { c with period := some { p with elapsed := p.elapsed + 1, last := some k } } ∧
        r.accountable = false ∧ r.lr = none ∧ r.penalty = 0 ∧ r.impulsive = false ∧ r.lowFreq = false ∧ r.allowanceSpent = false ∧
        r.breach = false ∧ stays .breach ∧ stays .allowanceLow) ∧
      ∀ laeq lafmax lceq, 240 ≤ m.valid → m.laeq = some laeq → m.lafmax = some lafmax → m.lceq = some lceq →
        let impulsive := p.rules.impulseThreshold ≤ lafmax - laeq
        let lowFreq := p.rules.lowFreqThreshold ≤ lceq - laeq
        let penalty := min ((if impulsive then p.rules.impulsePenalty else 0) + (if lowFreq then p.rules.lowFreqPenalty else 0)) p.rules.cap
        let lr := laeq + penalty
        let trigger := p.rules.trigger ≠ 0 ∧ p.rules.trigger ≤ lr
        let left := (c.day.map fun d => d.allowance - d.spent).getD 0
        let spends := trigger ∧ p.rules.works = true ∧ 0 < left
        let breach := trigger ∧ ¬ (p.rules.works = true ∧ 0 < left)
        let low := spends ∧ left - 1 ≤ s.header.lowMark
        t.chan m.ch = { c with
          period := some { p with
            elapsed := p.elapsed + 1, last := some k, accounted := p.accounted + 1
            impulsive := p.impulsive + (if impulsive then 1 else 0), lowFreq := p.lowFreq + (if lowFreq then 1 else 0)
            triggers := p.triggers + (if trigger then 1 else 0), breaches := p.breaches + (if breach then 1 else 0)
            ratedSum := p.ratedSum + energyUnit lr, plainSum := p.plainSum + energyUnit laeq
            greatestLr := some (max (p.greatestLr.getD lr) lr), lafMax := some (max (p.lafMax.getD lafmax) lafmax) }
          day := c.day.map fun d => { d with
            spent := d.spent + (if spends then 1 else 0), breaches := d.breaches + (if breach then 1 else 0)
            lowGiven := d.lowGiven || decide low } } ∧
        r.accountable = true ∧ r.lr = some lr ∧ r.penalty = penalty ∧ (r.impulsive = true ↔ impulsive) ∧ (r.lowFreq = true ↔ lowFreq) ∧
        (r.allowanceSpent = true ↔ spends) ∧ (r.breach = true ↔ breach) ∧
        (breach → ∀ q, ((t.port q).notice .breach).flag = true ∧ ((t.port q).notice .breach).detail = ⟨m.ch, 1, BitVec.ofNat 32 s.minuteSeq⟩) ∧
        (¬ breach → stays .breach) ∧
        (low → (∃ d, c.day = some d ∧ d.lowGiven = false) → ∀ q, ((t.port q).notice .allowanceLow).flag = true ∧
          ((t.port q).notice .allowanceLow).detail = ⟨m.ch, 0, BitVec.ofNat 32 s.minuteSeq⟩) ∧
        (¬ (low ∧ ∃ d, c.day = some d ∧ d.lowGiven = false) → stays .allowanceLow)

/-- R99 to R103, R107: one minute ahead of minute `n`: an open period closes with the first cause that holds and its record is written with PERIOD, and
with BREACH where the verdict is BREACH and not where it is another; where no cause holds, or no period is open, no notice is set; a day account
opens or reopens at the day start of `n`; and where no period is then open one opens under the source of `n`, its planned minutes being the
longest run under that source, within the account day and 1440 minutes. -/
def Obligations.PeriodsTurn : Prop :=
  ∀ (s : State) (ch : Ch) (timeSet : Bool) (n : Nat), s.header.dayStart ≤ 1439 →
    let c := s.chan ch
    let t := s.lookAhead ch timeSet n
    let dayEnds := n % 1440 = s.header.dayStart ∨ ∃ d, c.day = some d ∧ d.start + 1440 ≤ n
    let isStart (x : Nat) : Prop := x ≤ n ∧ n < x + 1440 ∧ (x % 1440 = s.header.dayStart ∨ (x = 0 ∧ n < s.header.dayStart))
    let ends (p : Period) : Prop := timeSet = true ∨ dayEnds ∨ s.sourceOf ch n ≠ p.source
    (∀ d, d ≠ ch → t.chan d = s.chan d) ∧
    t.chan ch = { c with period := (t.chan ch).period, day := (t.chan ch).day } ∧
    t = { s with channels := t.channels, periodList := t.periodList, periodSeq := t.periodSeq, site := t.site, compliance := t.compliance } ∧
    (∀ q, t.port q = { s.port q with notices := (t.port q).notices } ∧
      (∀ k, ((t.port q).notice k).enable = ((s.port q).notice k).enable) ∧
      ∀ k, k ≠ .period → k ≠ .breach → (t.port q).notice k = (s.port q).notice k) ∧
    (c.period = none → t.periodSeq = s.periodSeq ∧ t.periodList = s.periodList ∧ t.site = s.site ∧ t.compliance = s.compliance) ∧
    (∀ p, c.period = some p → ¬ ends p → (t.chan ch).period = some p ∧ t.periodSeq = s.periodSeq ∧ t.periodList = s.periodList ∧
      t.site = s.site ∧ t.compliance = s.compliance) ∧
    (∀ p, c.period = some p → ends p → t.periodSeq = s.periodSeq + 1 ∧
      ∃ r, t.periodList = (if s.periodList.length < 96 then s.periodList else s.periodList.drop 1) ++ [r] ∧
        r.sequence = s.periodSeq ∧ r.ch = ch ∧ r.source = p.source ∧ r.reason = p.reason ∧
        r.opening = p.opening ∧ r.closing = p.last ∧ r.planned = p.planned ∧ r.elapsed = p.elapsed ∧ r.accounted = p.accounted ∧
        r.impulsive = p.impulsive ∧ r.lowFreq = p.lowFreq ∧ r.triggers = p.triggers ∧ r.breaches = p.breaches ∧
        r.greatestLr = p.greatestLr ∧ r.lafMax = p.lafMax ∧ r.lr = reverseLevel p.ratedSum p.accounted ∧
        r.laeq = reverseLevel p.plainSum p.accounted ∧ r.l10 = p.percentile 10 ∧ r.l50 = p.percentile 50 ∧ r.l90 = p.percentile 90 ∧
        r.limit = p.rules.limit ∧ r.verdict = p.verdict s.header.coverage ∧
        (timeSet = true → r.cause = .timeSet) ∧ (timeSet = false → dayEnds → r.cause = .day) ∧
        (timeSet = false → ¬ dayEnds → r.cause = .source) ∧
        (∀ q, ((t.port q).notice .period).flag = true ∧ ((t.port q).notice .period).detail = ⟨ch, 0, BitVec.ofNat 32 s.periodSeq⟩) ∧
        (r.verdict = .breach → ∀ q, ((t.port q).notice .breach).flag = true ∧
          ((t.port q).notice .breach).detail = ⟨ch, 2, BitVec.ofNat 32 s.periodSeq⟩) ∧
        (r.verdict ≠ .breach → ∀ q, (t.port q).notice .breach = (s.port q).notice .breach)) ∧
    (∀ d, c.day = some d → (timeSet = true → isStart d.start) → (timeSet = false → ¬ dayEnds) → (t.chan ch).day = some d) ∧
    (∀ x, isStart x → (∀ d, c.day = some d → if timeSet then d.start ≠ x else dayEnds) →
      (t.chan ch).day = some ⟨x, s.header.allowance, 0, 0, false⟩) ∧
    ((∀ p, c.period = some p → ends p) →
      ∃ p, (t.chan ch).period = some p ∧ p.source = s.sourceOf ch n ∧ p.opening = n ∧ p.last = none ∧ p.elapsed = 0 ∧ p.accounted = 0 ∧
        p.impulsive = 0 ∧ p.lowFreq = 0 ∧ p.triggers = 0 ∧ p.breaches = 0 ∧ p.ratedSum = 0 ∧ p.plainSum = 0 ∧ p.greatestLr = none ∧
        p.lafMax = none ∧ p.histogram = Vector.replicate 240 0 ∧
        (∀ i : Fin 16, p.source = .entry i → p.reason = 0 ∧ p.rules = s.entries[i].rules) ∧
        (∀ (i : Fin 8) (x : Serial), p.source = .dispensation i x → x = s.slots[i].serial ∧ p.reason = s.slots[i].reason ∧
          p.rules = { s.entries[s.entryFor ch n].rules with
            limit := s.slots[i].limit, trigger := s.slots[i].trigger, works := s.slots[i].works }) ∧
        1 ≤ p.planned ∧ p.planned ≤ 1440 ∧
        (∀ j, 0 < j → j < p.planned → s.sourceOf ch (n + j) = p.source ∧ (n + j) % 1440 ≠ s.header.dayStart) ∧
        (p.planned < 1440 → s.sourceOf ch (n + p.planned) ≠ p.source ∨ (n + p.planned) % 1440 = s.header.dayStart))

/-- R105: the percentile levels of a period's histogram, the lower edges of the bins in which the N per cent fall, or void, in order. R106 beside it:
the verdict, for any coverage percent. -/
def Obligations.PeriodFigures : Prop :=
  ∀ p : Period,
    let total := p.histogram.toList.sum
    (∀ n, n = 10 ∨ n = 50 ∨ n = 90 →
      (total = 0 → p.percentile n = none) ∧
      (0 < total → ∃ b : Nat, b < 240 ∧ p.percentile n = some (2000 + 50 * (b : Int)) ∧
        n * total ≤ 100 * (p.histogram.toList.drop b).sum ∧ 100 * (p.histogram.toList.drop (b + 1)).sum < n * total)) ∧
    (∀ x y z, p.percentile 10 = some x → p.percentile 50 = some y → p.percentile 90 = some z → z ≤ y ∧ y ≤ x) ∧
    ((p.histogram.toList.drop 1).sum = 0 → 0 < total → ∀ n, n = 10 ∨ n = 50 ∨ n = 90 → p.percentile n = some 2000) ∧
    ∀ coverage,
      (p.accounted = 0 → p.verdict coverage = .void) ∧
      (∀ l, 0 < p.accounted → p.lr = some l → p.rules.limit < l → p.verdict coverage = .breach) ∧
      (∀ l, 0 < p.accounted → p.lr = some l → l ≤ p.rules.limit →
        p.verdict coverage = if 100 * p.accounted < coverage * p.elapsed then .incomplete else .compliant) ∧
      (0 < p.accounted → p.lr ≠ none)

/-- R28, R38, R39, R133: the conversions are exact. A level is FS plus the nearest integer to 1000 log10 of the ratio, an energy unit the nearest integer to
its formula, a reversed level the nearest integer to its formula, clamped, with the cases that stand before each; and the LAE of an event, of one
slice or of 28800, stands from its LAeq by the nearest integer to 1000 log10 of its duration over 8. -/
def Obligations.LevelsExact : Prop :=
  (∀ (fs : Level) (sum n : Nat), 0 < n → sum ≤ n * (2 ^ 46 - 1) →
    ((sum : ℝ) / (n * 2 ^ 46) < 10 ^ (-10 : ℝ) → convert fs sum n = ⟨fs - 10000, true⟩) ∧
    ((10 : ℝ) ^ (-10 : ℝ) ≤ (sum : ℝ) / (n * 2 ^ 46) → (convert fs sum n).floored = false ∧
      |((convert fs sum n).level : ℝ) - fs - 1000 * Real.logb 10 ((sum : ℝ) / (n * 2 ^ 46))| ≤ 1 / 2) ∧
    fs - 10000 ≤ (convert fs sum n).level ∧ (convert fs sum n).level ≤ fs) ∧
  (∀ l : Level, 0 ≤ l → l ≤ 16000 →
    |(energyUnit l : ℝ) - 2 ^ 32 * (10 : ℝ) ^ (((l : ℝ) - 10000) / 1000)| ≤ 1 / 2 ∧ energyUnit l < 2 ^ 52) ∧
  (∀ l m : Level, 0 ≤ l → l ≤ m → m ≤ 16000 → energyUnit l ≤ energyUnit m) ∧
  (∀ n : Nat, 1 ≤ n → n ≤ 28800 → |(roundLog n 8 : ℝ) - 1000 * Real.logb 10 ((n : ℝ) / 8)| ≤ 1 / 2) ∧
  roundLog 1 8 = -903 ∧ roundLog 8 8 = 0 ∧ roundLog 28800 8 = 3556 ∧
  (∀ (e : OpenEvent) (fs : Level), e.lae fs = e.laeq fs + roundLog e.count 8) ∧
  ∀ sum n : Nat,
    (n = 0 → reverseLevel sum n = none) ∧ (0 < n → sum = 0 → reverseLevel sum n = some 0) ∧
    (0 < n → 0 < sum → ∃ x l : Int, reverseLevel sum n = some l ∧ l = max 0 (min 16000 x) ∧
      |(x : ℝ) - 10000 - 1000 * Real.logb 10 ((sum : ℝ) / (n * 2 ^ 32))| ≤ 1 / 2)

/-! ### What every step keeps -/

/-- The state right after the first power-on meets every invariant below. -/
def Obligations.ResetMeetsInvariants : Prop :=
  State.reset.HistoryOk ∧ State.reset.EventsOk ∧ State.reset.CursorsOk ∧ State.reset.SettingsOk ∧ State.reset.SlotsOk ∧ State.reset.QueueOk ∧
  State.reset.CountersOk ∧ State.reset.AccountsOk ∧ State.reset.MinutesOk ∧ State.reset.CalibrationOk ∧ State.reset.QuietOk

/-- R134, R137, R139, R140: every step keeps the three collections in sequence and within their capacities, and no cursor past its collection. -/
def Obligations.RecordsKept : Prop :=
  ∀ s t : State, s.HistoryOk ∧ s.EventsOk ∧ s.CursorsOk → step s = .next t → t.HistoryOk ∧ t.EventsOk ∧ t.CursorsOk

/-- R15, R28, R55, R56, R58, R67, R78, R81, R175, R177: every step keeps the settings, in force and stored, within their ranges, no two present entries
overlapping, no two granted dispensations overlapping, the store's queue without two copies of an item and with at most four that a port sent, and the
completion mark of the item being written clear, so that a write cut short loads as incomplete (R172, R178). -/
def Obligations.SettingsKept : Prop :=
  ∀ s t : State, s.SettingsOk ∧ s.SlotsOk ∧ s.QueueOk → step s = .next t → t.SettingsOk ∧ t.SlotsOk ∧ t.QueueOk

/-- R2 to R4, R6, R11, R26, R32, R42 to R48, R52, R90 to R97, R122, R127 to R132: every step keeps the receivers' counters, a running channel FAULTED
exactly while its line is LOST, the frames of its slice at most 6000 and the crystal periods of it fewer than 4096, the running values, the slice counts
of the minute, the clock's counts, the lapse counts, the open events' counts and the counts of the open accounts within their ranges, and, while the
part runs, the minutes of the channels, their day accounts and periods in agreement with the clock. The settings are in range, as
`SettingsKept` says they stay. -/
def Obligations.CountsKept : Prop :=
  ∀ s t : State, s.CountersOk ∧ s.AccountsOk ∧ (s.running = true → s.MinutesOk) ∧ s.SettingsOk → step s = .next t →
    t.CountersOk ∧ t.AccountsOk ∧ (t.running = true → t.MinutesOk)

/-- R46, R110, R114, R116, R119, R122, R124, R156: every step keeps the calibration unit, the channels, their records and their waiting closes in agreement,
and the QUIET line at its six inputs. -/
def Obligations.CalibrationAndQuietKept : Prop :=
  ∀ s t : State, s.CalibrationOk ∧ s.QuietOk → step s = .next t → t.CalibrationOk ∧ t.QuietOk
end

