-- ==== Sys2Proof/Laws/State.lean ====
section
/-! SUPPORT. State laws: what each named update of State leaves as it was, field by field, and what it sets. -/

namespace Sys2Proof.Machine

@[simp] theorem State.setChan_line0 (s : State) (ch : Ch) (c : Channel) : (s.setChan ch c).line0 = s.line0 := rfl
@[simp] theorem State.setChan_line1 (s : State) (ch : Ch) (c : Channel) : (s.setChan ch c).line1 = s.line1 := rfl
@[simp] theorem State.setChan_clock (s : State) (ch : Ch) (c : Channel) : (s.setChan ch c).clock = s.clock := rfl
@[simp] theorem State.setChan_entries (s : State) (ch : Ch) (c : Channel) : (s.setChan ch c).entries = s.entries := rfl
@[simp] theorem State.setChan_header (s : State) (ch : Ch) (c : Channel) : (s.setChan ch c).header = s.header := rfl
@[simp] theorem State.setChan_protection (s : State) (ch : Ch) (c : Channel) : (s.setChan ch c).protection = s.protection := rfl
@[simp] theorem State.setChan_slots (s : State) (ch : Ch) (c : Channel) : (s.setChan ch c).slots = s.slots := rfl
@[simp] theorem State.setChan_proposalSerial (s : State) (ch : Ch) (c : Channel) : (s.setChan ch c).proposalSerial = s.proposalSerial := rfl
@[simp] theorem State.setChan_calUnit (s : State) (ch : Ch) (c : Channel) : (s.setChan ch c).calUnit = s.calUnit := rfl
@[simp] theorem State.setChan_eventList (s : State) (ch : Ch) (c : Channel) : (s.setChan ch c).eventList = s.eventList := rfl
@[simp] theorem State.setChan_eventSeq (s : State) (ch : Ch) (c : Channel) : (s.setChan ch c).eventSeq = s.eventSeq := rfl
@[simp] theorem State.setChan_minuteRing (s : State) (ch : Ch) (c : Channel) : (s.setChan ch c).minuteRing = s.minuteRing := rfl
@[simp] theorem State.setChan_minuteSeq (s : State) (ch : Ch) (c : Channel) : (s.setChan ch c).minuteSeq = s.minuteSeq := rfl
@[simp] theorem State.setChan_periodList (s : State) (ch : Ch) (c : Channel) : (s.setChan ch c).periodList = s.periodList := rfl
@[simp] theorem State.setChan_periodSeq (s : State) (ch : Ch) (c : Channel) : (s.setChan ch c).periodSeq = s.periodSeq := rfl
@[simp] theorem State.setChan_site (s : State) (ch : Ch) (c : Channel) : (s.setChan ch c).site = s.site := rfl
@[simp] theorem State.setChan_compliance (s : State) (ch : Ch) (c : Channel) : (s.setChan ch c).compliance = s.compliance := rfl
@[simp] theorem State.setChan_quietLine (s : State) (ch : Ch) (c : Channel) : (s.setChan ch c).quietLine = s.quietLine := rfl
@[simp] theorem State.setChan_store (s : State) (ch : Ch) (c : Channel) : (s.setChan ch c).store = s.store := rfl
@[simp] theorem State.setChan_commissioning (s : State) (ch : Ch) (c : Channel) : (s.setChan ch c).commissioning = s.commissioning := rfl
@[simp] theorem State.setChan_wx (s : State) (ch : Ch) (c : Channel) : (s.setChan ch c).wx = s.wx := rfl
@[simp] theorem State.setChan_prot (s : State) (ch : Ch) (c : Channel) : (s.setChan ch c).prot = s.prot := rfl
@[simp] theorem State.setChan_resetN (s : State) (ch : Ch) (c : Channel) : (s.setChan ch c).resetN = s.resetN := rfl
@[simp] theorem State.setChan_supply (s : State) (ch : Ch) (c : Channel) : (s.setChan ch c).supply = s.supply := rfl
@[simp] theorem State.setChan_resetCause (s : State) (ch : Ch) (c : Channel) : (s.setChan ch c).resetCause = s.resetCause := rfl
@[simp] theorem State.setChan_clockLossFound (s : State) (ch : Ch) (c : Channel) : (s.setChan ch c).clockLossFound = s.clockLossFound := rfl
@[simp] theorem State.setChan_orderUses (s : State) (ch : Ch) (c : Channel) : (s.setChan ch c).orderUses = s.orderUses := rfl
@[simp] theorem State.setChan_pending (s : State) (ch : Ch) (c : Channel) : (s.setChan ch c).pending = s.pending := rfl

@[simp] theorem State.setRx_channels (s : State) (l : Line) (r : LineRx) : (s.setRx l r).channels = s.channels := by cases l <;> rfl
@[simp] theorem State.setRx_clock (s : State) (l : Line) (r : LineRx) : (s.setRx l r).clock = s.clock := by cases l <;> rfl
@[simp] theorem State.setRx_entries (s : State) (l : Line) (r : LineRx) : (s.setRx l r).entries = s.entries := by cases l <;> rfl
@[simp] theorem State.setRx_header (s : State) (l : Line) (r : LineRx) : (s.setRx l r).header = s.header := by cases l <;> rfl
@[simp] theorem State.setRx_protection (s : State) (l : Line) (r : LineRx) : (s.setRx l r).protection = s.protection := by cases l <;> rfl
@[simp] theorem State.setRx_slots (s : State) (l : Line) (r : LineRx) : (s.setRx l r).slots = s.slots := by cases l <;> rfl
@[simp] theorem State.setRx_proposalSerial (s : State) (l : Line) (r : LineRx) : (s.setRx l r).proposalSerial = s.proposalSerial := by cases l <;> rfl
@[simp] theorem State.setRx_calUnit (s : State) (l : Line) (r : LineRx) : (s.setRx l r).calUnit = s.calUnit := by cases l <;> rfl
@[simp] theorem State.setRx_eventList (s : State) (l : Line) (r : LineRx) : (s.setRx l r).eventList = s.eventList := by cases l <;> rfl
@[simp] theorem State.setRx_eventSeq (s : State) (l : Line) (r : LineRx) : (s.setRx l r).eventSeq = s.eventSeq := by cases l <;> rfl
@[simp] theorem State.setRx_minuteRing (s : State) (l : Line) (r : LineRx) : (s.setRx l r).minuteRing = s.minuteRing := by cases l <;> rfl
@[simp] theorem State.setRx_minuteSeq (s : State) (l : Line) (r : LineRx) : (s.setRx l r).minuteSeq = s.minuteSeq := by cases l <;> rfl
@[simp] theorem State.setRx_periodList (s : State) (l : Line) (r : LineRx) : (s.setRx l r).periodList = s.periodList := by cases l <;> rfl
@[simp] theorem State.setRx_periodSeq (s : State) (l : Line) (r : LineRx) : (s.setRx l r).periodSeq = s.periodSeq := by cases l <;> rfl
@[simp] theorem State.setRx_site (s : State) (l : Line) (r : LineRx) : (s.setRx l r).site = s.site := by cases l <;> rfl
@[simp] theorem State.setRx_compliance (s : State) (l : Line) (r : LineRx) : (s.setRx l r).compliance = s.compliance := by cases l <;> rfl
@[simp] theorem State.setRx_quietLine (s : State) (l : Line) (r : LineRx) : (s.setRx l r).quietLine = s.quietLine := by cases l <;> rfl
@[simp] theorem State.setRx_store (s : State) (l : Line) (r : LineRx) : (s.setRx l r).store = s.store := by cases l <;> rfl
@[simp] theorem State.setRx_commissioning (s : State) (l : Line) (r : LineRx) : (s.setRx l r).commissioning = s.commissioning := by cases l <;> rfl
@[simp] theorem State.setRx_wx (s : State) (l : Line) (r : LineRx) : (s.setRx l r).wx = s.wx := by cases l <;> rfl
@[simp] theorem State.setRx_prot (s : State) (l : Line) (r : LineRx) : (s.setRx l r).prot = s.prot := by cases l <;> rfl
@[simp] theorem State.setRx_resetN (s : State) (l : Line) (r : LineRx) : (s.setRx l r).resetN = s.resetN := by cases l <;> rfl
@[simp] theorem State.setRx_supply (s : State) (l : Line) (r : LineRx) : (s.setRx l r).supply = s.supply := by cases l <;> rfl
@[simp] theorem State.setRx_resetCause (s : State) (l : Line) (r : LineRx) : (s.setRx l r).resetCause = s.resetCause := by cases l <;> rfl
@[simp] theorem State.setRx_clockLossFound (s : State) (l : Line) (r : LineRx) : (s.setRx l r).clockLossFound = s.clockLossFound := by cases l <;> rfl
@[simp] theorem State.setRx_orderUses (s : State) (l : Line) (r : LineRx) : (s.setRx l r).orderUses = s.orderUses := by cases l <;> rfl
@[simp] theorem State.setRx_pending (s : State) (l : Line) (r : LineRx) : (s.setRx l r).pending = s.pending := by cases l <;> rfl

@[simp] theorem State.setPort_channels (s : State) (p : Port) (x : PortState) : (s.setPort p x).channels = s.channels := by cases p <;> rfl
@[simp] theorem State.setPort_line0 (s : State) (p : Port) (x : PortState) : (s.setPort p x).line0 = s.line0 := by cases p <;> rfl
@[simp] theorem State.setPort_line1 (s : State) (p : Port) (x : PortState) : (s.setPort p x).line1 = s.line1 := by cases p <;> rfl
@[simp] theorem State.setPort_clock (s : State) (p : Port) (x : PortState) : (s.setPort p x).clock = s.clock := by cases p <;> rfl
@[simp] theorem State.setPort_entries (s : State) (p : Port) (x : PortState) : (s.setPort p x).entries = s.entries := by cases p <;> rfl
@[simp] theorem State.setPort_header (s : State) (p : Port) (x : PortState) : (s.setPort p x).header = s.header := by cases p <;> rfl
@[simp] theorem State.setPort_protection (s : State) (p : Port) (x : PortState) : (s.setPort p x).protection = s.protection := by cases p <;> rfl
@[simp] theorem State.setPort_slots (s : State) (p : Port) (x : PortState) : (s.setPort p x).slots = s.slots := by cases p <;> rfl
@[simp] theorem State.setPort_proposalSerial (s : State) (p : Port) (x : PortState) : (s.setPort p x).proposalSerial = s.proposalSerial := by cases p <;> rfl
@[simp] theorem State.setPort_calUnit (s : State) (p : Port) (x : PortState) : (s.setPort p x).calUnit = s.calUnit := by cases p <;> rfl
@[simp] theorem State.setPort_eventList (s : State) (p : Port) (x : PortState) : (s.setPort p x).eventList = s.eventList := by cases p <;> rfl
@[simp] theorem State.setPort_eventSeq (s : State) (p : Port) (x : PortState) : (s.setPort p x).eventSeq = s.eventSeq := by cases p <;> rfl
@[simp] theorem State.setPort_minuteRing (s : State) (p : Port) (x : PortState) : (s.setPort p x).minuteRing = s.minuteRing := by cases p <;> rfl
@[simp] theorem State.setPort_minuteSeq (s : State) (p : Port) (x : PortState) : (s.setPort p x).minuteSeq = s.minuteSeq := by cases p <;> rfl
@[simp] theorem State.setPort_periodList (s : State) (p : Port) (x : PortState) : (s.setPort p x).periodList = s.periodList := by cases p <;> rfl
@[simp] theorem State.setPort_periodSeq (s : State) (p : Port) (x : PortState) : (s.setPort p x).periodSeq = s.periodSeq := by cases p <;> rfl
@[simp] theorem State.setPort_quietLine (s : State) (p : Port) (x : PortState) : (s.setPort p x).quietLine = s.quietLine := by cases p <;> rfl
@[simp] theorem State.setPort_store (s : State) (p : Port) (x : PortState) : (s.setPort p x).store = s.store := by cases p <;> rfl
@[simp] theorem State.setPort_commissioning (s : State) (p : Port) (x : PortState) : (s.setPort p x).commissioning = s.commissioning := by cases p <;> rfl
@[simp] theorem State.setPort_wx (s : State) (p : Port) (x : PortState) : (s.setPort p x).wx = s.wx := by cases p <;> rfl
@[simp] theorem State.setPort_prot (s : State) (p : Port) (x : PortState) : (s.setPort p x).prot = s.prot := by cases p <;> rfl
@[simp] theorem State.setPort_resetN (s : State) (p : Port) (x : PortState) : (s.setPort p x).resetN = s.resetN := by cases p <;> rfl
@[simp] theorem State.setPort_supply (s : State) (p : Port) (x : PortState) : (s.setPort p x).supply = s.supply := by cases p <;> rfl
@[simp] theorem State.setPort_resetCause (s : State) (p : Port) (x : PortState) : (s.setPort p x).resetCause = s.resetCause := by cases p <;> rfl
@[simp] theorem State.setPort_clockLossFound (s : State) (p : Port) (x : PortState) : (s.setPort p x).clockLossFound = s.clockLossFound := by cases p <;> rfl
@[simp] theorem State.setPort_orderUses (s : State) (p : Port) (x : PortState) : (s.setPort p x).orderUses = s.orderUses := by cases p <;> rfl
@[simp] theorem State.setPort_pending (s : State) (p : Port) (x : PortState) : (s.setPort p x).pending = s.pending := by cases p <;> rfl

@[simp] theorem State.notify_channels (s : State) (p : Port) (k : NoticeKind) (d : Detail) : (s.notify p k d).channels = s.channels := by cases p <;> rfl
@[simp] theorem State.notify_line0 (s : State) (p : Port) (k : NoticeKind) (d : Detail) : (s.notify p k d).line0 = s.line0 := by cases p <;> rfl
@[simp] theorem State.notify_line1 (s : State) (p : Port) (k : NoticeKind) (d : Detail) : (s.notify p k d).line1 = s.line1 := by cases p <;> rfl
@[simp] theorem State.notify_clock (s : State) (p : Port) (k : NoticeKind) (d : Detail) : (s.notify p k d).clock = s.clock := by cases p <;> rfl
@[simp] theorem State.notify_entries (s : State) (p : Port) (k : NoticeKind) (d : Detail) : (s.notify p k d).entries = s.entries := by cases p <;> rfl
@[simp] theorem State.notify_header (s : State) (p : Port) (k : NoticeKind) (d : Detail) : (s.notify p k d).header = s.header := by cases p <;> rfl
@[simp] theorem State.notify_protection (s : State) (p : Port) (k : NoticeKind) (d : Detail) : (s.notify p k d).protection = s.protection := by cases p <;> rfl
@[simp] theorem State.notify_slots (s : State) (p : Port) (k : NoticeKind) (d : Detail) : (s.notify p k d).slots = s.slots := by cases p <;> rfl
@[simp] theorem State.notify_proposalSerial (s : State) (p : Port) (k : NoticeKind) (d : Detail) : (s.notify p k d).proposalSerial = s.proposalSerial := by cases p <;> rfl
@[simp] theorem State.notify_calUnit (s : State) (p : Port) (k : NoticeKind) (d : Detail) : (s.notify p k d).calUnit = s.calUnit := by cases p <;> rfl
@[simp] theorem State.notify_eventList (s : State) (p : Port) (k : NoticeKind) (d : Detail) : (s.notify p k d).eventList = s.eventList := by cases p <;> rfl
@[simp] theorem State.notify_eventSeq (s : State) (p : Port) (k : NoticeKind) (d : Detail) : (s.notify p k d).eventSeq = s.eventSeq := by cases p <;> rfl
@[simp] theorem State.notify_minuteRing (s : State) (p : Port) (k : NoticeKind) (d : Detail) : (s.notify p k d).minuteRing = s.minuteRing := by cases p <;> rfl
@[simp] theorem State.notify_minuteSeq (s : State) (p : Port) (k : NoticeKind) (d : Detail) : (s.notify p k d).minuteSeq = s.minuteSeq := by cases p <;> rfl
@[simp] theorem State.notify_periodList (s : State) (p : Port) (k : NoticeKind) (d : Detail) : (s.notify p k d).periodList = s.periodList := by cases p <;> rfl
@[simp] theorem State.notify_periodSeq (s : State) (p : Port) (k : NoticeKind) (d : Detail) : (s.notify p k d).periodSeq = s.periodSeq := by cases p <;> rfl
@[simp] theorem State.notify_quietLine (s : State) (p : Port) (k : NoticeKind) (d : Detail) : (s.notify p k d).quietLine = s.quietLine := by cases p <;> rfl
@[simp] theorem State.notify_store (s : State) (p : Port) (k : NoticeKind) (d : Detail) : (s.notify p k d).store = s.store := by cases p <;> rfl
@[simp] theorem State.notify_commissioning (s : State) (p : Port) (k : NoticeKind) (d : Detail) : (s.notify p k d).commissioning = s.commissioning := by cases p <;> rfl
@[simp] theorem State.notify_wx (s : State) (p : Port) (k : NoticeKind) (d : Detail) : (s.notify p k d).wx = s.wx := by cases p <;> rfl
@[simp] theorem State.notify_prot (s : State) (p : Port) (k : NoticeKind) (d : Detail) : (s.notify p k d).prot = s.prot := by cases p <;> rfl
@[simp] theorem State.notify_resetN (s : State) (p : Port) (k : NoticeKind) (d : Detail) : (s.notify p k d).resetN = s.resetN := by cases p <;> rfl
@[simp] theorem State.notify_supply (s : State) (p : Port) (k : NoticeKind) (d : Detail) : (s.notify p k d).supply = s.supply := by cases p <;> rfl
@[simp] theorem State.notify_resetCause (s : State) (p : Port) (k : NoticeKind) (d : Detail) : (s.notify p k d).resetCause = s.resetCause := by cases p <;> rfl
@[simp] theorem State.notify_clockLossFound (s : State) (p : Port) (k : NoticeKind) (d : Detail) : (s.notify p k d).clockLossFound = s.clockLossFound := by cases p <;> rfl
@[simp] theorem State.notify_orderUses (s : State) (p : Port) (k : NoticeKind) (d : Detail) : (s.notify p k d).orderUses = s.orderUses := by cases p <;> rfl
@[simp] theorem State.notify_pending (s : State) (p : Port) (k : NoticeKind) (d : Detail) : (s.notify p k d).pending = s.pending := by cases p <;> rfl

@[simp] theorem State.notifyBoth_channels (s : State) (k : NoticeKind) (d : Detail) : (s.notifyBoth k d).channels = s.channels := rfl
@[simp] theorem State.notifyBoth_line0 (s : State) (k : NoticeKind) (d : Detail) : (s.notifyBoth k d).line0 = s.line0 := rfl
@[simp] theorem State.notifyBoth_line1 (s : State) (k : NoticeKind) (d : Detail) : (s.notifyBoth k d).line1 = s.line1 := rfl
@[simp] theorem State.notifyBoth_clock (s : State) (k : NoticeKind) (d : Detail) : (s.notifyBoth k d).clock = s.clock := rfl
@[simp] theorem State.notifyBoth_entries (s : State) (k : NoticeKind) (d : Detail) : (s.notifyBoth k d).entries = s.entries := rfl
@[simp] theorem State.notifyBoth_header (s : State) (k : NoticeKind) (d : Detail) : (s.notifyBoth k d).header = s.header := rfl
@[simp] theorem State.notifyBoth_protection (s : State) (k : NoticeKind) (d : Detail) : (s.notifyBoth k d).protection = s.protection := rfl
@[simp] theorem State.notifyBoth_slots (s : State) (k : NoticeKind) (d : Detail) : (s.notifyBoth k d).slots = s.slots := rfl
@[simp] theorem State.notifyBoth_proposalSerial (s : State) (k : NoticeKind) (d : Detail) : (s.notifyBoth k d).proposalSerial = s.proposalSerial := rfl
@[simp] theorem State.notifyBoth_calUnit (s : State) (k : NoticeKind) (d : Detail) : (s.notifyBoth k d).calUnit = s.calUnit := rfl
@[simp] theorem State.notifyBoth_eventList (s : State) (k : NoticeKind) (d : Detail) : (s.notifyBoth k d).eventList = s.eventList := rfl
@[simp] theorem State.notifyBoth_eventSeq (s : State) (k : NoticeKind) (d : Detail) : (s.notifyBoth k d).eventSeq = s.eventSeq := rfl
@[simp] theorem State.notifyBoth_minuteRing (s : State) (k : NoticeKind) (d : Detail) : (s.notifyBoth k d).minuteRing = s.minuteRing := rfl
@[simp] theorem State.notifyBoth_minuteSeq (s : State) (k : NoticeKind) (d : Detail) : (s.notifyBoth k d).minuteSeq = s.minuteSeq := rfl
@[simp] theorem State.notifyBoth_periodList (s : State) (k : NoticeKind) (d : Detail) : (s.notifyBoth k d).periodList = s.periodList := rfl
@[simp] theorem State.notifyBoth_periodSeq (s : State) (k : NoticeKind) (d : Detail) : (s.notifyBoth k d).periodSeq = s.periodSeq := rfl
@[simp] theorem State.notifyBoth_quietLine (s : State) (k : NoticeKind) (d : Detail) : (s.notifyBoth k d).quietLine = s.quietLine := rfl
@[simp] theorem State.notifyBoth_store (s : State) (k : NoticeKind) (d : Detail) : (s.notifyBoth k d).store = s.store := rfl
@[simp] theorem State.notifyBoth_commissioning (s : State) (k : NoticeKind) (d : Detail) : (s.notifyBoth k d).commissioning = s.commissioning := rfl
@[simp] theorem State.notifyBoth_wx (s : State) (k : NoticeKind) (d : Detail) : (s.notifyBoth k d).wx = s.wx := rfl
@[simp] theorem State.notifyBoth_prot (s : State) (k : NoticeKind) (d : Detail) : (s.notifyBoth k d).prot = s.prot := rfl
@[simp] theorem State.notifyBoth_resetN (s : State) (k : NoticeKind) (d : Detail) : (s.notifyBoth k d).resetN = s.resetN := rfl
@[simp] theorem State.notifyBoth_supply (s : State) (k : NoticeKind) (d : Detail) : (s.notifyBoth k d).supply = s.supply := rfl
@[simp] theorem State.notifyBoth_resetCause (s : State) (k : NoticeKind) (d : Detail) : (s.notifyBoth k d).resetCause = s.resetCause := rfl
@[simp] theorem State.notifyBoth_clockLossFound (s : State) (k : NoticeKind) (d : Detail) : (s.notifyBoth k d).clockLossFound = s.clockLossFound := rfl
@[simp] theorem State.notifyBoth_orderUses (s : State) (k : NoticeKind) (d : Detail) : (s.notifyBoth k d).orderUses = s.orderUses := rfl
@[simp] theorem State.notifyBoth_pending (s : State) (k : NoticeKind) (d : Detail) : (s.notifyBoth k d).pending = s.pending := rfl

@[simp] theorem State.enqueue_channels (s : State) (w : StoreWrite) : (s.enqueue w).channels = s.channels := rfl
@[simp] theorem State.enqueue_line0 (s : State) (w : StoreWrite) : (s.enqueue w).line0 = s.line0 := rfl
@[simp] theorem State.enqueue_line1 (s : State) (w : StoreWrite) : (s.enqueue w).line1 = s.line1 := rfl
@[simp] theorem State.enqueue_clock (s : State) (w : StoreWrite) : (s.enqueue w).clock = s.clock := rfl
@[simp] theorem State.enqueue_entries (s : State) (w : StoreWrite) : (s.enqueue w).entries = s.entries := rfl
@[simp] theorem State.enqueue_header (s : State) (w : StoreWrite) : (s.enqueue w).header = s.header := rfl
@[simp] theorem State.enqueue_protection (s : State) (w : StoreWrite) : (s.enqueue w).protection = s.protection := rfl
@[simp] theorem State.enqueue_slots (s : State) (w : StoreWrite) : (s.enqueue w).slots = s.slots := rfl
@[simp] theorem State.enqueue_proposalSerial (s : State) (w : StoreWrite) : (s.enqueue w).proposalSerial = s.proposalSerial := rfl
@[simp] theorem State.enqueue_calUnit (s : State) (w : StoreWrite) : (s.enqueue w).calUnit = s.calUnit := rfl
@[simp] theorem State.enqueue_eventList (s : State) (w : StoreWrite) : (s.enqueue w).eventList = s.eventList := rfl
@[simp] theorem State.enqueue_eventSeq (s : State) (w : StoreWrite) : (s.enqueue w).eventSeq = s.eventSeq := rfl
@[simp] theorem State.enqueue_minuteRing (s : State) (w : StoreWrite) : (s.enqueue w).minuteRing = s.minuteRing := rfl
@[simp] theorem State.enqueue_minuteSeq (s : State) (w : StoreWrite) : (s.enqueue w).minuteSeq = s.minuteSeq := rfl
@[simp] theorem State.enqueue_periodList (s : State) (w : StoreWrite) : (s.enqueue w).periodList = s.periodList := rfl
@[simp] theorem State.enqueue_periodSeq (s : State) (w : StoreWrite) : (s.enqueue w).periodSeq = s.periodSeq := rfl
@[simp] theorem State.enqueue_site (s : State) (w : StoreWrite) : (s.enqueue w).site = s.site := rfl
@[simp] theorem State.enqueue_compliance (s : State) (w : StoreWrite) : (s.enqueue w).compliance = s.compliance := rfl
@[simp] theorem State.enqueue_quietLine (s : State) (w : StoreWrite) : (s.enqueue w).quietLine = s.quietLine := rfl
@[simp] theorem State.enqueue_commissioning (s : State) (w : StoreWrite) : (s.enqueue w).commissioning = s.commissioning := rfl
@[simp] theorem State.enqueue_wx (s : State) (w : StoreWrite) : (s.enqueue w).wx = s.wx := rfl
@[simp] theorem State.enqueue_prot (s : State) (w : StoreWrite) : (s.enqueue w).prot = s.prot := rfl
@[simp] theorem State.enqueue_resetN (s : State) (w : StoreWrite) : (s.enqueue w).resetN = s.resetN := rfl
@[simp] theorem State.enqueue_supply (s : State) (w : StoreWrite) : (s.enqueue w).supply = s.supply := rfl
@[simp] theorem State.enqueue_resetCause (s : State) (w : StoreWrite) : (s.enqueue w).resetCause = s.resetCause := rfl
@[simp] theorem State.enqueue_clockLossFound (s : State) (w : StoreWrite) : (s.enqueue w).clockLossFound = s.clockLossFound := rfl
@[simp] theorem State.enqueue_orderUses (s : State) (w : StoreWrite) : (s.enqueue w).orderUses = s.orderUses := rfl
@[simp] theorem State.enqueue_pending (s : State) (w : StoreWrite) : (s.enqueue w).pending = s.pending := rfl

@[simp] theorem State.beginStoreWrite_channels (s : State)  : (s.beginStoreWrite).channels = s.channels := rfl
@[simp] theorem State.beginStoreWrite_line0 (s : State)  : (s.beginStoreWrite).line0 = s.line0 := rfl
@[simp] theorem State.beginStoreWrite_line1 (s : State)  : (s.beginStoreWrite).line1 = s.line1 := rfl
@[simp] theorem State.beginStoreWrite_clock (s : State)  : (s.beginStoreWrite).clock = s.clock := rfl
@[simp] theorem State.beginStoreWrite_entries (s : State)  : (s.beginStoreWrite).entries = s.entries := rfl
@[simp] theorem State.beginStoreWrite_header (s : State)  : (s.beginStoreWrite).header = s.header := rfl
@[simp] theorem State.beginStoreWrite_protection (s : State)  : (s.beginStoreWrite).protection = s.protection := rfl
@[simp] theorem State.beginStoreWrite_slots (s : State)  : (s.beginStoreWrite).slots = s.slots := rfl
@[simp] theorem State.beginStoreWrite_proposalSerial (s : State)  : (s.beginStoreWrite).proposalSerial = s.proposalSerial := rfl
@[simp] theorem State.beginStoreWrite_calUnit (s : State)  : (s.beginStoreWrite).calUnit = s.calUnit := rfl
@[simp] theorem State.beginStoreWrite_eventList (s : State)  : (s.beginStoreWrite).eventList = s.eventList := rfl
@[simp] theorem State.beginStoreWrite_eventSeq (s : State)  : (s.beginStoreWrite).eventSeq = s.eventSeq := rfl
@[simp] theorem State.beginStoreWrite_minuteRing (s : State)  : (s.beginStoreWrite).minuteRing = s.minuteRing := rfl
@[simp] theorem State.beginStoreWrite_minuteSeq (s : State)  : (s.beginStoreWrite).minuteSeq = s.minuteSeq := rfl
@[simp] theorem State.beginStoreWrite_periodList (s : State)  : (s.beginStoreWrite).periodList = s.periodList := rfl
@[simp] theorem State.beginStoreWrite_periodSeq (s : State)  : (s.beginStoreWrite).periodSeq = s.periodSeq := rfl
@[simp] theorem State.beginStoreWrite_site (s : State)  : (s.beginStoreWrite).site = s.site := rfl
@[simp] theorem State.beginStoreWrite_compliance (s : State)  : (s.beginStoreWrite).compliance = s.compliance := rfl
@[simp] theorem State.beginStoreWrite_quietLine (s : State)  : (s.beginStoreWrite).quietLine = s.quietLine := rfl
@[simp] theorem State.beginStoreWrite_commissioning (s : State)  : (s.beginStoreWrite).commissioning = s.commissioning := rfl
@[simp] theorem State.beginStoreWrite_wx (s : State)  : (s.beginStoreWrite).wx = s.wx := rfl
@[simp] theorem State.beginStoreWrite_prot (s : State)  : (s.beginStoreWrite).prot = s.prot := rfl
@[simp] theorem State.beginStoreWrite_resetN (s : State)  : (s.beginStoreWrite).resetN = s.resetN := rfl
@[simp] theorem State.beginStoreWrite_supply (s : State)  : (s.beginStoreWrite).supply = s.supply := rfl
@[simp] theorem State.beginStoreWrite_resetCause (s : State)  : (s.beginStoreWrite).resetCause = s.resetCause := rfl
@[simp] theorem State.beginStoreWrite_clockLossFound (s : State)  : (s.beginStoreWrite).clockLossFound = s.clockLossFound := rfl
@[simp] theorem State.beginStoreWrite_orderUses (s : State)  : (s.beginStoreWrite).orderUses = s.orderUses := rfl
@[simp] theorem State.beginStoreWrite_pending (s : State)  : (s.beginStoreWrite).pending = s.pending := rfl

@[simp] theorem State.changeSlot_channels (s : State) (i : Fin 8) (x : Slot) : (s.changeSlot i x).channels = s.channels := rfl
@[simp] theorem State.changeSlot_line0 (s : State) (i : Fin 8) (x : Slot) : (s.changeSlot i x).line0 = s.line0 := rfl
@[simp] theorem State.changeSlot_line1 (s : State) (i : Fin 8) (x : Slot) : (s.changeSlot i x).line1 = s.line1 := rfl
@[simp] theorem State.changeSlot_clock (s : State) (i : Fin 8) (x : Slot) : (s.changeSlot i x).clock = s.clock := rfl
@[simp] theorem State.changeSlot_entries (s : State) (i : Fin 8) (x : Slot) : (s.changeSlot i x).entries = s.entries := rfl
@[simp] theorem State.changeSlot_header (s : State) (i : Fin 8) (x : Slot) : (s.changeSlot i x).header = s.header := rfl
@[simp] theorem State.changeSlot_protection (s : State) (i : Fin 8) (x : Slot) : (s.changeSlot i x).protection = s.protection := rfl
@[simp] theorem State.changeSlot_proposalSerial (s : State) (i : Fin 8) (x : Slot) : (s.changeSlot i x).proposalSerial = s.proposalSerial := rfl
@[simp] theorem State.changeSlot_calUnit (s : State) (i : Fin 8) (x : Slot) : (s.changeSlot i x).calUnit = s.calUnit := rfl
@[simp] theorem State.changeSlot_eventList (s : State) (i : Fin 8) (x : Slot) : (s.changeSlot i x).eventList = s.eventList := rfl
@[simp] theorem State.changeSlot_eventSeq (s : State) (i : Fin 8) (x : Slot) : (s.changeSlot i x).eventSeq = s.eventSeq := rfl
@[simp] theorem State.changeSlot_minuteRing (s : State) (i : Fin 8) (x : Slot) : (s.changeSlot i x).minuteRing = s.minuteRing := rfl
@[simp] theorem State.changeSlot_minuteSeq (s : State) (i : Fin 8) (x : Slot) : (s.changeSlot i x).minuteSeq = s.minuteSeq := rfl
@[simp] theorem State.changeSlot_periodList (s : State) (i : Fin 8) (x : Slot) : (s.changeSlot i x).periodList = s.periodList := rfl
@[simp] theorem State.changeSlot_periodSeq (s : State) (i : Fin 8) (x : Slot) : (s.changeSlot i x).periodSeq = s.periodSeq := rfl
@[simp] theorem State.changeSlot_quietLine (s : State) (i : Fin 8) (x : Slot) : (s.changeSlot i x).quietLine = s.quietLine := rfl
@[simp] theorem State.changeSlot_store (s : State) (i : Fin 8) (x : Slot) : (s.changeSlot i x).store = s.store := rfl
@[simp] theorem State.changeSlot_commissioning (s : State) (i : Fin 8) (x : Slot) : (s.changeSlot i x).commissioning = s.commissioning := rfl
@[simp] theorem State.changeSlot_wx (s : State) (i : Fin 8) (x : Slot) : (s.changeSlot i x).wx = s.wx := rfl
@[simp] theorem State.changeSlot_prot (s : State) (i : Fin 8) (x : Slot) : (s.changeSlot i x).prot = s.prot := rfl
@[simp] theorem State.changeSlot_resetN (s : State) (i : Fin 8) (x : Slot) : (s.changeSlot i x).resetN = s.resetN := rfl
@[simp] theorem State.changeSlot_supply (s : State) (i : Fin 8) (x : Slot) : (s.changeSlot i x).supply = s.supply := rfl
@[simp] theorem State.changeSlot_resetCause (s : State) (i : Fin 8) (x : Slot) : (s.changeSlot i x).resetCause = s.resetCause := rfl
@[simp] theorem State.changeSlot_clockLossFound (s : State) (i : Fin 8) (x : Slot) : (s.changeSlot i x).clockLossFound = s.clockLossFound := rfl
@[simp] theorem State.changeSlot_orderUses (s : State) (i : Fin 8) (x : Slot) : (s.changeSlot i x).orderUses = s.orderUses := rfl
@[simp] theorem State.changeSlot_pending (s : State) (i : Fin 8) (x : Slot) : (s.changeSlot i x).pending = s.pending := rfl

@[simp] theorem PortState.notify_quietRequest (x : PortState) (k : NoticeKind) (d : Detail) : (x.notify k d).quietRequest = x.quietRequest := rfl
@[simp] theorem PortState.notify_historyCursor (x : PortState) (k : NoticeKind) (d : Detail) : (x.notify k d).historyCursor = x.historyCursor := rfl
@[simp] theorem PortState.notify_periodCursor (x : PortState) (k : NoticeKind) (d : Detail) : (x.notify k d).periodCursor = x.periodCursor := rfl
@[simp] theorem PortState.notify_eventCursor (x : PortState) (k : NoticeKind) (d : Detail) : (x.notify k d).eventCursor = x.eventCursor := rfl
@[simp] theorem PortState.notify_lastResult (x : PortState) (k : NoticeKind) (d : Detail) : (x.notify k d).lastResult = x.lastResult := rfl
@[simp] theorem PortState.notify_transaction (x : PortState) (k : NoticeKind) (d : Detail) : (x.notify k d).transaction = x.transaction := rfl
@[simp] theorem PortState.notify_conditions (x : PortState) (k : NoticeKind) (d : Detail) : (x.notify k d).conditions = x.conditions := rfl

/-! ### Reading back what an update set -/

@[simp] theorem Quad.get_set_self {α : Type} (q : Quad α) (ch : Ch) (a : α) : (q.set ch a).get ch = a := by cases ch <;> rfl

theorem Quad.get_set_ne {α : Type} (q : Quad α) {ch ch' : Ch} (h : ch' ≠ ch) (a : α) : (q.set ch a).get ch' = q.get ch' := by
  cases ch <;> cases ch' <;> first | rfl | exact absurd rfl h

theorem Quad.get_set {α : Type} (q : Quad α) (ch ch' : Ch) (a : α) :
    (q.set ch a).get ch' = if ch' = ch then a else q.get ch' := by
  cases ch <;> cases ch' <;> rfl

@[simp] theorem State.chan_setChan_self (s : State) (ch : Ch) (c : Channel) : (s.setChan ch c).chan ch = c := by
  cases ch <;> rfl

theorem State.chan_setChan (s : State) (ch ch' : Ch) (c : Channel) :
    (s.setChan ch c).chan ch' = if ch' = ch then c else s.chan ch' := by cases ch <;> cases ch' <;> rfl

theorem State.chan_setChan_ne (s : State) {ch ch' : Ch} (h : ch' ≠ ch) (c : Channel) :
    (s.setChan ch c).chan ch' = s.chan ch' := by simp [State.chan_setChan, h]

@[simp] theorem State.setChan_setChan (s : State) (ch : Ch) (c c' : Channel) : (s.setChan ch c).setChan ch c' = s.setChan ch c' := by
  cases ch <;> rfl

@[simp] theorem State.setChan_chan (s : State) (ch : Ch) : s.setChan ch (s.chan ch) = s := by cases ch <;> rfl

@[simp] theorem State.port_setPort_self (s : State) (p : Port) (x : PortState) : (s.setPort p x).port p = x := by cases p <;> rfl

@[simp] theorem State.port_setPort_other (s : State) (p : Port) (x : PortState) : (s.setPort p x).port p.other = s.port p.other := by
  cases p <;> rfl

theorem State.port_setPort (s : State) (p q : Port) (x : PortState) :
    (s.setPort p x).port q = if q = p then x else s.port q := by cases p <;> cases q <;> rfl

@[simp] theorem State.setPort_setPort (s : State) (p : Port) (x y : PortState) : (s.setPort p x).setPort p y = s.setPort p y := by
  cases p <;> rfl

@[simp] theorem State.setPort_port (s : State) (p : Port) : s.setPort p (s.port p) = s := by cases p <;> rfl

@[simp] theorem State.rx_setRx_self (s : State) (l : Line) (r : LineRx) : (s.setRx l r).rx l = r := by cases l <;> rfl

theorem State.rx_setRx (s : State) (l l' : Line) (r : LineRx) :
    (s.setRx l r).rx l' = if l' = l then r else s.rx l' := by cases l <;> cases l' <;> rfl

@[simp] theorem State.chan_setPort (s : State) (p : Port) (x : PortState) (ch : Ch) : (s.setPort p x).chan ch = s.chan ch := by
  cases p <;> rfl

@[simp] theorem State.chan_setRx (s : State) (l : Line) (r : LineRx) (ch : Ch) : (s.setRx l r).chan ch = s.chan ch := by
  cases l <;> rfl

@[simp] theorem State.chan_notifyBoth (s : State) (k : NoticeKind) (d : Detail) (ch : Ch) :
    (s.notifyBoth k d).chan ch = s.chan ch := rfl

@[simp] theorem State.chan_notify (s : State) (p : Port) (k : NoticeKind) (d : Detail) (ch : Ch) :
    (s.notify p k d).chan ch = s.chan ch := by cases p <;> rfl

@[simp] theorem State.chan_enqueue (s : State) (w : StoreWrite) (ch : Ch) : (s.enqueue w).chan ch = s.chan ch := rfl

@[simp] theorem State.port_setChan (s : State) (ch : Ch) (c : Channel) (p : Port) : (s.setChan ch c).port p = s.port p := by
  cases p <;> rfl

@[simp] theorem State.rx_setChan (s : State) (ch : Ch) (c : Channel) (l : Line) : (s.setChan ch c).rx l = s.rx l := by
  cases l <;> rfl

@[simp] theorem State.port_notifyBoth (s : State) (k : NoticeKind) (d : Detail) (p : Port) :
    (s.notifyBoth k d).port p = (s.port p).notify k d := by cases p <;> rfl

theorem PortState.notice_notify (x : PortState) (k j : NoticeKind) (d : Detail) :
    (x.notify k d).notice j = if j = k then ⟨true, (x.notice k).enable, d⟩ else x.notice j := by
  unfold PortState.notify PortState.notice
  split
  · next h => subst h; simp
  · next h =>
    have : k.index ≠ j.index := by intro e; apply h; cases j <;> cases k <;> first | rfl | cases e
    simp only [Fin.getElem_fin]
    rw [Vector.getElem_set_ne]
    exact fun e => this (Fin.ext e)

end Sys2Proof.Machine
end

