-- ==== Sys2Proof/Laws/Effects.lean ====
section
/-! SUPPORT. Effects: once and for all, the single changes every command and event is made of. An invariant that each of them keeps is kept by every step. -/

namespace Sys2Proof.Machine

/-! ### The single changes -/

/-- A period account in which no minute has been entered, planned for at least one minute and at most a day. -/
def Period.untouched (p : Period) : Prop :=
  p.elapsed = 0 ∧ p.accounted = 0 ∧ p.impulsive = 0 ∧ p.lowFreq = 0 ∧ p.triggers = 0 ∧ p.breaches = 0 ∧
    1 ≤ p.planned ∧ p.planned ≤ 1440

/-- Who brings a change about: the port that sent the command, if one did; whether a channel's state may move, a line or a crystal period; whether a device
reset is part of it; and whether samples are. -/
structure Origin where
  port : Option Port
  moves : Bool
  reset : Bool
  samples : Bool

/-- A change of one channel that is not tied to any other part of the state. -/
inductive ChanEffect (k : Origin) (c : Channel) : Channel → Prop where
  | minuteClosed (n : MinuteOrAbsent) : ChanEffect k c { c with engine := { c.engine with minute := .empty }, minuteNo := n }
  | waits (w : Option WaitingClose) : ChanEffect k c { c with waiting := w }
  | minuteEntered (m : Summary) (low : Nat) : ChanEffect k c (c.enterMinute m low).chan
  | periodDropped : ChanEffect k c { c with period := none }
  | dayOpened (start allowance : Nat) : ChanEffect k c { c with day := some ⟨start, allowance, 0, 0, false⟩ }
  | periodOpened (p : Period) (h : p.untouched) : ChanEffect k c { c with period := some p }
  | switched (fs : Level) (h : c.pendingFs = some fs) :
      ChanEffect k c { c with fs := fs, calSeq := c.calSeq + 1, uncalibrated := false, pendingFs := none }
  | sliceCounted (r : SliceResult) : ChanEffect k c (c.countSlice r)
  | eventRuns (e e' : OpenEvent) (h : c.openEvent = some e) (h' : e'.sequence = e.sequence) :
      ChanEffect k c { c with openEvent := some e' }
  | continues (b : Bool) : ChanEffect k c { c with continuation := b }
  | sliceEnds (r : SliceResult) : ChanEffect k c { c with engine := c.engine.endSlice r }
  | blockEnds : ChanEffect k c { c with engine := c.engine.blockEnd }
  | takesSample (x : Sample) (h : c.engine.slice.blockCount < 48) (hk : k.samples = true) :
      ChanEffect k c { c with engine := c.engine.useSample x }
  | engineCleared : ChanEffect k c { c with engine := c.engine.clear }
  | counts (n : Nat) : ChanEffect k c { c with settle := n }
  | moves (x : ChannelState) (n : Nat) (h : x.inRun = c.state.inRun) (hk : k.moves = true) : ChanEffect k c { c with state := x, settle := n }
  | returnsOff (h : c.state.inRun = false) (hk : k.moves = true) :
      ChanEffect k c { c with state := .off, settle := 0, engine := c.engine.discardSlice }
  | starts (x : ChannelState) (h : c.state = .off) (h' : x = .settling ∨ x = .faulted) (hk : k.moves = true) :
      ChanEffect k c { c with settle := 0, engine := { c.engine.clear with slice := .empty }, state := x }

/-- A change of one receiver. -/
inductive LineEffect (r : LineRx) : LineRx → Prop where
  | noFrames : LineEffect r ⟨false, 0, 66⟩
  | restored : LineEffect r { r with present := true, run := 4800 }
  | frameUsed : LineEffect r { r with pause := 0 }
  | frameCounted (h : r.present = false) : LineEffect r { r with run := min (r.run + 1) 4800, pause := 0 }

/-- The enables of a port's notices. -/
def enablesOf (n : Vector Notice 15) : List Bool := n.toList.map Notice.enable

/-- One single change of the part, brought about by `k`. -/
inductive Effect (k : Origin) : State → State → Prop where
  | chan (s : State) (ch : Ch) (c : Channel) (h : ChanEffect k (s.chan ch) c) : Effect k s (s.setChan ch c)
  | line (s : State) (l : Line) (r : LineRx) (h : LineEffect (s.rx l) r) (hk : k.moves = true) : Effect k s (s.setRx l r)
  | clock (s : State) (c : Clock) : Effect k s { s with clock := c }
  | ticked (s : State) : Effect k s s.tickLapses
  | period (s : State) (hk : k.moves = true) : Effect k s s.countPeriod
  /-- Notices and conditions of a port; the enables stay. -/
  | notices (s : State) (p : Port) (n : Vector Notice 15) (c : Quad Causes) (h : enablesOf n = enablesOf (s.port p).notices) :
      Effect k s (s.setPort p { s.port p with notices := n, conditions := c })
  | minuteWritten (s : State) (r : MinuteRecord) (h : r.sequence = s.minuteSeq) :
      Effect k s { s with minuteRing := pushBounded 2048 s.minuteRing r, minuteSeq := s.minuteSeq + 1 }
  | periodWritten (s : State) (r : PeriodRecord) (h : r.sequence = s.periodSeq) :
      Effect k s { s with periodList := pushBounded 96 s.periodList r, periodSeq := s.periodSeq + 1 }
  | evaluated (s : State) (ch : Ch) : Effect k s (s.evaluateQuiet ch)
  | eventOpened (s : State) (ch : Ch) (r : SliceResult) (h : (s.chan ch).openEvent = none) : Effect k s (s.openEvent ch r)
  | eventClosed (s : State) (ch : Ch) (cause : EndCause) : Effect k s (s.closeEvent ch cause)
  | slot (s : State) (i : Fin 8) (x : Slot)
      (h : x.granted = true →
        (s.slots[i].granted = true ∧ x.channels = s.slots[i].channels ∧ x.start = s.slots[i].start ∧ x.stop = s.slots[i].stop) ∨
        k.port = some .compliance ∧ ∀ j, j ≠ i → x.clashes s.slots[j] = false) :
      Effect k s { s with slots := s.slots.set i x }
  | calTaken (s : State) (ch : Ch) (r : SliceResult) : Effect k s (s.calTakeSlice ch r)
  | runFaults (s : State) (ch : Ch) (hk : k.moves = true) : Effect k s ((s.endRun ch .fault).enter ch .faulted)
  | runStopped (s : State) (ch : Ch) (hk : k.moves = true) : Effect k s (s.switchOff ch)
  | runCompleted (s : State) (ch : Ch) (r : ReturnState) (h : (s.chan ch).state = .calibrating .calMeasure r)
      (hk : k.moves = true) :
      Effect k s ((s.completeRun ch).enter ch (.calibrating .calRecover r))
  | lapsed (s : State) (ch : Ch) : Effect k s (s.lapseResult ch)
  | channelQueued (s : State) (ch : Ch) : Effect k s (s.enqueue (.channel ch (s.chan ch).item))
  | writeBegun (s : State) : Effect k s s.beginStoreWrite
  | writeEnded (s : State) (b : Bool) : Effect k s (s.endStoreWrite b)
  | pins (s : State) (wx prot resetN supply found : Bool) (cause : ResetCause) (n : Nat) :
      Effect k s { s with wx := wx, prot := prot, resetN := resetN, supply := supply, clockLossFound := found
                          resetCause := cause, orderUses := n }
  -- commands of a port
  | transaction (s : State) (p : Port) (r : Result) (x : Transaction) (hk : k.port = some p) :
      Effect k s (s.setPort p { s.port p with lastResult := r, transaction := x })
  | readHistory (s : State) (p : Port) (n : Nat) (hk : k.port = some p) :
      Effect k s (s.setPort p ((s.port p).setHistoryCursor
        (window s.historyOldest s.minuteRing (s.port p).historyCursor n).cursor))
  | readPeriods (s : State) (p : Port) (n : Nat) (hk : k.port = some p) :
      Effect k s (s.setPort p ((s.port p).setPeriodCursor
        (window s.periodOldest s.periodList (s.port p).periodCursor n).cursor))
  | readEvents (s : State) (p : Port) (n : Nat) (hk : k.port = some p) :
      Effect k s (s.setPort p ((s.port p).setEventCursor (eventWindow s.eventList (s.port p).eventCursor n).cursor))
  | sought (s : State) (p : Port) (c : Collection) (x : Position) (n : Nat) (hk : k.port = some p) :
      Effect k s (s.setPort p ((s.port p).setCursor c (s.seekTarget c x n)))
  | rewound (s : State) (p : Port) (hk : k.port = some p) : Effect k s (s.rewindCursors p)
  | enabled (s : State) (p : Port) (n : Vector Notice 15) (c : Quad Causes) (hk : k.port = some p) :
      Effect k s (s.setPort p { s.port p with notices := n, conditions := c })
  | requested (s : State) (p : Port) (b : Bool) (hk : k.port = some p) : Effect k s (s.requestQuiet p b)
  | triggersSet (s : State) (m : ChannelMask) (t h : Int) (hk : k.port.isSome = true) :
      Effect k s (s.setTriggers m (clampTo 4000 14000 t) (clampTo 0 1000 h))
  | runStarted (s : State) (ch : Ch) (l : Level) (hr : s.calUnit.run = none) (hb : s.calibrateBarred ch = false)
      (hk : k.port.isSome = true) (hm : k.moves = true) : Effect k s (s.startRun ch l)
  | runAborted (s : State) (ch : Ch) (hk : k.port.isSome = true) (hm : k.moves = true) : Effect k s (s.abortRun ch)
  | proposed (s : State) (n : Serial) (hk : k.port = some .site) : Effect k s { s with proposalSerial := n }
  -- commands of the compliance port
  | excludedSet (s : State) (m : ChannelMask) (b : Bool) (hk : k.port = some .compliance) : Effect k s (s.excludeChannels m b)
  | decided (s : State) (ch : Ch) (o : CalOutcome) (r : PendingResult) (fs : Option Level)
      (hr : (s.chan ch).pendingResult = some r) (hf : fs = some r.newFs ∨ fs = (s.chan ch).pendingFs)
      (hk : k.port = some .compliance) : Effect k s (s.decideResult ch o fs)
  | entryChanged (s : State) (i : Fin 16) (e : Entry) (ht : s.store.canTake i.val = true)
      (hp : e.present = true → e.inRange = true ∧ (i = 0 ∨ s.entryOverlap i e = false)) (h0 : i = 0 → e.present = true)
      (hk : k.port = some .compliance) : Effect k s ({ s with entries := s.entries.set i e }.enqueue (.entry i e))
  | headerChanged (s : State) (h : Header) (ht : s.store.canTake 16 = true) (hr : h.inRange = true)
      (hk : k.port = some .compliance) :
      Effect k s ({ s with header := h }.enqueue (.header h))
  | protectionChanged (s : State) (x : Protection) (ht : s.store.canTake 17 = true) (hr : x.extent ≤ 16)
      (hk : k.port = some .compliance) :
      Effect k s ({ s with protection := x }.enqueue (.protection x))
  | commissioned (s : State) (r : Commissioning) (ht : s.store.canTake 22 = true) (hk : k.port = some .compliance) :
      Effect k s (s.recordCommissioning r)
  | reevaluated (s : State) (hk : k.port = some .compliance) : Effect k s s.reevaluateQuiet
  -- a device reset
  | resetBegun (s : State) (hk : k.reset = true) (hm : k.moves = true) : Effect k s s.beginReset
  | loaded (s : State) (hr : s.calUnit.run = none) (hc : ∀ ch, (s.chan ch).pendingResult = none) (hk : k.reset = true) :
      Effect k s s.loadStore
  | numbered (s : State) (hk : k.reset = true) : Effect k s s.numberMinutes

/-- A sequence of single changes. -/
def Effects (k : Origin) : State → State → Prop := Relation.ReflTransGen (Effect k)

/-- What every single change keeps, a sequence of them keeps. -/
theorem Effects.keeps {k : Origin} {P : State → Prop} (hP : ∀ s t, Effect k s t → P s → P t) {s t : State} (h : Effects k s t) :
    P s → P t := by
  intro hs
  induction h with
  | refl => exact hs
  | tail _ he ih => exact hP _ _ he ih

theorem Effects.refl (k : Origin) (s : State) : Effects k s s := Relation.ReflTransGen.refl

theorem Effects.trans {k : Origin} {s t u : State} (h : Effects k s t) (h' : Effects k t u) : Effects k s u :=
  Relation.ReflTransGen.trans h h'

theorem Effects.one {k : Origin} {s t : State} (h : Effect k s t) : Effects k s t := Relation.ReflTransGen.single h

/-- The part's own work. -/
def Origin.own : Origin := ⟨none, true, false, false⟩

/-! ### Lists of work -/

theorem Effects.foldl {α : Type} {k : Origin} (work : State → α → State) (h : ∀ s a, Effects k s (work s a)) :
    ∀ (l : List α) (s : State), Effects k s (l.foldl work s)
  | [], s => .refl k s
  | a :: l, s => (h s a).trans (Effects.foldl work h l (work s a))

theorem Effects.arrange {α : Type} {k : Origin} (s : State) (l : List α) : Effects k s (s.arrange l).2 := by
  unfold State.arrange
  split
  · exact .refl k s
  · exact .refl k s
  · exact .one (.pins s s.wx s.prot s.resetN s.supply s.clockLossFound s.resetCause (s.orderUses + 1))

theorem Effects.inAnyOrder {α : Type} {k : Origin} (work : State → α → State) (h : ∀ s a, Effects k s (work s a)) (s : State)
    (l : List α) : Effects k s (s.inAnyOrder l work) :=
  (Effects.arrange s l).trans (Effects.foldl work h _ _)

/-! ### Notices -/

theorem enablesOf_notify (x : PortState) (k : NoticeKind) (d : Detail) :
    enablesOf (x.notify k d).notices = enablesOf x.notices := by
  have h : (x.notify k d).notices.map Notice.enable = x.notices.map Notice.enable := by
    ext i hi
    simp only [PortState.notify, Vector.getElem_map]
    by_cases hk : i = k.index.val
    · subst hk; simp [PortState.notice]
    · rw [Vector.getElem_set_ne]; exact fun e => hk e.symm
  simpa [enablesOf, Vector.toList_map] using congrArg Vector.toList h

theorem Effects.notify (k : Origin) (s : State) (p : Port) (n : NoticeKind) (d : Detail) : Effects k s (s.notify p n d) :=
  .one (.notices s p _ (s.port p).conditions (enablesOf_notify (s.port p) n d))

theorem State.notifyBoth_eq (s : State) (n : NoticeKind) (d : Detail) :
    s.notifyBoth n d = (s.notify .site n d).notify .compliance n d := rfl

theorem Effects.notifyBoth (k : Origin) (s : State) (n : NoticeKind) (d : Detail) : Effects k s (s.notifyBoth n d) :=
  (Effects.notify k s .site n d).trans (Effects.notify k (s.notify .site n d) .compliance n d)

theorem Effects.lagRaised (k : Origin) (s : State) (n : Nat) (p : Port) : Effects k s (s.lagRaised n p) := by
  unfold State.lagRaised
  split
  · exact .notify k s p _ _
  · exact .refl k s

theorem enablesOf_takeCause (x : PortState) (r : MinuteRecord) (c : Cause) :
    enablesOf (x.takeCause r c).notices = enablesOf x.notices := by
  unfold PortState.takeCause
  split
  · exact enablesOf_notify _ _ _
  · rfl

theorem takeCause_rest (x : PortState) (r : MinuteRecord) (c : Cause) :
    x.takeCause r c = { x with notices := (x.takeCause r c).notices, conditions := (x.takeCause r c).conditions } := by
  unfold PortState.takeCause
  split <;> rfl

theorem takeCauses_rest (x : PortState) (r : MinuteRecord) :
    enablesOf (x.takeCauses r).notices = enablesOf x.notices ∧
      x.takeCauses r = { x with notices := (x.takeCauses r).notices, conditions := (x.takeCauses r).conditions } := by
  have step : ∀ (l : List Cause) (y : PortState), enablesOf y.notices = enablesOf x.notices →
      y = { x with notices := y.notices, conditions := y.conditions } →
      enablesOf (l.foldl (fun z c => z.takeCause r c) y).notices = enablesOf x.notices ∧
        l.foldl (fun z c => z.takeCause r c) y = { x with
          notices := (l.foldl (fun z c => z.takeCause r c) y).notices
          conditions := (l.foldl (fun z c => z.takeCause r c) y).conditions } := by
    intro l
    induction l with
    | nil => intro y h h'; exact ⟨h, h'⟩
    | cons c l ih =>
      intro y h h'
      refine ih (y.takeCause r c) ((enablesOf_takeCause y r c).trans h) ?_
      have h1 := takeCause_rest y r c
      have e : ∀ (n : Vector Notice 15) (q : Quad Causes), { y with notices := n, conditions := q } =
          { x with notices := n, conditions := q } := by intro n q; rw [h']
      exact h1.trans (e _ _)
  exact step Cause.list x rfl rfl

theorem Effects.takeCauses (k : Origin) (s : State) (p : Port) (r : MinuteRecord) :
    Effects k s (s.setPort p ((s.port p).takeCauses r)) := by
  have h := takeCauses_rest (s.port p) r
  rw [h.2]
  exact .one (.notices s p _ _ h.1)

end Sys2Proof.Machine
end

