-- ==== Sys2Proof/Laws/OwnWork.lean ====
section
/-! SUPPORT. OwnWork: the shared operations of the part, each a sequence of the single changes of Effects. -/

namespace Sys2Proof.Machine

variable {k : Origin}

theorem Effects.tail {s t u : State} (h : Effects k s t) (h' : Effect k t u) : Effects k s u := Relation.ReflTransGen.tail h h'

theorem Effects.setChan (s : State) (ch : Ch) {c : Channel} (h : ChanEffect k (s.chan ch) c) : Effects k s (s.setChan ch c) :=
  .one (.chan s ch c h)

/-! ### The account unit -/

theorem effects_writeMinuteRecord (s : State) (r : MinuteRecord) (h : r.sequence = s.minuteSeq) :
    Effects k s (s.writeMinuteRecord r) := by
  delta State.writeMinuteRecord
  extract_lets l1 l2 s1 s2 s3
  have h1 : Effects k s s1 := .one (.minuteWritten s r h)
  have h2 : Effects k s1 s2 := .notifyBoth k _ _ _
  have h3 : Effects k s2 s3 := .trans (.takeCauses k _ .site r) (.takeCauses k _ .compliance r)
  exact h1.trans (h2.trans (h3.trans (.trans (.lagRaised k _ _ _) (.lagRaised k _ _ _))))

/-- A notice set where a condition holds. -/
theorem Effects.notifyIf (s : State) (b : Bool) (n : NoticeKind) (d : Detail) :
    Effects k s (if b then s.notifyBoth n d else s) := by
  split
  · exact .notifyBoth k _ _ _
  · exact .refl k _

theorem State.minuteSeq_notifyIf (s : State) (b : Bool) (n : NoticeKind) (d : Detail) :
    (if b then s.notifyBoth n d else s).minuteSeq = s.minuteSeq := by split <;> rfl

theorem effects_enterMinute (s : State) (m : Summary) : Effects k s (s.enterMinute m) := by
  delta State.enterMinute
  extract_lets e seq r s1 s2 s3
  have h1 : Effects k s s1 := .setChan s m.ch (.minuteEntered m s.header.lowMark)
  have h2 : Effects k s1 s2 := .notifyIf _ _ _ _
  have h3 : Effects k s2 s3 := .notifyIf _ _ _ _
  have e2 : s2.minuteSeq = s.minuteSeq := State.minuteSeq_notifyIf _ _ _ _
  have e3 : s3.minuteSeq = s2.minuteSeq := State.minuteSeq_notifyIf _ _ _ _
  exact h1.trans (h2.trans (h3.trans (effects_writeMinuteRecord s3 r (e3.trans e2).symm)))

theorem effects_closePeriod (s : State) (ch : Ch) (p : Period) (c : CloseCause) : Effects k s (s.closePeriod ch p c) := by
  delta State.closePeriod
  extract_lets r s1 _ s2 s3
  have h1 : Effects k s s1 := .one (.periodWritten s _ rfl)
  have h2 : Effects k s1 s2 := .setChan _ ch .periodDropped
  have h3 : Effects k s2 s3 := .notifyBoth k _ _ _
  refine h1.trans (h2.trans (h3.trans ?_))
  split
  · exact .notifyBoth k _ _ _
  · exact .refl k _

theorem effects_closeIfDue (s : State) (ch : Ch) (b : Bool) (n : Nat) : Effects k s (s.closeIfDue ch b n) := by
  unfold State.closeIfDue
  split
  · exact .refl k s
  · split
    · exact .refl k s
    · exact effects_closePeriod s ch _ _

theorem State.plannedAfter_le (s : State) (ch : Ch) (src : Source) : ∀ fuel n, s.plannedAfter ch src fuel n ≤ fuel
  | 0, _ => Nat.le_refl 0
  | fuel + 1, n => by
    unfold State.plannedAfter
    split
    · exact Nat.zero_le _
    · exact Nat.succ_le_succ (State.plannedAfter_le s ch src fuel (n + 1))

theorem State.newPeriod_untouched (s : State) (ch : Ch) (n : Nat) : (s.newPeriod ch n).untouched :=
  ⟨rfl, rfl, rfl, rfl, rfl, rfl, Nat.succ_le_succ (Nat.zero_le _),
    Nat.succ_le_succ (State.plannedAfter_le s ch _ 1439 n)⟩

theorem effects_lookAhead (s : State) (ch : Ch) (b : Bool) (n : Nat) : Effects k s (s.lookAhead ch b n) := by
  delta State.lookAhead
  extract_lets o s1 s2
  have h1 : Effects k s s1 := effects_closeIfDue s ch b n
  have h2 : Effects k s1 s2 := by
    show Effects k s1 (if o = true then s1.openDay ch n else s1)
    split
    · exact .setChan s1 ch (.dayOpened _ _)
    · exact .refl k s1
  refine h1.trans (h2.trans ?_)
  split
  · exact .setChan _ ch (.periodOpened _ (State.newPeriod_untouched _ ch n))
  · exact .refl k _

theorem effects_accountMinute (s : State) (m : Summary) : Effects k s (s.accountMinute m) := by
  delta State.accountMinute
  extract_lets s1 s2
  have h1 : Effects k s s1 := effects_enterMinute s m
  have h2 : Effects k s1 s2 := by
    show Effects k s1 (match m.boundary.next with
      | none => s1
      | some n => s1.lookAhead m.ch m.boundary.timeSet n)
    split
    · exact .refl k s1
    · exact effects_lookAhead _ _ _ _
  exact h1.trans (h2.trans (.one (.evaluated _ _)))

theorem Effects.queueItem (s : State) (ch : Ch) (c : Channel) :
    Effects k (s.setChan ch c) ((s.setChan ch c).enqueue (.channel ch c.item)) := by
  have h := Effect.channelQueued (k := k) (s.setChan ch c) ch
  rw [State.chan_setChan_self] at h
  exact .one h

theorem effects_switchFs (s : State) (ch : Ch) : Effects k s (s.switchFs ch) := by
  unfold State.switchFs
  split
  · exact .refl k s
  · rename_i fs h
    exact .trans (.setChan s ch (.switched fs h)) (.trans (.queueItem s ch _) (.notifyBoth k _ _ _))

/-! ### Closing a minute -/

theorem effects_closeMinute (s : State) (ch : Ch) (w : WaitingClose) : Effects k s (s.closeMinute ch w) := by
  delta State.closeMinute
  extract_lets c m _ s1 s2
  have h1 : Effects k s s1 := .setChan s ch (.minuteClosed _)
  have h2 : Effects k s1 s2 := effects_accountMinute _ _
  refine h1.trans (h2.trans ?_)
  split
  · exact effects_switchFs _ ch
  · exact .refl k _

theorem effects_closeWaiting (s : State) (ch : Ch) : Effects k s (s.closeWaiting ch) := by
  unfold State.closeWaiting
  split
  · exact .refl k s
  · exact .trans (.setChan s ch (.waits none)) (effects_closeMinute _ ch _)

theorem effects_receiveBoundary (b : Boundary) (s : State) (ch : Ch) : Effects k s (s.receiveBoundary b ch) := by
  unfold State.receiveBoundary
  split
  · exact effects_closeMinute s ch _
  · exact .trans (effects_closeWaiting s ch) (.setChan _ ch (.waits _))

theorem Slot.atMinute_granted (x y : Slot) (n : Nat) (h : x.atMinute n = some y) (hy : y.granted = true) :
    x.granted = true ∧ y.channels = x.channels ∧ y.start = x.start ∧ y.stop = x.stop := by
  unfold Slot.atMinute at h
  cases hx : x.state <;> simp only [hx] at h
  all_goals repeat' split at h
  all_goals first
    | (obtain rfl := Option.some.inj h; simp_all [Slot.granted])
    | simp at h

theorem effects_changeSlot (s : State) (i : Fin 8) (x : Slot)
    (h : x.granted = true →
      (s.slots[i].granted = true ∧ x.channels = s.slots[i].channels ∧ x.start = s.slots[i].start ∧ x.stop = s.slots[i].stop) ∨
      k.port = some .compliance ∧ ∀ j, j ≠ i → x.clashes s.slots[j] = false) : Effects k s (s.changeSlot i x) :=
  .trans (.one (.slot s i x h)) (.notifyBoth k _ _ _)

theorem effects_moveSlot (n : Nat) (s : State) (i : Fin 8) : Effects k s (s.moveSlot n i) := by
  unfold State.moveSlot
  split
  · exact .refl k s
  · rename_i x h
    exact effects_changeSlot s i x fun hx => .inl (Slot.atMinute_granted _ _ _ h hx)

theorem effects_moveSlots (s : State) (n : MinuteOrAbsent) : Effects k s (s.moveSlots n) := by
  unfold State.moveSlots
  split
  · exact .refl k s
  · exact .inAnyOrder _ (effects_moveSlot _) s _

theorem effects_deliver (s : State) (b : Boundary) : Effects k s (s.deliver b) := by
  unfold State.deliver
  split
  · exact .trans (effects_moveSlots s b.next)
      (.trans (.inAnyOrder _ (effects_receiveBoundary b) _ _) (.foldl _ (effects_receiveBoundary b) _ _))
  · exact .refl k s

theorem effects_emitBoundary (s : State) : Effects k s s.emitBoundary := by
  unfold State.emitBoundary
  split
  · exact .trans (.one (.clock s _)) (effects_deliver _ _)
  · exact .refl k s

/-! ### Slice ends -/

theorem OpenEvent.takeSlice_sequence (e : OpenEvent) (l : Level) (r : SliceResult) : (e.takeSlice l r).sequence = e.sequence := by
  unfold OpenEvent.takeSlice
  dsimp only
  split <;> rfl

theorem effects_setContinuation (s : State) (ch : Ch) (b : Bool) : Effects k s (s.setContinuation ch b) :=
  .setChan s ch (.continues b)

theorem effects_detectSlice (s : State) (ch : Ch) (r : SliceResult) : Effects k s (s.detectSlice ch r) := by
  unfold State.detectSlice
  dsimp only
  split
  · rename_i h
    refine .trans ?_ (effects_setContinuation _ ch false)
    split
    · exact .one (.eventOpened s ch r h)
    · exact .refl k s
  · rename_i e h
    split
    · exact .trans (.one (.eventClosed s ch _)) (effects_setContinuation _ ch false)
    · have run : Effects k s (s.setChan ch { s.chan ch with openEvent := some (e.takeSlice (s.chan ch).release r) }) :=
        .setChan s ch (.eventRuns e _ h (OpenEvent.takeSlice_sequence _ _ _))
      split
      · exact run.trans (.trans (.one (.eventClosed _ ch _)) (effects_setContinuation _ ch false))
      · split
        · exact run.trans (.trans (.one (.eventClosed _ ch _)) (effects_setContinuation _ ch true))
        · exact run.trans (effects_setContinuation _ ch false)

theorem effects_handOn (s : State) (ch : Ch) (r : SliceResult) : Effects k s (s.handOn ch r) := by
  unfold State.handOn
  exact .trans (.setChan s ch (.sliceCounted r)) (.trans (effects_detectSlice _ ch r)
    (.trans (.one (.calTaken _ ch r)) (.setChan _ ch (.sliceEnds r))))

theorem effects_enter (hk : k.moves = true) (s : State) (ch : Ch) (x : ChannelState) (h : x.inRun = (s.chan ch).state.inRun) :
    Effects k s (s.enter ch x) := .setChan s ch (.moves x 0 h hk)

theorem effects_returnToOff (hk : k.moves = true) (s : State) (ch : Ch) (h : (s.chan ch).state.inRun = false) :
    Effects k s (s.returnToOff ch) :=
  .trans (.setChan s ch (.returnsOff h hk)) (.notifyBoth k _ _ _)

theorem effects_settleProgress (hk : k.moves = true) (s : State) (ch : Ch) : Effects k s (s.settleProgress ch) := by
  delta State.settleProgress
  extract_lets c more
  have hm : Effects k s more := .setChan s ch (.counts _)
  split
  · exact .refl k s
  · exact .refl k s
  · exact .refl k s
  · rename_i h; split
    · exact effects_enter hk s ch _ (by rw [show (s.chan ch).state = _ from h]; rfl)
    · exact hm
  · rename_i h; split
    · exact effects_enter hk s ch _ (by rw [show (s.chan ch).state = _ from h]; rfl)
    · exact hm
  · rename_i r h; split
    · exact .one (.runCompleted s ch r h hk)
    · exact hm
  · rename_i h; split
    · exact effects_enter hk s ch _ (by rw [show (s.chan ch).state = _ from h]; rfl)
    · exact hm
  · rename_i h; split
    · exact effects_returnToOff hk s ch (by rw [show (s.chan ch).state = _ from h]; rfl)
    · exact hm

theorem effects_endSlice (hk : k.moves = true) (s : State) (ch : Ch) : Effects k s (s.endSlice ch) :=
  .trans (effects_handOn s ch _) (.trans (effects_settleProgress hk _ ch) (effects_closeWaiting _ ch))

theorem effects_cutSlice (s : State) (ch : Ch) : Effects k s (s.cutSlice ch) :=
  .trans (effects_handOn s ch _) (effects_closeWaiting _ ch)

theorem effects_blockEnd (s : State) (ch : Ch) : Effects k s (s.blockEnd ch) := by
  unfold State.blockEnd
  split
  · exact .setChan s ch .blockEnds
  · exact .refl k s

theorem effects_frameSliceEnd (hk : k.moves = true) (s : State) (ch : Ch) : Effects k s (s.frameSliceEnd ch) := by
  unfold State.frameSliceEnd
  split
  · exact .trans (effects_blockEnd s ch) (effects_endSlice hk _ ch)
  · exact .refl k s

theorem effects_crystalSliceEnd (hk : k.moves = true) (s : State) (ch : Ch) : Effects k s (s.crystalSliceEnd ch) := by
  unfold State.crystalSliceEnd
  split
  · exact effects_endSlice hk s ch
  · exact .refl k s

end Sys2Proof.Machine
end

