-- ==== Sys2Proof/Laws/Timing.lean ====
section
/-! SUPPORT. Timing: lines, frames, starting and stopping, and the steps that fall due, each a sequence of the single changes of Effects. -/

namespace Sys2Proof.Machine

variable {k : Origin}

/-! ### What no slice's work moves: the channel states -/

theorem ChanEffect.keeps_state (hm : k.moves = false) {c c' : Channel} (h : ChanEffect k c c') : c'.state = c.state := by
  cases h with
  | moves _ _ _ hk => simp [hm] at hk
  | returnsOff _ hk => simp [hm] at hk
  | starts _ _ _ hk => simp [hm] at hk
  | minuteEntered m low =>
    unfold Channel.enterMinute
    split
    · dsimp only; split
      · split <;> rfl
      · rfl
    · rfl
  | sliceCounted r => unfold Channel.countSlice; split <;> rfl
  | _ => rfl

theorem State.chan_bringQuiet (s : State) (c ch : Ch) (i : QuietInput) : (s.bringQuiet c i).chan ch = s.chan ch := by
  unfold State.bringQuiet; split <;> rfl

theorem State.state_concludeRecord (s : State) (c ch : Ch) (o : CalOutcome) :
    ((s.concludeRecord c o).chan ch).state = (s.chan ch).state := by
  unfold State.concludeRecord
  rw [State.chan_setChan]; split
  · rename_i h; subst h; rfl
  · rfl

theorem State.crystalChannel_state (s : State) (ch : Ch) : (s.crystalChannel ch).state = (s.chan ch).state := by
  unfold State.crystalChannel
  dsimp only
  split <;> rfl

theorem Effect.keeps_state (hp : k.port = none) (hm : k.moves = false) (hr : k.reset = false) {s t : State} (h : Effect k s t)
    (ch : Ch) : (t.chan ch).state = (s.chan ch).state := by
  have set : ∀ (s : State) (c : Ch) (x : Channel), x.state = (s.chan c).state →
      ((s.setChan c x).chan ch).state = (s.chan ch).state := by
    intro s c x hx
    rw [State.chan_setChan]
    split
    · rename_i e; subst e; exact hx
    · rfl
  cases h with
  | chan c x hx => exact set s c x (hx.keeps_state hm)
  | line l r hx _ => rw [State.chan_setRx]
  | clock => rfl
  | ticked =>
    cases ch
    all_goals
      simp only [State.tickLapses, State.chan, Quad.get, Channel.tickLapse]
      split <;> rfl
  | period =>
    unfold State.countPeriod
    dsimp only
    split
    · cases ch <;> exact State.crystalChannel_state _ _
    · rfl
  | notices p n c hx => rw [State.chan_setPort]
  | minuteWritten => rfl
  | periodWritten => rfl
  | evaluated c =>
    unfold State.evaluateQuiet
    rw [State.chan_bringQuiet]
    exact set s c _ rfl
  | eventOpened c r hx =>
    delta State.openEvent
    extract_lets
    exact set _ c _ rfl
  | eventClosed c cause =>
    unfold State.closeEvent
    dsimp only
    split
    · rfl
    · exact set _ c _ rfl
  | slot => rfl
  | calTaken c r =>
    unfold State.calTakeSlice
    split
    · rfl
    · split <;> rfl
  | lapsed c =>
    unfold State.lapseResult
    split
    · show (((State.concludeRecord _ _ _).notifyBoth _ _).chan ch).state = _
      rw [State.chan_notifyBoth, State.state_concludeRecord]
      exact set s c _ rfl
    · rfl
  | channelQueued c => rfl
  | writeBegun => rfl
  | writeEnded b =>
    unfold State.endStoreWrite
    split
    · rfl
    · split <;> rfl
  | pins => rfl
  | runFaults _ hk => simp [hm] at hk
  | runStopped _ hk => simp [hm] at hk
  | runCompleted _ _ _ hk => simp [hm] at hk
  | runStarted _ _ _ _ hk _ => simp [hp] at hk
  | runAborted _ hk _ => simp [hp] at hk
  | triggersSet _ _ _ hk => simp [hp] at hk
  | resetBegun hk _ => simp [hr] at hk
  | loaded _ _ hk => simp [hr] at hk
  | numbered hk => simp [hr] at hk
  | transaction _ _ _ hk => simp [hp] at hk
  | readHistory _ _ hk => simp [hp] at hk
  | readPeriods _ _ hk => simp [hp] at hk
  | readEvents _ _ hk => simp [hp] at hk
  | sought _ _ _ _ hk => simp [hp] at hk
  | rewound _ hk => simp [hp] at hk
  | enabled _ _ _ hk => simp [hp] at hk
  | requested _ _ hk => simp [hp] at hk
  | proposed _ hk => simp [hp] at hk
  | excludedSet _ _ hk => simp [hp] at hk
  | decided _ _ _ _ _ _ hk => simp [hp] at hk
  | entryChanged _ _ _ _ _ hk => simp [hp] at hk
  | headerChanged _ _ _ hk => simp [hp] at hk
  | protectionChanged _ _ _ hk => simp [hp] at hk
  | commissioned _ _ hk => simp [hp] at hk
  | reevaluated hk => simp [hp] at hk

/-- A cut slice moves no channel's state (R3, R4). -/
theorem State.state_cutSlice (s : State) (c ch : Ch) : ((s.cutSlice c).chan ch).state = (s.chan ch).state :=
  Effects.keeps (k := ⟨none, false, false, false⟩) (P := fun t => (t.chan ch).state = (s.chan ch).state)
    (fun _ _ h e => (h.keeps_state rfl rfl rfl ch).trans e) (effects_cutSlice s c) rfl

/-! ### Lines and frames -/

theorem effects_loseChannel (hk : k.moves = true) (s : State) (ch : Ch) : Effects k s (s.loseChannel ch) := by
  unfold State.loseChannel
  split
  · exact .refl k s
  · exact .refl k s
  · exact .trans (effects_cutSlice s ch) (.trans (.one (.runFaults _ ch hk)) (.notifyBoth k _ _ _))

theorem effects_lineLost (hk : k.moves = true) (s : State) (l : Line) : Effects k s (s.lineLost l) := by
  unfold State.lineLost
  have h : Effects k s (s.setRx l ⟨false, 0, 66⟩) := .one (.line s l _ .noFrames hk)
  split
  · split
    · exact h.trans (.inAnyOrder _ (effects_loseChannel hk) _ _)
    · exact h
  · exact .refl k s

theorem effects_restoreChannel (hk : k.moves = true) (s : State) (ch : Ch) : Effects k s (s.restoreChannel ch) := by
  unfold State.restoreChannel
  split
  · rename_i h
    exact .trans (effects_cutSlice s ch) (.trans
      (effects_enter hk _ ch .settling (by rw [State.state_cutSlice, h]; rfl))
      (.trans (.setChan _ ch .engineCleared) (.notifyBoth k _ _ _)))
  · exact .refl k s

theorem effects_lineRestored (hk : k.moves = true) (s : State) (l : Line) : Effects k s (s.lineRestored l) := by
  unfold State.lineRestored
  split
  · exact .trans (.one (.line s l _ .restored hk)) (.inAnyOrder _ (effects_restoreChannel hk) _ _)
  · exact .refl k s

/-- One channel of a line takes its sample, unless it is OFF (R1). -/
def State.useFrame (s : State) (ch : Ch) (x : Sample) : State :=
  if (s.chan ch).state = .off then s else s.setChan ch { s.chan ch with engine := (s.chan ch).engine.useSample x }

theorem effects_useFrame (hk : k.samples = true) (s : State) (ch : Ch) (x : Sample)
    (h : (s.chan ch).engine.slice.blockCount < 48) : Effects k s (s.useFrame ch x) := by
  unfold State.useFrame
  split
  · exact .refl k s
  · exact .setChan s ch (.takesSample x h hk)

theorem State.useFrame_ne (s : State) {ch ch' : Ch} (h : ch' ≠ ch) (x : Sample) : (s.useFrame ch x).chan ch' = s.chan ch' := by
  unfold State.useFrame
  split
  · rfl
  · exact State.chan_setChan_ne s h _

theorem effects_takeFrame (hk : k.samples = true) (hm : k.moves = true) (s : State) (l : Line) (a b : Sample)
    (h : ∀ ch, (s.chan ch).engine.slice.blockCount < 48) : Effects k s (s.takeFrame l a b) := by
  unfold State.takeFrame
  dsimp only
  split
  · have two : ∀ (t : State) (c d : Ch), d ≠ c → (∀ ch, (t.chan ch).engine.slice.blockCount < 48) →
        Effects k t ((t.useFrame c a).useFrame d b) := fun t c d n ht =>
      .trans (effects_useFrame hk t c a (ht c)) (effects_useFrame hk _ d b (by rw [State.useFrame_ne t n]; exact ht d))
    refine .trans (.one (.line s l _ .frameUsed hm)) ?_
    cases l
    · exact two (s.setRx .line0 _) .ch0 .ch1 (by decide) h
    · exact two (s.setRx .line1 _) .ch2 .ch3 (by decide) h
  · rename_i h
    exact .one (.line s l _ (.frameCounted (by simpa using h)) hm)

/-! ### Starting and stopping -/

theorem effects_startChannel (hk : k.moves = true) (s : State) (ch : Ch) : Effects k s (s.startChannel ch) := by
  unfold State.startChannel
  split
  · rename_i h
    dsimp only
    split
    · exact .setChan s ch (.starts .settling h (.inl rfl) hk)
    · exact .trans (.setChan s ch (.starts .faulted h (.inr rfl) hk)) (.notifyBoth k _ _ _)
  · exact .refl k s

theorem effects_startChannels (hk : k.moves = true) (s : State) (m : ChannelMask) : Effects k s (s.startChannels m) :=
  .inAnyOrder _ (effects_startChannel hk) _ _

theorem effects_stopChannel (hk : k.moves = true) (s : State) (ch : Ch) : Effects k s (s.stopChannel ch) := by
  unfold State.stopChannel
  split
  · exact .refl k s
  · exact .trans (.one (.eventClosed s ch _)) (.trans (.one (.runStopped _ ch hk))
      (.trans (.notifyBoth k _ _ _) (effects_closeWaiting _ ch)))

theorem effects_stopChannels (hk : k.moves = true) (s : State) (m : ChannelMask) : Effects k s (s.stopChannels m) :=
  .inAnyOrder _ (effects_stopChannel hk) _ _

/-! ### The steps that fall due -/

theorem effects_takeDue (hk : k.moves = true) (s : State) (x : DueStep) : Effects k s (s.takeDue x) := by
  cases x with
  | slice ch => exact effects_frameSliceEnd hk s ch
  | restored l => exact effects_lineRestored hk s l
  | lapse ch => exact .one (.lapsed s ch)
  | boundary => exact effects_emitBoundary s

theorem effects_settle (hk : k.moves = true) (s : State) : Effects k s s.settle :=
  .trans (.foldl _ effects_blockEnd Ch.list s)
    (.trans (.inAnyOrder _ (effects_takeDue hk) _ _) (.one (.writeBegun _)))

/-- R44, R122: a tick of elapsed clock time moves the lapse counts and nothing else. -/
@[simp] theorem State.tickLapses_chan (s : State) (ch : Ch) : s.tickLapses.chan ch = (s.chan ch).tickLapse := by cases ch <;> rfl
@[simp] theorem State.tickLapses_clock (s : State) : s.tickLapses.clock = s.clock := rfl

/-- R42, R122: what a run of elapsed clock time leaves on the clock, and on a channel. -/
theorem State.elapse_clock (s : State) (n : Nat) : (s.elapse n).clock = { s.clock with
    elapsed := if s.clock.elapsed + n < 32768 then s.clock.elapsed + n else s.clock.elapsed + n - 32768 } := by
  unfold State.elapse
  dsimp only
  by_cases h : s.clock.elapsed + n < 32768
  · simp only [h, if_true]
  · simp only [h, if_false, State.tickLapses_clock]

theorem State.elapse_chan (s : State) (n : Nat) (ch : Ch) :
    (s.elapse n).chan ch = if s.clock.elapsed + n < 32768 then s.chan ch else (s.chan ch).tickLapse := by
  unfold State.elapse
  dsimp only
  by_cases h : s.clock.elapsed + n < 32768
  · simp only [h, if_true, State.chan]
  · simp only [h, if_false, State.tickLapses_chan]
    simp only [State.chan]

theorem effects_elapse (s : State) (n : Nat) : Effects k s (s.elapse n) := by
  unfold State.elapse
  dsimp only
  split
  · exact .one (.clock s _)
  · exact .trans (.one (.clock s _)) (.one (.ticked _))

theorem effects_secondElapsed (s : State) : Effects k s s.secondElapsed :=
  .trans (effects_elapse s _) (.one (.clock _ _))

theorem effects_takeCrystal (hk : k.moves = true) (s : State) (x : CrystalStep) : Effects k s (s.takeCrystal x) := by
  cases x with
  | second => exact .trans (effects_secondElapsed s) (effects_settle hk _)
  | elapsed => exact .trans (effects_elapse s 0) (effects_settle hk _)
  | pause l => exact .trans (effects_lineLost hk s l) (effects_settle hk _)
  | slice ch => exact .trans (effects_crystalSliceEnd hk s ch) (effects_settle hk _)

theorem effects_crystalPeriod (hk : k.moves = true) (s : State) : Effects k s s.crystalPeriod :=
  .trans (effects_settle hk s) (.trans (.one (.period _ hk)) (.inAnyOrder _ (effects_takeCrystal hk) _ _))

/-! ### No block is complete once what was due is done -/

/-- Fewer than 48 samples stand in every channel's block (R25). -/
def State.BlocksShort (s : State) : Prop := ∀ ch, (s.chan ch).engine.slice.blockCount < 48

theorem ChanEffect.keeps_short (hs : k.samples = false) {c c' : Channel} (h : ChanEffect k c c')
    (hc : c.engine.slice.blockCount < 48) : c'.engine.slice.blockCount < 48 := by
  cases h with
  | takesSample _ _ hk => simp [hs] at hk
  | minuteEntered m low =>
    unfold Channel.enterMinute
    split
    · dsimp only; split
      · split <;> exact hc
      · exact hc
    · exact hc
  | sliceCounted r => unfold Channel.countSlice; split <;> exact hc
  | sliceEnds => exact Nat.succ_pos 47
  | blockEnds => exact Nat.succ_pos 47
  | returnsOff => exact Nat.succ_pos 47
  | starts => exact Nat.succ_pos 47
  | _ => exact hc

theorem State.BlocksShort.setChan {s : State} (h : s.BlocksShort) (ch : Ch) {c : Channel} (hc : c.engine.slice.blockCount < 48) :
    (s.setChan ch c).BlocksShort := by
  intro ch'
  rw [State.chan_setChan]
  split
  · exact hc
  · exact h ch'

theorem State.BlocksShort.concludeRecord {s : State} (h : s.BlocksShort) (ch : Ch) (o : CalOutcome) :
    (s.concludeRecord ch o).BlocksShort := h.setChan ch (h ch)

theorem State.BlocksShort.endRun {s : State} (h : s.BlocksShort) (ch : Ch) (o : CalOutcome) : (s.endRun ch o).BlocksShort := by
  unfold State.endRun
  split
  · exact State.BlocksShort.concludeRecord (s := { s with calUnit := _ }) h ch o
  · exact h

theorem Effect.keeps_short {s t : State} (h : Effect Origin.own s t) (hs : s.BlocksShort) : t.BlocksShort := by
  cases h with
  | chan c x hx => exact hs.setChan c (hx.keeps_short rfl (hs c))
  | line l r hx _ => intro ch; rw [State.chan_setRx]; exact hs ch
  | clock => exact hs
  | ticked =>
    intro ch
    have := hs ch
    cases ch
    all_goals
      simp only [State.tickLapses, State.chan, Quad.get, Channel.tickLapse] at this ⊢
      split <;> exact this
  | period =>
    unfold State.countPeriod
    dsimp only
    split
    · have cr : ∀ (t : State) (ch : Ch), (t.crystalChannel ch).engine.slice.blockCount = (t.chan ch).engine.slice.blockCount := by
        intro t ch; unfold State.crystalChannel; dsimp only; split <;> rfl
      intro ch
      have := hs ch
      cases ch <;> exact (cr _ _).trans_lt this
    · exact hs
  | notices p n c hx => intro ch; rw [State.chan_setPort]; exact hs ch
  | minuteWritten => exact hs
  | periodWritten => exact hs
  | evaluated c =>
    intro ch
    unfold State.evaluateQuiet
    rw [State.chan_bringQuiet]
    have h1 : (s.holdQuiet c).BlocksShort := hs.setChan c (by exact hs c)
    exact h1 ch
  | eventOpened c r hx =>
    delta State.openEvent
    extract_lets
    exact State.BlocksShort.setChan (s := { s with eventList := _, eventSeq := _ }) hs c (hs c)
  | eventClosed c cause =>
    unfold State.closeEvent
    dsimp only
    split
    · exact hs
    · exact State.BlocksShort.setChan (s := { s with eventList := _ }) hs c (hs c)
  | slot => exact hs
  | calTaken c r =>
    unfold State.calTakeSlice
    split
    · exact hs
    · split <;> exact hs
  | runFaults c _ => exact (hs.endRun c _).setChan c (hs.endRun c _ c)
  | runStopped c _ => exact (hs.endRun c _).setChan c (Nat.succ_pos 47)
  | runCompleted c r hc _ =>
    have h1 : (s.completeRun c).BlocksShort := by
      unfold State.completeRun
      split
      · exact hs
      · split
        · refine State.BlocksShort.setChan (s := { s with calUnit := _ }) hs c ?_
          unfold Channel.takeOutcome
          dsimp only
          split <;> exact hs c
        · exact hs
    exact h1.setChan c (h1 c)
  | lapsed c =>
    unfold State.lapseResult
    split
    · dsimp only
      refine State.BlocksShort.concludeRecord ?_ c _
      exact hs.setChan c (by exact hs c)
    · exact hs
  | channelQueued => exact hs
  | writeBegun => exact hs
  | writeEnded b =>
    unfold State.endStoreWrite
    split
    · exact hs
    · split <;> exact hs
  | pins => exact hs
  | runStarted _ _ _ _ hk _ => cases hk
  | runAborted _ hk _ => cases hk
  | triggersSet _ _ _ hk => cases hk
  | resetBegun hk _ => cases hk
  | loaded _ _ hk => cases hk
  | numbered hk => cases hk
  | transaction _ _ _ hk => cases hk
  | readHistory _ _ hk => cases hk
  | readPeriods _ _ hk => cases hk
  | readEvents _ _ hk => cases hk
  | sought _ _ _ _ hk => cases hk
  | rewound _ hk => cases hk
  | enabled _ _ _ hk => cases hk
  | requested _ _ hk => cases hk
  | proposed _ hk => cases hk
  | excludedSet _ _ hk => cases hk
  | decided _ _ _ _ _ _ hk => cases hk
  | entryChanged _ _ _ _ _ hk => cases hk
  | headerChanged _ _ _ hk => cases hk
  | protectionChanged _ _ _ hk => cases hk
  | commissioned _ _ hk => cases hk
  | reevaluated hk => cases hk

theorem State.blockEnd_short (s : State) (ch : Ch) : ((s.blockEnd ch).chan ch).engine.slice.blockCount < 48 := by
  unfold State.blockEnd
  split
  · rw [State.chan_setChan_self]; exact Nat.succ_pos 47
  · rename_i h
    simpa [Channel.blockDue] using h

theorem State.blockEnd_ne (s : State) {ch ch' : Ch} (h : ch' ≠ ch) : (s.blockEnd ch).chan ch' = s.chan ch' := by
  unfold State.blockEnd
  split
  · exact State.chan_setChan_ne s h _
  · rfl

theorem State.endBlocks_short (s : State) : s.endBlocks.BlocksShort := by
  intro ch
  show (((((s.blockEnd .ch0).blockEnd .ch1).blockEnd .ch2).blockEnd .ch3).chan ch).engine.slice.blockCount < 48
  cases ch
  · rw [State.blockEnd_ne _ (by decide), State.blockEnd_ne _ (by decide), State.blockEnd_ne _ (by decide)]
    exact State.blockEnd_short _ _
  · rw [State.blockEnd_ne _ (by decide), State.blockEnd_ne _ (by decide)]
    exact State.blockEnd_short _ _
  · rw [State.blockEnd_ne _ (by decide)]
    exact State.blockEnd_short _ _
  · exact State.blockEnd_short _ _

/-- Once what was due is done, no block is complete. -/
theorem State.blockCount_settle (s : State) : s.settle.BlocksShort := by
  have h : Effects Origin.own s.endBlocks s.settle :=
    .trans (.inAnyOrder _ (effects_takeDue rfl) _ _) (.one (.writeBegun _))
  exact Effects.keeps (P := State.BlocksShort) (fun _ _ => Effect.keeps_short) h s.endBlocks_short

end Sys2Proof.Machine
end

