-- ==== Sys2Proof/Laws/Commands.lean ====
section
/-! SUPPORT. Commands: every command and event is a sequence of the single changes of Effects, with the origin that brings it about. -/

namespace Sys2Proof.Machine

variable {k : Origin}

/-! ### Transactions -/

/-- A check that passes goes on. -/
theorem check_ok {α : Type} {b : Bool} {r : Result} {go : Except Result α} {a : α} (h : check b r go = .ok a) :
    b = false ∧ go = .ok a := by
  unfold check at h
  cases b with
  | true => exact absurd h (by simp)
  | false => exact ⟨rfl, h⟩

theorem effects_conclude {p : Port} (hp : k.port = some p) (s : State) (r : Option Result) (x : Transaction) :
    Effects k s (s.conclude p r x) := .one (.transaction s p (r.getD (s.port p).lastResult) x hp)

theorem effects_recordTransaction {p : Port} (hp : k.port = some p) (s : State) (x : Transaction) :
    Effects k s (s.recordTransaction p x) := .one (.transaction s p (s.port p).lastResult x hp)

/-- A piece of a transaction does what is due, what the command's judgement does, and moves its port's last result and decoder. -/
theorem effects_transact {p : Port} (hp : k.port = some p) (hm : k.moves = true) (piece : Piece) (code : Byte)
    (judge : List Byte → List Byte → Bool → State → Judgement)
    (hj : ∀ before after rises s, Effects k s (judge before after rises s).state) (s : State) :
    Effects k s (s.transact p piece code judge) := by
  delta State.transact
  dsimp only
  split
  · refine .trans (effects_settle hm s) ?_
    split
    · exact .refl k _
    · exact effects_recordTransaction hp _ _
    · split
      · exact .trans (hj _ _ _ _) (effects_conclude hp _ _ _)
      · exact .refl k _
  · exact effects_recordTransaction hp s _

theorem effects_portWrite {p : Port} (hp : k.port = some p) (hm : k.moves = true) (code : Byte) (n : Nat) (role : Role) (piece : Piece)
    (owner : List Byte → State → Except Result State)
    (ho : ∀ ps s t, role.allows p = true → owner ps s = .ok t → Effects k s t) (s : State) :
    Effects k s (portWrite p code n role piece owner s) := by
  refine effects_transact hp hm piece code _ (fun before after rises s => ?_) s
  unfold judgeWrite
  split
  · dsimp only
    split
    · exact .refl k _
    · unfold judgeOwner
      split
      · exact .refl k _
      · rename_i hr
        split
        · rename_i t h; exact ho _ _ t (by simpa using hr) h
        · exact .refl k _
  · exact .refl k _

theorem effects_portRead {p : Port} (hp : k.port = some p) (hm : k.moves = true) (code : Byte) (n : Nat) (piece : Piece)
    (owner : List Byte → State → Except Result (State × List Byte)) (ho : ∀ ps s t d, owner ps s = .ok (t, d) → Effects k s t) (s : State) :
    Effects k s (portRead p code n piece owner s) := by
  refine effects_transact hp hm piece code _ (fun before after rises s => ?_) s
  unfold judgeRead
  split
  · unfold judgeSnapshot
    split
    · rename_i t d h; exact ho _ _ t d h
    · exact .refl k _
  · split <;> exact .refl k _

/-- A read whose owner changes nothing. -/
theorem effects_read_same {α : Type} {s t : State} {d : List Byte} {x : List Byte} (_ : α)
    (h : (Except.ok (s, x) : Except Result (State × List Byte)) = .ok (t, d)) : Effects k s t := by
  injection h with h; injection h with h _; subst h; exact .refl k s

theorem effects_portNop {p : Port} (hp : k.port = some p) (hm : k.moves = true) (piece : Piece) (s : State) :
    Effects k s (portNop p piece s) :=
  effects_transact hp hm piece 0x00 _ (fun _ _ _ s => .refl k s) s

theorem effects_judgeUnknown (before after : List Byte) (rises : Bool) (s : State) : Effects k s (judgeUnknown before after rises s).state := by
  unfold judgeUnknown
  split <;> exact .refl k s

/-! ### Resets -/

theorem effects_notifyClockLoss (s : State) (b : Bool) : Effects k s (s.notifyClockLoss b) := by
  unfold State.notifyClockLoss
  split
  · exact .notifyBoth k _ _ _
  · exact .refl k s

theorem effects_loseClock (s : State) (b : Bool) : Effects k s (s.loseClock b) := by
  unfold State.loseClock
  split
  · exact .one (.clock s _)
  · exact .refl k s

theorem effects_completeReset (hr : k.reset = true) (hm : k.moves = true) (s : State) (c : ResetCause) (b : Bool) :
    Effects k s (s.completeReset c b) := by
  delta State.completeReset
  extract_lets s1 s2 s3
  have h1 : Effects k s s1 := .trans (.one (.resetBegun s hr hm)) (.notifyBoth k _ _ _)
  have idle : (s1.notifyClockLoss b).calUnit.run = none := by unfold State.notifyClockLoss; split <;> rfl
  have none : ∀ ch, ((s1.notifyClockLoss b).chan ch).pendingResult = none := by
    intro ch; unfold State.notifyClockLoss; split <;> cases ch <;> rfl
  have h2 : Effects k s1 s2 :=
    .trans (effects_notifyClockLoss s1 b) (.trans (.one (.loaded _ idle none hr)) (.one (.numbered _ hr)))
  have h3 : Effects k s2 s3 := .one (.pins s2 s2.wx s2.prot s2.resetN s2.supply false c s2.orderUses)
  exact h1.trans (h2.trans (h3.trans (effects_startChannels hm _ _)))

theorem effects_resetLow (hr : k.reset = true) (hm : k.moves = true) (s : State) : Effects k s s.resetLow := by
  unfold State.resetLow
  split
  · exact .refl k s
  · split
    · exact .trans (.one (.resetBegun s hr hm))
        (.one (.pins _ s.beginReset.wx s.beginReset.prot false s.beginReset.supply false .line s.beginReset.orderUses))
    · exact .one (.pins s s.wx s.prot false s.supply s.clockLossFound s.resetCause s.orderUses)

theorem effects_resetRelease (hr : k.reset = true) (hm : k.moves = true) (s : State) : Effects k s s.resetRelease := by
  unfold State.resetRelease
  have h : Effects k s { s with resetN := true } :=
    .one (.pins s s.wx s.prot true s.supply s.clockLossFound s.resetCause s.orderUses)
  split
  · exact .refl k s
  · split
    · exact h.trans (effects_completeReset hr hm _ _ _)
    · exact h

theorem effects_powerUp (hr : k.reset = true) (hm : k.moves = true) (s : State) (b : Bool) : Effects k s (s.powerUp b) := by
  delta State.powerUp
  extract_lets _ s1
  have h1 : Effects k s s1 := .trans (.one (.resetBegun s hr hm)) (.trans
    (.one (.pins _ s.beginReset.wx s.beginReset.prot s.beginReset.resetN true s.beginReset.clockLossFound
      s.beginReset.resetCause s.beginReset.orderUses)) (effects_loseClock _ b))
  refine h1.trans ?_
  split
  · exact effects_completeReset hr hm _ _ _
  · exact .one (.pins s1 s1.wx s1.prot s1.resetN s1.supply (s1.clockLossFound || b) .powerOn s1.orderUses)

theorem effects_powerDown (hr : k.reset = true) (hm : k.moves = true) (s : State) : Effects k s s.powerDown :=
  .trans (.one (.resetBegun s hr hm))
    (.one (.pins _ s.beginReset.wx s.beginReset.prot s.beginReset.resetN false s.beginReset.clockLossFound
      s.beginReset.resetCause s.beginReset.orderUses))

/-! ### Owners: channels and clock -/

theorem effects_startOwner (hm : k.moves = true) (params : List Byte) (s t : State) (h : startOwner params s = .ok t) :
    Effects k s t := by
  obtain ⟨-, h⟩ := check_ok h
  injection h with h; subst h; exact effects_startChannels hm s _

theorem effects_stopOwner (hm : k.moves = true) (params : List Byte) (s t : State) (h : stopOwner params s = .ok t) :
    Effects k s t := by
  injection h with h; subst h; exact effects_stopChannels hm s _

theorem effects_excludeOwner (hp : k.port = some .compliance) (params : List Byte) (s t : State)
    (h : excludeOwner params s = .ok t) : Effects k s t := by
  injection h with h; subst h; exact .one (.excludedSet s _ _ hp)

theorem effects_setEventTriggerOwner (hp : k.port.isSome = true) (params : List Byte) (s t : State)
    (h : setEventTriggerOwner params s = .ok t) : Effects k s t := by
  injection h with h; subst h; exact .one (.triggersSet s _ _ _ hp)

theorem effects_sampleWx (s : State) (wx : Bool) : Effects k s (s.sampleWx wx) :=
  .one (.pins s wx s.prot s.resetN s.supply s.clockLossFound s.resetCause s.orderUses)

theorem effects_sampleProt (s : State) (prot : Bool) : Effects k s (s.sampleProt prot) :=
  .one (.pins s s.wx prot s.resetN s.supply s.clockLossFound s.resetCause s.orderUses)

theorem effects_readLiveOwner (wx : Bool) (s t : State) (d : List Byte) (h : readLiveOwner wx s = .ok (t, d)) : Effects k s t := by
  injection h with h; injection h with h _; subst h; exact effects_sampleWx s wx

theorem effects_readChannelOwner (params : List Byte) (wx : Bool) (s t : State) (d : List Byte)
    (h : readChannelOwner params wx s = .ok (t, d)) : Effects k s t := by
  unfold readChannelOwner at h
  split at h
  · cases h
  · injection h with h; injection h with h _; subst h; exact effects_sampleWx s wx

theorem effects_setTime (s : State) (n second : Nat) : Effects k s (s.setTime n second) :=
  .trans (effects_deliver s _) (.trans (.one (.clock _ _)) (.notifyBoth k _ _ _))

theorem effects_setTimeOwner (params : List Byte) (s t : State) (h : setTimeOwner params s = .ok t) : Effects k s t := by
  obtain ⟨-, h⟩ := check_ok h
  injection h with h; subst h; exact effects_setTime s _ _

theorem effects_trimClock (s : State) (o : Int) : Effects k s (s.trimClock o) :=
  .trans (.one (.clock s _)) (.trans (effects_emitBoundary _) (.notifyBoth k _ _ _))

theorem effects_trimClockOwner (params : List Byte) (s t : State) (h : trimClockOwner params s = .ok t) : Effects k s t := by
  obtain ⟨-, h⟩ := check_ok h
  injection h with h; subst h; exact effects_trimClock s _

/-! ### Owners: schedule and dispensations -/

theorem effects_changeEntry (hp : k.port = some .compliance) (s : State) (i : Fin 16) (e : Entry)
    (ht : s.store.canTake i.val = true) (h1 : e.present = true → e.inRange = true ∧ (i = 0 ∨ s.entryOverlap i e = false))
    (h0 : i = 0 → e.present = true) : Effects k s (s.changeEntry i e) :=
  .trans (.one (.entryChanged s i e ht h1 h0 hp)) (.notifyBoth k _ _ _)

theorem effects_writeEntryOwner (hp : k.port = some .compliance) (params : List Byte) (s t : State)
    (h : writeEntryOwner params s = .ok t) : Effects k s t := by
  unfold writeEntryOwner at h
  split at h
  · cases h
  · rename_i i _
    unfold writeEntryAt at h
    obtain ⟨-, h⟩ := check_ok h
    obtain ⟨hr, h⟩ := check_ok h
    obtain ⟨ho, h⟩ := check_ok h
    obtain ⟨ht, h⟩ := check_ok h
    injection h with h; subst h
    refine effects_changeEntry hp s i _ (by simpa using ht) ?_ (fun _ => rfl)
    intro _
    refine ⟨by simpa using hr, ?_⟩
    by_cases hi : i = 0
    · exact .inl hi
    · exact .inr (by simpa [hi] using ho)

theorem effects_deleteEntryOwner (hp : k.port = some .compliance) (params : List Byte) (s t : State)
    (h : deleteEntryOwner params s = .ok t) : Effects k s t := by
  unfold deleteEntryOwner at h
  split at h
  · cases h
  · rename_i i _
    obtain ⟨hs, h⟩ := check_ok h
    obtain ⟨-, h⟩ := check_ok h
    obtain ⟨ht, h⟩ := check_ok h
    injection h with h; subst h
    refine effects_changeEntry hp s i _ (by simpa using ht) (fun hx => absurd hx (by simp [Entry.deleted])) ?_
    intro hi; simp [hi] at hs

theorem effects_writeHeaderOwner (hp : k.port = some .compliance) (params : List Byte) (s t : State)
    (h : writeHeaderOwner params s = .ok t) : Effects k s t := by
  unfold writeHeaderOwner at h
  obtain ⟨-, h⟩ := check_ok h
  obtain ⟨hr, h⟩ := check_ok h
  obtain ⟨ht, h⟩ := check_ok h
  injection h with h; subst h
  exact .trans (.one (.headerChanged s _ (by simpa using ht) (by simpa using hr) hp)) (.notifyBoth k _ _ _)

theorem effects_setProtectionOwner (hp : k.port = some .compliance) (params : List Byte) (prot : Bool) (s t : State)
    (h : setProtectionOwner params prot s = .ok t) : Effects k s t := by
  unfold setProtectionOwner at h
  obtain ⟨-, h⟩ := check_ok h
  obtain ⟨-, h⟩ := check_ok h
  split at h
  · cases h
  · obtain ⟨hx, h⟩ := check_ok h
    obtain ⟨ht, h⟩ := check_ok h
    injection h with h; subst h
    exact .trans (effects_sampleProt s prot)
      (.trans (.one (.protectionChanged _ _ (by simpa [State.sampleProt] using ht) (by simpa using hx) hp)) (.notifyBoth k _ _ _))

theorem effects_readHeaderOwner (prot : Bool) (s t : State) (d : List Byte) (h : readHeaderOwner prot s = .ok (t, d)) :
    Effects k s t := by
  injection h with h; injection h with h _; subst h; exact effects_sampleProt s prot

theorem effects_proposeOwner (hp : k.port = some .site) (params : List Byte) (s t : State) (h : proposeOwner params s = .ok t) :
    Effects k s t := by
  unfold proposeOwner at h
  dsimp only at h
  obtain ⟨-, h⟩ := check_ok h
  obtain ⟨-, h⟩ := check_ok h
  obtain ⟨-, h⟩ := check_ok h
  split at h
  · cases h
  · injection h with h; subst h
    exact .trans (.one (.proposed s _ hp)) (effects_changeSlot _ _ _ fun h => absurd h (by simp [proposalAt, Slot.granted]))

theorem effects_namedSlot (params : List Byte) (s t : State) (go : Fin 8 → Except Result State)
    (hg : ∀ i, go i = .ok t → Effects k s t) (h : namedSlot params s go = .ok t) : Effects k s t := by
  unfold namedSlot at h
  split at h
  · cases h
  · obtain ⟨-, h⟩ := check_ok h
    exact hg _ h

theorem effects_freeSlot (s : State) (i : Fin 8) (o : SlotOutcome) : Effects k s (s.changeSlot i (s.slots[i].freed o)) :=
  effects_changeSlot s i _ fun h => absurd h (by simp [Slot.freed, Slot.granted])

theorem effects_withdrawOwner (params : List Byte) (s t : State) (h : withdrawOwner params s = .ok t) : Effects k s t :=
  effects_namedSlot params s t _ (fun i h => by
    obtain ⟨-, h⟩ := check_ok h; injection h with h; subst h; exact effects_freeSlot s i _) h

theorem effects_rejectOwner (params : List Byte) (s t : State) (h : rejectOwner params s = .ok t) : Effects k s t :=
  effects_namedSlot params s t _ (fun i h => by
    obtain ⟨-, h⟩ := check_ok h; injection h with h; subst h; exact effects_freeSlot s i _) h

theorem effects_revokeOwner (params : List Byte) (s t : State) (h : revokeOwner params s = .ok t) : Effects k s t :=
  effects_namedSlot params s t _ (fun i h => by
    obtain ⟨-, h⟩ := check_ok h; injection h with h; subst h; exact effects_freeSlot s i _) h

theorem effects_approveOwner (hp : k.port = some .compliance) (params : List Byte) (s t : State) (h : approveOwner params s = .ok t) : Effects k s t :=
  effects_namedSlot params s t _ (fun i h => by
    obtain ⟨-, h⟩ := check_ok h
    obtain ⟨hc, h⟩ := check_ok h
    injection h with h; subst h
    refine effects_changeSlot s i _ fun _ => .inr ⟨hp, fun j hj => ?_⟩
    unfold State.slotClashes at hc
    rw [List.any_eq_false] at hc
    have hc := hc j (List.mem_finRange j)
    simp only [Bool.and_eq_true, bne_iff_ne, ne_eq, not_and, Bool.not_eq_true] at hc
    exact hc hj) h

/-! ### Owners: calibration -/

theorem effects_calibrateOwner (hp : k.port.isSome = true) (hm : k.moves = true) (params : List Byte) (s t : State)
    (h : calibrateOwner params s = .ok t) : Effects k s t := by
  unfold calibrateOwner at h
  split at h
  · cases h
  · obtain ⟨-, h⟩ := check_ok h
    obtain ⟨hb, h⟩ := check_ok h
    obtain ⟨-, h⟩ := check_ok h
    obtain ⟨hr, h⟩ := check_ok h
    injection h with h; subst h
    exact .one (.runStarted s _ _ (by simpa using hr) hb hp hm)

theorem effects_abortOwner (hp : k.port.isSome = true) (hm : k.moves = true) (params : List Byte) (s t : State)
    (h : abortOwner params s = .ok t) : Effects k s t := by
  unfold abortOwner at h
  split at h
  · cases h
  · obtain ⟨-, h⟩ := check_ok h
    injection h with h; subst h
    exact .one (.runAborted s _ hp hm)

theorem effects_namedResult (params : List Byte) (s t : State) (go : Ch → PendingResult → State)
    (hg : ∀ ch r, (s.chan ch).pendingResult = some r → Effects k s (go ch r)) (h : namedResult params s go = .ok t) :
    Effects k s t := by
  unfold namedResult at h
  split at h
  · cases h
  · obtain ⟨-, h⟩ := check_ok h
    split at h
    · cases h
    · rename_i r hr
      injection h with h; subst h; exact hg _ _ hr

theorem effects_acceptOwner (hp : k.port = some .compliance) (params : List Byte) (s t : State)
    (h : acceptOwner params s = .ok t) : Effects k s t :=
  effects_namedResult params s t _ (fun ch r hr => .one (.decided s ch _ r _ hr (.inl rfl) hp)) h

theorem effects_rejectResultOwner (hp : k.port = some .compliance) (params : List Byte) (s t : State)
    (h : rejectResultOwner params s = .ok t) : Effects k s t :=
  effects_namedResult params s t _ (fun ch r hr => .one (.decided s ch _ r _ hr (.inr rfl) hp)) h

/-! ### Owners: records, notices, commissioning -/

theorem effects_seekOwner {p : Port} (hp : k.port = some p) (params : List Byte) (s t : State) (h : seekOwner p params s = .ok t) :
    Effects k s t := by
  unfold seekOwner at h
  split at h
  · injection h with h; subst h
    exact .trans (.one (.sought s p _ _ _ hp)) (.lagRaised k _ _ _)
  · cases h

theorem effects_clearFlags (s : State) (p : Port) : Effects k s (s.setPort p (s.port p).clearFlags) := by
  refine .one (.notices s p _ (s.port p).conditions ?_)
  simp [enablesOf, Vector.toList_map, List.map_map, Function.comp_def]

theorem effects_portReset {p : Port} (hp : k.port = some p) (s : State) : Effects k s (s.portReset p) := by
  delta State.portReset
  extract_lets s1 s2
  have h1 : Effects k s s1 := .one (.enabled s p _ _ hp)
  have h2 : Effects k s1 s2 := .one (.requested s1 p false hp)
  refine h1.trans (h2.trans (.trans (.one (.rewound s2 p hp)) ?_))
  unfold State.lagLeft
  split
  · exact .notify k _ _ _ _
  · exact .refl k _

theorem effects_writeCommissioningOwner (hp : k.port = some .compliance) (params : List Byte) (s t : State)
    (h : writeCommissioningOwner params s = .ok t) : Effects k s t := by
  unfold writeCommissioningOwner at h
  obtain ⟨-, h⟩ := check_ok h
  obtain ⟨-, h⟩ := check_ok h
  obtain ⟨ht, h⟩ := check_ok h
  injection h with h; subst h
  exact .trans (.one (.commissioned s _ (by simpa using ht) hp)) (.one (.reevaluated _ hp))

theorem effects_lockCommissioningOwner (hp : k.port = some .compliance) (s t : State) (h : lockCommissioningOwner s = .ok t) :
    Effects k s t := by
  unfold lockCommissioningOwner at h
  obtain ⟨-, h⟩ := check_ok h
  obtain ⟨ht, h⟩ := check_ok h
  injection h with h; subst h
  exact .one (.commissioned s _ (by simpa using ht) hp)

theorem effects_deviceResetOwner (hr : k.reset = true) (hm : k.moves = true) (s t : State) (h : deviceResetOwner s = .ok t) :
    Effects k s t := by
  obtain ⟨-, h⟩ := check_ok h
  injection h with h; subst h; exact effects_completeReset hr hm s _ _

/-! ### Events -/

theorem effects_frameSliceEndAt (hm : k.moves = true) (s : State) (ch : Ch) (wx : Bool) : Effects k s (s.frameSliceEndAt ch wx) := by
  unfold State.frameSliceEndAt
  split
  · exact .trans (effects_sampleWx s wx) (effects_frameSliceEnd hm _ ch)
  · exact .refl k s

theorem effects_sliceEndFor (hm : k.moves = true) (s : State) (ch : Ch) (wx b : Bool) : Effects k s (s.sliceEndFor ch wx b) := by
  unfold State.sliceEndFor
  split
  · exact effects_frameSliceEndAt hm s ch wx
  · exact .refl k s

end Sys2Proof.Machine

namespace Sys2Proof

/-- The command or event resets the part, or takes its supply. -/
def Instr.resets : Instr → Bool
  | .deviceReset _ _ => true
  | .resetNLow => true
  | .resetNRelease => true
  | .powerOn _ => true
  | .lossOfSupply => true
  | _ => false

/-- Who brings a command's changes about. -/
def Instr.origin (i : Instr) : Machine.Origin := ⟨i.port?, true, i.resets, true⟩

end Sys2Proof

namespace Sys2Proof.Machine

/-! ### Every command and event -/

/-- A read whose owner answers data alone changes nothing. -/
theorem effects_data {k : Origin} {f : State → List Byte} (s t : State) (d : List Byte)
    (h : (Except.ok (s, f s) : Except Result (State × List Byte)) = .ok (t, d)) : Effects k s t := by
  injection h with h; injection h with h _; subst h; exact .refl k s

/-! Numbered reads change nothing. -/

theorem effects_readEntryOwner {k : Origin} (params : List Byte) (s t : State) (d : List Byte) (h : readEntryOwner params s = .ok (t, d)) :
    Effects k s t := by
  unfold readEntryOwner at h
  split at h
  · cases h
  · injection h with h; injection h with h _; subst h; exact .refl k s

theorem effects_readDispensationOwner {k : Origin} (params : List Byte) (s t : State) (d : List Byte) (h : readDispensationOwner params s = .ok (t, d)) :
    Effects k s t := by
  unfold readDispensationOwner at h
  split at h
  · cases h
  · injection h with h; injection h with h _; subst h; exact .refl k s

theorem effects_readAccountOwner {k : Origin} (params : List Byte) (s t : State) (d : List Byte) (h : readAccountOwner params s = .ok (t, d)) :
    Effects k s t := by
  unfold readAccountOwner at h
  split at h
  · cases h
  · injection h with h; injection h with h _; subst h; exact .refl k s

theorem effects_readHistogramOwner {k : Origin} (params : List Byte) (s t : State) (d : List Byte) (h : readHistogramOwner params s = .ok (t, d)) :
    Effects k s t := by
  unfold readHistogramOwner at h
  split at h
  · cases h
  · injection h with h; injection h with h _; subst h; exact .refl k s

/-- Once and for all: whatever a command or event does is a sequence of single changes of its origin. -/
theorem exec_effects (i : Instr) (s t : State) (h : exec i s = .next t) : Effects i.origin s t := by
  have hp : ∀ {p : Port}, i.port? = some p → i.origin.port = some p := fun h => h
  cases i <;> injection h with h <;> subst h
  case nop p x => exact effects_portNop rfl rfl x s
  case unknownCommandCode p c x => exact effects_transact rfl rfl x c _ effects_judgeUnknown s
  case readLive p x wx => exact effects_portRead rfl rfl _ _ _ _ (fun _ => effects_readLiveOwner wx) s
  case readChannel p x wx => exact effects_portRead rfl rfl _ _ _ _ (fun ps => effects_readChannelOwner ps wx) s
  case readClock p x => exact effects_portRead (k := (Instr.readClock p x).origin) rfl rfl _ _ _ _ (fun ps s t d h => effects_data (f := State.clockBytes) s t d h) s
  case readEntry p x => exact effects_portRead rfl rfl _ _ _ _ (fun ps => effects_readEntryOwner ps) s
  case readHeader p x prot => exact effects_portRead rfl rfl _ _ _ _ (fun _ => effects_readHeaderOwner prot) s
  case readDispensation p x => exact effects_portRead rfl rfl _ _ _ _ (fun ps => effects_readDispensationOwner ps) s
  case readAccount p x => exact effects_portRead rfl rfl _ _ _ _ (fun ps => effects_readAccountOwner ps) s
  case readHistogram p x => exact effects_portRead rfl rfl _ _ _ _ (fun ps => effects_readHistogramOwner ps) s
  case readEvents p x =>
    exact effects_portRead rfl rfl _ _ _ _ (fun ps s t d h => by
      injection h with h; injection h with h _; subst h; exact .one (.readEvents s p _ rfl)) s
  case readHistory p x =>
    exact effects_portRead rfl rfl _ _ _ _ (fun ps s t d h => by
      injection h with h; injection h with h _; subst h; exact .one (.readHistory s p _ rfl)) s
  case readPeriods p x =>
    exact effects_portRead rfl rfl _ _ _ _ (fun ps s t d h => by
      injection h with h; injection h with h _; subst h; exact .one (.readPeriods s p _ rfl)) s
  case readNotices p x =>
    exact effects_portRead rfl rfl _ _ _ _ (fun ps s t d h => by
      injection h with h; injection h with h _; subst h; exact effects_clearFlags s p) s
  case readCommissioning p x =>
    exact effects_portRead (k := (Instr.readCommissioning p x).origin) rfl rfl _ _ _ _ (fun ps s t d h => effects_data (f := fun s => s.commissioning.bytes) s t d h) s
  case identify p x => exact effects_portRead (k := (Instr.identify p x).origin) rfl rfl _ _ _ _ (fun ps s t d h => effects_data (f := fun _ => identityBytes) s t d h) s
  case seek p x => exact effects_portWrite rfl rfl _ _ _ _ _ (fun ps s t _ h => effects_seekOwner rfl ps s t h) s
  case startChannels p x => exact effects_portWrite rfl rfl _ _ _ _ _ (fun ps s t _ h => effects_startOwner rfl ps s t h) s
  case stopChannels p x => exact effects_portWrite rfl rfl _ _ _ _ _ (fun ps s t _ h => effects_stopOwner rfl ps s t h) s
  case exclude p x =>
    cases p
    · exact effects_portWrite rfl rfl _ _ _ _ _ (fun _ s t h _ => by cases h) s
    · exact effects_portWrite rfl rfl _ _ _ _ _ (fun ps s t _ h => effects_excludeOwner rfl ps s t h) s
  case setEventTrigger p x => exact effects_portWrite rfl rfl _ _ _ _ _ (fun ps s t _ h => effects_setEventTriggerOwner rfl ps s t h) s
  case calibrate p x => exact effects_portWrite rfl rfl _ _ _ _ _ (fun ps s t _ h => effects_calibrateOwner rfl rfl ps s t h) s
  case abortCalibration p x => exact effects_portWrite rfl rfl _ _ _ _ _ (fun ps s t _ h => effects_abortOwner rfl rfl ps s t h) s
  case acceptCalibration p x =>
    cases p
    · exact effects_portWrite rfl rfl _ _ _ _ _ (fun _ s t h _ => by cases h) s
    · exact effects_portWrite rfl rfl _ _ _ _ _ (fun ps s t _ h => effects_acceptOwner rfl ps s t h) s
  case rejectCalibration p x =>
    cases p
    · exact effects_portWrite rfl rfl _ _ _ _ _ (fun _ s t h _ => by cases h) s
    · exact effects_portWrite rfl rfl _ _ _ _ _ (fun ps s t _ h => effects_rejectResultOwner rfl ps s t h) s
  case setTime p x => exact effects_portWrite rfl rfl _ _ _ _ _ (fun ps s t _ h => effects_setTimeOwner ps s t h) s
  case trimClock p x => exact effects_portWrite rfl rfl _ _ _ _ _ (fun ps s t _ h => effects_trimClockOwner ps s t h) s
  case writeEntry p x =>
    cases p
    · exact effects_portWrite rfl rfl _ _ _ _ _ (fun _ s t h _ => by cases h) s
    · exact effects_portWrite rfl rfl _ _ _ _ _ (fun ps s t _ h => effects_writeEntryOwner rfl ps s t h) s
  case deleteEntry p x =>
    cases p
    · exact effects_portWrite rfl rfl _ _ _ _ _ (fun _ s t h _ => by cases h) s
    · exact effects_portWrite rfl rfl _ _ _ _ _ (fun ps s t _ h => effects_deleteEntryOwner rfl ps s t h) s
  case writeHeader p x =>
    cases p
    · exact effects_portWrite rfl rfl _ _ _ _ _ (fun _ s t h _ => by cases h) s
    · exact effects_portWrite rfl rfl _ _ _ _ _ (fun ps s t _ h => effects_writeHeaderOwner rfl ps s t h) s
  case setProtection p x prot =>
    cases p
    · exact effects_portWrite rfl rfl _ _ _ _ _ (fun _ s t h _ => by cases h) s
    · exact effects_portWrite rfl rfl _ _ _ _ _ (fun ps s t _ h => effects_setProtectionOwner rfl ps prot s t h) s
  case proposeDispensation p x =>
    cases p
    · exact effects_portWrite rfl rfl _ _ _ _ _ (fun ps s t _ h => effects_proposeOwner rfl ps s t h) s
    · exact effects_portWrite rfl rfl _ _ _ _ _ (fun _ s t h _ => by cases h) s
  case withdrawDispensation p x => exact effects_portWrite rfl rfl _ _ _ _ _ (fun ps s t _ h => effects_withdrawOwner ps s t h) s
  case approveDispensation p x =>
    cases p
    · exact effects_portWrite rfl rfl _ _ _ _ _ (fun _ s t h _ => by cases h) s
    · exact effects_portWrite rfl rfl _ _ _ _ _ (fun ps s t _ h => effects_approveOwner rfl ps s t h) s
  case rejectDispensation p x => exact effects_portWrite rfl rfl _ _ _ _ _ (fun ps s t _ h => effects_rejectOwner ps s t h) s
  case revokeDispensation p x => exact effects_portWrite rfl rfl _ _ _ _ _ (fun ps s t _ h => effects_revokeOwner ps s t h) s
  case setNoticeEnables p x =>
    exact effects_portWrite rfl rfl _ _ _ _ _ (fun ps s t _ h => by
      injection h with h; subst h; exact .one (.enabled s p _ (s.port p).conditions rfl)) s
  case clearConditions p x =>
    exact effects_portWrite rfl rfl _ _ _ _ _ (fun ps s t _ h => by
      injection h with h; subst h; exact .one (.notices s p (s.port p).notices _ rfl)) s
  case setQuietRequest p x =>
    exact effects_portWrite rfl rfl _ _ _ _ _ (fun ps s t _ h => by
      injection h with h; subst h; exact .one (.requested s p _ rfl)) s
  case portReset p x =>
    exact effects_portWrite rfl rfl _ _ _ _ _ (fun ps s t _ h => by
      injection h with h; subst h; exact effects_portReset rfl s) s
  case writeCommissioning p x =>
    cases p
    · exact effects_portWrite rfl rfl _ _ _ _ _ (fun _ s t h _ => by cases h) s
    · exact effects_portWrite rfl rfl _ _ _ _ _ (fun ps s t _ h => effects_writeCommissioningOwner rfl ps s t h) s
  case lockCommissioning p x =>
    cases p
    · exact effects_portWrite rfl rfl _ _ _ _ _ (fun _ s t h _ => by cases h) s
    · exact effects_portWrite rfl rfl _ _ _ _ _ (fun ps s t _ h => effects_lockCommissioningOwner rfl s t h) s
  case deviceReset p x => exact effects_portWrite rfl rfl _ _ _ _ _ (fun ps s t _ h => effects_deviceResetOwner rfl rfl s t h) s
  case resetNLow => exact .trans (effects_settle rfl s) (effects_resetLow rfl rfl _)
  case resetNRelease => exact .trans (effects_settle rfl s) (effects_resetRelease rfl rfl _)
  case powerOn b => exact .trans (effects_settle rfl s) (effects_powerUp rfl rfl _ b)
  case lossOfSupply => exact .trans (effects_settle rfl s) (effects_powerDown rfl rfl _)
  case audioFrame l a b =>
    split
    · exact .trans (effects_settle rfl s) (effects_takeFrame rfl rfl _ l a b (State.blockCount_settle s))
    · exact .refl _ s
  case incompleteFrameDiscard l => exact .refl _ s
  case blockEnd ch => exact effects_blockEnd s ch
  case frameSliceEnd ch wx => exact effects_frameSliceEndAt rfl s ch wx
  case crystalSliceEnd ch => exact .trans (effects_settle rfl s) (effects_crystalSliceEnd rfl _ ch)
  case lineLost l => exact .trans (effects_settle rfl s) (effects_lineLost rfl _ l)
  case lineRestored l => exact effects_lineRestored rfl s l
  case settlingComplete ch wx => exact effects_sliceEndFor rfl s ch wx _
  case calSettleComplete ch wx => exact effects_sliceEndFor rfl s ch wx _
  case calMeasureComplete ch wx => exact effects_sliceEndFor rfl s ch wx _
  case calRecoverComplete ch wx => exact effects_sliceEndFor rfl s ch wx _
  case calResultLapse ch => exact .one (.lapsed s ch)
  case secondTick => exact .trans (effects_settle rfl s) (effects_secondElapsed _)
  case minuteBoundary => exact effects_emitBoundary s
  case eventCloseFell ch wx => exact effects_sliceEndFor rfl s ch wx _
  case eventCloseLong ch wx => exact effects_sliceEndFor rfl s ch wx _
  case storeWriteBegin => exact .one (.writeBegun s)
  case storeWriteEnd b => exact .trans (effects_settle rfl s) (.one (.writeEnded _ b))

/-- What every single change keeps, and does not look at the queue for, every step keeps. -/
theorem step_keeps {P : State → Prop} (hP : ∀ k s t, Effect k s t → P s → P t)
    (hq : ∀ s q, P s → P { s with pending := q }) (s t : State) (h : step s = .next t) (hs : P s) : P t := by
  cases hp : s.pending with
  | nil =>
    simp only [step, hp] at h
    injection h with h; subst h
    exact Effects.keeps (hP .own) (effects_crystalPeriod rfl s) hs
  | cons i rest =>
    simp only [step, hp] at h
    exact Effects.keeps (hP i.origin) (exec_effects i _ t h) (hq s rest hs)

end Sys2Proof.Machine
end

