-- ==== Sys2Proof/Laws/Frames.lean ====
section
/-! SUPPORT. Frames: what the shared operations of a channel's minute leave as it was: the part's settings, the other channels, the fields of their own channel. -/

namespace Sys2Proof.Machine

/-! ### Notices that work can only set -/

theorem NoticesRaised.refl (x : PortState) : NoticesRaised x x := ⟨fun _ => rfl, fun _ => id, fun _ _ => rfl⟩

theorem NoticesRaised.trans {x y z : PortState} (h : NoticesRaised x y) (h' : NoticesRaised y z) : NoticesRaised x z :=
  ⟨fun k => (h'.enable k).trans (h.enable k), fun k hk => h'.flag k (h.flag k hk), fun k hk => (h'.settings k hk).trans (h.settings k hk)⟩

/-- The kinds of notice that work on channels, minutes and slots sets. -/
def NoticeKind.ofWork (k : NoticeKind) : Prop := k ≠ .schedule ∧ k ≠ .store ∧ k ≠ .reset

theorem NoticesRaised.notify (x : PortState) {k : NoticeKind} (d : Detail) (hk : k.ofWork) : NoticesRaised x (x.notify k d) where
  enable j := by rw [PortState.notice_notify]; split <;> simp_all
  flag j h := by rw [PortState.notice_notify]; split <;> simp_all
  settings j h := by
    rw [PortState.notice_notify, if_neg]
    rintro rfl; rcases h with h | h | h
    exacts [hk.1 h, hk.2.1 h, hk.2.2 h]

theorem NoticesRaised.conditions (x : PortState) (c : Quad Causes) : NoticesRaised x { x with conditions := c } :=
  ⟨fun _ => rfl, fun _ => id, fun _ _ => rfl⟩

theorem NoticesRaised.takeCauses (x : PortState) (r : MinuteRecord) : NoticesRaised x (x.takeCauses r) := by
  have h : ∀ (x : PortState) (k : Cause), NoticesRaised x (x.takeCause r k) := by
    intro x k; unfold PortState.takeCause
    split
    · exact (NoticesRaised.conditions x _).trans (.notify _ _ ⟨by decide, by decide, by decide⟩)
    · exact .refl x
  exact (h _ _).trans ((h _ _).trans ((h _ _).trans (h _ _)))

/-! ### SameFrame -/

theorem State.SameFrame.refl (s : State) : s.SameFrame s :=
  ⟨rfl, rfl, rfl, rfl, rfl, rfl, rfl, rfl, rfl, rfl, rfl, rfl, rfl, rfl, rfl, rfl, rfl, fun _ => rfl, fun _ => .refl _⟩

theorem State.SameFrame.trans {s t u : State} (h : s.SameFrame t) (h' : t.SameFrame u) : s.SameFrame u :=
  ⟨h'.line0.trans h.line0, h'.line1.trans h.line1, h'.clock.trans h.clock, h'.entries.trans h.entries, h'.header.trans h.header,
    h'.protection.trans h.protection, h'.slots.trans h.slots, h'.proposalSerial.trans h.proposalSerial,
    h'.commissioning.trans h.commissioning, h'.prot.trans h.prot, h'.resetN.trans h.resetN, h'.supply.trans h.supply,
    h'.resetCause.trans h.resetCause, h'.clockLossFound.trans h.clockLossFound, h'.pending.trans h.pending,
    h'.items.trans h.items, h'.writing.trans h.writing, fun q => by
      have e := h'.ports q
      have e' : ∀ n c, { t.port q with notices := n, conditions := c } = { s.port q with notices := n, conditions := c } := by
        intro n c; rw [h.ports q]
      exact e.trans (e' _ _), fun q => (h.raised q).trans (h'.raised q)⟩

theorem State.SameFrame.setChan (s : State) (ch : Ch) (c : Channel) : s.SameFrame (s.setChan ch c) :=
  ⟨rfl, rfl, rfl, rfl, rfl, rfl, rfl, rfl, rfl, rfl, rfl, rfl, rfl, rfl, rfl, rfl, rfl, fun q => by cases q <;> rfl, fun q => by cases q <;> exact .refl _⟩

theorem State.SameFrame.notifyBoth (s : State) (k : NoticeKind) (d : Detail)
    (hk : k.ofWork := by exact ⟨by decide, by decide, by decide⟩) : s.SameFrame (s.notifyBoth k d) :=
  ⟨rfl, rfl, rfl, rfl, rfl, rfl, rfl, rfl, rfl, rfl, rfl, rfl, rfl, rfl, rfl, rfl, rfl, fun q => by cases q <;> rfl,
    fun q => by cases q <;> exact .notify _ _ hk⟩

theorem State.SameFrame.notify (s : State) (p : Port) (k : NoticeKind) (d : Detail)
    (hk : k.ofWork := by exact ⟨by decide, by decide, by decide⟩) : s.SameFrame (s.notify p k d) := by
  cases p <;> exact ⟨rfl, rfl, rfl, rfl, rfl, rfl, rfl, rfl, rfl, rfl, rfl, rfl, rfl, rfl, rfl, rfl, rfl, fun q => by cases q <;> rfl,
    fun q => by cases q <;> first | exact .refl _ | exact .notify _ _ hk⟩

theorem State.SameFrame.ite {s t u : State} {p : Prop} [Decidable p] (h : s.SameFrame t) (h' : s.SameFrame u) :
    s.SameFrame (if p then t else u) := by split <;> assumption

theorem State.SameFrame.enqueue (s : State) (w : StoreWrite) : s.SameFrame (s.enqueue w) := by
  refine ⟨rfl, rfl, rfl, rfl, rfl, rfl, rfl, rfl, rfl, rfl, rfl, rfl, rfl, rfl, rfl, ?_, ?_, fun q => by cases q <;> rfl, fun q => by cases q <;> exact .refl _⟩ <;>
    · unfold State.enqueue Store.enqueue; dsimp only; split <;> rfl

theorem State.SameFrame.quietLine (s : State) (b : Bool) : s.SameFrame { s with quietLine := b } :=
  ⟨rfl, rfl, rfl, rfl, rfl, rfl, rfl, rfl, rfl, rfl, rfl, rfl, rfl, rfl, rfl, rfl, rfl, fun q => by cases q <;> rfl,
    fun q => by cases q <;> exact .refl _⟩

theorem State.SameFrame.bringQuiet (s : State) (ch : Ch) (i : QuietInput) : s.SameFrame (s.bringQuiet ch i) := by
  unfold State.bringQuiet
  split
  · exact .refl s
  · exact (State.SameFrame.quietLine s _).trans (.notifyBoth _ _ _)

theorem State.SameFrame.lagRaised (s : State) (n : Nat) (p : Port) : s.SameFrame (s.lagRaised n p) :=
  .ite (.notify s p _ _) (.refl s)

theorem State.SameFrame.writeMinuteRecord (s : State) (r : MinuteRecord) : s.SameFrame (s.writeMinuteRecord r) := by
  delta State.writeMinuteRecord
  extract_lets l1 l2 s1 s2 s3
  have h1 : s.SameFrame s1 :=
    ⟨rfl, rfl, rfl, rfl, rfl, rfl, rfl, rfl, rfl, rfl, rfl, rfl, rfl, rfl, rfl, rfl, rfl, fun q => by cases q <;> rfl, fun q => by cases q <;> exact .refl _⟩
  have h2 : s1.SameFrame s2 := .notifyBoth _ _ _
  have h3 : s2.SameFrame s3 :=
    ⟨rfl, rfl, rfl, rfl, rfl, rfl, rfl, rfl, rfl, rfl, rfl, rfl, rfl, rfl, rfl, rfl, rfl,
      fun q => by cases q <;> exact (takeCauses_rest _ r).2,
      fun q => by cases q <;> exact .takeCauses _ r⟩
  exact h1.trans (h2.trans (h3.trans ((State.SameFrame.lagRaised _ _ _).trans (.lagRaised _ _ _))))

theorem State.SameFrame.enterMinute (s : State) (m : Summary) : s.SameFrame (s.enterMinute m) := by
  delta State.enterMinute
  extract_lets e seq r s1 s2 s3
  exact (State.SameFrame.setChan s m.ch e.chan).trans
    ((State.SameFrame.ite (.notifyBoth _ _ _) (.refl _)).trans
      ((State.SameFrame.ite (.notifyBoth _ _ _) (.refl _)).trans (.writeMinuteRecord _ _)))

theorem State.SameFrame.closePeriod (s : State) (ch : Ch) (p : Period) (c : CloseCause) : s.SameFrame (s.closePeriod ch p c) := by
  delta State.closePeriod
  extract_lets r s1 _ s2 s3
  have h1 : s.SameFrame s1 :=
    ⟨rfl, rfl, rfl, rfl, rfl, rfl, rfl, rfl, rfl, rfl, rfl, rfl, rfl, rfl, rfl, rfl, rfl, fun q => by cases q <;> rfl, fun q => by cases q <;> exact .refl _⟩
  exact h1.trans ((State.SameFrame.setChan _ _ _).trans ((State.SameFrame.notifyBoth _ _ _).trans (.ite (.notifyBoth _ _ _) (.refl _))))

theorem State.SameFrame.closeIfDue (s : State) (ch : Ch) (b : Bool) (n : Nat) : s.SameFrame (s.closeIfDue ch b n) := by
  unfold State.closeIfDue
  split
  · exact .refl s
  · split
    · exact .refl s
    · exact .closePeriod s ch _ _

theorem State.SameFrame.lookAhead (s : State) (ch : Ch) (b : Bool) (n : Nat) : s.SameFrame (s.lookAhead ch b n) := by
  delta State.lookAhead
  extract_lets o s1 s2
  exact (State.SameFrame.closeIfDue s ch b n).trans
    ((State.SameFrame.ite (.setChan _ _ _) (.refl _)).trans (.ite (.setChan _ _ _) (.refl _)))

theorem State.SameFrame.evaluateQuiet (s : State) (ch : Ch) : s.SameFrame (s.evaluateQuiet ch) :=
  (State.SameFrame.setChan s ch _).trans (.bringQuiet _ _ _)

theorem State.SameFrame.accountMinute (s : State) (m : Summary) : s.SameFrame (s.accountMinute m) := by
  delta State.accountMinute
  extract_lets s1 s2
  have h2 : s1.SameFrame s2 := by
    dsimp only [s2]; split
    · exact .refl _
    · exact .lookAhead _ _ _ _
  exact (State.SameFrame.enterMinute s m).trans (h2.trans (.evaluateQuiet _ _))

theorem State.SameFrame.switchFs (s : State) (ch : Ch) : s.SameFrame (s.switchFs ch) := by
  unfold State.switchFs
  split
  · exact .refl s
  · exact (State.SameFrame.setChan _ _ _).trans ((State.SameFrame.enqueue _ _).trans (.notifyBoth _ _ _))

theorem State.SameFrame.closeMinute (s : State) (ch : Ch) (w : WaitingClose) : s.SameFrame (s.closeMinute ch w) := by
  delta State.closeMinute
  extract_lets c m e s1 s2
  exact (State.SameFrame.setChan _ _ _).trans ((State.SameFrame.accountMinute _ _).trans (.ite (.switchFs _ _) (.refl _)))

theorem State.SameFrame.closeWaiting (s : State) (ch : Ch) : s.SameFrame (s.closeWaiting ch) := by
  unfold State.closeWaiting
  split
  · exact .refl s
  · exact (State.SameFrame.setChan _ _ _).trans (.closeMinute _ _ _)

theorem State.SameFrame.events (s : State) (l : List EventRecord) (n : Nat) : s.SameFrame { s with eventList := l, eventSeq := n } :=
  ⟨rfl, rfl, rfl, rfl, rfl, rfl, rfl, rfl, rfl, rfl, rfl, rfl, rfl, rfl, rfl, rfl, rfl, fun q => by cases q <;> rfl,
    fun q => by cases q <;> exact .refl _⟩

theorem State.SameFrame.closeEvent (s : State) (ch : Ch) (c : EndCause) : s.SameFrame (s.closeEvent ch c) := by
  unfold State.closeEvent; dsimp only
  split
  · exact .refl s
  · exact (State.SameFrame.events s _ _).trans ((State.SameFrame.setChan _ _ _).trans (.notifyBoth _ _ _))

theorem State.SameFrame.openEvent (s : State) (ch : Ch) (r : SliceResult) : s.SameFrame (s.openEvent ch r) :=
  (State.SameFrame.events s _ _).trans ((State.SameFrame.setChan _ _ _).trans (.notifyBoth _ _ _))

theorem State.SameFrame.detectSlice (s : State) (ch : Ch) (r : SliceResult) : s.SameFrame (s.detectSlice ch r) := by
  unfold State.detectSlice; dsimp only
  split
  · exact (State.SameFrame.ite (.openEvent _ _ _) (.refl _)).trans (.setChan _ _ _)
  · split
    · exact (State.SameFrame.closeEvent _ _ _).trans (.setChan _ _ _)
    · split
      · exact (State.SameFrame.setChan _ _ _).trans ((State.SameFrame.closeEvent _ _ _).trans (.setChan _ _ _))
      · split
        · exact (State.SameFrame.setChan _ _ _).trans ((State.SameFrame.closeEvent _ _ _).trans (.setChan _ _ _))
        · exact (State.SameFrame.setChan _ _ _).trans (.setChan _ _ _)

theorem State.SameFrame.calUnit (s : State) (x : CalUnit) : s.SameFrame { s with calUnit := x } :=
  ⟨rfl, rfl, rfl, rfl, rfl, rfl, rfl, rfl, rfl, rfl, rfl, rfl, rfl, rfl, rfl, rfl, rfl, fun q => by cases q <;> rfl, fun q => by cases q <;> exact .refl _⟩

theorem State.SameFrame.calTakeSlice (s : State) (ch : Ch) (r : SliceResult) : s.SameFrame (s.calTakeSlice ch r) := by
  unfold State.calTakeSlice
  split
  · exact .refl s
  · split
    · exact .calUnit _ _
    · exact .refl s

theorem State.SameFrame.handOn (s : State) (ch : Ch) (r : SliceResult) : s.SameFrame (s.handOn ch r) :=
  (State.SameFrame.setChan s ch _).trans ((State.SameFrame.detectSlice _ ch r).trans
    ((State.SameFrame.calTakeSlice _ ch r).trans (.setChan _ _ _)))

theorem State.SameFrame.endRun (s : State) (ch : Ch) (o : CalOutcome) : s.SameFrame (s.endRun ch o) := by
  unfold State.endRun; dsimp only
  split
  · exact (State.SameFrame.calUnit s _).trans ((State.SameFrame.setChan _ _ _).trans (.notifyBoth _ _ _))
  · exact .refl s

theorem State.SameFrame.completeRun (s : State) (ch : Ch) : s.SameFrame (s.completeRun ch) := by
  unfold State.completeRun; dsimp only
  split
  · exact .refl s
  · split
    · exact (State.SameFrame.calUnit s _).trans ((State.SameFrame.setChan _ _ _).trans (.notifyBoth _ _ _))
    · exact .refl s

theorem State.SameFrame.settleProgress (s : State) (ch : Ch) : s.SameFrame (s.settleProgress ch) := by
  unfold State.settleProgress; dsimp only
  split
  · exact .refl s
  · exact .refl s
  · exact .refl s
  · exact .ite (.setChan _ _ _) (.setChan _ _ _)
  · exact .ite (.setChan _ _ _) (.setChan _ _ _)
  · exact .ite ((State.SameFrame.completeRun s ch).trans (.setChan _ _ _)) (.setChan _ _ _)
  · exact .ite (.setChan _ _ _) (.setChan _ _ _)
  · exact .ite ((State.SameFrame.setChan _ _ _).trans (.notifyBoth _ _ _)) (.setChan _ _ _)

theorem State.SameFrame.endSlice (s : State) (ch : Ch) : s.SameFrame (s.endSlice ch) :=
  (State.SameFrame.handOn s ch _).trans ((State.SameFrame.settleProgress _ _).trans (.closeWaiting _ _))

theorem State.SameFrame.cutSlice (s : State) (ch : Ch) : s.SameFrame (s.cutSlice ch) :=
  (State.SameFrame.handOn s ch _).trans (.closeWaiting _ _)

theorem State.SameFrame.blockEnd (s : State) (ch : Ch) : s.SameFrame (s.blockEnd ch) := .ite (.setChan _ _ _) (.refl s)

theorem State.SameFrame.frameSliceEnd (s : State) (ch : Ch) : s.SameFrame (s.frameSliceEnd ch) :=
  .ite ((State.SameFrame.blockEnd s ch).trans (.endSlice _ _)) (.refl s)

theorem State.SameFrame.loseChannel (s : State) (ch : Ch) : s.SameFrame (s.loseChannel ch) := by
  unfold State.loseChannel
  split
  · exact .refl s
  · exact .refl s
  · exact (State.SameFrame.cutSlice s ch).trans ((State.SameFrame.endRun _ _ _).trans
      ((State.SameFrame.setChan _ _ _).trans (.notifyBoth _ _ _)))

theorem State.SameFrame.restoreChannel (s : State) (ch : Ch) : s.SameFrame (s.restoreChannel ch) := by
  delta State.restoreChannel
  split
  · exact (State.SameFrame.cutSlice s ch).trans ((State.SameFrame.setChan _ _ _).trans
      ((State.SameFrame.setChan _ _ _).trans (.notifyBoth _ _ _)))
  · exact .refl s

theorem State.SameFrame.stopChannel (s : State) (ch : Ch) : s.SameFrame (s.stopChannel ch) := by
  unfold State.stopChannel
  split
  · exact .refl s
  · exact (State.SameFrame.closeEvent s ch _).trans ((State.SameFrame.endRun _ _ _).trans ((State.SameFrame.setChan _ _ _).trans
      ((State.SameFrame.notifyBoth _ _ _).trans (.closeWaiting _ _))))

theorem State.SameFrame.foldl {α : Type} (work : State → α → State) (h : ∀ (s : State) (a : α), s.SameFrame (work s a)) :
    ∀ (l : List α) (s : State), s.SameFrame (l.foldl work s)
  | [], s => .refl s
  | a :: l, s => (h s a).trans (State.SameFrame.foldl work h l (work s a))

theorem State.SameFrame.arrange {α : Type} (s : State) (l : List α) : s.SameFrame (s.arrange l).2 := by
  unfold State.arrange
  split
  · exact .refl s
  · exact .refl s
  · exact ⟨rfl, rfl, rfl, rfl, rfl, rfl, rfl, rfl, rfl, rfl, rfl, rfl, rfl, rfl, rfl, rfl, rfl, fun q => by cases q <;> rfl,
      fun q => by cases q <;> exact .refl _⟩

theorem State.SameFrame.inAnyOrder {α : Type} (work : State → α → State) (h : ∀ (s : State) (a : α), s.SameFrame (work s a)) (s : State)
    (l : List α) : s.SameFrame (s.inAnyOrder l work) :=
  (State.SameFrame.arrange s l).trans (.foldl work h _ _)

/-! ### The order taken is a rearrangement -/

theorem insertByKey_perm {α : Type} (x : Nat × α) : ∀ l : List (Nat × α), (insertByKey x l).Perm (x :: l)
  | [] => .refl _
  | y :: ys => by
    unfold insertByKey
    split
    · exact .refl _
    · exact ((insertByKey_perm x ys).cons y).trans (.swap x y ys)

theorem sortByKey_perm {α : Type} (key : Nat → Nat) (l : List α) : (sortByKey key l).Perm l := by
  have h : ∀ m : List (Nat × α), (m.foldr insertByKey []).Perm m := by
    intro m
    induction m with
    | nil => exact .refl _
    | cons x m ih => exact (insertByKey_perm x _).trans (ih.cons x)
  unfold sortByKey
  refine ((h _).map Prod.snd).trans ?_
  rw [List.map_map]
  have e : (Prod.snd ∘ fun x : α × Nat => (key x.2, x.1)) = Prod.fst := rfl
  rw [e, List.zipIdx_map_fst]

/-- Whatever order is taken, it is an order of the same pieces of work, and nothing but the count of choices has changed. -/
theorem State.arrange_perm {α : Type} (s : State) (l : List α) :
    (s.arrange l).1.Perm l ∧ (s.arrange l).2 = { s with orderUses := (s.arrange l).2.orderUses } := by
  unfold State.arrange
  split
  · exact ⟨.refl _, rfl⟩
  · exact ⟨.refl _, rfl⟩
  · exact ⟨sortByKey_perm _ _, rfl⟩

/-- An order is drawn for two and more. -/
theorem State.arrange_state {α : Type} (s : State) (l : List α) :
    (s.arrange l).2 = { s with orderUses := if (s.arrange l).1.length < 2 then s.orderUses else s.orderUses + 1 } := by
  rw [(State.arrange_perm s l).1.length_eq]
  match l with
  | [] => rfl
  | [_] => rfl
  | _ :: _ :: _ => rfl

/-! ### The other channels -/

theorem State.chan_writeMinuteRecord (s : State) (r : MinuteRecord) (ch : Ch) : (s.writeMinuteRecord r).chan ch = s.chan ch := by
  have h : ∀ (t : State) n p, (t.lagRaised n p).chan ch = t.chan ch := by
    intro t n p; unfold State.lagRaised State.notifyLag; split <;> simp
  delta State.writeMinuteRecord
  extract_lets l1 l2 s1 s2 s3
  rw [h, h]; rfl

theorem State.chan_enterMinute (s : State) (m : Summary) :
    (s.enterMinute m).chan m.ch = ((s.chan m.ch).enterMinute m s.header.lowMark).chan ∧
      ∀ d, d ≠ m.ch → (s.enterMinute m).chan d = s.chan d := by
  have h : ∀ (t : State) (b : Bool) k x d, (if b then t.notifyBoth k x else t).chan d = t.chan d := by
    intro t b k x d; split <;> rfl
  delta State.enterMinute
  extract_lets e seq r s1 s2 s3
  refine ⟨?_, fun d hd => ?_⟩
  · rw [State.chan_writeMinuteRecord, h, h]; exact State.chan_setChan_self _ _ _
  · rw [State.chan_writeMinuteRecord, h, h]; exact State.chan_setChan_ne _ hd _

theorem State.chan_closePeriod (s : State) (ch : Ch) (p : Period) (c : CloseCause) :
    (s.closePeriod ch p c).chan ch = { s.chan ch with period := none } ∧ ∀ d, d ≠ ch → (s.closePeriod ch p c).chan d = s.chan d := by
  delta State.closePeriod
  extract_lets r s1 seq s2 s3
  have e2 : ∀ d, s3.chan d = s2.chan d := fun _ => rfl
  have e : ∀ d, (if r.verdict = .breach then s3.notifyBoth .breach ⟨ch, 2, value32 r.sequence⟩ else s3).chan d = s2.chan d := by
    intro d; split <;> exact e2 d
  refine ⟨(e ch).trans ?_, fun d hd => (e d).trans ?_⟩
  · exact State.chan_setChan_self _ _ _
  · exact State.chan_setChan_ne _ hd _

theorem State.chan_closeIfDue_ne (s : State) {ch d : Ch} (hd : d ≠ ch) (b : Bool) (n : Nat) : (s.closeIfDue ch b n).chan d = s.chan d := by
  unfold State.closeIfDue
  split
  · rfl
  · split
    · rfl
    · exact (s.chan_closePeriod ch _ _).2 d hd

theorem State.chan_lookAhead_ne (s : State) {ch d : Ch} (hd : d ≠ ch) (b : Bool) (n : Nat) : (s.lookAhead ch b n).chan d = s.chan d := by
  have h : ∀ (t : State) (q : Prop) [Decidable q] c, (if q then t.setChan ch c else t).chan d = t.chan d := by
    intro t q _ c; split
    · exact State.chan_setChan_ne t hd c
    · rfl
  delta State.lookAhead
  extract_lets o s1 s2
  exact (h s2 _ _).trans ((h s1 _ _).trans (s.chan_closeIfDue_ne hd b n))

theorem State.chan_evaluateQuiet (s : State) (ch : Ch) :
    (s.evaluateQuiet ch).chan ch = { s.chan ch with quiet := s.quietReasonOf ch } ∧
      ∀ d, d ≠ ch → (s.evaluateQuiet ch).chan d = s.chan d := by
  unfold State.evaluateQuiet
  refine ⟨?_, fun d hd => ?_⟩
  · rw [State.chan_bringQuiet]; exact State.chan_setChan_self _ _ _
  · rw [State.chan_bringQuiet]; exact State.chan_setChan_ne _ hd _

theorem State.chan_accountMinute_ne (s : State) (m : Summary) {d : Ch} (hd : d ≠ m.ch) : (s.accountMinute m).chan d = s.chan d := by
  delta State.accountMinute
  extract_lets s1 s2
  have h2 : s2.chan d = s1.chan d := by
    dsimp only [s2]; split
    · rfl
    · exact State.chan_lookAhead_ne _ hd _ _
  exact ((State.chan_evaluateQuiet s2 m.ch).2 d hd).trans (h2.trans ((s.chan_enterMinute m).2 d hd))

theorem State.chan_switchFs_ne (s : State) {ch d : Ch} (hd : d ≠ ch) : (s.switchFs ch).chan d = s.chan d := by
  unfold State.switchFs
  split
  · rfl
  · exact State.chan_setChan_ne _ hd _

theorem State.chan_closeMinute_ne (s : State) {ch d : Ch} (hd : d ≠ ch) (w : WaitingClose) : (s.closeMinute ch w).chan d = s.chan d := by
  delta State.closeMinute
  extract_lets c m e s1 s2
  have h2 : s2.chan d = s.chan d := (State.chan_accountMinute_ne s1 m (d := d) hd).trans (State.chan_setChan_ne _ hd _)
  split
  · exact (State.chan_switchFs_ne s2 hd).trans h2
  · exact h2

theorem State.chan_closeWaiting_ne (s : State) {ch d : Ch} (hd : d ≠ ch) : (s.closeWaiting ch).chan d = s.chan d := by
  unfold State.closeWaiting
  split
  · rfl
  · exact (State.chan_closeMinute_ne _ hd _).trans (State.chan_setChan_ne _ hd _)

/-! ### The channel whose minute closes -/

/-- Channel `b` is `a` but for the fields that the closing of its minute changes. -/
def Channel.Closed (a b : Channel) : Prop :=
  b = { a with
    engine := { a.engine with minute := b.engine.minute }, minuteNo := b.minuteNo, waiting := b.waiting, period := b.period
    day := b.day, quiet := b.quiet, fs := b.fs, calSeq := b.calSeq, uncalibrated := b.uncalibrated, pendingFs := b.pendingFs }

theorem Channel.Closed.refl (a : Channel) : a.Closed a := rfl

theorem Channel.Closed.trans {a b c : Channel} (h : a.Closed b) (h' : b.Closed c) : a.Closed c := by
  unfold Channel.Closed at *
  have e : ∀ (m : MinuteAcc) n w p d q f k u x,
      { b with engine := { b.engine with minute := m }, minuteNo := n, waiting := w, period := p, day := d, quiet := q, fs := f,
               calSeq := k, uncalibrated := u, pendingFs := x } =
        { a with engine := { a.engine with minute := m }, minuteNo := n, waiting := w, period := p, day := d, quiet := q, fs := f,
                 calSeq := k, uncalibrated := u, pendingFs := x } := by
    intros; rw [h]
  exact h'.trans (e _ _ _ _ _ _ _ _ _ _)

/-- Channel `b` is `a` but for its accounts. -/
def Channel.Accounted (a b : Channel) : Prop := b = { a with period := b.period, day := b.day, quiet := b.quiet }

theorem Channel.Accounted.refl (a : Channel) : a.Accounted a := rfl

theorem Channel.Accounted.trans {a b c : Channel} (h : a.Accounted b) (h' : b.Accounted c) : a.Accounted c := by
  unfold Channel.Accounted at *
  have e : ∀ p d q, { b with period := p, day := d, quiet := q } = { a with period := p, day := d, quiet := q } := by
    intros; rw [h]
  exact h'.trans (e _ _ _)

theorem Channel.accounted_enterMinute (c : Channel) (m : Summary) (low : Nat) : c.Accounted (c.enterMinute m low).chan := by
  unfold Channel.enterMinute
  split
  · dsimp only
    split
    · split <;> rfl
    · rfl
  · rfl

theorem State.accounted_lookAhead (s : State) (ch : Ch) (b : Bool) (n : Nat) : (s.chan ch).Accounted ((s.lookAhead ch b n).chan ch) := by
  have h1 : (s.chan ch).Accounted ((s.closeIfDue ch b n).chan ch) := by
    unfold State.closeIfDue
    split
    · rfl
    · split
      · rfl
      · rw [(s.chan_closePeriod ch _ _).1]; rfl
  have h2 : ∀ (t : State) (q : Prop) [Decidable q], (t.chan ch).Accounted ((if q then t.openDay ch n else t).chan ch) := by
    intro t q _; split
    · unfold State.openDay; rw [State.chan_setChan_self]; rfl
    · rfl
  have h3 : ∀ (t : State) (q : Prop) [Decidable q], (t.chan ch).Accounted ((if q then t.openPeriod ch n else t).chan ch) := by
    intro t q _; split
    · unfold State.openPeriod; rw [State.chan_setChan_self]; rfl
    · rfl
  delta State.lookAhead
  extract_lets o s1 s2
  exact h1.trans ((h2 s1 _).trans (h3 s2 _))

theorem State.accounted_accountMinute (s : State) (m : Summary) : (s.chan m.ch).Accounted ((s.accountMinute m).chan m.ch) := by
  delta State.accountMinute
  extract_lets s1 s2
  have h1 : (s.chan m.ch).Accounted (s1.chan m.ch) := by rw [(s.chan_enterMinute m).1]; exact Channel.accounted_enterMinute _ _ _
  have h2 : (s1.chan m.ch).Accounted (s2.chan m.ch) := by
    dsimp only [s2]; split
    · rfl
    · exact State.accounted_lookAhead _ _ _ _
  refine h1.trans (h2.trans ?_)
  rw [(State.chan_evaluateQuiet s2 m.ch).1]; rfl

/-- What the closing of a minute leaves in its channel: an empty minute, the next number, and the rest of the channel but its accounts and
an FS switch. -/
theorem State.chan_closeMinute (s : State) (ch : Ch) (w : WaitingClose) :
    ((s.closeMinute ch w).chan ch).engine.minute = .empty ∧ ((s.closeMinute ch w).chan ch).minuteNo = w.boundary.next ∧
      ((s.closeMinute ch w).chan ch).waiting = (s.chan ch).waiting ∧ (s.chan ch).Closed ((s.closeMinute ch w).chan ch) := by
  delta State.closeMinute
  extract_lets c m e s1 s2
  have h1 : s1.chan ch = { c with engine := { c.engine with minute := .empty }, minuteNo := w.boundary.next } := State.chan_setChan_self _ _ _
  have h2 : (s1.chan ch).Accounted (s2.chan ch) := State.accounted_accountMinute s1 m
  have e2 : (s2.chan ch).engine.minute = .empty ∧ (s2.chan ch).minuteNo = w.boundary.next ∧ (s2.chan ch).waiting = c.waiting ∧
      c.Closed (s2.chan ch) := by
    unfold Channel.Accounted at h2
    rw [h1] at h2
    rw [h2]
    exact ⟨rfl, rfl, rfl, rfl⟩
  have h3 : ∀ t : State, (t.switchFs ch).chan ch = t.chan ch ∨
      ∃ fs, (t.switchFs ch).chan ch = { t.chan ch with fs := fs, calSeq := (t.chan ch).calSeq + 1, uncalibrated := false, pendingFs := none } := by
    intro t; unfold State.switchFs
    split
    · exact .inl rfl
    · next fs _ => exact .inr ⟨fs, State.chan_setChan_self _ _ _⟩
  split
  · rcases h3 s2 with h | ⟨fs, h⟩
    · rw [h]; exact e2
    · rw [h]
      refine ⟨e2.1, e2.2.1, e2.2.2.1, e2.2.2.2.trans ?_⟩
      rfl
  · exact e2

theorem State.chan_closeWaiting (s : State) (ch : Ch) :
    ((s.closeWaiting ch).chan ch).waiting = none ∧ (s.chan ch).Closed ((s.closeWaiting ch).chan ch) := by
  unfold State.closeWaiting
  split
  · next h => exact ⟨h, rfl⟩
  · next w h =>
    have h2 := State.chan_closeMinute (s.setChan ch { s.chan ch with waiting := none }) ch w
    rw [State.chan_setChan_self] at h2
    refine ⟨h2.2.2.1, Channel.Closed.trans ?_ h2.2.2.2⟩
    rfl

end Sys2Proof.Machine
end

