-- ==== Sys2Proof/Laws/AccountNotices.lean ====
section
/-! SUPPORT. AccountNotices: which of the account unit's notices a minute's entry and the look ahead set, and which they leave (R94 to R100). -/

namespace Sys2Proof.Machine

/-- R137, R145, R153: a minute record's entry sets MINUTE, CONDITION and HISTORY-LAG, and no other notice. -/
theorem State.writeMinuteRecord_notice (s : State) (r : MinuteRecord) (q : Port) (k : NoticeKind) (h1 : k ≠ .minute) (h2 : k ≠ .condition) (h3 : k ≠ .historyLag) :
    ((s.writeMinuteRecord r).port q).notice k = (s.port q).notice k := by
  have hc : ∀ (x : PortState) c, (x.takeCause r c).notice k = x.notice k := by
    intro x c; unfold PortState.takeCause
    split
    · rw [PortState.notice_notify, if_neg h2]; rfl
    · rfl
  have hl : ∀ (t : State) n p, ((t.lagRaised n p).port q).notice k = (t.port q).notice k := by
    intro t n p; unfold State.lagRaised State.notifyLag State.notify; split
    · rw [State.port_setPort]; split
      · next e => subst e; rw [PortState.notice_notify, if_neg h3]
      · rfl
    · rfl
  delta State.writeMinuteRecord
  extract_lets l1 l2 s1 s2 s3
  rw [hl, hl]
  have h4 : (s3.port q).notice k = (s2.port q).notice k := by
    cases q <;> exact ((hc _ _).trans ((hc _ _).trans ((hc _ _).trans (hc _ _))))
  rw [h4]
  show ((s1.notifyBoth _ _).port q).notice k = _
  rw [State.port_notifyBoth, PortState.notice_notify, if_neg h1]; cases q <;> rfl

/-- R96, R97: a minute that is no breach minute leaves BREACH, and one without the low mark's notice leaves ALLOWANCE-LOW. -/
theorem State.enterMinute_notice (s : State) (m : Summary) (q : Port) :
    let e := (s.chan m.ch).enterMinute m s.header.lowMark
    (e.breach = false → ((s.enterMinute m).port q).notice .breach = (s.port q).notice .breach) ∧
    (e.lowNotice = false → ((s.enterMinute m).port q).notice .allowanceLow = (s.port q).notice .allowanceLow) := by
  intro e0
  have hif : ∀ (t : State) (b : Bool) k d j, (b = false ∨ j ≠ k) → ((if b then t.notifyBoth k d else t).port q).notice j = (t.port q).notice j := by
    intro t b k d j h
    cases b
    · rfl
    · rw [if_pos rfl, State.port_notifyBoth, PortState.notice_notify, if_neg (h.resolve_left (by decide))]
  delta State.enterMinute
  extract_lets e seq r s1 s2
  constructor
  · intro h
    rw [State.writeMinuteRecord_notice _ _ _ _ (by decide) (by decide) (by decide), hif _ _ _ _ _ (.inr (by decide)), hif _ _ _ _ _ (.inl h), State.port_setChan]
  · intro h
    rw [State.writeMinuteRecord_notice _ _ _ _ (by decide) (by decide) (by decide), hif _ _ _ _ _ (.inl h), hif _ _ _ _ _ (.inr (by decide)), State.port_setChan]

/-- R94: without a period open or an ending number nothing is entered. -/
theorem Channel.enterMinute_not_entered (s : State) (m : Summary) (h : (s.chan m.ch).period = none ∨ m.boundary.ending = none) :
    (s.chan m.ch).enterMinute m s.header.lowMark = ⟨s.chan m.ch, none, false, false, 0, none, false, false, false, false⟩ := by
  unfold Channel.enterMinute; rcases h with h | h <;> rw [h]
  split
  · next h2 => cases h2
  · rfl

/-- R94 to R97: which accountable minute is a breach minute, and which gives the day's low notice. -/
theorem Channel.enterMinute_marks (s : State) (m : Summary) (p : Period) (k : Nat) (laeq lafmax lceq : Level) (hp : (s.chan m.ch).period = some p) (hk : m.boundary.ending = some k)
    (hv : 240 ≤ m.valid) (h1 : m.laeq = some laeq) (h2 : m.lafmax = some lafmax) (h3 : m.lceq = some lceq) :
    let c := s.chan m.ch
        let impulsive := p.rules.impulseThreshold ≤ lafmax - laeq
        let lowFreq := p.rules.lowFreqThreshold ≤ lceq - laeq
        let penalty := min ((if impulsive then p.rules.impulsePenalty else 0) + (if lowFreq then p.rules.lowFreqPenalty else 0)) p.rules.cap
        let lr := laeq + penalty
        let trigger := p.rules.trigger ≠ 0 ∧ p.rules.trigger ≤ lr
        let left := (c.day.map fun d => d.allowance - d.spent).getD 0
        let spends := trigger ∧ p.rules.works = true ∧ 0 < left
        let breach := trigger ∧ ¬ (p.rules.works = true ∧ 0 < left)
        let low := spends ∧ left - 1 ≤ s.header.lowMark
    let e := c.enterMinute m s.header.lowMark
    (e.breach = true ↔ breach) ∧ (e.lowNotice = true ↔ (low ∧ ∃ d, c.day = some d ∧ d.lowGiven = false)) := by
  intro c impulsive lowFreq penalty lr trigger left spends breach low e
  have he : e = c.enterMinute m s.header.lowMark := rfl
  unfold Channel.enterMinute at he
  rw [hp, hk] at he
  dsimp only at he
  rw [if_pos hv, h1, h2, h3] at he
  dsimp only [Option.getD_some] at he
  have hlr : (p.rules.rate laeq lafmax lceq).lr = lr := by
    simp only [Rules.rate, lr, penalty, impulsive, lowFreq, decide_eq_true_eq]
  have ht : (p.rules.trigger ≠ 0 ∧ p.rules.trigger ≤ lr) ↔ trigger := Iff.rfl
  split at he
  · next h2 =>
    have h : trigger := ⟨h2.1, hlr ▸ h2.2⟩
    have hw0 : ∀ y l f, ({ p with elapsed := y, last := l } : Period).rules.works = f → p.rules.works = f := fun _ _ _ h => h
    rw [he]
    dsimp only
    change ((!(settleTrigger p.rules.works c.day s.header.lowMark).2.1) = true ↔ _) ∧ ((settleTrigger p.rules.works c.day s.header.lowMark).2.2 = true ↔ _)
    simp only [settleTrigger]
    cases hd : c.day with
    | none => simp [breach, low, spends, left, hd, h]
    | some d =>
      have hl : left = d.allowance - d.spent := by simp [left, hd]
      dsimp only
      by_cases hw : p.rules.works = true ∧ d.spent < d.allowance
      · have hw' : (p.rules.works && decide (d.spent < d.allowance)) = true := by simp [hw]
        rw [if_pos hw']
        have hb : ¬ breach := fun hb => hb.2 ⟨hw.1, by rw [hl]; omega⟩
        have hs : spends := ⟨h, hw.1, by rw [hl]; omega⟩
        have hr : d.allowance - (d.spent + 1) = left - 1 := by rw [hl]; omega
        by_cases hg : left - 1 ≤ s.header.lowMark ∧ d.lowGiven = false
        · simp [Day.remaining, hr, hg, hb, low, hs]
        · simp [Day.remaining, hr, hb, low, hs]
          split <;> simp_all
      · have hw' : (p.rules.works && decide (d.spent < d.allowance)) = false := by
          simpa using hw
        rw [hw']
        have hb : breach := ⟨h, fun hb => hw ⟨hb.1, by have := hb.2; rw [hl] at this; omega⟩⟩
        have hs : ¬ spends := fun hs => hb.2 hs.2
        simp [hb, low, hs]
  · next h2 =>
    have h : ¬ trigger := fun h => h2 ⟨h.1, hlr ▸ h.2⟩
    rw [he]
    simp [breach, low, spends, h]

/-- R100: an open period that goes on sets no notice, and one that closes with another verdict than BREACH leaves BREACH. -/
theorem State.lookAhead_notices (s : State) (ch : Ch) (b : Bool) (n : Nat) (p : Period) (hp : (s.chan ch).period = some p) :
    (s.closeCause ch b n p = none → (s.lookAhead ch b n).site = s.site ∧ (s.lookAhead ch b n).compliance = s.compliance) ∧
    (∀ c, s.closeCause ch b n p = some c → p.verdict s.header.coverage ≠ .breach → ∀ q, ((s.lookAhead ch b n).port q).notice .breach = (s.port q).notice .breach) := by
  have h1 : ∀ (t : State) (c : Prop) [Decidable c], (if c then t.openDay ch n else t).site = t.site ∧ (if c then t.openDay ch n else t).compliance = t.compliance := by
    intro t c _; split <;> exact ⟨rfl, rfl⟩
  have h2 : ∀ (t : State) (c : Prop) [Decidable c], (if c then t.openPeriod ch n else t).site = t.site ∧ (if c then t.openPeriod ch n else t).compliance = t.compliance := by
    intro t c _; split <;> exact ⟨rfl, rfl⟩
  have h3 : (s.lookAhead ch b n).site = (s.closeIfDue ch b n).site ∧ (s.lookAhead ch b n).compliance = (s.closeIfDue ch b n).compliance := by
    delta State.lookAhead
    extract_lets o s1 s2
    exact ⟨(h2 _ _).1.trans (h1 _ _).1, (h2 _ _).2.trans (h1 _ _).2⟩
  constructor
  · intro hc
    have : s.closeIfDue ch b n = s := by unfold State.closeIfDue; rw [hp]; dsimp only; rw [hc]
    rw [h3.1, h3.2, this]; exact ⟨rfl, rfl⟩
  · intro c hc hv q
    have hq : (s.lookAhead ch b n).port q = (s.closeIfDue ch b n).port q := by cases q; exact h3.1; exact h3.2
    have : s.closeIfDue ch b n = s.closePeriod ch p c := by unfold State.closeIfDue; rw [hp]; dsimp only; rw [hc]
    rw [hq, this]
    delta State.closePeriod
    extract_lets r s1 x s2 s3
    have : r.verdict ≠ .breach := hv
    rw [if_neg this]
    show ((s2.notifyBoth _ _).port q).notice _ = _
    rw [State.port_notifyBoth, PortState.notice_notify, if_neg (by decide)]; cases q <;> rfl

end Sys2Proof.Machine
end

