-- ==== Sys2Proof/Laws/Transactions.lean ====
section
/-! SUPPORT. Transactions: what a port's command leaves, by what its owner answers; and the inputs and lines that the part's own due work leaves. -/

namespace Sys2Proof.Machine

/-! ### What is due leaves the inputs -/

/-- The inputs that hold the part, and the queue. -/
def State.SameInputs (s t : State) : Prop :=
  t.resetN = s.resetN ∧ t.supply = s.supply ∧ t.pending = s.pending ∧ t.resetCause = s.resetCause ∧ t.clockLossFound = s.clockLossFound

theorem State.SameInputs.refl (s : State) : s.SameInputs s := ⟨rfl, rfl, rfl, rfl, rfl⟩

theorem State.SameInputs.trans {s t u : State} (h : s.SameInputs t) (h' : t.SameInputs u) : s.SameInputs u :=
  ⟨h'.1.trans h.1, h'.2.1.trans h.2.1, h'.2.2.1.trans h.2.2.1, h'.2.2.2.1.trans h.2.2.2.1, h'.2.2.2.2.trans h.2.2.2.2⟩

theorem State.SameFrame.inputs {s t : State} (h : s.SameFrame t) : s.SameInputs t :=
  ⟨h.resetN, h.supply, h.pending, h.resetCause, h.clockLossFound⟩

theorem State.SameInputs.foldl {α : Type} (work : State → α → State) (h : ∀ (s : State) (a : α), s.SameInputs (work s a)) :
    ∀ (l : List α) (s : State), s.SameInputs (l.foldl work s)
  | [], s => .refl s
  | a :: l, s => (h s a).trans (State.SameInputs.foldl work h l (work s a))

theorem State.SameInputs.inAnyOrder {α : Type} (work : State → α → State) (h : ∀ (s : State) (a : α), s.SameInputs (work s a))
    (s : State) (l : List α) : s.SameInputs (s.inAnyOrder l work) :=
  (State.SameFrame.arrange s l).inputs.trans (.foldl work h _ _)

theorem State.SameInputs.setRx (s : State) (l : Line) (r : LineRx) : s.SameInputs (s.setRx l r) := by cases l <;> exact ⟨rfl, rfl, rfl, rfl, rfl⟩

theorem State.SameFrame.receiveBoundary (b : Boundary) (s : State) (ch : Ch) : s.SameFrame (s.receiveBoundary b ch) := by
  unfold State.receiveBoundary
  split
  · exact .closeMinute _ _ _
  · exact (State.SameFrame.closeWaiting s ch).trans (.setChan _ _ _)

theorem State.SameInputs.moveSlots (s : State) (n : MinuteOrAbsent) : s.SameInputs (s.moveSlots n) := by
  unfold State.moveSlots
  split
  · exact .refl s
  · refine .inAnyOrder _ (fun s i => ?_) s _
    unfold State.moveSlot
    split
    · exact .refl s
    · exact ⟨rfl, rfl, rfl, rfl, rfl⟩

theorem State.SameInputs.deliver (s : State) (b : Boundary) : s.SameInputs (s.deliver b) := by
  unfold State.deliver
  split
  · exact (State.SameInputs.moveSlots s _).trans ((State.SameFrame.inAnyOrder _ (State.SameFrame.receiveBoundary b) _ _).inputs.trans
      (State.SameFrame.foldl _ (State.SameFrame.receiveBoundary b) _ _).inputs)
  · exact .refl s

theorem State.SameInputs.takeDue (s : State) (x : DueStep) : s.SameInputs (s.takeDue x) := by
  cases x with
  | slice ch => exact (State.SameFrame.frameSliceEnd s ch).inputs
  | restored l =>
    show s.SameInputs (s.lineRestored l)
    unfold State.lineRestored
    split
    · exact (State.SameInputs.setRx s l _).trans (State.SameFrame.inAnyOrder _ State.SameFrame.restoreChannel _ _).inputs
    · exact .refl s
  | lapse ch =>
    show s.SameInputs (s.lapseResult ch)
    unfold State.lapseResult
    split
    · exact ⟨rfl, rfl, rfl, rfl, rfl⟩
    · exact .refl s
  | boundary =>
    show s.SameInputs s.emitBoundary
    unfold State.emitBoundary
    split
    · exact .trans (t := { s with clock := s.clock.nextMinute }) ⟨rfl, rfl, rfl, rfl, rfl⟩ (.deliver _ _)
    · exact .refl s

/-- Doing what is due leaves the reset input, the supply and the queue. -/
theorem State.SameInputs.settle (s : State) : s.SameInputs s.settle := by
  have h1 : s.SameInputs s.endBlocks := (State.SameFrame.foldl _ State.SameFrame.blockEnd Ch.list s).inputs
  have h2 : s.endBlocks.SameInputs (s.endBlocks.inAnyOrder s.endBlocks.dueSteps State.takeDue) :=
    .inAnyOrder _ State.SameInputs.takeDue _ _
  have h3 : ∀ t : State, t.SameInputs t.beginStoreWrite := fun _ => ⟨rfl, rfl, rfl, rfl, rfl⟩
  delta State.settle
  extract_lets t
  exact h1.trans (h2.trans (h3 _))

@[simp] theorem State.settle_running (s : State) : s.settle.running = s.running := by
  have h := State.SameInputs.settle s
  unfold State.running; rw [h.1, h.2.1]

/-! ### A transaction by what its owner answers -/

@[simp] theorem Part.falls_whole : Part.falls .whole = true := rfl
@[simp] theorem Part.falls_fall : Part.falls .fall = true := rfl
@[simp] theorem Part.falls_bytes : Part.falls .bytes = false := rfl
@[simp] theorem Part.falls_rise : Part.falls .rise = false := rfl
@[simp] theorem Part.rises_whole : Part.rises .whole = true := rfl
@[simp] theorem Part.rises_fall : Part.rises .fall = false := rfl
@[simp] theorem Part.rises_bytes : Part.rises .bytes = false := rfl
@[simp] theorem Part.rises_rise : Part.rises .rise = true := rfl
@[simp] theorem Piece.added_whole (params : List Byte) (b : Bool) (code : Byte) :
    Piece.added (.whole params) b code = if b then code :: params else params := rfl
@[simp] theorem Piece.added_fall (b : Bool) (code : Byte) : Piece.added .fall b code = [] := rfl
@[simp] theorem Piece.added_bytes (params : List Byte) (b : Bool) (code : Byte) :
    Piece.added (.bytes params) b code = if b then code :: params else params := rfl
@[simp] theorem Piece.added_rise (b : Bool) (code : Byte) : Piece.added .rise b code = [] := rfl

/-- A whole transaction: what the command's judgement of its code and parameters brings about, and its end. -/
theorem transact_whole {s : State} (hr : s.running = true) (p : Port) (code : Byte) (params : List Byte)
    (judge : List Byte → List Byte → Bool → State → Judgement) :
    s.transact p (.whole params) code judge =
      (let j := judge [] (code :: params) true s.settle
       j.state.conclude p j.result (.idle (clocked (params.length + 1) (s.settle.opening p ++ j.tail)))) := by
  simp [State.transact, hr, Transaction.begun]

/-- The fall of the select alone judges nothing, where the judgement of no byte and no rise does nothing. -/
theorem transact_fall {s : State} (hr : s.running = true) (p : Port) (code : Byte)
    {judge : List Byte → List Byte → Bool → State → Judgement} (hj : judge [] [] false s.settle = .nothing s.settle) :
    s.transact p .fall code judge = s.settle.withTransaction p ⟨.low, [], false, s.settle.opening p, []⟩ := by
  simp [State.transact, hr, Transaction.begun, hj, Judgement.nothing, State.conclude, State.withTransaction, clocked]

/-- A piece that finds the select high does nothing. -/
theorem transact_high {s : State} (hr : s.running = true) {p : Port} {piece : Piece} (hf : piece.part.falls = false)
    (hx : (s.settle.port p).transaction.select = .high) (code : Byte)
    (judge : List Byte → List Byte → Bool → State → Judgement) : s.transact p piece code judge = s.settle := by
  simp [State.transact, hr, Transaction.begun, hf, hx]

/-- A piece of a transaction in progress: what the command's judgement brings about, and the decoder after it. -/
theorem transact_low {s : State} (hr : s.running = true) {p : Port} {piece : Piece} {code : Byte} (hf : piece.part.falls = false)
    (hx : (s.settle.port p).transaction.select = .low)
    (hc : (s.settle.port p).transaction.received.head?.all (· == code) = true)
    (judge : List Byte → List Byte → Bool → State → Judgement) :
    s.transact p piece code judge =
      (let x := (s.settle.port p).transaction
       let bytes := x.received ++ piece.added x.received.isEmpty code
       let j := judge x.received bytes piece.part.rises s.settle
       let sent := clocked bytes.length (x.answer ++ j.tail)
       j.state.conclude p j.result
         (if piece.part.rises then .idle sent else ⟨.low, bytes, x.snapshot || j.snapshot, x.answer ++ j.tail, sent⟩)) := by
  simp [State.transact, hr, Transaction.begun, hf, hx, hc]

theorem clocked_write (u : State) (p : Port) (params : List Byte) :
    clocked (params.length + 1) (u.opening p) =
      ([u.statusByte p, (u.port p).lastResult.code] ++ List.replicate params.length 0).take (params.length + 1) := by
  unfold clocked State.opening
  simp only [List.take_append, List.take_replicate]
  congr 2
  simp
  try omega

theorem clocked_read (u : State) (p : Port) (count : Nat) (tail : List Byte) (n : Nat) :
    clocked n (u.opening p ++ (List.replicate (count - 1) 0 ++ tail)) = readSent u p count tail n := by
  unfold clocked readSent State.opening
  simp

/-- A write of the right form that its owner takes. -/
theorem portWrite_ok {p : Port} {code : Byte} {n : Nat} {role : Role} {params : List Byte}
    {owner : List Byte → State → Except Result State} {s t : State} (hr : s.running = true) (h : params.length = n)
    (hp : role.allows p = true) (ho : owner params s.settle = .ok t) :
    portWrite p code n role (.whole params) owner s = t.wrote p .ok s.settle params := by
  unfold portWrite
  rw [transact_whole hr]
  simp only [judgeWrite, judgeOwner, h, ne_eq, not_true_eq_false, if_false, hp, Bool.not_true, ho, State.conclude, State.wrote,
    Option.getD_some, List.append_nil]
  rw [← h, clocked_write]
  simp

/-- A write of the right form that its owner refuses. -/
theorem portWrite_refused {p : Port} {code : Byte} {n : Nat} {role : Role} {params : List Byte}
    {owner : List Byte → State → Except Result State} {s : State} {r : Result} (hr : s.running = true) (h : params.length = n)
    (hp : role.allows p = true) (ho : owner params s.settle = .error r) :
    portWrite p code n role (.whole params) owner s = s.settle.wrote p r s.settle params := by
  unfold portWrite
  rw [transact_whole hr]
  simp only [judgeWrite, judgeOwner, h, ne_eq, not_true_eq_false, if_false, hp, Bool.not_true, ho, State.conclude, State.wrote,
    Option.getD_some, List.append_nil]
  rw [← h, clocked_write]
  simp

/-- A read with its parameters that its owner answers. -/
theorem portRead_ok {p : Port} {code : Byte} {n : Nat} {params : List Byte} {owner : List Byte → State → Except Result (State × List Byte)}
    {s t : State} {d : List Byte} (hr : s.running = true) (h : n ≤ params.length) (ho : owner params s.settle = .ok (t, d)) :
    portRead p code n (.whole params) owner s = t.answered p s.settle n params d := by
  unfold portRead
  rw [transact_whole hr]
  have hn : n < params.length + 1 := by omega
  simp only [judgeRead, judgeSnapshot, List.length_nil, Nat.zero_le, decide_true, List.length_cons, hn, Bool.and_self, if_true,
    List.tail_cons, ho, State.conclude, State.answered, Option.getD_some, clocked_read]

/-- A read with its parameters that its owner refuses. -/
theorem portRead_refused {p : Port} {code : Byte} {n : Nat} {params : List Byte} {owner : List Byte → State → Except Result (State × List Byte)}
    {s : State} {r : Result} (hr : s.running = true) (h : n ≤ params.length) (ho : owner params s.settle = .error r) :
    portRead p code n (.whole params) owner s = s.settle.readRefused p r n params := by
  unfold portRead
  rw [transact_whole hr]
  have hn : n < params.length + 1 := by omega
  simp only [judgeRead, judgeSnapshot, List.length_nil, Nat.zero_le, decide_true, List.length_cons, hn, Bool.and_self, if_true,
    List.tail_cons, ho, State.conclude, State.readRefused, Option.getD_some, clocked_read, Nat.not_lt.mpr h, if_false]

/-- The channel a number names, and the numbers that name none. -/
theorem Ch.ofNat?_none {n : Nat} (h : 3 < n) : Ch.ofNat? n = none := by
  unfold Ch.ofNat?; split <;> first | omega | rfl

theorem Ch.ofNat?_index {n : Nat} {ch : Ch} (h : ch.index = n) : Ch.ofNat? n = some ch := by subst h; cases ch <;> rfl

/-! ### Notices set -/

theorem noticeSet_notify (x : PortState) (k : NoticeKind) (d : Detail) : NoticeSet x (x.notify k d) k d := by
  refine ⟨⟨rfl, fun j h => ?_, ?_⟩, ?_, ?_⟩
  · rw [PortState.notice_notify, if_neg h]
  all_goals rw [PortState.notice_notify, if_pos rfl]

theorem setOnBoth_notifyBoth (s : State) (k : NoticeKind) (d : Detail) : SetOnBoth s (s.notifyBoth k d) k d := by
  intro q; rw [State.port_notifyBoth]; exact noticeSet_notify _ _ _

end Sys2Proof.Machine
end

