-- ==== Sys2Proof/Laws/Closing.lean ====
section
/-! SUPPORT. Closing: what the close of one channel's minute does (R34, R45, R93, R124), said once; the reason of the quiet condition (R109) and the room
the event list makes (R134). -/

namespace Sys2Proof.Machine

/-- R93: the account unit's work is its entry and look ahead, then the evaluation of the quiet condition. -/
theorem State.accountMinute_eq (u : State) (x : Summary) : u.accountMinute x = (u.turned x).evaluateQuiet x.ch := by
  unfold State.accountMinute State.turned
  cases x.boundary.next <;> rfl

/-- R138: the summary that a minute's record shows is the one it was made from. -/
@[simp] theorem minuteRecord_summary (n : Nat) (x : Summary) (e : MinuteEntry) : (minuteRecord n x e).summary x.boundary = x := rfl

/-- R34, R35, R138: the record of a channel's summary is that of its minute. -/
theorem minuteRecord_of (n : Nat) (c : Channel) (ch : Ch) (b : Boundary) (e : MinuteEntry) :
    (minuteRecord n (c.summary ch b) e).Of ch c c.engine.minute b where
  channel := rfl
  minute := rfl
  counts := ⟨rfl, rfl, rfl, rfl, rfl, rfl⟩
  levels := by
    constructor
    · intro h; simp [minuteRecord, Channel.summary, MinuteAcc.levels, h]
    · intro h; simp [minuteRecord, Channel.summary, MinuteAcc.levels, h]
  standing := ⟨rfl, rfl, rfl⟩
  causes := by
    refine ⟨rfl, rfl, rfl, ?_⟩
    by_cases h : c.engine.minute.valid = 0
    · simp [minuteRecord, Channel.summary, MinuteAcc.levels, h]
    · simp [minuteRecord, Channel.summary, MinuteAcc.levels, h, or_assoc]

/-! ### What the account unit's steps leave of the collections -/

@[simp] theorem State.lagRaised_minuteRing (s : State) (n : Nat) (p : Port) : (s.lagRaised n p).minuteRing = s.minuteRing := by
  unfold State.lagRaised; split <;> cases p <;> rfl

@[simp] theorem State.lagRaised_minuteSeq (s : State) (n : Nat) (p : Port) : (s.lagRaised n p).minuteSeq = s.minuteSeq := by
  unfold State.lagRaised; split <;> cases p <;> rfl

@[simp] theorem State.lagRaised_periodSeq (s : State) (n : Nat) (p : Port) : (s.lagRaised n p).periodSeq = s.periodSeq := by
  unfold State.lagRaised; split <;> cases p <;> rfl

@[simp] theorem State.writeMinuteRecord_minuteRing (s : State) (r : MinuteRecord) :
    (s.writeMinuteRecord r).minuteRing = pushBounded 2048 s.minuteRing r := by
  simp [State.writeMinuteRecord]

@[simp] theorem State.writeMinuteRecord_minuteSeq (s : State) (r : MinuteRecord) : (s.writeMinuteRecord r).minuteSeq = s.minuteSeq + 1 := by
  simp [State.writeMinuteRecord]

@[simp] theorem State.writeMinuteRecord_periodSeq (s : State) (r : MinuteRecord) : (s.writeMinuteRecord r).periodSeq = s.periodSeq := by
  simp [State.writeMinuteRecord]

/-- The newest element of a bounded collection is the one that joined it last. -/
theorem pushBounded_getLast? {α : Type} (cap : Nat) (l : List α) (a : α) : (pushBounded cap l a).getLast? = some a := by
  unfold pushBounded; split <;> simp

/-- R98, R137: the record at the newest end of the ring once a minute is entered. -/
theorem State.enterMinute_newest (s : State) (x : Summary) :
    (s.enterMinute x).minuteRing.getLast? = some (minuteRecord s.minuteSeq x ((s.chan x.ch).enterMinute x s.header.lowMark)) := by
  simp [State.enterMinute, pushBounded_getLast?]

theorem State.enterMinute_minuteSeq (s : State) (x : Summary) : (s.enterMinute x).minuteSeq = s.minuteSeq + 1 := by
  simp only [State.enterMinute, writeMinuteRecord_minuteSeq]
  split <;> split <;> simp

theorem State.closeIfDue_minutes (s : State) (ch : Ch) (b : Bool) (n : Nat) :
    (s.closeIfDue ch b n).minuteRing = s.minuteRing ∧ (s.closeIfDue ch b n).minuteSeq = s.minuteSeq := by
  unfold State.closeIfDue
  split
  · exact ⟨rfl, rfl⟩
  · split
    · exact ⟨rfl, rfl⟩
    · unfold State.closePeriod; dsimp only; split <;> exact ⟨by simp, by simp⟩

/-- Looking ahead touches no minute record. -/
theorem State.lookAhead_minutes (s : State) (ch : Ch) (b : Bool) (n : Nat) :
    (s.lookAhead ch b n).minuteRing = s.minuteRing ∧ (s.lookAhead ch b n).minuteSeq = s.minuteSeq := by
  have h := s.closeIfDue_minutes ch b n
  unfold State.lookAhead; dsimp only
  split <;> split <;> exact ⟨by simpa [State.openDay, State.openPeriod] using h.1, by simpa [State.openDay, State.openPeriod] using h.2⟩

theorem State.turned_minutes (u : State) (x : Summary) :
    (u.turned x).minuteRing = (u.enterMinute x).minuteRing ∧ (u.turned x).minuteSeq = u.minuteSeq + 1 := by
  unfold State.turned
  split
  · exact ⟨rfl, u.enterMinute_minuteSeq x⟩
  · exact ⟨(State.lookAhead_minutes _ _ _ _).1, (State.lookAhead_minutes _ _ _ _).2.trans (u.enterMinute_minuteSeq x)⟩

theorem State.closeIfDue_periods (s : State) (ch : Ch) (b : Bool) (n : Nat) :
    (s.closeIfDue ch b n).periodSeq = s.periodSeq ∨ ∃ k, (s.closeIfDue ch b n).periodList.getLast? = some k := by
  unfold State.closeIfDue
  split
  · exact .inl rfl
  · split
    · exact .inl rfl
    · right
      unfold State.closePeriod; dsimp only; split <;> exact ⟨_, pushBounded_getLast? _ _ _⟩

/-- R100, R139: a period that the unit closes as it looks ahead leaves its record at the newest end of the period list. -/
theorem State.lookAhead_periods (s : State) (ch : Ch) (b : Bool) (n : Nat) :
    (s.lookAhead ch b n).periodSeq = s.periodSeq ∨ ∃ k, (s.lookAhead ch b n).periodList.getLast? = some k := by
  have h := s.closeIfDue_periods ch b n
  unfold State.lookAhead; dsimp only
  split <;> split <;> simpa [State.openDay, State.openPeriod] using h

theorem State.enterMinute_periodSeq (s : State) (x : Summary) : (s.enterMinute x).periodSeq = s.periodSeq := by
  simp only [State.enterMinute, writeMinuteRecord_periodSeq]
  split <;> split <;> simp

theorem State.turned_periods (u : State) (x : Summary) (h : (u.turned x).periodSeq ≠ u.periodSeq) :
    ∃ k, (u.turned x).periodList.getLast? = some k := by
  unfold State.turned at h ⊢
  split at h
  · exact absurd (u.enterMinute_periodSeq x) h
  · exact (State.lookAhead_periods _ _ _ _).resolve_left fun h' => h (h'.trans (u.enterMinute_periodSeq x))

/-! ### What the evaluation of the quiet condition and an FS switch leave -/

@[simp] theorem State.bringQuiet_minuteRing (s : State) (ch : Ch) (i : QuietInput) : (s.bringQuiet ch i).minuteRing = s.minuteRing := by
  unfold State.bringQuiet; split <;> rfl

@[simp] theorem State.bringQuiet_minuteSeq (s : State) (ch : Ch) (i : QuietInput) : (s.bringQuiet ch i).minuteSeq = s.minuteSeq := by
  unfold State.bringQuiet; split <;> rfl

@[simp] theorem State.bringQuiet_periodList (s : State) (ch : Ch) (i : QuietInput) : (s.bringQuiet ch i).periodList = s.periodList := by
  unfold State.bringQuiet; split <;> rfl

@[simp] theorem State.bringQuiet_periodSeq (s : State) (ch : Ch) (i : QuietInput) : (s.bringQuiet ch i).periodSeq = s.periodSeq := by
  unfold State.bringQuiet; split <;> rfl

theorem State.bringQuiet_conditions (s : State) (ch : Ch) (i : QuietInput) (q : Port) :
    ((s.bringQuiet ch i).port q).conditions = (s.port q).conditions := by
  unfold State.bringQuiet; split <;> cases q <;> rfl

/-- R93: the evaluation of the quiet condition leaves the collections, the condition flags and the accounts. -/
theorem State.evaluateQuiet_leaves (s : State) (ch : Ch) :
    (s.evaluateQuiet ch).minuteRing = s.minuteRing ∧ (s.evaluateQuiet ch).minuteSeq = s.minuteSeq ∧
    (s.evaluateQuiet ch).periodList = s.periodList ∧ (s.evaluateQuiet ch).periodSeq = s.periodSeq ∧
    (∀ q, ((s.evaluateQuiet ch).port q).conditions = (s.port q).conditions) ∧
    ((s.evaluateQuiet ch).chan ch).period = (s.chan ch).period ∧ ((s.evaluateQuiet ch).chan ch).day = (s.chan ch).day := by
  unfold State.evaluateQuiet State.holdQuiet
  refine ⟨by simp, by simp, by simp, by simp, fun q => ?_, ?_, ?_⟩
  · rw [State.bringQuiet_conditions, State.port_setChan]
  all_goals simp [State.chan_bringQuiet]

/-- R124: an FS switch leaves the collections, the accounts, the QUIET line, the condition flags and every notice but CAL. -/
theorem State.switchFs_leaves (s : State) (ch : Ch) :
    (s.switchFs ch).minuteRing = s.minuteRing ∧ (s.switchFs ch).minuteSeq = s.minuteSeq ∧
    (s.switchFs ch).periodList = s.periodList ∧ (s.switchFs ch).periodSeq = s.periodSeq ∧ (s.switchFs ch).quietLine = s.quietLine ∧
    (∀ q, ((s.switchFs ch).port q).conditions = (s.port q).conditions ∧
      ∀ k, k ≠ .cal → ((s.switchFs ch).port q).notice k = (s.port q).notice k) ∧
    ((s.switchFs ch).chan ch).period = (s.chan ch).period ∧ ((s.switchFs ch).chan ch).day = (s.chan ch).day ∧
    ((s.switchFs ch).chan ch).quiet = (s.chan ch).quiet := by
  unfold State.switchFs
  split
  · exact ⟨rfl, rfl, rfl, rfl, rfl, fun q => ⟨rfl, fun _ _ => rfl⟩, rfl, rfl, rfl⟩
  · refine ⟨rfl, rfl, rfl, rfl, rfl, fun q => ⟨?_, fun k hk => ?_⟩, ?_, ?_, ?_⟩
    · cases q <;> rfl
    · rw [State.notifyCal, State.port_notifyBoth, PortState.notice_notify, if_neg hk]; cases q <;> rfl
    all_goals simp [State.notifyCal]

/-! ### The close of a minute -/

/-- The state in which the account unit begins its work as a channel's minute closes: the next minute is begun (R34, R129). -/
def State.minuteBegun (s : State) (ch : Ch) (b : Boundary) : State :=
  s.setChan ch { s.chan ch with engine := { (s.chan ch).engine with minute := .empty }, minuteNo := b.next }

/-- R34, R45, R93, R98, R138: the close of a channel's minute writes its record at the newest end of the ring, and the account unit does its whole work on it,
alone. -/
theorem State.closeMinute_accounts (s : State) (ch : Ch) (w : WaitingClose) : ∃ r, (s.closeMinute ch w).minuteRing.getLast? = some r ∧
    (s.closeMinute ch w).minuteSeq = s.minuteSeq + 1 ∧ r.sequence = s.minuteSeq ∧ r.Of ch (s.chan ch) (s.chan ch).engine.minute w.boundary ∧
    Accounted s (s.minuteBegun ch w.boundary) (s.closeMinute ch w) ch w.boundary (s.chan ch).period r ∧
    AccountedAlone s (s.minuteBegun ch w.boundary) (s.closeMinute ch w) (r.summary w.boundary) := by
  let u := s.minuteBegun ch w.boundary
  let x := (s.chan ch).summary ch w.boundary
  let r := minuteRecord u.minuteSeq x ((u.chan ch).enterMinute x u.header.lowMark)
  let v := (u.turned x).evaluateQuiet ch
  have hx : r.summary w.boundary = x := rfl
  have ht : s.closeMinute ch w = if w.makesSwitch then v.switchFs ch else v := by
    have := u.accountMinute_eq x
    show (if w.makesSwitch then (u.accountMinute x).switchFs ch else u.accountMinute x) = _
    rw [this]; rfl
  generalize s.closeMinute ch w = t at ht ⊢
  have hq := (u.turned x).evaluateQuiet_leaves ch
  have hs : t.minuteRing = v.minuteRing ∧ t.minuteSeq = v.minuteSeq ∧ t.periodList = v.periodList ∧ t.periodSeq = v.periodSeq ∧
      t.quietLine = v.quietLine ∧ (∀ q, (t.port q).conditions = (v.port q).conditions ∧
        ∀ k, k ≠ .cal → (t.port q).notice k = (v.port q).notice k) ∧ (t.chan ch).period = (v.chan ch).period ∧
      (t.chan ch).day = (v.chan ch).day ∧ (t.chan ch).quiet = (v.chan ch).quiet := by
    rw [ht]
    split
    · exact v.switchFs_leaves ch
    · exact ⟨rfl, rfl, rfl, rfl, rfl, fun q => ⟨rfl, fun _ _ => rfl⟩, rfl, rfl, rfl⟩
  have hm := u.turned_minutes x
  have hn := u.enterMinute_newest x
  have hring : t.minuteRing = (u.enterMinute x).minuteRing := by rw [hs.1, hq.1, hm.1]
  have hseq : t.minuteSeq = s.minuteSeq + 1 := by rw [hs.2.1, hq.2.1, hm.2]; rfl
  refine ⟨r, (congrArg _ hring).trans hn, hseq, rfl, minuteRecord_of .., ?_, ?_⟩
  · exact {
      settings := ⟨rfl, rfl, rfl, rfl⟩
      before := by constructor <;> simp [State.minuteBegun]
      later := ⟨Nat.le_refl _, Nat.le_refl _⟩
      marked := hn
      listed := ⟨List.mem_of_getLast? ((congrArg _ hring).trans hn), by rw [hseq]; exact Nat.lt_succ_self _⟩
      period := by rw [hs.2.2.2.2.2.2.1]; exact hq.2.2.2.2.2.1
      day := by rw [hs.2.2.2.2.2.2.2.1]; exact hq.2.2.2.2.2.2
      quiet := hs.2.2.2.2.2.2.2.2
      closed := fun h => by
        obtain ⟨k, hk⟩ := u.turned_periods x h
        exact ⟨k, List.mem_of_getLast? (by rw [hs.2.2.1, hq.2.2.1]; exact hk), hk⟩ }
  · exact {
      collections := ⟨rfl, rfl, rfl, rfl⟩
      line := ⟨rfl, fun d hd => State.chan_setChan_ne s hd _⟩
      ports := fun q => ⟨by cases q <;> rfl, fun k _ => by cases q <;> rfl⟩
      minuteRing := hs.1.trans hq.1
      periodList := hs.2.2.1.trans hq.2.2.1
      periodSeq := hs.2.2.2.1.trans hq.2.2.2.1
      quietLine := hs.2.2.2.2.1
      conditions := fun q => ((hs.2.2.2.2.2.1 q).1).trans (hq.2.2.2.2.1 q)
      notices := fun q k hk => (hs.2.2.2.2.2.1 q).2 k fun e => hk (.inr (.inl e)) }

/-! ### The reason of the quiet condition, and the event list -/

/-- R108: a period has no sustainable level because its budget is used up. -/
theorem Period.exhausted_iff (p : Period) :
    p.sustainable = .exhausted ↔ p.elapsed < p.planned ∧ energyUnit p.rules.limit * p.planned ≤ p.ratedSum := by
  unfold Period.sustainable
  dsimp only
  split
  · simp; omega
  · split
    · simp; omega
    · split <;> simp <;> omega

/-- R109: the reason a channel's condition takes is the one the rule gives. -/
theorem State.quietReasonOf_is (s : State) (ch : Ch) :
    QuietReasonIs (maskHas s.commissioning.installed ch) (s.chan ch) (s.quietReasonOf ch) := by
  unfold State.quietReasonOf State.installed
  constructor
  · rintro (h | h)
    · split <;> simp_all
    · simp [h]
  · intro p h1 h2 h3; simp [h1, h2, h3]
  · intro p d h1 h2 h3 h4 h5; simp [Day.remaining, h1, h2, h3, h4, h5]
  · intro p h1 h2 h3 h4
    have h5 : (s.chan ch).day.any (fun d => d.remaining == 0) = false := by
      cases hd : (s.chan ch).day with
      | none => rfl
      | some d => have := h4 d hd; simp [Day.remaining]; omega
    simp [h1, h2, h3, h5, p.exhausted_iff]

/-- R134: a list with room, or one of OPEN records only, gives up none. -/
theorem makeRoom_keeps (l : List EventRecord) (h : l.length < 32 ∨ ∀ r ∈ l, r.closed = none) : makeRoom l = l := by
  unfold makeRoom
  split
  · exact List.eraseP_of_forall_not fun r hr => by simp [h.resolve_left (by omega) r hr]
  · rfl

/-- R134: a full list gives up its oldest CLOSED record, and no other. -/
theorem makeRoom_removes (older newer : List EventRecord) (r : EventRecord) (h : 32 ≤ (older ++ r :: newer).length)
    (ho : ∀ x ∈ older, x.closed = none) (hr : r.closed ≠ none) : makeRoom (older ++ r :: newer) = older ++ newer := by
  unfold makeRoom
  rw [if_pos h, List.eraseP_append_right _ fun x hx => by simp [ho x hx], List.eraseP_cons_of_pos (by simpa [Option.isSome_iff_ne_none] using hr)]

end Sys2Proof.Machine
end

