-- ==== Sys2Proof/Laws/Coefficients.lean ====
section
/-! SUPPORT. Coefficients: the integers of the weighting sections are the formulas of R22, rounded (notes/assumptions/4.md). The bounds are decimal
neighbours of the values, kernel checked from Mathlib's bounds of π. -/

namespace Sys2Proof.Machine

/-- A number that is not negative lies between two bounds if its square lies between theirs. -/
theorem between_of_sq {x l u : ℝ} (hx : 0 ≤ x) (hl : 0 ≤ l) (hu : 0 ≤ u) (h : l ^ 2 ≤ x ^ 2) (h' : x ^ 2 ≤ u ^ 2) : l ≤ x ∧ x ≤ u :=
  ⟨(pow_le_pow_iff_left₀ hl hx two_ne_zero).mp h, (pow_le_pow_iff_left₀ hx hu two_ne_zero).mp h'⟩

/-- The product of two intervals of numbers that are not negative. -/
theorem between_mul {x y a b c d : ℝ} (ha : 0 ≤ a) (hc : 0 ≤ c) (hx : a ≤ x ∧ x ≤ b) (hy : c ≤ y ∧ y ≤ d) : a * c ≤ x * y ∧ x * y ≤ b * d :=
  ⟨mul_le_mul hx.1 hy.1 hc (ha.trans hx.1), mul_le_mul hx.2 hy.2 (hc.trans hy.1) (ha.trans (hx.1.trans hx.2))⟩

/-- R22: the pole of a frequency at the 48 kHz frame rate. -/
noncomputable def poleOf (f : ℝ) : ℝ := (96000 - 2 * Real.pi * f) / (96000 + 2 * Real.pi * f)

theorem poleOf_between {f l u : ℝ} (hf : 0 ≤ f) (hl : l * (96000 + 2 * Real.pi * f) ≤ 96000 - 2 * Real.pi * f)
    (hu : 96000 - 2 * Real.pi * f ≤ u * (96000 + 2 * Real.pi * f)) : l ≤ poleOf f ∧ poleOf f ≤ u := by
  have h : 0 < 96000 + 2 * Real.pi * f := by have := Real.pi_pos; positivity
  exact ⟨(le_div_iff₀ h).mpr hl, (div_le_iff₀ h).mpr hu⟩

theorem pole1_between : 0.9973072279965107 ≤ poleOf 20.598997 ∧ poleOf 20.598997 ≤ 0.9973072279965108 :=
  poleOf_between (by norm_num) (by linarith [Real.pi_gt_d20, Real.pi_lt_d20]) (by linarith [Real.pi_gt_d20, Real.pi_lt_d20])

theorem pole2_between : 0.9860068943832626 ≤ poleOf 107.65265 ∧ poleOf 107.65265 ≤ 0.9860068943832627 :=
  poleOf_between (by norm_num) (by linarith [Real.pi_gt_d20, Real.pi_lt_d20]) (by linarith [Real.pi_gt_d20, Real.pi_lt_d20])

theorem pole3_between : 0.9078636003398079 ≤ poleOf 737.86223 ∧ poleOf 737.86223 ≤ 0.9078636003398080 :=
  poleOf_between (by norm_num) (by linarith [Real.pi_gt_d20, Real.pi_lt_d20]) (by linarith [Real.pi_gt_d20, Real.pi_lt_d20])

theorem pole4_between : 0.1122792290298895 ≤ poleOf 12194.217 ∧ poleOf 12194.217 ≤ 0.1122792290298896 :=
  poleOf_between (by norm_num) (by linarith [Real.pi_gt_d20, Real.pi_lt_d20]) (by linarith [Real.pi_gt_d20, Real.pi_lt_d20])

/-- The cosine of the angle that 1 kHz is at the 48 kHz frame rate, by halving π/6 twice. -/
theorem cos_between : 0.991444861373810411 ≤ Real.cos (Real.pi / 24) ∧ Real.cos (Real.pi / 24) ≤ 0.991444861373810412 := by
  have hp := Real.pi_pos
  have r : (1.73205080756887729352 : ℝ) ≤ √3 ∧ √3 ≤ 1.73205080756887729353 :=
    between_of_sq (Real.sqrt_nonneg 3) (by norm_num) (by norm_num) (by rw [Real.sq_sqrt (by norm_num)]; norm_num)
      (by rw [Real.sq_sqrt (by norm_num)]; norm_num)
  have d2 : Real.cos (Real.pi / 12) ^ 2 = 1 / 2 + √3 / 4 := by
    rw [Real.cos_sq, show 2 * (Real.pi / 12) = Real.pi / 6 by ring, Real.cos_pi_div_six]; ring
  have d := between_of_sq (l := 0.9659258262890682867) (u := 0.9659258262890682868)
    (Real.cos_nonneg_of_mem_Icc ⟨by linarith, by linarith⟩ : 0 ≤ Real.cos (Real.pi / 12)) (by norm_num) (by norm_num)
    (by rw [d2]; linarith) (by rw [d2]; linarith)
  have c2 : Real.cos (Real.pi / 24) ^ 2 = 1 / 2 + Real.cos (Real.pi / 12) / 2 := by
    rw [Real.cos_sq, show 2 * (Real.pi / 24) = Real.pi / 12 by ring]
  exact between_of_sq (Real.cos_nonneg_of_mem_Icc ⟨by linarith, by linarith⟩ : 0 ≤ Real.cos (Real.pi / 24)) (by norm_num) (by norm_num)
    (by rw [c2]; linarith) (by rw [c2]; linarith)

/-! ### The responses at 1 kHz -/

/-- The delay of one sample at 1 kHz. -/
noncomputable def delay1k : ℂ := Complex.exp (-(2 * Real.pi * 1000 / 48000) * Complex.I)

/-- The square of the magnitude of 1 − p·z at 1 kHz. -/
noncomputable def gapSq (p : ℝ) : ℝ := 1 - 2 * (p * Real.cos (Real.pi / 24)) + p ^ 2

theorem norm_gap_sq (p : ℝ) : ‖1 - (p : ℂ) * delay1k‖ ^ 2 = gapSq p := by
  have hz : delay1k = ⟨Real.cos (Real.pi / 24), -Real.sin (Real.pi / 24)⟩ := by
    have : (-(2 * Real.pi * 1000 / 48000) : ℂ) = ((-(Real.pi / 24) : ℝ) : ℂ) := by push_cast; ring
    rw [delay1k, this]
    exact Complex.ext (by rw [Complex.exp_ofReal_mul_I_re, Real.cos_neg]) (by rw [Complex.exp_ofReal_mul_I_im, Real.sin_neg])
  have h := Real.sin_sq_add_cos_sq (Real.pi / 24)
  rw [← Complex.normSq_eq_norm_sq, hz, Complex.normSq_apply]
  simp only [Complex.sub_re, Complex.sub_im, Complex.mul_re, Complex.mul_im, Complex.ofReal_re, Complex.ofReal_im, Complex.one_re,
    Complex.one_im, gapSq]
  linear_combination p ^ 2 * h

theorem gapSq_between {p l u : ℝ} (h0 : 0 ≤ l) (h : l ≤ p ∧ p ≤ u) :
    1 - 2 * (u * 0.991444861373810412) + l ^ 2 ≤ gapSq p ∧ gapSq p ≤ 1 - 2 * (l * 0.991444861373810411) + u ^ 2 := by
  have h1 := between_mul h0 (by norm_num) h cos_between
  have h2 := between_mul h0 h0 h h
  unfold gapSq
  rw [pow_two p, pow_two l, pow_two u]
  constructor <;> linarith

/-- The square of the magnitude at 1 kHz of a section with the poles `p` and `q` and two zeros at `-sign`. -/
theorem norm_section_sq (gain sign p q a1 a2 : ℝ) (hs : sign ^ 2 = 1) (ha1 : a1 = -(p + q)) (ha2 : a2 = p * q) :
    ‖(gain * (1 + sign * 2 * delay1k + delay1k ^ 2) / (1 + a1 * delay1k + a2 * delay1k ^ 2) : ℂ)‖ ^ 2 =
      gain ^ 2 * gapSq (-sign) ^ 2 / (gapSq p * gapSq q) := by
  have hn : (1 + sign * 2 * delay1k + delay1k ^ 2 : ℂ) = (1 - ((-sign : ℝ) : ℂ) * delay1k) ^ 2 := by
    have : (sign : ℂ) ^ 2 = 1 := by exact_mod_cast hs
    push_cast; linear_combination (-delay1k ^ 2) * this
  have hd : (1 + a1 * delay1k + a2 * delay1k ^ 2 : ℂ) = (1 - p * delay1k) * (1 - q * delay1k) := by subst ha1 ha2; push_cast; ring
  rw [hn, hd]
  simp only [norm_div, norm_mul, norm_pow, Complex.norm_real, Real.norm_eq_abs, div_pow, mul_pow, sq_abs]
  rw [← norm_gap_sq (-sign), ← norm_gap_sq p, ← norm_gap_sq q]

/-- An integer is the rounding of a number in units of 2^−22, given its bounds. -/
def Near (n : Int) (x : ℝ) : Prop := (n : ℝ) ≤ 2 ^ 22 * x + 1 / 2 ∧ 2 ^ 22 * x + 1 / 2 < n + 1

theorem near_of {n : Int} {x l u : ℝ} (h : l ≤ x ∧ x ≤ u) (hl : (n : ℝ) ≤ 2 ^ 22 * l + 1 / 2) (hu : 2 ^ 22 * u + 1 / 2 < n + 1) : Near n x :=
  ⟨by linarith [h.1], by linarith [h.2]⟩

theorem formed {k : Coefficients} {gain a1 a2 : ℝ} {sign : Int} (h0 : Near k.b0 gain) (h1 : Near k.a1 a1) (h2 : Near k.a2 a2)
    (hb1 : k.b1 = sign * 2 * k.b0) (hb2 : k.b2 = k.b0) : k.FormedFrom gain sign a1 a2 :=
  ⟨(Int.floor_eq_iff.mpr h0).symm, hb1, hb2, (Int.floor_eq_iff.mpr h1).symm, (Int.floor_eq_iff.mpr h2).symm⟩

/-- R22: the integers are the formulas rounded, for poles within these bounds. -/
theorem formed_of_poles {p1 p2 p3 p4 : ℝ} (h1 : 0.9973072279965107 ≤ p1 ∧ p1 ≤ 0.9973072279965108) (h2 : 0.9860068943832626 ≤ p2 ∧ p2 ≤ 0.9860068943832627)
    (h3 : 0.9078636003398079 ≤ p3 ∧ p3 ≤ 0.9078636003398080) (h4 : 0.1122792290298895 ≤ p4 ∧ p4 ≤ 0.1122792290298896) :
    let response (gain sign a1 a2 : ℝ) : ℝ := ‖(gain * (1 + sign * 2 * delay1k + delay1k ^ 2) / (1 + a1 * delay1k + a2 * delay1k ^ 2) : ℂ)‖
    let g1 := (1 + p1) ^ 2 / 4
    let g2 := (1 + p2) * (1 + p3) / 4
    ∃ gA gC : ℝ, 0 < gA ∧ 0 < gC ∧
      response g1 (-1) (-2 * p1) (p1 ^ 2) * response g2 (-1) (-(p2 + p3)) (p2 * p3) * response gA 1 (-2 * p4) (p4 ^ 2) = 1 ∧
      response g1 (-1) (-2 * p1) (p1 ^ 2) * response gC 1 (-2 * p4) (p4 ^ 2) = 1 ∧
      coeffsA1.FormedFrom g1 (-1) (-2 * p1) (p1 ^ 2) ∧ coeffsA2.FormedFrom g2 (-1) (-(p2 + p3)) (p2 * p3) ∧
      coeffsA3.FormedFrom gA 1 (-2 * p4) (p4 ^ 2) ∧ coeffsC2.FormedFrom gC 1 (-2 * p4) (p4 ^ 2) := by
  intro response g1 g2
  have hc := cos_between
  have m1' := gapSq_between (by norm_num) h1
  have m2' := gapSq_between (by norm_num) h2
  have m3' := gapSq_between (by norm_num) h3
  have m4' := gapSq_between (by norm_num) h4
  have m1 : 0.017071454197 ≤ gapSq p1 ∧ gapSq p1 ≤ 0.017071454198 := ⟨le_trans (by norm_num) m1'.1, m1'.2.trans (by norm_num)⟩
  have m2 : 0.017066658340 ≤ gapSq p2 ∧ gapSq p2 ≤ 0.017066658341 := ⟨le_trans (by norm_num) m2'.1, m2'.2.trans (by norm_num)⟩
  have m3 : 0.024022914051 ≤ gapSq p3 ∧ gapSq p3 ≤ 0.024022914052 := ⟨le_trans (by norm_num) m3'.1, m3'.2.trans (by norm_num)⟩
  have m4 : 0.789969295950 ≤ gapSq p4 ∧ gapSq p4 ≤ 0.789969295951 := ⟨le_trans (by norm_num) m4'.1, m4'.2.trans (by norm_num)⟩
  have low : 0.017110277252 ≤ gapSq 1 ∧ gapSq 1 ≤ 0.017110277253 := by unfold gapSq; constructor <;> linarith
  have high : 3.9828897227 ≤ gapSq (-1) ∧ gapSq (-1) ≤ 3.9828897228 := by unfold gapSq; constructor <;> linarith
  have b1 : 0.997309040751 ≤ g1 ∧ g1 ≤ 0.997309040752 := by
    have := between_mul (by norm_num) (by norm_num) h1 h1
    rw [show g1 = (1 + 2 * p1 + p1 * p1) / 4 by simp only [g1]; ring]
    constructor <;> linarith
  have b2 : 0.947257565954 ≤ g2 ∧ g2 ≤ 0.947257565955 := by
    have := between_mul (by norm_num) (by norm_num) h2 h3
    rw [show g2 = (1 + p2 + p3 + p2 * p3) / 4 by simp only [g2]; ring]
    constructor <;> linarith
  have q0 : 0 ≤ gapSq p2 * gapSq p3 := mul_nonneg (le_trans (by norm_num) m2.1) (le_trans (by norm_num) m3.1)
  have q2 : √(gapSq p2 * gapSq p3) ^ 2 = gapSq p2 * gapSq p3 := Real.sq_sqrt q0
  have qb := between_mul (by norm_num) (by norm_num) m2 m3
  have q : 0.02024823119 ≤ √(gapSq p2 * gapSq p3) ∧ √(gapSq p2 * gapSq p3) ≤ 0.02024823120 :=
    between_of_sq (Real.sqrt_nonneg _) (by norm_num) (by norm_num) (by rw [q2]; exact le_trans (by norm_num) qb.1)
      (by rw [q2]; exact qb.2.trans (by norm_num))
  generalize √(gapSq p2 * gapSq p3) = r at q2 q
  have r1 : response g1 (-1) (-2 * p1) (p1 ^ 2) ^ 2 = g1 ^ 2 * gapSq 1 ^ 2 / (gapSq p1 * gapSq p1) := by
    have := norm_section_sq g1 (-1) p1 p1 (-2 * p1) (p1 ^ 2) (by norm_num) (by ring) (by ring)
    rwa [neg_neg] at this
  have r2 : response g2 (-1) (-(p2 + p3)) (p2 * p3) ^ 2 = g2 ^ 2 * gapSq 1 ^ 2 / (gapSq p2 * gapSq p3) := by
    have := norm_section_sq g2 (-1) p2 p3 (-(p2 + p3)) (p2 * p3) (by norm_num) (by ring) (by ring)
    rwa [neg_neg] at this
  have r4 (g : ℝ) : response g 1 (-2 * p4) (p4 ^ 2) ^ 2 = g ^ 2 * gapSq (-1) ^ 2 / (gapSq p4 * gapSq p4) :=
    norm_section_sq g 1 p4 p4 (-2 * p4) (p4 ^ 2) (by norm_num) (by ring) (by ring)
  have n0 (g s a b : ℝ) : 0 ≤ response g s a b := norm_nonneg _
  clear_value response g1 g2
  generalize gapSq p1 = k1 at *
  generalize gapSq p2 = k2 at *
  generalize gapSq p3 = k3 at *
  generalize gapSq p4 = k4 at *
  generalize gapSq 1 = l at *
  generalize gapSq (-1) = h at *
  have pk1 : 0 < k1 := lt_of_lt_of_le (by norm_num) m1.1
  have pk2 : 0 < k2 := lt_of_lt_of_le (by norm_num) m2.1
  have pk3 : 0 < k3 := lt_of_lt_of_le (by norm_num) m3.1
  have pk4 : 0 < k4 := lt_of_lt_of_le (by norm_num) m4.1
  have pl : 0 < l := lt_of_lt_of_le (by norm_num) low.1
  have ph : 0 < h := lt_of_lt_of_le (by norm_num) high.1
  have pg1 : 0 < g1 := lt_of_lt_of_le (by norm_num) b1.1
  have pg2 : 0 < g2 := lt_of_lt_of_le (by norm_num) b2.1
  have pr : 0 < r := lt_of_lt_of_le (by norm_num) q.1
  have e1 : -2 * 0.9973072279965108 ≤ -2 * p1 ∧ -2 * p1 ≤ -2 * 0.9973072279965107 := ⟨by linarith [h1.2], by linarith [h1.1]⟩
  have e4 : -2 * 0.1122792290298896 ≤ -2 * p4 ∧ -2 * p4 ≤ -2 * 0.1122792290298895 := ⟨by linarith [h4.2], by linarith [h4.1]⟩
  have e23 : -(0.9860068943832627 + 0.9078636003398080) ≤ -(p2 + p3) ∧ -(p2 + p3) ≤ -(0.9860068943832626 + 0.9078636003398079) :=
    ⟨by linarith [h2.2, h3.2], by linarith [h2.1, h3.1]⟩
  have s1 := between_mul (by norm_num) (by norm_num) h1 h1
  have s4 := between_mul (by norm_num) (by norm_num) h4 h4
  rw [← pow_two p1] at s1
  rw [← pow_two p4] at s4
  have s23 := between_mul (by norm_num) (by norm_num) h2 h3
  have t4 := between_mul (by norm_num) (by norm_num) m1 m4
  have tA := between_mul (by norm_num) (by norm_num) t4 q
  have dl := between_mul (by norm_num) (by norm_num) b1 low
  have dC := between_mul (by norm_num) (by norm_num) dl high
  have dA := between_mul (by norm_num) (by norm_num) (between_mul (by norm_num) (by norm_num) dC b2) low
  have gC : 0.198424659 ≤ k1 * k4 / (g1 * l * h) ∧ k1 * k4 / (g1 * l * h) ≤ 0.198424660 :=
    ⟨(le_div_iff₀ (by positivity)).mpr (le_trans (mul_le_mul_of_nonneg_left dC.2 (by norm_num)) (le_trans (by norm_num) t4.1)),
      (div_le_iff₀ (by positivity)).mpr (le_trans t4.2 (le_trans (by norm_num) (mul_le_mul_of_nonneg_left dC.1 (by norm_num))))⟩
  have gA : 0.247889199 ≤ k1 * k4 * r / (g1 * l * h * g2 * l) ∧ k1 * k4 * r / (g1 * l * h * g2 * l) ≤ 0.247889200 :=
    ⟨(le_div_iff₀ (by positivity)).mpr (le_trans (mul_le_mul_of_nonneg_left dA.2 (by norm_num)) (le_trans (by norm_num) tA.1)),
      (div_le_iff₀ (by positivity)).mpr (le_trans tA.2 (le_trans (by norm_num) (mul_le_mul_of_nonneg_left dA.1 (by norm_num))))⟩
  refine ⟨k1 * k4 * r / (g1 * l * h * g2 * l), k1 * k4 / (g1 * l * h), by positivity, by positivity, ?_, ?_, ?_, ?_, ?_, ?_⟩
  · rw [← pow_eq_one_iff_of_nonneg (mul_nonneg (mul_nonneg (n0 _ _ _ _) (n0 _ _ _ _)) (n0 _ _ _ _)) two_ne_zero, mul_pow, mul_pow, r1, r2, r4]
    field_simp
    linear_combination q2
  · rw [← pow_eq_one_iff_of_nonneg (mul_nonneg (n0 _ _ _ _) (n0 _ _ _ _)) two_ne_zero, mul_pow, r1, r4]
    field_simp
  · exact formed (near_of b1 (by norm_num [coeffsA1]) (by norm_num [coeffsA1])) (near_of e1 (by norm_num [coeffsA1]) (by norm_num [coeffsA1]))
      (near_of s1 (by norm_num [coeffsA1]) (by norm_num [coeffsA1])) rfl rfl
  · exact formed (near_of b2 (by norm_num [coeffsA2]) (by norm_num [coeffsA2])) (near_of e23 (by norm_num [coeffsA2]) (by norm_num [coeffsA2]))
      (near_of s23 (by norm_num [coeffsA2]) (by norm_num [coeffsA2])) rfl rfl
  · exact formed (near_of gA (by norm_num [coeffsA3]) (by norm_num [coeffsA3])) (near_of e4 (by norm_num [coeffsA3]) (by norm_num [coeffsA3]))
      (near_of s4 (by norm_num [coeffsA3]) (by norm_num [coeffsA3])) rfl rfl
  · exact formed (near_of gC (by norm_num [coeffsC2]) (by norm_num [coeffsC2])) (near_of e4 (by norm_num [coeffsC2]) (by norm_num [coeffsC2]))
      (near_of s4 (by norm_num [coeffsC2]) (by norm_num [coeffsC2])) rfl rfl

/-- R22: the integers of the coefficients are the formulas, rounded. -/
theorem coefficients_formed : CoefficientsFormed := formed_of_poles pole1_between pole2_between pole3_between pole4_between

end Sys2Proof.Machine
end

