-- ==== Sys2Proof/Laws/Slices.lean ====
section
/-! SUPPORT. Slices: what the work on channels leaves beside the settings: the calibration unit, the event list and the notices that a minute's close does not
set; how events close (R131, R133, R134); what the end of a slice leaves (R11, R23, R27, R117). -/

namespace Sys2Proof.Machine

/-! ### What the close of a minute leaves beside the settings -/

/-- The kinds of notice that the close of a minute does not set, of those that other work on channels and slots sets. -/
def NoticeKind.besideClose (k : NoticeKind) : Prop := k = .event ∨ k = .channel ∨ k = .dispensation ∨ k = .clock

/-- Those and CAL, which the FS switch of a close sets, and the account unit's work on the minute does not. -/
def NoticeKind.besideAccount (k : NoticeKind) : Prop := k.besideClose ∨ k = .cal

/-- What the close of a minute leaves as it was beside the part's settings, with the notices of some kinds. -/
structure State.CloseFrame (kept : NoticeKind → Prop) (s t : State) : Prop where
  wx : t.wx = s.wx
  calUnit : t.calUnit = s.calUnit
  eventList : t.eventList = s.eventList
  eventSeq : t.eventSeq = s.eventSeq
  notices : ∀ q k, kept k → (t.port q).notice k = (s.port q).notice k

variable {kept : NoticeKind → Prop}

theorem State.CloseFrame.refl (s : State) : CloseFrame kept s s := ⟨rfl, rfl, rfl, rfl, fun _ _ _ => rfl⟩

theorem State.CloseFrame.trans {s t u : State} (h : CloseFrame kept s t) (h' : CloseFrame kept t u) : CloseFrame kept s u :=
  ⟨h'.wx.trans h.wx, h'.calUnit.trans h.calUnit, h'.eventList.trans h.eventList, h'.eventSeq.trans h.eventSeq,
    fun q k hk => (h'.notices q k hk).trans (h.notices q k hk)⟩

theorem State.CloseFrame.mono {less : NoticeKind → Prop} (hl : ∀ k, less k → kept k) {s t : State} (h : CloseFrame kept s t) : CloseFrame less s t :=
  ⟨h.wx, h.calUnit, h.eventList, h.eventSeq, fun q k hk => h.notices q k (hl k hk)⟩

theorem State.CloseFrame.ite {s t u : State} {p : Prop} [Decidable p] (h : CloseFrame kept s t) (h' : CloseFrame kept s u) :
    CloseFrame kept s (if p then t else u) := by split <;> assumption

theorem State.CloseFrame.setChan (s : State) (ch : Ch) (c : Channel) : CloseFrame kept s (s.setChan ch c) :=
  ⟨rfl, rfl, rfl, rfl, fun q k _ => by rw [State.port_setChan]⟩

theorem PortState.notice_notify_beside (x : PortState) {k j : NoticeKind} (d : Detail) (hk : ¬ kept k) (hj : kept j) :
    (x.notify k d).notice j = x.notice j := by
  rw [PortState.notice_notify, if_neg]
  rintro rfl; exact hk hj

theorem State.CloseFrame.notify (s : State) (p : Port) (k : NoticeKind) (d : Detail) (hk : ¬ kept k) : CloseFrame kept s (s.notify p k d) := by
  cases p <;> exact ⟨rfl, rfl, rfl, rfl, fun q j hj => by cases q <;> first | rfl | exact PortState.notice_notify_beside _ _ hk hj⟩

theorem State.CloseFrame.notifyBoth (s : State) (k : NoticeKind) (d : Detail) (hk : ¬ kept k) : CloseFrame kept s (s.notifyBoth k d) :=
  ⟨rfl, rfl, rfl, rfl, fun q j hj => by rw [State.port_notifyBoth]; exact PortState.notice_notify_beside _ _ hk hj⟩

/-- A notice that the account unit sets. -/
theorem State.CloseFrame.told (s : State) (k : NoticeKind) (d : Detail)
    (hk : ¬ k.besideAccount := by unfold NoticeKind.besideAccount NoticeKind.besideClose; decide) :
    CloseFrame NoticeKind.besideAccount s (s.notifyBoth k d) := .notifyBoth s k d hk

theorem State.CloseFrame.writeMinuteRecord (s : State) (r : MinuteRecord) : CloseFrame NoticeKind.besideAccount s (s.writeMinuteRecord r) := by
  have hc : ∀ (x : PortState) k, ∀ j : NoticeKind, j.besideAccount → (x.takeCause r k).notice j = x.notice j := by
    intro x k j hj; unfold PortState.takeCause
    split
    · rw [PortState.notice_notify_beside _ _ (by unfold NoticeKind.besideAccount NoticeKind.besideClose; decide) hj]; rfl
    · rfl
  delta State.writeMinuteRecord
  extract_lets l1 l2 s1 s2 s3
  have h1 : CloseFrame NoticeKind.besideAccount s s1 := ⟨rfl, rfl, rfl, rfl, fun q _ _ => by cases q <;> rfl⟩
  have h2 : CloseFrame NoticeKind.besideAccount s1 s2 := .told _ _ _
  have h3 : CloseFrame NoticeKind.besideAccount s2 s3 := ⟨rfl, rfl, rfl, rfl, fun q j hj => by
    cases q <;> exact ((hc _ _ j hj).trans ((hc _ _ j hj).trans ((hc _ _ j hj).trans (hc _ _ j hj))))⟩
  exact h1.trans (h2.trans (h3.trans ((State.CloseFrame.ite (.notify _ _ _ _ (by unfold NoticeKind.besideAccount NoticeKind.besideClose; decide)) (.refl _)).trans (.ite (.notify _ _ _ _ (by unfold NoticeKind.besideAccount NoticeKind.besideClose; decide)) (.refl _)))))

theorem State.CloseFrame.enterMinute (s : State) (m : Summary) : CloseFrame NoticeKind.besideAccount s (s.enterMinute m) := by
  delta State.enterMinute
  extract_lets e seq r s1 s2 s3
  exact (State.CloseFrame.setChan s m.ch e.chan).trans
    ((State.CloseFrame.ite (.told _ _ _) (.refl _)).trans
      ((State.CloseFrame.ite (.told _ _ _) (.refl _)).trans (.writeMinuteRecord _ _)))

theorem State.CloseFrame.lookAhead (s : State) (ch : Ch) (b : Bool) (n : Nat) : CloseFrame NoticeKind.besideAccount s (s.lookAhead ch b n) := by
  have h1 : CloseFrame NoticeKind.besideAccount s (s.closeIfDue ch b n) := by
    unfold State.closeIfDue
    split
    · exact .refl s
    · split
      · exact .refl s
      · delta State.closePeriod
        extract_lets r s1 _ s2 s3
        have h1 : CloseFrame NoticeKind.besideAccount s s1 := ⟨rfl, rfl, rfl, rfl, fun q _ _ => by cases q <;> rfl⟩
        exact h1.trans ((State.CloseFrame.setChan _ _ _).trans ((State.CloseFrame.told _ _ _).trans (.ite (.told _ _ _) (.refl _))))
  delta State.lookAhead
  extract_lets o s1 s2
  exact h1.trans ((State.CloseFrame.ite (.setChan _ _ _) (.refl _)).trans (.ite (.setChan _ _ _) (.refl _)))

theorem State.CloseFrame.evaluateQuiet (s : State) (ch : Ch) : CloseFrame NoticeKind.besideAccount s (s.evaluateQuiet ch) := by
  unfold State.evaluateQuiet State.holdQuiet
  refine State.CloseFrame.trans (t := s.setChan ch { s.chan ch with quiet := s.quietReasonOf ch }) (.setChan _ _ _) ?_
  unfold State.bringQuiet
  refine .ite (.refl _) (State.CloseFrame.trans ?_ (.told _ _ _))
  exact ⟨rfl, rfl, rfl, rfl, fun q _ _ => by cases q <;> rfl⟩

theorem State.CloseFrame.accountMinute (s : State) (m : Summary) : CloseFrame NoticeKind.besideAccount s (s.accountMinute m) := by
  delta State.accountMinute
  extract_lets s1 s2
  have h2 : CloseFrame NoticeKind.besideAccount s1 s2 := by
    dsimp only [s2]; split
    · exact .refl _
    · exact .lookAhead _ _ _ _
  exact (State.CloseFrame.enterMinute s m).trans (h2.trans (.evaluateQuiet _ _))

theorem State.CloseFrame.switchFs (s : State) (ch : Ch) : CloseFrame NoticeKind.besideClose s (s.switchFs ch) := by
  unfold State.switchFs
  split
  · exact .refl s
  · next fs _ =>
    have h2 : ∀ (t : State) w, CloseFrame NoticeKind.besideClose t (t.enqueue w) := fun t w => ⟨rfl, rfl, rfl, rfl, fun q _ _ => by cases q <;> rfl⟩
    exact (State.CloseFrame.setChan _ _ _).trans ((h2 _ _).trans (.notifyBoth _ _ _ (by unfold NoticeKind.besideClose; decide)))

/-- R34, R45, R93, R124: the close of a minute leaves the calibration unit, the event list, the WX level and the notices of other work. -/
theorem State.CloseFrame.closeMinute (s : State) (ch : Ch) (w : WaitingClose) : CloseFrame NoticeKind.besideClose s (s.closeMinute ch w) := by
  delta State.closeMinute
  extract_lets c m e s1 s2
  exact (State.CloseFrame.setChan _ _ _).trans (((State.CloseFrame.accountMinute _ _).mono fun _ => .inl).trans (.ite (.switchFs _ _) (.refl _)))

/-- R124: a close that makes no FS switch leaves CAL too. -/
theorem State.closeWaiting_cal (s : State) (ch : Ch)
    (h : ∀ w, (s.chan ch).waiting = some w → w.makesSwitch = true → (s.chan ch).pendingFs = none) (q : Port) :
    ((s.closeWaiting ch).port q).notice .cal = (s.port q).notice .cal := by
  unfold State.closeWaiting
  split
  · rfl
  · next w hw =>
    let c : Channel := { s.chan ch with waiting := none }
    let u := (s.setChan ch c).setChan ch { c with engine := { c.engine with minute := .empty }, minuteNo := w.boundary.next }
    let x := c.summary ch w.boundary
    have hu : u.chan ch = { s.chan ch with
        waiting := none, engine := { (s.chan ch).engine with minute := .empty }, minuteNo := w.boundary.next } := by
      show (State.setChan _ _ _).chan ch = _
      rw [State.chan_setChan_self]
    have e : (s.setChan ch { s.chan ch with waiting := none }).closeMinute ch w =
        if w.makesSwitch then (u.accountMinute x).switchFs ch else u.accountMinute x := by
      unfold State.closeMinute; dsimp only; rw [State.chan_setChan_self]
    have hq : (u.port q).notice .cal = (s.port q).notice .cal := by
      show ((State.setChan _ _ _).port q).notice .cal = _
      rw [State.port_setChan, State.port_setChan]
    have ha := ((State.CloseFrame.accountMinute u x).notices q .cal (.inr rfl)).trans hq
    rw [e]
    split
    · next hm =>
      have hp : ((u.accountMinute x).chan ch).pendingFs = none := by
        have h2 : (u.chan ch).Accounted ((u.accountMinute x).chan ch) := State.accounted_accountMinute u x
        unfold Channel.Accounted at h2
        rw [h2, hu]; exact h w hw hm
      have : (u.accountMinute x).switchFs ch = u.accountMinute x := by unfold State.switchFs; rw [hp]
      rw [this]; exact ha
    · exact ha

theorem State.CloseFrame.closeWaiting (s : State) (ch : Ch) : CloseFrame NoticeKind.besideClose s (s.closeWaiting ch) := by
  unfold State.closeWaiting
  split
  · exact .refl s
  · exact (State.CloseFrame.setChan _ _ _).trans (.closeMinute _ _ _)

theorem State.CloseFrame.receiveBoundary (b : Boundary) (s : State) (ch : Ch) : CloseFrame NoticeKind.besideClose s (s.receiveBoundary b ch) := by
  unfold State.receiveBoundary
  split
  · exact .closeMinute _ _ _
  · exact (State.CloseFrame.closeWaiting s ch).trans (.setChan _ _ _)

theorem State.CloseFrame.foldl {α : Type} (work : State → α → State) (h : ∀ (s : State) (a : α), CloseFrame NoticeKind.besideClose s (work s a)) :
    ∀ (l : List α) (s : State), CloseFrame NoticeKind.besideClose s (l.foldl work s)
  | [], s => .refl s
  | a :: l, s => (h s a).trans (State.CloseFrame.foldl work h l (work s a))

theorem State.CloseFrame.inAnyOrder {α : Type} (work : State → α → State) (h : ∀ (s : State) (a : α), CloseFrame NoticeKind.besideClose s (work s a)) (s : State)
    (l : List α) : CloseFrame NoticeKind.besideClose s (s.inAnyOrder l work) := by
  refine State.CloseFrame.trans (t := (s.arrange l).2) ?_ (.foldl work h _ _)
  rw [(s.arrange_perm l).2]
  exact ⟨rfl, rfl, rfl, rfl, fun q _ _ => by cases q <;> rfl⟩

/-- R44: a boundary leaves the calibration unit, the event list and the WX level; of the four notices it may set DISPENSATION, in the slots' part alone. -/
theorem State.CloseFrame.deliver (s : State) (b : Boundary) : CloseFrame NoticeKind.besideClose (s.moveSlots b.next) (s.deliver b) ∨ s.deliver b = s := by
  unfold State.deliver
  split
  · left
    dsimp only
    exact (State.CloseFrame.inAnyOrder _ (State.CloseFrame.receiveBoundary b) _ _).trans
      (State.CloseFrame.foldl _ (State.CloseFrame.receiveBoundary b) _ _)
  · exact .inr rfl

/-! ### The close of events -/

@[simp] theorem Converted.reading_eq (x : Converted) : x.reading = x.level := rfl

/-- R133: the LAeq of an event's committed figures. -/
theorem OpenEvent.laeq_eq (e : OpenEvent) (fs : Level) : e.laeq fs = (convert fs e.sumA (6000 * e.count)).level :=
  (show e.laeq fs = (convert fs e.sumA (6000 * e.count)).reading from rfl).trans (Converted.reading_eq _)

/-- R133: the LAE of an event's committed figures. -/
theorem OpenEvent.lae_eq (e : OpenEvent) (fs : Level) : e.lae fs = e.laeq fs + roundLog e.count 8 :=
  (show e.lae fs = e.laeq fs + exposureStep e.count from rfl).trans rfl

/-- R133: the figures of a close are those the rule gives. -/
theorem Channel.closeFigures_of (c : Channel) (e : OpenEvent) (cause : EndCause) :
    (c.closeFigures e cause).Of c e.count e.sumA e.peak where
  duration := rfl
  peak := rfl
  laeq := e.laeq_eq c.fs
  lae := e.lae_eq c.fs
  impulsive := rfl

/-- R131, R133, R134: a channel's open event, if it has one, closes: exactly its record is completed. -/
theorem State.closeEvent_closes (s : State) (ch : Ch) (cause : EndCause) : EventsClosed s (s.closeEvent ch cause) (· = ch) cause := by
  unfold State.closeEvent
  dsimp only
  split
  · next h =>
    refine ⟨rfl, List.forall₂_same.2 fun r _ => ⟨fun _ => rfl, ?_⟩, ?_, fun _ _ => rfl⟩
    · rintro ⟨c, e, rfl, he, _⟩; rw [h] at he; cases he
    · rintro ⟨c, e, rfl, he⟩; rw [h] at he; cases he
  · next e h =>
    refine ⟨rfl, ?_, fun _ => ⟨ch, e, rfl, h, fun q => ?_⟩, fun hn => ?_⟩
    · show List.Forall₂ _ s.eventList (completeRecord s.eventList e.sequence ((s.chan ch).closeFigures e cause))
      unfold completeRecord
      rw [List.forall₂_map_right_iff, List.forall₂_same]
      intro r _
      refine ⟨fun hn => if_neg fun he => hn ch e rfl h he.symm, ?_⟩
      rintro ⟨c, f, rfl, hf, hs⟩
      rw [h] at hf; cases hf
      exact ⟨c, e, _, rfl, h, hs, if_pos hs.symm, rfl, Channel.closeFigures_of _ _ _⟩
    · rw [State.port_notifyBoth, PortState.notice_notify, if_pos rfl]; exact ⟨rfl, rfl⟩
    · rw [hn ch rfl] at h; cases h

/-- Events close one channel after another: the second work finds its channels as the first did. -/
theorem EventsClosed.trans {s t u : State} {a b : Ch → Prop} {cause : EndCause} (h : EventsClosed s t a cause) (h' : EventsClosed t u b cause)
    (hb : ∀ ch, b ch → t.chan ch = s.chan ch) : EventsClosed s u (fun ch => a ch ∨ b ch) cause where
  sequence := h'.sequence.trans h.sequence
  records := by
    have h1 := h.records
    have h2 := h'.records
    generalize s.eventList = l1 at h1 ⊢
    generalize t.eventList = l2 at h1 h2
    generalize u.eventList = l3 at h2 ⊢
    induction h1 generalizing l3 with
    | nil => cases h2; exact .nil
    | cons h1 _ ih =>
      rename_i r x _ _ _
      cases h2 with
      | cons h2 h2' =>
        rename_i y _
        refine .cons ⟨fun hn => ?_, ?_⟩ (ih _ h2')
        · have e1 := h1.1 fun ch e ha => hn ch e (.inl ha)
          exact (h2.1 fun ch e hc he => by rw [e1]; exact hn ch e (.inr hc) (by rw [← hb ch hc]; exact he)).trans e1
        · intro hx
          have hseq : x.sequence = r.sequence := by
            by_cases ha : ∃ ch e, a ch ∧ (s.chan ch).openEvent = some e ∧ e.sequence = r.sequence
            · obtain ⟨_, _, _, _, _, _, e1, _⟩ := h1.2 ha; rw [e1]
            · rw [h1.1 fun ch e hc he hs => ha ⟨ch, e, hc, he, hs⟩]
          have hr : ∀ k, { x with closed := k } = { r with closed := k } := by
            intro k
            by_cases ha : ∃ ch e, a ch ∧ (s.chan ch).openEvent = some e ∧ e.sequence = r.sequence
            · obtain ⟨_, _, _, _, _, _, e1, _⟩ := h1.2 ha; rw [e1]
            · rw [h1.1 fun ch e hc he hs => ha ⟨ch, e, hc, he, hs⟩]
          by_cases hc : ∃ ch e, b ch ∧ (t.chan ch).openEvent = some e ∧ e.sequence = x.sequence
          · obtain ⟨c, e, k, h3, h4, h5, h6, h7, h8⟩ := h2.2 hc
            exact ⟨c, e, k, .inr h3, by rw [← hb c h3]; exact h4, h5.trans hseq, h6.trans (hr _), h7, by rw [← hb c h3]; exact h8⟩
          · have e2 := h2.1 fun ch e h3 h4 h5 => hc ⟨ch, e, h3, h4, h5⟩
            obtain ⟨ch, e, h3, h4, h5⟩ := hx
            rcases h3 with h3 | h3
            · obtain ⟨c, f, k, g⟩ := h1.2 ⟨ch, e, h3, h4, h5⟩
              exact ⟨c, f, k, .inl g.1, g.2.1, g.2.2.1, e2.trans g.2.2.2.1, g.2.2.2.2⟩
            · exact absurd ⟨ch, e, h3, by rw [hb ch h3]; exact h4, h5.trans hseq.symm⟩ hc
  notice := by
    intro hx
    by_cases hc : ∃ ch e, b ch ∧ (t.chan ch).openEvent = some e
    · obtain ⟨c, e, h3, h4, h5⟩ := h'.notice hc
      exact ⟨c, e, .inr h3, by rw [← hb c h3]; exact h4, h5⟩
    · have e2 := h'.none fun ch h3 => Option.eq_none_iff_forall_ne_some.2 fun e h4 => hc ⟨ch, e, h3, h4⟩
      obtain ⟨ch, e, h3 | h3, h4⟩ := hx
      · obtain ⟨c, f, h5, h6, h7⟩ := h.notice ⟨ch, e, h3, h4⟩
        exact ⟨c, f, .inl h5, h6, fun q => by rw [e2]; exact h7 q⟩
      · exact absurd ⟨ch, e, h3, by rw [hb ch h3]; exact h4⟩ hc
  none := fun hn q =>
    (h'.none (fun ch h3 => by rw [hb ch h3]; exact hn ch (.inr h3)) q).trans (h.none (fun ch h3 => hn ch (.inl h3)) q)

/-! ### The end of a slice -/

/-- What work on one channel's slice leaves, that can set one kind of notice: the other channels, the records, the QUIET line, the store, the condition flags and the
other notices. -/
structure State.SliceFrame (k : NoticeKind) (ch : Ch) (s t : State) : Prop where
  others : ∀ c, c ≠ ch → t.chan c = s.chan c
  minutes : t.minuteRing = s.minuteRing ∧ t.minuteSeq = s.minuteSeq
  periods : t.periodList = s.periodList ∧ t.periodSeq = s.periodSeq
  quietLine : t.quietLine = s.quietLine
  store : t.store = s.store
  conditions : ∀ q, (t.port q).conditions = (s.port q).conditions
  notices : ∀ q j, j ≠ k → (t.port q).notice j = (s.port q).notice j

theorem State.SliceFrame.refl (k : NoticeKind) (ch : Ch) (s : State) : s.SliceFrame k ch s :=
  ⟨fun _ _ => rfl, ⟨rfl, rfl⟩, ⟨rfl, rfl⟩, rfl, rfl, fun _ => rfl, fun _ _ _ => rfl⟩

theorem State.SliceFrame.trans {k : NoticeKind} {ch : Ch} {s t u : State} (h : SliceFrame k ch s t) (h' : SliceFrame k ch t u) :
    SliceFrame k ch s u where
  others c hc := (h'.others c hc).trans (h.others c hc)
  minutes := ⟨h'.minutes.1.trans h.minutes.1, h'.minutes.2.trans h.minutes.2⟩
  periods := ⟨h'.periods.1.trans h.periods.1, h'.periods.2.trans h.periods.2⟩
  quietLine := h'.quietLine.trans h.quietLine
  store := h'.store.trans h.store
  conditions q := (h'.conditions q).trans (h.conditions q)
  notices q j hj := (h'.notices q j hj).trans (h.notices q j hj)

theorem State.SliceFrame.setChan (k : NoticeKind) (s : State) (ch : Ch) (c : Channel) : SliceFrame k ch s (s.setChan ch c) :=
  ⟨fun _ h => State.chan_setChan_ne s h c, ⟨rfl, rfl⟩, ⟨rfl, rfl⟩, rfl, rfl, fun q => by rw [State.port_setChan],
    fun q _ _ => by rw [State.port_setChan]⟩

theorem State.SliceFrame.notifyBoth (k : NoticeKind) (s : State) (ch : Ch) (d : Detail) : SliceFrame k ch s (s.notifyBoth k d) :=
  ⟨fun _ _ => rfl, ⟨rfl, rfl⟩, ⟨rfl, rfl⟩, rfl, rfl, fun q => by rw [State.port_notifyBoth]; rfl,
    fun q j hj => by rw [State.port_notifyBoth, PortState.notice_notify, if_neg hj]⟩

theorem State.SliceFrame.events (k : NoticeKind) (s : State) (ch : Ch) (l : List EventRecord) (n : Nat) :
    SliceFrame k ch s { s with eventList := l, eventSeq := n } :=
  ⟨fun _ _ => rfl, ⟨rfl, rfl⟩, ⟨rfl, rfl⟩, rfl, rfl, fun q => by cases q <;> rfl, fun q _ _ => by cases q <;> rfl⟩

theorem State.SliceFrame.closeEvent (s : State) (ch : Ch) (c : EndCause) : SliceFrame .event ch s (s.closeEvent ch c) := by
  unfold State.closeEvent; dsimp only
  split
  · exact .refl _ ch s
  · exact (State.SliceFrame.events _ s ch _ _).trans ((State.SliceFrame.setChan _ _ _ _).trans (.notifyBoth _ _ _ _))

theorem State.SliceFrame.detectSlice (s : State) (ch : Ch) (r : SliceResult) : SliceFrame .event ch s (s.detectSlice ch r) := by
  unfold State.detectSlice; dsimp only
  split
  · refine State.SliceFrame.trans ?_ (.setChan _ _ _ _)
    split
    · exact (State.SliceFrame.events _ s ch _ _).trans ((State.SliceFrame.setChan _ _ _ _).trans (.notifyBoth _ _ _ _))
    · exact .refl _ ch s
  · split
    · exact (State.SliceFrame.closeEvent _ _ _).trans (.setChan _ _ _ _)
    · split
      · exact (State.SliceFrame.setChan _ _ _ _).trans ((State.SliceFrame.closeEvent _ _ _).trans (.setChan _ _ _ _))
      · split
        · exact (State.SliceFrame.setChan _ _ _ _).trans ((State.SliceFrame.closeEvent _ _ _).trans (.setChan _ _ _ _))
        · exact (State.SliceFrame.setChan _ _ _ _).trans (.setChan _ _ _ _)

theorem State.SliceFrame.calTakeSlice (k : NoticeKind) (s : State) (ch : Ch) (r : SliceResult) : SliceFrame k ch s (s.calTakeSlice ch r) := by
  unfold State.calTakeSlice
  split
  · exact .refl _ _ _
  · split
    · exact ⟨fun _ _ => rfl, ⟨rfl, rfl⟩, ⟨rfl, rfl⟩, rfl, rfl, fun q => by cases q <;> rfl, fun q _ _ => by cases q <;> rfl⟩
    · exact .refl _ _ _

/-- R11: the hand-on of a slice result leaves the other channels, the records, the store and every notice but EVENT. -/
theorem State.SliceFrame.handOn (s : State) (ch : Ch) (r : SliceResult) : SliceFrame .event ch s (s.handOn ch r) := by
  delta State.handOn
  extract_lets s1 s2 s3
  exact (State.SliceFrame.setChan _ s ch _).trans ((State.SliceFrame.detectSlice s1 ch r).trans
    ((State.SliceFrame.calTakeSlice _ s2 ch r).trans (.setChan _ s3 ch _)))

/-- What the detector changes of a channel. -/
def Channel.Detected (a b : Channel) : Prop := b = { a with openEvent := b.openEvent, continuation := b.continuation }

theorem State.closeEvent_chan (s : State) (ch : Ch) (c : EndCause) : (s.closeEvent ch c).chan ch = { s.chan ch with openEvent := none } := by
  unfold State.closeEvent; dsimp only
  split
  · next h => rw [← h]
  · exact State.chan_setChan_self _ _ _

theorem State.detectSlice_chan (s : State) (ch : Ch) (r : SliceResult) : (s.chan ch).Detected ((s.detectSlice ch r).chan ch) := by
  unfold State.detectSlice State.setContinuation; dsimp only
  split
  · rw [State.chan_setChan_self]
    split
    · have h : (s.openEvent ch r).chan ch = { s.chan ch with openEvent := some ⟨s.eventSeq, 1, r.sumA, r.lafmax.getD 0, 0, 0, 1⟩ } := by
        unfold State.openEvent; dsimp only; rw [State.chan_notifyBoth, State.chan_setChan_self]
      rw [h]; rfl
    · rfl
  · split
    · rw [State.chan_setChan_self, State.closeEvent_chan]; rfl
    · split
      · rw [State.chan_setChan_self, State.closeEvent_chan, State.chan_setChan_self]; rfl
      · split
        · rw [State.chan_setChan_self, State.closeEvent_chan, State.chan_setChan_self]; rfl
        · rw [State.chan_setChan_self, State.chan_setChan_self]; rfl

theorem State.closeEvent_calUnit (s : State) (ch : Ch) (c : EndCause) : (s.closeEvent ch c).calUnit = s.calUnit := by
  unfold State.closeEvent; dsimp only; split <;> rfl

theorem State.detectSlice_calUnit (s : State) (ch : Ch) (r : SliceResult) : (s.detectSlice ch r).calUnit = s.calUnit := by
  unfold State.detectSlice State.setContinuation; dsimp only
  split
  · split <;> rfl
  · split
    · exact State.closeEvent_calUnit _ _ _
    · split
      · exact State.closeEvent_calUnit _ _ _
      · split
        · exact State.closeEvent_calUnit _ _ _
        · rfl

theorem Channel.countSlice_eq (c : Channel) (r : SliceResult) : c.countSlice r = { c with period := (c.countSlice r).period } := by
  unfold Channel.countSlice; split <;> rfl

/-- R11: what the hand-on of a slice leaves of its channel: all but the engine's slice, minute and kept result, the period's histogram and the event. -/
theorem State.handOn_chan (s : State) (ch : Ch) (r : SliceResult) :
    let t := s.handOn ch r
    t.chan ch = { s.chan ch with
      engine := (s.chan ch).engine.endSlice r, period := ((s.chan ch).countSlice r).period
      openEvent := (t.chan ch).openEvent, continuation := (t.chan ch).continuation } := by
  delta State.handOn
  extract_lets s1 s2 s3 _ t
  have h1 : s1.chan ch = (s.chan ch).countSlice r := State.chan_setChan_self _ _ _
  have h2 : (s1.chan ch).Detected (s2.chan ch) := State.detectSlice_chan _ _ _
  have h3 : s3.chan ch = s2.chan ch := by
    dsimp only [s3]; unfold State.calTakeSlice; split
    · rfl
    · split <;> rfl
  have h4 : t.chan ch = { s3.chan ch with engine := (s3.chan ch).engine.endSlice r } := State.chan_setChan_self _ _ _
  have h1' := Channel.countSlice_eq (s.chan ch) r
  unfold Channel.Detected at h2
  rw [h1, h1'] at h2
  rw [h4, h3, h2]

theorem State.handOn_calUnit (s : State) (ch : Ch) (r : SliceResult)
    (h : r.cls ≠ .calibration ∨ (s.runningOn ch = true → (s.chan ch).state.isMeasure = false)) : (s.handOn ch r).calUnit = s.calUnit := by
  delta State.handOn
  extract_lets s1 s2 s3
  have h2 : s2.calUnit = s.calUnit := State.detectSlice_calUnit _ _ _
  have hst : (s2.chan ch).state = (s.chan ch).state := by
    have h1 : s1.chan ch = (s.chan ch).countSlice r := State.chan_setChan_self _ _ _
    have h2 : (s1.chan ch).Detected (s2.chan ch) := State.detectSlice_chan _ _ _
    unfold Channel.Detected at h2
    rw [h2, h1, Channel.countSlice_eq]
  show s3.calUnit = s.calUnit
  dsimp only [s3]; unfold State.calTakeSlice
  split
  · exact h2
  · next x hx =>
    split
    · next hc =>
      exfalso
      rcases h with h | h
      · exact h hc.2.2
      · have : s.runningOn ch = true := by unfold State.runningOn; rw [← h2, hx]; simp [hc.1]
        rw [← hst, hc.2.1] at h; exact absurd (h this) (by decide)
    · exact h2

/-- Channel `b` is `a` but for its state, its settle count, and its slice and kept result. -/
def Channel.Progressed (a b : Channel) : Prop :=
  b = { a with state := b.state, settle := b.settle, engine := { a.engine with slice := b.engine.slice, kept := b.engine.kept } }

/-- R7, R10: the settle count's moving on, where the slice completes no run. -/
theorem State.settleProgress_leaves (s : State) (ch : Ch) (hn : ¬ s.completesRun ch) :
    SliceFrame .channel ch s (s.settleProgress ch) ∧ (s.chan ch).Progressed ((s.settleProgress ch).chan ch) ∧
    (s.settleProgress ch).calUnit = s.calUnit ∧
    (((s.settleProgress ch).chan ch).state ≠ .off → ∀ q, ((s.settleProgress ch).port q).notice .channel = (s.port q).notice .channel) ∧
    (((s.settleProgress ch).chan ch).engine = (s.chan ch).engine ∨ ((s.settleProgress ch).chan ch).engine = (s.chan ch).engine.discardSlice) := by
  have h1 : ∀ (x : ChannelState) (n : Nat), let t := s.setChan ch { s.chan ch with state := x, settle := n }
      SliceFrame .channel ch s t ∧ (s.chan ch).Progressed (t.chan ch) ∧ t.calUnit = s.calUnit ∧
      ((t.chan ch).state ≠ .off → ∀ q, (t.port q).notice .channel = (s.port q).notice .channel) ∧
      ((t.chan ch).engine = (s.chan ch).engine ∨ (t.chan ch).engine = (s.chan ch).engine.discardSlice) := by
    intro x n
    dsimp only
    rw [State.chan_setChan_self]
    exact ⟨.setChan _ _ _ _, rfl, rfl, fun _ q => by rw [State.port_setChan], .inl rfl⟩
  have h0 : SliceFrame .channel ch s s ∧ (s.chan ch).Progressed (s.chan ch) ∧ s.calUnit = s.calUnit ∧
      ((s.chan ch).state ≠ .off → ∀ q, (s.port q).notice .channel = (s.port q).notice .channel) ∧
      ((s.chan ch).engine = (s.chan ch).engine ∨ (s.chan ch).engine = (s.chan ch).engine.discardSlice) :=
    ⟨.refl _ _ _, rfl, rfl, fun _ _ => rfl, .inl rfl⟩
  have h2 : ∀ n : Nat, s.setChan ch { s.chan ch with settle := n } = s.setChan ch { s.chan ch with state := (s.chan ch).state, settle := n } :=
    fun _ => rfl
  unfold State.settleProgress State.enter
  dsimp only
  split
  · exact h0
  · exact h0
  · exact h0
  · split <;> exact h1 _ _
  · split <;> exact h1 _ _
  · next r hr =>
    split
    · next h160 =>
      have hrun : s.runningOn ch ≠ true := fun h => hn ⟨⟨r, hr⟩, by omega, h⟩
      have hc : s.completeRun ch = s := by
        unfold State.completeRun
        split
        · rfl
        · next x hx => dsimp only; rw [if_neg]; rintro rfl; exact hrun (by simp [State.runningOn, hx])
      rw [hc]; exact h1 _ _
    · exact h1 _ _
  · split <;> exact h1 _ _
  · split
    · have e : (s.returnToOff ch).chan ch = { s.chan ch with state := .off, settle := 0, engine := (s.chan ch).engine.discardSlice } :=
        State.chan_setChan_self _ _ _
      rw [e]
      exact ⟨(State.SliceFrame.setChan _ _ _ _).trans (.notifyBoth _ _ _ _), rfl, rfl, fun h => absurd rfl h, .inr rfl⟩
    · exact h1 _ _

theorem State.SliceFrame.completeRun (s : State) (ch : Ch) : SliceFrame .cal ch s (s.completeRun ch) := by
  unfold State.completeRun; dsimp only
  split
  · exact .refl _ _ _
  · split
    · have h : SliceFrame .cal ch s { s with calUnit := { s.calUnit with run := none } } :=
        ⟨fun _ _ => rfl, ⟨rfl, rfl⟩, ⟨rfl, rfl⟩, rfl, rfl, fun q => by cases q <;> rfl, fun q _ _ => by cases q <;> rfl⟩
      exact h.trans ((State.SliceFrame.setChan _ _ _ _).trans (.notifyBoth _ _ _ _))
    · exact .refl _ _ _

/-- R119: what the outcome of a run changes of a channel. -/
theorem Channel.takeOutcome_eq (c : Channel) (x : RunFigures) (n : MinuteOrAbsent) : c.takeOutcome x n = { c with
    calRecord := (c.takeOutcome x n).calRecord, pendingResult := (c.takeOutcome x n).pendingResult, pendingFs := (c.takeOutcome x n).pendingFs } := by
  unfold Channel.takeOutcome; dsimp only; split <;> rfl

theorem State.completeRun_chan (s : State) (ch : Ch) : (s.completeRun ch).chan ch = { s.chan ch with
    calRecord := ((s.completeRun ch).chan ch).calRecord, pendingResult := ((s.completeRun ch).chan ch).pendingResult
    pendingFs := ((s.completeRun ch).chan ch).pendingFs } := by
  have h : ∀ x : CalRun, s.calUnit.run = some x → x.ch = ch → (s.completeRun ch).chan ch =
      (s.chan ch).takeOutcome (x.figures (s.chan ch).fs ((s.chan ch).calRecord.reference.getD 0)) s.minuteNow := by
    intro x hx hc; unfold State.completeRun; rw [hx]; dsimp only; rw [if_pos hc]; exact State.chan_setChan_self _ _ _
  cases hx : s.calUnit.run with
  | none => have e : s.completeRun ch = s := by unfold State.completeRun; rw [hx]
            rw [e]
  | some x =>
    by_cases hc : x.ch = ch
    · rw [h x hx hc]; exact Channel.takeOutcome_eq _ _ _
    · have e : s.completeRun ch = s := by unfold State.completeRun; rw [hx]; dsimp only; rw [if_neg hc]
      rw [e]

/-- Channel `b` is `a` but for what a completed run changes (R119) and the settle count's moving on. -/
def Channel.Concluded (a b : Channel) : Prop :=
  b = { a with state := b.state, settle := b.settle, engine := { a.engine with slice := b.engine.slice, kept := b.engine.kept }
               calRecord := b.calRecord, pendingResult := b.pendingResult, pendingFs := b.pendingFs }

/-- R7, R10: the settle count's moving on, whatever the slice completes. -/
theorem State.settleProgress_concludes (s : State) (ch : Ch) :
    (s.chan ch).Concluded ((s.settleProgress ch).chan ch) ∧ (∀ c, c ≠ ch → (s.settleProgress ch).chan c = s.chan c) ∧
    (s.settleProgress ch).minuteRing = s.minuteRing ∧ (s.settleProgress ch).minuteSeq = s.minuteSeq ∧
    (s.settleProgress ch).periodList = s.periodList ∧ (s.settleProgress ch).periodSeq = s.periodSeq ∧
    (s.settleProgress ch).quietLine = s.quietLine ∧ (s.settleProgress ch).store = s.store ∧
    (∀ q, ((s.settleProgress ch).port q).conditions = (s.port q).conditions ∧
      ∀ k, ¬ k.besideAccounts → ((s.settleProgress ch).port q).notice k = (s.port q).notice k) ∧
    (((s.settleProgress ch).chan ch).state ≠ .off → ∀ q, ((s.settleProgress ch).port q).notice .channel = (s.port q).notice .channel) ∧
    (((s.settleProgress ch).chan ch).engine = (s.chan ch).engine ∨ ((s.settleProgress ch).chan ch).engine = (s.chan ch).engine.discardSlice) ∧
    ((s.settleProgress ch).eventList = s.eventList ∧ (s.settleProgress ch).eventSeq = s.eventSeq ∧ (s.settleProgress ch).wx = s.wx) := by
  have hev : (s.settleProgress ch).eventList = s.eventList ∧ (s.settleProgress ch).eventSeq = s.eventSeq ∧ (s.settleProgress ch).wx = s.wx := by
    have hc : (s.completeRun ch).eventList = s.eventList ∧ (s.completeRun ch).eventSeq = s.eventSeq ∧ (s.completeRun ch).wx = s.wx := by
      unfold State.completeRun; split
      · exact ⟨rfl, rfl, rfl⟩
      · dsimp only; split <;> exact ⟨rfl, rfl, rfl⟩
    unfold State.settleProgress; dsimp only
    split
    · exact ⟨rfl, rfl, rfl⟩
    · exact ⟨rfl, rfl, rfl⟩
    · exact ⟨rfl, rfl, rfl⟩
    · split <;> exact ⟨rfl, rfl, rfl⟩
    · split <;> exact ⟨rfl, rfl, rfl⟩
    · split
      · exact hc
      · exact ⟨rfl, rfl, rfl⟩
    · split <;> exact ⟨rfl, rfl, rfl⟩
    · split <;> exact ⟨rfl, rfl, rfl⟩
  by_cases hn : s.completesRun ch
  · obtain ⟨⟨r, hr⟩, h159, -⟩ := hn
    have e : s.settleProgress ch = (s.completeRun ch).enter ch (.calibrating .calRecover r) := by
      unfold State.settleProgress; dsimp only; rw [hr]; dsimp only; rw [if_pos (by omega)]
    have hf := State.SliceFrame.completeRun s ch
    have hc := s.completeRun_chan ch
    have e2 : ((s.completeRun ch).enter ch (.calibrating .calRecover r)).chan ch =
        { (s.completeRun ch).chan ch with state := .calibrating .calRecover r, settle := 0 } := State.chan_setChan_self _ _ _
    refine ⟨?_, ?_, ?_, ?_, ?_, ?_, ?_, ?_, ?_, ?_, ?_, hev⟩
    all_goals rw [e]
    · unfold Channel.Concluded; rw [e2, hc]
    · intro c h; exact (State.chan_setChan_ne _ h _).trans (hf.others c h)
    · exact hf.minutes.1
    · exact hf.minutes.2
    · exact hf.periods.1
    · exact hf.periods.2
    · exact hf.quietLine
    · exact hf.store
    · intro q
      unfold State.enter
      rw [State.port_setChan]
      exact ⟨hf.conditions q, fun k hk => hf.notices q k fun h => hk (.inr (.inl h))⟩
    · intro _ q
      unfold State.enter
      rw [State.port_setChan]
      exact hf.notices q .channel (by decide)
    · left; rw [e2, hc]
  · obtain ⟨hf, hc, -, hq, he⟩ := s.settleProgress_leaves ch hn
    refine ⟨?_, hf.others, hf.minutes.1, hf.minutes.2, hf.periods.1, hf.periods.2, hf.quietLine, hf.store,
      fun q => ⟨hf.conditions q, fun k hk => hf.notices q k fun h => hk (.inr (.inr h))⟩, hq, he, hev⟩
    unfold Channel.Progressed at hc
    unfold Channel.Concluded
    generalize (s.settleProgress ch).chan ch = b at hc
    rw [hc]


/-- R11, R23, R27, R45, R117: what the end of a slice leaves: the parts of `SliceEnded` that do not speak of the minute. -/
theorem State.endSlice_leaves (s : State) (ch : Ch) :
    let t := s.endSlice ch
    let e := (s.chan ch).engine
    (∀ c, c ≠ ch → t.chan c = s.chan c) ∧
    t.chan ch = { s.chan ch with
      engine := { e with slice := .empty, minute := (t.chan ch).engine.minute, kept := (t.chan ch).engine.kept }
      state := (t.chan ch).state, settle := (t.chan ch).settle, openEvent := (t.chan ch).openEvent, continuation := (t.chan ch).continuation
      minuteNo := (t.chan ch).minuteNo, waiting := none, period := (t.chan ch).period, day := (t.chan ch).day, quiet := (t.chan ch).quiet
      fs := (t.chan ch).fs, calSeq := (t.chan ch).calSeq, uncalibrated := (t.chan ch).uncalibrated, pendingFs := (t.chan ch).pendingFs
      pendingResult := (t.chan ch).pendingResult, calRecord := (t.chan ch).calRecord } ∧
    (¬ s.completesRun ch → (t.chan ch).pendingResult = (s.chan ch).pendingResult ∧ (t.chan ch).calRecord = (s.chan ch).calRecord) ∧
    ((s.runningOn ch = true → ∀ r, (s.chan ch).state ≠ .calibrating .calMeasure r) → t.calUnit = s.calUnit) ∧
    (s.sliceClass ch false ≠ .calibration → ¬ s.completesRun ch → t.calUnit = s.calUnit) ∧
    (¬ s.completesRun ch → (∀ w, (s.chan ch).waiting = some w → w.makesSwitch = true → (s.chan ch).pendingFs = none) →
      ∀ q, (t.port q).notice .cal = (s.port q).notice .cal) ∧
    ((t.chan ch).state ≠ .off → ∀ q, (t.port q).notice .channel = (s.port q).notice .channel) ∧
    ((s.chan ch).waiting = none → t.minuteRing = s.minuteRing ∧ t.minuteSeq = s.minuteSeq ∧ t.periodList = s.periodList ∧ t.periodSeq = s.periodSeq ∧
      t.quietLine = s.quietLine ∧ t.store = s.store ∧ (t.chan ch).minuteNo = (s.chan ch).minuteNo ∧ (t.chan ch).fs = (s.chan ch).fs ∧
      (t.chan ch).calSeq = (s.chan ch).calSeq ∧ (t.chan ch).uncalibrated = (s.chan ch).uncalibrated ∧
      (¬ s.completesRun ch → (t.chan ch).pendingFs = (s.chan ch).pendingFs) ∧
      (t.chan ch).day = (s.chan ch).day ∧ (t.chan ch).quiet = (s.chan ch).quiet ∧
      ∀ q, (t.port q).conditions = (s.port q).conditions ∧ ∀ k, ¬ k.besideAccounts → (t.port q).notice k = (s.port q).notice k) := by
  intro t e
  let r := s.sliceResult ch false
  let s1 := s.handOn ch r
  let s2 := s1.settleProgress ch
  have ht : t = s2.closeWaiting ch := rfl
  have f1 := State.SliceFrame.handOn s ch r
  have c1 : s1.chan ch = { s.chan ch with
      engine := (s.chan ch).engine.endSlice r, period := ((s.chan ch).countSlice r).period
      openEvent := (s1.chan ch).openEvent, continuation := (s1.chan ch).continuation } := s.handOn_chan ch r
  have p2 := s1.settleProgress_concludes ch
  have c2 : (s1.chan ch).Concluded (s2.chan ch) := p2.1
  have f3 := State.CloseFrame.closeWaiting s2 ch
  have c3 := s2.chan_closeWaiting ch
  have hrun : s1.runningOn ch = s.runningOn ch := by
    have hc : ∀ (u : State), u.calUnit = s.calUnit → (u.calTakeSlice ch r).runningOn ch = s.runningOn ch := by
      intro u hu
      unfold State.calTakeSlice State.runningOn
      rw [hu]
      cases hx : s.calUnit.run with
      | none => simp [hx, hu]
      | some x => dsimp only; split <;> simp [hx, hu, CalRun.takeSlice]
    exact hc ((s.setChan ch ((s.chan ch).countSlice r)).detectSlice ch r) (State.detectSlice_calUnit _ _ _)
  have hcomp : s1.completesRun ch ↔ s.completesRun ch := by
    unfold State.completesRun; rw [hrun, c1]
  have hprog : ¬ s.completesRun ch → (s1.chan ch).Progressed (s2.chan ch) ∧ s2.calUnit = s1.calUnit ∧
      ∀ q, (s2.port q).notice .cal = (s1.port q).notice .cal := by
    intro hn
    have h := s1.settleProgress_leaves ch fun h => hn (hcomp.1 h)
    exact ⟨h.2.1, h.2.2.1, fun q => h.1.notices q .cal (by decide)⟩
  have hw : (s2.chan ch).waiting = (s.chan ch).waiting := by
    unfold Channel.Concluded at c2; rw [c2, c1]
  have hnw : (s.chan ch).waiting = none → t = s2 := by
    intro h; rw [ht]; unfold State.closeWaiting; rw [hw, h]
  have hcl : (s2.chan ch).Closed (t.chan ch) := c3.2
  have hunit : t.calUnit = s2.calUnit := f3.calUnit
  have hst : (t.chan ch).state = (s2.chan ch).state := by
    unfold Channel.Closed at hcl; rw [hcl]
  have hslice : (s2.chan ch).engine.slice = .empty := by
    have e1 : (s1.chan ch).engine.slice = .empty := by rw [c1]; rfl
    rcases p2.2.2.2.2.2.2.2.2.2.2.1 with h | h
    · exact (congrArg Engine.slice h).trans e1
    · exact congrArg Engine.slice h
  refine ⟨?_, ?_, ?_, ?_, ?_, ?_, ?_, ?_⟩
  · intro c hc
    rw [ht, State.chan_closeWaiting_ne _ hc, p2.2.1 c hc]; exact f1.others c hc
  · have hk : ∀ {α : Type} (f : Channel → α), (∀ (a b : Channel), a.Closed b → f b = f a) → (∀ a b : Channel, a.Concluded b → f b = f a) →
        f (s1.chan ch) = f (s.chan ch) → f (s.chan ch) = f (t.chan ch) := fun f h1 h2 h3 => by rw [h1 _ _ hcl, h2 _ _ c2, h3]
    have hx := hk Channel.excluded (fun a b h => by rw [h]) (fun a b h => by rw [h]) (by rw [c1])
    have hy := hk Channel.trigger (fun a b h => by rw [h]) (fun a b h => by rw [h]) (by rw [c1])
    have hz := hk Channel.hysteresis (fun a b h => by rw [h]) (fun a b h => by rw [h]) (by rw [c1])
    have hf := hk (fun c => c.engine.filters) (fun a b h => by rw [h]) (fun a b h => by rw [h]) (by rw [c1]; rfl)
    have hg := hk (fun c => c.engine.f) (fun a b h => by rw [h]) (fun a b h => by rw [h]) (by rw [c1]; rfl)
    have hs := hk (fun c => c.engine.s) (fun a b h => by rw [h]) (fun a b h => by rw [h]) (by rw [c1]; rfl)
    have hl : (t.chan ch).engine.slice = .empty := by rw [hcl]; exact hslice
    have hwn : (t.chan ch).waiting = none := c3.1
    dsimp only [e]
    rw [hx, hy, hz, hf, hg, hs, ← hl, ← hwn]
  · intro hn
    have h := (hprog hn).1
    have e1 : (t.chan ch).pendingResult = (s2.chan ch).pendingResult := by rw [hcl]
    have e2 : (t.chan ch).calRecord = (s2.chan ch).calRecord := by rw [hcl]
    constructor
    · rw [e1, h, c1]
    · rw [e2, h, c1]
  · intro hm
    have hn : ¬ s.completesRun ch := fun ⟨⟨r, hr⟩, _, h⟩ => hm h r hr
    rw [hunit, (hprog hn).2.1]
    refine s.handOn_calUnit ch r (.inr fun h => ?_)
    have := hm h
    generalize (s.chan ch).state = x at this
    cases x with
    | calibrating p q => cases p <;> first | rfl | exact absurd rfl (this q)
    | _ => rfl
  · intro hc hn
    rw [hunit, (hprog hn).2.1]
    refine s.handOn_calUnit ch r (.inl ?_)
    have : r.cls = s.sliceClass ch false := by
      show (SliceAcc.result (s.chan ch).engine.slice (s.sliceClass ch false) (s.chan ch).fs).cls = _
      generalize s.sliceClass ch false = x
      cases x <;> rfl
    rw [this]; exact hc
  · intro hn hsw q
    have h2 : (s2.port q).notice .cal = (s.port q).notice .cal :=
      ((hprog hn).2.2 q).trans (f1.notices q .cal (by decide))
    refine Eq.trans ?_ h2
    rw [ht]
    refine s2.closeWaiting_cal ch (fun w hw' hm => ?_) q
    have hp : (s2.chan ch).pendingFs = (s.chan ch).pendingFs := by rw [(hprog hn).1, c1]
    rw [hp]; exact hsw w (hw.symm.trans hw') hm
  · intro ho q
    have h3 : (t.port q).notice .channel = (s2.port q).notice .channel := f3.notices q .channel (by unfold NoticeKind.besideClose; decide)
    exact h3.trans ((p2.2.2.2.2.2.2.2.2.2.1 (by rw [← hst]; exact ho) q).trans (f1.notices q .channel (by decide)))
  · intro hwn
    rw [hnw hwn]
    refine ⟨p2.2.2.1.trans f1.minutes.1, p2.2.2.2.1.trans f1.minutes.2, p2.2.2.2.2.1.trans f1.periods.1, p2.2.2.2.2.2.1.trans f1.periods.2,
      p2.2.2.2.2.2.2.1.trans f1.quietLine, p2.2.2.2.2.2.2.2.1.trans f1.store, ?_, ?_, ?_, ?_, fun hn => ?_, ?_, ?_, fun q => ?_⟩
    · rw [c2, c1]
    · rw [c2, c1]
    · rw [c2, c1]
    · rw [c2, c1]
    · rw [(hprog hn).1, c1]
    · rw [c2, c1]
    · rw [c2, c1]
    · have := p2.2.2.2.2.2.2.2.2.1 q
      exact ⟨this.1.trans (f1.conditions q), fun k hk => (this.2 k hk).trans (f1.notices q k fun h => hk (.inl h))⟩

/-! ### What a minute record leaves in the collections and the condition flags -/

/-- R153: one cause of a record: its flag is set in the channel of the record, if the record has it. -/
theorem PortState.takeCause_conditions (x : PortState) (r : MinuteRecord) (k : Cause) : (x.takeCause r k).conditions =
    if r.causes.has k then x.conditions.set r.ch ((x.conditions.get r.ch).insert k) else x.conditions := by
  have h : ∀ (q : Quad Causes) (c : Ch), q.set c (q.get c) = q := by intro q c; cases c <;> rfl
  have hi : ∀ (a : Causes), a.has k = true → a.insert k = a := by
    intro a ha; cases k <;> (unfold Causes.has at ha; dsimp only at ha; unfold Causes.insert; dsimp only; rw [← ha])
  unfold PortState.takeCause
  by_cases h1 : r.causes.has k = true <;> by_cases h2 : (x.conditions.get r.ch).has k = true <;> simp [h1, h2, hi, h]

/-- R153: a minute record's causes are merged into the condition flags of its channel, and no other flag moves. -/
theorem PortState.takeCauses_conditions (x : PortState) (r : MinuteRecord) :
    (x.takeCauses r).conditions = x.conditions.set r.ch ((x.conditions.get r.ch).merge r.causes) := by
  have h1 : ∀ (q : Quad Causes) (c : Ch) (a b : Causes), (q.set c a).set c b = q.set c b := by intro q c a b; cases c <;> rfl
  have h2 : ∀ (q : Quad Causes) (c : Ch), q.set c (q.get c) = q := by intro q c; cases c <;> rfl
  show ((((x.takeCause r .overload).takeCause r .saturation).takeCause r .underrange).takeCause r .frameLoss).conditions = _
  simp only [PortState.takeCause_conditions]
  generalize hq : x.conditions.get r.ch = a
  cases hc : r.causes with
  | mk o s u f =>
    cases o <;> cases s <;> cases u <;> cases f <;>
      simp [Causes.has, Causes.insert, Causes.merge, h1, hq, Quad.get_set_self]
    rw [← hq, h2]

/-- R137, R139: a record joins at the newest end of what is left of a collection once the oldest `k` have gone, one more where it is full. -/
theorem pushBounded_drop {α : Type} (cap k : Nat) (l rs : List α) (a : α) (hc : 0 < cap) (hk : k ≤ rs.length)
    (h0 : l.length + rs.length ≤ cap → k = 0) : ∃ j, j ≤ (rs ++ [a]).length ∧ pushBounded cap ((l ++ rs).drop k) a = (l ++ (rs ++ [a])).drop j ∧
      (l.length + (rs ++ [a]).length ≤ cap → j = 0) := by
  have hl : k ≤ (l ++ rs).length := by simp; omega
  unfold pushBounded
  split
  · next h =>
    refine ⟨k + 1, by simp; omega, ?_, fun h1 => ?_⟩
    · have h2 : k + 1 ≤ (l ++ rs).length := by rw [List.length_drop] at h; omega
      rw [← List.append_assoc, List.drop_append_of_le_length h2, List.drop_drop]
    · simp at h h1; omega
  · exact ⟨k, by simp; omega, by rw [← List.append_assoc, List.drop_append_of_le_length hl], fun h1 => h0 (by simp at h1; omega)⟩

end Sys2Proof.Machine
end

