-- ==== Sys2Proof/Laws/DueWork.lean ====
section
/-! SUPPORT. DueWork: the rows of the steps that fall due are those steps; what the part's own work leaves of the slices in progress, and that it leaves
nothing due. -/

namespace Sys2Proof.Machine

/-! ### What is due, and the rows that take it -/

theorem State.sliceDue_iff (s : State) (ch : Ch) : s.sliceDue ch = true ↔
    s.running = true ∧ (s.chan ch).state ≠ .off ∧ (s.rx ch.line).present = true ∧ 6000 ≤ (s.chan ch).engine.slice.frames := by
  simp [State.sliceDue, State.linePresent, and_assoc]

theorem State.blockDue_false (c : Channel) : c.blockDue = false ↔ c.engine.slice.blockCount < 48 := by
  simp [Channel.blockDue]

theorem Store.beginDue_false (st : Store) : st.beginDue = false ↔ (st.writing = none → st.queue = []) := by
  unfold Store.beginDue; cases st.writing <;> simp

theorem DueStep.mem_list (x : DueStep) : x ∈ DueStep.list := by
  cases x with
  | slice ch => cases ch <;> decide
  | restored l => cases l <;> decide
  | lapse ch => cases ch <;> decide
  | boundary => decide

theorem DueStep.list_nodup : DueStep.list.Nodup := by decide

theorem State.mem_dueSteps (s : State) (x : DueStep) : x ∈ s.dueSteps ↔ s.isDue x = true := by
  simp [State.dueSteps, DueStep.mem_list]

/-- R11, R14: a slice end with the WX level last presented is the slice end. -/
theorem State.frameSliceEndAt_wx (s : State) (ch : Ch) : s.frameSliceEndAt ch s.wx = s.frameSliceEnd ch := by
  unfold State.frameSliceEndAt State.frameSliceEnd
  by_cases h : s.sliceDue ch = true
  · rw [if_pos h, if_pos h]
  · rw [if_neg h, if_neg h]

/-! ### What work on minutes, slices and results leaves of the slices in progress -/

/-- What the part's own work but for lines leaves of a channel: an OFF channel is OFF, none becomes FAULTED or ceases to be but by going OFF, the slice is as
it was or a new one, and new where it goes OFF, and a pending result is new or as it was. -/
structure Channel.SlicesOn (a b : Channel) : Prop where
  off : a.state = .off → b.state = .off
  faulted : b.state ≠ .off → (b.state = .faulted ↔ a.state = .faulted)
  slice : (b.engine.slice.frames = a.engine.slice.frames ∧ b.engine.slice.crystal = a.engine.slice.crystal) ∨
    (b.engine.slice.frames = 0 ∧ b.engine.slice.crystal = 0)
  result : ∀ r, b.pendingResult = some r → a.pendingResult = some r ∨ r.lapse = 0
  ends : a.state ≠ .off → b.state = .off → b.engine.slice.crystal = 0

theorem Channel.SlicesOn.of_eq {a b : Channel} (hs : b.state = a.state) (he : b.engine.slice = a.engine.slice) (hr : b.pendingResult = a.pendingResult) :
    a.SlicesOn b :=
  ⟨fun h => hs.trans h, fun _ => by rw [hs], .inl ⟨by rw [he], by rw [he]⟩, fun _ h => .inl (hr ▸ h), fun h h' => absurd (hs.symm.trans h') h⟩

theorem Channel.SlicesOn.refl (a : Channel) : a.SlicesOn a := .of_eq rfl rfl rfl

theorem Channel.SlicesOn.trans {a b c : Channel} (h : a.SlicesOn b) (h' : b.SlicesOn c) : a.SlicesOn c where
  off e := h'.off (h.off e)
  faulted e := (h'.faulted e).trans (h.faulted fun hb => e (h'.off hb))
  slice := by
    rcases h'.slice with ⟨e1, e2⟩ | e
    · rcases h.slice with ⟨f1, f2⟩ | ⟨f1, f2⟩
      · exact .inl ⟨e1.trans f1, e2.trans f2⟩
      · exact .inr ⟨e1.trans f1, e2.trans f2⟩
    · exact .inr e
  result r e := (h'.result r e).elim (h.result r) .inr
  ends ha hc := by
    by_cases hb : b.state = .off
    · rcases h'.slice with ⟨-, e⟩ | ⟨-, e⟩
      · exact e.trans (h.ends ha hb)
      · exact e
    · exact h'.ends hb hc

theorem Channel.Closed.slicesOn {a b : Channel} (h : a.Closed b) : a.SlicesOn b := by
  unfold Channel.Closed at h
  generalize b.engine.minute = m at h
  rw [h]; exact .of_eq rfl rfl rfl

/-- What the part's own work but for lines leaves of the lines and the slices. -/
structure State.SlicesOn (s t : State) : Prop where
  running : t.running = s.running
  lines : ∀ l, t.rx l = s.rx l
  wx : t.wx = s.wx
  chans : ∀ ch, (s.chan ch).SlicesOn (t.chan ch)

theorem State.SlicesOn.refl (s : State) : s.SlicesOn s := ⟨rfl, fun _ => rfl, rfl, fun _ => .refl _⟩

theorem State.SlicesOn.trans {s t u : State} (h : s.SlicesOn t) (h' : t.SlicesOn u) : s.SlicesOn u :=
  ⟨h'.running.trans h.running, fun l => (h'.lines l).trans (h.lines l), h'.wx.trans h.wx, fun ch => (h.chans ch).trans (h'.chans ch)⟩

theorem State.SameFrame.running {s t : State} (h : s.SameFrame t) : t.running = s.running := by
  unfold State.running; rw [h.resetN, h.supply]

theorem State.SameFrame.rx {s t : State} (h : s.SameFrame t) (l : Line) : t.rx l = s.rx l := by
  cases l
  · exact h.line0
  · exact h.line1

/-- Work on one channel, of which what it leaves is known. -/
theorem State.SlicesOn.on {s t : State} {ch : Ch} (h : s.SameFrame t) (hw : t.wx = s.wx) (hc : (s.chan ch).SlicesOn (t.chan ch))
    (ho : ∀ d, d ≠ ch → t.chan d = s.chan d) : s.SlicesOn t where
  running := h.running
  lines := h.rx
  wx := hw
  chans d := by
    by_cases e : d = ch
    · subst e; exact hc
    · rw [ho d e]; exact .refl _

theorem State.SlicesOn.foldl {α : Type} (work : State → α → State) (h : ∀ (s : State) (a : α), s.SlicesOn (work s a)) :
    ∀ (l : List α) (s : State), s.SlicesOn (l.foldl work s)
  | [], s => .refl s
  | a :: l, s => (h s a).trans (State.SlicesOn.foldl work h l (work s a))

theorem State.SlicesOn.arrange {α : Type} (s : State) (l : List α) : s.SlicesOn (s.arrange l).2 := by
  rw [(State.arrange_perm s l).2]; exact ⟨rfl, fun l => by cases l <;> rfl, rfl, fun _ => .refl _⟩

theorem State.SlicesOn.inAnyOrder {α : Type} (work : State → α → State) (h : ∀ (s : State) (a : α), s.SlicesOn (work s a))
    (s : State) (l : List α) : s.SlicesOn (s.inAnyOrder l work) := (State.SlicesOn.arrange s l).trans (.foldl work h _ _)

theorem State.SlicesOn.closeWaiting (s : State) (ch : Ch) : s.SlicesOn (s.closeWaiting ch) :=
  (.on (.closeWaiting s ch) (State.CloseFrame.closeWaiting s ch).wx (s.chan_closeWaiting ch).2.slicesOn fun _ => s.chan_closeWaiting_ne)

theorem State.SlicesOn.setChan (s : State) (ch : Ch) {c : Channel} (h : (s.chan ch).SlicesOn c) : s.SlicesOn (s.setChan ch c) :=
  (.on (.setChan s ch c) rfl (by rw [State.chan_setChan_self]; exact h) fun _ hd => State.chan_setChan_ne s hd c)

theorem State.SlicesOn.notifyBoth (s : State) (k : NoticeKind) (d : Detail) : s.SlicesOn (s.notifyBoth k d) :=
  ⟨rfl, fun l => by cases l <;> rfl, rfl, fun _ => .refl _⟩

theorem State.SlicesOn.receiveBoundary (b : Boundary) (s : State) (ch : Ch) : s.SlicesOn (s.receiveBoundary b ch) := by
  unfold State.receiveBoundary
  split
  · exact .on (.closeMinute s ch _) (State.CloseFrame.closeMinute s ch _).wx (s.chan_closeMinute ch _).2.2.2.slicesOn fun _ hd => s.chan_closeMinute_ne hd _
  · exact (State.SlicesOn.closeWaiting s ch).trans (.setChan _ ch (.of_eq rfl rfl rfl))

theorem State.SlicesOn.moveSlots (s : State) (n : MinuteOrAbsent) : s.SlicesOn (s.moveSlots n) := by
  unfold State.moveSlots
  split
  · exact .refl s
  · refine .inAnyOrder _ (fun s i => ?_) s _
    unfold State.moveSlot
    split
    · exact .refl s
    · exact ⟨rfl, fun l => by cases l <;> rfl, rfl, fun _ => .refl _⟩

theorem State.SlicesOn.deliver (s : State) (b : Boundary) : s.SlicesOn (s.deliver b) := by
  unfold State.deliver
  split
  · exact (State.SlicesOn.moveSlots s _).trans ((State.SlicesOn.inAnyOrder _ (State.SlicesOn.receiveBoundary b) _ _).trans
      (State.SlicesOn.foldl _ (State.SlicesOn.receiveBoundary b) _ _))
  · exact .refl s

theorem State.SlicesOn.emitBoundary (s : State) : s.SlicesOn s.emitBoundary := by
  unfold State.emitBoundary
  split
  · exact State.SlicesOn.trans (t := { s with clock := s.clock.nextMinute }) ⟨rfl, fun l => by cases l <;> rfl, rfl, fun _ => .refl _⟩ (.deliver _ _)
  · exact .refl s

/-- R122: the lapse of a result, said once. -/
theorem State.lapseResult_chan (s : State) (ch : Ch) (h : (s.chan ch).lapseDue = true) :
    ((s.lapseResult ch).chan ch).pendingResult = none ∧ ((s.lapseResult ch).chan ch).state = (s.chan ch).state ∧
      ((s.lapseResult ch).chan ch).engine = (s.chan ch).engine := by
  unfold State.lapseResult
  rw [if_pos h]
  dsimp only [State.notifyCal, State.concludeRecord]
  rw [State.chan_notifyBoth, State.chan_setChan_self]
  exact ⟨by rw [State.chan_setChan_self], by rw [State.chan_setChan_self], by rw [State.chan_setChan_self]⟩

theorem State.SameFrame.lapseResult (s : State) (ch : Ch) : s.SameFrame (s.lapseResult ch) := by
  unfold State.lapseResult
  split
  · exact (State.SameFrame.setChan s ch _).trans ((State.SameFrame.setChan _ ch _).trans (.notifyBoth _ _ _ (by unfold NoticeKind.ofWork; decide)))
  · exact .refl s

theorem State.lapseResult_ne (s : State) {ch d : Ch} (hd : d ≠ ch) : (s.lapseResult ch).chan d = s.chan d := by
  unfold State.lapseResult
  split
  · dsimp only [State.notifyCal, State.concludeRecord]
    rw [State.chan_notifyBoth, State.chan_setChan_ne _ hd, State.chan_setChan_ne _ hd]
  · rfl

theorem State.lapseResult_wx (s : State) (ch : Ch) : (s.lapseResult ch).wx = s.wx := by
  unfold State.lapseResult; split <;> rfl

theorem State.SlicesOn.lapseResult (s : State) (ch : Ch) : s.SlicesOn (s.lapseResult ch) := by
  by_cases h : (s.chan ch).lapseDue = true
  · have e := s.lapseResult_chan ch h
    exact .on (.lapseResult s ch) (s.lapseResult_wx ch) ⟨fun hs => e.2.1.trans hs, fun _ => by rw [e.2.1], .inl ⟨by rw [e.2.2], by rw [e.2.2]⟩,
      fun r hr => (nomatch e.1.symm.trans hr), fun h h' => absurd (e.2.1.symm.trans h') h⟩ fun _ => s.lapseResult_ne
  · unfold State.lapseResult; rw [if_neg h]; exact .refl s

theorem State.SlicesOn.blockEnd (s : State) (ch : Ch) : s.SlicesOn (s.blockEnd ch) := by
  unfold State.blockEnd
  split
  · exact .setChan s ch ⟨id, fun _ => Iff.rfl, .inl ⟨rfl, rfl⟩, fun _ => .inl, fun h h' => absurd h' h⟩
  · exact .refl s

/-- R118, R119: a completed run leaves a new pending result or the one there was. -/
theorem State.completeRun_result (s : State) (ch : Ch) (r : PendingResult) (h : ((s.completeRun ch).chan ch).pendingResult = some r) :
    (s.chan ch).pendingResult = some r ∨ r.lapse = 0 := by
  unfold State.completeRun at h
  split at h
  · exact .inl h
  · dsimp only at h
    split at h
    · unfold State.notifyCal at h
      rw [State.chan_notifyBoth, State.chan_setChan_self] at h
      unfold Channel.takeOutcome at h
      dsimp only at h
      split at h
      all_goals first
        | exact .inl h
        | (right; injection h with h; rw [← h])
    · exact .inl h

/-- R7, R10: a settling and a run's phase move on between states that are not FAULTED; OFF, MEASURING and FAULTED stay. -/
theorem State.settleProgress_slicesOn (s : State) (ch : Ch) : (s.chan ch).SlicesOn ((s.settleProgress ch).chan ch) := by
  have hm : ∀ (x : ChannelState) (n : Nat), x ≠ .off → x ≠ .faulted → (s.chan ch).state ≠ .off → (s.chan ch).state ≠ .faulted →
      (s.chan ch).SlicesOn ((s.setChan ch { s.chan ch with state := x, settle := n }).chan ch) := by
    intro x n hx' hx ho hf
    rw [State.chan_setChan_self]
    exact ⟨fun h => absurd h ho, fun _ => ⟨fun h => absurd h hx, fun h => absurd h hf⟩, .inl ⟨rfl, rfl⟩, fun _ => .inl, fun _ h => absurd h hx'⟩
  have hc : (s.chan ch).SlicesOn ((s.setChan ch { s.chan ch with settle := (s.chan ch).settle + 1 }).chan ch) := by
    rw [State.chan_setChan_self]; exact .of_eq rfl rfl rfl
  unfold State.settleProgress State.enter
  dsimp only
  split
  · exact .refl _
  · exact .refl _
  · exact .refl _
  · next h => split
              · exact hm _ _ nofun nofun (by rw [h]; nofun) (by rw [h]; nofun)
              · exact hc
  · next h => split
              · exact hm _ _ nofun nofun (by rw [h]; nofun) (by rw [h]; nofun)
              · exact hc
  · next h =>
    split
    · rw [State.chan_setChan_self]
      have e := s.completeRun_chan ch
      have hr := s.completeRun_result ch
      refine ⟨fun h' => (nomatch h.symm.trans h'), fun _ => ⟨nofun, fun h' => (nomatch h.symm.trans h')⟩, .inl ?_, hr, fun _ => nofun⟩
      show ((s.completeRun ch).chan ch).engine.slice.frames = _ ∧ ((s.completeRun ch).chan ch).engine.slice.crystal = _
      rw [e]; exact ⟨rfl, rfl⟩
    · exact hc
  · next h => split
              · exact hm _ _ nofun nofun (by rw [h]; nofun) (by rw [h]; nofun)
              · exact hc
  · next h =>
    split
    · unfold State.returnToOff State.notifyChannel
      dsimp only
      rw [State.chan_notifyBoth, State.chan_setChan_self]
      exact ⟨fun _ => rfl, fun h' => absurd rfl h', .inr ⟨rfl, rfl⟩, fun _ => .inl, fun _ _ => rfl⟩
    · exact hc

theorem State.handOn_slicesOn (s : State) (ch : Ch) (r : SliceResult) :
    (s.chan ch).SlicesOn ((s.handOn ch r).chan ch) ∧ ((s.handOn ch r).chan ch).engine.slice = .empty ∧
      ((s.handOn ch r).chan ch).state = (s.chan ch).state := by
  have e := s.handOn_chan ch r
  dsimp only at e
  generalize ((s.handOn ch r).chan ch).openEvent = x at e
  generalize ((s.handOn ch r).chan ch).continuation = y at e
  rw [e]
  exact ⟨⟨id, fun _ => Iff.rfl, .inr ⟨rfl, rfl⟩, fun _ => .inl, fun _ _ => rfl⟩, rfl, rfl⟩

theorem State.handOn_ne (s : State) {ch d : Ch} (hd : d ≠ ch) (r : SliceResult) : (s.handOn ch r).chan d = s.chan d :=
  (State.SliceFrame.handOn s ch r).others d hd

theorem State.handOn_wx (s : State) (ch : Ch) (r : SliceResult) : (s.handOn ch r).wx = s.wx := by
  have h1 : ∀ (t : State) c, (t.closeEvent ch c).wx = t.wx := by intro t c; unfold State.closeEvent; dsimp only; split <;> rfl
  have h2 : ∀ t : State, (t.detectSlice ch r).wx = t.wx := by
    intro t; unfold State.detectSlice State.setContinuation; dsimp only
    split
    · split <;> rfl
    · split
      · exact h1 _ _
      · split
        · exact h1 _ _
        · split
          · exact h1 _ _
          · rfl
  have h3 : ∀ t : State, (t.calTakeSlice ch r).wx = t.wx := by
    intro t; unfold State.calTakeSlice; split
    · rfl
    · split <;> rfl
  exact (h3 _).trans (h2 _)

/-- R11: the end of a slice leaves the slices as `SlicesOn` says, and a new one on its channel. -/
theorem State.SlicesOn.endSlice (s : State) (ch : Ch) : s.SlicesOn (s.endSlice ch) ∧ ((s.endSlice ch).chan ch).engine.slice = .empty := by
  refine ⟨.on (.endSlice s ch) ?_ ?_ (s.endSlice_leaves ch).1, ?_⟩
  · exact (State.CloseFrame.closeWaiting _ ch).wx.trans ((State.settleProgress_concludes _ ch).2.2.2.2.2.2.2.2.2.2.2.2.2.trans (s.handOn_wx ch _))
  · exact (s.handOn_slicesOn ch _).1.trans ((State.settleProgress_slicesOn _ ch).trans (State.chan_closeWaiting _ ch).2.slicesOn)
  · have h := (s.endSlice_leaves ch).2.1
    dsimp only at h
    rw [h]

theorem State.SlicesOn.cutSlice (s : State) (ch : Ch) : s.SlicesOn (s.cutSlice ch) ∧ ((s.cutSlice ch).chan ch).engine.slice = .empty := by
  have h1 := s.handOn_slicesOn ch (s.sliceResult ch true)
  have h2 := State.chan_closeWaiting (s.handOn ch (s.sliceResult ch true)) ch
  refine ⟨.on (.cutSlice s ch) ((State.CloseFrame.closeWaiting _ ch).wx.trans (s.handOn_wx ch _)) (h1.1.trans h2.2.slicesOn) fun d hd => ?_, ?_⟩
  · exact (State.chan_closeWaiting_ne _ hd).trans (s.handOn_ne hd _)
  · have h3 := h2.2
    unfold Channel.Closed at h3
    show (((s.handOn ch _).closeWaiting ch).chan ch).engine.slice = _
    rw [h3]; exact h1.2.1

theorem State.SlicesOn.frameSliceEnd (s : State) (ch : Ch) : s.SlicesOn (s.frameSliceEnd ch) := by
  unfold State.frameSliceEnd
  split
  · exact (State.SlicesOn.blockEnd s ch).trans (State.SlicesOn.endSlice _ ch).1
  · exact .refl s

theorem State.frameSliceEnd_slice (s : State) (ch : Ch) (h : s.sliceDue ch = true) : ((s.frameSliceEnd ch).chan ch).engine.slice = .empty := by
  unfold State.frameSliceEnd
  rw [if_pos h]; exact (State.SlicesOn.endSlice _ ch).2

theorem State.SlicesOn.crystalSliceEnd (s : State) (ch : Ch) : s.SlicesOn (s.crystalSliceEnd ch) := by
  unfold State.crystalSliceEnd
  split
  · exact (State.SlicesOn.endSlice s ch).1
  · exact .refl s

/-! ### Lines -/

/-- Work that changes one channel after the other, each alone. -/
theorem State.foldl_chan (work : State → Ch → State) (R : Channel → Channel → Prop)
    (hw : ∀ (s : State) (c d : Ch), d ≠ c → (work s c).chan d = s.chan d) (hR : ∀ (s : State) (c : Ch), R (s.chan c) ((work s c).chan c)) :
    ∀ (l : List Ch) (s : State) (c : Ch), l.Nodup →
      (c ∈ l → R (s.chan c) ((l.foldl work s).chan c)) ∧ (c ∉ l → (l.foldl work s).chan c = s.chan c)
  | [], _, _, _ => ⟨nofun, fun _ => rfl⟩
  | a :: l, s, c, hn => by
    rw [List.nodup_cons] at hn
    have ih := State.foldl_chan work R hw hR l (work s a) c hn.2
    show (c ∈ a :: l → R _ ((l.foldl work (work s a)).chan c)) ∧ (c ∉ a :: l → (l.foldl work (work s a)).chan c = _)
    by_cases e : c = a
    · subst e
      refine ⟨fun _ => ?_, fun h => absurd (List.mem_cons_self ..) h⟩
      rw [ih.2 hn.1]; exact hR s c
    · rw [← hw s a c e, List.mem_cons]
      exact ⟨fun h => ih.1 (h.resolve_left e), fun h => ih.2 fun h' => h (.inr h')⟩

theorem State.chan_arrange {α : Type} (s : State) (l : List α) (ch : Ch) : (s.arrange l).2.chan ch = s.chan ch := by
  rw [(State.arrange_perm s l).2]; rfl

theorem State.inAnyOrder_chan (work : State → Ch → State) (R : Channel → Channel → Prop)
    (hw : ∀ (s : State) (c d : Ch), d ≠ c → (work s c).chan d = s.chan d) (hR : ∀ (s : State) (c : Ch), R (s.chan c) ((work s c).chan c))
    (l : List Ch) (s : State) (c : Ch) (hn : l.Nodup) :
    (c ∈ l → R (s.chan c) ((s.inAnyOrder l work).chan c)) ∧ (c ∉ l → (s.inAnyOrder l work).chan c = s.chan c) := by
  have hp := (State.arrange_perm s l).1
  have h := State.foldl_chan work R hw hR (s.arrange l).1 (s.arrange l).2 c (hp.symm.nodup hn)
  rw [State.chan_arrange, hp.mem_iff] at h
  exact h

theorem lineChannels_nodup (l : Line) : l.channels.Nodup := by cases l <;> decide

theorem mem_lineChannels (l : Line) (ch : Ch) : ch ∈ l.channels ↔ ch.line = l := by cases l <;> cases ch <;> decide

/-- R4: what the restoration of its line leaves of a channel. -/
structure Channel.Restored (a b : Channel) : Prop where
  kept : a.state ≠ .faulted → b = a
  settles : a.state = .faulted → b.state = .settling ∧ b.engine.slice = .empty
  result : ∀ r, b.pendingResult = some r → a.pendingResult = some r ∨ r.lapse = 0

theorem State.restoreChannel_chan (s : State) (ch : Ch) : (s.chan ch).Restored ((s.restoreChannel ch).chan ch) := by
  unfold State.restoreChannel
  by_cases h : (s.chan ch).state = .faulted
  · rw [if_pos h]
    dsimp only [State.notifyChannel, State.enter]
    rw [State.chan_notifyBoth, State.chan_setChan_self]
    have hc := State.SlicesOn.cutSlice s ch
    rw [State.chan_setChan_self]
    exact ⟨fun h' => absurd h h', fun _ => ⟨rfl, hc.2⟩, (hc.1.chans ch).result⟩
  · rw [if_neg h]
    exact ⟨fun _ => rfl, fun h' => absurd h' h, fun _ => .inl⟩

theorem State.restoreChannel_ne (s : State) (ch d : Ch) (hd : d ≠ ch) : (s.restoreChannel ch).chan d = s.chan d := by
  unfold State.restoreChannel
  split
  · dsimp only [State.notifyChannel, State.enter]
    rw [State.chan_notifyBoth, State.chan_setChan_ne _ hd, State.chan_setChan_ne _ hd]
    exact (State.chan_closeWaiting_ne _ hd).trans (s.handOn_ne hd _)
  · rfl

theorem State.restoreChannel_wx (s : State) (ch : Ch) : (s.restoreChannel ch).wx = s.wx := by
  unfold State.restoreChannel
  split
  · exact (State.SlicesOn.cutSlice s ch).1.wx
  · rfl

theorem State.foldl_wx {α : Type} (work : State → α → State) (h : ∀ (s : State) (a : α), (work s a).wx = s.wx) :
    ∀ (l : List α) (s : State), (l.foldl work s).wx = s.wx
  | [], _ => rfl
  | a :: l, s => (State.foldl_wx work h l (work s a)).trans (h s a)

theorem State.inAnyOrder_wx {α : Type} (work : State → α → State) (h : ∀ (s : State) (a : α), (work s a).wx = s.wx) (s : State) (l : List α) :
    (s.inAnyOrder l work).wx = s.wx := (State.foldl_wx work h _ _).trans (State.SlicesOn.arrange s l).wx

/-- R2, R4: what the restoration of a line leaves of the lines, the channels and the clock. -/
theorem State.lineRestored_does (s : State) (l : Line) (h : s.running = true) (hd : (s.rx l).restoreDue = true) :
    (s.lineRestored l).running = true ∧ (s.lineRestored l).clock = s.clock ∧ (s.lineRestored l).wx = s.wx ∧
    (∀ k, (s.lineRestored l).rx k = if k = l then { s.rx l with present := true, run := 4800 } else s.rx k) ∧
    ∀ ch, (ch.line = l → (s.chan ch).Restored ((s.lineRestored l).chan ch)) ∧ (ch.line ≠ l → (s.lineRestored l).chan ch = s.chan ch) := by
  let u := s.setRx l { s.rx l with present := true, run := 4800 }
  have e : s.lineRestored l = u.inAnyOrder l.channels State.restoreChannel := by
    unfold State.lineRestored; rw [if_pos (by rw [h, hd]; rfl)]
  have hf : u.SameFrame (u.inAnyOrder l.channels State.restoreChannel) := .inAnyOrder _ State.SameFrame.restoreChannel _ _
  have hu : u.running = s.running ∧ u.clock = s.clock ∧ u.wx = s.wx := by cases l <;> exact ⟨rfl, rfl, rfl⟩
  rw [e]
  refine ⟨hf.running.trans (hu.1.trans h), hf.clock.trans hu.2.1, ?_, fun k => ?_, fun ch => ?_⟩
  · exact (State.inAnyOrder_wx _ State.restoreChannel_wx _ _).trans hu.2.2
  · rw [hf.rx, State.rx_setRx]
  · have hc := State.inAnyOrder_chan State.restoreChannel Channel.Restored State.restoreChannel_ne State.restoreChannel_chan l.channels u ch (lineChannels_nodup l)
    rw [mem_lineChannels, State.chan_setRx] at hc
    exact hc

/-! ### The due steps, taken -/

theorem State.frameSliceEnd_clock (s : State) (ch : Ch) : (s.frameSliceEnd ch).clock = s.clock := (State.SameFrame.frameSliceEnd s ch).clock

theorem State.deliver_clock (s : State) (b : Boundary) : (s.deliver b).clock = s.clock := by
  have hm : ∀ (l : List (Fin 8)) (n : Nat) (t : State), (l.foldl (State.moveSlot n) t).clock = t.clock := by
    intro l n
    induction l with
    | nil => exact fun _ => rfl
    | cons i l ih =>
      intro t
      refine (ih _).trans ?_
      unfold State.moveSlot; split <;> rfl
  unfold State.deliver
  split
  · refine (State.SameFrame.foldl _ (State.SameFrame.receiveBoundary b) _ _).clock.trans
      ((State.SameFrame.inAnyOrder _ (State.SameFrame.receiveBoundary b) _ _).clock.trans ?_)
    unfold State.moveSlots
    split
    · rfl
    · exact (hm _ _ _).trans (State.SameFrame.arrange _ _).clock
  · rfl

/-- R43: the clock after a boundary that is due, and where none is. -/
theorem State.emitBoundary_clock (s : State) : s.emitBoundary.clock = if s.clock.boundaryDue then s.clock.nextMinute else s.clock := by
  unfold State.emitBoundary
  split
  · exact State.deliver_clock _ _
  · rfl

/-- R2, R4: a line's restoration that is not due is none. -/
theorem State.lineRestored_not_due (s : State) (l : Line) (h : (s.running && (s.rx l).restoreDue) = false) : s.lineRestored l = s := by
  unfold State.lineRestored; rw [if_neg (by rw [h]; exact Bool.false_ne_true)]

/-- Every running channel of a LOST line is FAULTED (R3, R4, R6). -/
def State.LossTreated (s : State) : Prop :=
  ∀ ch, (s.rx ch.line).present = false → (s.chan ch).state = .off ∨ (s.chan ch).state = .faulted

theorem State.SlicesOn.lossTreated {s t : State} (h : s.SlicesOn t) (hs : s.LossTreated) : t.LossTreated := by
  intro ch hl
  rw [h.lines] at hl
  by_cases ho : (t.chan ch).state = .off
  · exact .inl ho
  · rcases hs ch hl with e | e
    · exact .inl ((h.chans ch).off e)
    · exact .inr (((h.chans ch).faulted ho).2 e)

/-- Work that leaves the slices and no new lapse leaves no step due that was not, but for the boundary. -/
theorem State.SlicesOn.not_due {s t : State} (h : s.SlicesOn t) {x : DueStep} (hx : x ≠ .boundary) (hd : s.isDue x = false) : t.isDue x = false := by
  cases x with
  | boundary => exact absurd rfl hx
  | restored l =>
    show (t.running && (t.rx l).restoreDue) = false
    rw [h.running, h.lines]; exact hd
  | lapse ch =>
    show (t.chan ch).lapseDue = false
    change (s.chan ch).lapseDue = false at hd
    unfold Channel.lapseDue at hd ⊢
    cases e : (t.chan ch).pendingResult with
    | none => rfl
    | some r =>
      rcases (h.chans ch).result r e with e' | e'
      · rw [e'] at hd; exact hd
      · simp [e']
  | slice ch =>
    show t.sliceDue ch = false
    change s.sliceDue ch = false at hd
    rw [← Bool.not_eq_true, State.sliceDue_iff] at hd ⊢
    rintro ⟨h1, h2, h3, h4⟩
    rw [h.running] at h1
    rw [h.lines] at h3
    refine hd ⟨h1, fun e => h2 ((h.chans ch).off e), h3, ?_⟩
    rcases (h.chans ch).slice with ⟨e, -⟩ | ⟨e, -⟩
    · exact e ▸ h4
    · omega

/-- What taking a due step leaves: its wx, that every running channel of a LOST line is FAULTED, the step itself not due, and no other made due. -/
theorem State.takeDue_does (s : State) (x : DueStep) :
    (s.takeDue x).wx = s.wx ∧ (s.LossTreated → (s.takeDue x).LossTreated ∧ (s.takeDue x).isDue x = false ∧
      ∀ y, s.isDue y = false → (s.takeDue x).isDue y = false) := by
  cases x with
  | slice ch =>
    have h : s.SlicesOn (s.takeDue (.slice ch)) := State.SlicesOn.frameSliceEnd s ch
    have hk : ∀ y, s.isDue y = false → (s.takeDue (.slice ch)).isDue y = false := by
      intro y hy
      by_cases e : y = .boundary
      · subst e; show (s.frameSliceEnd ch).clock.boundaryDue = false; rw [State.frameSliceEnd_clock]; exact hy
      · exact h.not_due e hy
    refine ⟨h.wx, fun hs => ⟨h.lossTreated hs, ?_, hk⟩⟩
    cases hd : s.sliceDue ch with
    | false => exact hk (.slice ch) hd
    | true =>
      show (s.frameSliceEnd ch).sliceDue ch = false
      rw [← Bool.not_eq_true, State.sliceDue_iff, State.frameSliceEnd_slice s ch hd]
      exact fun h' => absurd h'.2.2.2 (by decide)
  | lapse ch =>
    have h : s.SlicesOn (s.takeDue (.lapse ch)) := State.SlicesOn.lapseResult s ch
    have hk : ∀ y, s.isDue y = false → (s.takeDue (.lapse ch)).isDue y = false := by
      intro y hy
      by_cases e : y = .boundary
      · subst e; show (s.lapseResult ch).clock.boundaryDue = false; rw [(State.SameFrame.lapseResult s ch).clock]; exact hy
      · exact h.not_due e hy
    refine ⟨h.wx, fun hs => ⟨h.lossTreated hs, ?_, hk⟩⟩
    cases hd : (s.chan ch).lapseDue with
    | false => exact hk (.lapse ch) hd
    | true =>
      show ((s.lapseResult ch).chan ch).lapseDue = false
      unfold Channel.lapseDue; rw [(s.lapseResult_chan ch hd).1]; rfl
  | boundary =>
    have h : s.SlicesOn (s.takeDue .boundary) := State.SlicesOn.emitBoundary s
    have hb : s.emitBoundary.clock.boundaryDue = false := by
      rw [State.emitBoundary_clock]
      split
      · rfl
      · next h => simpa using h
    refine ⟨h.wx, fun hs => ⟨h.lossTreated hs, hb, fun y hy => ?_⟩⟩
    by_cases e : y = .boundary
    · subst e; exact hb
    · exact h.not_due e hy
  | restored l =>
    cases hd : (s.running && (s.rx l).restoreDue) with
    | false =>
      have e : s.takeDue (.restored l) = s := s.lineRestored_not_due l hd
      rw [e]; exact ⟨rfl, fun hs => ⟨hs, hd, fun _ => id⟩⟩
    | true =>
      rw [Bool.and_eq_true] at hd
      obtain ⟨hr, hc, hw, hl, hch⟩ := s.lineRestored_does l hd.1 hd.2
      have hlost : (s.rx l).present = false := by
        have := hd.2; unfold LineRx.restoreDue at this; simp_all
      refine ⟨hw, fun hs => ⟨fun ch hp => ?_, ?_, fun y hy => ?_⟩⟩
      · change ((s.lineRestored l).rx ch.line).present = false at hp
        rw [hl] at hp
        by_cases e : ch.line = l
        · rw [if_pos e] at hp; exact Bool.noConfusion hp
        · rw [if_neg e] at hp
          show ((s.lineRestored l).chan ch).state = _ ∨ ((s.lineRestored l).chan ch).state = _
          rw [(hch ch).2 e]; exact hs ch hp
      · show ((s.lineRestored l).running && ((s.lineRestored l).rx l).restoreDue) = false
        rw [hl, if_pos rfl]; exact Bool.and_false _
      · cases y with
        | boundary => show (s.lineRestored l).clock.boundaryDue = false; rw [hc]; exact hy
        | restored k =>
          show ((s.lineRestored l).running && ((s.lineRestored l).rx k).restoreDue) = false
          rw [hr, hl]
          by_cases e : k = l
          · rw [if_pos e]; rfl
          · rw [if_neg e, ← hd.1]; exact hy
        | lapse ch =>
          show ((s.lineRestored l).chan ch).lapseDue = false
          change (s.chan ch).lapseDue = false at hy
          by_cases e : ch.line = l
          · unfold Channel.lapseDue at hy ⊢
            cases e' : ((s.lineRestored l).chan ch).pendingResult with
            | none => rfl
            | some r =>
              rcases ((hch ch).1 e).result r e' with e2 | e2
              · rw [e2] at hy; exact hy
              · simp [e2]
          · rw [(hch ch).2 e]; exact hy
        | slice ch =>
          show (s.lineRestored l).sliceDue ch = false
          change s.sliceDue ch = false at hy
          rw [← Bool.not_eq_true, State.sliceDue_iff] at hy ⊢
          rintro ⟨-, h2, h3, h4⟩
          by_cases e : ch.line = l
          · rcases hs ch (e ▸ hlost) with e' | e'
            · rw [((hch ch).1 e).kept (by rw [e']; nofun)] at h2; exact h2 e'
            · rw [(((hch ch).1 e).settles e').2] at h4; exact absurd h4 (by decide)
          · rw [(hch ch).2 e] at h2 h4
            rw [hl, if_neg e] at h3
            exact hy ⟨hd.1, h2, h3, h4⟩

theorem State.foldl_takeDue_not_due (y : DueStep) : ∀ (l : List DueStep) (s : State), s.LossTreated → (s.isDue y = false ∨ y ∈ l) →
    (l.foldl State.takeDue s).isDue y = false
  | [], s, _, h => h.resolve_right (by simp)
  | x :: l, s, hs, h => by
    have hx := (s.takeDue_does x).2 hs
    refine State.foldl_takeDue_not_due y l (s.takeDue x) hx.1 ?_
    rcases h with h | h
    · exact .inl (hx.2.2 y h)
    · rcases List.mem_cons.1 h with rfl | h
      · exact .inl hx.2.1
      · exact .inr h

theorem State.isDue_arrange {α : Type} (s : State) (l : List α) (x : DueStep) : (s.arrange l).2.isDue x = s.isDue x := by
  rw [(State.arrange_perm s l).2]; cases x with
  | restored l => cases l <;> rfl
  | _ => rfl

theorem State.isDue_beginStoreWrite (s : State) (x : DueStep) : s.beginStoreWrite.isDue x = s.isDue x := by
  cases x with
  | restored l => cases l <;> rfl
  | _ => rfl

theorem State.endBlocks_slicesOn (s : State) : s.SlicesOn s.endBlocks := .foldl _ State.SlicesOn.blockEnd Ch.list s

/-- The due work leaves nothing due, where every running channel of a LOST line is FAULTED. -/
theorem State.settle_settled (s : State) (h : s.LossTreated) : s.settle.settled = true := by
  have hd : ∀ x, s.settle.isDue x = false := by
    intro x
    delta State.settle
    extract_lets t
    rw [State.isDue_beginStoreWrite]
    have hp := (State.arrange_perm t t.dueSteps).1
    refine State.foldl_takeDue_not_due x _ _ ?_ ?_
    · exact ((s.endBlocks_slicesOn).trans (.arrange _ _)).lossTreated h
    · rw [State.isDue_arrange, hp.mem_iff, State.mem_dueSteps]
      cases t.isDue x <;> simp
  have hb : s.settle.store.beginDue = false := by
    show (State.beginStoreWrite _).store.beginDue = false
    unfold State.beginStoreWrite Store.beginWrite Store.beginDue
    dsimp only
    generalize State.store _ = st
    cases hw : st.writing <;> cases hq : st.queue <;> simp [hw, hq]
  unfold State.settled
  rw [hb]
  have h1 : s.settle.dueSteps = [] := by
    unfold State.dueSteps; exact List.filter_eq_nil_iff.2 fun x _ => by simp [hd x]
  have h2 : (Ch.list.all fun ch => !(s.settle.chan ch).blockDue) = true := by
    rw [List.all_eq_true]; intro ch _
    rw [(State.blockDue_false _).2 (s.blockCount_settle ch)]; rfl
  rw [h1, h2]; rfl

end Sys2Proof.Machine
end

