-- ==== Sys2Proof/Laws/PerInstr.lean ====
section
/-! SUPPORT. PerInstr: for each command and event, the transaction that sends it and the form it has; one lemma per constructor. -/

namespace Sys2Proof.Laws.Transaction

/-- A command has a sending port, and the bytes that send it are one command code and its parameters; an event has neither, and no form.
No command is both a write and a read, and only a command whose code may be unknown carries a code of its own. -/
def Statement (i : Instr) : Prop :=
  ((∃ p code, i.port? = some p ∧ encodeTransaction i = some (code :: i.params)) ∨
    (i.port? = none ∧ encodeTransaction i = none ∧ i.params = [] ∧ i.writeForm = none ∧ i.readForm = none)) ∧
  (i.writeForm = none ∨ i.readForm = none) ∧
  (i.wf = true ∨ ∃ p code piece, i = .unknownCommandCode p code piece)

theorem nop (port : Port) (piece : Piece) : Statement (.nop port piece) := ⟨.inl ⟨_, _, rfl, rfl⟩, .inl rfl, .inl rfl⟩
theorem unknownCommandCode (port : Port) (code : Byte) (piece : Piece) : Statement (.unknownCommandCode port code piece) := ⟨.inl ⟨_, _, rfl, rfl⟩, .inl rfl, .inr ⟨_, _, _, rfl⟩⟩
theorem readLive (port : Port) (piece : Piece) (wx : Bool) : Statement (.readLive port piece wx) := ⟨.inl ⟨_, _, rfl, rfl⟩, .inl rfl, .inl rfl⟩
theorem readChannel (port : Port) (piece : Piece) (wx : Bool) : Statement (.readChannel port piece wx) := ⟨.inl ⟨_, _, rfl, rfl⟩, .inl rfl, .inl rfl⟩
theorem readClock (port : Port) (piece : Piece) : Statement (.readClock port piece) := ⟨.inl ⟨_, _, rfl, rfl⟩, .inl rfl, .inl rfl⟩
theorem readEntry (port : Port) (piece : Piece) : Statement (.readEntry port piece) := ⟨.inl ⟨_, _, rfl, rfl⟩, .inl rfl, .inl rfl⟩
theorem readHeader (port : Port) (piece : Piece) (prot : Bool) : Statement (.readHeader port piece prot) := ⟨.inl ⟨_, _, rfl, rfl⟩, .inl rfl, .inl rfl⟩
theorem readDispensation (port : Port) (piece : Piece) : Statement (.readDispensation port piece) := ⟨.inl ⟨_, _, rfl, rfl⟩, .inl rfl, .inl rfl⟩
theorem readAccount (port : Port) (piece : Piece) : Statement (.readAccount port piece) := ⟨.inl ⟨_, _, rfl, rfl⟩, .inl rfl, .inl rfl⟩
theorem readHistogram (port : Port) (piece : Piece) : Statement (.readHistogram port piece) := ⟨.inl ⟨_, _, rfl, rfl⟩, .inl rfl, .inl rfl⟩
theorem readEvents (port : Port) (piece : Piece) : Statement (.readEvents port piece) := ⟨.inl ⟨_, _, rfl, rfl⟩, .inl rfl, .inl rfl⟩
theorem readHistory (port : Port) (piece : Piece) : Statement (.readHistory port piece) := ⟨.inl ⟨_, _, rfl, rfl⟩, .inl rfl, .inl rfl⟩
theorem readPeriods (port : Port) (piece : Piece) : Statement (.readPeriods port piece) := ⟨.inl ⟨_, _, rfl, rfl⟩, .inl rfl, .inl rfl⟩
theorem readNotices (port : Port) (piece : Piece) : Statement (.readNotices port piece) := ⟨.inl ⟨_, _, rfl, rfl⟩, .inl rfl, .inl rfl⟩
theorem readCommissioning (port : Port) (piece : Piece) : Statement (.readCommissioning port piece) := ⟨.inl ⟨_, _, rfl, rfl⟩, .inl rfl, .inl rfl⟩
theorem identify (port : Port) (piece : Piece) : Statement (.identify port piece) := ⟨.inl ⟨_, _, rfl, rfl⟩, .inl rfl, .inl rfl⟩
theorem seek (port : Port) (piece : Piece) : Statement (.seek port piece) := ⟨.inl ⟨_, _, rfl, rfl⟩, .inr rfl, .inl rfl⟩
theorem startChannels (port : Port) (piece : Piece) : Statement (.startChannels port piece) := ⟨.inl ⟨_, _, rfl, rfl⟩, .inr rfl, .inl rfl⟩
theorem stopChannels (port : Port) (piece : Piece) : Statement (.stopChannels port piece) := ⟨.inl ⟨_, _, rfl, rfl⟩, .inr rfl, .inl rfl⟩
theorem exclude (port : Port) (piece : Piece) : Statement (.exclude port piece) := ⟨.inl ⟨_, _, rfl, rfl⟩, .inr rfl, .inl rfl⟩
theorem setEventTrigger (port : Port) (piece : Piece) : Statement (.setEventTrigger port piece) := ⟨.inl ⟨_, _, rfl, rfl⟩, .inr rfl, .inl rfl⟩
theorem calibrate (port : Port) (piece : Piece) : Statement (.calibrate port piece) := ⟨.inl ⟨_, _, rfl, rfl⟩, .inr rfl, .inl rfl⟩
theorem abortCalibration (port : Port) (piece : Piece) : Statement (.abortCalibration port piece) := ⟨.inl ⟨_, _, rfl, rfl⟩, .inr rfl, .inl rfl⟩
theorem acceptCalibration (port : Port) (piece : Piece) : Statement (.acceptCalibration port piece) := ⟨.inl ⟨_, _, rfl, rfl⟩, .inr rfl, .inl rfl⟩
theorem rejectCalibration (port : Port) (piece : Piece) : Statement (.rejectCalibration port piece) := ⟨.inl ⟨_, _, rfl, rfl⟩, .inr rfl, .inl rfl⟩
theorem setTime (port : Port) (piece : Piece) : Statement (.setTime port piece) := ⟨.inl ⟨_, _, rfl, rfl⟩, .inr rfl, .inl rfl⟩
theorem trimClock (port : Port) (piece : Piece) : Statement (.trimClock port piece) := ⟨.inl ⟨_, _, rfl, rfl⟩, .inr rfl, .inl rfl⟩
theorem writeEntry (port : Port) (piece : Piece) : Statement (.writeEntry port piece) := ⟨.inl ⟨_, _, rfl, rfl⟩, .inr rfl, .inl rfl⟩
theorem deleteEntry (port : Port) (piece : Piece) : Statement (.deleteEntry port piece) := ⟨.inl ⟨_, _, rfl, rfl⟩, .inr rfl, .inl rfl⟩
theorem writeHeader (port : Port) (piece : Piece) : Statement (.writeHeader port piece) := ⟨.inl ⟨_, _, rfl, rfl⟩, .inr rfl, .inl rfl⟩
theorem setProtection (port : Port) (piece : Piece) (prot : Bool) : Statement (.setProtection port piece prot) := ⟨.inl ⟨_, _, rfl, rfl⟩, .inr rfl, .inl rfl⟩
theorem proposeDispensation (port : Port) (piece : Piece) : Statement (.proposeDispensation port piece) := ⟨.inl ⟨_, _, rfl, rfl⟩, .inr rfl, .inl rfl⟩
theorem withdrawDispensation (port : Port) (piece : Piece) : Statement (.withdrawDispensation port piece) := ⟨.inl ⟨_, _, rfl, rfl⟩, .inr rfl, .inl rfl⟩
theorem approveDispensation (port : Port) (piece : Piece) : Statement (.approveDispensation port piece) := ⟨.inl ⟨_, _, rfl, rfl⟩, .inr rfl, .inl rfl⟩
theorem rejectDispensation (port : Port) (piece : Piece) : Statement (.rejectDispensation port piece) := ⟨.inl ⟨_, _, rfl, rfl⟩, .inr rfl, .inl rfl⟩
theorem revokeDispensation (port : Port) (piece : Piece) : Statement (.revokeDispensation port piece) := ⟨.inl ⟨_, _, rfl, rfl⟩, .inr rfl, .inl rfl⟩
theorem setNoticeEnables (port : Port) (piece : Piece) : Statement (.setNoticeEnables port piece) := ⟨.inl ⟨_, _, rfl, rfl⟩, .inr rfl, .inl rfl⟩
theorem clearConditions (port : Port) (piece : Piece) : Statement (.clearConditions port piece) := ⟨.inl ⟨_, _, rfl, rfl⟩, .inr rfl, .inl rfl⟩
theorem setQuietRequest (port : Port) (piece : Piece) : Statement (.setQuietRequest port piece) := ⟨.inl ⟨_, _, rfl, rfl⟩, .inr rfl, .inl rfl⟩
theorem portReset (port : Port) (piece : Piece) : Statement (.portReset port piece) := ⟨.inl ⟨_, _, rfl, rfl⟩, .inr rfl, .inl rfl⟩
theorem writeCommissioning (port : Port) (piece : Piece) : Statement (.writeCommissioning port piece) := ⟨.inl ⟨_, _, rfl, rfl⟩, .inr rfl, .inl rfl⟩
theorem lockCommissioning (port : Port) (piece : Piece) : Statement (.lockCommissioning port piece) := ⟨.inl ⟨_, _, rfl, rfl⟩, .inr rfl, .inl rfl⟩
theorem deviceReset (port : Port) (piece : Piece) : Statement (.deviceReset port piece) := ⟨.inl ⟨_, _, rfl, rfl⟩, .inr rfl, .inl rfl⟩
theorem resetNLow : Statement (.resetNLow) := ⟨.inr ⟨rfl, rfl, rfl, rfl, rfl⟩, .inl rfl, .inl rfl⟩
theorem resetNRelease : Statement (.resetNRelease) := ⟨.inr ⟨rfl, rfl, rfl, rfl, rfl⟩, .inl rfl, .inl rfl⟩
theorem powerOn (backupLost : Bool) : Statement (.powerOn backupLost) := ⟨.inr ⟨rfl, rfl, rfl, rfl, rfl⟩, .inl rfl, .inl rfl⟩
theorem audioFrame (line : Line) (lower : Sample) (upper : Sample) : Statement (.audioFrame line lower upper) := ⟨.inr ⟨rfl, rfl, rfl, rfl, rfl⟩, .inl rfl, .inl rfl⟩
theorem incompleteFrameDiscard (line : Line) : Statement (.incompleteFrameDiscard line) := ⟨.inr ⟨rfl, rfl, rfl, rfl, rfl⟩, .inl rfl, .inl rfl⟩
theorem blockEnd (ch : Ch) : Statement (.blockEnd ch) := ⟨.inr ⟨rfl, rfl, rfl, rfl, rfl⟩, .inl rfl, .inl rfl⟩
theorem frameSliceEnd (ch : Ch) (wx : Bool) : Statement (.frameSliceEnd ch wx) := ⟨.inr ⟨rfl, rfl, rfl, rfl, rfl⟩, .inl rfl, .inl rfl⟩
theorem crystalSliceEnd (ch : Ch) : Statement (.crystalSliceEnd ch) := ⟨.inr ⟨rfl, rfl, rfl, rfl, rfl⟩, .inl rfl, .inl rfl⟩
theorem lineLost (line : Line) : Statement (.lineLost line) := ⟨.inr ⟨rfl, rfl, rfl, rfl, rfl⟩, .inl rfl, .inl rfl⟩
theorem lineRestored (line : Line) : Statement (.lineRestored line) := ⟨.inr ⟨rfl, rfl, rfl, rfl, rfl⟩, .inl rfl, .inl rfl⟩
theorem settlingComplete (ch : Ch) (wx : Bool) : Statement (.settlingComplete ch wx) := ⟨.inr ⟨rfl, rfl, rfl, rfl, rfl⟩, .inl rfl, .inl rfl⟩
theorem calSettleComplete (ch : Ch) (wx : Bool) : Statement (.calSettleComplete ch wx) := ⟨.inr ⟨rfl, rfl, rfl, rfl, rfl⟩, .inl rfl, .inl rfl⟩
theorem calMeasureComplete (ch : Ch) (wx : Bool) : Statement (.calMeasureComplete ch wx) := ⟨.inr ⟨rfl, rfl, rfl, rfl, rfl⟩, .inl rfl, .inl rfl⟩
theorem calRecoverComplete (ch : Ch) (wx : Bool) : Statement (.calRecoverComplete ch wx) := ⟨.inr ⟨rfl, rfl, rfl, rfl, rfl⟩, .inl rfl, .inl rfl⟩
theorem calResultLapse (ch : Ch) : Statement (.calResultLapse ch) := ⟨.inr ⟨rfl, rfl, rfl, rfl, rfl⟩, .inl rfl, .inl rfl⟩
theorem secondTick : Statement (.secondTick) := ⟨.inr ⟨rfl, rfl, rfl, rfl, rfl⟩, .inl rfl, .inl rfl⟩
theorem minuteBoundary : Statement (.minuteBoundary) := ⟨.inr ⟨rfl, rfl, rfl, rfl, rfl⟩, .inl rfl, .inl rfl⟩
theorem eventCloseFell (ch : Ch) (wx : Bool) : Statement (.eventCloseFell ch wx) := ⟨.inr ⟨rfl, rfl, rfl, rfl, rfl⟩, .inl rfl, .inl rfl⟩
theorem eventCloseLong (ch : Ch) (wx : Bool) : Statement (.eventCloseLong ch wx) := ⟨.inr ⟨rfl, rfl, rfl, rfl, rfl⟩, .inl rfl, .inl rfl⟩
theorem storeWriteBegin : Statement (.storeWriteBegin) := ⟨.inr ⟨rfl, rfl, rfl, rfl, rfl⟩, .inl rfl, .inl rfl⟩
theorem storeWriteEnd (readsBack : Bool) : Statement (.storeWriteEnd readsBack) := ⟨.inr ⟨rfl, rfl, rfl, rfl, rfl⟩, .inl rfl, .inl rfl⟩
theorem lossOfSupply : Statement (.lossOfSupply) := ⟨.inr ⟨rfl, rfl, rfl, rfl, rfl⟩, .inl rfl, .inl rfl⟩

end Sys2Proof.Laws.Transaction
end

