-- ==== Sys2Proof/Laws/SliceBounds.lean ====
section
/-! SUPPORT. SliceBounds: every step leaves a running channel FAULTED exactly while its line is LOST, the frames of a slice at most 6000 and the crystal
periods of it fewer than 4096 (R3, R4, R6, R11). -/

namespace Sys2Proof.Machine

variable {k : Origin}

/-! ### What moves neither states nor lines nor counts -/

/-- The channel's state is as it was, and its slice counts no more frames and crystal periods than it did. -/
structure Channel.Calm (a b : Channel) : Prop where
  state : b.state = a.state
  slice : b.engine.slice.frames ≤ a.engine.slice.frames ∧ b.engine.slice.crystal ≤ a.engine.slice.crystal

theorem Channel.Calm.of_eq {a b : Channel} (hs : b.state = a.state) (he : b.engine.slice = a.engine.slice) : a.Calm b :=
  ⟨hs, by rw [he]; exact ⟨Nat.le_refl _, Nat.le_refl _⟩⟩

theorem Channel.Calm.refl (a : Channel) : a.Calm a := .of_eq rfl rfl

theorem Channel.Calm.trans {a b c : Channel} (h : a.Calm b) (h' : b.Calm c) : a.Calm c :=
  ⟨h'.state.trans h.state, h'.slice.1.trans h.slice.1, h'.slice.2.trans h.slice.2⟩

/-- The lines are as they were, and every channel is calm. -/
structure State.Calm (s t : State) : Prop where
  lines : ∀ l, t.rx l = s.rx l
  chans : ∀ ch, (s.chan ch).Calm (t.chan ch)

theorem State.Calm.of_eq {s t : State} (h0 : t.line0 = s.line0) (h1 : t.line1 = s.line1) (hc : t.channels = s.channels) : s.Calm t :=
  ⟨fun l => by cases l; exact h0; exact h1, fun ch => by unfold State.chan; rw [hc]; exact .refl _⟩

theorem State.Calm.refl (s : State) : s.Calm s := .of_eq rfl rfl rfl

theorem State.Calm.trans {s t u : State} (h : s.Calm t) (h' : t.Calm u) : s.Calm u :=
  ⟨fun l => (h'.lines l).trans (h.lines l), fun ch => (h.chans ch).trans (h'.chans ch)⟩

theorem State.Calm.setChan (s : State) (ch : Ch) {c : Channel} (h : (s.chan ch).Calm c) : s.Calm (s.setChan ch c) where
  lines l := by cases l <;> rfl
  chans d := by
    rw [State.chan_setChan]
    split
    · next e => exact e ▸ h
    · exact .refl _

/-- Work that changes one channel, and nothing of the others and the lines. -/
theorem State.Calm.on {s t : State} (ch : Ch) (c : Channel) (h0 : t.line0 = s.line0) (h1 : t.line1 = s.line1)
    (hc : t.channels = (s.setChan ch c).channels) (h : (s.chan ch).Calm c) : s.Calm t :=
  (State.Calm.setChan s ch h).trans (.of_eq h0 h1 hc)

theorem ChanEffect.calm (hm : k.moves = false) (hs : k.samples = false) {a b : Channel} (h : ChanEffect k a b) : a.Calm b where
  state := h.keeps_state hm
  slice := by
    cases h with
    | moves _ _ _ hk => simp [hm] at hk
    | returnsOff _ hk => simp [hm] at hk
    | starts _ _ _ hk => simp [hm] at hk
    | takesSample _ _ hk => simp [hs] at hk
    | minuteEntered m low =>
      unfold Channel.enterMinute
      split
      · dsimp only; split
        · split <;> exact ⟨Nat.le_refl _, Nat.le_refl _⟩
        · exact ⟨Nat.le_refl _, Nat.le_refl _⟩
      · exact ⟨Nat.le_refl _, Nat.le_refl _⟩
    | sliceCounted r => unfold Channel.countSlice; split <;> exact ⟨Nat.le_refl _, Nat.le_refl _⟩
    | sliceEnds => exact ⟨Nat.zero_le _, Nat.zero_le _⟩
    | _ => exact ⟨Nat.le_refl _, Nat.le_refl _⟩

theorem State.Calm.concludeRecord (s : State) (ch : Ch) (o : CalOutcome) : s.Calm (s.concludeRecord ch o) := .setChan s ch (.of_eq rfl rfl)

theorem State.Calm.endRun (s : State) (ch : Ch) (o : CalOutcome) : s.Calm (s.endRun ch o) := by
  unfold State.endRun
  split
  · exact State.Calm.trans (t := { s with calUnit := _ }) (.of_eq rfl rfl rfl)
      ((State.Calm.concludeRecord _ ch o).trans (.of_eq rfl rfl rfl))
  · exact .refl s

/-- R13, R15: a setting of some channels. -/
theorem State.Calm.update (s : State) (m : ChannelMask) {f : Channel → Channel} (h : ∀ c : Channel, c.Calm (f c)) :
    s.Calm { s with channels := s.channels.update m f } where
  lines l := by cases l <;> rfl
  chans ch := by
    cases ch
    all_goals
      show Channel.Calm _ (Quad.get (Quad.update _ _ _) _)
      unfold Quad.update Quad.get State.chan Quad.get
      dsimp only
      split
      · exact h _
      · exact .refl _

theorem State.Calm.bringQuiet (s : State) (ch : Ch) (i : QuietInput) : s.Calm (s.bringQuiet ch i) := by
  unfold State.bringQuiet; split
  · exact .refl s
  · exact .of_eq rfl rfl rfl

theorem Effect.calm (hm : k.moves = false) (hr : k.reset = false) (hs : k.samples = false) {s t : State} (h : Effect k s t) : s.Calm t := by
  have port : ∀ (s : State) p x, s.Calm (s.setPort p x) := fun s p x =>
    ⟨fun l => by cases p <;> cases l <;> rfl, fun ch => by rw [State.chan_setPort]; exact .refl _⟩
  cases h with
  | chan c x hx => exact .setChan s c (hx.calm hm hs)
  | line l r hx hk => simp [hm] at hk
  | clock => exact .of_eq rfl rfl rfl
  | ticked =>
    refine ⟨fun l => by cases l <;> rfl, fun ch => ?_⟩
    rw [State.tickLapses_chan]; unfold Channel.tickLapse; split
    · exact .refl _
    · exact .of_eq rfl rfl
  | period hk => simp [hm] at hk
  | notices p n c hx => exact port _ _ _
  | minuteWritten => exact .of_eq rfl rfl rfl
  | periodWritten => exact .of_eq rfl rfl rfl
  | evaluated c =>
    exact State.Calm.trans (t := s.holdQuiet c) (.on c _ rfl rfl rfl (.of_eq rfl rfl)) (.bringQuiet _ _ _)
  | eventOpened c r hx =>
    delta State.openEvent
    extract_lets
    exact .on c _ rfl rfl rfl (.of_eq rfl rfl)
  | eventClosed c cause =>
    unfold State.closeEvent
    dsimp only
    split
    · exact .refl s
    · exact .on c _ rfl rfl rfl (.of_eq rfl rfl)
  | slot => exact .of_eq rfl rfl rfl
  | calTaken c r =>
    unfold State.calTakeSlice
    split
    · exact .refl s
    · split
      · exact .of_eq rfl rfl rfl
      · exact .refl s
  | lapsed c =>
    unfold State.lapseResult
    split
    · exact State.Calm.trans (t := s.setChan c { s.chan c with pendingResult := none }) (.setChan s c (.of_eq rfl rfl)) ((State.Calm.concludeRecord _ c _).trans (.of_eq rfl rfl rfl))
    · exact .refl s
  | channelQueued c => exact .of_eq rfl rfl rfl
  | writeBegun => exact .of_eq rfl rfl rfl
  | writeEnded b =>
    unfold State.endStoreWrite
    split
    · exact .refl s
    · split <;> exact .of_eq rfl rfl rfl
  | pins => exact .of_eq rfl rfl rfl
  | runFaults _ hk => simp [hm] at hk
  | runStopped _ hk => simp [hm] at hk
  | runCompleted _ _ _ hk => simp [hm] at hk
  | runStarted _ _ _ _ _ hk => simp [hm] at hk
  | runAborted _ _ hk => simp [hm] at hk
  | triggersSet m t h hk => exact State.Calm.update s m fun _ => .of_eq rfl rfl
  | resetBegun hk _ => simp [hr] at hk
  | loaded _ _ hk => simp [hr] at hk
  | numbered hk => simp [hr] at hk
  | transaction _ _ _ hk => exact port _ _ _
  | readHistory _ _ hk => exact port _ _ _
  | readPeriods _ _ hk => exact port _ _ _
  | readEvents _ _ hk => exact port _ _ _
  | sought _ _ _ _ hk => exact port _ _ _
  | rewound p hk => exact port _ _ _
  | enabled _ _ _ hk => exact port _ _ _
  | requested p b hk => exact (port _ _ _).trans (.bringQuiet _ _ _)
  | proposed _ hk => exact .of_eq rfl rfl rfl
  | excludedSet m b hk => exact State.Calm.update s m fun _ => .of_eq rfl rfl
  | decided c o r fs _ _ hk =>
    exact State.Calm.trans (t := s.setChan c { s.chan c with pendingResult := none, pendingFs := fs }) (.setChan s c (.of_eq rfl rfl))
      ((State.Calm.concludeRecord _ c o).trans (.of_eq rfl rfl rfl))
  | entryChanged _ _ _ _ _ hk => exact .of_eq rfl rfl rfl
  | headerChanged _ _ _ hk => exact .of_eq rfl rfl rfl
  | protectionChanged _ _ _ hk => exact .of_eq rfl rfl rfl
  | commissioned _ _ hk => exact .of_eq rfl rfl rfl
  | reevaluated hk =>
    refine State.Calm.trans (t := s.holdAllQuiet) ⟨fun l => by cases l <;> rfl, fun ch => ?_⟩ (.bringQuiet _ _ _)
    cases ch <;> exact .of_eq rfl rfl

theorem Effects.calm (hm : k.moves = false) (hr : k.reset = false) (hs : k.samples = false) {s t : State} (h : Effects k s t) : s.Calm t :=
  Effects.keeps (P := s.Calm) (fun _ _ h e => e.trans (h.calm hm hr hs)) h (.refl s)

/-! ### The bounds -/

/-- A channel not OFF is FAULTED exactly while its line is LOST, its slice has at most 6000 frames, and fewer than 4096 crystal periods unless the end
of that slice is `due`. -/
structure Channel.Timed (c : Channel) (line : LineRx) (due : Prop) : Prop where
  faulted : c.state ≠ .off → (c.state = .faulted ↔ line.present = false)
  frames : c.engine.slice.frames ≤ 6000
  crystal : c.engine.slice.crystal < 4096 ∨ due ∧ c.engine.slice.crystal = 4096 ∧ c.state ≠ .off ∧ line.present = false

def State.TimedBut (s : State) (due : Ch → Prop) : Prop := ∀ ch, (s.chan ch).Timed (s.rx ch.line) (due ch)

/-- No slice of them is due to end on crystal timing. -/
def State.Timed (s : State) : Prop := s.TimedBut fun _ => False

variable {due : Ch → Prop}

/-- These are two of the bounds of `State.CountersOk`. -/
theorem State.timed_iff (s : State) : s.Timed ↔
    (∀ ch, (s.chan ch).state ≠ .off → ((s.chan ch).state = .faulted ↔ (s.rx ch.line).present = false)) ∧ ∀ ch, (s.chan ch).engine.slice.Ok :=
  ⟨fun h => ⟨fun ch => (h ch).faulted, fun ch => ⟨(h ch).frames, (h ch).crystal.resolve_right fun h => h.1⟩⟩,
    fun h ch => ⟨h.1 ch, (h.2 ch).frames, .inl (h.2 ch).crystal⟩⟩

theorem State.TimedBut.mono {s : State} {d : Ch → Prop} (h : s.TimedBut due) (hd : ∀ ch, due ch → d ch) : s.TimedBut d :=
  fun ch => ⟨(h ch).faulted, (h ch).frames, (h ch).crystal.imp_right fun e => ⟨hd ch e.1, e.2⟩⟩

theorem State.TimedBut.lossTreated {s : State} (h : s.TimedBut due) : s.LossTreated := by
  intro ch hl
  by_cases ho : (s.chan ch).state = .off
  · exact .inl ho
  · exact .inr (((h ch).faulted ho).2 hl)

theorem State.Calm.timed {s t : State} (h : s.Calm t) (hs : s.TimedBut due) : t.TimedBut due := by
  intro ch
  have hc := h.chans ch
  rw [h.lines]
  refine ⟨fun ho => ?_, hc.slice.1.trans (hs ch).frames, ?_⟩
  · rw [hc.state] at ho ⊢; exact (hs ch).faulted ho
  · rw [hc.state]
    rcases (hs ch).crystal with e | e
    · exact .inl (hc.slice.2.trans_lt e)
    · have := hc.slice.2
      by_cases e' : (t.chan ch).engine.slice.crystal < 4096
      · exact .inl e'
      · exact .inr ⟨e.1, by omega, e.2.2⟩

theorem State.SlicesOn.timed {s t : State} (h : s.SlicesOn t) (hs : s.TimedBut due) : t.TimedBut due := by
  intro ch
  have hc := h.chans ch
  have off : (t.chan ch).state ≠ .off → (s.chan ch).state ≠ .off := fun ht e => ht (hc.off e)
  rw [h.lines]
  refine ⟨fun ho => (hc.faulted ho).trans ((hs ch).faulted (off ho)), ?_, ?_⟩
  · rcases hc.slice with ⟨e, -⟩ | ⟨e, -⟩
    · exact e.le.trans (hs ch).frames
    · omega
  · rcases (hs ch).crystal with e | e
    · rcases hc.slice with ⟨-, e'⟩ | ⟨-, e'⟩
      · exact .inl (e'.le.trans_lt e)
      · exact .inl (by omega)
    · by_cases ho : (t.chan ch).state = .off
      · exact .inl (by have := hc.ends e.2.2.1 ho; omega)
      · rcases hc.slice with ⟨-, e'⟩ | ⟨-, e'⟩
        · exact .inr ⟨e.1, e'.trans e.2.1, ho, e.2.2.2⟩
        · exact .inl (by omega)

theorem Channel.Timed.empty {c : Channel} {r : LineRx} {d : Prop} (hf : c.state ≠ .off → (c.state = .faulted ↔ r.present = false))
    (hs : c.engine.slice = .empty) : c.Timed r d :=
  ⟨hf, by rw [hs]; exact Nat.zero_le _, .inl (by rw [hs]; exact Nat.succ_pos _)⟩

theorem State.TimedBut.setChan {s : State} (h : s.TimedBut due) (ch : Ch) {c : Channel} (hc : c.Timed (s.rx ch.line) (due ch)) :
    (s.setChan ch c).TimedBut due := by
  intro d
  have hr : (s.setChan ch c).rx d.line = s.rx d.line := by cases d <;> rfl
  rw [hr, State.chan_setChan]
  split
  · next e => subst e; exact hc
  · exact h d

theorem State.TimedBut.foldl {α : Type} (work : State → α → State) (h : ∀ (s : State) (a : α), s.TimedBut due → (work s a).TimedBut due) :
    ∀ (l : List α) (s : State), s.TimedBut due → (l.foldl work s).TimedBut due
  | [], _, hs => hs
  | a :: l, s, hs => State.TimedBut.foldl work h l (work s a) (h s a hs)

theorem State.TimedBut.inAnyOrder {α : Type} (work : State → α → State) (h : ∀ (s : State) (a : α), s.TimedBut due → (work s a).TimedBut due)
    {s : State} (hs : s.TimedBut due) (l : List α) : (s.inAnyOrder l work).TimedBut due :=
  State.TimedBut.foldl work h _ _ ((State.SlicesOn.arrange s l).timed hs)

/-! ### Lines, and what is due -/

theorem State.TimedBut.lineRestored {s : State} (hs : s.TimedBut due) (l : Line) : (s.lineRestored l).TimedBut due := by
  cases hd : (s.running && (s.rx l).restoreDue) with
  | false => rw [s.lineRestored_not_due l hd]; exact hs
  | true =>
    rw [Bool.and_eq_true] at hd
    obtain ⟨-, -, -, hl, hch⟩ := s.lineRestored_does l hd.1 hd.2
    have hlost : (s.rx l).present = false := by
      have := hd.2; unfold LineRx.restoreDue at this; simp_all
    intro ch
    rw [hl]
    by_cases e : ch.line = l
    · subst e
      rw [if_pos rfl]
      have hc := (hch ch).1 rfl
      rcases hs.lossTreated ch hlost with e | e
      · rw [hc.kept (by rw [e]; nofun)]
        exact ⟨fun h => absurd e h, (hs ch).frames, .inl ((hs ch).crystal.resolve_right fun h => h.2.2.1 e)⟩
      · have := hc.settles e
        exact .empty (fun _ => ⟨fun h => (nomatch this.1.symm.trans h), fun h => Bool.noConfusion h⟩) this.2
    · rw [if_neg e, (hch ch).2 e]; exact hs ch

theorem State.TimedBut.takeDue {s : State} (hs : s.TimedBut due) (x : DueStep) : (s.takeDue x).TimedBut due := by
  cases x with
  | slice ch => exact (State.SlicesOn.frameSliceEnd s ch).timed hs
  | restored l => exact hs.lineRestored l
  | lapse ch => exact (State.SlicesOn.lapseResult s ch).timed hs
  | boundary => exact (State.SlicesOn.emitBoundary s).timed hs

theorem State.TimedBut.settle {s : State} (hs : s.TimedBut due) : s.settle.TimedBut due := by
  have h := State.TimedBut.inAnyOrder State.takeDue (fun _ x h => h.takeDue x) (s.endBlocks_slicesOn.timed hs) s.endBlocks.dueSteps
  intro ch
  have hr : ∀ (t : State) l, t.beginStoreWrite.rx l = t.rx l := by intro t l; cases l <;> rfl
  show (State.chan _ ch).Timed (State.rx (State.beginStoreWrite _) _) _
  rw [hr]; exact h ch

/-- R3, R6: what the loss of its line leaves of a channel. -/
structure Channel.Lost (a b : Channel) : Prop where
  kept : a.state = .off ∨ a.state = .faulted → b = a
  faults : a.state ≠ .off → a.state ≠ .faulted → b.state = .faulted ∧ b.engine.slice = .empty

theorem State.loseChannel_chan (s : State) (ch : Ch) : (s.chan ch).Lost ((s.loseChannel ch).chan ch) := by
  unfold State.loseChannel
  split
  · next h => exact ⟨fun _ => rfl, fun h' => absurd h h'⟩
  · next h => exact ⟨fun _ => rfl, fun _ h' => absurd h h'⟩
  · next h1 h2 =>
    refine ⟨fun h => (h.elim h1 h2).elim, fun _ _ => ?_⟩
    dsimp only [State.notifyChannel, State.enter]
    rw [State.chan_notifyBoth, State.chan_setChan_self]
    refine ⟨rfl, ?_⟩
    show (((s.cutSlice ch).endRun ch .fault).chan ch).engine.slice = _
    have : (((s.cutSlice ch).endRun ch .fault).chan ch).engine = ((s.cutSlice ch).chan ch).engine := by
      unfold State.endRun State.concludeRecord State.notifyCal
      split
      · dsimp only; rw [State.chan_notifyBoth, State.chan_setChan_self]; rfl
      · rfl
    rw [this]; exact (State.SlicesOn.cutSlice s ch).2

theorem State.endRun_ne (s : State) {ch d : Ch} (hd : d ≠ ch) (o : CalOutcome) : (s.endRun ch o).chan d = s.chan d := by
  unfold State.endRun State.concludeRecord State.notifyCal
  split
  · dsimp only; rw [State.chan_notifyBoth, State.chan_setChan_ne _ hd]; rfl
  · rfl

theorem State.loseChannel_ne (s : State) (ch d : Ch) (hd : d ≠ ch) : (s.loseChannel ch).chan d = s.chan d := by
  unfold State.loseChannel
  split
  · rfl
  · rfl
  · dsimp only [State.notifyChannel, State.enter]
    rw [State.chan_notifyBoth, State.chan_setChan_ne _ hd, State.endRun_ne _ hd]
    exact (State.chan_closeWaiting_ne _ hd).trans (s.handOn_ne hd _)

theorem State.TimedBut.lineLost {s : State} (hs : s.TimedBut due) (l : Line) : (s.lineLost l).TimedBut due := by
  have hrx : ∀ k, (s.setRx l ⟨false, 0, 66⟩).rx k = if k = l then ⟨false, 0, 66⟩ else s.rx k := fun k => State.rx_setRx s l k _
  unfold State.lineLost
  split
  · split
    · next hp =>
      intro ch
      have hc := State.inAnyOrder_chan State.loseChannel Channel.Lost State.loseChannel_ne State.loseChannel_chan l.channels (s.setRx l ⟨false, 0, 66⟩) ch
        (lineChannels_nodup l)
      have hf : (s.setRx l ⟨false, 0, 66⟩).SameFrame _ := .inAnyOrder _ State.SameFrame.loseChannel _ l.channels
      rw [mem_lineChannels, State.chan_setRx] at hc
      rw [hf.rx, hrx]
      by_cases e : ch.line = l
      · subst e
        rw [if_pos rfl]
        have hc := hc.1 rfl
        by_cases ho : (s.chan ch).state = .off
        · rw [hc.kept (.inl ho)]
          exact ⟨fun h => absurd ho h, (hs ch).frames, .inl ((hs ch).crystal.resolve_right fun h => h.2.2.1 ho)⟩
        · have hn : (s.chan ch).state ≠ .faulted := fun h => absurd hp (by rw [((hs ch).faulted ho).1 h]; exact Bool.false_ne_true)
          have := hc.faults ho hn
          exact .empty (fun _ => ⟨fun _ => rfl, fun _ => this.1⟩) this.2
      · rw [if_neg e, hc.2 e]; exact hs ch
    · next hp =>
      intro ch
      rw [State.chan_setRx, hrx]
      by_cases e : ch.line = l
      · subst e
        have hp : (s.rx ch.line).present = false := by simpa using hp
        rw [if_pos rfl]
        exact ⟨fun ho => ((hs ch).faulted ho).trans ⟨fun _ => rfl, fun _ => hp⟩, (hs ch).frames,
          (hs ch).crystal.imp_right fun h => ⟨h.1, h.2.1, h.2.2.1, rfl⟩⟩
      · rw [if_neg e]; exact hs ch
  · exact hs

/-- R1, R11: a frame is taken where no slice is due to end. -/
theorem State.Timed.takeFrame {s : State} (hs : s.Timed) (hd : ∀ ch, s.sliceDue ch = false) (hr : s.running = true) (l : Line) (a b : Sample) :
    (s.takeFrame l a b).Timed := by
  have use : ∀ (t : State) ch x, t.Timed → (t.chan ch).engine.slice.frames < 6000 ∨ (t.chan ch).state = .off → (t.useFrame ch x).Timed := by
    intro t ch x ht hf
    unfold State.useFrame
    split
    · exact ht
    · next ho =>
      have hf := hf.resolve_right ho
      exact State.TimedBut.setChan ht ch ⟨(ht ch).faulted, hf, (ht ch).crystal⟩
  have line : ∀ r : LineRx, r.present = (s.rx l).present → (s.setRx l r).Timed := by
    intro r h ch
    have h' := hs ch
    rw [State.chan_setRx, State.rx_setRx]
    split
    · next e => subst e; exact ⟨fun ho => h ▸ h'.faulted ho, h'.frames, h'.crystal.imp_right fun x => x.1.elim⟩
    · exact h'
  unfold State.takeFrame
  dsimp only
  split
  · next hp =>
    let u := s.setRx l { s.rx l with pause := 0 }
    have hu : u.Timed := line _ rfl
    have short : ∀ c : Ch, c.line = l → (u.chan c).engine.slice.frames < 6000 ∨ (u.chan c).state = .off := by
      intro c e
      have h' : (u.chan c) = s.chan c := by rw [State.chan_setRx]
      have := hd c
      rw [← Bool.not_eq_true, State.sliceDue_iff] at this
      rw [h']
      by_cases ho : (s.chan c).state = .off
      · exact .inr ho
      · exact .inl (by by_contra h; exact this ⟨hr, ho, e ▸ hp, by omega⟩)
    have two : ∀ c d : Ch, d ≠ c → c.line = l → d.line = l → ((u.useFrame c a).useFrame d b).Timed := fun c d n hc hd =>
      use _ d b (use u c a hu (short c hc)) (by rw [State.useFrame_ne u n]; exact short d hd)
    cases l
    · exact two .ch0 .ch1 (by decide) rfl rfl
    · exact two .ch2 .ch3 (by decide) rfl rfl
  · exact line _ rfl

/-! ### A crystal period -/

theorem State.TimedBut.secondElapsed {s : State} (hs : s.TimedBut due) : s.secondElapsed.TimedBut due :=
  (Effects.calm (k := ⟨none, false, false, false⟩) rfl rfl rfl (effects_secondElapsed s)).timed hs

theorem State.TimedBut.elapse {s : State} (hs : s.TimedBut due) (n : Nat) : (s.elapse n).TimedBut due :=
  (Effects.calm (k := ⟨none, false, false, false⟩) rfl rfl rfl (effects_elapse s n)).timed hs

/-- R11: the end of a crystal-timed slice that is due begins a new one. -/
theorem State.TimedBut.crystalSliceEnd {s : State} (hr : s.running = true) (hs : s.TimedBut due) (ch : Ch) :
    (s.crystalSliceEnd ch).TimedBut fun d => due d ∧ d ≠ ch := by
  have h := (State.SlicesOn.crystalSliceEnd s ch).timed hs
  intro d
  refine ⟨(h d).faulted, (h d).frames, ?_⟩
  by_cases e : d = ch
  · subst e
    left
    unfold State.crystalSliceEnd
    by_cases hd : (s.running && (s.chan d).state != .off && !s.linePresent d) = true
    · rw [if_pos hd, (State.SlicesOn.endSlice s d).2]; exact Nat.succ_pos _
    · rw [if_neg hd]
      refine (hs d).crystal.resolve_right fun x => hd ?_
      simp [hr, x.2.2.1, State.linePresent, x.2.2.2]
  · exact (h d).crystal.imp_right fun x => ⟨⟨x.1, e⟩, x.2⟩

theorem State.TimedBut.takeCrystal {s : State} (hr : s.running = true) (x : CrystalStep) (hs : s.TimedBut due) :
    (s.takeCrystal x).running = true ∧ (s.takeCrystal x).TimedBut fun d => due d ∧ .slice d ≠ x := by
  have run : ∀ (t : State), t.running = true → t.settle.running = true := fun t h => by rw [State.settle_running, h]
  cases x with
  | second =>
    have : s.secondElapsed.running = s.running := by unfold State.secondElapsed State.elapse; dsimp only; split <;> rfl
    exact ⟨run _ (this.trans hr), hs.secondElapsed.settle.mono fun ch h => ⟨h, nofun⟩⟩
  | elapsed =>
    have : (s.elapse 0).running = s.running := by unfold State.elapse; dsimp only; split <;> rfl
    exact ⟨run _ (this.trans hr), (hs.elapse 0).settle.mono fun ch h => ⟨h, nofun⟩⟩
  | pause l =>
    have : (s.lineLost l).running = s.running := by
      have hl : (s.setRx l ⟨false, 0, 66⟩).running = s.running := by cases l <;> rfl
      unfold State.lineLost
      rw [if_pos hr]
      split
      · exact (State.SameFrame.inAnyOrder _ State.SameFrame.loseChannel _ _).running.trans hl
      · exact hl
    exact ⟨run _ (this.trans hr), (hs.lineLost l).settle.mono fun ch h => ⟨h, nofun⟩⟩
  | slice ch =>
    refine ⟨run _ ((State.SlicesOn.crystalSliceEnd s ch).running.trans hr), ((hs.crystalSliceEnd hr ch).settle.mono fun d h => ⟨h.1, fun e => h.2 ?_⟩)⟩
    injection e

theorem State.foldl_takeCrystal_timed : ∀ (l : List CrystalStep) (s : State), s.running = true → s.TimedBut (fun ch => .slice ch ∈ l) →
    (l.foldl State.takeCrystal s).Timed
  | [], _, _, hs => hs.mono fun _ h => absurd h (by simp)
  | x :: l, s, hr, hs => by
    have h := State.TimedBut.takeCrystal hr x hs
    exact State.foldl_takeCrystal_timed l (s.takeCrystal x) h.1 (h.2.mono fun ch e => (List.mem_cons.1 e.1).resolve_left e.2)

theorem State.countPeriod_running (s : State) : s.countPeriod.running = s.running := by
  unfold State.countPeriod; dsimp only; split <;> rfl

/-- R1, R11: a channel and its line after a crystal period. -/
theorem State.countPeriod_does (s : State) (ch : Ch) :
    s.countPeriod.chan ch = (if s.running then s.crystalChannel ch else s.chan ch) ∧
    s.countPeriod.rx ch.line = if s.running then (s.rx ch.line).period else s.rx ch.line := by
  have e : s.countPeriod = if s.running then
      { s with
        clock := { s.clock with prescaler := s.clock.prescaler + 1, elapsed := s.clock.elapsed + 1 }
        line0 := s.line0.period, line1 := s.line1.period
        channels := ⟨s.crystalChannel .ch0, s.crystalChannel .ch1, s.crystalChannel .ch2, s.crystalChannel .ch3⟩ }
      else { s with clock := { s.clock with prescaler := s.clock.prescaler + 1, elapsed := s.clock.elapsed + 1 } } := rfl
  rw [e]
  split
  · cases ch <;> exact ⟨rfl, rfl⟩
  · exact ⟨rfl, by cases ch <;> rfl⟩

/-- R11: a crystal period leaves the slices whose 4096th it was due to end, and no others. -/
theorem State.Timed.countPeriod {s : State} (hs : s.Timed) :
    s.countPeriod.TimedBut fun ch => CrystalStep.slice ch ∈ CrystalStep.list.filter (State.crystalDue s s.countPeriod) := by
  intro ch
  have h := hs ch
  have hc := h.crystal.resolve_right fun x => x.1
  have hx := s.countPeriod_does ch
  cases hr : s.running with
  | false =>
    rw [hr] at hx
    rw [hx.1, hx.2]; exact ⟨h.faulted, h.frames, .inl hc⟩
  | true =>
    rw [hr, if_pos rfl, if_pos rfl] at hx
    have hm : ∀ d, CrystalStep.slice d ∈ CrystalStep.list := by intro d; cases d <;> decide
    by_cases hl : (s.chan ch).state ≠ .off ∧ (s.rx ch.line).present = false
    · have e : s.countPeriod.chan ch = { s.chan ch with engine := { (s.chan ch).engine with slice :=
          { (s.chan ch).engine.slice with crystal := (s.chan ch).engine.slice.crystal + 1 } } } := by
        rw [hx.1]; unfold State.crystalChannel; dsimp only; rw [if_pos (by simp [hl, State.linePresent])]
      have h1 : (s.countPeriod.chan ch).engine.slice.crystal = (s.chan ch).engine.slice.crystal + 1 := by rw [e]
      have h2 : (s.countPeriod.chan ch).state = (s.chan ch).state := by rw [e]
      have h3 : (s.countPeriod.chan ch).engine.slice.frames = (s.chan ch).engine.slice.frames := by rw [e]
      have h4 : (s.countPeriod.rx ch.line).present = false := by rw [hx.2]; exact hl.2
      refine ⟨fun _ => ?_, h3.trans_le h.frames, ?_⟩
      · rw [h2, h4]; exact (h.faulted hl.1).trans ⟨fun _ => rfl, fun _ => hl.2⟩
      · by_cases hn : (s.countPeriod.chan ch).engine.slice.crystal < 4096
        · exact .inl hn
        · refine .inr ⟨List.mem_filter.2 ⟨hm ch, ?_⟩, by omega, h2.symm ▸ hl.1, h4⟩
          simp [State.crystalDue, s.countPeriod_running, hr, State.linePresent, h4, h2, hl.1]; omega
    · have e : s.countPeriod.chan ch = s.chan ch := by
        rw [hx.1]; unfold State.crystalChannel; dsimp only; rw [if_neg (by simpa [State.linePresent] using hl)]
      rw [e, hx.2]
      exact ⟨h.faulted, h.frames, .inl hc⟩

theorem State.Timed.crystalPeriod {s : State} (hs : s.Timed) : s.crystalPeriod.Timed := by
  have hu : s.settle.Timed := State.TimedBut.settle hs
  have ht := hu.countPeriod
  delta State.crystalPeriod
  dsimp only
  generalize hw : s.settle.countPeriod = t at ht ⊢
  generalize CrystalStep.list.filter (State.crystalDue s.settle t) = l at ht ⊢
  have hp := State.arrange_perm t l
  have ha := State.SlicesOn.arrange t l
  by_cases hr : t.running = true
  · exact State.foldl_takeCrystal_timed _ _ (ha.running.trans hr) ((ha.timed ht).mono fun ch h => hp.1.mem_iff.2 h)
  · have hn : t.Timed := by
      have : s.settle.running = false := by rw [← s.settle.countPeriod_running, hw]; simpa using hr
      intro ch
      have h := s.settle.countPeriod_does ch
      rw [this, hw] at h
      rw [h.1, h.2]; exact hu ch
    refine (State.TimedBut.inAnyOrder State.takeCrystal (fun v x hv => ?_) hn l : State.TimedBut _ (fun _ => False))
    cases x with
    | second => exact hv.secondElapsed.settle
    | elapsed => exact (hv.elapse 0).settle
    | pause l => exact (hv.lineLost l).settle
    | slice ch => exact ((State.SlicesOn.crystalSliceEnd v ch).timed hv).settle

/-! ### Starting, stopping, calibrating -/

/-- What a port's command does where it moves no state, no line and no crystal period. -/
def Origin.calm (p : Port) : Origin := ⟨some p, false, false, false⟩

theorem Effects.timed {p : Port} {s t : State} (h : Effects (.calm p) s t) (hs : s.Timed) : t.Timed := (h.calm rfl rfl rfl).timed hs

theorem State.TimedBut.startChannel {s : State} (hs : s.TimedBut due) (ch : Ch) : (s.startChannel ch).TimedBut due := by
  unfold State.startChannel
  split
  · dsimp only
    split
    · next hl =>
      have hp : (s.rx ch.line).present = true := hl
      exact hs.setChan ch (.empty (fun _ => ⟨nofun, fun h => absurd (h.symm.trans hp) Bool.false_ne_true⟩) rfl)
    · next hl =>
      exact State.Calm.timed (.of_eq rfl rfl rfl)
        (hs.setChan ch (.empty (fun _ => ⟨fun _ => Bool.eq_false_iff.2 hl, fun _ => rfl⟩) rfl))
  · exact hs

theorem State.TimedBut.startChannels {s : State} (hs : s.TimedBut due) (m : ChannelMask) : (s.startChannels m).TimedBut due :=
  .inAnyOrder _ (fun _ ch h => h.startChannel ch) hs _

theorem State.TimedBut.stopChannel {s : State} (hs : s.TimedBut due) (ch : Ch) : (s.stopChannel ch).TimedBut due := by
  unfold State.stopChannel
  split
  · exact hs
  · have h1 : (s.closeEvent ch .stopped).TimedBut due :=
      (Effect.calm (k := ⟨none, false, false, false⟩) rfl rfl rfl (.eventClosed s ch .stopped)).timed hs
    have h2 : ((s.closeEvent ch .stopped).switchOff ch).TimedBut due :=
      ((State.Calm.endRun _ ch .aborted).timed h1).setChan ch (.empty (fun h => absurd rfl h) rfl)
    exact (State.SlicesOn.closeWaiting _ ch).timed (State.Calm.timed (.of_eq rfl rfl rfl) h2)

theorem State.TimedBut.stopChannels {s : State} (hs : s.TimedBut due) (m : ChannelMask) : (s.stopChannels m).TimedBut due :=
  .inAnyOrder _ (fun _ ch h => h.stopChannel ch) hs _

theorem State.Calm.supersede (s : State) (ch : Ch) : s.Calm (s.supersede ch) := by
  unfold State.supersede
  split
  · exact .refl s
  · exact .on ch _ rfl rfl rfl (.of_eq rfl rfl)

theorem State.TimedBut.startRun {s : State} (hs : s.TimedBut due) (ch : Ch) (l : Level) (hb : s.calibrateBarred ch = false) : (s.startRun ch l).TimedBut due := by
  delta State.startRun
  extract_lets n s1 s2 c
  have hc : s.Calm s2 := (State.Calm.supersede s ch).trans (.of_eq rfl rfl rfl)
  have h2 : s2.TimedBut due := hc.timed hs
  have hst : (s2.chan ch).state = (s.chan ch).state := (hc.chans ch).state
  have bar : (s.chan ch).state ≠ .faulted ∧ ((s.chan ch).state = .off → (s.rx ch.line).present = true) := by
    unfold State.calibrateBarred at hb
    constructor
    · intro e; rw [e] at hb; exact Bool.noConfusion hb
    · intro e; rw [e] at hb; simpa [State.linePresent] using (Bool.or_eq_false_iff.1 hb).1
  refine h2.setChan ch ?_
  show Channel.Timed { (s2.chan ch).enterCalibration with calRecord := _ } _ _
  unfold Channel.enterCalibration
  split
  · next e =>
    have hp : (s2.rx ch.line).present = true := by rw [hc.lines]; exact bar.2 (hst.symm.trans e)
    exact .empty (fun _ => ⟨nofun, fun h => absurd hp (by rw [h]; exact Bool.false_ne_true)⟩) rfl
  · next e =>
    have hn : ¬ (s2.rx ch.line).present = false := fun h => bar.1 (hst.symm.trans (((h2 ch).faulted e).2 h))
    exact ⟨fun _ => ⟨nofun, fun h => absurd h hn⟩, (h2 ch).frames, (h2 ch).crystal.imp_right fun h => absurd h.2.2.2 hn⟩

theorem State.TimedBut.abortRun {s : State} (hs : s.TimedBut due) (ch : Ch) : (s.abortRun ch).TimedBut due := by
  have h := (State.Calm.endRun s ch .aborted).timed hs
  refine State.TimedBut.setChan h ch ?_
  unfold Channel.recover
  split
  · next e =>
    have ho : ((s.endRun ch .aborted).chan ch).state ≠ .off := by rw [e]; nofun
    have hf := (h ch).faulted ho
    rw [e] at hf
    exact ⟨fun _ => ⟨nofun, fun h => nomatch hf.2 h⟩, (h ch).frames, (h ch).crystal.imp_right fun x => ⟨x.1, x.2.1, nofun, x.2.2.2⟩⟩
  all_goals exact h ch

/-! ### Resets -/

theorem State.beginReset_timed (s : State) : s.beginReset.TimedBut due := by
  intro ch
  cases ch <;> exact .empty (fun h => absurd rfl h) rfl

theorem State.Calm.foldl {α : Type} (work : State → α → State) (h : ∀ (s : State) (a : α), s.Calm (work s a)) : ∀ (l : List α) (s : State), s.Calm (l.foldl work s)
  | [], s => .refl s
  | a :: l, s => (h s a).trans (State.Calm.foldl work h l (work s a))

theorem Channel.Calm.load (c : Channel) (x : Option ChannelItem) : c.Calm (c.load x) := by
  unfold Channel.load; split <;> exact .of_eq rfl rfl

theorem State.Calm.resumeSerial (s : State) : s.Calm s.resumeSerial := .of_eq rfl rfl rfl

theorem State.Calm.loadStore (s : State) : s.Calm s.loadStore := by
  have h1 : s.Calm s.loadCopies := ⟨fun l => by cases l <;> rfl, fun ch => by cases ch <;> exact .load _ _⟩
  have h2 : s.loadCopies.Calm s.loadCopies.notifyIncomplete := .foldl (fun s item => s.notifyBoth .store ⟨.ch0, 2, value32 item⟩) (fun _ _ => .of_eq rfl rfl rfl) _ _
  refine (h1.trans h2).trans (.trans (.foldl _ (fun t i => ?_) entryIndices _) (.resumeSerial _))
  unfold State.dropOverlapping
  split
  · exact .of_eq rfl rfl rfl
  · exact .refl t

theorem State.Calm.numberMinutes (s : State) : s.Calm s.numberMinutes :=
  ⟨fun l => by cases l <;> rfl, fun ch => by cases ch <;> exact .of_eq rfl rfl⟩

theorem State.Calm.loseClock (s : State) (b : Bool) : s.Calm (s.loseClock b) := by
  unfold State.loseClock; split
  · exact .of_eq rfl rfl rfl
  · exact .refl s

theorem State.Calm.notifyClockLoss (s : State) (b : Bool) : s.Calm (s.notifyClockLoss b) := by
  unfold State.notifyClockLoss; split
  · exact .of_eq rfl rfl rfl
  · exact .refl s

theorem State.completeReset_timed (s : State) (c : ResetCause) (b : Bool) : (s.completeReset c b).Timed := by
  delta State.completeReset
  extract_lets s1 s2 s3
  have h1 : s1.Timed := State.Calm.timed (.of_eq rfl rfl rfl) s.beginReset_timed
  have h2 : s2.Timed :=
    State.Calm.timed ((State.Calm.notifyClockLoss s1 b).trans ((State.Calm.loadStore _).trans (.numberMinutes _))) h1
  have h3 : s3.Timed := by
    clear_value s2
    exact State.Calm.timed (.of_eq rfl rfl rfl : s2.Calm { s2 with resetCause := c, clockLossFound := false }) h2
  exact State.TimedBut.startChannels h3 _

theorem State.Timed.resetLow {s : State} (hs : s.Timed) : s.resetLow.Timed := by
  unfold State.resetLow
  split
  · exact hs
  · split
    · exact State.Calm.timed (.of_eq rfl rfl rfl) s.beginReset_timed
    · exact State.Calm.timed (.of_eq rfl rfl rfl) hs

theorem State.Timed.resetRelease {s : State} (hs : s.Timed) : s.resetRelease.Timed := by
  unfold State.resetRelease
  split
  · exact hs
  · split
    · exact State.completeReset_timed _ _ _
    · exact State.Calm.timed (.of_eq rfl rfl rfl) hs

theorem State.powerUp_timed (s : State) (b : Bool) : (s.powerUp b).Timed := by
  delta State.powerUp
  extract_lets _ s1
  have h1 : s.beginReset.Calm s1 := State.Calm.trans (t := { s.beginReset with supply := true }) (.of_eq rfl rfl rfl) (.loseClock _ b)
  split
  · exact State.completeReset_timed _ _ _
  · exact (h1.trans (.of_eq rfl rfl rfl)).timed s.beginReset_timed

theorem State.powerDown_timed (s : State) : s.powerDown.Timed := State.Calm.timed (.of_eq rfl rfl rfl) s.beginReset_timed

/-! ### Transactions -/

theorem State.Calm.setPort (s : State) (p : Port) (x : PortState) : s.Calm (s.setPort p x) :=
  ⟨fun l => by cases p <;> cases l <;> rfl, fun ch => by rw [State.chan_setPort]; exact .refl _⟩

theorem State.Timed.transact {s : State} (hs : s.Timed) (p : Port) (piece : Piece) (code : Byte) (judge : List Byte → List Byte → Bool → State → Judgement)
    (hj : ∀ before after rises (s : State), s.Timed → (judge before after rises s).state.Timed) : (s.transact p piece code judge).Timed := by
  have hq : s.settle.Timed := State.TimedBut.settle hs
  delta State.transact
  dsimp only
  split
  · split
    · exact hq
    · exact (State.Calm.setPort _ _ _).timed hq
    · split
      · exact (State.Calm.setPort _ _ _).timed (hj _ _ _ _ hq)
      · exact hq
  · exact (State.Calm.setPort _ _ _).timed hs

theorem State.Timed.portWrite {s : State} (hs : s.Timed) (p : Port) (code : Byte) (n : Nat) (role : Role) (piece : Piece)
    (owner : List Byte → State → Except Result State)
    (ho : ∀ ps (s t : State), role.allows p = true → owner ps s = .ok t → s.Timed → t.Timed) : (portWrite p code n role piece owner s).Timed := by
  refine hs.transact p piece code _ fun before after rises s hs => ?_
  unfold judgeWrite
  split
  · dsimp only
    split
    · exact hs
    · unfold judgeOwner
      split
      · exact hs
      · next hr =>
        split
        · next t h => exact ho _ _ t (by simpa using hr) h hs
        · exact hs
  · exact hs

theorem State.Timed.portRead {s : State} (hs : s.Timed) (p : Port) (code : Byte) (n : Nat) (piece : Piece)
    (owner : List Byte → State → Except Result (State × List Byte)) (ho : ∀ ps (s t : State) d, owner ps s = .ok (t, d) → s.Timed → t.Timed) :
    (portRead p code n piece owner s).Timed := by
  refine hs.transact p piece code _ fun before after rises s hs => ?_
  unfold judgeRead
  split
  · unfold judgeSnapshot
    split
    · next t d h => exact ho _ _ t d h hs
    · exact hs
  · split <;> exact hs

/-- A write, and a read, whose owner moves no state, no line and no crystal period. -/
theorem State.Timed.calmWrite {s : State} (hs : s.Timed) (p : Port) (code : Byte) (n : Nat) (role : Role) (piece : Piece)
    (owner : List Byte → State → Except Result State)
    (ho : ∀ ps (s t : State), role.allows p = true → owner ps s = .ok t → Effects (.calm p) s t) : (Sys2Proof.Machine.portWrite p code n role piece owner s).Timed :=
  hs.portWrite p code n role piece owner fun ps s t hr h => (ho ps s t hr h).timed

theorem State.Timed.calmRead {s : State} (hs : s.Timed) (p : Port) (code : Byte) (n : Nat) (piece : Piece)
    (owner : List Byte → State → Except Result (State × List Byte)) (ho : ∀ ps (s t : State) d, owner ps s = .ok (t, d) → Effects (.calm p) s t) :
    (Sys2Proof.Machine.portRead p code n piece owner s).Timed :=
  hs.portRead p code n piece owner fun ps s t d h => (ho ps s t d h).timed

theorem startOwner_timed {r : Prop} (ps : List Byte) (s t : State) (_ : r) (h : startOwner ps s = .ok t) (hs : s.Timed) : t.Timed := by
  obtain ⟨-, h⟩ := check_ok h
  injection h with h; subst h; exact hs.startChannels _

theorem stopOwner_timed {r : Prop} (ps : List Byte) (s t : State) (_ : r) (h : stopOwner ps s = .ok t) (hs : s.Timed) : t.Timed := by
  injection h with h; subst h; exact hs.stopChannels _

theorem calibrateOwner_timed {r : Prop} (ps : List Byte) (s t : State) (_ : r) (h : calibrateOwner ps s = .ok t) (hs : s.Timed) : t.Timed := by
  unfold calibrateOwner at h
  split at h
  · cases h
  · obtain ⟨-, h⟩ := check_ok h
    obtain ⟨hb, h⟩ := check_ok h
    obtain ⟨-, h⟩ := check_ok h
    obtain ⟨-, h⟩ := check_ok h
    injection h with h; subst h; exact hs.startRun _ _ hb

theorem abortOwner_timed {r : Prop} (ps : List Byte) (s t : State) (_ : r) (h : abortOwner ps s = .ok t) (hs : s.Timed) : t.Timed := by
  unfold abortOwner at h
  split at h
  · cases h
  · obtain ⟨-, h⟩ := check_ok h
    injection h with h; subst h; exact hs.abortRun _

/-! ### Every command and event, every step -/

theorem State.Timed.frameSliceEndAt {s : State} (hs : s.Timed) (ch : Ch) (wx : Bool) : (s.frameSliceEndAt ch wx).Timed := by
  unfold State.frameSliceEndAt
  split
  · exact (State.SlicesOn.frameSliceEnd _ ch).timed (State.Calm.timed (.of_eq rfl rfl rfl) hs)
  · exact hs

theorem State.Timed.sliceEndFor {s : State} (hs : s.Timed) (ch : Ch) (wx b : Bool) : (s.sliceEndFor ch wx b).Timed := by
  unfold State.sliceEndFor
  split
  · exact hs.frameSliceEndAt ch wx
  · exact hs

theorem exec_timed (i : Instr) (s t : State) (h : exec i s = .next t) (hs : s.Timed) : t.Timed := by
  revert hs; cases i <;> injection h with h <;> subst h <;> intro hs
  case nop p x => exact hs.transact p x 0x00 _ (fun _ _ _ _ h => h)
  case unknownCommandCode p c x => exact hs.transact p x c _ (fun b a r u h => ((effects_judgeUnknown b a r u : Effects (.calm p) _ _).timed h))
  case readLive p x wx => exact hs.calmRead _ _ _ _ _ (fun _ => effects_readLiveOwner wx)
  case readChannel p x wx => exact hs.calmRead _ _ _ _ _ (fun ps => effects_readChannelOwner ps wx)
  case readClock p x => exact hs.calmRead _ _ _ _ _ (fun ps s t d h => effects_data (f := State.clockBytes) s t d h)
  case readEntry p x => exact hs.calmRead _ _ _ _ _ (fun ps => effects_readEntryOwner ps)
  case readHeader p x prot => exact hs.calmRead _ _ _ _ _ (fun _ => effects_readHeaderOwner prot)
  case readDispensation p x => exact hs.calmRead _ _ _ _ _ (fun ps => effects_readDispensationOwner ps)
  case readAccount p x => exact hs.calmRead _ _ _ _ _ (fun ps => effects_readAccountOwner ps)
  case readHistogram p x => exact hs.calmRead _ _ _ _ _ (fun ps => effects_readHistogramOwner ps)
  case readEvents p x =>
    exact hs.calmRead _ _ _ _ _ (fun ps s t d h => by
      injection h with h; injection h with h _; subst h; exact .one (.readEvents s p _ rfl))
  case readHistory p x =>
    exact hs.calmRead _ _ _ _ _ (fun ps s t d h => by
      injection h with h; injection h with h _; subst h; exact .one (.readHistory s p _ rfl))
  case readPeriods p x =>
    exact hs.calmRead _ _ _ _ _ (fun ps s t d h => by
      injection h with h; injection h with h _; subst h; exact .one (.readPeriods s p _ rfl))
  case readNotices p x =>
    exact hs.calmRead _ _ _ _ _ (fun ps s t d h => by
      injection h with h; injection h with h _; subst h; exact effects_clearFlags s p)
  case readCommissioning p x =>
    exact hs.calmRead _ _ _ _ _ (fun ps s t d h => effects_data (f := fun s => s.commissioning.bytes) s t d h)
  case identify p x => exact hs.calmRead _ _ _ _ _ (fun ps s t d h => effects_data (f := fun _ => identityBytes) s t d h)
  case seek p x => exact hs.calmWrite _ _ _ _ _ _ (fun ps s t _ h => effects_seekOwner rfl ps s t h)
  case startChannels p x => exact hs.portWrite _ _ _ _ _ _ startOwner_timed
  case stopChannels p x => exact hs.portWrite _ _ _ _ _ _ stopOwner_timed
  case exclude p x =>
    cases p
    · exact hs.calmWrite _ _ _ _ _ _ (fun _ s t h _ => by cases h)
    · exact hs.calmWrite _ _ _ _ _ _ (fun ps s t _ h => effects_excludeOwner rfl ps s t h)
  case setEventTrigger p x => exact hs.calmWrite _ _ _ _ _ _ (fun ps s t _ h => effects_setEventTriggerOwner rfl ps s t h)
  case calibrate p x => exact hs.portWrite _ _ _ _ _ _ calibrateOwner_timed
  case abortCalibration p x => exact hs.portWrite _ _ _ _ _ _ abortOwner_timed
  case acceptCalibration p x =>
    cases p
    · exact hs.calmWrite _ _ _ _ _ _ (fun _ s t h _ => by cases h)
    · exact hs.calmWrite _ _ _ _ _ _ (fun ps s t _ h => effects_acceptOwner rfl ps s t h)
  case rejectCalibration p x =>
    cases p
    · exact hs.calmWrite _ _ _ _ _ _ (fun _ s t h _ => by cases h)
    · exact hs.calmWrite _ _ _ _ _ _ (fun ps s t _ h => effects_rejectResultOwner rfl ps s t h)
  case setTime p x => exact hs.calmWrite _ _ _ _ _ _ (fun ps s t _ h => effects_setTimeOwner ps s t h)
  case trimClock p x => exact hs.calmWrite _ _ _ _ _ _ (fun ps s t _ h => effects_trimClockOwner ps s t h)
  case writeEntry p x =>
    cases p
    · exact hs.calmWrite _ _ _ _ _ _ (fun _ s t h _ => by cases h)
    · exact hs.calmWrite _ _ _ _ _ _ (fun ps s t _ h => effects_writeEntryOwner rfl ps s t h)
  case deleteEntry p x =>
    cases p
    · exact hs.calmWrite _ _ _ _ _ _ (fun _ s t h _ => by cases h)
    · exact hs.calmWrite _ _ _ _ _ _ (fun ps s t _ h => effects_deleteEntryOwner rfl ps s t h)
  case writeHeader p x =>
    cases p
    · exact hs.calmWrite _ _ _ _ _ _ (fun _ s t h _ => by cases h)
    · exact hs.calmWrite _ _ _ _ _ _ (fun ps s t _ h => effects_writeHeaderOwner rfl ps s t h)
  case setProtection p x prot =>
    cases p
    · exact hs.calmWrite _ _ _ _ _ _ (fun _ s t h _ => by cases h)
    · exact hs.calmWrite _ _ _ _ _ _ (fun ps s t _ h => effects_setProtectionOwner rfl ps prot s t h)
  case proposeDispensation p x =>
    cases p
    · exact hs.calmWrite _ _ _ _ _ _ (fun ps s t _ h => effects_proposeOwner rfl ps s t h)
    · exact hs.calmWrite _ _ _ _ _ _ (fun _ s t h _ => by cases h)
  case withdrawDispensation p x => exact hs.calmWrite _ _ _ _ _ _ (fun ps s t _ h => effects_withdrawOwner ps s t h)
  case approveDispensation p x =>
    cases p
    · exact hs.calmWrite _ _ _ _ _ _ (fun _ s t h _ => by cases h)
    · exact hs.calmWrite _ _ _ _ _ _ (fun ps s t _ h => effects_approveOwner rfl ps s t h)
  case rejectDispensation p x => exact hs.calmWrite _ _ _ _ _ _ (fun ps s t _ h => effects_rejectOwner ps s t h)
  case revokeDispensation p x => exact hs.calmWrite _ _ _ _ _ _ (fun ps s t _ h => effects_revokeOwner ps s t h)
  case setNoticeEnables p x =>
    exact hs.calmWrite _ _ _ _ _ _ (fun ps s t _ h => by
      injection h with h; subst h; exact .one (.enabled s p _ (s.port p).conditions rfl))
  case clearConditions p x =>
    exact hs.calmWrite _ _ _ _ _ _ (fun ps s t _ h => by
      injection h with h; subst h; exact .one (.notices s p (s.port p).notices _ rfl))
  case setQuietRequest p x =>
    exact hs.calmWrite _ _ _ _ _ _ (fun ps s t _ h => by
      injection h with h; subst h; exact .one (.requested s p _ rfl))
  case portReset p x =>
    exact hs.calmWrite _ _ _ _ _ _ (fun ps s t _ h => by
      injection h with h; subst h; exact effects_portReset rfl s)
  case writeCommissioning p x =>
    cases p
    · exact hs.calmWrite _ _ _ _ _ _ (fun _ s t h _ => by cases h)
    · exact hs.calmWrite _ _ _ _ _ _ (fun ps s t _ h => effects_writeCommissioningOwner rfl ps s t h)
  case lockCommissioning p x =>
    cases p
    · exact hs.calmWrite _ _ _ _ _ _ (fun _ s t h _ => by cases h)
    · exact hs.calmWrite _ _ _ _ _ _ (fun ps s t _ h => effects_lockCommissioningOwner rfl s t h)
  case deviceReset p x =>
    exact hs.portWrite _ _ _ _ _ _ (fun ps s t _ h _ => by
      obtain ⟨-, h⟩ := check_ok h
      injection h with h; subst h; exact State.completeReset_timed s _ _)
  case resetNLow => exact State.Timed.resetLow (State.TimedBut.settle hs)
  case resetNRelease => exact State.Timed.resetRelease (State.TimedBut.settle hs)
  case powerOn b => exact State.powerUp_timed _ b
  case lossOfSupply => exact State.powerDown_timed _
  case audioFrame l a b =>
    split
    · next hr =>
      refine State.Timed.takeFrame (State.TimedBut.settle hs) (fun ch => ?_) (s.settle_running.trans hr) l a b
      have h := s.settle_settled (State.TimedBut.lossTreated hs)
      simp only [State.settled, Bool.and_eq_true, List.isEmpty_iff] at h
      by_contra hd
      have : DueStep.slice ch ∈ s.settle.dueSteps := (s.settle.mem_dueSteps _).2 (by simpa [State.isDue] using hd)
      rw [h.1.2] at this; simp at this
    · exact hs
  case incompleteFrameDiscard l => exact hs
  case blockEnd ch => exact (State.SlicesOn.blockEnd s ch).timed hs
  case frameSliceEnd ch wx => exact hs.frameSliceEndAt ch wx
  case crystalSliceEnd ch => exact (State.SlicesOn.crystalSliceEnd _ ch).timed (State.TimedBut.settle hs)
  case lineLost l => exact State.TimedBut.lineLost (State.TimedBut.settle hs) l
  case lineRestored l => exact State.TimedBut.lineRestored hs l
  case settlingComplete ch wx => exact hs.sliceEndFor ch wx _
  case calSettleComplete ch wx => exact hs.sliceEndFor ch wx _
  case calMeasureComplete ch wx => exact hs.sliceEndFor ch wx _
  case calRecoverComplete ch wx => exact hs.sliceEndFor ch wx _
  case calResultLapse ch => exact (State.SlicesOn.lapseResult s ch).timed hs
  case secondTick => exact State.TimedBut.secondElapsed (State.TimedBut.settle hs)
  case minuteBoundary => exact (State.SlicesOn.emitBoundary s).timed hs
  case eventCloseFell ch wx => exact hs.sliceEndFor ch wx _
  case eventCloseLong ch wx => exact hs.sliceEndFor ch wx _
  case storeWriteBegin => exact (Effect.calm (k := ⟨none, false, false, false⟩) rfl rfl rfl (.writeBegun s)).timed hs
  case storeWriteEnd b => exact (Effect.calm (k := ⟨none, false, false, false⟩) rfl rfl rfl (.writeEnded s.settle b)).timed (State.TimedBut.settle hs)

/-- R3, R4, R6, R11: every step keeps the channels FAULTED as their lines are LOST, and the slices within their bounds. -/
theorem step_timed (s t : State) (h : step s = .next t) (hs : s.Timed) : t.Timed := by
  cases hp : s.pending with
  | nil =>
    simp only [step, hp] at h
    injection h with h; subst h; exact State.Timed.crystalPeriod hs
  | cons i rest =>
    simp only [step, hp] at h
    exact exec_timed i { s with pending := rest } t h hs

end Sys2Proof.Machine
end

