-- ==== Sys2Proof/Laws/Resets.lean ====
section
/-! SUPPORT. Resets: completion marks while items are written (R175, R177), and the notices that a device reset leaves (R158). -/

namespace Sys2Proof.Machine

/-! ### Completion marks -/

/-- R177: the item whose write begins is incomplete. -/
theorem StoredItems.unmarked_clearMark (x : StoredItems) (w : StoreWrite) : (x.clearMark w).Unmarked w.item := by
  cases w with
  | entry i e => exact .inl ⟨i, rfl, by simp [StoredItems.clearMark]⟩
  | header h => exact .inr (.inl ⟨rfl, rfl⟩)
  | protection p => exact .inr (.inr (.inl ⟨rfl, rfl⟩))
  | channel ch c => exact .inr (.inr (.inr (.inl ⟨ch, rfl, Quad.get_set_self _ ch none⟩)))
  | commissioning r => exact .inr (.inr (.inr (.inr ⟨rfl, rfl⟩)))

/-- The item being written is incomplete. -/
def Store.WritesUnmarked (st : Store) : Prop := ∀ w, st.writing = some w → st.items.Unmarked w.item

theorem Store.WritesUnmarked.of_idle {st : Store} (h : st.writing = none) : st.WritesUnmarked := fun w e => by rw [h] at e; cases e

theorem Store.WritesUnmarked.of_eq {a b : Store} (ha : a.WritesUnmarked) (hi : b.items = a.items) (hw : b.writing = a.writing) :
    b.WritesUnmarked := fun w e => hi ▸ ha w (hw ▸ e)

theorem Store.WritesUnmarked.beginWrite {st : Store} (h : st.WritesUnmarked) : st.beginWrite.WritesUnmarked := by
  unfold Store.beginWrite
  split
  · intro w e; cases e; exact StoredItems.unmarked_clearMark _ _
  · exact h

theorem Store.WritesUnmarked.enqueue {st : Store} (h : st.WritesUnmarked) (w : StoreWrite) : (st.enqueue w).WritesUnmarked := by
  unfold Store.enqueue; split <;> exact h.of_eq rfl rfl

theorem State.SameFrame.writesUnmarked {s t : State} (h : s.SameFrame t) (hs : s.store.WritesUnmarked) : t.store.WritesUnmarked :=
  hs.of_eq h.items h.writing

@[simp] theorem State.bringQuiet_store (s : State) (ch : Ch) (i : QuietInput) : (s.bringQuiet ch i).store = s.store := by
  unfold State.bringQuiet; split <;> rfl

@[simp] theorem State.supersede_store (s : State) (ch : Ch) : (s.supersede ch).store = s.store := by
  unfold State.supersede; split <;> rfl

@[simp] theorem State.dropOverlapping_store (s : State) (i : Fin 16) : (s.dropOverlapping i).store = s.store := by
  unfold State.dropOverlapping; split <;> rfl

theorem State.foldl_store {α : Type} (work : State → α → State) (h : ∀ s a, (work s a).store = s.store) :
    ∀ (l : List α) (s : State), (l.foldl work s).store = s.store
  | [], _ => rfl
  | a :: l, s => (State.foldl_store work h l (work s a)).trans (h s a)

@[simp] theorem State.resumeSerial_store (s : State) : s.resumeSerial.store = s.store := rfl

@[simp] theorem State.notifyIncomplete_store (s : State) : s.notifyIncomplete.store = s.store :=
  State.foldl_store (fun s item => s.notifyBoth .store ⟨.ch0, 2, value32 item⟩) (fun _ _ => rfl) _ _

@[simp] theorem State.loadStore_store (s : State) : s.loadStore.store = s.store := by
  unfold State.loadStore
  rw [State.resumeSerial_store, State.foldl_store _ State.dropOverlapping_store, State.notifyIncomplete_store]
  rfl

/-- R175, R177: every single change keeps the item being written incomplete. -/
theorem Effect.writesUnmarked {k : Origin} {s t : State} (h : Effect k s t) (hs : s.store.WritesUnmarked) : t.store.WritesUnmarked := by
  cases h with
  | writeBegun => exact hs.beginWrite
  | writeEnded b =>
    unfold State.endStoreWrite
    split
    · exact hs
    · split <;> exact .of_idle rfl
  | resetBegun => exact .of_idle rfl
  | channelQueued ch => exact hs.enqueue _
  | entryChanged => exact hs.enqueue _
  | headerChanged => exact hs.enqueue _
  | protectionChanged => exact hs.enqueue _
  | commissioned => exact hs.enqueue _
  | loaded => rw [State.loadStore_store]; exact hs
  | line => rw [State.setRx_store]; exact hs
  | notices => rw [State.setPort_store]; exact hs
  | transaction => rw [State.setPort_store]; exact hs
  | readHistory => rw [State.setPort_store]; exact hs
  | readPeriods => rw [State.setPort_store]; exact hs
  | readEvents => rw [State.setPort_store]; exact hs
  | sought => rw [State.setPort_store]; exact hs
  | rewound => unfold State.rewindCursors; rw [State.setPort_store]; exact hs
  | enabled => rw [State.setPort_store]; exact hs
  | requested => unfold State.requestQuiet; rw [State.bringQuiet_store, State.setPort_store]; exact hs
  | reevaluated => unfold State.reevaluateQuiet; rw [State.bringQuiet_store]; exact hs
  | evaluated ch => exact (State.SameFrame.evaluateQuiet s ch).writesUnmarked hs
  | eventOpened ch r => exact (State.SameFrame.openEvent s ch r).writesUnmarked hs
  | eventClosed ch c => exact (State.SameFrame.closeEvent s ch c).writesUnmarked hs
  | calTaken ch r => exact (State.SameFrame.calTakeSlice s ch r).writesUnmarked hs
  | runFaults ch => exact ((State.SameFrame.endRun s ch .fault).trans (.setChan _ _ _)).writesUnmarked hs
  | runStopped ch => exact ((State.SameFrame.endRun s ch .aborted).trans (.setChan _ _ _)).writesUnmarked hs
  | runAborted ch => exact ((State.SameFrame.endRun s ch .aborted).trans (.setChan _ _ _)).writesUnmarked hs
  | runCompleted ch r => exact ((State.SameFrame.completeRun s ch).trans (.setChan _ _ _)).writesUnmarked hs
  | runStarted ch l =>
    delta State.startRun
    extract_lets _ s1 s2
    have h : s1.store = s.store := State.supersede_store s ch
    exact hs.of_eq (congrArg _ h) (congrArg _ h)
  | lapsed ch => unfold State.lapseResult; split <;> exact hs
  | period =>
    unfold State.countPeriod
    dsimp only
    split <;> exact hs
  | chan => exact hs
  | clock => exact hs
  | ticked => exact hs
  | minuteWritten => exact hs
  | periodWritten => exact hs
  | slot => exact hs
  | pins => exact hs
  | triggersSet => exact hs
  | proposed => exact hs
  | excludedSet => exact hs
  | decided => exact hs
  | numbered => exact hs

/-! ### The incomplete items, in rising number -/

theorem StoredItems.mem_incomplete (x : StoredItems) (n : Nat) : n ∈ x.incomplete ↔ x.Unmarked n := by
  have hl : ∀ ch : Ch, ch ∈ Ch.list := fun ch => by cases ch <;> decide
  unfold StoredItems.incomplete StoredItems.Unmarked
  simp only [List.mem_append, List.mem_map, List.mem_filter, List.mem_finRange, true_and, or_assoc, List.mem_ite_nil_right,
    List.mem_singleton, Option.isNone_iff_eq_none, hl]
  simp only [and_comm, eq_comm (a := n)]

theorem StoredItems.incomplete_rising (x : StoredItems) : x.incomplete.Pairwise (· < ·) := by
  have he : (((List.finRange 16).filter fun i => x.entries[i].isNone).map Fin.val).Pairwise (· < ·) :=
    (List.Pairwise.filter _ (by decide : (List.finRange 16).Pairwise (· < ·))).map _ fun _ _ h => h
  have hc : ((Ch.list.filter fun ch => (x.channels.get ch).isNone).map fun ch => 18 + ch.index).Pairwise (· < ·) :=
    (List.Pairwise.filter (R := fun a b : Ch => a.index < b.index) _ (by decide)).map _ fun _ _ h => Nat.add_lt_add_left h 18
  have hi : ∀ ch : Ch, ch.index < 4 := fun ch => by cases ch <;> decide
  have h1 : ∀ (p : Bool) (n : Nat), (if p then [n] else []).Pairwise (· < ·) := fun p n => by split <;> simp
  unfold StoredItems.incomplete
  refine List.pairwise_append.2 ⟨List.pairwise_append.2 ⟨List.pairwise_append.2 ⟨List.pairwise_append.2 ⟨he, h1 _ _, ?_⟩, h1 _ _, ?_⟩, hc, ?_⟩, h1 _ _, ?_⟩
  all_goals
    intro a ha b hb
    simp only [List.mem_append, List.mem_map, List.mem_filter, List.mem_ite_nil_right, List.mem_singleton] at ha hb
  · obtain ⟨i, -, rfl⟩ := ha; obtain ⟨-, rfl⟩ := hb; exact i.isLt
  · obtain ⟨-, rfl⟩ := hb
    rcases ha with ⟨i, -, rfl⟩ | ⟨-, rfl⟩ <;> omega
  · obtain ⟨ch, -, rfl⟩ := hb
    rcases ha with (⟨i, -, rfl⟩ | ⟨-, rfl⟩) | ⟨-, rfl⟩ <;> omega
  · obtain ⟨-, rfl⟩ := hb
    rcases ha with ((⟨i, -, rfl⟩ | ⟨-, rfl⟩) | ⟨-, rfl⟩) | ⟨ch, -, rfl⟩ <;> first | omega | (have := hi ch; omega)

/-! ### Notices told to both ports, one after the other -/

/-- What a sequence of notices makes of one notice of a port (R149). -/
def Notice.after (k : NoticeKind) (n : Notice) (calls : List (NoticeKind × Detail)) : Notice :=
  calls.foldl (fun n c => if k = c.1 then ⟨true, n.enable, c.2⟩ else n) n

/-- Between `s` and `t` both ports have been told a sequence of notices. -/
def State.Told (s t : State) (calls : List (NoticeKind × Detail)) : Prop :=
  ∀ q k, (t.port q).notice k = ((s.port q).notice k).after k calls

theorem State.Told.of_ports {s t : State} (h : ∀ q, (t.port q).notices = (s.port q).notices) : s.Told t [] :=
  fun q k => by simp only [PortState.notice, h q]; rfl

theorem State.Told.trans {s t u : State} {a b : List (NoticeKind × Detail)} (h : s.Told t a) (h' : t.Told u b) : s.Told u (a ++ b) :=
  fun q k => by rw [h' q k, h q k]; exact (List.foldl_append ..).symm

theorem State.Told.notifyBoth (s : State) (k : NoticeKind) (d : Detail) : s.Told (s.notifyBoth k d) [(k, d)] := fun q j => by
  rw [State.port_notifyBoth, PortState.notice_notify]
  show _ = if j = k then _ else _
  split
  · next h => rw [h]
  · rfl

theorem State.Told.foldl {α : Type} (work : State → α → State) (call : α → NoticeKind × Detail) (h : ∀ s a, State.Told s (work s a) [call a]) :
    ∀ (l : List α) (s : State), s.Told (l.foldl work s) (l.map call)
  | [], _ => .of_ports fun _ => rfl
  | a :: l, s => (h s a).trans (State.Told.foldl work call h l (work s a))

/-- The enable stays (R149). -/
theorem Notice.after_enable (k : NoticeKind) (n : Notice) : ∀ calls, (n.after k calls).enable = n.enable := by
  intro calls
  induction calls generalizing n with
  | nil => rfl
  | cons c l ih => exact (ih _).trans (by dsimp only; split <;> rfl)

@[simp] theorem Notice.after_nil (k : NoticeKind) (n : Notice) : n.after k [] = n := rfl

@[simp] theorem Notice.after_cons (k : NoticeKind) (n : Notice) (c : NoticeKind × Detail) (l : List (NoticeKind × Detail)) :
    n.after k (c :: l) = (if k = c.1 then ⟨true, n.enable, c.2⟩ else n : Notice).after k l := rfl

@[simp] theorem Notice.after_append (k : NoticeKind) (n : Notice) (a b : List (NoticeKind × Detail)) :
    n.after k (a ++ b) = (n.after k a).after k b := List.foldl_append ..

/-- Of several notices of one kind the last decides (R149). -/
@[simp] theorem Notice.after_map {α : Type} (k j : NoticeKind) (n : Notice) (l : List α) (d : α → Detail) :
    n.after k (l.map fun x => (j, d x)) = if k = j then (l.getLast?.map fun x => ⟨true, n.enable, d x⟩).getD n else n := by
  induction l using List.reverseRecOn with
  | nil => simp
  | append_singleton l x ih =>
    rw [List.map_append, Notice.after_append]
    show (if k = j then (⟨true, (n.after k _).enable, d x⟩ : Notice) else n.after k _) = _
    split
    · simp [Notice.after_enable]
    · next h => rw [ih, if_neg h]

/-! ### What a device reset tells -/

/-- R178: the entries of a list that overlap become absent, each with its SCHEDULE notice. -/
theorem State.dropOverlapping_told : ∀ (l : List (Fin 16)) (s : State), l.Nodup →
    ∃ dropped : List (Fin 16), dropped.Sublist l ∧ s.Told (l.foldl State.dropOverlapping s) (dropped.map fun i => (.schedule, ⟨.ch0, 1, value32 i.val⟩)) ∧
      ∀ i : Fin 16, i ∈ dropped ↔ (l.foldl State.dropOverlapping s).entries[i] ≠ s.entries[i]
  | [], s, _ => ⟨[], .refl _, .of_ports fun _ => rfl, fun i => by simp⟩
  | i :: l, s, hl => by
    obtain ⟨dropped, hs, ht, hd⟩ := State.dropOverlapping_told l (s.dropOverlapping i) (List.nodup_cons.1 hl).2
    have hi : i ∉ dropped := fun h => (List.nodup_cons.1 hl).1 (hs.subset h)
    have ho : ∀ j : Fin 16, j ≠ i → (s.dropOverlapping i).entries[j] = s.entries[j] := by
      intro j hj
      unfold State.dropOverlapping
      split
      · simp only [State.notifyEntry, State.notifyBoth_entries, Fin.getElem_fin]
        exact Vector.getElem_set_ne _ _ fun e => hj (Fin.ext e.symm)
      · rfl
    by_cases h : s.overlapsLower i = true
    · have e : s.dropOverlapping i = { s with entries := s.entries.set i { s.entries[i] with present := false } }.notifyEntry i := by
        unfold State.dropOverlapping; rw [if_pos h]
      have hp : s.entries[i].present = true := by
        unfold State.overlapsLower at h; exact (Bool.and_eq_true_iff.1 h).1
      refine ⟨i :: dropped, hs.cons_cons i, ?_, fun j => ?_⟩
      · refine State.Told.trans (t := s.dropOverlapping i) (a := [_]) ?_ ht
        rw [e]
        exact (State.Told.of_ports (t := { s with entries := s.entries.set i { s.entries[i] with present := false } })
          fun q => by cases q <;> rfl).trans (.notifyBoth _ _ _)
      · by_cases hj : j = i
        · subst hj
          have e1 : (l.foldl State.dropOverlapping (s.dropOverlapping j)).entries[j] = (s.dropOverlapping j).entries[j] :=
            not_not.1 fun hne => hi ((hd j).2 hne)
          simp only [List.mem_cons, true_or, true_iff, List.foldl_cons]
          rw [e1, e]
          intro he
          have hf := congrArg Entry.present he
          simp [State.notifyEntry] at hf
          exact Bool.noConfusion (hp.symm.trans hf)
        · rw [List.mem_cons, or_iff_right hj, hd j, ho j hj]; rfl
    · have e : s.dropOverlapping i = s := by unfold State.dropOverlapping; rw [if_neg h]
      rw [e] at ht hd
      refine ⟨dropped, hs.cons i, ?_, fun j => ?_⟩
      · show s.Told (l.foldl _ (s.dropOverlapping i)) _; rw [e]; exact ht
      · rw [hd j]; show _ ↔ (l.foldl _ (s.dropOverlapping i)).entries[j] ≠ _; rw [e]

/-- R6, R18: while every line is LOST, each channel that starts is found FAULTED, with its CHANNEL notice. -/
theorem State.startChannel_told : ∀ (l : List Ch) (s : State), (∀ ch, s.linePresent ch = false) →
    ∃ started : List Ch, (∀ ch ∈ started, ch ∈ l) ∧ s.Told (l.foldl State.startChannel s) (started.map fun ch => (.channel, ⟨ch, 1, 0⟩)) ∧
      ((∀ ch ∈ l, (s.chan ch).state = .off) → started = [] → l = [])
  | [], s, _ => ⟨[], nofun, .of_ports fun _ => rfl, fun _ _ => rfl⟩
  | ch :: l, s, hs => by
    have hp : ∀ d, (s.startChannel ch).linePresent d = false := by
      intro d
      rw [← hs d]; unfold State.startChannel State.linePresent
      split
      · dsimp only; split <;> cases d.line <;> rfl
      · rfl
    obtain ⟨started, hm, ht, _⟩ := State.startChannel_told l (s.startChannel ch) hp
    by_cases h : (s.chan ch).state = .off
    · refine ⟨ch :: started, fun d hd => ?_, ?_, fun _ e => nomatch e⟩
      · rcases List.mem_cons.1 hd with rfl | hd
        exacts [.head _, .tail _ (hm d hd)]
      · refine State.Told.trans (t := s.startChannel ch) (a := [_]) ?_ ht
        unfold State.startChannel
        rw [if_pos h]
        dsimp only
        rw [if_neg (by rw [hs ch]; decide)]
        refine State.Told.trans (t := s.setChan ch _) (.of_ports fun q => by rw [State.port_setChan]) (.notifyBoth _ _ _)
    · have e : s.startChannel ch = s := by unfold State.startChannel; rw [if_neg h]
      exact ⟨started, fun d hd => .tail _ (hm d hd), by simpa [e] using ht, fun ha _ => absurd (ha ch (.head _)) h⟩

theorem State.SameFrame.startChannel (s : State) (ch : Ch) : s.SameFrame (s.startChannel ch) := by
  unfold State.startChannel
  split
  · exact .ite (.setChan _ _ _) ((State.SameFrame.setChan _ _ _).trans (.notifyBoth _ _ _))
  · exact .refl s

theorem State.notifyClockLoss_told (s : State) (lost : Bool) :
    s.Told (s.notifyClockLoss lost) (if lost then [(.clock, ⟨.ch0, 3, minute32 none⟩)] else []) := by
  unfold State.notifyClockLoss
  split
  · exact .notifyBoth _ _ _
  · exact .of_ports fun _ => rfl

/-- R178: what the store load tells: STORE for each incomplete item in rising number, then SCHEDULE for each entry that becomes absent. -/
theorem State.loadStore_told (s : State) :
    ∃ dropped : List (Fin 16), dropped.Pairwise (· < ·) ∧ (∀ i : Fin 16, i ∈ dropped ↔ s.loadStore.entries[i] ≠ s.store.items.entryLoaded i) ∧
      s.Told s.loadStore (s.store.items.incomplete.map (fun n => (.store, ⟨.ch0, 2, value32 n⟩)) ++
        dropped.map fun i => (.schedule, ⟨.ch0, 1, value32 i.val⟩)) := by
  have hn : s.loadCopies.Told s.loadCopies.notifyIncomplete (s.store.items.incomplete.map fun n => (.store, ⟨.ch0, 2, value32 n⟩)) :=
    .foldl (fun s item => s.notifyBoth .store ⟨.ch0, 2, value32 item⟩) _ (fun _ _ => .notifyBoth _ _ _) _ _
  have he : s.loadCopies.notifyIncomplete.entries = s.loadCopies.entries := by
    have : ∀ (l : List Nat) (t : State), (l.foldl (fun s item => s.notifyBoth .store ⟨.ch0, 2, value32 item⟩) t).entries = t.entries := by
      intro l
      induction l with
      | nil => exact fun _ => rfl
      | cons n l ih => exact fun t => ih _
    exact this _ _
  have h1 : s.Told s.loadCopies [] := .of_ports fun q => by cases q <;> rfl
  have h3 : ∀ t : State, t.Told t.resumeSerial [] := fun t => .of_ports fun q => by cases q <;> rfl
  have h4 : ∀ t : State, t.resumeSerial.entries = t.entries := fun _ => rfl
  obtain ⟨dropped, hs, ht, hd⟩ := State.dropOverlapping_told entryIndices s.loadCopies.notifyIncomplete (by decide)
  rw [State.loadStore]
  refine ⟨dropped, List.Pairwise.sublist hs (by decide), fun i => ?_, ?_⟩
  · rw [hd i, he, h4]
    have e : s.loadCopies.entries[i] = s.store.items.entryLoaded i := by
      show (Vector.ofFn fun i => loadEntry i s.store.items.entries[i])[i] = _
      simp only [Fin.getElem_fin, Vector.getElem_ofFn]
      rfl
    rw [e]
  · have h := ((h1.trans hn).trans ht).trans (h3 _)
    simpa only [List.nil_append, List.append_nil] using h

/-- What a device reset tells, in order (R54, R158, R178, R18): RESET, CLOCK where the clock domain was lost, STORE for each incomplete item, SCHEDULE for
each entry that becomes absent, CHANNEL for each channel that starts. -/
def resetCalls (cause : ResetCause) (lost : Bool) (items : List Nat) (dropped : List (Fin 16)) (started : List Ch) : List (NoticeKind × Detail) :=
  (.reset, ⟨.ch0, cause.code, 0⟩) :: ((if lost then [(.clock, ⟨.ch0, 3, minute32 none⟩)] else []).append
    ((items.map fun n => (.store, ⟨.ch0, 2, value32 n⟩)).append ((dropped.map fun i => (.schedule, ⟨.ch0, 1, value32 i.val⟩)).append
      (started.map fun ch => (.channel, ⟨ch, 1, 0⟩)))))

/-- The notice that shows the last of a list, and is clear where it is empty. -/
def Notice.ofLast {α : Type} (l : List α) (d : α → Detail) : Notice := (l.getLast?.map fun x => ⟨true, false, d x⟩).getD .clear

theorem Notice.ofLast_flag {α : Type} (l : List α) (d : α → Detail) : (Notice.ofLast l d).flag = true ↔ ∃ x, x ∈ l := by
  rcases List.eq_nil_or_concat l with rfl | ⟨l, x, rfl⟩
  · simp [Notice.ofLast, Notice.clear]
  · simp [Notice.ofLast]

theorem Notice.ofLast_unset {α : Type} {l : List α} {d : α → Detail} (h : (Notice.ofLast l d).flag = false) :
    (Notice.ofLast l d).detail = ⟨.ch0, 0, 0⟩ := by
  rcases List.eq_nil_or_concat l with rfl | ⟨l, x, rfl⟩
  · rfl
  · simp [Notice.ofLast] at h

theorem Notice.ofLast_some {α : Type} {l : List α} (d : α → Detail) (h : ∃ x, x ∈ l) : ∃ x ∈ l, (Notice.ofLast l d).detail = d x := by
  rcases List.eq_nil_or_concat l with rfl | ⟨l, x, rfl⟩
  · simp at h
  · exact ⟨x, by simp, by simp [Notice.ofLast]⟩

/-- In a rising list the last is the greatest. -/
theorem Notice.ofLast_greatest {α : Type} [Preorder α] {l : List α} (hl : l.Pairwise (· < ·)) (d : α → Detail) {x : α} (hx : x ∈ l)
    (hm : ∀ y ∈ l, ¬ x < y) : (Notice.ofLast l d).detail = d x := by
  rcases List.eq_nil_or_concat l with rfl | ⟨l, y, rfl⟩
  · simp at hx
  · rw [List.concat_eq_append] at hl hx hm ⊢
    have hxy : x = y := by
      rcases List.mem_append.1 hx with h | h
      · exact absurd ((List.pairwise_append.1 hl).2.2 x h y (by simp)) (hm y (by simp))
      · exact List.mem_singleton.1 h
    simp [Notice.ofLast, hxy]

/-- The notices of a port that a device reset has cleared, after what the reset tells. -/
theorem resetCalls_after (cause : ResetCause) (lost : Bool) (items : List Nat) (dropped : List (Fin 16)) (started : List Ch) (k : NoticeKind) :
    Notice.after k ⟨false, k == .reset, ⟨.ch0, 0, 0⟩⟩ (resetCalls cause lost items dropped started) =
    match k with
    | .reset => ⟨true, true, ⟨.ch0, cause.code, 0⟩⟩
    | .clock => if lost then ⟨true, false, ⟨.ch0, 3, 0xFFFFFFFF⟩⟩ else .clear
    | .store => .ofLast items fun n => ⟨.ch0, 2, value32 n⟩
    | .schedule => .ofLast dropped fun i => ⟨.ch0, 1, value32 i.val⟩
    | .channel => .ofLast started fun ch => ⟨ch, 1, 0⟩
    | _ => .clear := by
  unfold resetCalls
  cases lost <;> cases k <;> (simp only [List.append_eq, Notice.after_cons, Notice.after_append, Notice.after_map]; rfl)

/-- R18: auto-start, every line being LOST and every channel OFF, tells CHANNEL for each channel of the mask. -/
theorem State.startChannels_told (s : State) (m : ChannelMask) (hl : ∀ ch, s.linePresent ch = false) (ho : ∀ ch, (s.chan ch).state = .off) :
    ∃ started : List Ch, (∀ ch ∈ started, maskHas m ch = true) ∧ ((∃ ch, maskHas m ch = true) → started ≠ []) ∧
      s.Told (s.startChannels m) (started.map fun ch => (.channel, ⟨ch, 1, 0⟩)) := by
  have hmem : ∀ ch, ch ∈ (maskChannels m).filter (fun ch => (s.chan ch).state == .off) ↔ maskHas m ch = true := fun ch => by
    have : ch ∈ Ch.list := by cases ch <;> decide
    simp [maskChannels, ho ch, this]
  unfold State.startChannels State.inAnyOrder
  generalize (maskChannels m).filter (fun ch => (s.chan ch).state == .off) = l at hmem
  obtain ⟨hp, hst⟩ := State.arrange_perm s l
  have hl' : ∀ ch, (s.arrange l).2.linePresent ch = false := fun ch => by rw [hst]; exact hl ch
  obtain ⟨started, hm, ht, hn⟩ := State.startChannel_told (s.arrange l).1 _ hl'
  refine ⟨started, fun ch h => (hmem ch).1 (hp.mem_iff.1 (hm ch h)), fun ⟨ch, h⟩ he => ?_, ?_⟩
  · have := hn (fun d _ => by rw [hst]; exact ho d) he
    have hc := hp.mem_iff.2 ((hmem ch).2 h)
    rw [this] at hc
    exact nomatch hc
  · exact State.Told.trans (.of_ports fun q => by rw [hst]; cases q <;> rfl) ht

theorem State.numberMinutes_told (s : State) : s.Told s.numberMinutes [] := .of_ports fun q => by cases q <;> rfl

theorem State.numberMinutes_entries (s : State) : s.numberMinutes.entries = s.entries := rfl

/-- Recording the reset's cause tells nothing, and leaves the lines and the channels. -/
theorem State.resetRecorded (s : State) (cause : ResetCause) :
    s.Told { s with resetCause := cause, clockLossFound := false } [] ∧ s.Calm { s with resetCause := cause, clockLossFound := false } :=
  ⟨.of_ports fun q => by cases q <;> rfl, .of_eq rfl rfl rfl⟩

/-- What a completed device reset tells (R54, R158, R178, R18). -/
theorem State.completeReset_told (s : State) (cause : ResetCause) (lost : Bool) :
    let v := s.completeReset cause lost
    ∃ (dropped : List (Fin 16)) (started : List Ch), dropped.Pairwise (· < ·) ∧
      (∀ i : Fin 16, i ∈ dropped ↔ v.entries[i] ≠ s.store.items.entryLoaded i) ∧
      (∀ ch ∈ started, maskHas v.commissioning.installed ch = true) ∧ ((∃ ch, maskHas v.commissioning.installed ch = true) → started ≠ []) ∧
      s.beginReset.Told v (resetCalls cause lost s.store.items.incomplete dropped started) := by
  delta State.completeReset
  extract_lets s1 s2 s3 v
  have h1 : s.beginReset.Told s1 [(.reset, ⟨.ch0, cause.code, 0⟩)] := .notifyBoth _ _ _
  have c1 : s.beginReset.Calm s1 := .of_eq rfl rfl rfl
  have h2 := State.notifyClockLoss_told s1 lost
  have i2 : (s1.notifyClockLoss lost).store.items = s.store.items := by unfold State.notifyClockLoss; split <;> rfl
  obtain ⟨dropped, hr, hd, h3⟩ := State.loadStore_told (s1.notifyClockLoss lost)
  rw [i2] at hd h3
  have h4 : s1.Told s2 _ := h2.trans (h3.trans (State.numberMinutes_told _))
  have c2 : s1.Calm s2 := (State.Calm.notifyClockLoss s1 lost).trans ((State.Calm.loadStore _).trans (.numberMinutes _))
  have e2 : s2.entries = (s1.notifyClockLoss lost).loadStore.entries := State.numberMinutes_entries _
  rw [← e2] at hd
  have h5 : s2.Told s3 [] ∧ s2.Calm s3 ∧ s3.entries = s2.entries := by
    clear_value s2; exact ⟨(State.resetRecorded s2 cause).1, (State.resetRecorded s2 cause).2, rfl⟩
  rw [← h5.2.2] at hd
  have c3 : s.beginReset.Calm s3 := c1.trans (c2.trans h5.2.1)
  have hl : ∀ ch, s3.linePresent ch = false := fun ch => by unfold State.linePresent; rw [c3.lines]; cases ch <;> rfl
  have ho : ∀ ch, (s3.chan ch).state = .off := fun ch => by rw [(c3.chans ch).state]; cases ch <;> rfl
  obtain ⟨started, hm, hn, h6⟩ := State.startChannels_told s3 s3.commissioning.installed hl ho
  have hf : s3.SameFrame v := .inAnyOrder _ State.SameFrame.startChannel _ _
  rw [← hf.entries] at hd
  rw [← hf.commissioning] at hm hn
  refine ⟨dropped, started, hr, hd, hm, hn, ?_⟩
  have h := h1.trans (h4.trans (h5.1.trans h6))
  unfold resetCalls
  simpa only [List.append_eq, List.cons_append, List.append_assoc, List.nil_append, List.append_nil] using h

/-- R54, R158, R178, R18: the notices that a completed device reset leaves. -/
theorem State.completeReset_notices (s : State) (cause : ResetCause) (lost : Bool) :
    ResetNotices s (s.completeReset cause lost) cause lost := by
  obtain ⟨dropped, started, hr, hd, hm, hn, ht⟩ := State.completeReset_told s cause lost
  generalize s.completeReset cause lost = v at hd hm hn ht
  have hb : ∀ q k, (s.beginReset.port q).notice k = ⟨false, k == .reset, ⟨.ch0, 0, 0⟩⟩ := fun q k => by cases q <;> cases k <;> rfl
  have h : ∀ q k, (v.port q).notice k = _ := fun q k => by rw [ht q k, hb q k, resetCalls_after]
  have hstart : (∃ ch, ch ∈ started) ↔ ∃ ch, maskHas v.commissioning.installed ch = true :=
    ⟨fun ⟨ch, hc⟩ => ⟨ch, hm ch hc⟩, fun he => List.exists_mem_of_ne_nil _ (hn he)⟩
  refine ⟨fun q k => by rw [ht q k, hb q k, Notice.after_enable], fun q k => ?_, fun q k => ?_, fun q => by rw [h], fun hlost q => by rw [h]; simp [hlost],
    fun n hu hg q => ?_, fun i hi hg q => ?_, fun he => ?_⟩
  · rw [h]
    cases k <;> simp only [Notice.ofLast_flag, StoredItems.mem_incomplete, hd, hstart] <;> cases lost <;> simp [Notice.clear]
  · rw [h]
    cases k
    case store => exact Notice.ofLast_unset
    case schedule => exact Notice.ofLast_unset
    case channel => exact Notice.ofLast_unset
    case reset => exact nofun
    case clock => cases lost <;> first | exact fun _ => rfl | exact nofun
    all_goals exact fun _ => rfl
  · rw [h]
    exact Notice.ofLast_greatest s.store.items.incomplete_rising _ ((s.store.items.mem_incomplete n).2 hu)
      fun m hx => Nat.not_lt.2 (hg m ((s.store.items.mem_incomplete m).1 hx))
  · rw [h]
    exact Notice.ofLast_greatest hr _ ((hd i).2 hi) fun j hj hlt => (hd j).1 hj (hg j hlt)
  · obtain ⟨ch, hc, hx⟩ := Notice.ofLast_some (fun ch : Ch => (⟨ch, 1, 0⟩ : Detail)) (hstart.2 he)
    exact ⟨ch, hm ch hc, fun q => by rw [h]; exact hx⟩

end Sys2Proof.Machine
end

