-- ==== Sys2Proof/Tests/Slice0.lean ====
section
/-! SUPPORT. Slice0: tests of the model. Part 1 holds the well-formedness smoke, decoded transactions and the manual's worked examples; part 2 a
witness for the hypotheses of every statement that has any, at the boundary values of its clauses. -/

namespace Sys2Proof.Tests

set_option Elab.async false

open Sys2Proof Sys2Proof.Machine

/-! ## Helpers -/

/-- The state after a command or event. -/
def after (i : Instr) (s : State) : State :=
  match exec i s with
  | .next t => t
  | .fault _ => s
  | .refused _ => s

/-- The state after several, one step each. -/
def afterAll (l : List Instr) (s : State) : State := l.foldl (fun s i => after i s) s

/-- The result a port's command leaves. -/
def resultOf (i : Instr) (p : Port) (s : State) : Result := ((after i s).port p).lastResult

/-- Channel 0 changed. -/
def onCh0 (f : Channel → Channel) (s : State) : State := s.setChan .ch0 (f (s.chan .ch0))

/-- Every channel installed. -/
def installed : State := { State.reset with commissioning := { Commissioning.blank with installed := 0xF, weather := 1 } }

/-- Every channel installed, line 0 PRESENT, channel 0 in a state with a settle count and `frames` frames of its slice. -/
def running0 (x : ChannelState) (count frames : Nat) : State :=
  onCh0 (fun c => { c with state := x, settle := count, engine := { c.engine with slice := { c.engine.slice with frames := frames } } })
    { installed with line0 := ⟨true, 4800, 0⟩ }

/-- Channel 0 at the end of a slice, its minute's close waiting with an FS switch. -/
def switching : State :=
  onCh0 (fun c => { c with pendingFs := some 13900, waiting := some ⟨⟨some 5, some 6, false⟩, true⟩ }) (running0 .measuring 0 6000)

/-- The same within its slice. -/
def stopping : State :=
  onCh0 (fun c => { c with pendingFs := some 13900, waiting := some ⟨⟨some 5, some 6, false⟩, true⟩ }) (running0 .measuring 0 5)

/-- The clock SET at a minute number. -/
def clockAt (n : Nat) (s : State) : State := { s with clock := ⟨true, n, 0, 60, 0, 0⟩ }

/-- Schedule entry 1 for channel 0 on every day. -/
def dayEntry : Entry := { Entry.factory with channels := 1, start := 420, stop := 1140 }

/-- The bytes of a value, low byte first. -/
def two (n : Nat) : List Byte := [BitVec.ofNat 8 n, BitVec.ofNat 8 (n / 256)]

def four (n : Nat) : List Byte := two n ++ two (n / 65536)

/-! ## Part 1. Smoke, decoding, worked examples -/

/-- The one check of WellFormed refuses a known code called unknown, and passes a code the table does not name. -/
theorem test_wellformed_smoke :
    (Instr.unknownCommandCode .site 0x10 (.whole [])).wf = false ∧ (Instr.unknownCommandCode .compliance 0x00 (.whole [1])).wf = false ∧
    (Instr.unknownCommandCode .site 0x0F (.whole [])).wf = true ∧ (Instr.unknownCommandCode .site 0xFF (.whole [1, 2])).wf = true ∧
    (Instr.seek .site (.whole [])).wf = true := by decide +kernel

/-- 13, Command codes: one transaction of each family. -/
theorem test_decode_codes :
    decodeTransaction .site false false [0x00] .whole = some (.nop .site (.whole [])) ∧
    decodeTransaction .site true false [0x11, 2] .whole = some (.readChannel .site (.whole [2]) true) ∧
    decodeTransaction .site false true [0x14] .whole = some (.readHeader .site (.whole []) true) ∧
    decodeTransaction .site false false [0x20, 0, 2, 1, 0, 0, 0] .whole = some (.seek .site (.whole [0, 2, 1, 0, 0, 0])) ∧
    decodeTransaction .compliance false false [0x31, 3] .whole = some (.stopChannels .compliance (.whole [3])) ∧
    decodeTransaction .site false false [0x34, 1, 0x88, 0x2C] .whole = some (.calibrate .site (.whole [1, 0x88, 0x2C])) ∧
    decodeTransaction .compliance false false [0x41, 0xFF] .whole = some (.trimClock .compliance (.whole [0xFF])) ∧
    decodeTransaction .compliance false true [0x53, 4, 1] .whole = some (.setProtection .compliance (.whole [4, 1]) true) ∧
    decodeTransaction .compliance false false [0x63, 1, 41, 0] .whole = some (.rejectDispensation .compliance (.whole [1, 41, 0])) ∧
    decodeTransaction .site false false [0x7E] .whole = some (.portReset .site (.whole [])) ∧
    decodeTransaction .compliance false false [0x81] .whole = some (.lockCommissioning .compliance (.whole [])) ∧
    decodeTransaction .compliance false false [0xF0] .whole = some (.deviceReset .compliance (.whole [])) ∧
    decodeTransaction .site false false [0x7F, 1] .whole = some (.unknownCommandCode .site 0x7F (.whole [1])) ∧
    decodeTransaction .site false false [] .whole = none := by decide +kernel

/-- The table gives no row bits: no word spells a command. -/
theorem test_no_table_word : decodeTableWord 8 0x10 = none ∧ State.reset.withFetchWord 8 0x10 = State.reset := by decide +kernel

/-- 02, Example: one minute of mixed slices; R28's case at the top. -/
theorem test_levels :
    (convert 14000 402653184000 6000).level = 7979 ∧ (convert 14000 3221225472000 6000).level = 8882 ∧
    (convert 14000 402653184000000 1800000).level = 8502 ∧ (convert 13000 (6000 * 2 ^ 41) 6000).level = 11495 := by decide +kernel

/-- 02, Example: the edge of the floor. -/
theorem test_floor :
    convert 14000 42222000 6000 = ⟨4000, false⟩ ∧ convert 14000 42216000 6000 = ⟨4000, true⟩ ∧ convert 14000 0 6000 = ⟨4000, true⟩ := by
  decide +kernel

/-- 02, Example: energy units of four levels. -/
theorem test_energy_units :
    energyUnit 7000 = 4294967 ∧ energyUnit 7500 = 13581879 ∧ energyUnit 8000 = 42949673 ∧ energyUnit 10000 = 4294967296 ∧
    reverseLevel 47244640 2 = some 7740 := by decide +kernel

/-- 02, Example: the F value after a start. -/
theorem test_running_value :
    follow 125 0 (2 ^ 41) = 17592186044 ∧ follow 125 17592186044 (2 ^ 41) = 35043634600 ∧
    (convertRunning 13000 17592186044).level = 9398 ∧ (convertRunning 13000 35043634600).level = 9697 := by decide +kernel

/-- 03, Example: one minute number. -/
theorem test_minute_number :
    Calendar.minuteNumber ⟨2024, 3, 15, 14, 30⟩ = 12730470 ∧ calendarOf 12730470 = ⟨2024, 3, 15, 14, 30⟩ ∧
    minuteOfDay 12730470 = 870 ∧ weekday 12730470 = 4 := by decide +kernel

/-- 06, Example: rating a short period, its second minute. -/
theorem test_rating :
    Rules.rate ⟨7500, 7800, true, 1500, 500, 1500, 300, 1000⟩ 7500 9240 8400 = ⟨true, false, 500, 8000⟩ := by decide +kernel

/-- The account of that example after its fourth minute. -/
def shortPeriod : Period :=
  ⟨.entry 7, 0, ⟨7500, 7800, true, 1500, 500, 1500, 300, 1000⟩, 12730440, some 12730443, 60, 4, 4, 1, 0, 1, 0, 55834574, 26466780,
    some 8000, some 9240, ((((Vector.replicate 240 0).set 100 2).set 101 5).set 110 10).set 130 3⟩

/-- 06, Examples: rating a short period (its figures) and percentiles (the histogram put into that account). -/
theorem test_period_figures :
    shortPeriod.lr = some 7512 ∧ shortPeriod.laeq = some 7188 ∧ shortPeriod.verdict 75 = .breach ∧
    shortPeriod.sustainable = .level 7499 ∧ ({ shortPeriod with elapsed := 5 }).sustainable = .level 7507 ∧
    shortPeriod.percentile 10 = some 8500 ∧ shortPeriod.percentile 50 = some 7500 ∧ shortPeriod.percentile 90 = some 7050 := by decide +kernel

/-- 04, Examples: coverage past midnight, and the overlaps of the five-entry schedule. -/
theorem test_coverage :
    let e4 : Entry := { Entry.factory with days := 0x20, start := 480, stop := 780 }
    let e5 : Entry := { Entry.factory with channels := 8, days := 0x1F, start := 1320, stop := 360 }
    let e6 (m : ChannelMask) (a b : Nat) : Entry := { Entry.factory with channels := m, days := 0x20, start := a, stop := b }
    e5.covers .ch3 12731160 = true ∧ e5.covers .ch3 12730470 = false ∧ e4.covers .ch1 12731160 = false ∧
    e4.overlaps e5 = false ∧ (e6 1 720 840).overlaps e4 = true ∧ (e6 8 300 480).overlaps e5 = true ∧
    (e6 8 360 480).overlaps e5 = false ∧ (e6 8 360 480).overlaps e4 = false := by decide +kernel

/-- 08, Example: an event that falls: the figures of its close. -/
theorem test_event_figures :
    let e : OpenEvent := ⟨40, 5, 6000 * 2 ^ 46 * 32 / 10 ^ 7, 8200, 8, 0, 13⟩
    e.laeq 14000 = 7806 ∧ e.lae 14000 = 7602 := by decide +kernel

/-- 07, Example: a correction held, then accepted: the figures of the run. -/
theorem test_run_figures :
    let x := CalRun.figures ⟨.ch1, 28, 960000 * 2 ^ 41, 160, some 11495, some 11495, false⟩ 13000 11400
    x.meas = 11495 ∧ x.delta = -95 ∧ x.newFs = 12905 ∧ x.outcome = .pending := by decide +kernel

/-- 11, Example: one port's transactions, on a part whose clock is SET, with the notices of the reset read first. -/
theorem test_transactions :
    let s := after (.readNotices .site (.whole [])) (clockAt 12730470 State.reset)
    let one := after (.setQuietRequest .site (.whole [1])) s
    let second := after (.readChannel .site (.whole [5, 0, 0, 0, 0, 0, 0]) false) one
    let third := after (.setQuietRequest .site (.whole [0, 0])) second
    let fourth := after (.nop .site (.whole [])) third
    (one.port .site).transaction.sent = [0x08, 0] ∧ one.quietLine = true ∧
    (second.port .site).transaction.sent = [0x48, 0, 0x04, 0, 0, 0, 0, 0] ∧ (second.port .site).lastResult = .notFound ∧
    (third.port .site).transaction.sent = [0x48, 0x04, 0] ∧ (third.port .site).lastResult = .frame ∧ third.quietLine = true ∧
    (fourth.port .site).transaction.sent = [0x48] ∧ (fourth.port .site).lastResult = .frame := by decide +kernel

/-- 11, Example: a device reset requested while the store drains, from its step 4 on: the site port's READ HISTORY is abandoned untaken, 0x00
goes out for its rest, the select is ignored until it has risen and fallen again, and the NOP then shows RESET and OK. -/
theorem test_abandoned :
    let s := afterAll [.readHistory .site .fall, .readHistory .site (.bytes [])]
      { State.reset with site := { State.reset.site with lastResult := .range, historyCursor := 3 }, minuteSeq := 3 }
    let t := after (.deviceReset .compliance (.whole [])) s
    let u := after (.readHistory .site (.bytes [8, 0])) t
    let v := afterAll [.readHistory .site .rise, .nop .site .fall, .nop .site (.bytes [0])] u
    (s.port .site).transaction.received = [0x19] ∧ (s.port .site).transaction.sent = [0x81] ∧
    (t.port .compliance).lastResult = .ok ∧ (t.port .site).transaction = ⟨.ignored, [], false, [], [0x81]⟩ ∧ (t.port .site).historyCursor = 0 ∧
    (u.port .site).transaction = ⟨.ignored, [], false, [], [0x81, 0, 0]⟩ ∧ (v.port .site).transaction.sent = [0x81, 0] := by decide +kernel

/-- R160, R161: the status byte and the last result of a transaction are those of its select fall: the QUIET line that the other port raises
within it shows in the next one. -/
theorem test_fixed_at_fall :
    let s := afterAll [.nop .site .fall, .setQuietRequest .compliance (.whole [1]), .nop .site (.bytes [0]), .nop .site .rise] State.reset
    s.quietLine = true ∧ (s.port .site).transaction = .idle [0x81, 0] ∧
    ((after (.nop .site (.whole [])) s).port .site).transaction = .idle [0xC1] := by decide +kernel

/-- R163, R164: a read in pieces is judged at its last parameter byte, and its result goes out at byte 2; a write at its rise. -/
theorem test_pieces :
    let s := afterAll [.readEntry .site .fall, .readEntry .site (.bytes [])] State.reset
    let t := after (.readEntry .site (.bytes [16])) s
    (s.port .site).lastResult = .ok ∧ (t.port .site).lastResult = .notFound ∧
    (after (.readEntry .site (.bytes [0])) t).site.transaction.sent = [0x81, 0, 4] ∧
    (after (.readEntry .site .rise) s).site.lastResult = .frame ∧
    (afterAll [.setQuietRequest .site .fall, .setQuietRequest .site (.bytes []), .setQuietRequest .site (.bytes [1])] State.reset).quietLine = false ∧
    (afterAll [.setQuietRequest .site .fall, .setQuietRequest .site (.bytes []), .setQuietRequest .site (.bytes [1]),
      .setQuietRequest .site .rise] State.reset).quietLine = true := by decide +kernel

/-- R124: a minute close that makes the switch: the pending FS in force, the sequence moved on, the mark clear, the CHANNEL item queued. -/
theorem test_switch :
    let t := after (.frameSliceEnd .ch0 false) switching
    (t.chan .ch0).fs = 13900 ∧ (t.chan .ch0).calSeq = 1 ∧ (t.chan .ch0).uncalibrated = false ∧ (t.chan .ch0).pendingFs = none ∧
    t.store.queue.map StoreWrite.item = [18] ∧ ((t.port .site).notice .cal).flag = true := by decide +kernel

/-- R93 to R95, R98, R109: a minute close that a slice end makes enters the minute, looks one minute ahead and evaluates the quiet condition: a minute
with one VALID slice is elapsed and not accounted, its record has the source, and a source without works raises QUIET. -/
theorem test_close_accounts :
    let p : Period := ⟨.entry 0, 0, Entry.factory.rules, 5, none, 60, 0, 0, 0, 0, 0, 0, 0, 0, none, none, Vector.replicate 240 0⟩
    let t := after (.frameSliceEnd .ch0 false) (onCh0 (fun c => { c with period := some p, day := some ⟨0, 30, 0, 0, false⟩ }) switching)
    ((t.chan .ch0).period.map fun x => (x.elapsed, x.accounted, x.last, x.histogram.toList.sum)) = some (1, 0, some 5, 1) ∧
    (t.chan .ch0).quiet = .noWorks ∧ t.quietLine = true ∧
    (t.minuteRing.map fun r => (r.source, r.minute, r.valid, r.accountable)) = [(some (.entry 0), some 5, 1, false)] := by decide +kernel

/-- R134: a list of 32 records gives up its oldest CLOSED one, here the second, to the event that a slice opens. -/
theorem test_event_room :
    let e : EventClose := ⟨1, 9000, 9000, 8097, none, .fell⟩
    let l : List EventRecord := (List.range 32).map fun n => ⟨n, .ch1, none, 0, false, if n = 0 then none else some e⟩
    let t := after (.frameSliceEnd .ch0 false)
      { onCh0 (fun c => { c with trigger := 14000, continuation := true
                                 engine := { c.engine with slice := { c.engine.slice with greatestF := some (2 ^ 46 - 1) } } }) (running0 .measuring 0 6000) with
        eventList := l, eventSeq := 32 }
    (t.eventList.map (·.sequence)).take 2 = [0, 2] ∧ t.eventList.length = 32 ∧ (t.eventList.getLast?.map (·.continuation)) = some true ∧
    (t.chan .ch0).continuation = false := by decide +kernel

/-- R156: a WRITE COMMISSIONING that installs channels 2 and 3, whose open sources permit no works, names channel 2. -/
theorem test_commissioning_quiet :
    let c : Channel := { Channel.reset with period := some ⟨.entry 0, 0, Entry.factory.rules, 5, none, 60, 0, 0, 0, 0, 0, 0, 0, 0, none, none,
      Vector.replicate 240 0⟩ }
    let t := after (.writeCommissioning .compliance (.whole (({ Commissioning.blank with installed := 12 }).bytes.take 68)))
      { State.reset with channels := ⟨c, .reset, c, c⟩ }
    t.quietLine = true ∧ ((t.port .site).notice .quiet).detail = ⟨.ch2, 1, 3⟩ ∧ (t.chan .ch0).quiet = .none ∧ (t.chan .ch3).quiet = .noWorks := by
  decide +kernel

/-- R77, R84: the boundary into minute 101 makes an APPROVED slot ACTIVE and sets DISPENSATION with its number and serial. -/
theorem test_boundary_slot :
    let c : Channel := { Channel.reset with state := .settling }
    let s : State :=
      { State.reset with
        channels := ⟨c, c, c, c⟩, slots := (Vector.replicate 8 Slot.reset).set 3 ⟨.approved, 9, 1, 101, 110, 8000, 0, true, 1, .none⟩, clock := ⟨true, 100, 60, 60, 0, 0⟩ }
    let t := after .minuteBoundary s
    t.slots[3].state = .active ∧ (t.port .site).notice .dispensation = ⟨true, false, ⟨.ch0, 3, 9⟩⟩ := by decide +kernel

/-- R3, R45, R121, R124: a channel that loses its line closes its waiting minute with the cut slice and makes that close's FS switch; a run ends
FAULT with CAL. -/
theorem test_line_loss :
    let t := stopping.loseChannel .ch0
    let u := State.loseChannel
      (onCh0 (fun c => { c with calRecord := { c.calRecord with outcome := .running, serial := 7 } })
        { running0 (.calibrating .calMeasure .settling) 0 5 with calUnit := ⟨some ⟨.ch0, 7, 0, 0, none, none, false⟩, 7⟩ }) .ch0
    (t.chan .ch0).fs = 13900 ∧ (t.chan .ch0).minuteNo = some 6 ∧ (t.minuteRing.map fun r => (r.missing, r.fs)) = [(1, 14000)] ∧
    t.store.queue.map StoreWrite.item = [18] ∧ (u.chan .ch0).calRecord.outcome = .fault ∧ u.calUnit.run = none ∧
    (u.port .compliance).notice .cal = ⟨true, false, ⟨.ch0, 0, 7⟩⟩ := by decide +kernel

/-- R158, R148: the first notices read after a power-on are CLOCK, STORE and RESET; the read clears them. -/
theorem test_reset_notices :
    let t := after (.readNotices .compliance (.whole [])) State.reset
    (t.port .compliance).transaction.sent = [0x81] ∧
    ((after (.readNotices .compliance (.whole [0, 0, 0])) State.reset).port .compliance).transaction.sent.take 3 = [0x81, 0, 0] ∧
    (State.reset.noticeBytes .site).take 4 = [0x00, 0xD0, 0x00, 0x80] ∧ (t.noticeBytes .compliance).take 4 = [0, 0, 0, 0x80] := by
  decide +kernel

/-- R6, R2: an installed channel started on a LOST line is FAULTED, and one that is not installed is not started; a good frame adds to the run
counter of the LOST line. -/
theorem test_start_and_run :
    let s := after (.startChannels .site (.whole [1])) installed
    (s.chan .ch0).state = .faulted ∧ (s.chan .ch1).state = .off ∧ resultOf (.startChannels .site (.whole [1])) .site State.reset = .absent ∧
    (after (.audioFrame .line0 0 0) { s with line0 := ⟨false, 4798, 3⟩ }).line0 = ⟨false, 4799, 0⟩ := by decide +kernel

/-- R14, R12: the 6000th frame's slice on a MEASURING channel is EXCLUDED with WX high where the weather mask names the channel, and VALID
otherwise. -/
theorem test_slice_class :
    let s := running0 .measuring 0 6000
    (((after (.frameSliceEnd .ch0 true) s).chan .ch0).engine.kept.map KeptSlice.cls) = some .excluded ∧
    (((after (.frameSliceEnd .ch0 false) s).chan .ch0).engine.kept.map KeptSlice.cls) = some .valid := by decide +kernel

/-- R20 to R22: a full-scale impulse through the first A section, worked by hand from its coefficients: 4183017·(2^23 − 1) / 2^22, rounded. -/
theorem test_section :
    (Section.step coeffsA1 .clear (2 ^ 23 - 1)).1.y1 = 8366033 ∧ (Section.step coeffsA1 .clear (2 ^ 23 - 1)).2 = false := by decide +kernel

/-- R50, R52, R44: SET TIME refuses a year past 2099, TRIM CLOCK an UNSET clock; a trim of −30 takes a minute of 30 seconds, 90 at +30. -/
theorem test_clock_commands :
    resultOf (.setTime .compliance (.whole (two 2100 ++ [1, 1, 0, 0, 0]))) .compliance State.reset = .range ∧
    resultOf (.trimClock .compliance (.whole [0])) .compliance State.reset = .clock ∧
    (after (.trimClock .compliance (.whole [0x80])) (clockAt 12730470 State.reset)).clock.length = 30 ∧
    (after (.trimClock .compliance (.whole [0x7F])) (clockAt 12730470 State.reset)).clock.length = 90 := by decide +kernel

/-- R62, R175, R177: a write of entry 1 takes version 1, is queued as item 1, begins its write and completes. -/
theorem test_entry_stored :
    let s := after (.writeEntry .compliance (.whole (1 :: (dayEntry.bytes.drop 1).take 21))) State.reset
    s.entries[1] = { dayEntry with version := 1 } ∧ s.store.queue.map StoreWrite.item = [1] ∧
    let t := after .storeWriteBegin s
    t.store.items.entries[1] = none ∧ (after (.storeWriteEnd true) t).store.items.entries[1] = some { dayEntry with version := 1 } := by
  decide +kernel

/-- R76, R79, R81: a proposal takes slot 0 with serial 0; a decision with another serial is STALE; the approval is the compliance port's. -/
theorem test_dispensation :
    let s := after (.proposeDispensation .site (.whole ([1] ++ four 101 ++ four 110 ++ two 8000 ++ two 0 ++ [1, 7]))) (clockAt 100 State.reset)
    s.slots[0] = ⟨.proposed, 0, 1, 101, 110, 8000, 0, true, 7, .none⟩ ∧ s.proposalSerial = 1 ∧
    resultOf (.approveDispensation .compliance (.whole [0, 1, 0])) .compliance s = .stale ∧
    resultOf (.approveDispensation .site (.whole [0, 0, 0])) .site s = .role ∧
    (after (.approveDispensation .compliance (.whole [0, 0, 0])) s).slots[0].state = .approved := by decide +kernel

/-! ## Part 2. Witnesses: each names a state and operands that meet the hypotheses of a statement, clause by clause -/

/-- States for the witnesses. -/
def held : State := { State.reset with resetN := false }

def unpowered : State := { held with supply := false, resetN := true }

/-- Nothing due, every count one below its end, channel 0 on a LOST line. -/
def beforeTick : State :=
  { onCh0 (fun c => { c with state := .faulted, engine := { c.engine with slice := { c.engine.slice with crystal := 4094 } } }) installed with
    line0 := ⟨false, 4799, 64⟩, line1 := ⟨true, 4800, 66⟩, clock := ⟨false, 0, 59, 60, 32766, 32766⟩ }

/-- A calibration run on channel 0. -/
def inCal (x : Phase) (count frames : Nat) : State :=
  onCh0 (fun c => { c with calRecord := { c.calRecord with outcome := .running, serial := 1, reference := some 9400 } })
    { running0 (.calibrating x .settling) count frames with
      calUnit := if x = .calRecover then ⟨none, 1⟩ else ⟨some ⟨.ch0, 1, 0, 0, none, none, false⟩, 1⟩ }

/-- A pending result on channel 0, with a lapse count. -/
def pendingRes (lapse : Nat) : State :=
  onCh0 (fun c => { c with pendingResult := some ⟨5, 13900, lapse⟩, calRecord := { c.calRecord with outcome := .pending, serial := 5 } }) installed

/-- Channel 0 MEASURING with a complete slice whose one running value converts to 14000, and an event or none. -/
def slicing (trigger : Level) (e : Option OpenEvent) : State :=
  onCh0 (fun c => { c with trigger := trigger, openEvent := e
                           engine := { c.engine with slice := { c.engine.slice with greatestF := some (2 ^ 46 - 1), leastF := some 0 } } })
    (running0 .measuring 0 6000)

def eventAt (tail span : Nat) : OpenEvent := ⟨0, 1, 5, 9000, tail, 0, span⟩

/-- A period under entry 0 and a day account. -/
def entryPeriod : Period :=
  ⟨.entry 0, 0, Entry.factory.rules, 420, none, 60, 0, 0, 0, 0, 0, 0, 0, 0, none, none, Vector.replicate 240 0⟩

def accounting (p : Option Period) (d : Option Day) : State := onCh0 (fun c => { c with period := p, day := d }) installed

/-- A minute of channel 0 that closes, with so many VALID slices. -/
def closing (valid : Nat) : Summary :=
  ⟨.ch0, ⟨some 420, some 421, false⟩, 480, 480 - valid, 0, 0, 0, valid, some 7000, some 7800, some 8500, some 6000, some 7500, 14000, .none,
    true, 0⟩

/-- Four port-originated items wait behind a write in progress. -/
def fullQueue : State :=
  { State.reset with
    store := ⟨{ StoredItems.delivered with header := none }, [.entry 1 .blank, .entry 2 .blank, .entry 3 .blank, .entry 4 .blank], some (.header .factory)⟩ }

/-- Stored: entries 2 and 5 that overlap, item 7 and the four CHANNEL items incomplete, channel 2 installed. -/
def lossy : State :=
  let x := StoredItems.delivered
  { State.reset with
    store := ⟨{ x with
      entries := ((x.entries.set 2 (some dayEntry)).set 5 (some dayEntry)).set 7 none
      commissioning := some { Commissioning.blank with installed := 4 } }, [], none⟩ }

def slotOf (x : SlotState) (a b : Nat) : Slot := ⟨x, 9, 1, a, b, 8000, 0, true, 1, .none⟩

/-- The clock SET at 100, slot 0 in a state from 101 to 110, slot 1 APPROVED from 110 to 120. -/
def slotted (x : SlotState) : State :=
  clockAt 100 { State.reset with slots := ((Vector.replicate 8 Slot.reset).set 0 (slotOf x 101 110)).set 1 (slotOf .approved 110 120) }

/-- The parameters of a proposal for channel 0. -/
def proposal (start stop limit : Nat) : List Byte := [1] ++ four start ++ four stop ++ two limit ++ two 0 ++ [0, 0]

/-- The parameters of WRITE ENTRY at an index. -/
def entryParams (i : Nat) (e : Entry) : List Byte := BitVec.ofNat 8 i :: (e.bytes.drop 1).take 21

def withEntry (e : Entry) : State := { State.reset with entries := deliveredEntries.set 1 e }

/-- One event open on channel 0, its record listed. -/
def oneEvent : State :=
  onCh0 (fun c => { c with openEvent := some (eventAt 0 1) }) { installed with eventList := [⟨0, .ch0, none, 3, false, none⟩], eventSeq := 1 }

/-- One minute record and one period record held. -/
def oneRecord : State :=
  { installed with
    minuteRing := [minuteRecord 0 (closing 480) ((installed.chan .ch0).enterMinute (closing 480) 5)], minuteSeq := 1
    periodList := [periodRecord 0 .ch0 entryPeriod .day 75], periodSeq := 1 }

/-- 1792 minute records held; the site port has read one of them. -/
def longHistory : State :=
  { State.reset with
    minuteRing := (List.range 1792).map fun n => minuteRecord n (closing 480) ((installed.chan .ch0).enterMinute (closing 480) 5)
    minuteSeq := 1792, site := { State.reset.site with historyCursor := 1 } }

/-- R131, R133, R134: a STOP CHANNELS that closes channel 0's event completes its record alone and keeps the other, and a slice that is not VALID leaves the
sections and the running values. -/
theorem test_close_keeps :
    let closed : EventRecord := ⟨0, .ch1, none, 0, false, some ⟨1, 9000, 9000, 8097, none, .fell⟩⟩
    let s := onCh0 (fun c => { c with openEvent := some { eventAt 0 1 with sequence := 1 }, engine := { c.engine with f := 77, s := 78 } })
      { running0 .settling 0 6000 with eventList := [closed, ⟨1, .ch0, none, 3, false, none⟩], eventSeq := 2 }
    let t := after (.stopChannels .compliance (.whole [1])) s
    let u := after (.frameSliceEnd .ch0 false) s
    t.eventList.head? = some closed ∧ (t.eventList.map fun r => (r.sequence, r.closed.map (·.cause))) = [(0, some .fell), (1, some .interrupted)] ∧
    t.eventSeq = 2 ∧ ((u.chan .ch0).engine.f, (u.chan .ch0).engine.s) = (77, 78) ∧ (u.chan .ch0).engine.filters = (s.chan .ch0).engine.filters ∧
    u.calUnit = s.calUnit := by decide +kernel

/-- R42, R50, R122: a SET TIME half a second on sets the prescaler and not elapsed clock time, which ticks at its own half second; the
prescaler's wrap that follows counts a second and no tick. -/
theorem test_elapsed_time :
    let c : Channel := { Channel.reset with state := .settling, pendingResult := some ⟨5, 13900, 7⟩ }
    let s : State := { State.reset with channels := ⟨c, c, c, c⟩, clock := ⟨false, 0, 3, 60, 16384, 16384⟩ }
    let t := after (.setTime .compliance (.whole (two 2024 ++ [1, 1, 0, 0, 20]))) s
    let u : State := { t with clock := { t.clock with prescaler := 16383, elapsed := 32767 } }.crystalPeriod
    let v : State := { u with clock := { u.clock with prescaler := 32767, elapsed := 16383 } }.crystalPeriod
    let lapse (s : State) := (s.chan .ch0).pendingResult.map (·.lapse)
    (t.clock.prescaler, t.clock.elapsed, lapse t) = (0, 16384, some 7) ∧
    (u.clock.seconds, u.clock.prescaler, u.clock.elapsed, lapse u) = (20, 16384, 0, some 8) ∧
    (v.clock.seconds, v.clock.prescaler, v.clock.elapsed, lapse v) = (21, 0, 16384, some 8) ∧
    lapse (after .secondTick s) = some 8 ∧ (after .secondTick s).clock.elapsed = 0 := by decide +kernel

theorem witness_StepRunsFront : ({ State.reset with pending := [.secondTick] } : State).pending = .secondTick :: [] := rfl

/-- Nothing due, with a second, a tick of elapsed clock time apart from it, a line loss and a crystal-timed slice end one period away, each and none. -/
theorem witness_CrystalPeriodCounts :
    beforeTick.pending = [] ∧ beforeTick.settled = true ∧ beforeTick.running = true ∧
    32767 ≤ ({ beforeTick with clock := ⟨false, 0, 59, 60, 32767, 32767⟩ } : State).clock.prescaler ∧
    (let apart : State := { beforeTick with clock := ⟨false, 0, 59, 60, 5, 32767⟩ }
     apart.settled = true ∧ 32767 ≤ apart.clock.elapsed ∧ apart.clock.prescaler < 32767) ∧
    32768 ≤ ({ beforeTick with clock := ⟨false, 0, 59, 60, 6, 32768⟩ } : State).clock.elapsed ∧
    (({ beforeTick with line0 := ⟨false, 0, 65⟩ } : State).rx .line0).pause = 65 ∧
    ((onCh0 (fun c => { c with engine := { c.engine with slice := { c.engine.slice with crystal := 4095 } } }) beforeTick).settled = true) ∧
    (beforeTick.chan .ch0).state ≠ .off ∧ (beforeTick.rx Ch.ch0.line).present = false := by decide +kernel

/-- Nothing due; each due kind at the count that makes it due and one short of it; a store that is idle with a queue
and one that is not. -/
theorem witness_SettledStays :
    beforeTick.settled = true ∧ State.reset.settled = true ∧
    (running0 .measuring 0 5999).isDue (.slice .ch0) = false ∧ (running0 .measuring 0 6000).isDue (.slice .ch0) = true ∧
    (running0 .off 0 6000).isDue (.slice .ch0) = false ∧ ({ running0 .faulted 0 6000 with line0 := ⟨false, 4799, 0⟩ } : State).dueSteps = [] ∧
    beforeTick.isDue (.restored .line0) = false ∧ ({ beforeTick with line0 := ⟨false, 4800, 64⟩ } : State).isDue (.restored .line0) = true ∧
    (pendingRes 599).isDue (.lapse .ch0) = false ∧ (pendingRes 600).isDue (.lapse .ch0) = true ∧
    beforeTick.isDue .boundary = false ∧ ({ beforeTick with clock := ⟨false, 0, 60, 60, 0, 0⟩ } : State).isDue .boundary = true ∧
    ({ fullQueue with store := ⟨.delivered, fullQueue.store.queue, none⟩ } : State).settled = false ∧ fullQueue.settled = true := by decide +kernel

theorem witness_SettledStays_lost :
    ∀ ch : Ch, (beforeTick.rx ch.line).present = false → (beforeTick.chan ch).state = .off ∨ (beforeTick.chan ch).state = .faulted :=
  fun ch => by cases ch <;> decide +kernel

/-- R11, R122, R177: a due slice end, a due lapse and the beginning of a store write are taken before a command is judged. -/
theorem test_due_work_done :
    (((running0 .measuring 0 6000).settle.chan .ch0).engine.slice.frames, ((running0 .measuring 0 6000).settle.chan .ch0).engine.minute.valid) = (0, 1) ∧
    ((pendingRes 600).settle.chan .ch0).pendingResult = none ∧ ((pendingRes 599).settle.chan .ch0).pendingResult ≠ none ∧
    ({ fullQueue with store := ⟨.delivered, fullQueue.store.queue, none⟩ } : State).settle.store.writing = some (.entry 1 .blank) := by decide +kernel

theorem witness_TransactionsDecode :
    (Instr.unknownCommandCode .site 0xFF (.whole [1])).wf = true ∧ (Instr.unknownCommandCode .site 0xFF (.whole [1])).port? = some .site ∧
    encodeTransaction (.unknownCommandCode .site 0xFF (.whole [1])) = some [0xFF, 1] ∧ (Instr.readLive .compliance (.whole []) true).wf = true ∧
    (Instr.readLive .compliance (.whole []) true).port? = some .compliance ∧ encodeTransaction (.readLive .compliance (.whole []) true) = some [0x10] ∧
    ([0x00] : List Byte) ≠ [] := by decide +kernel

/-- One byte too few, one too many, the wrong port at the right length, and a read one byte short. -/
theorem witness_FormsRefused :
    State.reset.running = true ∧ (Instr.seek .site (.whole [0, 0, 0, 0, 0])).writeForm = some (6, .either) ∧
    (Instr.portReset .site (.whole [0])).writeForm = some (0, .either) ∧ (Instr.stopChannels .site (.whole [0])).writeForm = some (1, .complianceOnly) ∧
    Role.allows .complianceOnly .site = false ∧ (Instr.proposeDispensation .compliance (.whole (proposal 1 2 3))).writeForm = some (15, .siteOnly) ∧
    (proposal 1 2 3).length = 15 ∧ Role.allows .siteOnly .compliance = false ∧ (Instr.readHistogram .site (.whole [0, 0])).readForm = some 3 := by
  decide +kernel

theorem witness_RefusedChangesNothing :
    State.reset.running = true ∧ (Instr.seek .site (.whole [])).port? = some .site ∧
    ∃ t, exec (.seek .site (.whole [])) State.reset = .next t ∧ (t.port .site).lastResult ≠ .ok :=
  ⟨rfl, rfl, _, rfl, by decide +kernel⟩

/-- A held part with and without the supply; a select high, ignored, low with nothing received, with a read's code, with all of a read. -/
theorem witness_TransactionsInPieces :
    let low (l : List Byte) : State := { State.reset with site := { State.reset.site with transaction := ⟨.low, l, false, [0, 0], []⟩ } }
    held.running = false ∧ held.supply = true ∧ unpowered.running = false ∧ unpowered.supply = false ∧ State.reset.running = true ∧
    (State.reset.settle.port .site).transaction.select = .high ∧
    (({ State.reset with site := { State.reset.site with transaction := ⟨.ignored, [], false, [], []⟩ } } : State).settle.port .site).transaction.select = .ignored ∧
    ((low []).settle.port .site).transaction.select = .low ∧ ((low []).settle.port .site).transaction.received = [] ∧
    ((low [0x11]).settle.port .site).transaction.received.head? = some 0x11 ∧ ((low [0x11]).settle.port .site).transaction.received.length ≤ 1 ∧
    1 < ((low [0x11]).settle.port .site).transaction.received.length + [(5 : Byte)].length ∧
    1 < ((low [0x11, 5]).settle.port .site).transaction.received.length ∧
    (decodeCommand .site false false 0x11 (.whole [5])).readForm = some 1 ∧ (decodeCommand .site false false 0x20 (.whole [])).readForm = none := by
  decide +kernel

theorem witness_OtherPortKept :
    (Instr.nop .site (.whole [])).port? = some .site ∧ (∀ q x, Instr.nop .site (.whole []) ≠ .deviceReset q x) ∧
    ∃ t, exec (.nop .site (.whole [])) State.reset = .next t :=
  ⟨rfl, (fun _ _ h => by cases h), _, rfl⟩

theorem witness_SitePortSparesPermits :
    (Instr.deviceReset .site (.whole [])).port? = some .site ∧ (∃ t, exec (.deviceReset .site (.whole [])) (slotted .active) = .next t) ∧
    (slotted .active).slots[0].granted = true :=
  ⟨rfl, ⟨_, rfl⟩, by decide +kernel⟩

theorem witness_running : State.reset.running = true ∧ installed.running = true ∧ fullQueue.running = true := by decide +kernel

/-- NopAndUnknown, PlainReads, ChannelSettings and PortResets ask only for a running part (and the length). NumberedReads, at both ends. -/
theorem witness_NumberedReads :
    State.reset.running = true ∧ Ch.ch3.index = ([3] : List Byte).head!.toNat ∧ 3 < (([4] : List Byte).getD 0 0).toNat ∧
    15 < (([16] : List Byte).getD 0 0).toNat ∧ (15 : Fin 16).val = (([15] : List Byte).getD 0 0).toNat ∧
    7 < (([8] : List Byte).getD 0 0).toNat ∧ (7 : Fin 8).val = (([7] : List Byte).getD 0 0).toNat ∧
    1 ≤ ([3] : List Byte).length ∧ 3 ≤ ([3, 239, 255] : List Byte).length := by decide +kernel

theorem witness_ResponsesLaidOut : 1 ≤ 240 ∧ 0 + 240 ≤ 240 ∧ 239 + 1 ≤ 240 := by decide

theorem witness_ImagesReadBack :
    Entry.factory.inRange = true ∧ ({ Entry.factory with limit := 12000, trigger := 14000, start := 1439, stop := 1439 }).inRange = true ∧
    (slotOf .active 101 (2 ^ 32 - 1)).start < 2 ^ 32 ∧ (slotOf .active 101 (2 ^ 32 - 1)).stop < 2 ^ 32 ∧
    limitInRange (slotOf .active 101 102).limit = true ∧ triggerInRange (slotOf .active 101 102).trigger = true := by decide +kernel

theorem witness_CollectionsRead :
    oneRecord.running = true ∧ 1 ≤ ([255] : List Byte).length ∧ oneRecord.settle = oneRecord ∧ oneRecord.HistoryOk :=
  ⟨rfl, by decide, by decide +kernel, by decide +kernel, by decide +kernel⟩

theorem witness_EventsRead : oneEvent.running = true ∧ 1 ≤ ([0] : List Byte).length ∧ oneEvent.settle = oneEvent ∧ oneEvent.EventsOk := by
  refine ⟨rfl, by decide, by decide +kernel, by decide +kernel, by decide +kernel, by decide +kernel, ?_, ?_⟩
  · intro r hr _
    rw [List.mem_singleton.mp hr]
    exact ⟨_, rfl, rfl⟩
  · intro ch e h
    cases ch
    · cases h
      exact ⟨_, List.mem_singleton.mpr rfl, rfl, rfl, rfl⟩
    all_goals cases h

/-- SEEK: a collection and a position too high, each collection, each position, and the move that raises the lag to 1792. -/
theorem witness_SeekMovesCursor :
    let lag := longHistory
    lag.running = true ∧ ([0, 0, 0, 0, 0, 0] : List Byte).length = 6 ∧ 2 < (([3] : List Byte).getD 0 0).toNat ∧
    2 < (([0, 3] : List Byte).getD 1 0).toNat ∧ (([0, 2] : List Byte).getD 1 0).toNat ≤ 2 ∧ (([1, 0] : List Byte).getD 0 0).toNat = 1 ∧
    (([2, 1] : List Byte).getD 0 0).toNat = 2 ∧ lag.settle.minuteSeq - (lag.settle.port .site).historyCursor < 1792 ∧
    1792 ≤ lag.settle.minuteSeq - lag.settle.historyOldest := by decide +kernel

theorem witness_ChannelsStart :
    State.reset.running = true ∧ ([1] : List Byte).length = 1 ∧ maskHas (maskAt [1] 0) .ch0 = true ∧
    maskHas State.reset.settle.commissioning.installed .ch0 = false ∧
    (∀ ch, maskHas (maskAt [15] 0) ch = true → maskHas installed.settle.commissioning.installed ch = true) ∧
    (installed.settle.chan .ch0).state = .off ∧ (installed.settle.rx Ch.ch0.line).present = false ∧
    ∀ ch : Ch, (({ installed with line0 := ⟨true, 4800, 0⟩, line1 := ⟨true, 4800, 0⟩ } : State).settle.rx ch.line).present = true :=
  ⟨rfl, rfl, by decide, by decide +kernel, fun ch _ => by cases ch <;> decide +kernel, by decide +kernel, by decide +kernel,
    fun ch => by cases ch <;> decide +kernel⟩

/-- A channel to stop with no close waiting, one with a close waiting, one with a run, one with an event. -/
theorem witness_ChannelsStop :
    let w : State := onCh0 (fun c => { c with waiting := some ⟨⟨some 5, some 6, false⟩, false⟩ }) (running0 .measuring 0 5999)
    w.running = true ∧ ([1] : List Byte).length = 1 ∧ maskHas (maskAt [1] 0) .ch0 = true ∧ (w.settle.chan .ch0).state ≠ .off ∧
    (w.settle.chan .ch0).waiting = some ⟨⟨some 5, some 6, false⟩, false⟩ ∧ ((running0 .measuring 0 5999).settle.chan .ch0).waiting = none ∧
    ((inCal .calSettle 0 0).settle.chan .ch0).state ≠ .off ∧ (inCal .calSettle 0 0).settle.calUnit.run.isSome = true ∧
    (stopping.settle.chan .ch0).waiting = some ⟨⟨some 5, some 6, false⟩, true⟩ ∧ (stopping.settle.chan .ch0).pendingFs = some 13900 ∧
    (stopping.settle.chan .ch0).state = .measuring ∧
    ((onCh0 (fun c => { c with state := .measuring }) oneEvent).settle.chan .ch0).openEvent = some (eventAt 0 1) := by decide +kernel

theorem witness_ChannelSettings : State.reset.running = true ∧ ([15, 255] : List Byte).length = 2 ∧ (15 :: two 3999 ++ two 1001 : List Byte).length = 5 := by
  decide +kernel

theorem witness_FramesTaken :
    (running0 .measuring 0 5998).running = true ∧ ((running0 .measuring 0 5998).settle.rx .line0).present = true ∧
    ((running0 .measuring 0 5998).settle.rx .line1).present = false ∧ Ch.ch0.line = .line0 ∧
    ((running0 .measuring 0 5998).settle.chan .ch0).state ≠ .off ∧ ((running0 .measuring 0 5998).settle.chan .ch1).state = .off := by
  decide +kernel

theorem witness_BlocksEnd :
    let at' (n : Nat) : State := onCh0 (fun c => { c with engine := { c.engine with slice := { c.engine.slice with blockCount := n } } }) installed
    ((at' 47).chan .ch0).engine.slice.blockCount < 48 ∧ 48 ≤ ((at' 48).chan .ch0).engine.slice.blockCount := by decide +kernel

theorem witness_FrameSlicesEnd :
    (running0 .measuring 0 6000).running = true ∧ ((running0 .measuring 0 6000).chan .ch0).state = .measuring ∧
    ((running0 .measuring 0 6000).rx Ch.ch0.line).present = true ∧ 6000 ≤ ((running0 .measuring 0 6000).chan .ch0).engine.slice.frames ∧
    ((running0 .measuring 0 5999).chan .ch0).engine.slice.frames < 6000 ∧ (switching.chan .ch0).waiting = some ⟨⟨some 5, some 6, false⟩, true⟩ ∧
    switching.runningOn .ch0 = false ∧ (switching.chan .ch0).pendingFs = some 13900 ∧ ((running0 .settling 0 6000).chan .ch0).state = .settling ∧
    ((inCal .calRecover 0 6000).chan .ch0).state = .calibrating .calRecover .settling ∧
    ((inCal .calMeasure 0 6000).chan .ch0).state = .calibrating .calMeasure .settling ∧ held.running = false := by decide +kernel

theorem witness_CrystalSlicesEnd :
    let s := onCh0 (fun c => { c with openEvent := some (eventAt 0 1) }) beforeTick
    s.running = true ∧ (s.settle.chan .ch0).state = .faulted ∧ (s.settle.rx Ch.ch0.line).present = false ∧
    (s.settle.chan .ch0).openEvent = some (eventAt 0 1) ∧ (s.settle.chan .ch1).state = .off ∧
    ((running0 .measuring 0 0).settle.rx Ch.ch0.line).present = true := by decide +kernel

/-- A line lost under a running channel and under a run, a LOST line, and the restoration at a run of 4800 and one short of it. -/
theorem witness_LinesLostAndRestored :
    (running0 .measuring 0 5).running = true ∧ ((running0 .measuring 0 5).settle.rx .line0).present = true ∧
    ((running0 .measuring 0 5).settle.rx .line1).present = false ∧ ((running0 .measuring 0 5).settle.chan .ch0).state = .measuring ∧
    (inCal .calMeasure 0 5).settle.runningOn .ch0 = true ∧ ((running0 .measuring 0 5).settle.chan .ch0).waiting = none ∧
    (stopping.settle.rx .line0).present = true ∧ (stopping.settle.chan .ch0).waiting = some ⟨⟨some 5, some 6, false⟩, true⟩ ∧
    (stopping.settle.chan .ch0).pendingFs = some 13900 ∧ stopping.settle.runningOn .ch0 = false ∧
    held.running = false ∧ (beforeTick.rx .line0).run < 4800 ∧ (beforeTick.chan .ch0).state = .faulted ∧
    (({ beforeTick with line0 := ⟨false, 4800, 0⟩ } : State).rx .line0).present = false ∧
    4800 ≤ (({ beforeTick with line0 := ⟨false, 4800, 0⟩ } : State).rx .line0).run := by decide +kernel

/-- A slice end that completes a run, one that does not, and one without a run. -/
theorem witness_completesRun :
    (inCal .calMeasure 159 6000).completesRun .ch0 ∧ ¬ (inCal .calMeasure 158 6000).completesRun .ch0 ∧
    ¬ (running0 .measuring 0 6000).completesRun .ch0 :=
  ⟨⟨⟨.settling, rfl⟩, by decide +kernel, by decide +kernel⟩, fun h => absurd h.2.1 (by decide +kernel), fun h => absurd h.2.1 (by decide +kernel)⟩

theorem witness_PhasesComplete :
    (running0 .settling 15 6000).running = true ∧ ((running0 .settling 15 6000).rx Ch.ch0.line).present = true ∧
    6000 ≤ ((running0 .settling 15 6000).chan .ch0).engine.slice.frames ∧ ((running0 .settling 15 6000).chan .ch0).state = .settling ∧
    15 ≤ ((running0 .settling 15 6000).chan .ch0).settle ∧ ((running0 .settling 14 6000).chan .ch0).settle < 15 ∧
    ((inCal .calSettle 39 6000).chan .ch0).state = .calibrating .calSettle .settling ∧ 39 ≤ ((inCal .calSettle 39 6000).chan .ch0).settle ∧
    ((inCal .calSettle 38 6000).chan .ch0).settle < 39 ∧ ((inCal .calRecover 15 6000).chan .ch0).state = .calibrating .calRecover .settling ∧
    15 ≤ ((inCal .calRecover 15 6000).chan .ch0).settle ∧ ((inCal .calRecover 14 6000).chan .ch0).settle < 15 ∧
    ((running0 (.calibrating .calRecover .off) 15 6000).chan .ch0).state = .calibrating .calRecover .off := by decide +kernel

theorem witness_RunsComplete :
    let s := inCal .calMeasure 159 6000
    s.running = true ∧ (s.rx Ch.ch0.line).present = true ∧ 6000 ≤ (s.chan .ch0).engine.slice.frames ∧
    (s.chan .ch0).state = .calibrating .calMeasure .settling ∧ s.calUnit.run = some ⟨.ch0, 1, 0, 0, none, none, false⟩ ∧
    (s.chan .ch0).calRecord.reference = some 9400 ∧ (s.chan .ch0).waiting = none ∧ 159 ≤ (s.chan .ch0).settle ∧
    ((inCal .calMeasure 158 6000).chan .ch0).settle < 159 ∧
    ((onCh0 (fun c => { c with waiting := some ⟨⟨some 5, some 6, false⟩, false⟩ }) s).chan .ch0).waiting = some ⟨⟨some 5, some 6, false⟩, false⟩ := by decide +kernel

/-- CALIBRATE: an unknown channel, one not installed, one barred, references one outside and at the range, the unit busy, a run and a pending
result. -/
theorem witness_CalibrateStartsRun :
    State.reset.running = true ∧ (0 :: two 8000 : List Byte).length = 3 ∧ 3 < ((4 :: two 8000 : List Byte).getD 0 0).toNat ∧
    Ch.ch0.index = ((0 :: two 8000 : List Byte).getD 0 0).toNat ∧ maskHas State.reset.settle.commissioning.installed .ch0 = false ∧
    maskHas installed.settle.commissioning.installed .ch0 = true ∧ (installed.settle.chan .ch0).state = .off ∧
    (installed.settle.rx Ch.ch0.line).present = false ∧ levelAt (0 :: two 7999) 1 < 8000 ∧ 8000 ≤ levelAt (0 :: two 8000) 1 ∧
    levelAt (0 :: two 13000) 1 ≤ 13000 ∧ 13000 < levelAt (0 :: two 13001) 1 ∧ ((running0 .measuring 0 0).settle.chan .ch0).state = .measuring ∧
    ((running0 .measuring 0 0).settle.chan .ch0).pendingFs = none ∧ (running0 .measuring 0 0).settle.calUnit.run = none ∧
    (inCal .calSettle 0 0).settle.calUnit.run ≠ none ∧ maskHas (inCal .calSettle 0 0).settle.commissioning.installed .ch2 = true ∧
    ((onCh0 (fun c => { c with state := .measuring }) (pendingRes 0)).settle.chan .ch0).pendingResult = some ⟨5, 13900, 0⟩ := by decide +kernel

/-- The unit busy on channel 0 while channel 1, MEASURING, is asked for. -/
theorem witness_CalibrateBusy :
    let s := (inCal .calSettle 0 0).setChan .ch1 { Channel.reset with state := .measuring }
    (s.settle.chan .ch1).state = .measuring ∧ (s.settle.chan .ch1).pendingFs = none ∧ s.settle.calUnit.run ≠ none ∧
    maskHas s.settle.commissioning.installed .ch1 = true := by decide +kernel

theorem witness_RunsAborted :
    (inCal .calSettle 0 0).running = true ∧ ([0] : List Byte).length = 1 ∧ 3 < (([4] : List Byte).getD 0 0).toNat ∧
    Ch.ch0.index = (([0] : List Byte).getD 0 0).toNat ∧ State.reset.settle.calUnit.run = none ∧
    (inCal .calSettle 0 0).settle.calUnit.run = some ⟨.ch0, 1, 0, 0, none, none, false⟩ ∧
    ((inCal .calSettle 0 0).settle.chan .ch0).state = .calibrating .calSettle .settling := by decide +kernel

theorem witness_ResultsDecided :
    (pendingRes 0).running = true ∧ ([0, 5, 0] : List Byte).length = 3 ∧ 3 < (([4, 5, 0] : List Byte).getD 0 0).toNat ∧
    Ch.ch0.index = (([0, 5, 0] : List Byte).getD 0 0).toNat ∧ ((pendingRes 0).settle.chan .ch0).calRecord.serial ≠ word16At [0, 4, 0] 1 ∧
    ((pendingRes 0).settle.chan .ch0).calRecord.serial = word16At [0, 5, 0] 1 ∧
    ((pendingRes 0).settle.chan .ch0).pendingResult = some ⟨5, 13900, 0⟩ ∧
    (State.reset.settle.chan .ch0).calRecord.serial = word16At [0, 0, 0] 1 ∧ (State.reset.settle.chan .ch0).pendingResult = none := by
  decide +kernel

theorem witness_SecondsAndLapses :
    ((pendingRes 600).chan .ch0).pendingResult = some ⟨5, 13900, 600⟩ ∧ ((pendingRes 599).chan .ch0).pendingResult = some ⟨5, 13900, 599⟩ ∧
    (State.reset.chan .ch0).pendingResult = none ∧ State.reset.settle.clock.elapsed = State.reset.settle.clock.prescaler ∧
    Instr.blockEnd .ch0 ≠ .secondTick := by decide +kernel

/-- A VALID slice one below the trigger and at it; one below the release level and at it; the eighth tail slice, the 28800th slice, neither. -/
theorem witness_EventsOpenAndClose :
    let none' := slicing 14000 none
    none'.running = true ∧ (none'.rx Ch.ch0.line).present = true ∧ 6000 ≤ (none'.chan .ch0).engine.slice.frames ∧
    (none'.chan .ch0).state = .measuring ∧ (none'.nextResult .ch0 false).cls = .valid ∧ (none'.nextResult .ch0 false).lafmax = some 14000 ∧
    (none'.chan .ch0).openEvent = none ∧ ((slicing 14001 none).nextResult .ch0 false).lafmax = some 14000 ∧
    ((slicing 14301 (some (eventAt 7 9))).nextResult .ch0 false).lafmax = some 14000 ∧
    ¬ ((slicing 14301 (some (eventAt 7 9))).chan .ch0).trigger - ((slicing 14301 (some (eventAt 7 9))).chan .ch0).hysteresis ≤ 14000 ∧
    ((slicing 14300 (some (eventAt 7 28799))).chan .ch0).trigger - ((slicing 14300 none).chan .ch0).hysteresis ≤ 14000 ∧
    ((slicing 14300 (some (eventAt 7 28799))).chan .ch0).openEvent = some (eventAt 7 28799) ∧
    ((slicing 14300 (some (eventAt 7 28798))).chan .ch0).openEvent = some (eventAt 7 28798) ∧
    (let closed : EventRecord := ⟨0, .ch1, none, 0, false, some ⟨1, 9000, 9000, 8097, none, .fell⟩⟩
     let full : State := { none' with eventList := List.replicate 31 { closed with closed := none } ++ closed :: [], eventSeq := 32 }
     none'.eventList.length < 32 ∧ 32 ≤ full.eventList.length ∧ closed.closed ≠ none ∧
     ∀ x ∈ List.replicate 31 { closed with closed := none }, x.closed = none) := by decide +kernel

theorem witness_CalendarInverse :
    Calendar.valid ⟨2000, 2, 29, 0, 0⟩ 0 = true ∧ Calendar.valid ⟨2099, 12, 31, 23, 59⟩ 59 = true := by decide +kernel

/-- A minute one second short of its end and at its end, running and held; trims short of and past the seconds; valid and invalid times. -/
theorem witness_BoundariesComeAbout :
    let at' (n : Nat) (s : State) : State := { s with clock := ⟨true, 7, n, 60, 0, 0⟩ }
    (at' 59 State.reset).clock.seconds < (at' 59 State.reset).clock.length ∧ (at' 60 State.reset).clock.length ≤ (at' 60 State.reset).clock.seconds ∧
    (at' 60 held).running = false ∧ (at' 60 State.reset).running = true ∧ ([0x1E] : List Byte).length = 1 ∧ State.reset.settle.clock.set = false ∧
    (at' 30 State.reset).settle.clock.set = true ∧ (at' 30 State.reset).settle.clock.seconds < (60 + max (-30) (min 30 (s8At [0xE3] 0))).toNat ∧
    (60 + max (-30) (min 30 (s8At [0x80] 0))).toNat ≤ (at' 30 State.reset).settle.clock.seconds ∧
    (∃ i : Fin 8, ((slotted .approved).moveSlots (some 101)).slots[i] ≠ (slotted .approved).slots[i]) ∧
    (∀ i : Fin 8, (State.reset.moveSlots (some 101)).slots[i] = State.reset.slots[i]) ∧
    (two 2099 ++ [12, 31, 23, 59, 59] : List Byte).length = 7 ∧ u16At (two 2099 ++ [12, 31, 23, 59, 59]) 0 ≤ 2099 ∧
    u8At (two 2000 ++ [1, 1, 0, 0, 60]) 6 = 60 := by decide +kernel

/-- A boundary that makes a switch on an OFF channel, on one whose waiting close makes it, and on none. -/
theorem witness_switchAt :
    (onCh0 (fun c => { c with pendingFs := some 13900 }) State.reset).switchAt .ch0 13900 ∧ switching.switchAt .ch0 13900 ∧
    ∀ ch fs, ¬ State.reset.switchAt ch fs :=
  ⟨⟨rfl, .inl rfl⟩, ⟨rfl, .inr ⟨_, rfl, rfl⟩⟩, fun ch fs h => by cases ch <;> cases h.1⟩

/-- The checks of WRITE ENTRY and DELETE ENTRY at their edges. -/
theorem witness_EntriesWritten :
    State.reset.running = true ∧ (entryParams 1 dayEntry).length = 22 ∧ 15 < ((entryParams 16 dayEntry).getD 0 0).toNat ∧
    (15 : Fin 16).val = ((entryParams 15 dayEntry).getD 0 0).toNat ∧ (1 : Fin 16).val < ({ State.reset with protection := ⟨2, .openMode⟩ } : State).settle.protection.extent ∧
    State.reset.settle.protection.extent ≤ (1 : Fin 16).val ∧ (entryImage (entryParams 1 { dayEntry with limit := 12001 }) 1).inRange = false ∧
    (entryImage (entryParams 1 { dayEntry with limit := 12000 }) 1).inRange = true ∧ (withEntry dayEntry).settle.entries[1].present = true ∧
    (entryImage (entryParams 2 dayEntry) 1).covers .ch0 420 = true ∧ (withEntry dayEntry).settle.entries[1].covers .ch0 420 = true ∧
    (∀ j : Fin 16, j ≠ 0 → State.reset.settle.entries[j].present = false) ∧ ¬ fullQueue.settle.store.canTake 5 = true ∧
    fullQueue.settle.store.canTake 4 = true ∧ State.reset.settle.store.canTake 1 = true ∧ ([1] : List Byte).length = 1 := by decide +kernel

/-- The queue is full for an item that is not pending, and not for one that is. -/
theorem witness_full : fullQueue.settle.store.full 5 ∧ fullQueue.settle.store.full 16 ∧ fullQueue.settle.store.full 22 ∧
    ¬ fullQueue.settle.store.full 4 ∧ ¬ State.reset.settle.store.full 16 := by
  refine ⟨⟨by decide +kernel, by decide +kernel⟩, ⟨by decide +kernel, by decide +kernel⟩, ⟨by decide +kernel, by decide +kernel⟩, ?_, ?_⟩
  · exact fun h => h.1 (.entry 4 .blank) (by decide +kernel) rfl
  · exact fun h => absurd h.2 (by decide +kernel)

theorem witness_HeaderAndProtection :
    State.reset.running = true ∧ (two 1439 ++ two 600 ++ two 600 ++ two 100 : List Byte).length = 8 ∧
    u16At (two 1439 ++ two 600 ++ two 600 ++ two 100) 0 ≤ 1439 ∧ ¬ u16At (two 1440) 0 ≤ 1439 ∧ u16At (two 1439 ++ two 600 ++ two 600 ++ two 100) 6 ≤ 100 ∧
    0 < ({ State.reset with protection := ⟨1, .openMode⟩ } : State).settle.protection.extent ∧ State.reset.settle.protection.extent = 0 ∧
    ({ State.reset with protection := ⟨0, .fixed⟩ } : State).settle.protection.mode = .fixed ∧
    ({ State.reset with protection := ⟨0, .line⟩ } : State).settle.protection.mode = .line ∧ State.reset.settle.protection.mode = .openMode ∧
    (([16, 2] : List Byte).getD 0 0).toNat ≤ 16 ∧ ¬ (([17, 0] : List Byte).getD 0 0).toNat ≤ 16 ∧ ¬ (([0, 3] : List Byte).getD 1 0).toNat ≤ 2 ∧
    ProtectionMode.code .fixed = ([16, 2] : List Byte).getD 1 0 := by decide +kernel

/-- A granted slot that holds the first and the last minute of its span, a covering entry, and a minute none but entry 0 covers. -/
theorem witness_SourceIsOne :
    (slotted .active).slots[0].granted = true ∧ maskHas (slotted .active).slots[0].channels .ch0 = true ∧ (slotted .active).slots[0].start ≤ 101 ∧
    109 < (slotted .active).slots[0].stop ∧ (∀ i j : Fin 8, i ≠ j → (slotted .active).slots[i].granted = true →
      (slotted .active).slots[i].clashes (slotted .active).slots[j] = false) ∧
    (withEntry dayEntry).entries[1].present = true ∧ (withEntry dayEntry).entries[1].covers .ch0 420 = true ∧
    (withEntry dayEntry).entries[1].covers .ch0 1140 = false ∧ (∀ i : Fin 8, (withEntry dayEntry).slots[i].granted = false) ∧
    ∀ i : Fin 16, i ≠ 0 → State.reset.entries[i].present = false := by decide +kernel

theorem withEntry_settings : (withEntry dayEntry).SettingsOk where
  entries i := ⟨by revert i; decide +kernel, by revert i; decide +kernel⟩
  apart i j hi hj hij := by revert i j; decide +kernel
  header := by decide +kernel
  protection := by decide +kernel
  triggers ch := by cases ch <;> decide +kernel
  fs ch := by cases ch <;> decide +kernel
  switches ch x h := by cases ch <;> cases h
  results ch x h := by cases ch <;> cases h
  stored :=
    { entries := fun i => by
        intro e h
        have hi : ∀ i : Fin 16, ∀ e ∈ (withEntry dayEntry).store.items.entries[i], (i = 0 → e.present = true) ∧ (e.present = true → e.inRange = true) := by
          decide +kernel
        exact hi i e h
      header := fun h e => by cases e; exact (by decide +kernel : Header.factory.inRange = true)
      protection := fun h e => by cases e; exact (by decide : 0 ≤ 16)
      channels := fun ch c e => by cases ch <;> cases e }
  queued w h := by cases h
  written w h := by cases h

/-- PROPOSE DISPENSATION's checks at their edges, a table with a free slot and one without. -/
theorem witness_DispensationsProposed :
    State.reset.running = true ∧ (proposal 101 102 3000).length = 15 ∧ State.reset.settle.clock.set = false ∧ (slotted .free).settle.clock.set = true ∧
    (slotted .free).settle.clock.minute = 100 ∧ 100 < u32At (proposal 101 102 3000) 1 ∧ ¬ 100 < u32At (proposal 100 102 3000) 1 ∧
    u32At (proposal 10180 11620 12000) 1 ≤ 100 + 10080 ∧ u32At (proposal 10180 11620 12000) 5 ≤ 10180 + 1440 ∧
    3000 ≤ levelAt (proposal 101 102 3000) 9 ∧ ¬ 3000 ≤ levelAt (proposal 101 102 2999) 9 ∧ levelAt (proposal 101 102 3000) 11 = 0 ∧
    maskHas (maskAt (proposal 101 102 3000) 0) .ch0 = true ∧ (slotted .free).settle.slots[1].state = .approved ∧
    u32At (proposal 119 120 3000) 1 < (slotted .free).settle.slots[1].stop ∧ ¬ u32At (proposal 120 121 3000) 1 < (slotted .free).settle.slots[1].stop ∧
    (slotted .free).settle.slots[0].state = .free ∧
    ∀ j : Fin 8, ({ slotted .free with slots := Vector.replicate 8 (slotOf .proposed 101 110) } : State).settle.slots[j].state ≠ .free := by
  decide +kernel

/-- The four decisions: slots 7 and 8, a wrong serial, each state that a decision admits and refuses, and the overlap of two approvals. -/
theorem witness_DispensationsDecided :
    (slotted .proposed).running = true ∧ ([0, 9, 0] : List Byte).length = 3 ∧ 7 < (([8, 9, 0] : List Byte).getD 0 0).toNat ∧
    (7 : Fin 8).val = (([7, 0, 0] : List Byte).getD 0 0).toNat ∧ (slotted .proposed).settle.slots[0].serial = word16At [0, 9, 0] 1 ∧
    (slotted .proposed).settle.slots[0].serial ≠ word16At [0, 8, 0] 1 ∧ (slotted .proposed).settle.slots[0].state = .proposed ∧
    (slotted .proposed).settle.slots[1].state = .approved ∧ (slotted .active).settle.slots[0].state = .active ∧
    ¬ (slotted .proposed).settle.slots[1].start < (slotted .proposed).settle.slots[0].stop ∧
    let meets : State := { slotted .proposed with slots := (slotted .proposed).slots.set 1 (slotOf .active 109 120) }
    meets.settle.slots[1].state = .active ∧ maskHas meets.settle.slots[0].channels .ch0 = true ∧ maskHas meets.settle.slots[1].channels .ch0 = true ∧
    meets.settle.slots[0].start < meets.settle.slots[1].stop ∧ meets.settle.slots[1].start < meets.settle.slots[0].stop := by decide +kernel

theorem witness_EnablesAndConditions :
    State.reset.running = true ∧ ([0, 0] : List Byte).length = 2 ∧ ([255] : List Byte).length = 1 ∧ (State.reset.settle.port .site).conditions = .all .none := by decide +kernel

/-- SET QUIET REQUEST that moves the line and that leaves it. -/
theorem witness_QuietRequested :
    State.reset.running = true ∧ ([1] : List Byte).length = 1 ∧ (after (.setQuietRequest .site (.whole [1])) State.reset).quietLine ≠ State.reset.quietLine ∧
    (after (.setQuietRequest .site (.whole [0])) State.reset).quietLine = State.reset.quietLine := by decide +kernel

/-- No period; works not permitted; the allowance spent and one short of it; the budget used up and one short of it. -/
theorem witness_QuietConditionHeld :
    maskHas State.reset.commissioning.installed .ch0 = false ∧ (State.reset.chan .ch0).period = none ∧
    maskHas (accounting (some shortPeriod) none).commissioning.installed .ch0 = true ∧
    ((accounting (some entryPeriod) none).chan .ch0).period = some entryPeriod ∧ entryPeriod.rules.works = false ∧ shortPeriod.rules.works = true ∧
    ((accounting (some shortPeriod) (some ⟨420, 30, 30, 0, true⟩)).chan .ch0).day = some ⟨420, 30, 30, 0, true⟩ ∧ 30 ≤ 30 ∧ 29 < 30 ∧
    shortPeriod.elapsed < shortPeriod.planned ∧ ¬ energyUnit shortPeriod.rules.limit * shortPeriod.planned ≤ shortPeriod.ratedSum ∧
    energyUnit shortPeriod.rules.limit * shortPeriod.planned ≤ ({ shortPeriod with ratedSum := 814912740 }).ratedSum ∧
    ((accounting (some entryPeriod) none).evaluateQuiet .ch0).quietLine ≠ (accounting (some entryPeriod) none).quietLine := by decide +kernel

theorem witness_PortResets :
    State.reset.running = true ∧ 1792 ≤ longHistory.settle.minuteSeq - longHistory.settle.historyOldest ∧
    (after (.portReset .site (.whole [])) { State.reset with quietLine := true, site := { State.reset.site with quietRequest := true } }).quietLine = false := by
  decide +kernel

theorem witness_CommissioningWritten :
    State.reset.running = true ∧ (Commissioning.blank.bytes.take 68).length = 68 ∧ State.reset.settle.commissioning.locked = false ∧
    ({ State.reset with commissioning := { Commissioning.blank with locked := true } } : State).settle.commissioning.locked = true ∧
    (∀ i < 68, byteAt (Commissioning.blank.bytes.take 68) i = 0) ∧ ¬ (u8At [0x1F] 0 = 0 ∨ (0x20 ≤ u8At [0x1F] 0 ∧ u8At [0x1F] 0 ≤ 0x7E)) ∧
    (0x20 ≤ u8At [0x7E] 0 ∧ u8At [0x7E] 0 ≤ 0x7E) ∧ State.reset.settle.store.canTake 22 = true := by decide +kernel

theorem witness_StoreWrites :
    State.reset.store.queue = [] ∧ fullQueue.store.writing ≠ none ∧
    ({ fullQueue with store := { fullQueue.store with writing := none } } : State).store.queue =
      .entry 1 .blank :: [.entry 2 .blank, .entry 3 .blank, .entry 4 .blank] ∧
    State.reset.settle.store.writing = none ∧ fullQueue.settle.store.writing = some (.header .factory) := by decide +kernel

theorem witness_DeviceResets :
    fullQueue.running = true ∧ fullQueue.settle.store.queue ≠ [] ∧ State.reset.settle.store.queue = [] ∧ State.reset.settle.store.writing = none ∧
    State.reset.resetN = true ∧ held.resetN = false ∧ held.supply = true ∧
    ({ held with supply := false } : State).resetN = false ∧ ({ held with supply := false } : State).supply = false := by decide +kernel

/-- Each notice of `DeviceResets` has its cause: the last incomplete item is 21, a loaded entry becomes absent, a channel is installed. -/
theorem witness_DeviceResets_notices :
    lossy.running = true ∧ lossy.settle.store = lossy.store ∧ lossy.store.items.incomplete = [7, 18, 19, 20, 21] ∧
    (after (.powerOn true) lossy).entries[5] ≠ lossy.store.items.entryLoaded 5 ∧
    maskHas (after (.powerOn true) lossy).commissioning.installed .ch2 = true := by decide +kernel

/-- R18, R54, R158, R178: the details a port holds after a reset are those of the last notice of each kind, and 0 for a kind not set. -/
theorem test_reset_details :
    let details (s : State) : List Detail := [.store, .schedule, .channel, .clock, .reset].map fun k => ((s.port .site).notice k).detail
    details (after (.deviceReset .compliance (.whole [])) lossy) = [⟨.ch0, 2, 21⟩, ⟨.ch0, 1, 5⟩, ⟨.ch2, 1, 0⟩, ⟨.ch0, 0, 0⟩, ⟨.ch0, 3, 0⟩] ∧
    details (after (.powerOn true) lossy) = [⟨.ch0, 2, 21⟩, ⟨.ch0, 1, 5⟩, ⟨.ch2, 1, 0⟩, ⟨.ch0, 3, 0xFFFFFFFF⟩, ⟨.ch0, 1, 0⟩] := by decide +kernel

/-- R172, R177, R178: a write of HEADER cut short by RESET_N loads as incomplete, with the factory header. -/
theorem test_write_cut_short :
    let h : Header := { Header.factory with dayStart := 1 }
    let s : State := { State.reset with header := h, store := ⟨{ StoredItems.delivered with header := some h }, [.header h], none⟩ }
    let t := afterAll [.storeWriteBegin, .resetNLow, .resetNRelease] s
    t.store.items.header = none ∧ t.store.writing = none ∧ t.header = .factory := by decide +kernel

theorem witness_ResetsHold :
    held.resetN = false ∧ unpowered.resetN = true ∧ unpowered.supply = false ∧ State.reset.resetN = true ∧ State.reset.supply = true := by
  decide +kernel

theorem witness_FirstPowerOn :
    unpowered.supply = false ∧ unpowered.resetN = true ∧ unpowered.store = ⟨.delivered, [], none⟩ := by decide +kernel

/-- A minute of 239 and one of 240 VALID slices into an open period; a trigger just reached and just missed; the last minute of allowance, with the day's
low notice not given and given; no period open, and no ending minute number. -/
theorem witness_MinutesEntered :
    (State.reset.chan (closing 240).ch).period = none ∧ ({ closing 240 with boundary := ⟨none, some 5, true⟩ }).boundary.ending = none ∧
    (({ shortPeriod.rules with trigger := 7500 }).works = true ∧ 0 < 30 - 29 ∧ 30 - 29 - 1 ≤ State.reset.header.lowMark) ∧
    (⟨420, 30, 29, 0, false⟩ : Day).lowGiven = false ∧ (⟨420, 30, 29, 0, true⟩ : Day).lowGiven = true ∧
    ((accounting (some shortPeriod) (some ⟨420, 30, 29, 0, false⟩)).chan (closing 240).ch).period = some shortPeriod ∧
    (closing 240).boundary.ending = some 420 ∧ (closing 239).valid < 240 ∧ 240 ≤ (closing 240).valid ∧ (closing 240).laeq = some 7000 ∧
    (closing 240).lafmax = some 8500 ∧ (closing 240).lceq = some 7800 ∧ shortPeriod.rules.impulseThreshold ≤ 8500 - 7000 ∧
    ¬ shortPeriod.rules.lowFreqThreshold ≤ 7800 - 7000 ∧ ¬ shortPeriod.rules.trigger ≤ 7000 + 500 ∧
    ({ shortPeriod.rules with trigger := 7500 }).trigger ≤ 7000 + 500 := by decide +kernel

/-- R96, R97, R100: at the trigger with allowance ALLOWANCE-LOW is set, once, and BREACH is not; without allowance BREACH is. A close sets BREACH for that
verdict alone, and a period that goes on sets nothing. -/
theorem test_account_notices :
    let flags (s : State) : List Bool := [((s.port .site).notice .breach).flag, ((s.port .site).notice .allowanceLow).flag, ((s.port .site).notice .period).flag]
    let p : Period := { shortPeriod with rules := { shortPeriod.rules with trigger := 7500 } }
    let enter (spent : Nat) (given : Bool) : List Bool := flags ((accounting (some p) (some ⟨420, 30, spent, 0, given⟩)).enterMinute (closing 240))
    let turn (p : Period) (timeSet : Bool) : List Bool := flags ((accounting (some p) (some ⟨420, 30, 0, 0, false⟩)).lookAhead .ch0 timeSet 421)
    enter 29 false = [false, true, false] ∧ enter 29 true = [false, false, false] ∧ enter 30 true = [true, false, false] ∧
    turn shortPeriod true = [true, false, true] ∧ turn entryPeriod true = [false, false, true] ∧ turn entryPeriod false = [false, false, false] := by
  decide +kernel

/-- A period that goes on, one that closes for TIME-SET, one at the account-day start and one for its source, with verdict BREACH and another; a day that
reopens and one that stays; an account-day start at the end of its range. -/
theorem witness_PeriodsTurn :
    shortPeriod.verdict State.reset.header.coverage = .breach ∧ entryPeriod.verdict State.reset.header.coverage ≠ .breach ∧
    let s := accounting (some entryPeriod) (some ⟨420, 30, 0, 0, false⟩)
    let e1 : State := { s with entries := deliveredEntries.set 1 { dayEntry with start := 500 } }
    s.header.dayStart ≤ 1439 ∧ (s.chan .ch0).period = some entryPeriod ∧ (s.chan .ch0).day = some ⟨420, 30, 0, 0, false⟩ ∧
    s.sourceOf .ch0 421 = entryPeriod.source ∧ 421 % 1440 ≠ s.header.dayStart ∧ 1860 % 1440 = s.header.dayStart ∧ 420 + 1440 ≤ 1860 ∧
    e1.sourceOf .ch0 500 ≠ entryPeriod.source ∧ ({ s with header := { s.header with dayStart := 1439 } } : State).header.dayStart ≤ 1439 := by
  decide +kernel

/-- A period without counts, one of 20 counts, one all in bin 0; each verdict. -/
theorem witness_PeriodFigures :
    entryPeriod.histogram.toList.sum = 0 ∧ 0 < shortPeriod.histogram.toList.sum ∧ shortPeriod.percentile 90 = some 7050 ∧
    (({ shortPeriod with histogram := (Vector.replicate 240 0).set 0 1 }).histogram.toList.drop 1).sum = 0 ∧ entryPeriod.accounted = 0 ∧
    0 < shortPeriod.accounted ∧ shortPeriod.lr = some 7512 ∧ shortPeriod.rules.limit < 7512 ∧
    (7512 : Int) ≤ ({ shortPeriod with rules := { shortPeriod.rules with limit := 7512 } }).rules.limit ∧ 100 * 4 < 100 * 5 := by decide +kernel

theorem witness_LevelsExact :
    1 ≤ 28800 ∧ 28800 ≤ 28800 ∧ 0 < 6000 ∧ 42222000 ≤ 6000 * (2 ^ 46 - 1) ∧ 42216000 * 10 ^ 10 < 6000 * 2 ^ 46 ∧ 6000 * 2 ^ 46 ≤ 42222000 * 10 ^ 10 := by decide

/-- `oneEvent` and `oneRecord` meet the invariants of the record collections together with `CursorsOk`; a step from each answers. -/
theorem witness_RecordsKept : oneRecord.CursorsOk ∧ oneEvent.CursorsOk ∧ ∃ t, step oneRecord = .next t :=
  ⟨fun p => by cases p <;> decide +kernel, fun p => by cases p <;> decide +kernel, _, rfl⟩

theorem witness_RecordsKept_event : oneEvent.HistoryOk := ⟨by decide +kernel, by decide +kernel⟩

theorem witness_SettingsKept : (withEntry dayEntry).SettingsOk ∧ (slotted .active).SlotsOk ∧ (withEntry dayEntry).SlotsOk ∧ (withEntry dayEntry).QueueOk ∧
    fullQueue.QueueOk :=
  ⟨withEntry_settings, by unfold State.SlotsOk; decide +kernel, by unfold State.SlotsOk; decide +kernel,
    ⟨by decide +kernel, by decide +kernel, fun _ h => nomatch (h : none = some _)⟩, ⟨by decide +kernel, by decide +kernel, fun w h => by cases h; exact .inr (.inl ⟨rfl, rfl⟩)⟩⟩

/-- The clock SET at 430, every channel in that minute, channel 0 with a period and a day that began at 420. -/
def agreeing : State :=
  let n (c : Channel) : Channel := { c with minuteNo := some 430 }
  { clockAt 430 (withEntry dayEntry) with
    channels := ⟨{ n .reset with period := some { entryPeriod with elapsed := 10, last := some 429 }, day := some ⟨420, 30, 0, 0, false⟩ },
      n .reset, n .reset, n .reset⟩ }

theorem witness_CountsKept_agreeing : agreeing.CountersOk ∧ agreeing.AccountsOk ∧ (agreeing.running = true → agreeing.MinutesOk) ∧ agreeing.SettingsOk := by
  refine ⟨⟨?_, ?_, ?_, ?_, ?_, ?_, ⟨by decide +kernel, by decide +kernel, by decide +kernel, by decide +kernel⟩, ?_, ?_⟩, ⟨?_, ?_⟩, fun _ => ⟨?_, ?_, ?_, ?_, ?_⟩,
    { withEntry_settings with
      triggers := fun ch => by cases ch <;> decide +kernel
      fs := fun ch => by cases ch <;> decide +kernel
      switches := fun ch x h => by cases ch <;> cases h
      results := fun ch x h => by cases ch <;> cases h }⟩
  · intro l; cases l <;> exact ⟨by decide +kernel, by decide +kernel, by decide +kernel⟩
  · intro ch h; cases ch <;> exact absurd rfl h
  · intro ch; cases ch <;> exact ⟨by decide +kernel, by decide +kernel⟩
  · intro ch; cases ch <;> exact ⟨by decide +kernel, by decide +kernel⟩
  · intro ch; cases ch <;> decide +kernel
  · intro ch; cases ch <;> decide +kernel
  · intro ch r h; cases ch <;> cases h
  · intro ch e h; cases ch <;> cases h
  · intro ch p h
    cases ch
    · cases h
      exact ⟨by decide +kernel, by decide +kernel, by decide +kernel, by decide +kernel, by decide +kernel, by decide +kernel, by decide +kernel⟩
    all_goals cases h
  · intro ch d h
    cases ch
    · cases h; decide
    all_goals cases h
  · intro ch _; cases ch <;> rfl
  · intro ch _; cases ch <;> rfl
  · intro ch w h; cases ch <;> cases h
  · intro ch d h
    cases ch
    · cases h; exact ⟨430, rfl, by decide, by decide⟩
    all_goals cases h
  · intro ch p h
    cases ch
    · cases h; exact ⟨_, rfl, by decide, rfl⟩
    all_goals cases h

/-- A channel that waits on the close of a SET TIME from 430 to 500, and the others already in the minute set. -/
theorem witness_CountsKept_set :
    let c : Channel := { Channel.reset with minuteNo := some 500 }
    ({ clockAt 500 State.reset with
      channels := ⟨{ c with state := .settling, minuteNo := some 430, waiting := some ⟨⟨some 430, some 500, true⟩, false⟩ }, c, c, c⟩ }
      : State).MinutesOk := by
  refine ⟨?_, ?_, ?_, ?_, ?_⟩
  · intro ch h; cases ch <;> first | rfl | cases h
  · intro ch h; cases ch <;> first | rfl | cases h
  · intro ch w h
    cases ch
    · cases h; exact ⟨rfl, rfl, (fun _ => Option.some_ne_none _), (fun _ h _ => Bool.noConfusion h)⟩
    all_goals cases h
  · intro ch d h; cases ch <;> cases h
  · intro ch p h; cases ch <;> cases h

/-- A slice with its 6000th frame on a PRESENT line, and one a crystal period from its end, FAULTED on a LOST line. -/
theorem witness_CountsKept_slices :
    let s : State := (running0 .measuring 0 6000).setChan .ch2 { Channel.reset with
      state := .faulted, engine := { Channel.reset.engine with slice := { SliceAcc.empty with crystal := 4095 } } }
    (∀ ch, (s.chan ch).state ≠ .off → ((s.chan ch).state = .faulted ↔ (s.rx ch.line).present = false)) ∧ ∀ ch, (s.chan ch).engine.slice.Ok :=
  ⟨fun ch h => by cases ch <;> first | exact absurd rfl h | decide +kernel, fun ch => by cases ch <;> exact ⟨by decide +kernel, by decide +kernel⟩⟩

/-- A pending result one lapse from its end and an open event at the ends of its counts, besides. -/
theorem witness_CountsKept :
    (∀ ch r, ((pendingRes 600).chan ch).pendingResult = some r → r.lapse ≤ 600) ∧ OpenEvent.Ok ⟨0, 28792, 5, 9000, 7, 0, 28799⟩ :=
  ⟨fun ch r h => by cases ch <;> cases h; decide, ⟨by decide, by decide, by decide, by decide⟩⟩

theorem witness_CalibrationAndQuietKept : (inCal .calSettle 0 0).CalibrationOk ∧ (inCal .calSettle 0 0).QuietOk := by
  refine ⟨⟨?_, ?_, fun ch => by cases ch <;> decide +kernel, ?_, ?_⟩, ?_⟩
  · intro ch _; cases ch <;> rfl
  · intro ch w h; cases ch <;> cases h
  · intro r h
    cases h
    exact ⟨rfl, rfl, rfl, rfl, rfl⟩
  · intro ch r h
    cases ch <;> cases h
  · unfold State.QuietOk; decide +kernel

end Sys2Proof.Tests
end

/-! R104 to R106: the percentile levels and the verdict of a period (O54). -/

namespace Sys2Proof.Machine

/-! ### The bins from the highest downward (R105) -/

/-- The counters of a histogram with their bin numbers, highest bin first, as `Period.percentile` takes them. -/
def binsDown (counts : List Nat) : List (Nat × Nat) := (counts.zipIdx.map fun x => (x.2, x.1)).reverse

theorem binsDown_concat (counts : List Nat) (x : Nat) : binsDown (counts ++ [x]) = (counts.length, x) :: binsDown counts := by
  simp [binsDown, List.zipIdx_append]

/-- Bin `b` is the one at which the counts from the top, after `sum` counted before them, first reach `k`. -/
structure ReachesAt (counts : List Nat) (k sum b : Nat) : Prop where
  lt_length : b < counts.length
  reached : k ≤ sum + (counts.drop b).sum
  not_before : sum + (counts.drop (b + 1)).sum < k

/-- The highest bin reaches `k` where its own count does. -/
theorem ReachesAt.last {counts : List Nat} {k sum x : Nat} (before : sum < k) (reached : k ≤ sum + x) :
    ReachesAt (counts ++ [x]) k sum counts.length where
  lt_length := by simp
  reached := by simpa using reached
  not_before := by simpa [List.drop_eq_nil_of_le] using before

/-- The bin at which the rest reaches `k` is the bin at which all do, the highest bin being counted before. -/
theorem ReachesAt.concat {counts : List Nat} {k sum x b : Nat} (h : ReachesAt counts k (sum + x) b) :
    ReachesAt (counts ++ [x]) k sum b := by
  obtain ⟨hlt, reached, not_before⟩ := h
  have drop_concat (c : Nat) (hc : c ≤ counts.length) : ((counts ++ [x]).drop c).sum = (counts.drop c).sum + x := by
    simp [List.drop_append_of_le_length hc]
  have hb := drop_concat b hlt.le
  have hb' := drop_concat (b + 1) hlt
  exact ⟨by simp; omega, by omega, by omega⟩

/-- `binReaching` finds the bin, where there are counts enough. -/
theorem binReaching_reachesAt (k : Nat) (counts : List Nat) :
    ∀ sum, sum < k → k ≤ sum + counts.sum → ReachesAt counts k sum (binReaching k (binsDown counts) sum) := by
  induction counts using List.reverseRecOn with
  | nil => intro sum before enough; simp at enough; omega
  | append_singleton counts x ih =>
    intro sum before enough
    simp only [List.sum_append, List.sum_singleton] at enough
    rw [binsDown_concat, binReaching]
    split
    case isTrue reached => exact .last before reached
    case isFalse short => exact (ih (sum + x) (by omega) (by omega)).concat

/-- The counts from a bin upward are no more than those from a lower bin upward. -/
theorem sum_drop_le (counts : List Nat) {b c : Nat} (h : b ≤ c) : (counts.drop c).sum ≤ (counts.drop b).sum :=
  (List.drop_sublist_drop_left counts h).sum_le_sum fun _ _ => Nat.zero_le _

/-! ### Percentile levels (R105) -/

/-- Bin `b` is the one in which the level exceeded by `n` per cent of the period's VALID slices falls. -/
structure Period.PercentileBin (p : Period) (n b : Nat) : Prop where
  lt : b < 240
  reached : n * p.total ≤ 100 * (p.histogram.toList.drop b).sum
  not_before : 100 * (p.histogram.toList.drop (b + 1)).sum < n * p.total

theorem Period.percentile_of_total_eq_zero {p : Period} (h : p.total = 0) (n : Nat) : p.percentile n = none := by
  simp [Period.percentile, h]

theorem Period.percentile_of_total_pos {p : Period} (h : 0 < p.total) (n : Nat) :
    p.percentile n = some (2000 + 50 * (binReaching ((n * p.total + 99) / 100) (binsDown p.histogram.toList) 0 : Int)) :=
  if_neg h.ne'

/-- The level is the lower edge of the bin: K, the least whole number at or above N·T/100, is reached exactly where N·T is by the hundredfold sum. -/
theorem Period.exists_percentileBin {p : Period} {n : Nat} (total : 0 < p.total) (pos : 0 < n) (le : n ≤ 100) :
    ∃ b : Nat, p.PercentileBin n b ∧ p.percentile n = some (2000 + 50 * (b : Int)) := by
  have hpos : 0 < n * p.total := Nat.mul_pos pos total
  have hle : n * p.total ≤ 100 * p.total := Nat.mul_le_mul_right _ le
  have enough : (n * p.total + 99) / 100 ≤ 0 + p.histogram.toList.sum := by
    change _ ≤ 0 + p.total
    omega
  obtain ⟨lt, reached, not_before⟩ := binReaching_reachesAt _ p.histogram.toList 0 (by omega) enough
  exact ⟨_, ⟨by simpa using lt, by omega, by omega⟩, p.percentile_of_total_pos total n⟩

/-- A level that more slices exceed falls in no higher bin. -/
theorem Period.PercentileBin.antitone {p : Period} {n m b c : Nat} (hb : p.PercentileBin n b) (hc : p.PercentileBin m c) (h : n ≤ m) : c ≤ b := by
  by_contra above
  have : (p.histogram.toList.drop c).sum ≤ (p.histogram.toList.drop (b + 1)).sum := sum_drop_le _ (by omega)
  have : n * p.total ≤ m * p.total := Nat.mul_le_mul_right _ h
  have := hb.not_before
  have := hc.reached
  omega

/-- L_N falls as N rises. -/
theorem Period.percentile_antitone {p : Period} {n m : Nat} {x y : Level} (pos : 0 < n) (h : n ≤ m) (le : m ≤ 100)
    (hx : p.percentile n = some x) (hy : p.percentile m = some y) : y ≤ x := by
  obtain void | total := Nat.eq_zero_or_pos p.total
  · simp [p.percentile_of_total_eq_zero void] at hx
  obtain ⟨b, hb, eb⟩ := p.exists_percentileBin (n := n) total pos (by omega)
  obtain ⟨c, hc, ec⟩ := p.exists_percentileBin (n := m) total (by omega) le
  obtain rfl : _ = x := Option.some.inj (eb.symm.trans hx)
  obtain rfl : _ = y := Option.some.inj (ec.symm.trans hy)
  have edges : (2000 + 50 * c : Int) ≤ 2000 + 50 * b := by
    have := hb.antitone hc h
    omega
  exact edges

/-- With every count in bin 0 every level is its lower edge (R105, last sentence). -/
theorem Period.percentile_of_bin_zero {p : Period} {n : Nat} (above : (p.histogram.toList.drop 1).sum = 0) (total : 0 < p.total)
    (pos : 0 < n) (le : n ≤ 100) : p.percentile n = some 2000 := by
  obtain ⟨b, hb, eb⟩ := p.exists_percentileBin total pos le
  obtain rfl | positive := Nat.eq_zero_or_pos b
  · simpa using eb
  have : (p.histogram.toList.drop b).sum ≤ (p.histogram.toList.drop 1).sum := sum_drop_le _ positive
  have := Nat.mul_pos pos total
  have := hb.reached
  omega

/-! ### The verdict (R106) -/

theorem reverseLevel_ne_none (sum : Nat) {n : Nat} (h : 0 < n) : reverseLevel sum n ≠ none := by
  unfold reverseLevel
  rw [if_neg h.ne']
  split <;> exact Option.some_ne_none _

@[simp] theorem aboveLimit_some (x limit : Level) : aboveLimit (some x) limit = true ↔ limit < x := by
  simp [aboveLimit]

theorem Period.verdict_of_accounted_eq_zero {p : Period} (h : p.accounted = 0) (coverage : Nat) : p.verdict coverage = .void := if_pos h

theorem Period.verdict_of_above {p : Period} {l : Level} (accounted : 0 < p.accounted) (lr : p.lr = some l) (above : p.rules.limit < l)
    (coverage : Nat) : p.verdict coverage = .breach := by
  simp [Period.verdict, accounted.ne', lr, above]

theorem Period.verdict_of_not_above {p : Period} {l : Level} (accounted : 0 < p.accounted) (lr : p.lr = some l) (within : l ≤ p.rules.limit)
    (coverage : Nat) : p.verdict coverage = if 100 * p.accounted < coverage * p.elapsed then .incomplete else .compliant := by
  simp [Period.verdict, accounted.ne', lr, within.not_gt]

/-- Settles O54: `exists_percentileBin` for the levels, `percentile_antitone` for their order, and R106's cases in turn. -/
theorem periodFigures : Obligations.PeriodFigures := by
  intro p total
  have range {n : Nat} (h : n = 10 ∨ n = 50 ∨ n = 90) : 0 < n ∧ n ≤ 100 := by omega
  refine ⟨fun n hn => ⟨fun void => p.percentile_of_total_eq_zero void n, fun pos => ?levels⟩, fun x y z h10 h50 h90 => ⟨?l90, ?l50⟩,
    fun above pos n hn => p.percentile_of_bin_zero above pos (range hn).1 (range hn).2, fun coverage => ⟨?void, ?breach, ?within, ?rated⟩⟩
  case levels =>
    obtain ⟨b, ⟨lt, reached, not_before⟩, level⟩ := p.exists_percentileBin pos (range hn).1 (range hn).2
    exact ⟨b, lt, level, reached, not_before⟩
  case l90 => exact p.percentile_antitone (by omega) (by omega) (by omega) h50 h90
  case l50 => exact p.percentile_antitone (by omega) (by omega) (by omega) h10 h50
  case void => exact fun h => p.verdict_of_accounted_eq_zero h coverage
  case breach => exact fun l accounted lr above => p.verdict_of_above accounted lr above coverage
  case within => exact fun l accounted lr within => p.verdict_of_not_above accounted lr within coverage
  case rated => exact reverseLevel_ne_none p.ratedSum

end Sys2Proof.Machine

/-! R150, R152, R154: the enables, the attention line and the condition flags of a port (O43). -/

namespace Sys2Proof.Machine

/-! ### The attention line over the fifteen kinds (R149, R150) -/

/-- Every position among the fifteen is that of a kind. -/
theorem NoticeKind.index_surjective : Function.Surjective NoticeKind.index := fun i =>
  ⟨.ofNat i, (by decide : ∀ i : Fin 15, (NoticeKind.ofNat i).index = i) i⟩

/-- R150, kind by kind: in a running part the line is high while the flag and the enable of one kind are both set. -/
theorem State.attention_iff (s : State) (p : Port) :
    s.attention p = true ↔ s.running = true ∧ ∃ k, ((s.port p).notice k).flag = true ∧ ((s.port p).notice k).enable = true := by
  rw [State.attention, Bool.and_eq_true, List.any_eq_true]
  refine and_congr_right fun _ => ⟨?kind, ?position⟩
  case kind =>
    rintro ⟨n, mem, raised⟩
    obtain ⟨i, hi, rfl⟩ := Vector.mem_iff_getElem.mp (Vector.mem_toList_iff.mp mem)
    obtain ⟨k, hk⟩ := NoticeKind.index_surjective ⟨i, hi⟩
    exact ⟨k, by simpa [PortState.notice, hk] using raised⟩
  case position =>
    rintro ⟨k, flag, enable⟩
    exact ⟨(s.port p).notice k, Vector.mem_toList_iff.mpr (Vector.getElem_mem _), by rw [flag, enable]; rfl⟩

/-- R152: with no kind enabled the line is low, whatever flags are set. -/
theorem State.attention_of_no_enable {s : State} {p : Port} (h : ∀ k, ((s.port p).notice k).enable = false) : s.attention p = false :=
  Bool.eq_false_iff.mpr fun high => by
    obtain ⟨_, k, _, enable⟩ := (s.attention_iff p).mp high
    simp [h k] at enable

@[simp] theorem State.setPort_running (s : State) (p : Port) (x : PortState) : (s.setPort p x).running = s.running := by
  simp [State.running]

/-- A port's line hangs on that port's notices alone. -/
@[simp] theorem State.attention_setPort_other (s : State) (p : Port) (x : PortState) :
    (s.setPort p x).attention p.other = s.attention p.other := by
  simp [State.attention]

/-! ### The two owners, by kind and by channel (R152, R154) -/

@[simp] theorem PortState.notice_setEnables (x : PortState) (mask : BitVec 16) (k : NoticeKind) :
    (x.setEnables mask).notice k = { x.notice k with enable := mask.getLsbD (k.index.val + 1) } := by
  simp [PortState.setEnables, PortState.notice]

@[simp] theorem PortState.conditions_clearConditions (x : PortState) (m : ChannelMask) (ch : Ch) :
    (x.clearConditions m).conditions.get ch = if maskHas m ch then .none else x.conditions.get ch := by
  cases ch <;> rfl

theorem exec_setNoticeEnables (p : Port) {params : List Byte} {s : State} (hr : s.running = true) (len : params.length = 2) :
    exec (.setNoticeEnables p (.whole params)) s =
      .next ((s.settle.setPort p ((s.settle.port p).setEnables (word16At params 0))).wrote p .ok s.settle params) :=
  congrArg Host.Outcome.next (portWrite_ok hr len rfl rfl)

theorem exec_clearConditions (p : Port) {params : List Byte} {s : State} (hr : s.running = true) (len : params.length = 1) :
    exec (.clearConditions p (.whole params)) s =
      .next ((s.settle.setPort p ((s.settle.port p).clearConditions (maskAt params 0))).wrote p .ok s.settle params) :=
  congrArg Host.Outcome.next (portWrite_ok hr len rfl rfl)

/-- R152: the sending port's line after its enables became those of a mask. -/
theorem State.attention_setEnables {u : State} (hr : u.running = true) (p : Port) (mask : BitVec 16) :
    (u.setPort p ((u.port p).setEnables mask)).attention p = true ↔
      ∃ k : NoticeKind, ((u.port p).notice k).flag = true ∧ mask.getLsbD (k.index.val + 1) = true := by
  simp [State.attention_iff, hr]

/-- Settles O43: R150 read kind by kind (`attention_iff`) over the notices `setEnables` leaves, and R154 channel by channel. -/
theorem enablesAndConditions : Obligations.EnablesAndConditions := by
  intro p params s hr u
  have running : u.running = true := by rw [State.settle_running, hr]
  refine ⟨fun len => ⟨_, exec_setNoticeEnables p hr len, ?_⟩, fun len => ⟨_, exec_clearConditions p hr len, ?_⟩⟩
  · rw [State.port_setPort_self]
    refine ⟨rfl, rfl, fun k => by rw [PortState.notice_setEnables], fun k => by simp only [PortState.notice_setEnables, u, and_self],
      State.attention_setEnables running p _, State.attention_setPort_other _ _ _, fun empty w same => ?low⟩
    case low => exact State.attention_of_no_enable fun k => by rw [same k, PortState.notice_setEnables]; exact empty k
  · rw [State.port_setPort_self]
    exact ⟨rfl, rfl, fun ch => PortState.conditions_clearConditions _ _ ch⟩

end Sys2Proof.Machine

/-! R165: NOP and the codes that name no command (O12). -/

namespace Sys2Proof.Machine

/-- A whole transaction whose judgement adds nothing to the answer shifts out what a write's does (R160) and concludes with the
judgement's result, or with the last result kept where it has none (R162). -/
theorem transact_whole_of_no_answer {s : State} (hr : s.running = true) {p : Port} {code : Byte} {params : List Byte}
    {judge : List Byte → List Byte → Bool → State → Judgement} {r : Option Result} {t : State} {snapshot : Bool}
    (judged : judge [] (code :: params) true s.settle = ⟨r, t, snapshot, []⟩) :
    s.transact p (.whole params) code judge = t.wrote p (r.getD (t.port p).lastResult) s.settle params := by
  rw [transact_whole hr, judged]
  dsimp only
  rw [List.append_nil, clocked_write]
  rfl

/-- A NOP is judged to nothing, so it has no result of its own. -/
theorem portNop_whole (p : Port) (params : List Byte) {s : State} (hr : s.running = true) :
    portNop p (.whole params) s = s.settle.wrote p (s.settle.port p).lastResult s.settle params :=
  transact_whole_of_no_answer (r := none) hr rfl

/-- At the select rise a code received is refused, whatever follows it. -/
theorem judgeUnknown_rise (before : List Byte) (code : Byte) (params : List Byte) (s : State) :
    judgeUnknown before (code :: params) true s = ⟨some .unknown, s, false, []⟩ := rfl

theorem transact_judgeUnknown_whole (p : Port) (code : Byte) (params : List Byte) {s : State} (hr : s.running = true) :
    s.transact p (.whole params) code judgeUnknown = s.settle.wrote p .unknown s.settle params :=
  transact_whole_of_no_answer hr (judgeUnknown_rise [] code params s.settle)

/-- Settles O12: a NOP's transaction keeps the last result (`portNop_whole`), an unknown code's replaces it by UNKNOWN
(`transact_judgeUnknown_whole`); neither shifts out an answer of its own. -/
theorem nopAndUnknown : Obligations.NopAndUnknown := by
  intro p code params s running
  constructor
  · exact congrArg Host.Outcome.next (portNop_whole p params running)
  · exact congrArg Host.Outcome.next (transact_judgeUnknown_whole p code params running)

end Sys2Proof.Machine

/-! R134, R137, R139, R140: every step keeps the three collections and the cursors into them (O57). -/

namespace Sys2Proof.Machine

/-! ### What the collections hang on -/

/-- The three cursors of a port (R140). -/
def PortState.cursors (x : PortState) : Nat × Nat × Nat := (x.historyCursor, x.periodCursor, x.eventCursor)

/-- The sequence of a channel's open event, if it has one. -/
def Channel.openSeq (c : Channel) : Option Nat := c.openEvent.map OpenEvent.sequence

/-- The collections with their counters, the open events they list and the cursors into them. -/
structure RecordView where
  events : List EventRecord
  eventSeq : Nat
  minutes : List MinuteRecord
  minuteSeq : Nat
  periods : List PeriodRecord
  periodSeq : Nat
  site : Nat × Nat × Nat
  compliance : Nat × Nat × Nat
  opened : Quad (Option Nat)

def State.recordView (s : State) : RecordView :=
  { events := s.eventList, eventSeq := s.eventSeq, minutes := s.minuteRing, minuteSeq := s.minuteSeq, periods := s.periodList
    periodSeq := s.periodSeq, site := s.site.cursors, compliance := s.compliance.cursors
    opened := ⟨s.channels.c0.openSeq, s.channels.c1.openSeq, s.channels.c2.openSeq, s.channels.c3.openSeq⟩ }

theorem State.opened_get (s : State) (ch : Ch) : s.recordView.opened.get ch = (s.chan ch).openSeq := by cases ch <;> rfl

theorem State.recordView_setChan (s : State) (ch : Ch) {c : Channel} (h : c.openSeq = (s.chan ch).openSeq) :
    (s.setChan ch c).recordView = s.recordView := by
  cases ch <;> simp only [State.recordView, State.setChan, Quad.set, h] <;> rfl

theorem State.recordView_setPort (s : State) (p : Port) {x : PortState} (h : x.cursors = (s.port p).cursors) :
    (s.setPort p x).recordView = s.recordView := by
  cases p <;> simp only [State.recordView, State.setPort, h] <;> rfl

theorem State.recordView_setRx (s : State) (l : Line) (r : LineRx) : (s.setRx l r).recordView = s.recordView := by cases l <;> rfl

@[simp] theorem State.recordView_notifyBoth (s : State) (k : NoticeKind) (d : Detail) :
    (s.notifyBoth k d).recordView = s.recordView := rfl

theorem State.recordView_bringQuiet (s : State) (ch : Ch) (i : QuietInput) : (s.bringQuiet ch i).recordView = s.recordView := by
  unfold State.bringQuiet
  split <;> rfl

theorem State.recordView_concludeRecord (s : State) (ch : Ch) (o : CalOutcome) : (s.concludeRecord ch o).recordView = s.recordView :=
  s.recordView_setChan ch rfl

theorem State.recordView_endRun (s : State) (ch : Ch) (o : CalOutcome) : (s.endRun ch o).recordView = s.recordView := by
  unfold State.endRun
  split
  · exact State.recordView_concludeRecord { s with calUnit := { s.calUnit with run := none } } ch o
  · rfl

theorem State.recordView_foldl {α : Type} (work : State → α → State) (h : ∀ s a, (work s a).recordView = s.recordView) :
    ∀ (l : List α) (s : State), (l.foldl work s).recordView = s.recordView
  | [], _ => rfl
  | a :: l, s => (State.recordView_foldl work h l (work s a)).trans (h s a)

theorem State.recordView_loadStore (s : State) : s.loadStore.recordView = s.recordView := by
  have copies : s.loadCopies.recordView = s.recordView := by
    have load (c : Channel) (x : Option ChannelItem) : (c.load x).openSeq = c.openSeq := by cases x <;> rfl
    simp only [State.recordView, State.loadCopies, load]
  have drop : ∀ (s : State) (i : Fin 16), (s.dropOverlapping i).recordView = s.recordView := by
    intro s i
    unfold State.dropOverlapping
    split <;> rfl
  have resumed (s : State) : s.resumeSerial.recordView = s.recordView := rfl
  rw [State.loadStore, resumed, State.recordView_foldl _ drop, State.notifyIncomplete, State.recordView_foldl _ (fun _ _ => by rfl),
    copies]

theorem State.recordView_startRun (s : State) (ch : Ch) (l : Level) : (s.startRun ch l).recordView = s.recordView := by
  have entered : ∀ c : Channel, c.enterCalibration.openSeq = c.openSeq := by
    intro c
    unfold Channel.enterCalibration
    split <;> rfl
  have superseded : (s.supersede ch).recordView = s.recordView := by
    unfold State.supersede
    split
    · rfl
    · exact s.recordView_setChan ch rfl
  exact (State.recordView_setChan _ ch (by exact entered _)).trans superseded

/-- A change of a channel leaves the sequence of its open event. -/
theorem ChanEffect.openSeq {k : Origin} {c c' : Channel} (h : ChanEffect k c c') : c'.openSeq = c.openSeq := by
  cases h with
  | eventRuns e e' h h' => simp [Channel.openSeq, h, h']
  | minuteEntered m low => rw [Channel.openSeq, c.accounted_enterMinute m low]; rfl
  | sliceCounted r => rw [Channel.openSeq, c.countSlice_eq r]; rfl
  | _ => rfl

/-! ### The invariant -/

/-- The collections are in sequence and the cursors within them. -/
def State.RecordsOk (s : State) : Prop := s.HistoryOk ∧ s.EventsOk ∧ s.CursorsOk

theorem Channel.openSeq_eq_some {c : Channel} {n : Nat} : c.openSeq = some n ↔ ∃ e, c.openEvent = some e ∧ e.sequence = n := by
  simp [Channel.openSeq]

/-- The event list's invariant, by the sequences of the open events. -/
theorem State.eventsOk_iff (s : State) : s.EventsOk ↔ s.eventList.length ≤ 32 ∧
    (s.eventList.Pairwise fun a b => a.sequence < b.sequence) ∧ (∀ r ∈ s.eventList, r.sequence < s.eventSeq) ∧
    (∀ r ∈ s.eventList, r.closed = none → (s.chan r.ch).openSeq = some r.sequence) ∧
    ∀ ch n, (s.chan ch).openSeq = some n → ∃ r ∈ s.eventList, r.ch = ch ∧ r.sequence = n ∧ r.closed = none := by
  simp only [Channel.openSeq_eq_some]
  constructor
  · rintro ⟨short, rising, below, opened, listed⟩
    refine ⟨short, rising, below, opened, ?_⟩
    rintro ch _ ⟨e, h, rfl⟩
    exact listed ch e h
  · rintro ⟨short, rising, below, opened, listed⟩
    exact ⟨short, rising, below, opened, fun ch e h => listed ch _ ⟨e, h, rfl⟩⟩

theorem State.cursorsOk_iff (s : State) : s.CursorsOk ↔
    ∀ p, (s.port p).cursors.1 ≤ s.minuteSeq ∧ (s.port p).cursors.2.1 ≤ s.periodSeq ∧ (s.port p).cursors.2.2 ≤ s.eventSeq := Iff.rfl

/-- The invariant looks at nothing else. -/
theorem State.RecordsOk.of_view {s t : State} (hs : s.RecordsOk) (h : t.recordView = s.recordView) : t.RecordsOk := by
  have opened (ch : Ch) : (t.chan ch).openSeq = (s.chan ch).openSeq := by rw [← t.opened_get, h, s.opened_get]
  simp only [State.recordView, RecordView.mk.injEq] at h
  obtain ⟨events, eventSeq, minutes, minuteSeq, periods, periodSeq, site, compliance, -⟩ := h
  obtain ⟨⟨ring, list⟩, eventsOk, cursors⟩ := hs
  refine ⟨⟨by rw [minutes, minuteSeq, ring], by rw [periods, periodSeq, list]⟩, ?_, ?_⟩
  · rw [State.eventsOk_iff] at eventsOk ⊢
    simpa only [events, eventSeq, opened] using eventsOk
  · rw [State.cursorsOk_iff] at cursors ⊢
    intro p
    have same : (t.port p).cursors = (s.port p).cursors := by cases p <;> assumption
    rw [same, minuteSeq, periodSeq, eventSeq]
    exact cursors p

/-! ### A record joins a bounded collection -/

theorem range'_pushBounded {α : Type} {f : α → Nat} {cap n : Nat} {l : List α} {r : α} (pos : 0 < cap) (hr : f r = n)
    (h : l.map f = List.range' (n - cap) (min n cap)) :
    (pushBounded cap l r).map f = List.range' (n + 1 - cap) (min (n + 1) cap) := by
  have len : l.length = min n cap := by simpa using congrArg List.length h
  unfold pushBounded
  split
  case isTrue full =>
    obtain ⟨m, rfl⟩ : ∃ m, cap = m + 1 := ⟨cap - 1, by omega⟩
    rw [show min n (m + 1) = m + 1 by omega] at h
    rw [show min (n + 1) (m + 1) = m + 1 by omega, List.map_append, List.map_drop, h, List.range'_succ, List.drop_one, List.tail_cons,
      List.range'_1_concat]
    simp only [List.map_cons, List.map_nil, hr]
    congr 2 <;> omega
  case isFalse room =>
    rw [show n - cap = 0 by omega, show min n cap = n by omega] at h
    rw [show n + 1 - cap = 0 by omega, show min (n + 1) cap = n + 1 by omega, List.map_append, h, List.range'_1_concat]
    simp [hr]

theorem State.RecordsOk.minuteWritten {s : State} (hs : s.RecordsOk) {r : MinuteRecord} (h : r.sequence = s.minuteSeq) :
    State.RecordsOk { s with minuteRing := pushBounded 2048 s.minuteRing r, minuteSeq := s.minuteSeq + 1 } := by
  obtain ⟨⟨ring, list⟩, ⟨short, rising, below, opened, listed⟩, cursors⟩ := hs
  refine ⟨⟨range'_pushBounded (by decide) h ring, list⟩, ⟨short, rising, below, opened, listed⟩, fun p => ?_⟩
  obtain ⟨history, periods, events⟩ := cursors p
  exact ⟨by cases p <;> exact Nat.le_succ_of_le history, by cases p <;> exact periods, by cases p <;> exact events⟩

theorem State.RecordsOk.periodWritten {s : State} (hs : s.RecordsOk) {r : PeriodRecord} (h : r.sequence = s.periodSeq) :
    State.RecordsOk { s with periodList := pushBounded 96 s.periodList r, periodSeq := s.periodSeq + 1 } := by
  obtain ⟨⟨ring, list⟩, ⟨short, rising, below, opened, listed⟩, cursors⟩ := hs
  refine ⟨⟨ring, range'_pushBounded (by decide) h list⟩, ⟨short, rising, below, opened, listed⟩, fun p => ?_⟩
  obtain ⟨history, periods, events⟩ := cursors p
  exact ⟨by cases p <;> exact history, by cases p <;> exact Nat.le_succ_of_le periods, by cases p <;> exact events⟩

/-! ### Events open and close -/

theorem chans_length_le {l : List Ch} (h : l.Nodup) : l.length ≤ 4 :=
  (h.subperm (l₂ := Ch.list) fun ch _ => by cases ch <;> decide).length_le

/-- Records that rise in sequence and have the same sequence are one record. -/
theorem eq_of_rising {l : List EventRecord} (rising : l.Pairwise fun a b => a.sequence < b.sequence) {r x : EventRecord} (hr : r ∈ l)
    (hx : x ∈ l) (h : r.sequence = x.sequence) : r = x := by
  by_contra ne
  have apart : l.Pairwise fun a b => a.sequence ≠ b.sequence := rising.imp fun h => h.ne
  have symm : Std.Symm fun a b : EventRecord => a.sequence ≠ b.sequence := ⟨fun _ _ h => h.symm⟩
  exact apart.forall hr hx ne h

/-- A full list holds a CLOSED record: the OPEN ones are of four channels. -/
theorem State.EventsOk.exists_closed {s : State} (hs : s.EventsOk) (full : 32 ≤ s.eventList.length) :
    ∃ r ∈ s.eventList, r.closed.isSome = true := by
  by_contra allOpen
  replace allOpen : ∀ r ∈ s.eventList, r.closed = none := by simpa using allOpen
  obtain ⟨-, rising, -, opened, -⟩ := (State.eventsOk_iff s).mp hs
  have chans : (s.eventList.map EventRecord.ch).Nodup := by
    rw [List.Nodup, List.pairwise_map]
    refine rising.imp_of_mem fun {a b} ha hb lt same => ?_
    have := (opened a ha (allOpen a ha)).symm.trans (same ▸ opened b hb (allOpen b hb))
    simp only [Option.some.injEq] at this
    omega
  have := chans_length_le chans
  simp only [List.length_map] at this
  omega

theorem makeRoom_sublist (l : List EventRecord) : (makeRoom l).Sublist l := by
  unfold makeRoom
  split
  · exact List.eraseP_sublist
  · exact .refl _

/-- Only a CLOSED record leaves. -/
theorem mem_makeRoom_of_open {l : List EventRecord} {r : EventRecord} (h : r.closed = none) : r ∈ makeRoom l ↔ r ∈ l := by
  unfold makeRoom
  split
  · exact List.mem_eraseP_of_neg (by simp [h])
  · rfl

theorem State.EventsOk.makeRoom_short {s : State} (hs : s.EventsOk) : (makeRoom s.eventList).length < 32 := by
  unfold makeRoom
  have := hs.short
  split
  case isTrue full =>
    obtain ⟨r, mem, closed⟩ := hs.exists_closed full
    rw [List.length_eraseP_of_mem mem closed]
    omega
  case isFalse => omega

theorem State.RecordsOk.eventOpened {s : State} (hs : s.RecordsOk) (ch : Ch) (r : SliceResult)
    (h : (s.chan ch).openEvent = none) : (s.openEvent ch r).RecordsOk := by
  obtain ⟨history, events, cursors⟩ := hs
  have room := events.makeRoom_short
  obtain ⟨-, rising, below, opened, listed⟩ := (State.eventsOk_iff s).mp events
  have sub := makeRoom_sublist s.eventList
  have seq (d : Ch) : ((s.openEvent ch r).chan d).openSeq = if d = ch then some s.eventSeq else (s.chan d).openSeq := by
    unfold State.openEvent
    rw [State.chan_notifyBoth, State.chan_setChan]
    split <;> rfl
  refine ⟨⟨history.minutes, history.periods⟩, (State.eventsOk_iff _).mpr ⟨?short, ?rising, ?below, ?opened, ?listed⟩, fun p => ?cursors⟩
  case short =>
    change (_ ++ [_]).length ≤ 32
    simp only [List.length_append, List.length_singleton]
    omega
  case rising =>
    refine List.pairwise_append.mpr ⟨rising.sublist sub, List.pairwise_singleton _ _, ?_⟩
    intro a ha b hb
    obtain rfl := List.mem_singleton.mp hb
    exact below a (sub.subset ha)
  case below =>
    intro x hx
    obtain hx | hx := List.mem_append.mp hx
    · exact Nat.lt_succ_of_lt (below x (sub.subset hx))
    · obtain rfl := List.mem_singleton.mp hx
      exact Nat.lt_succ_self _
  case opened =>
    intro x hx isOpen
    rw [seq]
    obtain hx | hx := List.mem_append.mp hx
    · have old := opened x (sub.subset hx) isOpen
      split
      case isTrue same => simp [Channel.openSeq, same, h] at old
      case isFalse => exact old
    · obtain rfl := List.mem_singleton.mp hx
      exact if_pos rfl
  case listed =>
    intro d n hd
    rw [seq] at hd
    split at hd
    case isTrue same =>
      obtain rfl := Option.some.inj hd
      exact ⟨_, List.mem_append_right _ (List.mem_singleton_self _), same.symm, rfl, rfl⟩
    case isFalse =>
      obtain ⟨x, mem, hch, hseq, isOpen⟩ := listed d n hd
      exact ⟨x, List.mem_append_left _ ((mem_makeRoom_of_open isOpen).mpr mem), hch, hseq, isOpen⟩
  case cursors =>
    obtain ⟨minutes, periods, evs⟩ := cursors p
    exact ⟨by cases p <;> exact minutes, by cases p <;> exact periods, by cases p <;> exact Nat.le_succ_of_le evs⟩

theorem State.RecordsOk.eventClosed {s : State} (hs : s.RecordsOk) (ch : Ch) (cause : EndCause) : (s.closeEvent ch cause).RecordsOk := by
  unfold State.closeEvent
  dsimp only
  split
  · exact hs
  rename_i e he
  obtain ⟨history, events, cursors⟩ := hs
  obtain ⟨short, rising, below, opened, listed⟩ := (State.eventsOk_iff s).mp events
  generalize (s.chan ch).closeFigures e cause = x
  let completed (r : EventRecord) : EventRecord := if r.sequence = e.sequence then { r with closed := some x } else r
  have hseq (r : EventRecord) : (completed r).sequence = r.sequence := by simp only [completed]; split <;> rfl
  have hch (r : EventRecord) : (completed r).ch = r.ch := by simp only [completed]; split <;> rfl
  have seq (l : List EventRecord) (d : Ch) (k : NoticeKind) (y : Detail) :
      (((State.setChan { s with eventList := l } ch { s.chan ch with openEvent := none }).notifyBoth k y).chan d).openSeq =
        if d = ch then none else (s.chan d).openSeq := by
    rw [State.chan_notifyBoth, State.chan_setChan]
    split <;> rfl
  have mine : (s.chan ch).openSeq = some e.sequence := by simp [Channel.openSeq, he]
  obtain ⟨own, ownMem, ownCh, ownSeq, ownOpen⟩ := listed ch _ mine
  refine ⟨⟨history.minutes, history.periods⟩, (State.eventsOk_iff _).mpr ⟨?short, ?rising, ?below, ?opened, ?listed⟩, fun p => ?cursors⟩
  case short => exact (List.length_map completed).trans_le short
  case rising =>
    refine List.pairwise_map.mpr (rising.imp fun {a b} h => ?_)
    change (completed a).sequence < (completed b).sequence
    rwa [hseq, hseq]
  case below =>
    intro r hr
    obtain ⟨a, ha, rfl⟩ := List.mem_map.mp hr
    exact (hseq a).trans_lt (below a ha)
  case opened =>
    intro r hr isOpen
    obtain ⟨a, ha, rfl⟩ := List.mem_map.mp hr
    rw [seq]
    split at isOpen
    case isTrue => cases isOpen
    case isFalse other =>
      rw [if_neg other]
      have old := opened a ha isOpen
      split
      case isTrue same =>
        rw [same, mine] at old
        exact absurd (Option.some.inj old).symm other
      case isFalse => exact old
  case listed =>
    intro d n hd
    rw [seq] at hd
    split at hd
    case isTrue => cases hd
    case isFalse ne =>
      obtain ⟨a, ha, ach, aseq, isOpen⟩ := listed d n hd
      have other : a.sequence ≠ e.sequence := by
        intro same
        have := eq_of_rising rising ha ownMem (same.trans ownSeq.symm)
        exact ne (by rw [← ach, this, ownCh])
      exact ⟨a, List.mem_map.mpr ⟨a, ha, if_neg other⟩, ach, aseq, isOpen⟩
  case cursors =>
    obtain ⟨minutes, periods, evs⟩ := cursors p
    exact ⟨by cases p <;> exact minutes, by cases p <;> exact periods, by cases p <;> exact evs⟩

/-! ### Cursors move -/

/-- A port takes new cursors. -/
theorem State.RecordsOk.setPort {s : State} (hs : s.RecordsOk) (p : Port) {x : PortState} (history : x.historyCursor ≤ s.minuteSeq)
    (periods : x.periodCursor ≤ s.periodSeq) (events : x.eventCursor ≤ s.eventSeq) : (s.setPort p x).RecordsOk := by
  obtain ⟨ring, evs, cursors⟩ := hs
  refine ⟨⟨by simpa using ring.minutes, by simpa using ring.periods⟩, ?_, fun q => ?_⟩
  · rw [State.eventsOk_iff] at evs ⊢
    simpa using evs
  · rw [State.port_setPort]
    split
    · simpa using ⟨history, periods, events⟩
    · simpa using cursors q

/-- A read leaves its cursor within the collection (R141). -/
theorem window_cursor_le {α : Type} {n cursor : Nat} {l : List α} (count : Nat) (hl : l.length ≤ n) (hc : cursor ≤ n) :
    (window (n - l.length) l cursor count).cursor ≤ n := by
  simp only [window, List.length_take, List.length_drop]
  omega

theorem eventWindow_cursor_le {n cursor : Nat} {l : List EventRecord} (count : Nat) (hl : ∀ r ∈ l, r.sequence < n) (hc : cursor ≤ n) :
    (eventWindow l cursor count).cursor ≤ n := by
  have found : ∀ r ∈ (l.filter fun r => decide (cursor ≤ r.sequence)).take count, r.sequence < n := fun r hr =>
    hl r (List.mem_of_mem_filter (List.mem_of_mem_take hr))
  unfold eventWindow eventCursorAfter
  dsimp only
  split
  case h_1 r _ hr => exact (found _ (List.mem_of_find?_eq_some hr)).le
  case h_2 r _ hr => exact found _ (List.mem_of_getLast? hr)
  case h_3 => exact hc

theorem State.HistoryOk.ring_length {s : State} (h : s.HistoryOk) : s.minuteRing.length ≤ s.minuteSeq := by
  have := congrArg List.length h.minutes
  simp only [List.length_map, List.length_range'] at this
  omega

theorem State.HistoryOk.list_length {s : State} (h : s.HistoryOk) : s.periodList.length ≤ s.periodSeq := by
  have := congrArg List.length h.periods
  simp only [List.length_map, List.length_range'] at this
  omega

theorem State.EventsOk.oldest_le {s : State} (h : s.EventsOk) : s.eventOldest ≤ s.eventSeq := by
  unfold State.eventOldest
  split
  · exact le_rfl
  case h_2 r _ hl => exact (h.below r (by simp [hl])).le

theorem State.RecordsOk.oldestOf_le {s : State} (hs : s.RecordsOk) (c : Collection) : s.oldestOf c ≤ s.nextOf c := by
  cases c with
  | history => exact Nat.sub_le _ _
  | periods => exact Nat.sub_le _ _
  | events => exact hs.2.1.oldest_le

theorem State.RecordsOk.seekTarget_le {s : State} (hs : s.RecordsOk) (c : Collection) (x : Position) (n : Nat) :
    s.seekTarget c x n ≤ s.nextOf c := by
  have := hs.oldestOf_le c
  cases x with
  | oldest => exact this
  | next => exact le_rfl
  | sequence =>
    change clampCount _ _ _ ≤ _
    unfold clampCount
    split
    · exact this
    · split <;> omega

theorem State.RecordsOk.sought {s : State} (hs : s.RecordsOk) (p : Port) (c : Collection) (x : Position) (n : Nat) :
    (s.setPort p ((s.port p).setCursor c (s.seekTarget c x n))).RecordsOk := by
  obtain ⟨history, periods, events⟩ := hs.2.2 p
  have target := hs.seekTarget_le c x n
  cases c with
  | history => exact hs.setPort p target periods events
  | periods => exact hs.setPort p history target events
  | events => exact hs.setPort p history periods target

theorem State.beginReset_recordsOk (s : State) : s.beginReset.RecordsOk := by
  refine ⟨⟨rfl, rfl⟩, ⟨Nat.zero_le _, .nil, ?_, ?_, ?_⟩, ?_⟩
  · intro r hr; cases hr
  · intro r hr; cases hr
  · intro ch e he; cases ch <;> cases he
  · intro p; cases p <;> exact ⟨le_rfl, le_rfl, le_rfl⟩

/-! ### Every change, every step -/

theorem State.recordView_countPeriod (s : State) : s.countPeriod.recordView = s.recordView := by
  have counted (t : State) (ch : Ch) : (t.crystalChannel ch).openSeq = (t.chan ch).openSeq := by
    unfold State.crystalChannel
    dsimp only
    split <;> rfl
  unfold State.countPeriod
  dsimp only
  split
  · simp only [State.recordView, counted]
    rfl
  · rfl

theorem Quad.update_openSeq (q : Quad Channel) (m : ChannelMask) {f : Channel → Channel} (h : ∀ c, (f c).openSeq = c.openSeq) (ch : Ch) :
    ((q.update m f).get ch).openSeq = (q.get ch).openSeq := by
  cases ch <;> simp only [Quad.update, Quad.get] <;> split <;> simp only [h]

/-- Channels that keep their open events keep the view. -/
theorem State.recordView_channels (s : State) {q : Quad Channel} (h : ∀ ch, (q.get ch).openSeq = (s.chan ch).openSeq) :
    State.recordView { s with channels := q } = s.recordView := by
  have h0 := h .ch0
  have h1 := h .ch1
  have h2 := h .ch2
  have h3 := h .ch3
  simp only [Quad.get, State.chan] at h0 h1 h2 h3
  simp only [State.recordView, h0, h1, h2, h3]

theorem Channel.openSeq_tickLapse (c : Channel) : c.tickLapse.openSeq = c.openSeq := by
  unfold Channel.tickLapse
  split <;> rfl

theorem Effect.recordsOk {k : Origin} {s t : State} (h : Effect k s t) (hs : s.RecordsOk) : t.RecordsOk := by
  have cursorsAt (p : Port) := hs.2.2 p
  cases h with
  | chan ch c h => exact hs.of_view (s.recordView_setChan ch h.openSeq)
  | line l r => exact hs.of_view (s.recordView_setRx l r)
  | clock => exact hs.of_view rfl
  | ticked => exact hs.of_view (s.recordView_channels fun ch => by cases ch <;> exact Channel.openSeq_tickLapse _)
  | period => exact hs.of_view s.recordView_countPeriod
  | notices p => exact hs.of_view (s.recordView_setPort p (by rfl))
  | minuteWritten r h => exact hs.minuteWritten h
  | periodWritten r h => exact hs.periodWritten h
  | evaluated ch => exact hs.of_view ((State.recordView_bringQuiet _ _ _).trans (s.recordView_setChan ch (by rfl)))
  | eventOpened ch r h => exact hs.eventOpened ch r h
  | eventClosed ch cause => exact hs.eventClosed ch cause
  | slot => exact hs.of_view rfl
  | calTaken ch r =>
    refine hs.of_view ?_
    unfold State.calTakeSlice
    split
    · rfl
    · split <;> rfl
  | runFaults ch => exact hs.of_view ((State.recordView_setChan _ ch (by rfl)).trans (s.recordView_endRun ch _))
  | runStopped ch => exact hs.of_view ((State.recordView_setChan _ ch (by rfl)).trans (s.recordView_endRun ch _))
  | runAborted ch =>
    refine hs.of_view ((State.recordView_setChan _ ch ?_).trans (s.recordView_endRun ch _))
    unfold Channel.recover
    split <;> rfl
  | runCompleted ch =>
    refine hs.of_view ((State.recordView_setChan _ ch (by rfl)).trans ?_)
    unfold State.completeRun
    split
    · rfl
    · split
      · exact State.recordView_setChan { s with calUnit := _ } ch (by rw [Channel.takeOutcome_eq]; rfl)
      · rfl
  | lapsed ch =>
    refine hs.of_view ?_
    unfold State.lapseResult
    split
    · exact (State.recordView_concludeRecord _ ch _).trans (s.recordView_setChan ch (by rfl))
    · rfl
  | channelQueued => exact hs.of_view rfl
  | writeBegun => exact hs.of_view rfl
  | writeEnded b =>
    refine hs.of_view ?_
    unfold State.endStoreWrite
    split
    · rfl
    · split <;> rfl
  | pins => exact hs.of_view rfl
  | transaction p => exact hs.of_view (s.recordView_setPort p (by rfl))
  | readHistory p n =>
    exact hs.setPort p (window_cursor_le n hs.1.ring_length (cursorsAt p).1) (cursorsAt p).2.1 (cursorsAt p).2.2
  | readPeriods p n =>
    exact hs.setPort p (cursorsAt p).1 (window_cursor_le n hs.1.list_length (cursorsAt p).2.1) (cursorsAt p).2.2
  | readEvents p n =>
    exact hs.setPort p (cursorsAt p).1 (cursorsAt p).2.1 (eventWindow_cursor_le n hs.2.1.below (cursorsAt p).2.2)
  | sought p c x n => exact hs.sought p c x n
  | rewound p => exact hs.setPort p (hs.oldestOf_le .history) (hs.oldestOf_le .periods) (hs.oldestOf_le .events)
  | enabled p => exact hs.of_view (s.recordView_setPort p (by rfl))
  | requested p => exact hs.of_view ((State.recordView_bringQuiet _ _ _).trans (s.recordView_setPort p (by rfl)))
  | triggersSet m => exact hs.of_view (s.recordView_channels fun ch => Quad.update_openSeq _ _ (fun _ => by rfl) ch)
  | runStarted ch l => exact hs.of_view (s.recordView_startRun ch l)
  | proposed => exact hs.of_view rfl
  | excludedSet m => exact hs.of_view (s.recordView_channels fun ch => Quad.update_openSeq _ _ (fun _ => by rfl) ch)
  | decided ch => exact hs.of_view ((State.recordView_concludeRecord _ ch _).trans (s.recordView_setChan ch (by rfl)))
  | entryChanged => exact hs.of_view rfl
  | headerChanged => exact hs.of_view rfl
  | protectionChanged => exact hs.of_view rfl
  | commissioned => exact hs.of_view rfl
  | reevaluated =>
    refine hs.of_view ((State.recordView_bringQuiet _ _ _).trans ?_)
    exact State.recordView_foldl _ (fun s ch => s.recordView_setChan ch (by rfl)) _ _
  | resetBegun => exact s.beginReset_recordsOk
  | loaded => exact hs.of_view s.recordView_loadStore
  | numbered => exact hs.of_view (s.recordView_channels fun ch => by cases ch <;> rfl)

/-- Settles O57: each single change keeps the collections and cursors (`Effect.recordsOk`), and a step is made of such changes. -/
theorem recordsKept : Obligations.RecordsKept := fun s t hs h =>
  step_keeps (P := State.RecordsOk) (fun _ _ _ => Effect.recordsOk) (fun _ _ h => h.of_view rfl) s t h hs

end Sys2Proof.Machine

/-! R15, R28, R55, R56, R58, R67, R78, R81, R175, R177: every step keeps the settings, the granted slots and the store's queue (O58). -/

namespace Sys2Proof.Machine

/-! ### A channel's settings -/

/-- R15, R28: the settings of a channel lie within their ranges, with the FS that a result or a switch would put into force. -/
structure Channel.SettingsOk (c : Channel) : Prop where
  triggers : 4000 ≤ c.trigger ∧ c.trigger ≤ 14000 ∧ 0 ≤ c.hysteresis ∧ c.hysteresis ≤ 1000
  fs : 10000 ≤ c.fs ∧ c.fs ≤ 15000
  switches : ∀ fs, c.pendingFs = some fs → 10000 ≤ fs ∧ fs ≤ 15000
  results : ∀ r, c.pendingResult = some r → 10000 ≤ r.newFs ∧ r.newFs ≤ 15000

/-- A change that leaves what the settings hang on. -/
theorem Channel.SettingsOk.of_eq {c d : Channel} (hc : c.SettingsOk) (trigger : d.trigger = c.trigger) (hysteresis : d.hysteresis = c.hysteresis)
    (fs : d.fs = c.fs) (pendingFs : d.pendingFs = c.pendingFs) (pendingResult : d.pendingResult = c.pendingResult) : d.SettingsOk := by
  obtain ⟨triggers, hfs, switches, results⟩ := hc
  exact ⟨by rwa [trigger, hysteresis], by rwa [fs], by rwa [pendingFs], by rwa [pendingResult]⟩

theorem Channel.SettingsOk.dropResult {c : Channel} (hc : c.SettingsOk) : Channel.SettingsOk { c with pendingResult := none } :=
  ⟨hc.triggers, hc.fs, hc.switches, fun _ h => by cases h⟩

theorem ChanEffect.settingsOk {k : Origin} {c d : Channel} (h : ChanEffect k c d) (hc : c.SettingsOk) : d.SettingsOk := by
  cases h with
  | switched fs h => exact ⟨hc.triggers, hc.switches fs h, fun _ h => (by cases h), hc.results⟩
  | minuteEntered m low => rw [c.accounted_enterMinute m low]; exact hc.of_eq rfl rfl rfl rfl rfl
  | sliceCounted r => rw [c.countSlice_eq r]; exact hc.of_eq rfl rfl rfl rfl rfl
  | _ => exact hc.of_eq rfl rfl rfl rfl rfl

/-- All four channels' settings lie within their ranges. -/
def State.ChannelsOk (s : State) : Prop := ∀ ch, (s.chan ch).SettingsOk

theorem State.ChannelsOk.setChan {s : State} (hs : s.ChannelsOk) (ch : Ch) {c : Channel} (hc : c.SettingsOk) : (s.setChan ch c).ChannelsOk := by
  intro d
  rw [State.chan_setChan]
  split
  · exact hc
  · exact hs d

theorem State.ChannelsOk.of_channels {s t : State} (hs : s.ChannelsOk) (h : t.channels = s.channels) : t.ChannelsOk := fun ch => by
  rw [State.chan, h]
  exact hs ch

theorem State.ChannelsOk.setPort {s : State} (hs : s.ChannelsOk) (p : Port) (x : PortState) : (s.setPort p x).ChannelsOk :=
  hs.of_channels (by simp)

theorem State.ChannelsOk.bringQuiet {s : State} (hs : s.ChannelsOk) (ch : Ch) (i : QuietInput) : (s.bringQuiet ch i).ChannelsOk := fun d => by
  rw [State.chan_bringQuiet]
  exact hs d

theorem State.ChannelsOk.holdQuiet {s : State} (hs : s.ChannelsOk) (ch : Ch) : (s.holdQuiet ch).ChannelsOk :=
  hs.setChan ch ((hs ch).of_eq rfl rfl rfl rfl rfl)

theorem State.ChannelsOk.concludeRecord {s : State} (hs : s.ChannelsOk) (ch : Ch) (o : CalOutcome) : (s.concludeRecord ch o).ChannelsOk :=
  hs.setChan ch ((hs ch).of_eq rfl rfl rfl rfl rfl)

theorem State.ChannelsOk.endRun {s : State} (hs : s.ChannelsOk) (ch : Ch) (o : CalOutcome) : (s.endRun ch o).ChannelsOk := by
  unfold State.endRun
  split
  · have idle : State.ChannelsOk { s with calUnit := { s.calUnit with run := none } } := hs.of_channels rfl
    exact (idle.concludeRecord ch o).of_channels rfl
  · exact hs

theorem State.ChannelsOk.foldl {α : Type} {work : State → α → State} (h : ∀ (s : State) (a : α), s.ChannelsOk → (work s a).ChannelsOk) :
    ∀ (l : List α) (s : State), s.ChannelsOk → (l.foldl work s).ChannelsOk
  | [], _, hs => hs
  | a :: l, s, hs => State.ChannelsOk.foldl h l (work s a) (h s a hs)

/-- R118: a new FS that is put into force or held as a result lies within 10000 to 15000. -/
theorem CalRun.figures_newFs (x : CalRun) (fs reference : Level) (h : (x.figures fs reference).outcome = .applied ∨ (x.figures fs reference).outcome = .pending) :
    10000 ≤ (x.figures fs reference).newFs ∧ (x.figures fs reference).newFs ≤ 15000 := by
  unfold CalRun.figures at h ⊢
  dsimp only at h ⊢
  split at h
  · simp at h
  split at h
  · simp at h
  split at h
  · simp at h
  · next inside =>
    simp only [within, Bool.or_eq_true, Bool.not_eq_true', not_or, Bool.not_eq_false, Bool.and_eq_true, decide_eq_true_eq] at inside
    exact inside.2

theorem Channel.SettingsOk.takeOutcome {c : Channel} (hc : c.SettingsOk) (x : CalRun) (fs reference : Level) (n : MinuteOrAbsent) :
    (c.takeOutcome (x.figures fs reference) n).SettingsOk := by
  have range := x.figures_newFs fs reference
  unfold Channel.takeOutcome
  dsimp only
  split
  case h_1 pending => exact ⟨hc.triggers, hc.fs, hc.switches, fun _ h => by cases h; exact range (.inr pending)⟩
  case h_2 applied => exact ⟨hc.triggers, hc.fs, fun _ h => by cases h; exact range (.inl applied), hc.results⟩
  case h_3 => exact hc.of_eq rfl rfl rfl rfl rfl

theorem clampTo_within {lo hi : Int} (x : Int) (h : lo ≤ hi) : lo ≤ clampTo lo hi x ∧ clampTo lo hi x ≤ hi := by
  unfold clampTo
  split
  · exact ⟨le_rfl, h⟩
  · split <;> omega

theorem State.ChannelsOk.update {s : State} (hs : s.ChannelsOk) (m : ChannelMask) {f : Channel → Channel}
    (h : ∀ c : Channel, c.SettingsOk → (f c).SettingsOk) : State.ChannelsOk { s with channels := s.channels.update m f } := by
  intro ch
  have := hs ch
  cases ch <;> simp only [State.chan, Quad.update, Quad.get] at this ⊢ <;> split <;> first | exact h _ this | exact this

theorem Channel.SettingsOk.load {c : Channel} (hc : c.SettingsOk) {x : Option ChannelItem}
    (hx : ∀ i, x = some i → 10000 ≤ i.fs ∧ i.fs ≤ 15000) : (c.load x).SettingsOk := by
  cases x with
  | none => exact ⟨hc.triggers, ⟨by simp [Channel.load], by simp [Channel.load]⟩, hc.switches, hc.results⟩
  | some i => exact ⟨hc.triggers, hx i rfl, hc.switches, hc.results⟩

/-! ### What is held beside the channels -/

/-- The schedule, the table, the store and what the work on channels leaves of them. -/
def State.heldView (s : State) : Vector Entry 16 × Header × Protection × Vector Slot 8 × Store :=
  (s.entries, s.header, s.protection, s.slots, s.store)

theorem State.heldView_setPort (s : State) (p : Port) (x : PortState) : (s.setPort p x).heldView = s.heldView := by cases p <;> rfl

theorem State.heldView_bringQuiet (s : State) (ch : Ch) (i : QuietInput) : (s.bringQuiet ch i).heldView = s.heldView := by
  unfold State.bringQuiet
  split <;> rfl

theorem State.heldView_endRun (s : State) (ch : Ch) (o : CalOutcome) : (s.endRun ch o).heldView = s.heldView := by
  unfold State.endRun
  split <;> rfl

theorem State.heldView_foldl {α : Type} {work : State → α → State} (h : ∀ s a, (work s a).heldView = s.heldView) :
    ∀ (l : List α) (s : State), (l.foldl work s).heldView = s.heldView
  | [], _ => rfl
  | a :: l, s => (State.heldView_foldl h l (work s a)).trans (h s a)

/-- The entries lie within their ranges and apart from each other. -/
structure EntriesOk (e : Vector Entry 16) : Prop where
  sound : ∀ i : Fin 16, (StoreWrite.entry i e[i]).sound
  apart : ∀ i j : Fin 16, i ≠ 0 → j ≠ 0 → i ≠ j → e[i].present = true → e[j].present = true → e[i].overlaps e[j] = false

section
variable {strict : Prop}

/-- R175, R177: the store's items and queue carry only what they may; where `strict` asks for it, the queue is single and short, and the item
being written has its mark clear. -/
structure Store.Ok (strict : Prop) (x : Store) : Prop where
  items : x.items.Sound
  queued : ∀ w ∈ x.queue, w.sound
  written : ∀ w, x.writing = some w → w.sound
  once : strict → (x.queue.map StoreWrite.item).Nodup
  few : strict → x.portPending ≤ 4
  unmarked : strict → x.WritesUnmarked

/-- R78, R81: no two granted slots overlap. -/
def SlotsApart (x : Vector Slot 8) : Prop := ∀ i j : Fin 8, i ≠ j → x[i].granted = true → x[i].clashes x[j] = false

/-- The settings held beside the channels lie within their ranges; where `strict` asks for it, the slots are apart and the queue is as `Store.Ok` has it. -/
structure State.HeldOk (strict : Prop) (s : State) : Prop where
  entries : EntriesOk s.entries
  header : s.header.inRange = true
  protection : s.protection.extent ≤ 16
  slots : strict → SlotsApart s.slots
  store : s.store.Ok strict

/-- What `SettingsOk` says, by its parts. -/
theorem settingsOk_iff (s : State) : s.SettingsOk ↔ s.ChannelsOk ∧ s.HeldOk False := by
  constructor
  · rintro ⟨entries, apart, header, protection, triggers, fs, switches, results, stored, queued, written⟩
    exact ⟨fun ch => ⟨triggers ch, fs ch, switches ch, results ch⟩,
      ⟨entries, apart⟩, header, protection, nofun, ⟨stored, queued, written, nofun, nofun, nofun⟩⟩
  · rintro ⟨channels, ⟨entries, apart⟩, header, protection, -, ⟨stored, queued, written, -, -, -⟩⟩
    exact ⟨entries, apart, header, protection, fun ch => (channels ch).triggers, fun ch => (channels ch).fs,
      fun ch => (channels ch).switches, fun ch => (channels ch).results, stored, queued, written⟩

/-- What `SettingsKept` keeps, by its parts. -/
theorem settingsKept_iff (s : State) : (s.SettingsOk ∧ s.SlotsOk ∧ s.QueueOk) ↔ s.ChannelsOk ∧ s.HeldOk True := by
  rw [settingsOk_iff]
  constructor
  · rintro ⟨⟨channels, ⟨entries, header, protection, -, ⟨stored, queued, written, -, -, -⟩⟩⟩, slots, once, few, unmarked⟩
    exact ⟨channels, entries, header, protection, fun _ => slots,
      ⟨stored, queued, written, fun _ => once, fun _ => few, fun _ => unmarked⟩⟩
  · rintro ⟨channels, entries, header, protection, slots, ⟨stored, queued, written, once, few, unmarked⟩⟩
    exact ⟨⟨channels, entries, header, protection, nofun, ⟨stored, queued, written, nofun, nofun, nofun⟩⟩,
      slots trivial, once trivial, few trivial, unmarked trivial⟩

theorem State.HeldOk.of_view {s t : State} (hs : s.HeldOk strict) (h : t.heldView = s.heldView) : t.HeldOk strict := by
  simp only [State.heldView, Prod.mk.injEq] at h
  obtain ⟨entries, header, protection, slots, store⟩ := h
  obtain ⟨hentries, hheader, hprotection, hslots, hstore⟩ := hs
  exact ⟨by rwa [entries], by rwa [header], by rwa [protection], by rwa [slots], by rwa [store]⟩

/-! ### The store's queue (R175 to R177) -/

/-- The item of a write says whether a port sent it. -/
theorem StoreWrite.fromPort_iff (w : StoreWrite) : w.fromPort = true ↔ w.item < 18 ∨ w.item = 22 := by
  cases w with
  | entry i e => simp [StoreWrite.fromPort, StoreWrite.item]; omega
  | channel ch c => cases ch <;> simp [StoreWrite.fromPort, StoreWrite.item, Ch.index]
  | _ => simp [StoreWrite.fromPort, StoreWrite.item]

theorem StoreWrite.fromPort_congr {w x : StoreWrite} (h : w.item = x.item) : w.fromPort = x.fromPort := by
  rw [Bool.eq_iff_iff, w.fromPort_iff, x.fromPort_iff, h]

theorem Store.isPending_iff (st : Store) (item : Nat) : st.isPending item = true ↔ ∃ x ∈ st.queue, x.item = item := by
  simp [Store.isPending]

/-- The pending items after one more is queued. -/
theorem Store.items_enqueue (st : Store) (w : StoreWrite) : (st.enqueue w).queue.map StoreWrite.item =
    if st.isPending w.item then st.queue.map StoreWrite.item else st.queue.map StoreWrite.item ++ [w.item] := by
  unfold Store.enqueue
  split
  · rw [List.map_map]
    refine List.map_congr_left fun x _ => ?_
    simp only [Function.comp]
    split
    · next h => exact h.symm
    · rfl
  · simp

theorem Store.portPending_enqueue (st : Store) (w : StoreWrite) : (st.enqueue w).portPending =
    st.portPending + if st.isPending w.item = false ∧ w.fromPort = true then 1 else 0 := by
  have count (l : List StoreWrite) : (l.filter StoreWrite.fromPort).length = (l.map StoreWrite.item |>.filter fun n => n < 18 ∨ n = 22).length := by
    rw [List.filter_map, List.length_map]
    congr 2
    funext x
    rw [Bool.eq_iff_iff, x.fromPort_iff]
    simp
  unfold Store.portPending
  rw [count, count, st.items_enqueue]
  have port := w.fromPort_iff
  split
  · next pending => simp [pending]
  · next absent =>
    rw [List.filter_append, List.length_append]
    by_cases h : w.item < 18 ∨ w.item = 22 <;> simp_all

theorem Store.Ok.enqueue {st : Store} (h : st.Ok strict) {w : StoreWrite} (hw : w.sound) (room : w.fromPort = true → st.canTake w.item = true) :
    (st.enqueue w).Ok strict := by
  have items : (st.enqueue w).items = st.items := by unfold Store.enqueue; split <;> rfl
  have writing : (st.enqueue w).writing = st.writing := by unfold Store.enqueue; split <;> rfl
  refine ⟨by rw [items]; exact h.items, ?queued, by rw [writing]; exact h.written, ?once, ?few, fun asked => (h.unmarked asked).enqueue w⟩
  case queued =>
    intro x hx
    unfold Store.enqueue at hx
    split at hx
    · obtain ⟨y, hy, rfl⟩ := List.mem_map.mp hx
      split
      · exact hw
      · exact h.queued y hy
    · obtain hx | hx := List.mem_append.mp hx
      · exact h.queued x hx
      · rwa [List.mem_singleton.mp hx]
  case once =>
    intro asked
    rw [st.items_enqueue]
    split
    · exact h.once asked
    · next absent =>
      refine List.nodup_append.mpr ⟨h.once asked, by simp, ?_⟩
      intro n hn m hm same
      obtain ⟨x, hx, rfl⟩ := List.mem_map.mp hn
      exact absent ((st.isPending_iff _).mpr ⟨x, hx, same.trans (List.mem_singleton.mp hm)⟩)
  case few =>
    intro asked
    rw [st.portPending_enqueue]
    have few := h.few asked
    split
    · next joins =>
      have := room joins.2
      simp only [Store.canTake, joins.1, Bool.false_or, decide_eq_true_eq] at this
      omega
    · exact few

theorem StoredItems.Sound.clearMark {x : StoredItems} (h : x.Sound) (w : StoreWrite) : (x.clearMark w).Sound := by
  obtain ⟨entries, header, protection, channels⟩ := h
  cases w with
  | entry i e =>
    refine ⟨fun j e hj => entries j e ?_, header, protection, channels⟩
    simp only [StoredItems.clearMark, Fin.getElem_fin, Vector.getElem_set] at hj
    split at hj
    · cases hj
    · exact hj
  | header => exact ⟨entries, fun _ h => (by cases h), protection, channels⟩
  | protection => exact ⟨entries, header, fun _ h => (by cases h), channels⟩
  | channel ch c =>
    refine ⟨entries, header, protection, fun d c hd => channels d c ?_⟩
    simp only [StoredItems.clearMark, Quad.get_set] at hd
    split at hd
    · cases hd
    · exact hd
  | commissioning => exact ⟨entries, header, protection, channels⟩

theorem StoredItems.Sound.complete {x : StoredItems} (h : x.Sound) {w : StoreWrite} (hw : w.sound) : (x.complete w).Sound := by
  obtain ⟨entries, header, protection, channels⟩ := h
  cases w with
  | entry i e =>
    refine ⟨fun j e' hj => ?_, header, protection, channels⟩
    simp only [StoredItems.complete, Fin.getElem_fin, Vector.getElem_set] at hj
    split at hj
    · next same =>
      obtain rfl : i = j := Fin.ext same
      obtain rfl := Option.some.inj hj
      exact hw
    · exact entries j e' hj
  | header => exact ⟨entries, fun _ h => (by cases h; exact hw), protection, channels⟩
  | protection => exact ⟨entries, header, fun _ h => (by cases h; exact hw), channels⟩
  | channel ch c =>
    refine ⟨entries, header, protection, fun d c' hd => ?_⟩
    simp only [StoredItems.complete, Quad.get_set] at hd
    split at hd
    · obtain rfl := Option.some.inj hd
      exact hw
    · exact channels d c' hd
  | commissioning => exact ⟨entries, header, protection, channels⟩

theorem Store.Ok.beginWrite {st : Store} (h : st.Ok strict) : st.beginWrite.Ok strict := by
  have unmarked : strict → st.beginWrite.WritesUnmarked := fun asked => (h.unmarked asked).beginWrite
  unfold Store.beginWrite at unmarked ⊢
  split at unmarked
  · next w rest idle hq =>
    have mem : w ∈ st.queue := by simp [hq]
    have once := h.once
    have few := h.few
    rw [hq, List.map_cons] at once
    rw [Store.portPending, hq] at few
    refine ⟨h.items.clearMark w, fun x hx => h.queued x (by simp [hq, hx]), fun x hx => ?_, fun asked => (once asked).of_cons, fun asked => ?_, unmarked⟩
    · cases hx; exact h.queued w mem
    · exact (((List.sublist_cons_self w rest).filter _).length_le).trans (few asked)
  · exact h

theorem State.HeldOk.endStoreWrite {s : State} (hs : s.HeldOk strict) (b : Bool) : (s.endStoreWrite b).HeldOk strict := by
  have whole := hs
  obtain ⟨entries, header, protection, slots, ⟨items, queued, written, once, few, _⟩⟩ := hs
  unfold State.endStoreWrite
  split
  · exact whole
  · next w hw =>
    have idle : ∀ i : StoredItems, Store.WritesUnmarked { s.store with items := i, writing := none } := fun _ => .of_idle rfl
    split
    · exact ⟨entries, header, protection, slots, ⟨items.complete (written w hw), queued, fun _ h => (by cases h), once, few, fun _ => idle _⟩⟩
    · exact ⟨entries, header, protection, slots, ⟨items, queued, fun _ h => (by cases h), once, few, fun _ => idle _⟩⟩

/-! ### Entries and slots -/

/-- R58 is symmetric. -/
theorem Entry.overlaps_comm (a b : Entry) : a.overlaps b = b.overlaps a := by
  unfold Entry.overlaps
  rw [BitVec.and_comm]
  simp only [Bool.and_comm (a.coversAt _ _)]

theorem mem_entryIndices (i : Fin 16) : i ∈ entryIndices ↔ i ≠ 0 := by simp [entryIndices]

theorem State.entryOverlap_false {s : State} {i : Fin 16} {e : Entry} (h : s.entryOverlap i e = false) {j : Fin 16} (hj : j ≠ 0)
    (hij : j ≠ i) (present : s.entries[j].present = true) : e.overlaps s.entries[j] = false := by
  simp only [State.entryOverlap, List.any_eq_false, Bool.and_eq_true, not_and, Bool.not_eq_true, bne_iff_ne] at h
  exact h j ((mem_entryIndices j).mpr hj) ⟨hij, present⟩

theorem EntriesOk.set {s : State} (h : EntriesOk s.entries) (i : Fin 16) {e : Entry}
    (hp : e.present = true → e.inRange = true ∧ (i = 0 ∨ s.entryOverlap i e = false)) (h0 : i = 0 → e.present = true) :
    EntriesOk (s.entries.set i e) := by
  have get (j : Fin 16) : (s.entries.set i e)[j] = if j = i then e else s.entries[j] := by
    simp only [Fin.getElem_fin, Vector.getElem_set, Fin.ext_iff, eq_comm]
  refine ⟨fun j => ?_, fun a b ha hb hab pa pb => ?_⟩
  · rw [get]
    split
    · next same => exact ⟨fun zero => h0 (same ▸ zero), fun present => (hp present).1⟩
    · exact h.sound j
  · rw [get] at pa pb ⊢
    rw [get]
    have apart (j : Fin 16) (hj : j ≠ 0) (hji : j ≠ i) (pj : s.entries[j].present = true) (pe : e.present = true) (hi : i ≠ 0) :
        e.overlaps s.entries[j] = false := State.entryOverlap_false ((hp pe).2.resolve_left hi) hj hji pj
    split at pa <;> split at pb
    · next ai bi => exact absurd (ai.trans bi.symm) hab
    · next ai bi => rw [if_pos ai, if_neg bi]; exact apart b hb bi pb pa (ai ▸ ha)
    · next ai bi => rw [if_neg ai, if_pos bi, Entry.overlaps_comm]; exact apart a ha ai pa pb (bi ▸ hb)
    · next ai bi => rw [if_neg ai, if_neg bi]; exact h.apart a b ha hb hab pa pb

theorem Slot.clashes_eq (a b : Slot) :
    a.clashes b = true ↔ b.granted = true ∧ (a.channels &&& b.channels != 0) = true ∧ spansOverlap a b = true := by
  simp [Slot.clashes, and_assoc]

/-- R78: the overlap of two granted slots is symmetric. -/
theorem Slot.clashes_comm {a b : Slot} (hb : b.granted = true) (h : a.clashes b = false) : b.clashes a = false := by
  rw [Bool.eq_false_iff] at h ⊢
  intro clash
  obtain ⟨-, channels, spans⟩ := (b.clashes_eq a).mp clash
  refine h ((a.clashes_eq b).mpr ⟨hb, by rwa [BitVec.and_comm], ?_⟩)
  simp only [spansOverlap, Bool.and_eq_true, decide_eq_true_eq] at spans ⊢
  exact spans.symm

theorem Slot.clashes_of_not_granted {a b : Slot} (h : b.granted = false) : a.clashes b = false := by simp [Slot.clashes, h]

/-- A slot changes: it is not granted, or clashes with no other (R81), or it was granted with the same channels and span (R84). -/
theorem SlotsApart.set {x : Vector Slot 8} (h : SlotsApart x) (i : Fin 8) {y : Slot}
    (hy : y.granted = true →
      (x[i].granted = true ∧ y.channels = x[i].channels ∧ y.start = x[i].start ∧ y.stop = x[i].stop) ∨
        ∀ j, j ≠ i → y.clashes x[j] = false) : SlotsApart (x.set i y) := by
  have get (j : Fin 8) : (x.set i y)[j] = if j = i then y else x[j] := by
    simp only [Fin.getElem_fin, Vector.getElem_set, Fin.ext_iff, eq_comm]
  have clear (granted : y.granted = true) (j : Fin 8) (hj : j ≠ i) : y.clashes x[j] = false := by
    obtain ⟨was, channels, start, stop⟩ | none := hy granted
    · have := h i j hj.symm was
      simpa only [Slot.clashes, spansOverlap, channels, start, stop] using this
    · exact none j hj
  intro a b hab ga
  rw [get] at ga
  rw [get, get]
  by_cases ai : a = i
  · rw [if_pos ai] at ga
    rw [if_pos ai, if_neg fun bi => hab (ai.trans bi.symm)]
    exact clear ga b fun bi => hab (ai.trans bi.symm)
  rw [if_neg ai] at ga
  rw [if_neg ai]
  split
  · by_cases granted : y.granted = true
    · exact Slot.clashes_comm ga (clear granted a ai)
    · exact Slot.clashes_of_not_granted (by simpa using granted)
  · exact h a b hab ga

theorem SlotsApart.reset : SlotsApart (Vector.replicate 8 .reset) := fun i j _ granted => by
  simp [Slot.granted, Slot.reset] at granted

/-! ### The store load (R178) -/

/-- R178, step 3: the entry becomes absent. -/
def Entry.dropped (e : Entry) : Entry := { e with present := false }

/-- The entry is present and overlaps a present one of lower index among 1 to 15 of `final`. -/
def overlapsBelow (final : Vector Entry 16) (i : Fin 16) (e : Entry) : Prop :=
  e.present = true ∧ ∃ j : Fin 16, j ≠ 0 ∧ j < i ∧ final[j].present = true ∧ e.overlaps final[j] = true

theorem State.overlapsLower_iff (s : State) (i : Fin 16) : s.overlapsLower i = true ↔ overlapsBelow s.entries i s.entries[i] := by
  simp only [State.overlapsLower, overlapsBelow, Bool.and_eq_true, List.any_eq_true, mem_entryIndices, decide_eq_true_eq, Fin.lt_def,
    and_assoc]

/-- One entry is looked at; the others stay. -/
theorem State.dropOverlapping_entries (s : State) (i j : Fin 16) :
    (s.dropOverlapping i).entries[j] = if j = i ∧ s.overlapsLower i = true then s.entries[i].dropped else s.entries[j] := by
  unfold State.dropOverlapping
  split
  · next lower =>
    change (s.entries.set i s.entries[i].dropped)[j] = _
    simp only [Fin.getElem_fin, Vector.getElem_set, Fin.ext_iff, lower, and_true, eq_comm]
  · next lower => simp [lower]

/-- The entries looked at in rising order: each becomes absent where it overlaps a lower one that stays present. -/
theorem State.dropOverlapping_foldl (l : List (Fin 16)) (hl : l.Pairwise (· < ·)) : ∀ s : State,
    let t := l.foldl State.dropOverlapping s
    (∀ i, i ∉ l → t.entries[i] = s.entries[i]) ∧
      ∀ i ∈ l, (overlapsBelow t.entries i s.entries[i] ∧ t.entries[i] = s.entries[i].dropped) ∨
        (¬ overlapsBelow t.entries i s.entries[i] ∧ t.entries[i] = s.entries[i]) := by
  induction l with
  | nil => intro s; exact ⟨fun _ _ => rfl, fun i hi => absurd hi List.not_mem_nil⟩
  | cons i l ih =>
    intro s
    obtain ⟨above, rising⟩ := List.pairwise_cons.mp hl
    obtain ⟨outside, inside⟩ := ih rising (s.dropOverlapping i)
    have other (j : Fin 16) (hj : j ≠ i) : (s.dropOverlapping i).entries[j] = s.entries[j] := by
      rw [State.dropOverlapping_entries, if_neg fun h => hj h.1]
    have below (j : Fin 16) (hj : j < i) : (l.foldl State.dropOverlapping (s.dropOverlapping i)).entries[j] = s.entries[j] := by
      rw [outside j fun mem => absurd (above j mem) hj.asymm, other j hj.ne]
    have mine : overlapsBelow (l.foldl State.dropOverlapping (s.dropOverlapping i)).entries i s.entries[i] ↔ s.overlapsLower i = true := by
      rw [State.overlapsLower_iff]
      unfold overlapsBelow
      refine and_congr_right fun _ => exists_congr fun j => and_congr_right fun _ => and_congr_right fun lt => ?_
      rw [below j lt]
    have own : (l.foldl State.dropOverlapping (s.dropOverlapping i)).entries[i] = (s.dropOverlapping i).entries[i] :=
      outside i fun mem => lt_irrefl i (above i mem)
    refine ⟨fun j hj => ?_, fun j hj => ?_⟩
    · rw [List.foldl_cons, outside j fun mem => hj (List.mem_cons_of_mem _ mem), other j fun same => hj (same ▸ List.mem_cons_self)]
    · obtain rfl | mem := List.mem_cons.mp hj
      · rw [List.foldl_cons, mine, own, State.dropOverlapping_entries]
        by_cases lower : s.overlapsLower j = true <;> simp [lower]
      · have := inside j mem
        rwa [other j (above j mem).ne'] at this

theorem State.resumeSerial_entries (s : State) : s.resumeSerial.entries = s.entries := rfl

theorem entryIndices_rising : entryIndices.Pairwise (· < ·) := by decide

/-- What the store load makes of the entries (R178): entry 0 stays, each other one that overlaps a lower one becomes absent. -/
theorem State.loadStore_entries (s : State) (i : Fin 16) :
    (i = 0 → s.loadStore.entries[i] = s.store.items.entryLoaded i) ∧
    (i ≠ 0 → (overlapsBelow s.loadStore.entries i (s.store.items.entryLoaded i) ∧
        s.loadStore.entries[i] = (s.store.items.entryLoaded i).dropped) ∨
      (¬ overlapsBelow s.loadStore.entries i (s.store.items.entryLoaded i) ∧ s.loadStore.entries[i] = s.store.items.entryLoaded i)) := by
  obtain ⟨outside, inside⟩ := State.dropOverlapping_foldl entryIndices entryIndices_rising s.loadCopies.notifyIncomplete
  have copies : s.loadCopies.notifyIncomplete.entries = s.loadCopies.entries :=
    congrArg Prod.fst (State.heldView_foldl (fun _ _ => by rfl) _ s.loadCopies)
  have loaded : s.loadCopies.entries[i] = s.store.items.entryLoaded i := by
    simp [State.loadCopies, loadEntry, StoredItems.entryLoaded]
  rw [copies] at outside inside
  rw [State.loadStore, State.resumeSerial_entries]
  constructor
  · intro zero
    exact (outside i (by simp [mem_entryIndices, zero])).trans loaded
  · intro pos
    have := inside i ((mem_entryIndices i).mpr pos)
    rwa [loaded] at this

theorem StoredItems.Sound.entryLoaded {x : StoredItems} (h : x.Sound) (i : Fin 16) : (StoreWrite.entry i (x.entryLoaded i)).sound := by
  unfold StoredItems.entryLoaded
  cases hx : x.entries[i] with
  | some e => exact h.entries i e hx
  | none =>
    by_cases zero : i = 0
    · simp only [Option.getD_none, if_pos zero]
      exact ⟨fun _ => rfl, fun _ => by decide⟩
    · simp only [Option.getD_none, if_neg zero]
      exact ⟨fun h => absurd h zero, fun h => by cases h⟩

/-- Loaded entries that stay present do not overlap. -/
theorem State.loadStore_apart (s : State) (i j : Fin 16) (hi : i ≠ 0) (hj : j ≠ 0) (hij : i ≠ j)
    (pi : s.loadStore.entries[i].present = true) (pj : s.loadStore.entries[j].present = true) :
    s.loadStore.entries[i].overlaps s.loadStore.entries[j] = false := by
  have above (a b : Fin 16) (ha : a ≠ 0) (hb : b ≠ 0) (lt : b < a) (pa : s.loadStore.entries[a].present = true)
      (pb : s.loadStore.entries[b].present = true) : s.loadStore.entries[a].overlaps s.loadStore.entries[b] = false := by
    obtain ⟨-, absent⟩ | ⟨none, same⟩ := (s.loadStore_entries a).2 ha
    · rw [absent] at pa
      cases pa
    · rw [← same] at none
      exact Bool.eq_false_iff.mpr fun overlap => none ⟨pa, b, hb, lt, pb, overlap⟩
  obtain lt | lt := lt_or_gt_of_ne hij
  · rw [Entry.overlaps_comm]
    exact above j i hj hi lt pj pi
  · exact above i j hi hj lt pi pj

theorem State.loadStore_entriesOk {s : State} (h : s.store.items.Sound) : EntriesOk s.loadStore.entries := by
  refine ⟨fun i => ?_, s.loadStore_apart⟩
  have loaded := h.entryLoaded i
  by_cases zero : i = 0
  · rwa [(s.loadStore_entries i).1 zero]
  · obtain ⟨-, eq⟩ | ⟨-, eq⟩ := (s.loadStore_entries i).2 zero
    · rw [eq]
      exact ⟨fun h => absurd h zero, fun h => by cases h⟩
    · rwa [eq]

/-- What the store load leaves but for the entries and the serial counter. -/
theorem State.loadStore_rest (s : State) : s.loadStore.header = s.store.items.header.getD .factory ∧
    s.loadStore.protection = s.store.items.protection.getD .incomplete ∧ s.loadStore.slots = s.slots ∧
    s.loadStore.channels = s.loadCopies.channels ∧ s.loadStore.commissioning = s.store.items.commissioning.getD .blank := by
  let rest (t : State) := (t.header, t.protection, t.slots, t.channels, t.commissioning)
  have fold {α : Type} (work : State → α → State) (h : ∀ s a, rest (work s a) = rest s) : ∀ (l : List α) (s : State),
      rest (l.foldl work s) = rest s := by
    intro l
    induction l with
    | nil => intro s; rfl
    | cons a l ih => intro s; exact (ih (work s a)).trans (h s a)
  have drop : ∀ (s : State) (i : Fin 16), rest (s.dropOverlapping i) = rest s := by
    intro s i
    unfold State.dropOverlapping
    split <;> rfl
  have resumed (s : State) : rest s.resumeSerial = rest s := rfl
  have all : rest s.loadStore = rest s.loadCopies := by
    rw [State.loadStore, resumed, fold _ drop, State.notifyIncomplete, fold _ (fun _ _ => by rfl)]
  simp only [rest, Prod.mk.injEq] at all
  exact all

/-! ### Every change, every step -/

theorem State.loadStore_heldOk {s : State} (hs : s.HeldOk strict) : s.loadStore.HeldOk strict := by
  obtain ⟨header, protection, slots, -, -⟩ := s.loadStore_rest
  have stored := hs.store.items
  refine ⟨s.loadStore_entriesOk stored, ?_, ?_, by rw [slots]; exact hs.slots, by rw [State.loadStore_store]; exact hs.store⟩
  · rw [header]
    cases h : s.store.items.header with
    | none => decide
    | some x => exact stored.header x h
  · rw [protection]
    cases h : s.store.items.protection with
    | none => decide
    | some x => exact stored.protection x h

theorem State.loadStore_channelsOk {s : State} (hs : s.ChannelsOk) (stored : s.store.items.Sound) : s.loadStore.ChannelsOk := by
  obtain ⟨-, -, -, channels, -⟩ := s.loadStore_rest
  refine State.ChannelsOk.of_channels (s := s.loadCopies) (fun ch => ?_) channels
  have := (hs ch).load fun i h => stored.channels ch i h
  cases ch <;> exact this

theorem Effect.channelsOk {k : Origin} {s t : State} (h : Effect k s t) (hs : s.ChannelsOk) (stored : s.store.items.Sound) : t.ChannelsOk := by
  cases h with
  | chan ch c h => exact hs.setChan ch (h.settingsOk (hs ch))
  | line l r => exact hs.of_channels (by simp)
  | ticked =>
    intro ch
    rw [State.tickLapses_chan]
    unfold Channel.tickLapse
    split
    · exact hs ch
    · next r h => exact ⟨(hs ch).triggers, (hs ch).fs, (hs ch).switches, fun _ e => by cases e; exact (hs ch).results r h⟩
  | period =>
    intro ch
    rw [(s.countPeriod_does ch).1]
    split
    · unfold State.crystalChannel
      dsimp only
      split
      · exact (hs ch).of_eq rfl rfl rfl rfl rfl
      · exact hs ch
    · exact hs ch
  | notices p => exact hs.setPort p _
  | evaluated ch => exact (hs.holdQuiet ch).bringQuiet ch _
  | eventOpened ch => exact State.ChannelsOk.setChan (hs.of_channels rfl) ch (by exact (hs ch).of_eq rfl rfl rfl rfl rfl)
  | eventClosed ch =>
    unfold State.closeEvent
    dsimp only
    split
    · exact hs
    · exact State.ChannelsOk.setChan (hs.of_channels rfl) ch (by exact (hs ch).of_eq rfl rfl rfl rfl rfl)
  | calTaken ch r =>
    unfold State.calTakeSlice
    split
    · exact hs
    · split
      · exact hs.of_channels rfl
      · exact hs
  | runFaults ch => exact (hs.endRun ch _).setChan ch ((hs.endRun ch _ ch).of_eq rfl rfl rfl rfl rfl)
  | runStopped ch => exact (hs.endRun ch _).setChan ch ((hs.endRun ch _ ch).of_eq rfl rfl rfl rfl rfl)
  | runAborted ch =>
    refine (hs.endRun ch _).setChan ch ?_
    unfold Channel.recover
    split <;> exact (hs.endRun ch _ ch).of_eq rfl rfl rfl rfl rfl
  | runCompleted ch =>
    have completed : (s.completeRun ch).ChannelsOk := by
      unfold State.completeRun
      split
      · exact hs
      · split
        · exact (hs.setChan ch ((hs ch).takeOutcome _ _ _ _)).of_channels (by rfl)
        · exact hs
    exact completed.setChan ch ((completed ch).of_eq rfl rfl rfl rfl rfl)
  | lapsed ch =>
    unfold State.lapseResult
    split
    · exact ((hs.setChan ch (hs ch).dropResult).concludeRecord ch _).of_channels (by rfl)
    · exact hs
  | writeEnded b =>
    unfold State.endStoreWrite
    split
    · exact hs
    · split <;> exact hs.of_channels rfl
  | transaction p => exact hs.setPort p _
  | readHistory p => exact hs.setPort p _
  | readPeriods p => exact hs.setPort p _
  | readEvents p => exact hs.setPort p _
  | sought p => exact hs.setPort p _
  | rewound p => exact hs.setPort p _
  | enabled p => exact hs.setPort p _
  | requested p => exact (hs.setPort p _).bringQuiet _ _
  | triggersSet m x y =>
    have trigger := clampTo_within x (lo := 4000) (hi := 14000) (by decide)
    have hysteresis := clampTo_within y (lo := 0) (hi := 1000) (by decide)
    exact hs.update m fun c hc => ⟨⟨trigger.1, trigger.2, hysteresis.1, hysteresis.2⟩, hc.fs, hc.switches, hc.results⟩
  | runStarted ch l =>
    have superseded : (s.supersede ch).ChannelsOk := by
      unfold State.supersede
      split
      · exact hs
      · exact (hs.setChan ch (hs ch).dropResult).of_channels (by rfl)
    refine State.ChannelsOk.setChan (superseded.of_channels rfl) ch ?_
    have entered : ((s.supersede ch).chan ch).enterCalibration.SettingsOk := by
      unfold Channel.enterCalibration
      split <;> exact (superseded ch).of_eq rfl rfl rfl rfl rfl
    exact entered.of_eq rfl rfl rfl rfl rfl
  | excludedSet m => exact hs.update m fun c hc => hc.of_eq rfl rfl rfl rfl rfl
  | decided ch o r fs hr hf =>
    have dropped : Channel.SettingsOk { s.chan ch with pendingResult := none, pendingFs := fs } := by
      refine ⟨(hs ch).triggers, (hs ch).fs, ?_, fun _ h => by cases h⟩
      intro x hx
      obtain hf | hf := hf
      · cases hf.symm.trans hx; exact (hs ch).results r hr
      · exact (hs ch).switches x (hf.symm.trans hx)
    exact ((hs.setChan ch dropped).concludeRecord ch o).of_channels (by rfl)
  | reevaluated => exact (State.ChannelsOk.foldl (fun _ ch h => h.holdQuiet ch) _ s hs).bringQuiet _ _
  | resetBegun =>
    intro ch
    have reset (c : Channel) (hc : c.SettingsOk) : c.deviceReset.SettingsOk :=
      ⟨⟨by simp [Channel.deviceReset, Channel.reset], by simp [Channel.deviceReset, Channel.reset],
        by simp [Channel.deviceReset, Channel.reset], by simp [Channel.deviceReset, Channel.reset]⟩, hc.fs,
        fun _ h => (by cases h), fun _ h => (by cases h)⟩
    have := hs ch
    cases ch <;> exact reset _ this
  | loaded => exact State.loadStore_channelsOk hs stored
  | numbered =>
    intro ch
    have := hs ch
    cases ch <;> exact this.of_eq rfl rfl rfl rfl rfl
  | _ => exact hs.of_channels rfl

theorem Effect.heldOk {k : Origin} {s t : State} (h : Effect k s t) (hc : s.ChannelsOk) (hs : s.HeldOk strict) : t.HeldOk strict := by
  obtain ⟨entries, header, protection, slots, store⟩ := hs
  have hs : s.HeldOk strict := ⟨entries, header, protection, slots, store⟩
  have fromPort {w : StoreWrite} (h : s.store.canTake w.item = true) : w.fromPort = true → s.store.canTake w.item = true := fun _ => h
  cases h with
  | slot i x h => exact ⟨entries, header, protection, fun asked => (slots asked).set i fun granted => (h granted).imp id And.right, store⟩
  | channelQueued ch => exact ⟨entries, header, protection, slots, store.enqueue (hc ch).fs fun h => by cases h⟩
  | writeBegun => exact ⟨entries, header, protection, slots, store.beginWrite⟩
  | writeEnded b => exact hs.endStoreWrite b
  | entryChanged i e room present first =>
    exact ⟨entries.set i present first, header, protection, slots,
      store.enqueue (w := .entry i e) ⟨first, fun h => (present h).1⟩ (fromPort room)⟩
  | headerChanged h room range => exact ⟨entries, range, protection, slots, store.enqueue (w := .header h) range (fromPort room)⟩
  | protectionChanged x room range => exact ⟨entries, header, range, slots, store.enqueue (w := .protection x) range (fromPort room)⟩
  | commissioned r room => exact ⟨entries, header, protection, slots, store.enqueue (w := .commissioning r) trivial (fromPort room)⟩
  | resetBegun =>
    exact ⟨entries, header, protection, fun _ => .reset,
      ⟨store.items, fun _ h => (by cases h), fun _ h => (by cases h), fun _ => .nil, fun _ => Nat.zero_le _, fun _ => .of_idle rfl⟩⟩
  | loaded => exact State.loadStore_heldOk hs
  | line l r => exact hs.of_view (by cases l <;> rfl)
  | period =>
    refine hs.of_view ?_
    unfold State.countPeriod
    dsimp only
    split <;> rfl
  | notices p => exact hs.of_view (s.heldView_setPort p _)
  | evaluated ch => exact hs.of_view (State.heldView_bringQuiet _ _ _)
  | eventClosed ch =>
    refine hs.of_view ?_
    unfold State.closeEvent
    dsimp only
    split <;> rfl
  | calTaken ch r =>
    refine hs.of_view ?_
    unfold State.calTakeSlice
    split
    · rfl
    · split <;> rfl
  | runFaults ch => exact hs.of_view (s.heldView_endRun ch _)
  | runStopped ch => exact hs.of_view (s.heldView_endRun ch _)
  | runAborted ch => exact hs.of_view (s.heldView_endRun ch _)
  | runCompleted ch =>
    refine hs.of_view (?_ : (s.completeRun ch).heldView = _)
    unfold State.completeRun
    split
    · rfl
    · split <;> rfl
  | lapsed ch =>
    refine hs.of_view ?_
    unfold State.lapseResult
    split <;> rfl
  | transaction p => exact hs.of_view (s.heldView_setPort p _)
  | readHistory p => exact hs.of_view (s.heldView_setPort p _)
  | readPeriods p => exact hs.of_view (s.heldView_setPort p _)
  | readEvents p => exact hs.of_view (s.heldView_setPort p _)
  | sought p => exact hs.of_view (s.heldView_setPort p _)
  | rewound p => exact hs.of_view (s.heldView_setPort p _)
  | enabled p => exact hs.of_view (s.heldView_setPort p _)
  | requested p => exact hs.of_view ((State.heldView_bringQuiet _ _ _).trans (s.heldView_setPort p _))
  | runStarted ch l =>
    refine hs.of_view (?_ : (s.supersede ch).heldView = _)
    unfold State.supersede
    split <;> rfl
  | reevaluated => exact hs.of_view ((State.heldView_bringQuiet _ _ _).trans (State.heldView_foldl (fun _ _ => by rfl) _ _))
  | _ => exact hs.of_view rfl

end

/-- Settles O58: each single change keeps the channels' settings (`Effect.channelsOk`) and what is held beside them (`Effect.heldOk`). -/
theorem settingsKept : Obligations.SettingsKept := by
  intro s t hs h
  rw [settingsKept_iff] at hs ⊢
  exact step_keeps (P := fun s => s.ChannelsOk ∧ s.HeldOk True)
    (fun _ _ _ e hs => ⟨e.channelsOk hs.1 hs.2.store.items, e.heldOk hs.1 hs.2⟩)
    (fun _ _ hs => ⟨hs.1.of_channels rfl, hs.2.of_view rfl⟩) s t h hs

end Sys2Proof.Machine

/-! What single changes leave: the queue, the other port's own settings, the permits; and what rests on it (O1, O2, O9, O10). -/
namespace Sys2Proof.Machine

/-! ### The queue -/

theorem State.SameFrame.of_pending {s t : State} (h : s.SameFrame t) : t.pending = s.pending := h.pending

theorem State.pending_setPort (s : State) (p : Port) (x : PortState) : (s.setPort p x).pending = s.pending := by cases p <;> rfl

theorem State.pending_foldl {α : Type} {work : State → α → State} (h : ∀ s a, (work s a).pending = s.pending) :
    ∀ (l : List α) (s : State), (l.foldl work s).pending = s.pending
  | [], _ => rfl
  | a :: l, s => (State.pending_foldl h l (work s a)).trans (h s a)

theorem State.pending_loadStore (s : State) : s.loadStore.pending = s.pending := by
  have drops : ∀ (s : State) (i : Fin 16), (s.dropOverlapping i).pending = s.pending := fun s i => by
    unfold State.dropOverlapping
    split <;> rfl
  have resumed (u : State) : u.resumeSerial.pending = u.pending := rfl
  rw [State.loadStore, resumed, State.pending_foldl drops, State.notifyIncomplete, State.pending_foldl (fun _ _ => by rfl)]
  rfl

theorem State.pending_startRun (s : State) (ch : Ch) (l : Level) : (s.startRun ch l).pending = s.pending := by
  have sup : (s.supersede ch).pending = s.pending := by
    unfold State.supersede
    split <;> rfl
  exact sup

/-- No single change touches the queue. -/
theorem Effect.pending {k : Origin} {s t : State} (h : Effect k s t) : t.pending = s.pending := by
  cases h with
  | chan | clock | ticked | minuteWritten | periodWritten | slot | channelQueued | writeBegun | pins | triggersSet | proposed | excludedSet
  | decided | entryChanged | headerChanged | protectionChanged | commissioned | resetBegun | numbered => rfl
  | notices p | transaction p | readHistory p | readPeriods p | readEvents p | sought p | rewound p | enabled p => exact State.pending_setPort s p _
  | line l => cases l <;> rfl
  | period =>
    unfold State.countPeriod
    dsimp only
    split <;> rfl
  | evaluated ch => exact (State.SameFrame.evaluateQuiet s ch).pending
  | eventOpened ch r => exact (State.SameFrame.openEvent s ch r).pending
  | eventClosed ch c => exact (State.SameFrame.closeEvent s ch c).pending
  | calTaken ch r => exact (State.SameFrame.calTakeSlice s ch r).pending
  | runFaults ch => exact (State.SameFrame.endRun s ch _).pending
  | runStopped ch => exact (State.SameFrame.endRun s ch _).pending
  | runAborted ch => exact (State.SameFrame.endRun s ch _).pending
  | runCompleted ch => exact (State.SameFrame.completeRun s ch).pending
  | lapsed ch => exact (State.SameFrame.lapseResult s ch).pending
  | writeEnded b =>
    unfold State.endStoreWrite
    split
    · rfl
    · split <;> rfl
  | requested p b => exact (State.SameFrame.bringQuiet _ _ _).pending.trans (State.pending_setPort s p _)
  | runStarted ch l => exact State.pending_startRun s ch l
  | reevaluated => exact (State.SameFrame.bringQuiet _ _ _).pending.trans (State.pending_foldl (work := State.holdQuiet) (fun _ _ => rfl) _ _)
  | loaded => exact State.pending_loadStore s

theorem Effects.pending {k : Origin} {s t : State} (h : Effects k s t) : t.pending = s.pending :=
  h.keeps (P := fun u => u.pending = s.pending) (fun _ _ e hs => e.pending.trans hs) rfl

/-- Every command and event has a meaning: its arm answers a next state. -/
theorem exec_next (i : Instr) (s : State) : ∃ t, exec i s = .next t := by
  cases i <;> exact ⟨_, rfl⟩

/-- Settles O1: a step with a nonempty queue is by definition the front's execution. -/
theorem stepRunsFront : Obligations.StepRunsFront := by
  unfold Obligations.StepRunsFront
  intro s i rest h
  simp only [step, h]

/-- Settles O2: every arm answers, and its single changes leave the queue. -/
theorem everyCommandAnswers : Obligations.EveryCommandAnswers := by
  unfold Obligations.EveryCommandAnswers
  intro i s
  obtain ⟨t, ht⟩ := exec_next i s
  exact ⟨t, ht, (exec_effects i s t ht).pending⟩

/-! ### The other port -/

/-- Of a port nothing but notices and conditions has changed, and no enable. -/
def OwnKept (x y : PortState) : Prop := enablesOf y.notices = enablesOf x.notices ∧ y = { x with notices := y.notices, conditions := y.conditions }

theorem OwnKept.refl (x : PortState) : OwnKept x x := ⟨rfl, rfl⟩

theorem OwnKept.trans {x y z : PortState} (h : OwnKept x y) (h' : OwnKept y z) : OwnKept x z := by
  obtain ⟨enables, rest⟩ := h
  obtain ⟨enables', rest'⟩ := h'
  refine ⟨enables'.trans enables, ?_⟩
  rw [rest', rest]

theorem enablesOf_get (n : Vector Notice 15) (i : Fin 15) : (enablesOf n)[i.val]'(by simp [enablesOf]) = n[i].enable := by
  simp [enablesOf]

/-- The enables agree as lists exactly where they agree kind by kind. -/
theorem enablesOf_eq_iff (x y : PortState) : enablesOf y.notices = enablesOf x.notices ↔ ∀ k, (y.notice k).enable = (x.notice k).enable := by
  constructor
  · intro h k
    have get := List.getElem_of_eq h (i := k.index.val) (by simp [enablesOf])
    rwa [enablesOf_get, enablesOf_get] at get
  · intro h
    refine List.ext_getElem (by simp [enablesOf]) fun i hi _ => ?_
    obtain ⟨k, hk⟩ := NoticeKind.index_surjective ⟨i, by simpa [enablesOf] using hi⟩
    have at' := h k
    simp only [PortState.notice, hk] at at'
    simpa [enablesOf] using at'

theorem State.SameFrame.ownKept {s t : State} (h : s.SameFrame t) (q : Port) : OwnKept (s.port q) (t.port q) :=
  ⟨(enablesOf_eq_iff _ _).mpr (h.raised q).enable, h.ports q⟩

theorem State.ownKept_setPort (s : State) {p q : Port} {x : PortState} (h : q = p → OwnKept (s.port p) x) :
    OwnKept (s.port q) ((s.setPort p x).port q) := by
  rw [State.port_setPort]
  split
  · rename_i e
    subst e
    exact h rfl
  · exact .refl _

/-- A single change of another port's command, or of none, leaves a port's own settings. -/
theorem Effect.ownKept {k : Origin} (hr : k.reset = false) {q : Port} (hq : k.port ≠ some q) {s t : State} (h : Effect k s t) :
    OwnKept (s.port q) (t.port q) := by
  have other : ∀ {p : Port} {x : PortState}, k.port = some p → OwnKept (s.port q) ((s.setPort p x).port q) := fun {p x} hp =>
    State.ownKept_setPort s fun e => absurd (e ▸ hp) hq
  cases h with
  | chan | clock | ticked | minuteWritten | periodWritten | slot | channelQueued | writeBegun | pins | triggersSet | proposed | excludedSet
  | entryChanged | headerChanged | protectionChanged | commissioned => exact .refl _
  | transaction _ _ _ hk | readHistory _ _ hk | readPeriods _ _ hk | readEvents _ _ hk | sought _ _ _ _ hk | rewound _ hk
  | enabled _ _ _ hk => exact other hk
  | notices p n c he => exact State.ownKept_setPort s fun _ => ⟨he, rfl⟩
  | line l => cases l <;> exact .refl _
  | period =>
    unfold State.countPeriod
    dsimp only
    split <;> exact .refl _
  | evaluated ch => exact (State.SameFrame.evaluateQuiet s ch).ownKept q
  | eventOpened ch r => exact (State.SameFrame.openEvent s ch r).ownKept q
  | eventClosed ch c => exact (State.SameFrame.closeEvent s ch c).ownKept q
  | calTaken ch r => exact (State.SameFrame.calTakeSlice s ch r).ownKept q
  | runFaults ch => exact (State.SameFrame.endRun s ch _).ownKept q
  | runStopped ch => exact (State.SameFrame.endRun s ch _).ownKept q
  | runAborted ch => exact (State.SameFrame.endRun s ch _).ownKept q
  | runCompleted ch => exact (State.SameFrame.completeRun s ch).ownKept q
  | lapsed ch => exact (State.SameFrame.lapseResult s ch).ownKept q
  | writeEnded b =>
    unfold State.endStoreWrite
    split
    · exact .refl _
    · split
      · exact .refl _
      · exact State.port_notifyBoth _ _ _ q ▸ ⟨enablesOf_notify _ _ _, rfl⟩
  | requested p b hk => exact (other hk).trans ((State.SameFrame.bringQuiet _ _ _).ownKept q)
  | runStarted ch l =>
    have sup : OwnKept (s.port q) ((s.supersede ch).port q) := by
      unfold State.supersede
      split
      · exact .refl _
      · exact State.SameFrame.ownKept (.trans (.setChan s ch _) (.notifyBoth _ _ _)) q
    exact sup
  | decided ch o r fs => exact State.SameFrame.ownKept (.trans (.setChan _ ch _) (.trans (.setChan _ ch _) (.notifyBoth _ _ _))) q
  | reevaluated => exact State.SameFrame.ownKept (.trans (.foldl _ (fun s ch => .setChan s ch _) _ _) (.bringQuiet _ _ _)) q
  | resetBegun hk | loaded _ _ hk | numbered hk => simp [hr] at hk

theorem Effects.ownKept {k : Origin} (hr : k.reset = false) {q : Port} (hq : k.port ≠ some q) {s t : State} (h : Effects k s t) :
    OwnKept (s.port q) (t.port q) :=
  h.keeps (P := fun u => OwnKept (s.port q) (u.port q)) (fun _ _ e hs => hs.trans (e.ownKept hr hq)) (.refl _)

theorem Port.other_ne (p : Port) : p.other ≠ p := by cases p <;> decide

/-- A port's command that is no DEVICE RESET resets nothing. -/
theorem Instr.resets_of_port {i : Instr} {p : Port} (hp : i.port? = some p) (hd : ∀ q x, i ≠ .deviceReset q x) : i.resets = false := by
  cases i with
  | deviceReset q x => exact absurd rfl (hd q x)
  | resetNLow | resetNRelease | powerOn | lossOfSupply => cases hp
  | _ => rfl

/-- Settles O9: a port's command is made of changes that another port's own settings outlast. -/
theorem otherPortKept : Obligations.OtherPortKept := by
  unfold Obligations.OtherPortKept
  intro i p s t hp hd h
  have kept : OwnKept (s.port p.other) (t.port p.other) :=
    (exec_effects i s t h).ownKept (Instr.resets_of_port hp hd) (by
      change i.port? ≠ _
      rw [hp]
      exact fun e => Port.other_ne p (Option.some.inj e).symm)
  exact ⟨(enablesOf_eq_iff _ _).mp kept.1, kept.2⟩

/-! ### The permits -/

/-- What a compliance officer alone decides is as it was, and no dispensation is granted that was not. -/
structure State.PermitsKept (s t : State) : Prop where
  entries : t.entries = s.entries
  header : t.header = s.header
  protection : t.protection = s.protection
  commissioning : t.commissioning = s.commissioning
  excluded : ∀ ch, (t.chan ch).excluded = (s.chan ch).excluded
  granted : ∀ j : Fin 8, t.slots[j].granted = true → s.slots[j].granted = true

theorem State.PermitsKept.refl (s : State) : s.PermitsKept s := ⟨rfl, rfl, rfl, rfl, fun _ => rfl, fun _ h => h⟩

theorem State.PermitsKept.trans {s t u : State} (h : s.PermitsKept t) (h' : t.PermitsKept u) : s.PermitsKept u :=
  ⟨h'.entries.trans h.entries, h'.header.trans h.header, h'.protection.trans h.protection, h'.commissioning.trans h.commissioning,
    fun ch => (h'.excluded ch).trans (h.excluded ch), fun j hj => h.granted j (h'.granted j hj)⟩

theorem State.SameFrame.permitsKept {s t : State} (h : s.SameFrame t) (hx : ∀ ch, (t.chan ch).excluded = (s.chan ch).excluded) : s.PermitsKept t :=
  ⟨h.entries, h.header, h.protection, h.commissioning, hx, fun _ hj => h.slots ▸ hj⟩

theorem State.PermitsKept.setChan (s : State) (ch : Ch) {c : Channel} (h : c.excluded = (s.chan ch).excluded := by rfl) : s.PermitsKept (s.setChan ch c) :=
  (State.SameFrame.setChan s ch c).permitsKept fun d => by
    rw [State.chan_setChan]
    split
    · rename_i e
      exact e ▸ h
    · rfl

theorem State.PermitsKept.on {s t : State} (ch : Ch) (c : Channel) (hc : t.channels = s.channels.set ch c)
    (h : c.excluded = (s.chan ch).excluded := by rfl) (entries : t.entries = s.entries := by rfl) (header : t.header = s.header := by rfl)
    (protection : t.protection = s.protection := by rfl) (commissioning : t.commissioning = s.commissioning := by rfl)
    (slots : t.slots = s.slots := by rfl) : s.PermitsKept t :=
  ⟨entries, header, protection, commissioning, fun d => by
    rw [State.chan, hc]
    exact (State.PermitsKept.setChan s ch h).excluded d, fun j hj => slots ▸ hj⟩

theorem State.PermitsKept.setPort (s : State) (p : Port) (x : PortState) : s.PermitsKept (s.setPort p x) := by
  cases p <;> exact ⟨rfl, rfl, rfl, rfl, fun _ => rfl, fun _ h => h⟩

theorem State.PermitsKept.bringQuiet (s : State) (ch : Ch) (i : QuietInput) : s.PermitsKept (s.bringQuiet ch i) :=
  (State.SameFrame.bringQuiet s ch i).permitsKept fun d => by rw [State.chan_bringQuiet]

theorem State.PermitsKept.endRun (s : State) (ch : Ch) (o : CalOutcome) : s.PermitsKept (s.endRun ch o) := by
  refine (State.SameFrame.endRun s ch o).permitsKept fun d => ?_
  unfold State.endRun
  split
  · exact (State.PermitsKept.setChan { s with calUnit := { s.calUnit with run := none } } ch).excluded d
  · rfl

theorem State.PermitsKept.supersede (s : State) (ch : Ch) : s.PermitsKept (s.supersede ch) := by
  unfold State.supersede
  split
  · exact .refl s
  · exact .on ch _ rfl

theorem ChanEffect.excluded {k : Origin} {c d : Channel} (h : ChanEffect k c d) : d.excluded = c.excluded := by
  cases h with
  | minuteEntered m low => rw [Channel.accounted_enterMinute c m low]
  | sliceCounted r => rw [Channel.countSlice_eq]
  | _ => rfl

theorem State.excluded_tickLapses (s : State) (ch : Ch) : (s.tickLapses.chan ch).excluded = (s.chan ch).excluded := by
  rw [State.tickLapses_chan]
  unfold Channel.tickLapse
  split <;> rfl

theorem State.excluded_countPeriod (s : State) (ch : Ch) : (s.countPeriod.chan ch).excluded = (s.chan ch).excluded := by
  have counted : ∀ (u : State) (d : Ch), (u.crystalChannel d).excluded = (u.chan d).excluded := fun u d => by
    unfold State.crystalChannel
    dsimp only
    split <;> rfl
  unfold State.countPeriod
  dsimp only
  split
  · cases ch <;> exact counted _ _
  · rfl

/-- A single change that neither the compliance port nor a reset brings about keeps the permits. -/
theorem Effect.permitsKept {k : Origin} (hr : k.reset = false) (hp : k.port ≠ some .compliance) {s t : State} (h : Effect k s t) :
    s.PermitsKept t := by
  cases h with
  | clock | minuteWritten | periodWritten | channelQueued | writeBegun | pins | proposed => exact ⟨rfl, rfl, rfl, rfl, fun _ => rfl, fun _ h => h⟩
  | chan ch c hc => exact .setChan s ch hc.excluded
  | notices p | transaction p | readHistory p | readPeriods p | readEvents p | sought p | rewound p | enabled p => exact .setPort s p _
  | line l => cases l <;> exact ⟨rfl, rfl, rfl, rfl, fun _ => rfl, fun _ h => h⟩
  | ticked => exact ⟨rfl, rfl, rfl, rfl, State.excluded_tickLapses s, fun _ h => h⟩
  | period =>
    have frame : s.countPeriod.entries = s.entries ∧ s.countPeriod.header = s.header ∧ s.countPeriod.protection = s.protection ∧
        s.countPeriod.commissioning = s.commissioning ∧ s.countPeriod.slots = s.slots := by
      unfold State.countPeriod
      dsimp only
      split <;> exact ⟨rfl, rfl, rfl, rfl, rfl⟩
    obtain ⟨entries, header, protection, commissioning, slots⟩ := frame
    exact ⟨entries, header, protection, commissioning, State.excluded_countPeriod s, fun j hj => slots ▸ hj⟩
  | evaluated ch => exact .trans (.setChan s ch) (.bringQuiet _ _ _)
  | eventOpened ch r => exact .on ch _ rfl
  | eventClosed ch c =>
    unfold State.closeEvent
    dsimp only
    split
    · exact .refl s
    · exact .on ch _ rfl
  | slot i x hx =>
    refine ⟨rfl, rfl, rfl, rfl, fun _ => rfl, fun j hj => ?_⟩
    by_cases e : j = i
    · subst e
      rcases hx (by simpa using hj) with ⟨granted, _⟩ | ⟨port, _⟩
      · exact granted
      · exact absurd port hp
    · have ne : i.val ≠ j.val := fun h => e (Fin.ext h.symm)
      simpa [Vector.getElem_set, ne] using hj
  | calTaken ch r =>
    unfold State.calTakeSlice
    split
    · exact .refl s
    · split
      · exact ⟨rfl, rfl, rfl, rfl, fun _ => rfl, fun _ h => h⟩
      · exact .refl s
  | runFaults ch => exact .trans (.endRun s ch _) (.setChan _ ch)
  | runStopped ch => exact .trans (.endRun s ch _) (.setChan _ ch)
  | runAborted ch =>
    refine .trans (.endRun s ch _) (.setChan _ ch ?_)
    unfold Channel.recover
    split <;> rfl
  | runCompleted ch =>
    refine (State.SameFrame.trans (State.SameFrame.completeRun s ch) (.setChan _ ch _)).permitsKept fun d => ?_
    refine ((State.PermitsKept.setChan (s.completeRun ch) ch).excluded d).trans ?_
    by_cases e : d = ch
    · subst e
      rw [State.completeRun_chan]
    · rw [(State.SliceFrame.completeRun s ch).others d e]
  | lapsed ch =>
    unfold State.lapseResult
    split
    · exact .trans (.setChan s ch) (.on ch _ rfl)
    · exact .refl s
  | writeEnded b =>
    unfold State.endStoreWrite
    split
    · exact .refl s
    · split <;> exact ⟨rfl, rfl, rfl, rfl, fun _ => rfl, fun _ h => h⟩
  | requested p b => exact .trans (.setPort s p _) (.bringQuiet _ _ _)
  | triggersSet m t h =>
    refine ⟨rfl, rfl, rfl, rfl, fun ch => ?_, fun _ h => h⟩
    cases ch <;> exact apply_ite Channel.excluded _ _ _ |>.trans (ite_self _)
  | runStarted ch l =>
    refine .trans (.supersede s ch) (.on ch _ rfl ?_)
    unfold Channel.enterCalibration
    split <;> rfl
  | excludedSet _ _ hk | decided _ _ _ _ _ _ hk | entryChanged _ _ _ _ _ hk | headerChanged _ _ _ hk | protectionChanged _ _ _ hk
  | commissioned _ _ hk | reevaluated hk => exact absurd hk hp
  | resetBegun hk | loaded _ _ hk | numbered hk => simp [hr] at hk

/-- What the site port sends is made of the site port's changes: a DEVICE RESET is not its to send. -/
theorem exec_site_effects (i : Instr) (s t : State) (hp : i.port? = some .site) (h : exec i s = .next t) :
    Effects ⟨some .site, true, false, true⟩ s t := by
  by_cases hd : ∀ q x, i ≠ .deviceReset q x
  · have e : i.origin = ⟨some .site, true, false, true⟩ := by rw [Instr.origin, hp, Instr.resets_of_port hp hd]
    exact e ▸ exec_effects i s t h
  · push Not at hd
    obtain ⟨q, x, rfl⟩ := hd
    obtain rfl : q = .site := Option.some.inj hp
    injection h with h
    subst h
    exact effects_portWrite rfl rfl _ _ _ _ _ (fun _ _ _ role _ => by cases role) s

/-- Settles O10: none of the site port's changes touches a permit. -/
theorem sitePortSparesPermits : Obligations.SitePortSparesPermits := by
  unfold Obligations.SitePortSparesPermits
  intro i s t hp h
  have kept : s.PermitsKept t := (exec_site_effects i s t hp h).keeps (P := s.PermitsKept)
    (fun _ _ e hs => hs.trans (e.permitsKept rfl (by decide))) (.refl s)
  exact ⟨kept.entries, kept.header, kept.protection, kept.commissioning, kept.excluded, kept.granted⟩

end Sys2Proof.Machine

/-! The commands by their code and form: what a transaction spells, how it is judged whole and in pieces (O5, O6, O7, O8). -/
namespace Sys2Proof.Machine

/-! ### How the transactions of a command are judged -/

/-- How the transactions of a command are judged, by its form as a write or a read. A read's owner looks at its parameters alone, and
no refusal is OK. -/
inductive JudgedAs (p : Port) : Option (Nat × Role) → Option Nat → (List Byte → List Byte → Bool → State → Judgement) → Prop
  | write (n : Nat) (role : Role) (owner : List Byte → State → Except Result State) :
    JudgedAs p (some (n, role)) none (judgeWrite p n role owner)
  | read (n : Nat) (owner : List Byte → State → Except Result (State × List Byte))
    (refuses : ∀ params s, owner params s ≠ .error .ok)
    (looks : ∀ params more s, n ≤ params.length → owner (params ++ more) s = owner params s) :
    JudgedAs p none (some n) (judgeRead n owner)
  | nop : JudgedAs p none none fun _ _ _ => .nothing
  | unknown : JudgedAs p none none judgeUnknown

theorem byteAt_append {l : List Byte} (more : List Byte) {i : Nat} (h : i < l.length) : byteAt (l ++ more) i = byteAt l i := by
  simp [byteAt, List.getD_eq_getElem?_getD, List.getElem?_append_left h]

theorem u8At_append {l : List Byte} (more : List Byte) {i : Nat} (h : i < l.length) : u8At (l ++ more) i = u8At l i := by
  rw [u8At, byteAt_append more h, u8At]

/-- A read whose owner looks at no parameter. -/
theorem JudgedAs.read_plain {p : Port} (answer : State → State × List Byte) :
    JudgedAs p none (some 0) (judgeRead 0 fun _ s => .ok (answer s)) := .read 0 _ (fun _ _ => by simp) fun _ _ _ _ => rfl

/-- A read whose owner looks at one number. -/
theorem JudgedAs.read_number {p : Port} (owner : Nat → State → Except Result (State × List Byte)) (refuses : ∀ n s, owner n s ≠ .error .ok) :
    JudgedAs p none (some 1) (judgeRead 1 fun params => owner (u8At params 0)) :=
  .read 1 _ (fun _ => refuses _) fun params more s h => by
    rw [u8At_append more h]

theorem readChannel_judged (p : Port) (wx : Bool) : JudgedAs p none (some 1) (judgeRead 1 fun params => readChannelOwner params wx) :=
  .read_number (fun n s => match Ch.ofNat? n with
    | none => .error .notFound
    | some ch => .ok (s.sampleWx wx, (s.sampleWx wx).channelBytes ch)) fun n s => by
    split <;> simp

theorem readEntry_judged (p : Port) : JudgedAs p none (some 1) (judgeRead 1 readEntryOwner) :=
  .read_number (fun n s => match entryIndex? n with
    | none => .error .notFound
    | some i => .ok (s, s.entryBytes i)) fun n s => by
    split <;> simp

theorem readDispensation_judged (p : Port) : JudgedAs p none (some 1) (judgeRead 1 readDispensationOwner) :=
  .read_number (fun n s => match slotIndex? n with
    | none => .error .notFound
    | some i => .ok (s, s.slotBytes i)) fun n s => by
    split <;> simp

theorem readAccount_judged (p : Port) : JudgedAs p none (some 1) (judgeRead 1 readAccountOwner) :=
  .read_number (fun n s => match Ch.ofNat? n with
    | none => .error .notFound
    | some ch => .ok (s, s.accountBytes ch)) fun n s => by
    split <;> simp

theorem readHistogram_judged (p : Port) : JudgedAs p none (some 3) (judgeRead 3 readHistogramOwner) := by
  refine .read 3 _ (fun params s => ?_) fun params more s h => ?_
  · unfold readHistogramOwner
    split <;> simp
  · unfold readHistogramOwner binCount firstBin
    rw [u8At_append more (by omega), u8At_append more (by omega), u8At_append more (by omega)]

theorem readEvents_judged (p : Port) : JudgedAs p none (some 1) (judgeRead 1 (readEventsOwner p)) :=
  .read 1 _ (fun params s => by simp [readEventsOwner]) fun params more s h => by
    unfold readEventsOwner recordCount
    rw [u8At_append more h]

theorem readHistory_judged (p : Port) : JudgedAs p none (some 1) (judgeRead 1 (readHistoryOwner p)) :=
  .read 1 _ (fun params s => by simp [readHistoryOwner]) fun params more s h => by
    unfold readHistoryOwner recordCount
    rw [u8At_append more h]

theorem readPeriods_judged (p : Port) : JudgedAs p none (some 1) (judgeRead 1 (readPeriodsOwner p)) :=
  .read 1 _ (fun params s => by simp [readPeriodsOwner]) fun params more s h => by
    unfold readPeriodsOwner recordCount
    rw [u8At_append more h]

/-- The command `i` of port `p` has this code and its transactions are judged so; `piece` is the piece it stands for. -/
structure Instr.Spelled (i : Instr) (p : Port) (code : Byte) (piece : Piece) (judge : List Byte → List Byte → Bool → State → Judgement) :
    Prop where
  port : i.port? = some p
  part : i.part = piece.part
  bytes : encodeTransaction i = some (code :: piece.params)
  judged : JudgedAs p i.writeForm i.readForm judge
  runs : ∀ s, exec i s = .next (s.transact p piece code judge)

/-- Every port's command is spelled by some code and judged by its form. -/
theorem Instr.spelled {i : Instr} {p : Port} (hp : i.port? = some p) : ∃ code piece judge, Instr.Spelled i p code piece judge := by
  cases i with
  | nop q x => cases hp; exact ⟨_, x, _, rfl, rfl, rfl, .nop, fun _ => rfl⟩
  | unknownCommandCode q c x => cases hp; exact ⟨_, x, _, rfl, rfl, rfl, .unknown, fun _ => rfl⟩
  | readLive q x wx => cases hp; exact ⟨_, x, _, rfl, rfl, rfl, .read_plain _, fun _ => rfl⟩
  | readHeader q x prot => cases hp; exact ⟨_, x, _, rfl, rfl, rfl, .read_plain _, fun _ => rfl⟩
  | readClock q x | readNotices q x | readCommissioning q x | identify q x =>
    cases hp; exact ⟨_, x, _, rfl, rfl, rfl, .read_plain _, fun _ => rfl⟩
  | readChannel q x wx => cases hp; exact ⟨_, x, _, rfl, rfl, rfl, readChannel_judged _ wx, fun _ => rfl⟩
  | readEntry q x => cases hp; exact ⟨_, x, _, rfl, rfl, rfl, readEntry_judged _, fun _ => rfl⟩
  | readDispensation q x => cases hp; exact ⟨_, x, _, rfl, rfl, rfl, readDispensation_judged _, fun _ => rfl⟩
  | readAccount q x => cases hp; exact ⟨_, x, _, rfl, rfl, rfl, readAccount_judged _, fun _ => rfl⟩
  | readHistogram q x => cases hp; exact ⟨_, x, _, rfl, rfl, rfl, readHistogram_judged _, fun _ => rfl⟩
  | readEvents q x => cases hp; exact ⟨_, x, _, rfl, rfl, rfl, readEvents_judged _, fun _ => rfl⟩
  | readHistory q x => cases hp; exact ⟨_, x, _, rfl, rfl, rfl, readHistory_judged _, fun _ => rfl⟩
  | readPeriods q x => cases hp; exact ⟨_, x, _, rfl, rfl, rfl, readPeriods_judged _, fun _ => rfl⟩
  | setProtection q x prot => cases hp; exact ⟨_, x, _, rfl, rfl, rfl, .write _ _ _, fun _ => rfl⟩
  | seek q x | startChannels q x | stopChannels q x | exclude q x | setEventTrigger q x | calibrate q x | abortCalibration q x
  | acceptCalibration q x | rejectCalibration q x | setTime q x | trimClock q x | writeEntry q x | deleteEntry q x | writeHeader q x
  | proposeDispensation q x | withdrawDispensation q x | approveDispensation q x | rejectDispensation q x | revokeDispensation q x
  | setNoticeEnables q x | clearConditions q x | setQuietRequest q x | portReset q x | writeCommissioning q x | lockCommissioning q x
  | deviceReset q x => cases hp; exact ⟨_, x, _, rfl, rfl, rfl, .write _ _ _, fun _ => rfl⟩
  | _ => cases hp

theorem decodeCommand_unknown (p : Port) (wx prot : Bool) {code : Byte} (h : code ∉ knownCodes) (piece : Piece) :
    decodeCommand p wx prot code piece = .unknownCommandCode p code piece := by
  unfold decodeCommand
  split
  case h_43 => rfl
  all_goals exact absurd (by decide) h

/-- The command a code spells, whatever the piece: its transactions are all judged alike. -/
theorem decodeCommand_spelled (p : Port) (wx prot : Bool) (code : Byte) :
    ∃ judge, ∀ piece, Instr.Spelled (decodeCommand p wx prot code piece) p code piece judge := by
  by_cases known : code ∈ knownCodes
  · fin_cases known
    · exact ⟨_, fun _ => ⟨rfl, rfl, rfl, .nop, fun _ => rfl⟩⟩
    · exact ⟨_, fun _ => ⟨rfl, rfl, rfl, .read_plain _, fun _ => rfl⟩⟩
    · exact ⟨_, fun _ => ⟨rfl, rfl, rfl, readChannel_judged _ wx, fun _ => rfl⟩⟩
    · exact ⟨_, fun _ => ⟨rfl, rfl, rfl, .read_plain _, fun _ => rfl⟩⟩
    · exact ⟨_, fun _ => ⟨rfl, rfl, rfl, readEntry_judged _, fun _ => rfl⟩⟩
    · exact ⟨_, fun _ => ⟨rfl, rfl, rfl, .read_plain _, fun _ => rfl⟩⟩
    · exact ⟨_, fun _ => ⟨rfl, rfl, rfl, readDispensation_judged _, fun _ => rfl⟩⟩
    · exact ⟨_, fun _ => ⟨rfl, rfl, rfl, readAccount_judged _, fun _ => rfl⟩⟩
    · exact ⟨_, fun _ => ⟨rfl, rfl, rfl, readHistogram_judged _, fun _ => rfl⟩⟩
    · exact ⟨_, fun _ => ⟨rfl, rfl, rfl, readEvents_judged _, fun _ => rfl⟩⟩
    · exact ⟨_, fun _ => ⟨rfl, rfl, rfl, readHistory_judged _, fun _ => rfl⟩⟩
    · exact ⟨_, fun _ => ⟨rfl, rfl, rfl, readPeriods_judged _, fun _ => rfl⟩⟩
    · exact ⟨_, fun _ => ⟨rfl, rfl, rfl, .read_plain _, fun _ => rfl⟩⟩
    · exact ⟨_, fun _ => ⟨rfl, rfl, rfl, .read_plain _, fun _ => rfl⟩⟩
    · exact ⟨_, fun _ => ⟨rfl, rfl, rfl, .read_plain _, fun _ => rfl⟩⟩
    all_goals exact ⟨_, fun _ => ⟨rfl, rfl, rfl, .write _ _ _, fun _ => rfl⟩⟩
  · refine ⟨judgeUnknown, fun piece => ?_⟩
    rw [decodeCommand_unknown p wx prot known]
    exact ⟨rfl, rfl, rfl, .unknown, fun _ => rfl⟩

/-! ### Transactions and commands (O5) -/

theorem u16At_eq (bs : List Byte) (i : Nat) : u16At bs i = (bs.getD i 0).toNat + 256 * (bs.getD (i + 1) 0).toNat := by
  have low := (byteAt bs i).isLt
  rw [u16At, word16At, BitVec.toNat_append, ← Nat.shiftLeft_add_eq_or_of_lt low, Nat.shiftLeft_eq]
  change (bs.getD (i + 1) 0).toNat * 2 ^ 8 + (bs.getD i 0).toNat = _
  ring

theorem u32At_eq (bs : List Byte) (i : Nat) :
    u32At bs i = (bs.getD i 0).toNat + 256 * (bs.getD (i + 1) 0).toNat + 65536 * (bs.getD (i + 2) 0).toNat
      + 16777216 * (bs.getD (i + 3) 0).toNat := by
  have low := (word16At bs i).isLt
  have lower := u16At_eq bs i
  have upper := u16At_eq bs (i + 2)
  rw [u32At, BitVec.toNat_append, ← Nat.shiftLeft_add_eq_or_of_lt low, Nat.shiftLeft_eq]
  change u16At bs (i + 2) * 2 ^ 16 + u16At bs i = _
  rw [lower, upper]
  ring

theorem levelAt_eq (bs : List Byte) (i : Nat) :
    levelAt bs i = (if u16At bs i < 32768 then (u16At bs i : Int) else (u16At bs i : Int) - 65536) := by
  rw [levelAt, BitVec.toInt_eq_toNat_cond]
  change (if 2 * u16At bs i < 2 ^ 16 then (u16At bs i : Int) else (u16At bs i : Int) - (2 ^ 16 : Nat)) = _
  split <;> split <;> omega

theorem s8At_eq (bs : List Byte) (i : Nat) : s8At bs i = (if u8At bs i < 128 then (u8At bs i : Int) else (u8At bs i : Int) - 256) := by
  rw [s8At, BitVec.toInt_eq_toNat_cond]
  change (if 2 * u8At bs i < 2 ^ 8 then (u8At bs i : Int) else (u8At bs i : Int) - (2 ^ 8 : Nat)) = _
  split <;> split <;> omega

theorem maskHas_maskAt (bs : List Byte) (i : Nat) (ch : Ch) : maskHas (maskAt bs i) ch = (bs.getD i 0).getLsbD ch.index := by
  have small : ch.index < 4 := by cases ch <;> decide
  simp [maskHas, maskAt, byteAt, small]

theorem daysAt_bit (bs : List Byte) (i : Nat) {d : Nat} (h : d < 7) : (daysAt bs i).getLsbD d = (bs.getD i 0).getLsbD d := by
  simp [daysAt, byteAt, h]

theorem flagAt_iff (bs : List Byte) (i : Nat) : flagAt bs i = true ↔ bs.getD i 0 ≠ 0 := by simp [flagAt, byteAt]

/-- A well-formed command of a port is the one its code and parameters spell. -/
theorem decodeTransaction_of_encode {i : Instr} {p : Port} {bytes : List Byte} (wx prot : Bool) (wf : i.wf = true) (hp : i.port? = some p)
    (h : encodeTransaction i = some bytes) : decodeTransaction p (i.wxOr wx) (i.protOr prot) bytes i.part = some i := by
  cases i with
  | unknownCommandCode q c x =>
    cases hp
    cases h
    have unknown : c ∉ knownCodes := by simpa [Instr.wf] using wf
    exact congrArg some (decodeCommand_unknown p _ _ unknown _)
  | _ => cases hp <;> cases h <;> rfl

/-- What any bytes spell is well formed. -/
theorem decodeCommand_wf (p : Port) (wx prot : Bool) (code : Byte) (piece : Piece) : (decodeCommand p wx prot code piece).wf = true := by
  by_cases known : code ∈ knownCodes
  · fin_cases known <;> rfl
  · rw [decodeCommand_unknown p wx prot known]
    simpa [Instr.wf] using known

/-- Settles O5: a command is told by its code alone, and the parameter fields are read byte by byte. -/
theorem transactionsDecode : Obligations.TransactionsDecode := by
  unfold Obligations.TransactionsDecode
  refine ⟨fun i p bytes wx prot wf hp h => decodeTransaction_of_encode wx prot wf hp h, ?_, ?_⟩
  · rintro p (_ | ⟨code, params⟩) wx prot part ne
    · exact absurd rfl ne
    · obtain ⟨judge, spelled⟩ := decodeCommand_spelled p wx prot code
      have it := spelled ⟨part, params⟩
      exact ⟨_, rfl, decodeCommand_wf p wx prot code _, it.port, it.part, it.bytes⟩
  · exact fun bs i => ⟨u16At_eq bs i, u32At_eq bs i, levelAt_eq bs i, s8At_eq bs i, maskHas_maskAt bs i, fun d hd => daysAt_bit bs i hd,
      flagAt_iff bs i⟩

/-! ### Wrong forms (O6) -/

/-- A write of a wrong length is refused FRAME. -/
theorem transact_write_frame {s : State} (hr : s.running = true) (p : Port) (code : Byte) {n : Nat} (role : Role) {params : List Byte}
    (owner : List Byte → State → Except Result State) (h : params.length ≠ n) :
    s.transact p (.whole params) code (judgeWrite p n role owner) = s.settle.wrote p .frame s.settle params := by
  rw [transact_whole hr]
  simp [judgeWrite, h, State.conclude, State.wrote, clocked_write]

/-- A write of the right length is refused ROLE on the wrong port. -/
theorem transact_write_role {s : State} (hr : s.running = true) {p : Port} (code : Byte) {n : Nat} {role : Role} {params : List Byte}
    (owner : List Byte → State → Except Result State) (h : params.length = n) (hp : role.allows p = false) :
    s.transact p (.whole params) code (judgeWrite p n role owner) = s.settle.wrote p .role s.settle params := by
  subst h
  rw [transact_whole hr]
  simp [judgeWrite, judgeOwner, hp, State.conclude, State.wrote, clocked_write]

/-- A read cut short is refused FRAME, without a snapshot. -/
theorem transact_read_frame {s : State} (hr : s.running = true) (p : Port) (code : Byte) {n : Nat} {params : List Byte}
    (owner : List Byte → State → Except Result (State × List Byte)) (h : params.length < n) :
    s.transact p (.whole params) code (judgeRead n owner) = s.settle.readRefused p .frame n params := by
  have short : ¬ n < params.length + 1 := by omega
  have sent : clocked (params.length + 1) (s.settle.opening p) = readSent s.settle p n [] (params.length + 1) := by
    rw [← clocked_read]
    simp [clocked, List.take_append, List.take_replicate]
    omega
  rw [transact_whole hr]
  simp only [judgeRead, List.length_nil, Nat.zero_le, decide_true, List.length_cons, short, decide_false, Bool.and_false, Bool.false_eq_true,
    if_false, Nat.succ_le_iff.mpr h, List.isEmpty_cons, Bool.not_false, Bool.and_self, if_true, State.conclude,
    State.readRefused, Option.getD_some, List.append_nil, h,
    sent]

/-- Settles O6: the judgement of each form refuses a wrong length before its owner is asked. -/
theorem formsRefused : Obligations.FormsRefused := by
  unfold Obligations.FormsRefused
  intro i p code params count s hr hp hw he
  obtain ⟨c, piece, judge, spelled⟩ := Instr.spelled hp
  obtain ⟨part, ps⟩ := piece
  obtain rfl : part = .whole := spelled.part.symm.trans hw
  obtain ⟨rfl, rfl⟩ : c = code ∧ ps = params := by simpa using Option.some.inj (spelled.bytes.symm.trans he)
  have runs := spelled.runs s
  have judged := spelled.judged
  generalize i.writeForm = w, i.readForm = r at judged
  cases judged with
  | write n role owner =>
    refine ⟨fun role' e => ?_, nofun⟩
    cases e
    exact ⟨fun h => runs.trans (congrArg _ (transact_write_frame hr p c role owner h)),
      fun h hp => runs.trans (congrArg _ (transact_write_role hr c owner h hp))⟩
  | read n owner refuses looks =>
    refine ⟨nofun, fun e h => ?_⟩
    cases e
    exact runs.trans (congrArg _ (transact_read_frame hr p c owner h))
  | nop => exact ⟨nofun, nofun⟩
  | unknown => exact ⟨nofun, nofun⟩

/-! ### Refusals (O7) -/

/-- A judgement that changes the state says OK. -/
theorem JudgedAs.unchanged_or_ok {p : Port} {w : Option (Nat × Role)} {r : Option Nat} {judge : List Byte → List Byte → Bool → State → Judgement}
    (h : JudgedAs p w r judge) (before bytes : List Byte) (rises : Bool) (s : State) :
    (judge before bytes rises s).state = s ∨ (judge before bytes rises s).result = some .ok := by
  cases h with
  | write n role owner =>
    unfold judgeWrite judgeOwner
    split
    · dsimp only
      split
      · exact .inl rfl
      · split
        · exact .inl rfl
        · split
          · exact .inr rfl
          · exact .inl rfl
    · exact .inl rfl
  | read n owner =>
    unfold judgeRead judgeSnapshot
    split
    · split
      · exact .inr rfl
      · exact .inl rfl
    · split <;> exact .inl rfl
  | nop => exact .inl rfl
  | unknown =>
    unfold judgeUnknown
    split <;> exact .inl rfl

/-- What a piece of a transaction can leave of a running part. -/
theorem transact_cases {s : State} (hr : s.running = true) (p : Port) (piece : Piece) (code : Byte)
    (judge : List Byte → List Byte → Bool → State → Judgement) :
    s.transact p piece code judge = s.settle ∨ (∃ x, s.transact p piece code judge = s.settle.recordTransaction p x) ∨
    ∃ before bytes rises x, s.transact p piece code judge =
      (judge before bytes rises s.settle).state.conclude p (judge before bytes rises s.settle).result x := by
  unfold State.transact
  rw [if_pos hr]
  dsimp only
  split
  · exact .inl rfl
  · exact .inr (.inl ⟨_, rfl⟩)
  · split
    · exact .inr (.inr ⟨_, _, _, _, rfl⟩)
    · exact .inl rfl

/-- Settles O7: the judgement of a transaction changes the state where it says OK and nowhere else. -/
theorem refusedChangesNothing : Obligations.RefusedChangesNothing := by
  unfold Obligations.RefusedChangesNothing
  intro i p s t hr hp h refused
  obtain ⟨code, piece, judge, spelled⟩ := Instr.spelled hp
  obtain rfl : s.transact p piece code judge = t := by simpa [spelled.runs s] using h
  rcases transact_cases hr p piece code judge with same | ⟨x, recorded⟩ | ⟨before, bytes, rises, x, concluded⟩
  · rw [same]
    exact (State.setPort_port _ _).symm
  · rw [recorded, State.recordTransaction, State.port_setPort_self]
  · rw [concluded, State.conclude] at refused ⊢
    rcases spelled.judged.unchanged_or_ok before bytes rises s.settle with unchanged | ok
    · rw [State.port_setPort_self, unchanged]
    · rw [State.port_setPort_self, ok] at refused
      exact absurd rfl refused

/-! ### Transactions in pieces (O8) -/

/-- A judgement at the fall, with no byte and no rise, is of nothing; so is one at a rise before any byte. -/
theorem JudgedAs.nothing_of_nil {p : Port} {w : Option (Nat × Role)} {r : Option Nat} {judge : List Byte → List Byte → Bool → State → Judgement}
    (h : JudgedAs p w r judge) (rises : Bool) (s : State) : judge [] [] rises s = .nothing s := by
  cases h with
  | write => cases rises <;> rfl
  | read n owner => simp [judgeRead]
  | nop => rfl
  | unknown => cases rises <;> rfl

/-- Bytes without the rise are judged by a read alone. -/
theorem JudgedAs.nothing_of_bytes {p : Port} {w : Option (Nat × Role)} {judge : List Byte → List Byte → Bool → State → Judgement}
    (h : JudgedAs p w none judge) (before bytes : List Byte) (s : State) : judge before bytes false s = .nothing s := by
  cases h <;> rfl

/-- What is no read adds nothing to the answer. -/
theorem JudgedAs.tail_nil {p : Port} {w : Option (Nat × Role)} {judge : List Byte → List Byte → Bool → State → Judgement}
    (h : JudgedAs p w none judge) (before bytes : List Byte) (rises : Bool) (s : State) : (judge before bytes rises s).tail = [] := by
  cases h with
  | write n role owner =>
    unfold judgeWrite
    split <;> rfl
  | nop => rfl
  | unknown =>
    unfold judgeUnknown
    split <;> rfl

/-- What is no read looks at the bytes and the rise, not at what came before. -/
theorem JudgedAs.before_eq {p : Port} {w : Option (Nat × Role)} {judge : List Byte → List Byte → Bool → State → Judgement}
    (h : JudgedAs p w none judge) (before before' bytes : List Byte) (rises : Bool) : judge before bytes rises = judge before' bytes rises := by
  cases h <;> rfl

/-- A read judges nothing while its parameters are not all in, nor once they have been. -/
theorem judgeRead_nothing {n : Nat} (owner : List Byte → State → Except Result (State × List Byte)) {before bytes : List Byte}
    (h : bytes.length ≤ n ∨ n < before.length) (s : State) : judgeRead n owner before bytes false s = .nothing s := by
  have no : ¬ (before.length ≤ n ∧ n < bytes.length) := by omega
  simp [judgeRead, no]

/-- The rise after a read's parameters judges nothing more. -/
theorem judgeRead_done {n : Nat} (owner : List Byte → State → Except Result (State × List Byte)) {bytes : List Byte} (h : n < bytes.length)
    (rises : Bool) (s : State) : judgeRead n owner bytes bytes rises s = .nothing s := by
  simp [judgeRead, Nat.not_le.mpr h]

/-- The rise before a read's parameters are in refuses it FRAME. -/
theorem judgeRead_cut {n : Nat} (owner : List Byte → State → Except Result (State × List Byte)) {bytes : List Byte} (h : bytes.length ≤ n)
    (some' : bytes ≠ []) (s : State) : judgeRead n owner bytes bytes true s = ⟨some .frame, s, false, []⟩ := by
  simp [judgeRead, Nat.not_lt.mpr h, h, some']

/-- The byte that completes a read's parameters takes the snapshot. -/
theorem judgeRead_snapshot {n : Nat} (owner : List Byte → State → Except Result (State × List Byte)) {before bytes : List Byte}
    (h : before.length ≤ n) (h' : n < bytes.length) (rises : Bool) (s : State) :
    judgeRead n owner before bytes rises s = judgeSnapshot n bytes.tail owner s := by
  simp [judgeRead, h, h']

/-- A snapshot is marked by an OK result. -/
theorem judgeSnapshot_marks {n : Nat} {owner : List Byte → State → Except Result (State × List Byte)}
    (refuses : ∀ params s, owner params s ≠ .error .ok) (params : List Byte) (s : State) :
    ∃ r, (judgeSnapshot n params owner s).result = some r ∧ (judgeSnapshot n params owner s).snapshot = (r == .ok) := by
  unfold judgeSnapshot
  split
  · exact ⟨.ok, rfl, rfl⟩
  · rename_i r e
    have ne : r ≠ .ok := fun o => refuses params s (o ▸ e)
    exact ⟨r, rfl, by simpa using ne⟩

/-- A part held or without supply takes no piece. -/
theorem transact_deaf {s : State} (hr : s.running = false) (p : Port) (piece : Piece) (code : Byte)
    (judge : List Byte → List Byte → Bool → State → Judgement) : s.transact p piece code judge = s.deaf p piece code := by
  unfold State.transact
  rw [if_neg (by simp [hr])]

theorem transact_ignored {s : State} (hr : s.running = true) {p : Port} {piece : Piece} (hf : piece.part.falls = false)
    (hx : (s.settle.port p).transaction.select = .ignored) (code : Byte) (judge : List Byte → List Byte → Bool → State → Judgement) :
    s.transact p piece code judge = s.settle.withTransaction p ((s.settle.port p).transaction.ignores piece code true) := by
  simp [State.transact, hr, Transaction.begun, hf, hx, State.recordTransaction, State.withTransaction]

theorem transact_astray {s : State} (hr : s.running = true) {p : Port} {piece : Piece} {code : Byte} (hf : piece.part.falls = false)
    (hx : (s.settle.port p).transaction.select = .low)
    (hc : (s.settle.port p).transaction.received.head?.all (· == code) = false)
    (judge : List Byte → List Byte → Bool → State → Judgement) : s.transact p piece code judge = s.settle := by
  simp [State.transact, hr, Transaction.begun, hf, hx, hc]

theorem goesOn_iff (l : List Byte) (code : Byte) : l.head?.all (· == code) = true ↔ l = [] ∨ l.head? = some code := by
  cases l <;> simp

/-- Without a judgement only the decoder goes on. -/
theorem State.conclude_nothing (s : State) (p : Port) (x : Transaction) : s.conclude p none x = s.withTransaction p x := rfl

/-- Whatever the decoder of the port then takes. -/
theorem State.conclude_withTransaction (s : State) (p : Port) (r : Option Result) (x y : Transaction) :
    (s.conclude p r x).withTransaction p y = s.conclude p r y := by
  rw [State.withTransaction, State.conclude, State.port_setPort_self, State.setPort_setPort, State.conclude]

theorem State.lastResult_conclude (s : State) (p : Port) (r : Result) (x : Transaction) : ((s.conclude p (some r) x).port p).lastResult = r := by
  rw [State.conclude, State.port_setPort_self]
  rfl

theorem State.sent_conclude (s : State) (p : Port) (r : Option Result) (x : Transaction) : ((s.conclude p r x).port p).transaction = x := by
  rw [State.conclude, State.port_setPort_self]

/-- Bytes clocked in while the select is ignored. -/
theorem Transaction.ignores_bytes {x : Transaction} (h : x.select ≠ .high) (params : List Byte) (code : Byte) (driven : Bool) :
    x.ignores ⟨.bytes, params⟩ code driven = ⟨.ignored, [], false, [],
      x.sent ++ if driven then List.replicate (params.length + if x.sent.isEmpty then 1 else 0) 0 else []⟩ := by
  cases e : x.sent <;> simp [Transaction.ignores, Part.rises, h, e]

/-- The rise ends the ignoring. -/
theorem Transaction.ignores_rise {x : Transaction} (h : x.select ≠ .high) (params : List Byte) (code : Byte) (driven : Bool) :
    x.ignores ⟨.rise, params⟩ code driven = ⟨.high, [], false, [], x.sent⟩ := by
  simp [Transaction.ignores, Part.rises, Piece.added, Part.carries, h]

section Pieces

variable {p : Port} {code : Byte} {params : List Byte} {s : State} {w : Option (Nat × Role)} {r : Option Nat}
  {judge : List Byte → List Byte → Bool → State → Judgement}

/-- The pieces of a transaction on a part that is held or has no supply. -/
theorem pieces_deaf (hr : s.running = false) :
    let x := (s.port p).transaction
    let driven (l : List Byte) : List Byte := if s.supply then l else []
    let zeros (first : Bool) : List Byte := List.replicate (params.length + if first then 1 else 0) 0
    s.transact p ⟨.whole, params⟩ code judge = s.withTransaction p ⟨.high, [], false, [], driven (zeros true)⟩ ∧
    s.transact p ⟨.fall, params⟩ code judge = s.withTransaction p ⟨.ignored, [], false, [], []⟩ ∧
    s.transact p ⟨.bytes, params⟩ code judge = s.withTransaction p
      (if x.select = .high then ⟨.high, [], false, [], x.sent⟩ else ⟨.ignored, [], false, [], x.sent ++ driven (zeros x.sent.isEmpty)⟩) ∧
    s.transact p ⟨.rise, params⟩ code judge = s.withTransaction p ⟨.high, [], false, [], x.sent⟩ := by
  intro x driven zeros
  refine ⟨?_, ?_, ?_, ?_⟩
  · simp [transact_deaf hr, State.deaf, Transaction.ignores, Part.falls, Part.rises, Piece.added, Part.carries, State.recordTransaction,
      State.withTransaction, driven, zeros]
  · simp [transact_deaf hr, State.deaf, Transaction.ignores, Part.falls, Part.rises, Piece.added, Part.carries, State.recordTransaction,
      State.withTransaction]
  · rw [transact_deaf hr, State.deaf, State.recordTransaction, State.withTransaction, if_neg (by nofun)]
    by_cases high : x.select = .high
    · simp [Transaction.ignores, Transaction.abandoned, high, x]
    · have kept : (s.port p).transaction.abandoned.select ≠ .high := by simpa [Transaction.abandoned, x] using high
      rw [Transaction.ignores_bytes kept, if_neg high]
      by_cases up : s.supply = true <;> simp [Transaction.abandoned, driven, zeros, up, x]
  · rw [transact_deaf hr, State.deaf, State.recordTransaction, State.withTransaction, if_neg (by nofun)]
    by_cases high : x.select = .high
    · simp [Transaction.ignores, Transaction.abandoned, high, x]
    · have kept : (s.port p).transaction.abandoned.select ≠ .high := by simpa [Transaction.abandoned, x] using high
      rw [Transaction.ignores_rise kept]
      rfl

/-- The fall opens a transaction. -/
theorem piece_fall (hr : s.running = true) (h : JudgedAs p w r judge) :
    s.transact p ⟨.fall, params⟩ code judge = s.settle.withTransaction p ⟨.low, [], false, s.settle.opening p, []⟩ := by
  simp [State.transact, hr, Transaction.begun, Piece.added, Part.carries, h.nothing_of_nil false, Judgement.nothing, State.conclude_nothing,
    clocked]

/-- The bytes of a piece, for a transaction in progress. -/
theorem piece_bytes (hr : s.running = true) (low : (s.settle.port p).transaction.select = .low)
    (on : (s.settle.port p).transaction.received = [] ∨ (s.settle.port p).transaction.received.head? = some code) :
    let x := (s.settle.port p).transaction
    let all := x.received ++ if x.received = [] then code :: params else params
    let j := judge x.received all false s.settle
    s.transact p ⟨.bytes, params⟩ code judge =
      j.state.conclude p j.result ⟨.low, all, x.snapshot || j.snapshot, x.answer ++ j.tail, clocked all.length (x.answer ++ j.tail)⟩ := by
  rw [transact_low hr rfl low ((goesOn_iff _ _).mpr on)]
  simp [Piece.added, Part.carries]

/-- The rise, for a transaction in progress. -/
theorem piece_rise (hr : s.running = true) (low : (s.settle.port p).transaction.select = .low)
    (on : (s.settle.port p).transaction.received = [] ∨ (s.settle.port p).transaction.received.head? = some code) :
    let x := (s.settle.port p).transaction
    let j := judge x.received x.received true s.settle
    s.transact p ⟨.rise, params⟩ code judge =
      j.state.conclude p j.result (.idle (clocked x.received.length (x.answer ++ j.tail))) := by
  rw [transact_low hr rfl low ((goesOn_iff _ _).mpr on)]
  simp [Piece.added, Part.carries]

/-- The pieces with the select ignored. -/
theorem pieces_ignored (hr : s.running = true) (ignored : (s.settle.port p).transaction.select = .ignored) :
    let x := (s.settle.port p).transaction
    s.transact p ⟨.bytes, params⟩ code judge = s.settle.withTransaction p
      ⟨.ignored, [], false, [], x.sent ++ List.replicate (params.length + if x.sent.isEmpty then 1 else 0) 0⟩ ∧
    s.transact p ⟨.rise, params⟩ code judge = s.settle.withTransaction p ⟨.high, [], false, [], x.sent⟩ := by
  have low : (s.settle.port p).transaction.select ≠ .high := by simp [ignored]
  refine ⟨?_, ?_⟩
  · rw [transact_ignored hr rfl ignored, Transaction.ignores_bytes low, if_pos rfl]
  · rw [transact_ignored hr rfl ignored, Transaction.ignores_rise low]

end Pieces

/-- Settles O8: piece by piece, each what the judgement of the command's form makes of the bytes before and after it. -/
theorem transactionsInPieces : Obligations.TransactionsInPieces := by
  unfold Obligations.TransactionsInPieces
  intro p wx prot code params s command zeros
  obtain ⟨judge, spelled⟩ := decodeCommand_spelled p wx prot code
  have runs (bytes : List Byte) (part : Part) (v : State) (h : s.transact p ⟨part, bytes⟩ code judge = v) :
      exec (command bytes part) s = .next v := h ▸ (spelled ⟨part, bytes⟩).runs s
  have judged : JudgedAs p (command params .whole).writeForm (command params .whole).readForm judge := (spelled _).judged
  refine ⟨fun hr => ?_, fun hr => ?_⟩
  · obtain ⟨whole, fall, bytes, rise⟩ := pieces_deaf (p := p) (code := code) (params := params) (judge := judge) hr
    exact ⟨runs _ _ _ whole, runs _ _ _ fall, runs _ _ _ bytes, runs _ _ _ rise⟩
  · intro u x sends opening goesOn all only rises
    refine ⟨runs _ _ _ (piece_fall hr judged), ?_, ?_, ?_⟩
    · rintro (high | ⟨low, off⟩)
      · exact ⟨runs _ _ _ (transact_high hr rfl high code judge), runs _ _ _ (transact_high hr rfl high code judge)⟩
      · have astray : x.received.head?.all (· == code) = false := by
          rw [← Bool.not_eq_true, goesOn_iff]
          exact off
        exact ⟨runs _ _ _ (transact_astray hr rfl low astray judge), runs _ _ _ (transact_astray hr rfl low astray judge)⟩
    · intro ignored
      obtain ⟨bytes, rise⟩ := pieces_ignored (params := params) (code := code) (judge := judge) hr ignored
      exact ⟨runs _ _ _ bytes, runs _ _ _ rise⟩
    · intro low on gathers
      have bytes := piece_bytes (params := params) (judge := judge) hr low on
      have rise := piece_rise (params := params) (judge := judge) hr low on
      have gathers_of (h : judge x.received all false u = .nothing u) : gathers := by
        refine runs _ _ _ (bytes.trans ?_)
        rw [show judge (s.settle.port p).transaction.received _ false s.settle = .nothing u from h]
        simp only [Judgement.nothing, Bool.or_false, List.append_nil]
        rfl
      have rises_of {v : State} (h : (judge x.received x.received true u).tail = [])
          (hv : ∀ y, (judge x.received x.received true u).state.conclude p (judge x.received x.received true u).result y = v.withTransaction p y) :
          rises v := by
        refine runs _ _ _ (rise.trans ?_)
        rw [show judge (s.settle.port p).transaction.received (s.settle.port p).transaction.received true s.settle =
          judge x.received x.received true u from rfl, hv, h, List.append_nil]
        rfl
      have begun (ne : x.received ≠ []) : x.received = code :: x.received.tail := by
        rcases on with empty | head
        · exact absurd empty ne
        · exact (List.cons_head?_tail head).symm
      refine ⟨fun empty => ?_, fun none' => ⟨?_, ?_⟩, fun n count => ⟨?_, ?_, ?_, ?_⟩⟩
      · have nothing : judge x.received x.received true u = .nothing u := by rw [empty, judged.nothing_of_nil]
        exact rises_of (by rw [nothing]; rfl) fun y => by rw [nothing]; rfl
      · rw [none'] at judged
        exact gathers_of (judged.nothing_of_bytes _ _ _)
      · intro ne
        rw [none'] at judged
        have whole := transact_whole hr p code x.received.tail judge
        refine ⟨_, runs _ _ _ whole, rises_of ?_ fun y => ?_⟩
        · exact judged.tail_nil _ _ _ _
        · rw [State.conclude_withTransaction, judged.before_eq [] x.received, ← begun ne]
      all_goals
        rw [count] at judged
        generalize (command params .whole).writeForm = w at judged
        cases judged with | read _ owner refuses looks => ?_
      · exact fun h => gathers_of (judgeRead_nothing owner h u)
      · intro early late
        have first : all = code :: all.tail := by
          by_cases empty : x.received = []
          · simp [all, empty]
          · simp only [all, if_neg empty]
            rw [begun empty]
            rfl
        have piece := judgeRead_snapshot owner early late false u
        have whole (more : List Byte) : judgeRead n owner [] (code :: (all.tail ++ more)) true u = judgeSnapshot n all.tail owner u := by
          have enough : n ≤ all.tail.length := by
            rw [List.length_tail]
            omega
          rw [judgeRead_snapshot owner (Nat.zero_le n) (by simp; omega)]
          simp only [List.tail_cons, judgeSnapshot, looks _ more u enough]
        have exec_whole (more : List Byte) := transact_whole hr p code (all.tail ++ more) (judgeRead n owner)
        simp only [show s.settle = u from rfl, whole] at exec_whole
        obtain ⟨r, result, mark⟩ := judgeSnapshot_marks refuses all.tail u
        generalize judgeSnapshot n all.tail owner u = j at piece exec_whole result mark
        refine ⟨j.tail, _, runs _ _ _ (by simpa using exec_whole []), runs _ _ _ (bytes.trans ?_), fun more => ⟨_, runs _ _ _ (exec_whole more), ?_⟩⟩
        · rw [show judgeRead n owner (s.settle.port p).transaction.received _ false s.settle = j from piece,
            State.conclude_withTransaction, result, State.lastResult_conclude, mark]
          rfl
        · have length : (all.tail ++ more).length + 1 = all.length + more.length := by
            simp
            omega
          rw [State.sent_conclude, length]
          rfl
      · intro ne early
        have cut := judgeRead_cut owner early ne u
        exact rises_of (by rw [cut]) fun y => by
          rw [cut, State.withTransaction, State.port_setPort_self, State.setPort_setPort]
          rfl
      · intro h
        have nothing := judgeRead_done owner h true u
        exact rises_of (by rw [nothing]; rfl) fun y => by rw [nothing]; rfl

end Sys2Proof.Machine

/-! The status byte and the reads: what they answer and what they leave (O11, O13, O14, O18, O19). -/
namespace Sys2Proof.Machine

/-! ### The status byte (O11) -/

/-- The bits of a flag byte: its flags, bit 0 first. -/
theorem flagByte_bit : ∀ (l : List Bool) (i : Nat), i < 8 → (flagByte l).getLsbD i = l.getD i false
  | [], i, _ => by simp [flagByte]
  | b :: l, i, h => by
    cases i with
    | zero => cases b <;> simp [flagByte]
    | succ j =>
      have rest := flagByte_bit l j (by omega)
      rw [flagByte, BitVec.getLsbD_or, BitVec.getLsbD_shiftLeft]
      cases b <;> simp [h, rest]

theorem Ch.mem_list (ch : Ch) : ch ∈ Ch.list := by cases ch <;> simp [Ch.list]

theorem Store.busy_iff (st : Store) : st.busy = true ↔ st.queue ≠ [] ∨ st.writing ≠ none := by
  cases h : st.writing <;> simp [Store.busy, h]

/-- Settles O11: each bit is the flag at its position. -/
theorem statusByteBits : Obligations.StatusByteBits := by
  unfold Obligations.StatusByteBits
  intro s p
  have bit (i : Nat) (h : i < 8) := flagByte_bit [s.attention p, s.store.busy, 4 ≤ s.store.portPending, s.clock.set, s.calUnit.run.isSome,
    Ch.list.any fun ch => (s.chan ch).isFaulted, s.quietLine, ((s.port p).notice .reset).flag] i h
  refine ⟨?_, ?_, ?_, ?_, ?_, ?_, ?_, ?_⟩
  · rw [State.statusByte, bit 0 (by omega)]
    exact s.attention_iff p
  · rw [State.statusByte, bit 1 (by omega)]
    exact Store.busy_iff s.store
  · rw [State.statusByte, bit 2 (by omega)]
    simp
  · rw [State.statusByte, bit 3 (by omega)]
    rfl
  · rw [State.statusByte, bit 4 (by omega)]
    simp [Option.isSome_iff_ne_none]
  · rw [State.statusByte, bit 5 (by omega)]
    simp [Channel.isFaulted, Ch.mem_list]
  · rw [State.statusByte, bit 6 (by omega)]
    rfl
  · rw [State.statusByte, bit 7 (by omega)]
    rfl

/-! ### Reads without parameters and of a number (O13, O14) -/

/-- A whole read that its owner answers, as a command. -/
theorem read_answers {i : Instr} {p : Port} {code : Byte} {n : Nat} {params : List Byte}
    {owner : List Byte → State → Except Result (State × List Byte)} {s t : State} {d : List Byte}
    (runs : exec i s = .next (portRead p code n (.whole params) owner s)) (hr : s.running = true) (h : n ≤ params.length)
    (ho : owner params s.settle = .ok (t, d)) : exec i s = .next (t.answered p s.settle n params d) := by
  rw [runs, portRead_ok hr h ho]

/-- A whole read that its owner refuses, as a command. -/
theorem read_refuses {i : Instr} {p : Port} {code : Byte} {n : Nat} {params : List Byte}
    {owner : List Byte → State → Except Result (State × List Byte)} {s : State} {r : Result}
    (runs : exec i s = .next (portRead p code n (.whole params) owner s)) (hr : s.running = true) (h : n ≤ params.length)
    (ho : owner params s.settle = .error r) : exec i s = .next (s.settle.readRefused p r n params) := by
  rw [runs, portRead_refused hr h ho]

/-- Settles O13: every owner of these reads answers. -/
theorem plainReads : Obligations.PlainReads := by
  unfold Obligations.PlainReads
  intro p params wx prot s hr u
  have none' : 0 ≤ params.length := Nat.zero_le _
  exact ⟨read_answers rfl hr none' rfl, read_answers rfl hr none' rfl, read_answers rfl hr none' rfl, read_answers rfl hr none' rfl,
    read_answers rfl hr none' rfl, read_answers rfl hr none' rfl⟩

theorem entryIndex?_none {n : Nat} (h : 15 < n) : entryIndex? n = none := dif_neg (by omega)

theorem entryIndex?_val (i : Fin 16) : entryIndex? i.val = some i := dif_pos i.isLt

theorem slotIndex?_none {n : Nat} (h : 7 < n) : slotIndex? n = none := dif_neg (by omega)

theorem slotIndex?_val (i : Fin 8) : slotIndex? i.val = some i := dif_pos i.isLt

/-- The first parameter byte as a number. -/
theorem u8At_eq (params : List Byte) (i : Nat) : u8At params i = (params.getD i 0).toNat := rfl

theorem firstBin_eq (params : List Byte) : firstBin params = min (params.getD 1 0).toNat 239 := by
  rw [firstBin, u8At_eq, clampCount]
  split
  · omega
  · split <;> omega

theorem binCount_eq (params : List Byte) :
    binCount params = max 1 (min (params.getD 2 0).toNat (240 - min (params.getD 1 0).toNat 239)) := by
  rw [binCount, firstBin_eq, u8At_eq, clampCount]
  split
  · omega
  · split <;> omega

/-- Settles O14: an owner of these reads refuses a number that names nothing, and answers every other. -/
theorem numberedReads : Obligations.NumberedReads := by
  unfold Obligations.NumberedReads
  intro p params wx s hr u n
  refine ⟨fun one => ⟨fun off => ?_, fun ch named => ?_, fun off => ?_, fun i named => ?_, fun off => ?_, fun i named => ?_⟩,
    fun three => ⟨fun off => ?_, fun ch named => ?_⟩⟩
  · have none' : Ch.ofNat? (u8At params 0) = none := Ch.ofNat?_none off
    exact ⟨read_refuses rfl hr one (by rw [readChannelOwner, none']), read_refuses rfl hr one (by rw [readAccountOwner, none'])⟩
  · have some' : Ch.ofNat? (u8At params 0) = some ch := Ch.ofNat?_index named
    exact ⟨read_answers rfl hr one (by rw [readChannelOwner, some']; rfl), read_answers rfl hr one (by rw [readAccountOwner, some'])⟩
  · have none' : entryIndex? (u8At params 0) = none := entryIndex?_none off
    exact read_refuses rfl hr one (by rw [readEntryOwner, none'])
  · have some' : entryIndex? (u8At params 0) = some i := (congrArg entryIndex? named.symm).trans (entryIndex?_val i)
    exact read_answers rfl hr one (by rw [readEntryOwner, some'])
  · have none' : slotIndex? (u8At params 0) = none := slotIndex?_none off
    exact read_refuses rfl hr one (by rw [readDispensationOwner, none'])
  · have some' : slotIndex? (u8At params 0) = some i := (congrArg slotIndex? named.symm).trans (slotIndex?_val i)
    exact read_answers rfl hr one (by rw [readDispensationOwner, some'])
  · have none' : Ch.ofNat? (u8At params 0) = none := Ch.ofNat?_none off
    exact read_refuses rfl hr three (by rw [readHistogramOwner, none'])
  · have some' : Ch.ofNat? (u8At params 0) = some ch := Ch.ofNat?_index named
    exact read_answers rfl hr three (by rw [readHistogramOwner, some', binCount_eq, firstBin_eq])

/-! ### The collections (O18) -/

theorem recordCount_eq (params : List Byte) : recordCount params = max 1 (min (params.getD 0 0).toNat 8) := by
  rw [recordCount, u8At_eq, clampCount]
  split
  · omega
  · split <;> omega

/-- Of a list whose keys run on without a break, the elements in a span of keys are the ones at those places. -/
theorem filter_span {α : Type} {f : α → Nat} : ∀ {l : List α} {a : Nat}, l.map f = List.range' a l.length → ∀ {start : Nat} (n : Nat), a ≤ start →
    l.filter (fun r => start ≤ f r && f r < start + n) = (l.drop (start - a)).take n
  | [], _, _, _, _, _ => by simp
  | r :: l, a, h, start, n, le => by
    have head : f r = a := by simpa [List.range'_succ] using (List.cons.inj (by simpa [List.range'_succ] using h)).1
    have tail : l.map f = List.range' (a + 1) l.length := by simpa [List.range'_succ, head] using h
    rcases Nat.eq_or_lt_of_le le with rfl | lt
    · cases n with
      | zero =>
        simp only [Nat.add_zero, List.take_zero, List.filter_eq_nil_iff]
        intro x _
        simp
      | succ n =>
        have rest := filter_span tail (start := a + 1) n (Nat.le_refl _)
        have keep : l.filter (fun r => a ≤ f r && f r < a + (n + 1)) = l.filter fun r => a + 1 ≤ f r && f r < a + 1 + n := by
          refine List.filter_congr fun x hx => ?_
          have mem : f x ∈ List.range' (a + 1) l.length := tail ▸ List.mem_map_of_mem hx
          rw [List.mem_range'_1] at mem
          simp only [← Bool.decide_and, decide_eq_decide]
          omega
        rw [List.filter_cons_of_pos (by simp [head]), keep, rest, Nat.sub_self, Nat.sub_self]
        rfl
    · have rest := filter_span tail n (Nat.succ_le_of_lt lt)
      have skip : start - a = (start - (a + 1)) + 1 := by omega
      rw [List.filter_cons_of_neg (by simp [head]; omega), rest, skip, List.drop_succ_cons]

/-- What a read of a collection in unbroken sequence finds. -/
theorem window_eq {α : Type} {f : α → Nat} {l : List α} {next cap : Nat} (h : l.map f = List.range' (next - cap) (min next cap)) (cursor n : Nat) :
    let start := max cursor (next - cap)
    let found := l.filter fun r => start ≤ f r && f r < start + n
    window (next - l.length) l cursor n = ⟨start - cursor, found, start + found.length⟩ := by
  intro start found
  have length : l.length = min next cap := by simpa using congrArg List.length h
  have oldest : next - l.length = next - cap := by omega
  have run : l.map f = List.range' (next - cap) l.length := by rw [length, h]
  have here : found = (l.drop (start - (next - cap))).take n := filter_span run n (Nat.le_max_right _ _)
  rw [window, oldest, here]

/-- Settles O18: the window of a collection in unbroken sequence holds the records of the span from the cursor. -/
theorem collectionsRead : Obligations.CollectionsRead := by
  unfold Obligations.CollectionsRead
  intro p params s hr one ok u n
  obtain ⟨minutes, periods⟩ := ok
  have count : recordCount params = n := recordCount_eq params
  refine ⟨?_, ?_⟩
  · intro c start found
    have here := window_eq minutes c n
    exact read_answers rfl hr one (by rw [readHistoryOwner, State.historyOldest, count, here]; rfl)
  · intro c start found
    have here := window_eq periods c n
    exact read_answers rfl hr one (by rw [readPeriodsOwner, State.periodOldest, count, here]; rfl)

/-! ### The event list (O19) -/

section Events

variable {found : List EventRecord} {cursor : Nat}

/-- With no record OPEN among those returned, the cursor passes the last. -/
theorem eventCursorAfter_closed (h : ∀ r ∈ found, r.closed ≠ none) :
    eventCursorAfter found cursor = (found.getLast?.map fun r => r.sequence + 1).getD cursor := by
  have none' : found.find? (fun r => r.closed.isNone) = none := by
    rw [List.find?_eq_none]
    intro r hr
    simpa using h r hr
  rw [eventCursorAfter, none']
  cases found.getLast? <;> rfl

/-- With a record OPEN among those returned, in rising order, the cursor stops at the first such. -/
theorem eventCursorAfter_open (rising : found.Pairwise fun a b => a.sequence < b.sequence) (h : ∃ r ∈ found, r.closed = none) :
    ∃ r ∈ found, r.closed = none ∧ r.sequence = eventCursorAfter found cursor ∧ ∀ x ∈ found, x.closed = none → r.sequence ≤ x.sequence := by
  cases e : found.find? (fun r => r.closed.isNone) with
  | none =>
    obtain ⟨r, hr, open'⟩ := h
    exact absurd (List.find?_eq_none.mp e r hr) (by simp [open'])
  | some r =>
    obtain ⟨open', before, after, split, closed⟩ := List.find?_eq_some_iff_append.mp e
    refine ⟨r, List.mem_of_find?_eq_some e, by simpa using open', by rw [eventCursorAfter, e], fun x hx xo => ?_⟩
    rw [split, List.mem_append, List.mem_cons] at hx
    rcases hx with early | rfl | late
    · exact absurd (closed x early) (by simp [xo])
    · exact Nat.le_refl _
    · rw [split, List.pairwise_append, List.pairwise_cons] at rising
      exact Nat.le_of_lt (rising.2.1.1 x late)

/-- The numbers of a span that are the sequences of no record: all of them less the records in the span. -/
theorem length_filter_lost (rising : found.Pairwise fun a b => a.sequence < b.sequence) (low : ∀ r ∈ found, cursor ≤ r.sequence) (after : Nat) :
    ((List.range' cursor (after - cursor)).filter fun n => found.all fun r => r.sequence != n).length =
      after - cursor - (found.filter fun r => r.sequence < after).length := by
  have perm : ((List.range' cursor (after - cursor)).filter fun n => !found.all fun r => r.sequence != n).Perm
      ((found.filter fun r => r.sequence < after).map EventRecord.sequence) := by
    refine (List.perm_ext_iff_of_nodup (List.Nodup.filter _ List.nodup_range') ?_).mpr fun n => ?_
    · rw [List.Nodup, List.pairwise_map]
      exact (rising.filter _).imp fun h => Nat.ne_of_lt h
    · simp only [List.mem_filter, List.mem_range'_1, List.mem_map, Bool.not_eq_true', List.all_eq_false, bne_iff_ne, ne_eq, not_not,
        decide_eq_true_eq]
      constructor
      · rintro ⟨⟨_, lt⟩, r, hr, rfl⟩
        have := low r hr
        exact ⟨r, ⟨hr, by omega⟩, rfl⟩
      · rintro ⟨r, ⟨hr, lt⟩, rfl⟩
        have := low r hr
        exact ⟨⟨this, by omega⟩, r, hr, rfl⟩
  have both := List.length_eq_length_filter_add (l := List.range' cursor (after - cursor)) fun n => found.all fun r => r.sequence != n
  have held := perm.length_eq
  simp only [List.length_range', List.length_map] at both held
  omega

end Events

/-- Settles O19: the records found are in rising order from the cursor, and the new cursor is read off them. -/
theorem eventsRead : Obligations.EventsRead := by
  unfold Obligations.EventsRead
  intro p params s hr one ok u c found
  have rising : found.Pairwise fun a b => a.sequence < b.sequence := (ok.rising.filter _).sublist (List.take_sublist _ _)
  have low : ∀ r ∈ found, c ≤ r.sequence := fun r h => by
    simpa using (List.mem_filter.mp (List.mem_of_mem_take h)).2
  have count : recordCount params = max 1 (min (params.getD 0 0).toNat 8) := recordCount_eq params
  refine ⟨eventCursorAfter found c, _, read_answers rfl hr one (by rw [readEventsOwner, count]; rfl), ?_, ?_, ?_, ?_,
    (length_filter_lost rising low _).symm⟩
  · intro empty
    rw [empty]
    rfl
  · intro r hr open'
    obtain ⟨x, _, _, seq, first⟩ := eventCursorAfter_open (cursor := c) rising ⟨r, hr, open'⟩
    exact seq ▸ first r hr open'
  · intro some'
    obtain ⟨x, hx, open', seq, _⟩ := eventCursorAfter_open (cursor := c) rising some'
    exact ⟨x, hx, open', seq⟩
  · intro ne closed
    have last := List.getLast?_eq_some_getLast ne
    have after : eventCursorAfter found c = (found.getLast ne).sequence + 1 := by
      rw [eventCursorAfter_closed closed, last]
      rfl
    refine ⟨fun r hr => ?_, _, List.getLast_mem ne, after.symm⟩
    rw [after, Nat.lt_succ_iff]
    rw [← List.dropLast_append_getLast ne] at rising hr
    rw [List.pairwise_append] at rising
    rcases List.mem_append.mp hr with early | here
    · exact Nat.le_of_lt (rising.2.2 r early _ (List.mem_singleton_self _))
    · exact Nat.le_of_eq (congrArg _ (List.mem_singleton.mp here))

end Sys2Proof.Machine

/-! The layouts: the field at an offset of bytes laid one after the other, and what the records, responses and images hold (O15, O16, O17). -/
namespace Sys2Proof.Machine

/-! ### A field of bytes laid one after the other -/

section Fields

variable {a b : List Byte} {i : Nat}

@[simp] theorem byteAt_left (h : i < a.length) : byteAt (a ++ b) i = byteAt a i := byteAt_append b h

@[simp] theorem byteAt_right (h : a.length ≤ i) : byteAt (a ++ b) i = byteAt b (i - a.length) := by
  simp [byteAt, List.getD_eq_getElem?_getD, List.getElem?_append_right h]

@[simp] theorem u8At_left (h : i < a.length) : u8At (a ++ b) i = u8At a i := u8At_append b h

@[simp] theorem u8At_right (h : a.length ≤ i) : u8At (a ++ b) i = u8At b (i - a.length) := by rw [u8At, byteAt_right h, u8At]

@[simp] theorem word16At_left (h : i + 1 < a.length) : word16At (a ++ b) i = word16At a i := by
  rw [word16At, byteAt_left h, byteAt_left (by omega), word16At]

@[simp] theorem word16At_right (h : a.length ≤ i) : word16At (a ++ b) i = word16At b (i - a.length) := by
  have next : i + 1 - a.length = i - a.length + 1 := by omega
  rw [word16At, byteAt_right h, byteAt_right (by omega), next, word16At]

@[simp] theorem u16At_left (h : i + 1 < a.length) : u16At (a ++ b) i = u16At a i := by rw [u16At, word16At_left h, u16At]

@[simp] theorem u16At_right (h : a.length ≤ i) : u16At (a ++ b) i = u16At b (i - a.length) := by rw [u16At, word16At_right h, u16At]

@[simp] theorem levelAt_left (h : i + 1 < a.length) : levelAt (a ++ b) i = levelAt a i := by rw [levelAt, word16At_left h, levelAt]

@[simp] theorem levelAt_right (h : a.length ≤ i) : levelAt (a ++ b) i = levelAt b (i - a.length) := by rw [levelAt, word16At_right h, levelAt]

@[simp] theorem u32At_left (h : i + 3 < a.length) : u32At (a ++ b) i = u32At a i := by
  rw [u32At, word16At_left (by omega), word16At_left (by omega), u32At]

@[simp] theorem u32At_right (h : a.length ≤ i) : u32At (a ++ b) i = u32At b (i - a.length) := by
  have next : i + 2 - a.length = i - a.length + 2 := by omega
  rw [u32At, word16At_right h, word16At_right (by omega), next, u32At]

end Fields

/-- A word of 16 bits is its two bytes. -/
theorem word_halves (x : BitVec 16) : (x >>> 8).setWidth 8 ++ x.setWidth 8 = x := by
  apply BitVec.eq_of_getLsbD_eq
  intro i hi
  rw [BitVec.getLsbD_append]
  by_cases h : i < 8
  · simp [h]
  · have upper : 8 + (i - 8) = i := by omega
    simp [h, upper]
    omega

/-- A word of 32 bits is its two halves. -/
theorem dword_halves (x : BitVec 32) : (x >>> 16).setWidth 16 ++ x.setWidth 16 = x := by
  apply BitVec.eq_of_getLsbD_eq
  intro i hi
  rw [BitVec.getLsbD_append]
  by_cases h : i < 16
  · simp [h]
  · have upper : 16 + (i - 16) = i := by omega
    simp [h, upper]
    omega

@[simp] theorem length_le16 (x : BitVec 16) : (le16 x).length = 2 := by simp [le16]
@[simp] theorem length_le32 (x : BitVec 32) : (le32 x).length = 4 := by simp [le32]
@[simp] theorem length_le64 (x : BitVec 64) : (le64 x).length = 8 := by simp [le64]
@[simp] theorem length_count16 (n : Nat) : (count16 n).length = 2 := by simp [count16]
@[simp] theorem length_count32 (n : Nat) : (count32 n).length = 4 := by simp [count32]
@[simp] theorem length_count64 (n : Nat) : (count64 n).length = 8 := by simp [count64]
@[simp] theorem length_levelBytes (l : LevelOrVoid) : (levelBytes l).length = 2 := by simp [levelBytes]
@[simp] theorem length_minuteBytes (n : MinuteOrAbsent) : (minuteBytes n).length = 4 := by simp [minuteBytes]

@[simp] theorem length_sourceBytes (x : Option Source) : (sourceBytes x).length = 2 := by
  rcases x with _ | _ | _ <;> rfl

@[simp] theorem length_sustainable (x : Sustainable) : x.bytes.length = 2 := by
  cases x <;> rfl

@[simp] theorem word16At_le16 (x : BitVec 16) : word16At (le16 x) 0 = x := word_halves x

@[simp] theorem u32At_le32 (x : BitVec 32) : u32At (le32 x) 0 = x.toNat := by
  rw [u32At, le32, word16At_right (by simp), word16At_left (by simp)]
  change (word16At (le16 _) 0 ++ word16At (le16 _) 0).toNat = _
  rw [word16At_le16, word16At_le16, dword_halves]

@[simp] theorem u16At_le16 (x : BitVec 16) : u16At (le16 x) 0 = x.toNat := by rw [u16At, word16At_le16]
@[simp] theorem u16At_count16 (n : Nat) : u16At (count16 n) 0 = n % 2 ^ 16 := by rw [count16, u16At_le16, BitVec.toNat_ofNat]
@[simp] theorem u32At_count32 (n : Nat) : u32At (count32 n) 0 = n % 2 ^ 32 := by rw [count32, u32At_le32, BitVec.toNat_ofNat]
@[simp] theorem word16At_level (l : LevelOrVoid) : word16At (levelBytes l) 0 = BitVec.ofInt 16 (l.getD (-32768)) := word16At_le16 _
@[simp] theorem u32At_minute (n : MinuteOrAbsent) : u32At (minuteBytes n) 0 = (n.map fun k => k % 2 ^ 32).getD 0xFFFFFFFF := by
  rw [minuteBytes, u32At_le32]
  cases n with
  | none => rfl
  | some n => exact BitVec.toNat_ofNat n 32

@[simp] theorem byteAt_zero (x : Byte) (l : List Byte) : byteAt (x :: l) 0 = x := by simp [byteAt]
@[simp] theorem byteAt_succ (x : Byte) (l : List Byte) (i : Nat) : byteAt (x :: l) (i + 1) = byteAt l i := by simp [byteAt]
@[simp] theorem byteAt_one (x : Byte) (l : List Byte) : byteAt (x :: l) 1 = byteAt l 0 := byteAt_succ x l 0
@[simp] theorem u8At_zero (x : Byte) (l : List Byte) : u8At (x :: l) 0 = x.toNat := by rw [u8At, byteAt_zero]
@[simp] theorem u8At_succ (x : Byte) (l : List Byte) (i : Nat) : u8At (x :: l) (i + 1) = u8At l i := by rw [u8At, byteAt_succ, u8At]
@[simp] theorem word16At_zero (x y : Byte) (l : List Byte) : word16At (x :: y :: l) 0 = y ++ x := by simp [word16At]
@[simp] theorem word16At_succ (x : Byte) (l : List Byte) (i : Nat) : word16At (x :: l) (i + 1) = word16At l i := by simp [word16At]
@[simp] theorem u16At_succ (x : Byte) (l : List Byte) (i : Nat) : u16At (x :: l) (i + 1) = u16At l i := by simp [u16At]
@[simp] theorem u32At_succ (x : Byte) (l : List Byte) (i : Nat) : u32At (x :: l) (i + 1) = u32At l i := by
  have next : i + 1 + 2 = i + 2 + 1 := by omega
  rw [u32At, next, word16At_succ, word16At_succ, u32At]
@[simp] theorem levelAt_succ (x : Byte) (l : List Byte) (i : Nat) : levelAt (x :: l) (i + 1) = levelAt l i := by simp [levelAt]

theorem byteOf_toNat {n : Nat} (h : n < 256) : (byteOf n).toNat = n := by
  rw [byteOf, BitVec.toNat_ofNat, Nat.mod_eq_of_lt h]

@[simp] theorem byteOf_index (ch : Ch) : (byteOf ch.index).toNat = ch.index := by cases ch <;> rfl

/-- The kind of a source as a record carries it. -/
@[simp] theorem u8At_source_kind (x : Option Source) :
    u8At (sourceBytes x) 0 = match x with | none => 0 | some (.entry _) => 1 | some (.dispensation _ _) => 2 := by
  rcases x with _ | _ | _ <;> rfl

@[simp] theorem u8At_source_index (x : Option Source) :
    u8At (sourceBytes x) 1 = match x with | none => 0 | some (.entry i) => i.val | some (.dispensation i _) => i.val := by
  rcases x with _ | i | ⟨i, n⟩
  · rfl
  · exact byteOf_toNat (by omega)
  · exact byteOf_toNat (by omega)

theorem sourceSerial_eq (x : Option Source) : sourceSerial x = match x with | some (.dispensation _ n) => n | _ => 0 := by
  rcases x with _ | _ | _ <;> rfl


/-- The figures a read shows of a CLOSED record. -/
theorem State.eventFigures_closed {s : State} {r : EventRecord} {x : EventClose} (h : r.closed = some x) :
    s.eventFigures r = ⟨x.duration, some x.peak, some x.laeq, some x.lae⟩ := by
  simp only [State.eventFigures, h]

/-- The figures a read shows of an OPEN record. -/
theorem State.eventFigures_open {s : State} {r : EventRecord} {e : OpenEvent} (h : r.closed = none) (he : (s.chan r.ch).openEvent = some e) :
    s.eventFigures r = ⟨e.count, some e.peak, some (convert (s.chan r.ch).fs e.sumA (6000 * e.count)).level,
      some ((convert (s.chan r.ch).fs e.sumA (6000 * e.count)).level + roundLog e.count 8)⟩ := by
  have laeq : e.laeq (s.chan r.ch).fs = (convert (s.chan r.ch).fs e.sumA (6000 * e.count)).level := by rw [OpenEvent.laeq, Converted.reading]
  have lae : e.lae (s.chan r.ch).fs = (convert (s.chan r.ch).fs e.sumA (6000 * e.count)).level + roundLog e.count 8 := by
    rw [OpenEvent.lae, laeq, exposureStep]
  rw [← laeq] at lae ⊢
  rw [← lae]
  simp only [State.eventFigures, h, he]

/-- The fields of an event record, whatever figures are shown of it. -/
theorem State.eventBytes_fields (s : State) (r : EventRecord) :
    let b := s.eventBytes r
    let x := s.eventFigures r
    let level (l : LevelOrVoid) : BitVec 16 := BitVec.ofInt 16 (l.getD (-32768))
    b.length = 22 ∧ u32At b 0 = r.sequence % 2 ^ 32 ∧ u32At b 4 = (r.startMinute.map fun k => k % 2 ^ 32).getD 0xFFFFFFFF ∧
    u8At b 8 = r.ch.index ∧ u16At b 12 = r.startOffset % 2 ^ 16 ∧ byteAt b 9 = (if r.closed.isSome then 1 else 0) ∧
    byteAt b 10 = (r.closed.map fun c => c.cause.code).getD 0 ∧
    byteAt b 11 = flagByte (r.continuation :: markFlags (r.closed.bind EventClose.impulsive)) ∧ u16At b 14 = x.duration % 2 ^ 16 ∧
    word16At b 16 = level x.peak ∧ word16At b 18 = level x.laeq ∧ word16At b 20 = level x.lae := by
  intro b x level
  have here : b = s.eventBytes r := rfl
  unfold State.eventBytes at here
  rw [here]
  refine ⟨?_, ?_, ?_, ?_, ?_, ?_, ?_, ?_, ?_, ?_, ?_, ?_⟩
  all_goals simp [level, x]

/-- Settles O17: each field is read off the bytes laid one after the other. -/
theorem recordsLaidOut : Obligations.RecordsLaidOut := by
  unfold Obligations.RecordsLaidOut
  intro level minute kind index serial
  refine ⟨fun r => ?_, fun r => ?_, fun s r => ?_⟩
  · unfold MinuteRecord.bytes
    simp [level, minute, kind, index, serial, sourceSerial_eq] <;> exact ⟨rfl, rfl, rfl⟩
  · unfold PeriodRecord.bytes
    simp [level, minute, kind, index, serial, sourceSerial_eq] <;> exact ⟨rfl, rfl, rfl⟩
  · intro b
    obtain ⟨length, sequence, start, channel, offset, isClosed, cause, flags, duration, peak, laeq, lae⟩ := State.eventBytes_fields s r
    refine ⟨length, sequence, start, channel, offset, fun x closed => ?_, fun e open' event => ?_⟩
    · rw [State.eventFigures_closed closed] at duration peak laeq lae
      rw [closed] at isClosed cause flags
      refine ⟨isClosed, cause, flags.trans ?_, duration, peak, laeq, lae⟩
      cases e : x.impulsive <;> simp [e, markFlags]
    · rw [State.eventFigures_open open' event] at duration peak laeq lae
      rw [open'] at isClosed cause flags
      refine ⟨isClosed, cause, flags.trans ?_, duration, peak, laeq, lae⟩
      cases r.continuation <;> rfl

/-! ### Images read back (O16) -/

theorem u16At_count16_of_lt {n : Nat} (h : n < 2 ^ 16) : u16At (count16 n) 0 = n := by rw [u16At_count16, Nat.mod_eq_of_lt h]

/-- The level is carried by a field of 16 bits. -/
def carried (l : Int) : Prop := -32768 ≤ l ∧ l < 32768

theorem levelAt_levelBytes {l : Level} (h : carried l) : levelAt (levelBytes (some l)) 0 = l := by
  obtain ⟨low, high⟩ := h
  rw [levelAt, word16At_level, BitVec.toInt_ofInt, Option.getD_some]
  exact Int.bmod_eq_of_le (by norm_num; omega) (by norm_num; omega)

theorem carried_of_within {lo hi x : Int} (h : within lo hi x = true) (low : -32768 ≤ lo) (high : hi < 32768) : carried x := by
  simp only [within, Bool.and_eq_true, decide_eq_true_eq] at h
  exact ⟨by omega, by omega⟩

theorem carried_of_limit {l : Level} (h : limitInRange l = true) : carried l := carried_of_within h (by decide) (by decide)

theorem carried_of_trigger {l : Level} (h : triggerInRange l = true) : carried l := by
  rcases Bool.or_eq_true _ _ ▸ h with zero | range
  · rw [eq_of_beq zero]
    exact ⟨by decide, by decide⟩
  · exact carried_of_within range (by decide) (by decide)

theorem setWidth_back {n m : Nat} (x : BitVec n) (h : n ≤ m) : (x.setWidth m).setWidth n = x := by
  apply BitVec.eq_of_getLsbD_eq
  intro i hi
  simp [hi]
  omega

@[simp] theorem maskAt_succ (x : Byte) (l : List Byte) (i : Nat) : maskAt (x :: l) (i + 1) = maskAt l i := by rw [maskAt, byteAt_succ, maskAt]
@[simp] theorem daysAt_succ (x : Byte) (l : List Byte) (i : Nat) : daysAt (x :: l) (i + 1) = daysAt l i := by rw [daysAt, byteAt_succ, daysAt]
@[simp] theorem flagAt_succ (x : Byte) (l : List Byte) (i : Nat) : flagAt (x :: l) (i + 1) = flagAt l i := by rw [flagAt, byteAt_succ, flagAt]

@[simp] theorem maskAt_right {a b : List Byte} {i : Nat} (h : a.length ≤ i) : maskAt (a ++ b) i = maskAt b (i - a.length) := by
  rw [maskAt, byteAt_right h, maskAt]

@[simp] theorem flagAt_right {a b : List Byte} {i : Nat} (h : a.length ≤ i) : flagAt (a ++ b) i = flagAt b (i - a.length) := by
  rw [flagAt, byteAt_right h, flagAt]

@[simp] theorem maskAt_maskByte (m : ChannelMask) (l : List Byte) : maskAt (maskByte m :: l) 0 = m := by
  rw [maskAt, byteAt_zero, maskByte, setWidth_back m (by decide)]

@[simp] theorem daysAt_dayMaskByte (m : DayMask) (l : List Byte) : daysAt (dayMaskByte m :: l) 0 = m := by
  rw [daysAt, byteAt_zero, dayMaskByte, setWidth_back m (by decide)]

@[simp] theorem flagAt_flagByte (b : Bool) (l : List Byte) : flagAt (flagByte [b] :: l) 0 = b := by
  rw [flagAt, byteAt_zero]
  cases b <;> rfl

/-- A character field is read back from its own bytes. -/
theorem charsAt_toList {n : Nat} (x : Vector Byte n) (l : List Byte) : charsAt (x.toList ++ l) 0 n = x := by
  refine Vector.ext fun i hi => ?_
  simp [charsAt, byteAt, List.getD_eq_getElem?_getD, List.getElem?_append_left]

/-- The bytes of an entry image that a write carries: all but the first and the version. -/
theorem Entry.written_bytes (e : Entry) : (e.bytes.drop 1).take 21 =
    maskByte e.channels :: dayMaskByte e.days :: flagByte [e.works] :: (count16 e.start ++ (count16 e.stop ++ (levelBytes (some e.limit) ++
      (levelBytes (some e.trigger) ++ (levelBytes (some e.impulseThreshold) ++ (levelBytes (some e.impulsePenalty) ++
        (levelBytes (some e.lowFreqThreshold) ++ (levelBytes (some e.lowFreqPenalty) ++ levelBytes (some e.cap))))))))) := by
  unfold Entry.bytes
  simp [List.take_append, List.take_of_length_le]

/-- A written entry image is read back. -/
theorem entryImage_bytes {e : Entry} (index : Byte) (h : e.inRange = true) :
    entryImage (index :: (e.bytes.drop 1).take 21) e.version = { e with present := true } := by
  simp only [Entry.inRange, Bool.and_eq_true, decide_eq_true_eq] at h
  obtain ⟨⟨⟨⟨⟨⟨⟨⟨start, stop⟩, limit⟩, trigger⟩, it⟩, ip⟩, lt⟩, lp⟩, cap⟩ := h
  rw [e.written_bytes]
  unfold entryImage
  rw [Entry.mk.injEq]
  refine ⟨rfl, ?_, ?_, ?_, ?_, ?_, ?_, ?_, ?_, ?_, ?_, ?_, ?_, rfl⟩
  · exact (maskAt_succ _ _ 0).trans (maskAt_maskByte _ _)
  · exact (daysAt_succ _ _ 1).trans ((daysAt_succ _ _ 0).trans (daysAt_dayMaskByte _ _))
  · simp [Nat.mod_eq_of_lt (show e.start < 65536 by omega)]
  · simp [Nat.mod_eq_of_lt (show e.stop < 65536 by omega)]
  · simp
  · simp [levelAt_levelBytes (carried_of_limit limit)]
  · simp [levelAt_levelBytes (carried_of_trigger trigger)]
  · simp [levelAt_levelBytes (carried_of_within it (by decide) (by decide))]
  · simp [levelAt_levelBytes (carried_of_within ip (by decide) (by decide))]
  · simp [levelAt_levelBytes (carried_of_within lt (by decide) (by decide))]
  · simp [levelAt_levelBytes (carried_of_within lp (by decide) (by decide))]
  · simp [levelAt_levelBytes (carried_of_within cap (by decide) (by decide))]

@[simp] theorem charsAt_right {a b : List Byte} {i : Nat} (n : Nat) (h : a.length ≤ i) : charsAt (a ++ b) i n = charsAt b (i - a.length) n := by
  refine Vector.ext fun k hk => ?_
  have next : i + k - a.length = i - a.length + k := by omega
  rw [charsAt, charsAt, Vector.getElem_ofFn, Vector.getElem_ofFn, byteAt_right (Nat.le_add_right_of_le h), next]

@[simp] theorem charsAt_succ (x : Byte) (l : List Byte) (i n : Nat) : charsAt (x :: l) (i + 1) n = charsAt l i n := by
  refine Vector.ext fun k hk => ?_
  have next : i + 1 + k = i + k + 1 := by omega
  rw [charsAt, charsAt, Vector.getElem_ofFn, Vector.getElem_ofFn, next, byteAt_succ]

/-- A commissioning record's bytes, field by field. -/
theorem Commissioning.bytes_eq (r : Commissioning) : r.bytes =
    r.site.toList ++ (le16 r.station ++ (maskByte r.installed :: maskByte r.weather :: (r.labels.c0.toList ++ (r.labels.c1.toList ++
      (r.labels.c2.toList ++ (r.labels.c3.toList ++ [flagByte [r.locked]])))))) := by
  simp [Commissioning.bytes, Ch.list, Quad.get]

/-- A written commissioning record is read back. -/
theorem commissioningAt_bytes (r : Commissioning) : commissioningAt (r.bytes.take 68) = { r with locked := false } := by
  have written : r.bytes.take 68 = r.site.toList ++ (le16 r.station ++ (maskByte r.installed :: maskByte r.weather :: (r.labels.c0.toList ++
      (r.labels.c1.toList ++ (r.labels.c2.toList ++ (r.labels.c3.toList ++ [])))))) := by
    rw [r.bytes_eq]
    simp [List.take_append, List.take_of_length_le]
  rw [written]
  unfold commissioningAt
  rw [Commissioning.mk.injEq]
  refine ⟨charsAt_toList _ _, ?_, ?_, ?_, ?_, rfl⟩
  · simp
  · simp
  · simp
  · simp [charsAt_toList, -List.append_nil]

/-- Settles O16: the parameter fields of each write undo the layout of the read. -/
theorem imagesReadBack : Obligations.ImagesReadBack := by
  unfold Obligations.ImagesReadBack
  refine ⟨fun e index h => ⟨entryImage_bytes index h, ?_, ?_⟩, fun r => ⟨commissioningAt_bytes r, ?_⟩, fun i x start stop limit trigger => ?_⟩
  · unfold Entry.bytes
    simp
  · unfold Entry.bytes
    exact Bool.eq_iff_iff.mp (flagAt_flagByte e.present _)
  · rw [r.bytes_eq]
    simp
  · unfold Slot.bytes
    have number : (byteOf i.val).toNat = i.val := byteOf_toNat (by omega)
    simp [number, levelAt_levelBytes (carried_of_limit limit), levelAt_levelBytes (carried_of_trigger trigger)]
    exact ⟨start, stop⟩

end Sys2Proof.Machine

/-! The responses of the reads, field by field (O15). -/
namespace Sys2Proof.Machine

/-! ### Repeated fields -/

/-- Bytes laid for each member of a list, all of one length: those of a member begin at its place. -/
theorem flatMap_at {α : Type} {f : α → List Byte} {n i : Nat} {l : List α} (size : ∀ x, (f x).length = n) (h : i < l.length) :
    ∃ before after, l.flatMap f = before ++ (f l[i] ++ after) ∧ before.length = n * i := by
  refine ⟨(l.take i).flatMap f, (l.drop (i + 1)).flatMap f, ?_, ?_⟩
  · rw [← List.flatMap_cons, List.getElem_cons_drop, ← List.flatMap_append, List.take_append_drop]
  · rw [List.length_flatMap, List.map_congr_left (g := fun _ => n) fun x _ => size x]
    simp [Nat.min_eq_left h.le, Nat.mul_comm]

theorem length_flatMap_of {α : Type} {f : α → List Byte} {n : Nat} (l : List α) (size : ∀ x, (f x).length = n) :
    (l.flatMap f).length = n * l.length := by
  rw [List.length_flatMap, List.map_congr_left (g := fun _ => n) fun x _ => size x]
  simp [Nat.mul_comm]

theorem u32At_counts {l : List Nat} {i : Nat} (h : i < l.length) : u32At (l.flatMap count32) (4 * i) = l[i] % 2 ^ 32 := by
  obtain ⟨before, after, split, length⟩ := flatMap_at length_count32 h
  rw [split, u32At_right (by omega), u32At_left (by simp; omega), length, Nat.sub_self, u32At_count32]

theorem word16At_levels {l : List LevelOrVoid} {i : Nat} (h : i < l.length) :
    word16At (l.flatMap levelBytes) (2 * i) = BitVec.ofInt 16 (l[i].getD (-32768)) := by
  obtain ⟨before, after, split, length⟩ := flatMap_at length_levelBytes h
  rw [split, word16At_right (by omega), word16At_left (by simp; omega), length, Nat.sub_self, word16At_level]

@[simp] theorem length_calRecord (r : CalRecord) : r.bytes.length = 17 := by simp [CalRecord.bytes]

theorem u32At_le64_low (x : BitVec 64) : u32At (le64 x) 0 = x.toNat % 2 ^ 32 := by simp [le64]

theorem u32At_le64_high (x : BitVec 64) : u32At (le64 x) 4 = x.toNat / 2 ^ 32 := by
  have small : x.toNat / 2 ^ 32 < 2 ^ 32 := by omega
  rw [le64, u32At_right (by simp), length_le32, u32At_le32, BitVec.toNat_setWidth, BitVec.toNat_ushiftRight, Nat.shiftRight_eq_div_pow,
    Nat.mod_eq_of_lt small]

/-- The two halves of a field of eight bytes make it up. -/
theorem u32At_le64 (x : BitVec 64) : u32At (le64 x) 0 + 2 ^ 32 * u32At (le64 x) 4 = x.toNat := by
  rw [u32At_le64_low, u32At_le64_high]
  omega

theorem u32At_count64 (n : Nat) : u32At (count64 n) 0 + 2 ^ 32 * u32At (count64 n) 4 = n % 2 ^ 64 := by
  rw [count64, u32At_le64, BitVec.toNat_ofNat]

/-! ### The responses, one by one (O15) -/

section

variable (s : State) (ch : Ch)

/-- A level as a response carries it. -/
def levelField (l : LevelOrVoid) : BitVec 16 := BitVec.ofInt 16 (l.getD (-32768))

/-- A minute number as a response carries it. -/
def minuteField (n : MinuteOrAbsent) : Nat := (n.map fun k => k % 2 ^ 32).getD 0xFFFFFFFF

theorem State.liveBytes_fields :
    let b := s.liveBytes ch
    let c := s.chan ch
    let silent := c.state = .off ∨ c.state = .faulted
    b.length = 13 ∧ byteAt b 0 = c.state.code ∧ byteAt b 1 = c.state.phaseCode ∧
    byteAt b 2 = flagByte [(s.rx ch.line).present, c.excluded, s.weatherExcluded ch] ∧
    word16At b 3 = levelField (match c.engine.kept with
      | none => none
      | some k => if k.cls = .missing then none else some (convert c.fs k.sumA 6000).level) ∧
    word16At b 5 = levelField (if silent then none else some (convertRunning c.fs c.engine.f).level) ∧
    word16At b 7 = levelField (if silent then none else some (convertRunning c.fs c.engine.s).level) ∧
    word16At b 9 = levelField (c.engine.minute.greatestF.map fun v => (convertRunning c.fs v).level) ∧
    u16At b 11 = c.engine.minute.valid % 2 ^ 16 := by
  intro b c silent
  have here : b = s.liveBytes ch := rfl
  unfold State.liveBytes at here
  rw [here]
  refine ⟨?_, ?_, ?_, ?_, ?_, ?_, ?_, ?_, ?_⟩
  all_goals simp [levelField, c, silent, State.linePresent] <;> rfl

theorem State.channelBytes_fields :
    let b := s.channelBytes ch
    let c := s.chan ch
    let r := c.calRecord
    b.length = 29 ∧ u8At b 0 = ch.index ∧
    byteAt b 1 = flagByte [s.installed ch, c.pendingFs.isSome, c.uncalibrated, c.excluded, s.weatherExcluded ch] ∧
    word16At b 2 = levelField (some c.fs) ∧ word16At b 4 = levelField c.pendingFs ∧ word16At b 6 = c.calSeq ∧
    word16At b 8 = levelField (some c.trigger) ∧ word16At b 10 = levelField (some c.hysteresis) ∧ word16At b 12 = r.serial ∧
    byteAt b 14 = r.outcome.code ∧ word16At b 15 = levelField r.reference ∧ word16At b 17 = levelField r.meas ∧
    word16At b 19 = levelField r.delta ∧ u32At b 21 = minuteField r.minute ∧ word16At b 25 = levelField r.oldFs ∧
    word16At b 27 = levelField r.newFs := by
  intro b c r
  have here : b = s.channelBytes ch := rfl
  unfold State.channelBytes at here
  rw [here]
  unfold CalRecord.bytes
  refine ⟨?_, ?_, ?_, ?_, ?_, ?_, ?_, ?_, ?_, ?_, ?_, ?_, ?_, ?_, ?_, ?_⟩
  all_goals simp [levelField, minuteField, c, r]

theorem State.clockBytes_fields :
    let b := s.clockBytes
    let c := calendarOf s.clock.minute
    b.length = 14 ∧ u8At b 12 = s.clock.seconds % 256 ∧
    (s.clock.set = true → u8At b 0 = 1 ∧ u32At b 1 = minuteField (some s.clock.minute) ∧ u16At b 5 = c.year % 2 ^ 16 ∧
      u8At b 7 = c.month % 256 ∧ u8At b 8 = c.day % 256 ∧ u8At b 9 = c.hour % 256 ∧ u8At b 10 = c.minute % 256 ∧
      u8At b 11 = (5 + s.clock.minute / 1440) % 7 ∧ u8At b 13 = s.clock.length % 256) ∧
    (s.clock.set = false → b.take 12 = [0, 0xFF, 0xFF, 0xFF, 0xFF, 0, 0, 0, 0, 0, 0, 0] ∧ u8At b 13 = 60) := by
  intro b c
  cases set : s.clock.set with
  | true =>
    have here : b = [1] ++ minuteBytes (some s.clock.minute) ++ count16 c.year ++ [byteOf c.month, byteOf c.day, byteOf c.hour,
        byteOf c.minute, byteOf (weekday s.clock.minute), byteOf s.clock.seconds, byteOf s.clock.length] := by
      show s.clockBytes = _
      unfold State.clockBytes
      exact if_pos set
    have day : (5 + s.clock.minute / 1440) % 7 % 256 = (5 + s.clock.minute / 1440) % 7 := Nat.mod_eq_of_lt (by omega)
    rw [here]
    simp [byteOf, minuteField, weekday, day]
  | false =>
    have here : b = [0] ++ minuteBytes none ++ count16 0 ++ [0, 0, 0, 0, 0, byteOf s.clock.seconds, 60] := by
      show s.clockBytes = _
      unfold State.clockBytes
      exact if_neg (by rw [set]; decide)
    rw [here]
    refine ⟨by simp, by simp [byteOf], fun impossible => absurd impossible (by decide), fun _ => ⟨rfl, by simp⟩⟩

theorem State.headerBytes_fields :
    let b := s.headerBytes
    b.length = 10 ∧ u16At b 0 = s.header.dayStart % 2 ^ 16 ∧ u16At b 2 = s.header.allowance % 2 ^ 16 ∧
    u16At b 4 = s.header.lowMark % 2 ^ 16 ∧ u8At b 6 = s.header.coverage % 256 ∧ u8At b 7 = s.protection.extent % 256 ∧
    byteAt b 8 = s.protection.mode.code ∧ byteAt b 9 = flagByte [s.prot] := by
  unfold State.headerBytes
  simp [byteOf]

theorem State.histogramBytes_fields (first count : Nat) (bound : first + count ≤ 240) :
    let b := s.histogramBytes ch first count
    let h : Vector Nat 240 := ((s.chan ch).period.map Period.histogram).getD (Vector.replicate 240 0)
    b.length = 4 + 4 * count ∧ u32At b 0 = h.toList.sum % 2 ^ 32 ∧
    ∀ i < count, u32At b (4 + 4 * i) = h.toList.getD (first + i) 0 % 2 ^ 32 := by
  intro b h
  have here : b = count32 h.toList.sum ++ ((h.toList.drop first).take count).flatMap count32 := by
    show s.histogramBytes ch first count = _
    unfold State.histogramBytes
    cases period : (s.chan ch).period with
    | none => simp only [h, period, Option.map_none, Option.getD_none, Vector.toList_replicate]
    | some p => simp only [h, period, Option.map_some, Option.getD_some]
  have window : ((h.toList.drop first).take count).length = count := by simp; omega
  rw [here]
  refine ⟨?_, ?_, fun i hi => ?_⟩
  · rw [List.length_append, length_count32, length_flatMap_of _ length_count32, window]
  · rw [u32At_left (by simp), u32At_count32]
  · rw [u32At_right (by simp), length_count32, Nat.add_sub_cancel_left, u32At_counts (by omega)]
    have inside : first + i < h.toList.length := by simp; omega
    simp [List.getD_eq_getElem?_getD, List.getElem?_eq_getElem inside]

theorem State.identityBytes_fields : identityBytes.length = 11 ∧ u16At identityBytes 0 = 420 ∧ byteAt identityBytes 2 = 0x41 ∧
    u32At identityBytes 3 + 2 ^ 32 * u32At identityBytes 7 = Config.deviceSerial.toNat := by
  unfold identityBytes
  refine ⟨by simp, by simp, by simp, ?_⟩
  rw [u32At_right (by simp), u32At_right (by simp)]
  exact u32At_le64 _

theorem length_noticeMask (l : List Bool) : (noticeMask l).length = 2 := by simp [noticeMask]

/-- A notice mask has the kind numbered `n` at bit `n`, and bit 0 clear. -/
theorem noticeMask_bits {l : List Bool} (length : l.length = 15) :
    (word16At (noticeMask l) 0).getLsbD 0 = false ∧ ∀ i : Fin 15, (word16At (noticeMask l) 0).getLsbD (i.val + 1) = l[i] := by
  have word : word16At (noticeMask l) 0 = flagByte (l.drop 7) ++ flagByte (false :: l.take 7) := by simp [noticeMask]
  rw [word]
  refine ⟨by rw [BitVec.getLsbD_append, if_pos (by decide), flagByte_bit _ _ (by decide)]; rfl, fun i => ?_⟩
  rw [BitVec.getLsbD_append]
  by_cases low : i.val + 1 < 8
  · rw [if_pos low, flagByte_bit _ _ low]
    simp [List.getD_eq_getElem?_getD, show i.val < 7 by omega, length]
  · have upper : 7 + (i.val - 7) = i.val := by omega
    rw [if_neg low, flagByte_bit _ _ (by omega)]
    simp [List.getD_eq_getElem?_getD, upper, length]

theorem length_detail (d : Detail) : d.bytes.length = 6 := by simp [Detail.bytes]

theorem State.noticeBytes_fields (p : Port) :
    let b := s.noticeBytes p
    let x := s.port p
    b.length = 99 ∧ (word16At b 0).getLsbD 0 = false ∧ (word16At b 2).getLsbD 0 = false ∧
    (∀ k : NoticeKind, (word16At b 0).getLsbD (k.index.val + 1) = (x.notice k).flag ∧
      (word16At b 2).getLsbD (k.index.val + 1) = (x.notice k).enable ∧
      u8At b (4 + 6 * k.index.val) = (x.notice k).detail.channel.index ∧
      byteAt b (5 + 6 * k.index.val) = (x.notice k).detail.qualifier ∧
      u32At b (6 + 6 * k.index.val) = (x.notice k).detail.value.toNat) ∧
    (∀ ch : Ch, byteAt b (94 + ch.index) = (x.conditions.get ch).byte) ∧
    byteAt b 98 = flagByte [x.quietRequest, (s.port p.other).quietRequest, s.quietLine] := by
  intro b x
  let details := x.notices.toList.flatMap fun n => n.detail.bytes
  have size : details.length = 90 := by
    rw [length_flatMap_of _ fun n : Notice => length_detail n.detail]
    simp
  have here : b = noticeMask (x.notices.toList.map Notice.flag) ++ (noticeMask (x.notices.toList.map Notice.enable) ++ (details ++
      (Ch.list.map (fun ch => (x.conditions.get ch).byte) ++
        [flagByte [x.quietRequest, (s.port p.other).quietRequest, s.quietLine]]))) := by
    show s.noticeBytes p = _
    unfold State.noticeBytes
    simp only [List.append_assoc, details, x]
  have flags := noticeMask_bits (l := x.notices.toList.map Notice.flag) (by simp)
  have enables := noticeMask_bits (l := x.notices.toList.map Notice.enable) (by simp)
  have detail (i : Nat) (hi : i < 15) : ∃ before after, details = before ++ (x.notices[i].detail.bytes ++ after) ∧ before.length = 6 * i := by
    obtain ⟨before, after, split, length⟩ := flatMap_at (fun n : Notice => length_detail n.detail) (l := x.notices.toList) (i := i) (by simpa using hi)
    rw [Vector.getElem_toList] at split
    exact ⟨before, after, split, length⟩
  rw [here]
  refine ⟨?_, ?_, ?_, fun k => ⟨?_, ?_, ?_⟩, fun ch => ?_, ?_⟩
  · simp [length_noticeMask, size, Ch.list]
  · rw [word16At_left (by simp [length_noticeMask])]
    exact flags.1
  · rw [word16At_right (by simp [length_noticeMask]), word16At_left (by simp [length_noticeMask]), length_noticeMask]
    exact enables.1
  · rw [word16At_left (by simp [length_noticeMask]), flags.2]
    simp [PortState.notice]
  · rw [word16At_right (by simp [length_noticeMask]), word16At_left (by simp [length_noticeMask]), length_noticeMask, enables.2]
    simp [PortState.notice]
  · obtain ⟨before, after, split, length⟩ := detail k.index.val k.index.isLt
    generalize masks : noticeMask (x.notices.toList.map Notice.flag) ++ noticeMask (x.notices.toList.map Notice.enable) = lead
    have four : lead.length = 4 := by simp [← masks, length_noticeMask]
    rw [← List.append_assoc, masks, split, List.append_assoc, List.append_assoc, ← List.append_assoc lead]
    have front : (lead ++ before).length = 4 + 6 * k.index.val := by rw [List.length_append, four, length]
    rw [u8At_right (by omega), byteAt_right (by omega), u32At_right (by omega), front]
    rw [Nat.sub_self, show 5 + 6 * k.index.val - (4 + 6 * k.index.val) = 1 by omega,
      show 6 + 6 * k.index.val - (4 + 6 * k.index.val) = 2 by omega]
    simp [Detail.bytes, PortState.notice]
  · cases ch <;> simp [length_noticeMask, size, Ch.list, Ch.index]
  · simp [length_noticeMask, size, Ch.list]

/-! The account snapshot, in seven parts -/

/-- Bytes 2 to 7: what the period stands under. -/
def PeriodView.origin (v : PeriodView) : List Byte := sourceBytes v.source ++ (le16 (sourceSerial v.source) ++ [v.reason, v.verdict.code])

/-- Bytes 16 to 45: the counts and the sums. -/
def PeriodView.figures (v : PeriodView) : List Byte := v.counts.flatMap count16 ++ (count64 v.ratedSum ++ count64 v.plainSum)

/-- Bytes 46 to 73: the fields encoded as levels. -/
def PeriodView.levelFields (v : PeriodView) : List Byte := (v.parameters ++ v.levels).flatMap levelBytes

theorem State.accountBytes_parts :
    let c := s.chan ch
    let v := periodView c.period s.header.coverage
    let d := c.day.getD ⟨0, 0, 0, 0, false⟩
    s.accountBytes ch = [byteOf ch.index, flagByte [v.isOpen, c.day.isSome, v.works, d.lowGiven, c.quietHeld]] ++ (v.origin ++
      (minuteBytes v.opening ++ (minuteBytes v.last ++ (v.figures ++ (v.levelFields ++ (minuteBytes (c.day.map Day.start) ++
        (count16 d.allowance ++ (count16 d.spent ++ (count16 d.breaches ++ (v.sustainable.bytes ++ [c.quiet.code, 0])))))))))) := by
  intro c v d
  unfold State.accountBytes PeriodView.origin PeriodView.figures PeriodView.levelFields
  simp only [List.append_assoc, List.flatMap_append, List.cons_append, List.nil_append, c, v, d]

section

variable (p : Option Period) (coverage : Nat)

@[simp] theorem length_origin (v : PeriodView) : v.origin.length = 6 := by simp [PeriodView.origin]

@[simp] theorem length_figures : (periodView p coverage).figures.length = 30 := by
  cases p <;> simp [PeriodView.figures, periodView]

theorem length_shownLevels : ((periodView p coverage).parameters ++ (periodView p coverage).levels).length = 14 := by
  cases p <;> simp [periodView]

@[simp] theorem length_levelFields : (periodView p coverage).levelFields.length = 28 := by
  rw [PeriodView.levelFields, length_flatMap_of _ length_levelBytes, length_shownLevels]

end

/-- The fields of the account snapshot, whatever period is shown. -/
theorem State.accountBytes_fields :
    let b := s.accountBytes ch
    let c := s.chan ch
    let v := periodView c.period s.header.coverage
    let d := c.day.getD ⟨0, 0, 0, 0, false⟩
    b.length = 88 ∧ u8At b 0 = ch.index ∧ byteAt b 1 = flagByte [v.isOpen, c.day.isSome, v.works, d.lowGiven, c.quietHeld] ∧
    (u32At b 74 = minuteField (c.day.map Day.start) ∧ u16At b 78 = d.allowance % 2 ^ 16 ∧ u16At b 80 = d.spent % 2 ^ 16 ∧
      u16At b 82 = d.breaches % 2 ^ 16 ∧ word16At b 84 = word16At v.sustainable.bytes 0 ∧ byteAt b 86 = c.quiet.code ∧ byteAt b 87 = 0) ∧
    (∀ i < 6, byteAt b (2 + i) = byteAt v.origin i) ∧ u32At b 8 = minuteField v.opening ∧ u32At b 12 = minuteField v.last ∧
    (∀ i < 30, byteAt b (16 + i) = byteAt v.figures i) ∧
    ∀ i < 14, word16At b (46 + 2 * i) = levelField ((v.parameters ++ v.levels).getD i none) := by
  intro b c v d
  have here : b = _ := s.accountBytes_parts ch
  rw [here]
  refine ⟨?_, ?_, ?_, ⟨?_, ?_, ?_, ?_, ?_, ?_, ?_⟩, fun i hi => ?_, ?_, ?_, fun i hi => ?_, fun i hi => ?_⟩
  case refine_11 =>
    rw [byteAt_right (by simp), byteAt_left (by simp; omega)]
    simp [v, c]
  case refine_14 =>
    rw [byteAt_right (by simp; omega), byteAt_right (by simp; omega), byteAt_right (by simp; omega), byteAt_right (by simp; omega),
      byteAt_left (by simp; omega)]
    have at' : 16 + i - 2 - 6 - 4 - 4 = i := by omega
    simp [v, c, at']
  case refine_15 =>
    rw [word16At_right (by simp; omega), word16At_right (by simp; omega), word16At_right (by simp; omega), word16At_right (by simp; omega),
      word16At_right (by simp; omega), word16At_left (by simp; omega)]
    have at' : 46 + 2 * i - 2 - 6 - 4 - 4 - 30 = 2 * i := by omega
    have inside : i < (v.parameters ++ v.levels).length := by rw [length_shownLevels]; exact hi
    simp only [v, length_origin, length_minuteBytes, length_figures, List.length_cons, List.length_nil, at', PeriodView.levelFields]
    rw [word16At_levels inside, List.getD_eq_getElem?_getD, List.getElem?_eq_getElem inside, Option.getD_some]
    rfl
  all_goals simp [minuteField, v, c, d]

/-- The named fields among the parts of the snapshot. -/
theorem State.accountBytes_named :
    let b := s.accountBytes ch
    let v := periodView (s.chan ch).period s.header.coverage
    byteAt b 2 = byteAt v.origin 0 ∧ u8At b 3 = u8At v.origin 1 ∧ word16At b 4 = word16At v.origin 2 ∧ byteAt b 6 = byteAt v.origin 4 ∧
    byteAt b 7 = byteAt v.origin 5 ∧
    [u16At b 16, u16At b 18, u16At b 20, u16At b 22, u16At b 24, u16At b 26, u16At b 28] =
      [u16At v.figures 0, u16At v.figures 2, u16At v.figures 4, u16At v.figures 6, u16At v.figures 8, u16At v.figures 10, u16At v.figures 12] ∧
    u32At b 30 = u32At v.figures 14 ∧ u32At b 34 = u32At v.figures 18 ∧ u32At b 38 = u32At v.figures 22 ∧ u32At b 42 = u32At v.figures 26 := by
  intro b v
  have here : b = _ := s.accountBytes_parts ch
  rw [here]
  refine ⟨?_, ?_, ?_, ?_, ?_, ?_, ?_, ?_, ?_, ?_⟩
  all_goals simp [v]

/-- The sustainable level as the snapshot carries it. -/
theorem Period.sustainable_bytes (p : Period) :
    let budget := energyUnit p.rules.limit * p.planned
    let shown := word16At p.sustainable.bytes 0
    (p.planned ≤ p.elapsed → shown = levelField none) ∧
    (p.elapsed < p.planned → budget ≤ p.ratedSum → shown = levelField (some (-32767))) ∧
    (p.elapsed < p.planned → p.ratedSum < budget → shown = levelField (reverseLevel (budget - p.ratedSum) (p.planned - p.elapsed))) := by
  intro budget shown
  refine ⟨fun past => ?_, fun going spent => ?_, fun going left => ?_⟩
  · simp only [shown, Period.sustainable, if_pos past, Sustainable.bytes, word16At_level, levelField]
  · simp only [shown, Period.sustainable, if_neg (Nat.not_le.mpr going), show energyUnit p.rules.limit * p.planned ≤ p.ratedSum from spent,
      if_true, Sustainable.bytes, word16At_level, levelField]
  · have under : ¬ energyUnit p.rules.limit * p.planned ≤ p.ratedSum := Nat.not_le.mpr left
    simp only [shown, Period.sustainable, if_neg (Nat.not_le.mpr going), if_neg under, budget]
    cases reverseLevel (energyUnit p.rules.limit * p.planned - p.ratedSum) (p.planned - p.elapsed) <;>
      simp only [Sustainable.bytes, word16At_level, levelField]

/-- What the snapshot shows with no period open. -/
theorem PeriodView.nothing (coverage : Nat) :
    let v := periodView none coverage
    (∀ i < 6, byteAt v.origin i = 0) ∧ (∀ i < 30, byteAt v.figures i = 0) ∧
    ∀ i < 14, levelField ((v.parameters ++ v.levels).getD i none) = levelField none := by
  have blank : periodView none coverage = periodView none 0 := rfl
  rw [blank]
  exact ⟨by decide, by decide, by decide⟩

/-- What the snapshot shows of an open period. -/
theorem PeriodView.shown (p : Period) (coverage : Nat) :
    let v := periodView (some p) coverage
    byteAt v.origin 0 = (match p.source with | .entry _ => 1 | .dispensation _ _ => 2) ∧
    u8At v.origin 1 = (match p.source with | .entry i => i.val | .dispensation i _ => i.val) ∧
    word16At v.origin 2 = (match p.source with | .entry _ => 0 | .dispensation _ n => n) ∧
    byteAt v.origin 4 = p.reason ∧ byteAt v.origin 5 = (p.verdict coverage).code ∧
    [u16At v.figures 0, u16At v.figures 2, u16At v.figures 4, u16At v.figures 6, u16At v.figures 8, u16At v.figures 10, u16At v.figures 12] =
      [p.planned, p.elapsed, p.accounted, p.impulsive, p.lowFreq, p.triggers, p.breaches].map (· % 2 ^ 16) ∧
    u32At v.figures 14 + 2 ^ 32 * u32At v.figures 18 = p.ratedSum % 2 ^ 64 ∧
    u32At v.figures 22 + 2 ^ 32 * u32At v.figures 26 = p.plainSum % 2 ^ 64 ∧
    v.parameters ++ v.levels = [some p.rules.limit, some p.rules.trigger, some p.rules.impulseThreshold, some p.rules.impulsePenalty,
      some p.rules.lowFreqThreshold, some p.rules.lowFreqPenalty, some p.rules.cap, p.greatestLr, p.lafMax,
      reverseLevel p.ratedSum p.accounted, reverseLevel p.plainSum p.accounted, p.percentile 10, p.percentile 50, p.percentile 90] := by
  intro v
  have origin : v.origin = sourceBytes (some p.source) ++ (le16 (sourceSerial (some p.source)) ++ [p.reason, (p.verdict coverage).code]) := rfl
  have figures : v.figures = count16 p.planned ++ (count16 p.elapsed ++ (count16 p.accounted ++ (count16 p.impulsive ++
      (count16 p.lowFreq ++ (count16 p.triggers ++ (count16 p.breaches ++ (count64 p.ratedSum ++ count64 p.plainSum))))))) := by
    simp [v, periodView, PeriodView.figures]
  rw [origin, figures]
  refine ⟨?_, ?_, ?_, ?_, ?_, ?_, ?_, ?_, ?_⟩
  · cases p.source <;> simp [sourceBytes]
  · cases p.source with
    | entry i => simp
    | dispensation i n => simp
  · cases p.source <;> simp [sourceSerial]
  · simp
  · simp
  · simp
  · rw [← u32At_count64 p.ratedSum]
    simp
  · rw [← u32At_count64 p.plainSum]
    simp
  · simp [v, periodView, Period.lr, Period.laeq]

end

/-- The last fields of READ ENTRY and READ DISPENSATION, and the length of READ COMMISSIONING. -/
theorem State.images_laid (s : State) :
    s.commissioning.bytes.length = 69 ∧
    (∀ i : Fin 16, (s.entryBytes i).length = 25 ∧ (s.entryBytes i).take 24 = s.entries[i].bytes ∧
      byteAt (s.entryBytes i) 24 = flagByte [decide (i.val < s.protection.extent)]) ∧
    ∀ i : Fin 8, (s.slotBytes i).length = 22 ∧ (s.slotBytes i).take 20 = s.slots[i].bytes i ∧ word16At (s.slotBytes i) 20 = s.proposalSerial := by
  have entry (e : Entry) : e.bytes.length = 24 := by simp [Entry.bytes]
  have slot (i : Fin 8) (x : Slot) : (x.bytes i).length = 20 := by simp [Slot.bytes]
  refine ⟨by rw [Commissioning.bytes_eq]; simp, fun i => ⟨?_, ?_, ?_⟩, fun i => ⟨?_, ?_, ?_⟩⟩
  · simp [State.entryBytes, entry]
  · simp [State.entryBytes, entry]
  · simp [State.entryBytes, entry, State.entryProtected]
  · simp [State.slotBytes, slot]
  · simp [State.slotBytes, slot]
  · simp [State.slotBytes, slot]

/-- The flags and the day account of the snapshot, by what is open. -/
theorem Channel.accountFlags (c : Channel) (coverage : Nat) :
    let v := periodView c.period coverage
    let d := c.day.getD ⟨0, 0, 0, 0, false⟩
    v.isOpen = c.period.isSome ∧ v.works = c.period.any (fun p => p.rules.works) ∧ d.lowGiven = c.day.any (fun d => d.lowGiven) ∧
    d.allowance = (c.day.map Day.allowance).getD 0 ∧ d.spent = (c.day.map Day.spent).getD 0 ∧
    d.breaches = (c.day.map Day.breaches).getD 0 := by
  intro v d
  refine ⟨?_, ?_, ?_, ?_, ?_, ?_⟩
  case refine_1 => cases period : c.period <;> simp [v, period, periodView]
  case refine_2 => cases period : c.period <;> simp [v, period, periodView]
  all_goals cases day : c.day <;> simp [d, day]

/-- Settles O15, response by response. -/
theorem responsesLaidOut : Obligations.ResponsesLaidOut := by
  unfold Obligations.ResponsesLaidOut
  intro s level minute weather
  refine ⟨s.liveBytes_fields, s.channelBytes_fields, s.clockBytes_fields, s.headerBytes_fields, fun ch => ?_,
    fun ch first count _ bound => s.histogramBytes_fields ch first count bound, s.noticeBytes_fields, s.images_laid,
    State.identityBytes_fields, rfl, rfl, rfl, ?_, rfl, rfl, rfl, rfl, rfl, rfl, rfl, rfl, rfl, ?_⟩
  · intro b c day
    obtain ⟨length, index, flags, ⟨start, allowance, spent, breaches, sustainable, quiet, last⟩, origin, opening, lastMinute, figures, levels⟩ :=
      s.accountBytes_fields ch
    obtain ⟨isOpen, works, given, allowanceOf, spentOf, breachesOf⟩ := c.accountFlags s.header.coverage
    refine ⟨length, index, ?_, start, ?_, ?_, ?_, quiet, last, fun closed => ?_, fun p isOpen => ?_⟩
    · rw [flags, isOpen, works, given]
      rfl
    · rw [allowance, allowanceOf]
    · rw [spent, spentOf]
    · rw [breaches, breachesOf]
    · obtain ⟨noOrigin, noFigures, noLevels⟩ := PeriodView.nothing s.header.coverage
      rw [closed] at origin figures levels opening lastMinute sustainable
      refine ⟨fun i low high => ?_, opening, lastMinute, fun i low high => ?_, fun i hi => (levels i hi).trans (noLevels i hi), ?_⟩
      · rw [← noOrigin (i - 2) (by omega), ← origin (i - 2) (by omega), show 2 + (i - 2) = i by omega]
      · rw [← noFigures (i - 16) (by omega), ← figures (i - 16) (by omega), show 16 + (i - 16) = i by omega]
      · exact sustainable.trans (word16At_level none)
    · obtain ⟨kind, number, serial, reason, verdict, counts, rated, plain, shown⟩ := PeriodView.shown p s.header.coverage
      obtain ⟨kindAt, numberAt, serialAt, reasonAt, verdictAt, countsAt, ratedLow, ratedHigh, plainLow, plainHigh⟩ := s.accountBytes_named ch
      rw [isOpen] at levels opening lastMinute sustainable kindAt numberAt serialAt reasonAt verdictAt countsAt ratedLow ratedHigh plainLow plainHigh
      rw [shown] at levels
      refine ⟨?_, ?_, ?_, ?_, ?_, opening, lastMinute, ?_, ?_, ?_, levels, ?_⟩
      · exact (kindAt.trans kind).trans (by cases p.source <;> rfl)
      · exact (numberAt.trans number).trans (by cases p.source <;> rfl)
      · exact (serialAt.trans serial).trans (by cases p.source <;> rfl)
      · rw [reasonAt, reason]
      · rw [verdictAt, verdict]
      · rw [countsAt, counts]
      · rw [ratedLow, ratedHigh, rated]
      · rw [plainLow, plainHigh, plain]
      · rw [sustainable]
        exact p.sustainable_bytes
  · intro x r
    cases x <;> exact ⟨rfl, rfl⟩
  · rintro ⟨_ | _, _ | _, _ | _, _ | _⟩ <;> rfl

end Sys2Proof.Machine

/-! The schedule and the dispensation table: their writes, and the source of a minute (O38 to O42). -/
namespace Sys2Proof.Machine

/-! ### A whole write, by what its owner answers -/

/-- A whole write that its owner takes, as a command. -/
theorem write_taken {i : Instr} {p : Port} {code : Byte} {n : Nat} {role : Role} {params : List Byte}
    {owner : List Byte → State → Except Result State} {s t : State}
    (runs : exec i s = .next (portWrite p code n role (.whole params) owner s)) (hr : s.running = true) (length : params.length = n)
    (allowed : role.allows p = true) (ho : owner params s.settle = .ok t) : exec i s = .next (t.wrote p .ok s.settle params) := by
  rw [runs, portWrite_ok hr length allowed ho]

/-- A whole write that its owner refuses, as a command. -/
theorem write_refused {i : Instr} {p : Port} {code : Byte} {n : Nat} {role : Role} {params : List Byte}
    {owner : List Byte → State → Except Result State} {s : State} {r : Result}
    (runs : exec i s = .next (portWrite p code n role (.whole params) owner s)) (hr : s.running = true) (length : params.length = n)
    (allowed : role.allows p = true) (ho : owner params s.settle = .error r) : exec i s = .next (s.settle.wrote p r s.settle params) := by
  rw [runs, portWrite_refused hr length allowed ho]

section Checks

variable {α : Type} {b : Bool} {r : Result} {go : Except Result α}

theorem check_fails (h : b = true) : check b r go = .error r := by rw [h, check, if_pos rfl]

theorem check_passes (h : b = false) : check b r go = go := by rw [h, check]; rfl

end Checks

/-! ### Masks, coverage and overlap (R57, R58) -/

theorem Ch.exists_index {i : Nat} (h : i < 4) : ∃ ch : Ch, ch.index = i := by
  interval_cases i
  exacts [⟨.ch0, rfl⟩, ⟨.ch1, rfl⟩, ⟨.ch2, rfl⟩, ⟨.ch3, rfl⟩]

theorem mask_ne_zero_iff (m : ChannelMask) : (m != 0) = true ↔ ∃ ch, maskHas m ch = true := by
  rw [bne_iff_ne]
  constructor
  · intro some'
    by_contra none'
    refine some' (BitVec.eq_of_getLsbD_eq fun i hi => ?_)
    obtain ⟨ch, rfl⟩ := Ch.exists_index hi
    exact (Bool.eq_false_iff.mpr fun has => none' ⟨ch, has⟩).trans BitVec.getLsbD_zero.symm
  · rintro ⟨ch, has⟩ rfl
    simp [maskHas] at has

theorem maskHas_and (a b : ChannelMask) (ch : Ch) : maskHas (a &&& b) ch = (maskHas a ch && maskHas b ch) := by
  rw [maskHas, BitVec.getLsbD_and, maskHas, maskHas]

theorem masks_meet_iff (a b : ChannelMask) : (a &&& b != 0) = true ↔ ∃ ch, maskHas a ch = true ∧ maskHas b ch = true := by
  rw [mask_ne_zero_iff]
  simp only [maskHas_and, Bool.and_eq_true]

/-- The minute of the week that stands for a weekday and a minute-of-day. -/
theorem weekday_minute {wd m : Nat} (hwd : wd < 7) (hm : m < 1440) :
    weekday ((wd + 2) % 7 * 1440 + m) = wd ∧ minuteOfDay ((wd + 2) % 7 * 1440 + m) = m := by
  unfold weekday minuteOfDay
  omega

theorem Entry.overlaps_iff (a b : Entry) : a.overlaps b = true ↔ ∃ ch n, a.covers ch n = true ∧ b.covers ch n = true := by
  rw [Entry.overlaps, Bool.and_eq_true, masks_meet_iff]
  constructor
  · rintro ⟨⟨ch, hasA, hasB⟩, meet⟩
    simp only [List.any_eq_true, List.mem_range, Bool.and_eq_true] at meet
    obtain ⟨wd, hwd, m, hm, atA, atB⟩ := meet
    obtain ⟨day, minute⟩ := weekday_minute hwd hm
    exact ⟨ch, (wd + 2) % 7 * 1440 + m, by simp [Entry.covers, hasA, day, minute, atA], by simp [Entry.covers, hasB, day, minute, atB]⟩
  · rintro ⟨ch, n, coversA, coversB⟩
    simp only [Entry.covers, Bool.and_eq_true] at coversA coversB
    refine ⟨⟨ch, coversA.1, coversB.1⟩, ?_⟩
    simp only [List.any_eq_true, List.mem_range, Bool.and_eq_true]
    exact ⟨weekday n, Nat.mod_lt _ (by decide), minuteOfDay n, Nat.mod_lt _ (by decide), coversA.2, coversB.2⟩

/-! ### Queuing an item (R66, R176) -/

theorem Store.canTake_iff (st : Store) (item : Nat) : st.canTake item = true ↔ ¬ st.full item := by
  simp only [Store.canTake, Store.isPending, Store.full, Bool.or_eq_true, List.any_eq_true, beq_iff_eq, decide_eq_true_eq, not_and,
    not_le]
  constructor
  · rintro (⟨w, mem, same⟩ | few) none'
    · exact absurd same (none' w mem)
    · exact few
  · intro takes
    by_cases pending : ∃ x ∈ st.queue, x.item = item
    · exact .inl pending
    · exact .inr (takes fun x mem same => pending ⟨x, mem, same⟩)

theorem Store.busy_fails {st : Store} {item : Nat} (h : st.full item) : (!st.canTake item) = true := by
  rw [Bool.not_eq_true', Bool.eq_false_iff, Ne, Store.canTake_iff, not_not]
  exact h

theorem Store.room_passes {st : Store} {item : Nat} (h : ¬ st.full item) : (!st.canTake item) = false := by
  rw [Bool.not_eq_false', Store.canTake_iff]
  exact h

theorem Store.queued_enqueue (st : Store) (w : StoreWrite) : Queued st (st.enqueue w) w := by
  have pending_iff : st.isPending w.item = true ↔ ∃ x ∈ st.queue, x.item = w.item := by simp [Store.isPending]
  unfold Store.enqueue
  by_cases pending : st.isPending w.item = true
  · rw [if_pos pending]
    exact ⟨rfl, rfl, fun _ => rfl, fun none' => by
      obtain ⟨x, mem, same⟩ := pending_iff.mp pending
      exact absurd same (none' x mem)⟩
  · rw [if_neg pending]
    exact ⟨rfl, rfl, fun some' => absurd (pending_iff.mpr some') pending, fun _ => rfl⟩

/-! ### The schedule's writes (O38, O39) -/

/-- What an accepted change of an entry leaves. -/
theorem State.changeEntry_leaves (u : State) (i : Fin 16) (e : Entry) :
    let v := u.changeEntry i e
    v = { u with entries := u.entries.set i e, store := v.store, site := v.site, compliance := v.compliance } ∧
    Queued u.store v.store (.entry i e) ∧ SetOnBoth u v .schedule ⟨.ch0, 1, BitVec.ofNat 32 i.val⟩ :=
  ⟨rfl, u.store.queued_enqueue _, setOnBoth_notifyBoth _ .schedule _⟩

theorem entryOverlap_iff (s : State) (i : Fin 16) (e : Entry) : s.entryOverlap i e = true ↔
    ∃ j : Fin 16, j ≠ 0 ∧ j ≠ i ∧ s.entries[j].present = true ∧ ∃ ch n, e.covers ch n = true ∧ s.entries[j].covers ch n = true := by
  simp only [State.entryOverlap, List.any_eq_true, mem_entryIndices, Bool.and_eq_true, bne_iff_ne, Entry.overlaps_iff, and_assoc]

/-- Settles O38: each check in its turn, then the change. -/
theorem entriesWritten : Obligations.EntriesWritten := by
  unfold Obligations.EntriesWritten
  intro params s hr u n queued
  refine ⟨fun length => ?_, fun length => ?_⟩
  · intro refused
    refine ⟨fun off => ?_, fun i named => ?_⟩
    · have none' : entryIndex? (u8At params 0) = none := entryIndex?_none off
      exact write_refused rfl hr length rfl (by rw [writeEntryOwner, none'])
    intro e meets
    have some' : entryIndex? (u8At params 0) = some i := (congrArg entryIndex? named.symm).trans (entryIndex?_val i)
    have owner {x : Except Result State} (h : writeEntryAt i e u = x) : writeEntryOwner params u = x := by
      rw [writeEntryOwner, some']
      exact h
    have refuses {r : Result} (h : writeEntryAt i e u = .error r) : refused r := write_refused rfl hr length rfl (owner h)
    have overlap : (i != 0 && u.entryOverlap i e) = true ↔ meets := by rw [Bool.and_eq_true, bne_iff_ne, entryOverlap_iff]
    refine ⟨fun protected' => refuses (check_fails (decide_eq_true protected')), fun free => ?_⟩
    have open' : u.entryProtected i = false := decide_eq_false (by omega)
    have past : writeEntryAt i e u = _ := check_passes open'
    refine ⟨fun out => refuses (past.trans (check_fails (by rw [out]; rfl))), fun fits meet => ?_, fun fits apart => ?_, fun fits apart => ?_⟩
    all_goals replace past := past.trans (check_passes (by rw [fits]; rfl))
    · exact refuses (past.trans (check_fails (overlap.mpr meet)))
    all_goals replace past := past.trans (check_passes (Bool.eq_false_iff.mpr fun h => apart (overlap.mp h)))
    · exact fun full => refuses (past.trans (check_fails (Store.busy_fails full)))
    · exact fun room => ⟨u.changeEntry i e, write_taken rfl hr length rfl (owner (past.trans (check_passes (Store.room_passes room)))),
        u.changeEntry_leaves i e⟩
  · intro refused
    refine ⟨fun off => ?_, fun i named => ?_⟩
    · have none' : entryIndex? (u8At params 0) = none := entryIndex?_none off
      exact write_refused rfl hr length rfl (by rw [deleteEntryOwner, none'])
    have some' : entryIndex? (u8At params 0) = some i := (congrArg entryIndex? named.symm).trans (entryIndex?_val i)
    have owner : deleteEntryOwner params u = check (i == 0 || !u.entries[i].present) .state (check (u.entryProtected i) .protection
        (check (!u.store.canTake i.val) .busy (.ok (u.changeEntry i u.entries[i].deleted)))) := by
      rw [deleteEntryOwner, some']
    have refuses {r : Result} (h : deleteEntryOwner params u = .error r) : refused r := write_refused rfl hr length rfl h
    refine ⟨fun absent => refuses (owner.trans (check_fails (by simpa using absent))), fun other present => ?_⟩
    have past := owner.trans (check_passes (by rw [present, beq_eq_false_iff_ne.mpr other]; rfl))
    refine ⟨fun protected' => refuses (past.trans (check_fails (decide_eq_true protected'))), fun free => ?_, fun free => ?_⟩
    all_goals replace past := past.trans (check_passes (decide_eq_false (by omega)))
    · exact fun full => refuses (past.trans (check_fails (Store.busy_fails full)))
    · exact fun room => ⟨u.changeEntry i u.entries[i].deleted, write_taken rfl hr length rfl (past.trans (check_passes (Store.room_passes room))),
        u.changeEntry_leaves i _⟩

theorem protectionMode?_code (m : ProtectionMode) : protectionMode? m.code = some m := by cases m <;> rfl

theorem protectionMode?_none {b : Byte} (h : 2 < b.toNat) : protectionMode? b = none := by
  unfold protectionMode?
  split
  · simp at h
  · simp at h
  · simp at h
  · rfl

theorem protectionMode?_some {b : Byte} (h : b.toNat ≤ 2) : ∃ m, protectionMode? b = some m := by
  have cases' : b = 0 ∨ b = 1 ∨ b = 2 := by bv_omega
  rcases cases' with rfl | rfl | rfl
  exacts [⟨_, rfl⟩, ⟨_, rfl⟩, ⟨_, rfl⟩]

theorem Header.inRange_iff (h : Header) :
    h.inRange = true ↔ h.dayStart ≤ 1439 ∧ h.allowance ≤ 600 ∧ h.lowMark ≤ 600 ∧ h.coverage ≤ 100 := by
  simp only [Header.inRange, Bool.and_eq_true, decide_eq_true_eq, and_assoc]

theorem State.changeHeader_leaves (u : State) (h : Header) :
    let v := ({ u with header := h }.enqueue (.header h)).notifyBoth .schedule ⟨.ch0, 2, 0⟩
    v = { u with header := h, store := v.store, site := v.site, compliance := v.compliance } ∧
    Queued u.store v.store (.header h) ∧ SetOnBoth u v .schedule ⟨.ch0, 2, 0⟩ :=
  ⟨rfl, u.store.queued_enqueue _, setOnBoth_notifyBoth _ .schedule _⟩

theorem State.protect_leaves (u : State) (prot : Bool) (x : Protection) :
    let v := (u.sampleProt prot).protect x
    v = { u with protection := x, prot := prot, store := v.store, site := v.site, compliance := v.compliance } ∧
    Queued u.store v.store (.protection x) ∧ SetOnBoth u v .schedule ⟨.ch0, 3, 0⟩ :=
  ⟨rfl, u.store.queued_enqueue _, setOnBoth_notifyBoth _ .schedule _⟩

/-- Settles O39: each check in its turn, then the change. -/
theorem headerAndProtection : Obligations.HeaderAndProtection := by
  unfold Obligations.HeaderAndProtection
  intro params prot s hr u
  refine ⟨fun length => ?_, fun length => ?_⟩
  · intro h fits refused
    have owner : writeHeaderOwner params u = _ := rfl
    have refuses {r : Result} (e : writeHeaderOwner params u = .error r) : refused r := write_refused rfl hr length rfl e
    refine ⟨fun protected' => refuses (check_fails (decide_eq_true protected')), fun free => ?_, fun free => ?_, fun free => ?_⟩
    all_goals
      have open' : u.headerProtected = false := decide_eq_false (by omega)
      have past : writeHeaderOwner params u = _ := check_passes open'
    · exact fun out => refuses (past.trans (check_fails (by rw [Bool.not_eq_true', Bool.eq_false_iff]; exact fun e => out (h.inRange_iff.mp e))))
    all_goals
      intro fit
      replace past := past.trans (check_passes (by rw [Bool.not_eq_false']; exact h.inRange_iff.mpr fit))
    · exact fun full => refuses (past.trans (check_fails (Store.busy_fails full)))
    · intro room
      have taken := past.trans (check_passes (Store.room_passes room))
      exact ⟨_, write_taken rfl hr length rfl taken, u.changeHeader_leaves h⟩
  · intro refused extent fits
    have refuses {r : Result} (e : setProtectionOwner params prot u = .error r) : refused r := write_refused rfl hr length rfl e
    have locked_iff : (u.protection.mode == .fixed) = true ↔ u.protection.mode = .fixed := beq_iff_eq
    have line_iff : (u.protection.mode == .line && !prot) = true ↔ u.protection.mode = .line ∧ prot = false := by simp
    refine ⟨fun fixed => refuses (check_fails (locked_iff.mpr fixed)), fun line low => refuses ?_, fun unlocked high => ?_⟩
    · have unlocked : (u.protection.mode == .fixed) = false := by rw [line]; rfl
      exact (check_passes unlocked).trans (check_fails (line_iff.mpr ⟨line, low⟩))
    have past : setProtectionOwner params prot u = _ := (check_passes (Bool.eq_false_iff.mpr fun e => unlocked (locked_iff.mp e))).trans
      (check_passes (Bool.eq_false_iff.mpr fun e => by
        obtain ⟨line, low⟩ := line_iff.mp e
        rw [high line] at low
        exact absurd low (by decide)))
    refine ⟨fun out => refuses (past.trans ?_), fun fit full => refuses (past.trans ?_), fun fit room m named => ?_⟩
    · by_cases mode : (params.getD 1 0).toNat ≤ 2
      · obtain ⟨m, some'⟩ := protectionMode?_some (b := byteAt params 1) mode
        have long : 16 < u8At params 0 := by
          by_contra short
          exact out ⟨Nat.not_lt.mp short, mode⟩
        rw [some']
        exact check_fails (decide_eq_true long)
      · rw [protectionMode?_none (b := byteAt params 1) (Nat.not_le.mp mode)]
    · obtain ⟨m, some'⟩ := protectionMode?_some (b := byteAt params 1) fit.2
      rw [some']
      exact (check_passes (decide_eq_false (Nat.not_lt.mpr fit.1))).trans (check_fails (Store.busy_fails full))
    · have some' : protectionMode? (byteAt params 1) = some m := (congrArg protectionMode? named.symm).trans (protectionMode?_code m)
      rw [some'] at past
      have taken := past.trans ((check_passes (decide_eq_false (Nat.not_lt.mpr fit.1))).trans (check_passes (Store.room_passes room)))
      exact ⟨_, write_taken rfl hr length rfl taken, u.protect_leaves prot ⟨extent, m⟩⟩

/-! ### The source of a minute (O40) -/

/-- The table of `t` gives minute `n` of a channel the source that the table of `s` gives. -/
structure State.SourceKept (ch : Ch) (n : Nat) (s t : State) : Prop where
  entries : t.entries = s.entries
  serial : ∀ i : Fin 8, t.slots[i].serial = s.slots[i].serial
  governs : ∀ i : Fin 8, t.slots[i].governs ch n = s.slots[i].governs ch n

section

variable {ch : Ch} {n : Nat}

theorem State.SourceKept.trans {s t u : State} (h : s.SourceKept ch n t) (h' : t.SourceKept ch n u) : s.SourceKept ch n u :=
  ⟨h'.entries.trans h.entries, fun i => (h'.serial i).trans (h.serial i), fun i => (h'.governs i).trans (h.governs i)⟩

theorem State.SourceKept.sourceOf {s t : State} (h : s.SourceKept ch n t) : t.sourceOf ch n = s.sourceOf ch n := by
  have slot : t.slotFor ch n = s.slotFor ch n := by simp only [State.slotFor, h.governs]
  have entry : t.entryFor ch n = s.entryFor ch n := by simp only [State.entryFor, h.entries]
  rw [State.sourceOf, State.sourceOf, slot, entry]
  cases s.slotFor ch n with
  | none => rfl
  | some i => exact congrArg (Source.dispensation i) (h.serial i)

/-- R61, R84: a row of the table moves a slot at minute `n` without a change of whether it governs that minute. -/
theorem Slot.atMinute_governs {x y : Slot} (h : x.atMinute n = some y) : y.serial = x.serial ∧ y.governs ch n = x.governs ch n := by
  obtain ⟨state, serial, channels, start, stop, limit, trigger, works, reason, outcome⟩ := x
  cases state with
  | free => exact absurd h (by simp [Slot.atMinute])
  | proposed =>
    simp only [Slot.atMinute, Option.ite_none_right_eq_some, Option.some.injEq] at h
    obtain ⟨_, rfl⟩ := h
    exact ⟨rfl, rfl⟩
  | approved =>
    simp only [Slot.atMinute] at h
    split at h
    · obtain rfl := Option.some.inj h
      exact ⟨rfl, by simp [Slot.governs, Nat.not_lt.mpr ‹stop ≤ n›]⟩
    · split at h
      · obtain rfl := Option.some.inj h
        exact ⟨rfl, rfl⟩
      · exact absurd h (by simp)
  | active =>
    simp only [Slot.atMinute] at h
    split at h
    · obtain rfl := Option.some.inj h
      exact ⟨rfl, by simp [Slot.governs, Nat.not_lt.mpr ‹stop ≤ n›]⟩
    · split at h
      · obtain rfl := Option.some.inj h
        exact ⟨rfl, rfl⟩
      · exact absurd h (by simp)

theorem State.SourceKept.moveSlot (s : State) (i : Fin 8) : s.SourceKept ch n (State.moveSlot n s i) := by
  unfold State.moveSlot
  cases moved : s.slots[i].atMinute n with
  | none => exact ⟨rfl, fun _ => rfl, fun _ => rfl⟩
  | some x =>
    obtain ⟨serial, governs⟩ := Slot.atMinute_governs (ch := ch) moved
    have get (j : Fin 8) : (s.changeSlot i x).slots[j] = if j = i then x else s.slots[j] := by
      show (s.slots.set i x)[j] = _
      simp only [Fin.getElem_fin, Vector.getElem_set, Fin.ext_iff, eq_comm]
    refine ⟨rfl, fun j => ?_, fun j => ?_⟩
    all_goals
      show _ = _
      rw [get]
      split
      next same => subst same; assumption
      next => rfl

theorem State.SourceKept.moveSlots (s : State) (ch : Ch) (n : Nat) : s.SourceKept ch n (s.moveSlots (some n)) := by
  have work : ∀ (l : List (Fin 8)) (t : State), t.SourceKept ch n (l.foldl (State.moveSlot n) t) := by
    intro l
    induction l with
    | nil => exact fun _ => ⟨rfl, fun _ => rfl, fun _ => rfl⟩
    | cons i l ih => exact fun t => (State.SourceKept.moveSlot t i).trans (ih _)
  unfold State.moveSlots State.inAnyOrder
  refine State.SourceKept.trans ?_ (work _ _)
  rw [State.arrange_state]
  exact ⟨rfl, fun _ => rfl, fun _ => rfl⟩

end

theorem Slot.governs_iff (x : Slot) (ch : Ch) (n : Nat) :
    x.governs ch n = true ↔ x.granted = true ∧ maskHas x.channels ch = true ∧ x.start ≤ n ∧ n < x.stop := by
  simp only [Slot.governs, Bool.and_eq_true, decide_eq_true_eq, and_assoc]

/-- Of a list, the one element that meets a predicate is what `find?` finds. -/
theorem find?_unique {α : Type} {q : α → Bool} {l : List α} {a : α} (mem : a ∈ l) (meets : q a = true)
    (unique : ∀ b ∈ l, q b = true → b = a) : l.find? q = some a := by
  cases found : l.find? q with
  | none => exact absurd meets (List.find?_eq_none.mp found a mem)
  | some b => rw [unique b (List.mem_of_find?_eq_some found) (List.find?_some found)]

/-- R59, R78: two slots that govern one minute of a channel clash. -/
theorem Slot.clashes_of_governs {x y : Slot} {ch : Ch} {n : Nat} (hx : x.governs ch n = true) (hy : y.governs ch n = true) :
    x.clashes y = true := by
  obtain ⟨_, hasX, startX, stopX⟩ := (x.governs_iff ch n).mp hx
  obtain ⟨granted, hasY, startY, stopY⟩ := (y.governs_iff ch n).mp hy
  simp only [Slot.clashes, Bool.and_eq_true, masks_meet_iff, spansOverlap, decide_eq_true_eq]
  exact ⟨⟨granted, ch, hasX, hasY⟩, by omega, by omega⟩

/-- Settles O40: two sources of a minute would overlap. -/
theorem sourceIsOne : Obligations.SourceIsOne := by
  unfold Obligations.SourceIsOne
  intro s ch n
  refine ⟨(State.SourceKept.moveSlots s ch n).sourceOf, fun apart i granted has start stop => ?_, fun ok none' => ⟨?_, ?_⟩⟩
  · have governs : s.slots[i].governs ch n = true := (Slot.governs_iff _ _ _).mpr ⟨granted, has, start, stop⟩
    have found : s.slotFor ch n = some i := find?_unique (List.mem_finRange i) governs fun j _ other => by
      by_contra ne
      have clear := apart i j (Ne.symm ne) granted
      rw [Slot.clashes_of_governs governs other] at clear
      exact absurd clear (by decide)
    rw [State.sourceOf, found]
  all_goals
    have unslotted : s.slotFor ch n = none := List.find?_eq_none.mpr fun j _ governs => by
      obtain ⟨granted, has, start, stop⟩ := (Slot.governs_iff _ _ _).mp governs
      exact absurd (none' j granted has start) (Nat.not_le.mpr stop)
    have source : s.sourceOf ch n = .entry (s.entryFor ch n) := by rw [State.sourceOf, unslotted]
    rw [source]
  · intro i ne present covers
    have found : entryIndices.find? (fun i => s.entries[i].present && s.entries[i].covers ch n) = some i := by
      refine find?_unique ((mem_entryIndices i).mpr ne) (by rw [present, covers]; rfl) fun j mem other => ?_
      obtain ⟨presentJ, coversJ⟩ := Bool.and_eq_true_iff.mp other
      by_contra differ
      have clear := ok.apart i j ne ((mem_entryIndices j).mp mem) (Ne.symm differ) present presentJ
      rw [(Entry.overlaps_iff _ _).mpr ⟨ch, n, covers, coversJ⟩] at clear
      exact absurd clear (by decide)
    rw [State.entryFor, found]
    rfl
  · intro uncovered
    have found : entryIndices.find? (fun i => s.entries[i].present && s.entries[i].covers ch n) = none := by
      refine List.find?_eq_none.mpr fun j mem other => ?_
      obtain ⟨present, covers⟩ := Bool.and_eq_true_iff.mp other
      rw [uncovered j ((mem_entryIndices j).mp mem) present] at covers
      exact absurd covers (by decide)
    rw [State.entryFor, found]
    rfl

/-! ### The dispensation table's commands (O41, O42) -/

/-- What a change of a slot leaves. -/
theorem State.changeSlot_leaves (u : State) (i : Fin 8) (x : Slot) :
    let v := u.changeSlot i x
    v = { u with slots := u.slots.set i x, site := v.site, compliance := v.compliance } ∧
    SetOnBoth u v .dispensation ⟨.ch0, BitVec.ofNat 8 i.val, x.serial.setWidth 32⟩ :=
  ⟨rfl, setOnBoth_notifyBoth _ .dispensation _⟩

/-- What an accepted proposal leaves. -/
theorem State.propose_leaves (u : State) (i : Fin 8) (x : Slot) :
    let v := { u with proposalSerial := u.proposalSerial + 1 }.changeSlot i x
    v = { u with slots := u.slots.set i x, proposalSerial := u.proposalSerial + 1, site := v.site, compliance := v.compliance } ∧
    SetOnBoth u v .dispensation ⟨.ch0, BitVec.ofNat 8 i.val, x.serial.setWidth 32⟩ :=
  ⟨rfl, setOnBoth_notifyBoth _ .dispensation _⟩

theorem limitInRange_iff (l : Level) : limitInRange l = true ↔ (3000 : Int) ≤ l ∧ (l : Int) ≤ 12000 := by
  simp only [limitInRange, within, Bool.and_eq_true, decide_eq_true_eq]

theorem triggerInRange_iff (l : Level) : triggerInRange l = true ↔ l = 0 ∨ ((3000 : Int) ≤ l ∧ (l : Int) ≤ 14000) := by
  simp only [triggerInRange, within, Bool.or_eq_true, Bool.and_eq_true, decide_eq_true_eq, beq_iff_eq]

theorem Slot.proposable_iff (x : Slot) (now : Nat) : x.proposable now = true ↔
    now < x.start ∧ x.start ≤ now + 10080 ∧ x.start < x.stop ∧ x.stop ≤ x.start + 1440 ∧
      (3000 : Int) ≤ x.limit ∧ (x.limit : Int) ≤ 12000 ∧ (x.trigger = 0 ∨ ((3000 : Int) ≤ x.trigger ∧ (x.trigger : Int) ≤ 14000)) ∧
      ∃ ch, maskHas x.channels ch = true := by
  simp only [Slot.proposable, Bool.and_eq_true, decide_eq_true_eq, limitInRange_iff, triggerInRange_iff, mask_ne_zero_iff, and_assoc,
    Nat.succ_le_iff, Nat.sub_le_iff_le_add']

theorem Slot.granted_iff (x : Slot) : x.granted = true ↔ x.state = .approved ∨ x.state = .active := by
  simp only [Slot.granted, Bool.or_eq_true, beq_iff_eq]

theorem Slot.clashes_iff (a b : Slot) : a.clashes b = true ↔ (b.state = .approved ∨ b.state = .active) ∧
    (∃ ch, maskHas a.channels ch = true ∧ maskHas b.channels ch = true) ∧ a.start < b.stop ∧ b.start < a.stop := by
  simp only [Slot.clashes, Bool.and_eq_true, Slot.granted_iff, masks_meet_iff, spansOverlap, decide_eq_true_eq, and_assoc]

theorem slots_any_iff (v : Vector Slot 8) (q : Slot → Bool) : v.any q = true ↔ ∃ j : Fin 8, q v[j] = true := by
  rw [Vector.any_eq_true]
  exact ⟨fun ⟨i, hi, h⟩ => ⟨⟨i, hi⟩, h⟩, fun ⟨j, h⟩ => ⟨j.val, j.isLt, h⟩⟩

theorem State.freeSlot_none {s : State} (h : ∀ j : Fin 8, s.slots[j].state ≠ .free) : s.freeSlot = none :=
  List.find?_eq_none.mpr fun j _ free => h j (beq_iff_eq.mp free)

theorem State.freeSlot_some {s : State} {i : Fin 8} (free : s.slots[i].state = .free) (lowest : ∀ j : Fin 8, j < i → s.slots[j].state ≠ .free) :
    s.freeSlot = some i := by
  refine List.find?_eq_some_iff_getElem.mpr ⟨beq_iff_eq.mpr free, i.val, by simp, by simp, fun j hj => ?_⟩
  rw [List.getElem_finRange]
  simpa using lowest ⟨j, by omega⟩ hj

/-- The checks of a proposal in their order. -/
theorem proposeOwner_eq (params : List Byte) (s : State) :
    proposeOwner params s = check (!s.clock.set) .clock (check (!(proposalAt params s.proposalSerial).proposable s.clock.minute) .range
      (check (s.slots.any (proposalAt params s.proposalSerial).clashes) .overlap (s.freeSlot.elim (.error .full) fun i =>
        .ok ({ s with proposalSerial := s.proposalSerial + 1 }.changeSlot i (proposalAt params s.proposalSerial))))) := by
  unfold proposeOwner
  cases s.freeSlot <;> rfl

/-- Settles O41: each check in its turn, then the slot. -/
theorem dispensationsProposed : Obligations.DispensationsProposed := by
  unfold Obligations.DispensationsProposed
  intro params s hr length u x fits meets refused
  have refuses {r : Result} (e : proposeOwner params u = .error r) : refused r := write_refused rfl hr length rfl e
  have fits_iff : (proposalAt params u.proposalSerial).proposable u.clock.minute = true ↔ fits := Slot.proposable_iff _ _
  have meets_iff : u.slots.any (proposalAt params u.proposalSerial).clashes = true ↔ meets := by
    rw [slots_any_iff]
    exact exists_congr fun j => x.clashes_iff u.slots[j]
  have start := proposeOwner_eq params u
  refine ⟨fun unset => refuses (start.trans (check_fails (by rw [unset]; rfl))), fun set out => ?_, fun set fit meet => ?_,
    fun set fit apart none' => ?_, fun i set fit apart free lowest => ?_⟩
  all_goals replace start := start.trans (check_passes (by rw [set]; rfl))
  · exact refuses (start.trans (check_fails (by rw [Bool.not_eq_true', Bool.eq_false_iff]; exact fun e => out (fits_iff.mp e))))
  all_goals replace start := start.trans (check_passes (by rw [fits_iff.mpr fit]; rfl))
  · exact refuses (start.trans (check_fails (meets_iff.mpr meet)))
  all_goals replace start := start.trans (check_passes (Bool.eq_false_iff.mpr fun e => apart (meets_iff.mp e)))
  · rw [State.freeSlot_none none'] at start
    exact refuses start
  · rw [State.freeSlot_some free lowest] at start
    exact ⟨_, write_taken rfl hr length rfl start, u.propose_leaves i x⟩

/-- A decision on a slot: the checks of its number, serial and state, and what it leaves. -/
theorem slot_decided {instr : Instr} {p : Port} {code : Byte} {role : Role} {params : List Byte} {s : State}
    {body : State → Fin 8 → Except Result State} {owner : List Byte → State → Except Result State} {may : Slot → Prop}
    {bars : Fin 8 → Prop} {after : Slot → Slot}
    (runs : exec instr s = .next (portWrite p code 3 role (.whole params) owner s)) (hr : s.running = true) (length : params.length = 3)
    (allowed : role.allows p = true) (named : owner params s.settle = namedSlot params s.settle (body s.settle))
    (serial : ∀ x, (after x).serial = x.serial)
    (wrong : ∀ j, ¬ may s.settle.slots[j] → body s.settle j = .error .state)
    (barred : ∀ j, may s.settle.slots[j] → bars j → body s.settle j = .error .overlap)
    (goes : ∀ j, may s.settle.slots[j] → ¬ bars j → body s.settle j = .ok (s.settle.changeSlot j (after s.settle.slots[j]))) :
    let u := s.settle
    let refused (r : Result) : Prop := exec instr s = .next (u.wrote p r u params)
    (7 < (params.getD 0 0).toNat → refused .notFound) ∧
    ∀ j : Fin 8, j.val = (params.getD 0 0).toNat →
      (u.slots[j].serial ≠ word16At params 1 → refused .stale) ∧
      (u.slots[j].serial = word16At params 1 →
        (¬ may u.slots[j] → refused .state) ∧
        (may u.slots[j] → bars j → refused .overlap) ∧
        (may u.slots[j] → ¬ bars j → ∃ v, exec instr s = .next (v.wrote p .ok u params) ∧
          v = { u with slots := u.slots.set j (after u.slots[j]), site := v.site, compliance := v.compliance } ∧
          SetOnBoth u v .dispensation ⟨.ch0, BitVec.ofNat 8 j.val, u.slots[j].serial.setWidth 32⟩)) := by
  intro u refused
  have refuses {r : Result} (e : owner params u = .error r) : refused r := write_refused runs hr length allowed e
  refine ⟨fun off => ?_, fun j hj => ?_⟩
  · have none' : slotIndex? (u8At params 0) = none := slotIndex?_none off
    exact refuses (by rw [named, namedSlot, none'])
  · have some' : slotIndex? (u8At params 0) = some j := (congrArg slotIndex? hj.symm).trans (slotIndex?_val j)
    have start : owner params u = check (u.slots[j].serial != word16At params 1) .stale (body u j) := by rw [named, namedSlot, some']
    refine ⟨fun stale => refuses (start.trans (check_fails (bne_iff_ne.mpr stale))), fun same => ?_⟩
    replace start := start.trans (check_passes (by rw [same, bne_self_eq_false]))
    refine ⟨fun state => refuses (start.trans (wrong j state)), fun state bar => refuses (start.trans (barred j state bar)),
      fun state free => ⟨_, write_taken runs hr length allowed (start.trans (goes j state free)), ?_⟩⟩
    have left := u.changeSlot_leaves j (after u.slots[j])
    rw [serial] at left
    exact left

/-- R81: a slot clashes with another that is APPROVED or ACTIVE. -/
theorem State.slotClashes_iff (s : State) (j : Fin 8) : s.slotClashes j = true ↔ ∃ k : Fin 8, k ≠ j ∧
    (s.slots[k].state = .approved ∨ s.slots[k].state = .active) ∧
    (∃ ch, maskHas s.slots[j].channels ch = true ∧ maskHas s.slots[k].channels ch = true) ∧
    s.slots[j].start < s.slots[k].stop ∧ s.slots[k].start < s.slots[j].stop := by
  simp only [State.slotClashes, List.any_eq_true, List.mem_finRange, true_and, Bool.and_eq_true, bne_iff_ne, Slot.clashes_iff]

/-- Settles O42, decision by decision. -/
theorem dispensationsDecided : Obligations.DispensationsDecided := by
  unfold Obligations.DispensationsDecided
  intro params s hr length u decides
  refine ⟨?withdraw, ?approve, ?reject, ?revoke⟩
  case withdraw =>
    refine slot_decided (owner := withdrawOwner) (may := fun x => x.state = .proposed ∨ x.state = .approved) (bars := fun _ => False)
      (after := fun x => x.freed .withdrawn) (body := fun s i => check (s.slots[i].state != .proposed && s.slots[i].state != .approved) .state
        (.ok (s.changeSlot i (s.slots[i].freed .withdrawn))))
      rfl hr length rfl rfl (fun _ => rfl) (fun j no => check_fails ?_) (fun _ _ bar => bar.elim) (fun j may _ => check_passes ?_)
    · simpa using no
    · rcases may with e | e <;> rw [e] <;> rfl
  case approve =>
    refine slot_decided (owner := approveOwner) (may := fun x => x.state = .proposed) (bars := _)
      (after := fun x => { x with state := .approved }) (body := fun s i => check (s.slots[i].state != .proposed) .state
        (check (s.slotClashes i) .overlap (.ok (s.changeSlot i { s.slots[i] with state := .approved }))))
      rfl hr length rfl rfl (fun _ => rfl) (fun j no => check_fails (bne_iff_ne.mpr no))
      (fun j may bar => (check_passes (by rw [may]; rfl)).trans (check_fails ((u.slotClashes_iff j).mpr bar)))
      (fun j may free => (check_passes (by rw [may]; rfl)).trans
        (check_passes (Bool.eq_false_iff.mpr fun e => free ((u.slotClashes_iff j).mp e))))
  case reject =>
    exact slot_decided (owner := rejectOwner) (may := fun x => x.state = .proposed) (bars := fun _ => False)
      (after := fun x => x.freed .rejected) (body := fun s i => check (s.slots[i].state != .proposed) .state
        (.ok (s.changeSlot i (s.slots[i].freed .rejected))))
      rfl hr length rfl rfl (fun _ => rfl) (fun j no => check_fails (bne_iff_ne.mpr no)) (fun _ _ bar => bar.elim)
      (fun j may _ => check_passes (by rw [may]; rfl))
  case revoke =>
    exact slot_decided (owner := revokeOwner) (may := fun x => x.state = .approved ∨ x.state = .active) (bars := fun _ => False)
      (after := fun x => x.freed .revoked) (body := fun s i => check (!s.slots[i].granted) .state
        (.ok (s.changeSlot i (s.slots[i].freed .revoked))))
      rfl hr length rfl rfl (fun _ => rfl)
      (fun j no => check_fails (by rw [Bool.not_eq_true', Bool.eq_false_iff]; exact fun e => no ((Slot.granted_iff _).mp e)))
      (fun _ _ bar => bar.elim) (fun j may _ => check_passes (by rw [(Slot.granted_iff _).mpr may]; rfl))

end Sys2Proof.Machine

/-! Commands on channels and their calibration: starting, the settings of a channel, runs and results (O21, O23, O31 to O33). -/
namespace Sys2Proof.Machine

/-! ### Notices of one kind, one after the other -/

theorem NoticeOnly.refl (x : PortState) (k : NoticeKind) : NoticeOnly x x k := ⟨rfl, fun _ _ => rfl, rfl⟩

theorem NoticeOnly.trans {x y z : PortState} {k : NoticeKind} (h : NoticeOnly x y k) (h' : NoticeOnly y z k) : NoticeOnly x z k := by
  obtain ⟨state, others, enable⟩ := h
  obtain ⟨state', others', enable'⟩ := h'
  refine ⟨?_, fun j hj => (others' j hj).trans (others j hj), enable'.trans enable⟩
  rw [state', state]

theorem SetOnBoth.after {s t u : State} {k : NoticeKind} {d : Detail} (h : ∀ q, NoticeOnly (s.port q) (t.port q) k)
    (h' : SetOnBoth t u k d) : SetOnBoth s u k d := fun q => by
  obtain ⟨only, flag, detail⟩ := h' q
  exact ⟨(h q).trans only, flag, detail⟩

theorem noticeOnly_of_ports {s t : State} (k : NoticeKind) (site : t.site = s.site) (compliance : t.compliance = s.compliance) (q : Port) :
    NoticeOnly (s.port q) (t.port q) k := by
  have same : t.port q = s.port q := by
    cases q
    · exact site
    · exact compliance
  rw [same]
  exact .refl _ _

/-! ### Starting (O21) -/

/-- A channel that starts, on a line that is PRESENT or LOST. -/
def Channel.started (c : Channel) (present : Bool) : Channel :=
  { c with
    state := if present then .settling else .faulted, settle := 0
    engine := { c.engine with filters := .clear, f := 0, s := 0, slice := .empty } }

/-- The channels of a list have started. -/
structure State.Started (l : List Ch) (s t : State) : Prop where
  frame : t = { s with channels := t.channels, site := t.site, compliance := t.compliance }
  started : ∀ ch ∈ l, t.chan ch = (s.chan ch).started (s.rx ch.line).present
  others : ∀ ch, ch ∉ l → t.chan ch = s.chan ch
  faulted : (∃ ch ∈ l, (s.rx ch.line).present = false) → ∃ ch ∈ l, (s.rx ch.line).present = false ∧ SetOnBoth s t .channel ⟨ch, 1, 0⟩
  quiet : (∀ ch ∈ l, (s.rx ch.line).present = true) → t.site = s.site ∧ t.compliance = s.compliance

theorem State.startChannel_present {s : State} {ch : Ch} (off : (s.chan ch).state = .off) (present : (s.rx ch.line).present = true) :
    s.startChannel ch = s.setChan ch ((s.chan ch).started true) := by
  rw [State.startChannel, if_pos off, if_pos (show s.linePresent ch = true from present)]
  rfl

theorem State.startChannel_lost {s : State} {ch : Ch} (off : (s.chan ch).state = .off) (lost : (s.rx ch.line).present = false) :
    s.startChannel ch = (s.setChan ch ((s.chan ch).started false)).notifyBoth .channel ⟨ch, 1, 0⟩ := by
  rw [State.startChannel, if_pos off, if_neg (by rw [State.linePresent, lost]; decide)]
  rfl

theorem State.Started.rx {l : List Ch} {s t : State} (h : s.Started l t) (x : Line) : t.rx x = s.rx x := by
  rw [h.frame]
  cases x <;> rfl

theorem State.Started.notices {l : List Ch} {s t : State} (h : s.Started l t) (q : Port) : NoticeOnly (s.port q) (t.port q) .channel := by
  by_cases lost : ∃ ch ∈ l, (s.rx ch.line).present = false
  · obtain ⟨ch, _, _, set⟩ := h.faulted lost
    exact (set q).1
  · have present : ∀ ch ∈ l, (s.rx ch.line).present = true := fun ch mem =>
      Bool.not_eq_false _ ▸ fun e => lost ⟨ch, mem, e⟩
    obtain ⟨site, compliance⟩ := h.quiet present
    exact noticeOnly_of_ports _ site compliance q

theorem State.Started.append {l l' : List Ch} {s t u : State} (h : s.Started l t) (h' : t.Started l' u) (apart : ∀ ch ∈ l, ch ∉ l') :
    s.Started (l ++ l') u where
  frame := by rw [h'.frame, h.frame]
  started ch mem := by
    rcases List.mem_append.mp mem with mem | mem
    · rw [h'.others ch (apart ch mem), h.started ch mem]
    · rw [h'.started ch mem, h.rx, h.others ch fun other => apart ch other mem]
  others ch out := by
    rw [List.mem_append, not_or] at out
    rw [h'.others ch out.2, h.others ch out.1]
  faulted := by
    rintro ⟨ch, mem, lost⟩
    by_cases later : ∃ ch ∈ l', (t.rx ch.line).present = false
    · obtain ⟨d, memD, lostD, set⟩ := h'.faulted later
      rw [h.rx] at lostD
      exact ⟨d, List.mem_append_right _ memD, lostD, set.after h.notices⟩
    · obtain ⟨site, compliance⟩ := h'.quiet fun ch mem => Bool.not_eq_false _ ▸ fun e => later ⟨ch, mem, e⟩
      have first : ch ∈ l := by
        rcases List.mem_append.mp mem with mem | mem
        · exact mem
        · exact absurd ⟨ch, mem, by rw [h.rx]; exact lost⟩ later
      obtain ⟨d, memD, lostD, set⟩ := h.faulted ⟨ch, first, lost⟩
      refine ⟨d, List.mem_append_left _ memD, lostD, fun q => ?_⟩
      have same : u.port q = t.port q := by
        cases q
        · exact site
        · exact compliance
      rw [same]
      exact set q
  quiet := by
    intro present
    obtain ⟨site, compliance⟩ := h.quiet fun ch mem => present ch (List.mem_append_left _ mem)
    obtain ⟨site', compliance'⟩ := h'.quiet fun ch mem => by
      rw [h.rx]
      exact present ch (List.mem_append_right _ mem)
    exact ⟨site'.trans site, compliance'.trans compliance⟩

theorem State.Started.one {s : State} {ch : Ch} (off : (s.chan ch).state = .off) : s.Started [ch] (s.startChannel ch) := by
  have only (d : Ch) : d ∈ [ch] ↔ d = ch := List.mem_singleton
  cases line : (s.rx ch.line).present with
  | true =>
    rw [State.startChannel_present off line]
    refine ⟨rfl, fun d mem => ?_, fun d out => ?_, ?_, fun _ => ⟨rfl, rfl⟩⟩
    · obtain rfl := (only d).mp mem
      rw [State.chan_setChan, if_pos rfl, line]
    · rw [State.chan_setChan, if_neg fun e => out ((only d).mpr e)]
    · rintro ⟨d, mem, lost⟩
      obtain rfl := (only d).mp mem
      rw [line] at lost
      exact absurd lost (by decide)
  | false =>
    rw [State.startChannel_lost off line]
    refine ⟨rfl, fun d mem => ?_, fun d out => ?_, fun _ => ⟨ch, (only ch).mpr rfl, line, ?_⟩, fun present => ?_⟩
    · obtain rfl := (only d).mp mem
      rw [State.chan_notifyBoth, State.chan_setChan, if_pos rfl, line]
    · rw [State.chan_notifyBoth, State.chan_setChan, if_neg fun e => out ((only d).mpr e)]
    · exact fun q => (setOnBoth_notifyBoth _ .channel _ q)
    · rw [present ch ((only ch).mpr rfl)] at line
      exact absurd line (by decide)

theorem State.Started.foldl : ∀ (l : List Ch) (s : State), l.Nodup → (∀ ch ∈ l, (s.chan ch).state = .off) → s.Started l (l.foldl State.startChannel s)
  | [], s, _, _ => ⟨rfl, nofun, fun _ _ => rfl, nofun, fun _ => ⟨rfl, rfl⟩⟩
  | a :: l, s, nodup, off => by
    obtain ⟨notIn, nodup⟩ := List.nodup_cons.mp nodup
    have first := State.Started.one (off a (List.mem_cons_self ..))
    have differ {ch : Ch} (mem : ch ∈ l) : ch ∉ [a] := by
      rw [List.mem_singleton]
      rintro rfl
      exact notIn mem
    have rest := State.Started.foldl l (s.startChannel a) nodup fun ch mem => by
      rw [first.others ch (differ mem)]
      exact off ch (List.mem_cons_of_mem _ mem)
    exact first.append rest fun ch mem other => differ other mem

theorem maskChannels_nodup (m : ChannelMask) : (maskChannels m).Nodup := List.Nodup.filter _ (by decide)

theorem mem_maskChannels (m : ChannelMask) (ch : Ch) : ch ∈ maskChannels m ↔ maskHas m ch = true := by
  simp [maskChannels, Ch.mem_list]

theorem State.namesAbsent_iff (s : State) (m : ChannelMask) :
    s.namesAbsent m = true ↔ ∃ ch, maskHas m ch = true ∧ maskHas s.commissioning.installed ch = false := by
  have outside (ch : Ch) : maskHas (~~~s.commissioning.installed) ch = !maskHas s.commissioning.installed ch := by
    cases ch <;> simp [maskHas, Ch.index]
  rw [State.namesAbsent, masks_meet_iff]
  simp only [outside, Bool.not_eq_true']

theorem State.Started.frame_of {l : List Ch} {s t : State} (h : s.Started l t) (n : Nat) (u : State) (from' : s = { u with orderUses := n }) :
    t = { u with channels := t.channels, site := t.site, compliance := t.compliance, orderUses := t.orderUses } := by
  subst from'
  have frame := h.frame
  rw [frame]

/-- Which channels START CHANNELS with a mask starts. -/
def State.starts (u : State) (m : ChannelMask) (ch : Ch) : Prop := maskHas m ch = true ∧ (u.chan ch).state = .off

/-- The OFF channels of a mask have started, an order having been taken. -/
theorem State.startChannels_started (u : State) (m : ChannelMask) :
    ∃ (l : List Ch) (n : Nat), (∀ ch, ch ∈ l ↔ u.starts m ch) ∧ State.Started l { u with orderUses := n } (u.startChannels m) := by
  let due := (maskChannels m).filter fun ch => (u.chan ch).state == .off
  obtain ⟨perm, state⟩ := u.arrange_perm due
  have mem (ch : Ch) : ch ∈ (u.arrange due).1 ↔ u.starts m ch := by
    rw [perm.mem_iff, List.mem_filter, mem_maskChannels, beq_iff_eq, State.starts]
  refine ⟨_, (u.arrange due).2.orderUses, mem, ?_⟩
  rw [← state]
  refine State.Started.foldl _ _ (perm.symm.nodup ((maskChannels_nodup m).filter _)) fun ch inside => ?_
  rw [State.chan_arrange]
  exact ((mem ch).mp inside).2

theorem State.startChannels_does (u : State) (m : ChannelMask) :
    let v := u.startChannels m
    v = { u with channels := v.channels, site := v.site, compliance := v.compliance, orderUses := v.orderUses } ∧
    (∀ ch, u.starts m ch → v.chan ch = (u.chan ch).started (u.rx ch.line).present) ∧
    (∀ ch, ¬ u.starts m ch → v.chan ch = u.chan ch) ∧
    ((∃ ch, u.starts m ch ∧ (u.rx ch.line).present = false) →
      ∃ ch, u.starts m ch ∧ (u.rx ch.line).present = false ∧ SetOnBoth u v .channel ⟨ch, 1, 0⟩) ∧
    ((∀ ch, u.starts m ch → (u.rx ch.line).present = true) → v.site = u.site ∧ v.compliance = u.compliance) := by
  obtain ⟨l, n, mem, started⟩ := u.startChannels_started m
  refine ⟨started.frame_of n u rfl, fun ch does => started.started ch ((mem ch).mpr does),
    fun ch stays => started.others ch fun e => stays ((mem ch).mp e), ?_, fun present => started.quiet fun ch inside => present ch ((mem ch).mp inside)⟩
  rintro ⟨ch, does, lost⟩
  obtain ⟨d, memD, lostD, set⟩ := started.faulted ⟨ch, (mem ch).mpr does, lost⟩
  exact ⟨d, (mem d).mp memD, lostD, set⟩

/-- Settles O21: the OFF channels of the mask start one after the other, in some order. -/
theorem channelsStart : Obligations.ChannelsStart := by
  unfold Obligations.ChannelsStart
  intro p params s hr length u m starts
  refine ⟨fun absent => ?_, fun installed => ?_⟩
  · exact write_refused (owner := startOwner) rfl hr length rfl (check_fails ((u.namesAbsent_iff m).mpr absent))
  · have none' : u.namesAbsent m = false := Bool.eq_false_iff.mpr fun e => by
      obtain ⟨ch, has, absent⟩ := (u.namesAbsent_iff m).mp e
      rw [installed ch has] at absent
      exact absurd absent (by decide)
    exact ⟨u.startChannels m, write_taken (owner := startOwner) rfl hr length rfl (check_passes none'), u.startChannels_does m⟩

/-! ### The settings of a channel (O23) -/

theorem Quad.get_update {α : Type} (q : Quad α) (m : ChannelMask) (f : α → α) (ch : Ch) :
    (q.update m f).get ch = if maskHas m ch then f (q.get ch) else q.get ch := by
  cases ch <;> rfl

theorem clampTo_eq {lo hi : Int} (h : lo ≤ hi) (x : Int) : clampTo lo hi x = max lo (min hi x) := by
  unfold clampTo
  split
  · omega
  · split <;> omega

theorem State.excludeChannels_chan (s : State) (m : ChannelMask) (on : Bool) (ch : Ch) :
    (s.excludeChannels m on).chan ch = if maskHas m ch then { s.chan ch with excluded := on } else s.chan ch := Quad.get_update _ _ _ ch

theorem State.setTriggers_chan (s : State) (m : ChannelMask) (trigger hysteresis : Level) (ch : Ch) :
    (s.setTriggers m trigger hysteresis).chan ch =
      if maskHas m ch then { s.chan ch with trigger := trigger, hysteresis := hysteresis } else s.chan ch := Quad.get_update _ _ _ ch

theorem State.excludeChannels_frame (s : State) (m : ChannelMask) (on : Bool) :
    s.excludeChannels m on = { s with channels := (s.excludeChannels m on).channels } := rfl

theorem State.setTriggers_frame (s : State) (m : ChannelMask) (trigger hysteresis : Level) :
    s.setTriggers m trigger hysteresis = { s with channels := (s.setTriggers m trigger hysteresis).channels } := rfl

/-- Settles O23: each channel of the mask is updated on its own. -/
theorem channelSettings : Obligations.ChannelSettings := by
  unfold Obligations.ChannelSettings
  intro s hr u
  refine ⟨fun params length => ?_, fun p params length => ?_⟩
  · have flag : flagAt params 1 = decide (params.getD 1 0 ≠ 0) := by rw [Bool.eq_iff_iff, flagAt_iff, decide_eq_true_eq]
    refine ⟨_, write_taken (owner := excludeOwner) rfl hr length rfl rfl, u.excludeChannels_frame _ _, fun ch => ?_⟩
    rw [← flag]
    exact u.excludeChannels_chan _ _ ch
  · refine ⟨_, write_taken (owner := setEventTriggerOwner) rfl hr length rfl rfl, u.setTriggers_frame _ _ _, fun ch => ?_⟩
    rw [← clampTo_eq (by decide), ← clampTo_eq (by decide)]
    exact u.setTriggers_chan _ _ _ ch

/-! ### Runs (O31, O32) -/

section

variable (u : State) (ch : Ch)

theorem State.calibrateBarred_iff : u.calibrateBarred ch = true ↔ (u.chan ch).state = .faulted ∨ (∃ x r, (u.chan ch).state = .calibrating x r) ∨
    ((u.chan ch).state = .off ∧ (u.rx ch.line).present = false) ∨ (u.chan ch).pendingFs ≠ none := by
  rw [← Option.isSome_iff_ne_none]
  cases state : (u.chan ch).state <;> simp [State.calibrateBarred, state, State.linePresent]

theorem State.supersede_none (h : (u.chan ch).pendingResult = none) : u.supersede ch = u := by
  simp only [State.supersede, h]

theorem State.supersede_some {r : PendingResult} (h : (u.chan ch).pendingResult = some r) :
    u.supersede ch = (u.setChan ch { u.chan ch with pendingResult := none }).notifyCal ch r.serial := by
  simp only [State.supersede, h]

/-- R116: what a superseded result leaves. -/
theorem State.supersede_does :
    let v := u.supersede ch
    v = { u with channels := v.channels, site := v.site, compliance := v.compliance } ∧
    (∀ d, d ≠ ch → v.chan d = u.chan d) ∧ v.chan ch = { u.chan ch with pendingResult := none } ∧
    ((u.chan ch).pendingResult = none → v.site = u.site ∧ v.compliance = u.compliance) ∧
    ∀ r, (u.chan ch).pendingResult = some r → SetOnBoth u v .cal ⟨ch, 0, r.serial.setWidth 32⟩ := by
  cases result : (u.chan ch).pendingResult with
  | none =>
    rw [u.supersede_none ch result]
    refine ⟨rfl, fun _ _ => rfl, ?_, fun _ => ⟨rfl, rfl⟩, nofun⟩
    rw [← result]
  | some r =>
    rw [u.supersede_some ch result]
    refine ⟨rfl, fun d differ => ?_, ?_, nofun, fun r' same => ?_⟩
    · rw [State.notifyCal, State.chan_notifyBoth, State.chan_setChan, if_neg differ]
    · rw [State.notifyCal, State.chan_notifyBoth, State.chan_setChan, if_pos rfl]
    · obtain rfl := Option.some.inj same
      exact fun q => setOnBoth_notifyBoth _ .cal _ q

/-- R9, R116: the run that CALIBRATE starts. -/
theorem State.startRun_does (reference : Level) :
    let c := u.chan ch
    let v := u.startRun ch reference
    v = { u with channels := v.channels, calUnit := v.calUnit, site := v.site, compliance := v.compliance } ∧
    v.calUnit = ⟨some ⟨ch, u.calUnit.serial + 1, 0, 0, none, none, false⟩, u.calUnit.serial + 1⟩ ∧
    (∀ d, d ≠ ch → v.chan d = u.chan d) ∧
    v.chan ch = { c with
      state := .calibrating .calSettle (if c.state = .off then .off else .settling), settle := 0, pendingResult := none
      calRecord := ⟨u.calUnit.serial + 1, .running, some reference, none, none,
        if u.clock.set then some u.clock.minute else none, some c.fs, none⟩
      engine := if c.state = .off then { c.engine with filters := .clear, f := 0, s := 0, slice := .empty } else c.engine } ∧
    (c.pendingResult = none → v.site = u.site ∧ v.compliance = u.compliance) ∧
    ∀ r, c.pendingResult = some r → SetOnBoth u v .cal ⟨ch, 0, r.serial.setWidth 32⟩ := by
  intro c v
  obtain ⟨frame, others, chan, silent, set⟩ := u.supersede_does ch
  generalize superseded : u.supersede ch = w at frame others chan silent set
  have made : v = { w with calUnit := ⟨some ⟨ch, u.calUnit.serial + 1, 0, 0, none, none, false⟩, u.calUnit.serial + 1⟩ }.setChan ch
      { (w.chan ch).enterCalibration with
        calRecord := .newRun (u.calUnit.serial + 1) reference (w.chan ch).enterCalibration.fs w.minuteNow } := by
    rw [← superseded]
    rfl
  have clock : w.minuteNow = u.minuteNow := by rw [frame]; rfl
  rw [made]
  refine ⟨?_, rfl, fun d differ => ?_, ?_, silent, set⟩
  · rw [frame]
    rfl
  · rw [State.chan_setChan, if_neg differ]
    exact others d differ
  · rw [State.chan_setChan, if_pos rfl, chan, clock, Channel.enterCalibration]
    by_cases off : (u.chan ch).state = .off
    · rw [if_pos off, if_pos off, if_pos off]
      rfl
    · rw [if_neg off, if_neg off, if_neg off]
      rfl

theorem State.runningOn_iff : u.runningOn ch = true ↔ ∃ r, u.calUnit.run = some r ∧ r.ch = ch := by
  cases run : u.calUnit.run <;> simp [State.runningOn, run]

/-- R120, R121: the run on a channel ends early. -/
theorem State.endRun_does (o : CalOutcome) (running : u.runningOn ch = true) :
    let v := u.endRun ch o
    v = { u with channels := v.channels, calUnit := { u.calUnit with run := none }, site := v.site, compliance := v.compliance } ∧
    (∀ d, d ≠ ch → v.chan d = u.chan d) ∧
    v.chan ch = { u.chan ch with
      calRecord := { (u.chan ch).calRecord with outcome := o, minute := if u.clock.set then some u.clock.minute else none } } ∧
    SetOnBoth u v .cal ⟨ch, 0, (u.chan ch).calRecord.serial.setWidth 32⟩ := by
  intro v
  have made : v = (({ u with calUnit := { u.calUnit with run := none } }).concludeRecord ch o).notifyCal ch (u.chan ch).calRecord.serial := by
    show u.endRun ch o = _
    simp only [State.endRun, if_pos running, State.concludeRecord, State.chan_setChan, if_true]
    rfl
  rw [made]
  refine ⟨rfl, fun d differ => ?_, ?_, fun q => setOnBoth_notifyBoth _ .cal _ q⟩
  · rw [State.notifyCal, State.chan_notifyBoth, State.concludeRecord, State.chan_setChan, if_neg differ]
    rfl
  · rw [State.notifyCal, State.chan_notifyBoth, State.concludeRecord, State.chan_setChan, if_pos rfl]
    rfl

/-- R10, R120: what an abort leaves. -/
theorem State.abortRun_does {x : Phase} {back : ReturnState} (running : u.runningOn ch = true) (state : (u.chan ch).state = .calibrating x back) :
    let v := u.abortRun ch
    v = { u with channels := v.channels, calUnit := { u.calUnit with run := none }, site := v.site, compliance := v.compliance } ∧
    (∀ d, d ≠ ch → v.chan d = u.chan d) ∧
    v.chan ch = { u.chan ch with
      state := .calibrating .calRecover back, settle := 0
      calRecord := { (u.chan ch).calRecord with outcome := .aborted, minute := if u.clock.set then some u.clock.minute else none } } ∧
    SetOnBoth u v .cal ⟨ch, 0, (u.chan ch).calRecord.serial.setWidth 32⟩ := by
  intro v
  obtain ⟨frame, others, chan, set⟩ := u.endRun_does ch .aborted running
  have made : v = (u.endRun ch .aborted).setChan ch ((u.endRun ch .aborted).chan ch).recover := rfl
  generalize u.endRun ch .aborted = w at frame others chan set made
  rw [made]
  refine ⟨?_, fun d differ => ?_, ?_, fun q => ?_⟩
  · rw [frame]
    rfl
  · rw [State.chan_setChan, if_neg differ]
    exact others d differ
  · rw [State.chan_setChan, if_pos rfl, chan, Channel.recover]
    simp only [state]
  · rw [State.port_setChan]
    exact set q

/-- R123: what a decision leaves. -/
theorem State.decideResult_does (o : CalOutcome) (fs : Option Level) :
    let v := u.decideResult ch o fs
    v = { u with channels := v.channels, site := v.site, compliance := v.compliance } ∧ (∀ d, d ≠ ch → v.chan d = u.chan d) ∧
    v.chan ch = { u.chan ch with
      pendingResult := none, pendingFs := fs
      calRecord := { (u.chan ch).calRecord with outcome := o, minute := if u.clock.set then some u.clock.minute else none } } ∧
    SetOnBoth u v .cal ⟨ch, 0, (u.chan ch).calRecord.serial.setWidth 32⟩ := by
  intro v
  have made : v = ((u.setChan ch { u.chan ch with pendingResult := none, pendingFs := fs }).concludeRecord ch o).notifyCal ch
      (u.chan ch).calRecord.serial := by
    show u.decideResult ch o fs = _
    simp only [State.decideResult, State.concludeRecord, State.chan_setChan, if_true]
    rfl
  rw [made]
  refine ⟨rfl, fun d differ => ?_, ?_, fun q => setOnBoth_notifyBoth _ .cal _ q⟩
  · rw [State.notifyCal, State.chan_notifyBoth, State.concludeRecord, State.chan_setChan, if_neg differ, State.chan_setChan, if_neg differ]
  · rw [State.notifyCal, State.chan_notifyBoth, State.concludeRecord, State.chan_setChan, if_pos rfl, State.chan_setChan, if_pos rfl]
    rfl

end

/-- Settles O31: each check in its turn, then the run. -/
theorem calibrateStartsRun : Obligations.CalibrateStartsRun := by
  unfold Obligations.CalibrateStartsRun
  intro p params s hr length u reference
  have refuses {r : Result} (e : calibrateOwner params u = .error r) :
      exec (.calibrate p (.whole params)) s = .next (u.wrote p r u params) := write_refused rfl hr length rfl e
  refine ⟨fun off => ?_, fun ch named => ?_⟩
  · have none' : Ch.ofNat? (u8At params 0) = none := Ch.ofNat?_none off
    exact refuses (by rw [calibrateOwner, none'])
  intro c barred
  have some' : Ch.ofNat? (u8At params 0) = some ch := Ch.ofNat?_index named
  have start : calibrateOwner params u = check (!u.installed ch) .absent (check (u.calibrateBarred ch) .state
      (check (!within 8000 13000 reference) .range (check u.calUnit.run.isSome .inUse (.ok (u.startRun ch reference))))) := by
    rw [calibrateOwner, some']
  have barred_iff : u.calibrateBarred ch = true ↔ barred := u.calibrateBarred_iff ch
  have within_iff : within 8000 13000 reference = true ↔ 8000 ≤ reference ∧ reference ≤ 13000 := by
    simp only [within, Bool.and_eq_true, decide_eq_true_eq]
  refine ⟨fun absent => refuses (start.trans (check_fails (by rw [State.installed, absent]; rfl))), fun installed => ?_⟩
  replace start := start.trans (check_passes (by rw [State.installed, installed]; rfl))
  refine ⟨fun bar => refuses (start.trans (check_fails (barred_iff.mpr bar))), fun free out => ?_, fun free low high busy => ?_,
    fun free low high idle => ?_⟩
  all_goals replace start := start.trans (check_passes (Bool.eq_false_iff.mpr fun e => free (barred_iff.mp e)))
  · refine refuses (start.trans (check_fails ?_))
    rw [Bool.not_eq_true', Bool.eq_false_iff]
    intro inside
    obtain ⟨low, high⟩ := within_iff.mp inside
    rcases out with out | out
    · exact Int.not_le.mpr out low
    · exact Int.not_le.mpr out high
  all_goals replace start := start.trans (check_passes (by rw [within_iff.mpr ⟨low, high⟩]; rfl))
  · exact refuses (start.trans (check_fails (Option.isSome_iff_ne_none.mpr busy)))
  · exact ⟨u.startRun ch reference, write_taken rfl hr length rfl (start.trans (check_passes (by rw [idle]; rfl))), u.startRun_does ch reference⟩

/-- Settles O32. -/
theorem runsAborted : Obligations.RunsAborted := by
  unfold Obligations.RunsAborted
  intro p params s hr length u
  have refuses {r : Result} (e : abortOwner params u = .error r) :
      exec (.abortCalibration p (.whole params)) s = .next (u.wrote p r u params) := write_refused rfl hr length rfl e
  refine ⟨fun off => ?_, fun ch named => ?_⟩
  · have none' : Ch.ofNat? (u8At params 0) = none := Ch.ofNat?_none off
    exact refuses (by rw [abortOwner, none'])
  have some' : Ch.ofNat? (u8At params 0) = some ch := Ch.ofNat?_index named
  have start : abortOwner params u = check (!u.runningOn ch) .state (.ok (u.abortRun ch)) := by rw [abortOwner, some']
  refine ⟨fun elsewhere => refuses (start.trans (check_fails ?_)), fun r x back run on state => ?_⟩
  · rw [Bool.not_eq_true', Bool.eq_false_iff]
    intro running
    obtain ⟨r, run, on⟩ := (u.runningOn_iff ch).mp running
    exact elsewhere r run on
  · have running := (u.runningOn_iff ch).mpr ⟨r, run, on⟩
    exact ⟨u.abortRun ch, write_taken rfl hr length rfl (start.trans (check_passes (by rw [running]; rfl))), u.abortRun_does ch running state⟩

/-- R123: the checks of a decision in their order. -/
theorem namedResult_of {params : List Byte} {s : State} {go : Ch → PendingResult → State} {ch : Ch} (named : ch.index = (params.getD 0 0).toNat) :
    namedResult params s go = check ((s.chan ch).calRecord.serial != word16At params 1) .stale
      ((s.chan ch).pendingResult.elim (.error .state) fun r => .ok (go ch r)) := by
  have some' : Ch.ofNat? (u8At params 0) = some ch := Ch.ofNat?_index named
  rw [namedResult, some']
  cases result : (s.chan ch).pendingResult <;> simp only [result, Option.elim]

/-- Settles O33: both decisions go through the same checks. -/
theorem resultsDecided : Obligations.ResultsDecided := by
  unfold Obligations.ResultsDecided
  intro params s hr length u
  have accept {r : Result} (e : acceptOwner params u = .error r) : exec (.acceptCalibration .compliance (.whole params)) s =
      .next (u.wrote .compliance r u params) := write_refused rfl hr length rfl e
  have reject {r : Result} (e : rejectResultOwner params u = .error r) : exec (.rejectCalibration .compliance (.whole params)) s =
      .next (u.wrote .compliance r u params) := write_refused rfl hr length rfl e
  refine ⟨fun off => ?_, fun ch named => ?_⟩
  · have none' : Ch.ofNat? (u8At params 0) = none := Ch.ofNat?_none off
    exact ⟨accept (by rw [acceptOwner, namedResult, none']), reject (by rw [rejectResultOwner, namedResult, none'])⟩
  intro c
  have goes (go : Ch → PendingResult → State) := namedResult_of (s := u) (go := go) named
  refine ⟨fun stale => ?_, fun same none' => ?_, fun r same some' => ?_⟩
  · have fails : (c.calRecord.serial != word16At params 1) = true := bne_iff_ne.mpr stale
    exact ⟨accept ((goes _).trans (check_fails fails)), reject ((goes _).trans (check_fails fails))⟩
  all_goals have passes : (c.calRecord.serial != word16At params 1) = false := by rw [same, bne_self_eq_false]
  · have missing (go : Ch → PendingResult → State) : namedResult params u go = .error .state := by
      rw [goes, check_passes passes, none']
      rfl
    exact ⟨accept (missing _), reject (missing _)⟩
  · have taken (go : Ch → PendingResult → State) : namedResult params u go = .ok (go ch r) := by
      rw [goes, check_passes passes, some']
      rfl
    exact ⟨⟨_, write_taken rfl hr length rfl (taken _), u.decideResult_does ch .applied _⟩,
      ⟨_, write_taken rfl hr length rfl (taken _), u.decideResult_does ch .rejected _⟩⟩

end Sys2Proof.Machine

/-! A port's own commands and the QUIET line: its request, the device quiet condition, PORT RESET and SEEK (O20, O44 to O46). -/
namespace Sys2Proof.Machine

/-! ### The QUIET line (R156) -/

theorem Channel.quietHeld_iff (c : Channel) : c.quietHeld = true ↔ c.quiet ≠ .none := bne_iff_ne

theorem State.quietDemand_iff (s : State) : s.quietDemand = true ↔
    s.site.quietRequest = true ∨ s.compliance.quietRequest = true ∨ ∃ ch, (s.chan ch).quiet ≠ .none := by
  simp only [State.quietDemand, Bool.or_eq_true, List.any_eq_true, Ch.mem_list, true_and, Channel.quietHeld_iff, or_assoc]

section

variable (s : State) (ch : Ch) (i : QuietInput)

theorem State.bringQuiet_quietLine : (s.bringQuiet ch i).quietLine = s.quietDemand := by
  unfold State.bringQuiet
  split
  · exact Eq.symm ‹_›
  · rfl

theorem State.bringQuiet_frame :
    s.bringQuiet ch i = { s with
      quietLine := (s.bringQuiet ch i).quietLine, site := (s.bringQuiet ch i).site, compliance := (s.bringQuiet ch i).compliance } := by
  unfold State.bringQuiet
  split <;> rfl

theorem State.bringQuiet_port (q : Port) :
    (s.bringQuiet ch i).port q = if s.quietDemand = s.quietLine then s.port q
      else (s.port q).notify .quiet ⟨ch, if s.quietDemand then 1 else 0, i.code⟩ := by
  unfold State.bringQuiet
  split
  · rfl
  · rw [State.port_notifyBoth]
    rfl

/-- R156: the line has come to its inputs, with the notice of a change. -/
theorem State.bringQuiet_does :
    let t := s.bringQuiet ch i
    (t.quietLine = s.quietLine → t.site = s.site ∧ t.compliance = s.compliance) ∧
    (t.quietLine ≠ s.quietLine → SetOnBoth s t .quiet ⟨ch, if t.quietLine then 1 else 0, i.code⟩) := by
  have port := s.bringQuiet_port ch i
  refine ⟨fun same => ?_, fun moved q => ?_⟩
  · rw [State.bringQuiet_quietLine] at same
    have stays (q : Port) : (s.bringQuiet ch i).port q = s.port q := (port q).trans (if_pos same)
    exact ⟨stays .site, stays .compliance⟩
  · rw [State.bringQuiet_quietLine] at moved ⊢
    rw [port, if_neg moved]
    exact noticeSet_notify _ _ _

end

/-- Settles O45. -/
theorem quietConditionHeld : Obligations.QuietConditionHeld := by
  unfold Obligations.QuietConditionHeld
  intro s ch t c
  have chan (d : Ch) : t.chan d = if d = ch then { c with quiet := s.quietReasonOf ch } else s.chan d := by
    show (s.evaluateQuiet ch).chan d = _
    rw [State.evaluateQuiet, State.chan_bringQuiet, State.holdQuiet, State.chan_setChan]
  obtain ⟨still, moves⟩ := (s.holdQuiet ch).bringQuiet_does ch .channel
  have own : t.chan ch = { c with quiet := s.quietReasonOf ch } := (chan ch).trans (if_pos rfl)
  refine ⟨fun d differ => (chan d).trans (if_neg differ), ⟨_, own⟩, ?_, ?_, ?_, still, moves⟩
  · rw [own]
    exact s.quietReasonOf_is ch
  · have frame := (s.holdQuiet ch).bringQuiet_frame ch .channel
    have channels : t.channels = (s.holdQuiet ch).channels := by
      show (s.evaluateQuiet ch).channels = _
      rw [State.evaluateQuiet, frame]
    rw [channels]
    exact frame
  · have line : t.quietLine = (s.holdQuiet ch).quietDemand := State.bringQuiet_quietLine _ _ _
    rw [line, State.quietDemand_iff]
    have same (d : Ch) : ((s.holdQuiet ch).chan d) = t.chan d := (State.chan_bringQuiet _ _ _ _).symm
    simp only [same]
    rfl

/-! ### Quiet requests (O44) -/

theorem QuietInput.ofPort_code (p : Port) : (QuietInput.ofPort p).code = if p = .site then 1 else 2 := by cases p <;> rfl

section

variable (u : State) (p : Port)

theorem State.setPort_frame (x : PortState) :
    u.setPort p x = { u with site := (u.setPort p x).site, compliance := (u.setPort p x).compliance } := by cases p <;> rfl

/-- The state after a port's request is set, before the line follows. -/
def State.asked (on : Bool) : State := u.setPort p { u.port p with quietRequest := on }

theorem State.asked_port (on : Bool) (q : Port) :
    (u.asked p on).port q = { u.port q with quietRequest := if q = p then on else (u.port q).quietRequest } := by
  rw [State.asked, State.port_setPort]
  split
  next same => rw [same]
  next => rfl

theorem State.asked_demand (on : Bool) : (u.asked p on).quietDemand = true ↔
    on = true ∨ (u.port p.other).quietRequest = true ∨ ∃ ch, (u.chan ch).quiet ≠ .none := by
  rw [State.quietDemand_iff]
  have chan (ch : Ch) : (u.asked p on).chan ch = u.chan ch := State.chan_setPort _ _ _ _
  simp only [chan]
  cases p with
  | site => exact Iff.rfl
  | compliance => exact or_left_comm

theorem State.requestQuiet_quietLine (on : Bool) : (u.requestQuiet p on).quietLine = (u.asked p on).quietDemand :=
  State.bringQuiet_quietLine _ _ _

theorem State.requestQuiet_port (on : Bool) (q : Port) :
    (u.requestQuiet p on).port q = if (u.requestQuiet p on).quietLine = u.quietLine then (u.asked p on).port q
      else ((u.asked p on).port q).notify .quiet ⟨.ch0, if (u.requestQuiet p on).quietLine then 1 else 0, if p = .site then 1 else 2⟩ := by
  have line : (u.asked p on).quietLine = u.quietLine := by cases p <;> rfl
  rw [State.requestQuiet_quietLine, ← line, ← QuietInput.ofPort_code]
  exact State.bringQuiet_port _ _ _ q

theorem State.requestQuiet_frame (on : Bool) :
    u.requestQuiet p on = { u with
      quietLine := (u.requestQuiet p on).quietLine, site := (u.requestQuiet p on).site, compliance := (u.requestQuiet p on).compliance } := by
  cases p <;> exact State.bringQuiet_frame _ _ _

theorem State.requestQuiet_does (on : Bool) :
    let v := u.requestQuiet p on
    v = { u with quietLine := v.quietLine, site := v.site, compliance := v.compliance } ∧
    (v.quietLine = true ↔ on = true ∨ (u.port p.other).quietRequest = true ∨ ∃ ch, (u.chan ch).quiet ≠ .none) ∧
    (∀ q, v.port q = { u.port q with quietRequest := if q = p then on else (u.port q).quietRequest, notices := (v.port q).notices }) ∧
    (v.quietLine = u.quietLine → ∀ q, (v.port q).notices = (u.port q).notices) ∧
    (v.quietLine ≠ u.quietLine → ∀ q, (∀ k, k ≠ .quiet → (v.port q).notice k = (u.port q).notice k) ∧
      (v.port q).notice .quiet = ⟨true, ((u.port q).notice .quiet).enable, ⟨.ch0, if v.quietLine then 1 else 0, if p = .site then 1 else 2⟩⟩) := by
  intro v
  have port := u.requestQuiet_port p on
  have asked := u.asked_port p on
  refine ⟨u.requestQuiet_frame p on, ?_, fun q => ?_, fun same q => ?_, fun moved q => ⟨fun k other => ?_, ?_⟩⟩
  · rw [← State.asked_demand, ← State.requestQuiet_quietLine]
  · show (u.requestQuiet p on).port q = _
    rw [port, asked]
    split <;> rfl
  · show ((u.requestQuiet p on).port q).notices = _
    rw [port, if_pos same, asked]
  · show ((u.requestQuiet p on).port q).notice k = _
    rw [port, if_neg moved, PortState.notice_notify, if_neg other, asked]
    rfl
  · show ((u.requestQuiet p on).port q).notice .quiet = _
    rw [port, if_neg moved, PortState.notice_notify, if_pos rfl, asked]
    rfl

end

/-- Settles O44. -/
theorem quietRequested : Obligations.QuietRequested := by
  unfold Obligations.QuietRequested
  intro p params s hr length u on
  have flag : flagAt params 0 = on := by rw [Bool.eq_iff_iff, flagAt_iff, decide_eq_true_eq]
  have owner : setQuietRequestOwner p params u = .ok (u.requestQuiet p on) := by rw [setQuietRequestOwner, flag]
  exact ⟨u.requestQuiet p on, write_taken rfl hr length rfl owner, u.requestQuiet_does p on⟩

/-! ### PORT RESET (O46) -/

theorem notice_cleared (x : PortState) (k : NoticeKind) : x.clearNotices.notice k = ⟨false, k == .reset, ⟨.ch0, 0, 0⟩⟩ := by
  cases k <;> rfl

theorem notice_notify_if (b : Prop) [Decidable b] (x : PortState) (k j : NoticeKind) (d : Detail) :
    (if b then x.notify k d else x).notice j = if j = k ∧ b then ⟨true, (x.notice k).enable, d⟩ else x.notice j := by
  by_cases h : b
  · rw [if_pos h, PortState.notice_notify]
    simp only [h, and_true]
  · rw [if_neg h, if_neg fun both => h both.2]

theorem notice_asking (x : PortState) (k : NoticeKind) :
    PortState.notice { x.clearNotices with quietRequest := false } k = ⟨false, k == .reset, ⟨.ch0, 0, 0⟩⟩ := notice_cleared x k

theorem notice_placed (x : PortState) (h p e : Nat) (k : NoticeKind) :
    PortState.notice { x with historyCursor := h, periodCursor := p, eventCursor := e } k = x.notice k := rfl

/-- R145: HISTORY-LAG where the lag is 1792 or more. -/
theorem State.lagLeft_port (s : State) (p q : Port) : (s.lagLeft p).port q =
    if q = p ∧ 1792 ≤ s.historyLag p then (s.port q).notify .historyLag ⟨.ch0, 0, value32 (s.port p).historyCursor⟩ else s.port q := by
  unfold State.lagLeft
  split
  next long =>
    rw [State.notifyLag, State.notify, State.port_setPort]
    by_cases same : q = p
    · rw [if_pos same, if_pos ⟨same, long⟩, same]
    · rw [if_neg same, if_neg fun h => same h.1]
  next short => rw [if_neg fun h => short h.2]

theorem State.lagLeft_frame (s : State) (p : Port) :
    s.lagLeft p = { s with site := (s.lagLeft p).site, compliance := (s.lagLeft p).compliance } := by
  unfold State.lagLeft
  split
  · exact State.setPort_frame s p _
  · rfl

section

variable (u : State) (p : Port)

/-- The state of a port reset once the notices are clear and the request is taken away (R157, steps 1 to 4). -/
def State.hushed : State := (u.setPort p (u.port p).clearNotices).requestQuiet p false

theorem State.hushed_frame :
    u.hushed p = { u with quietLine := (u.hushed p).quietLine, site := (u.hushed p).site, compliance := (u.hushed p).compliance } := by
  cases p <;> exact State.requestQuiet_frame _ _ _

theorem State.hushed_quietLine :
    (u.hushed p).quietLine = true ↔ (u.port p.other).quietRequest = true ∨ ∃ ch, (u.chan ch).quiet ≠ .none := by
  rw [State.hushed, State.requestQuiet_quietLine, State.asked_demand, State.port_setPort_other]
  simp only [State.chan_setPort, Bool.false_eq_true, false_or]

theorem State.hushed_port (q : Port) : (u.hushed p).port q =
    let x := if q = p then { (u.port p).clearNotices with quietRequest := false } else u.port q
    if (u.hushed p).quietLine = u.quietLine then x
    else x.notify .quiet ⟨.ch0, if (u.hushed p).quietLine then 1 else 0, if p = .site then 1 else 2⟩ := by
  have line : (u.setPort p (u.port p).clearNotices).quietLine = u.quietLine := by cases p <;> rfl
  have asked : ((u.setPort p (u.port p).clearNotices).asked p false).port q =
      if q = p then { (u.port p).clearNotices with quietRequest := false } else u.port q := by
    rw [State.asked_port, State.port_setPort]
    split <;> rfl
  rw [State.hushed, State.requestQuiet_port, asked, line]

theorem State.hushed_notice (k : NoticeKind) : ((u.hushed p).port p).notice k =
    if k = .quiet ∧ (u.hushed p).quietLine ≠ u.quietLine then
      ⟨true, false, ⟨.ch0, if (u.hushed p).quietLine then 1 else 0, if p = .site then 1 else 2⟩⟩
    else ⟨false, k == .reset, ⟨.ch0, 0, 0⟩⟩ := by
  rw [State.hushed_port]
  simp only [if_true]
  rw [← ite_not, notice_notify_if, notice_asking, notice_asking]
  rfl

/-- The port of a port reset, as the notices that follow find it. -/
theorem State.portReset_port (q : Port) :
    let x := (u.hushed p).port q
    (u.portReset p).port q = if q = p then
      (let y := { x with historyCursor := u.historyOldest, periodCursor := u.periodOldest, eventCursor := u.eventOldest }
       if 1792 ≤ u.minuteSeq - u.historyOldest then y.notify .historyLag ⟨.ch0, 0, BitVec.ofNat 32 u.historyOldest⟩ else y)
      else x := by
  intro x
  have frame := u.hushed_frame p
  have history : (u.hushed p).historyOldest = u.historyOldest := by rw [frame]; rfl
  have periods : (u.hushed p).periodOldest = u.periodOldest := by rw [frame]; rfl
  have events : (u.hushed p).eventOldest = u.eventOldest := by rw [frame]; rfl
  have minutes : (u.hushed p).minuteSeq = u.minuteSeq := by rw [frame]
  have rewound : ((u.hushed p).rewindCursors p).port q = if q = p then
      { x with historyCursor := u.historyOldest, periodCursor := u.periodOldest, eventCursor := u.eventOldest } else x := by
    rw [State.rewindCursors, State.port_setPort, history, periods, events]
    split
    next same =>
      subst same
      rfl
    next => rfl
  have own : ((u.hushed p).rewindCursors p).historyLag p = u.minuteSeq - u.historyOldest := by
    rw [State.historyLag, State.rewindCursors, State.port_setPort_self, history, ← minutes]
    cases p <;> rfl
  have cursor : (((u.hushed p).rewindCursors p).port p).historyCursor = u.historyOldest := by
    rw [State.rewindCursors, State.port_setPort_self, history]
  have made : u.portReset p = ((u.hushed p).rewindCursors p).lagLeft p := rfl
  rw [made, State.lagLeft_port, rewound, own, cursor]
  by_cases same : q = p
  · simp only [same, true_and, if_true]
    rfl
  · simp only [same, false_and, if_false]

theorem State.portReset_frame : u.portReset p = { u with
    quietLine := (u.hushed p).quietLine, site := (u.portReset p).site, compliance := (u.portReset p).compliance } := by
  have made : u.portReset p = ((u.hushed p).rewindCursors p).lagLeft p := rfl
  have lag := ((u.hushed p).rewindCursors p).lagLeft_frame p
  have rewind : (u.hushed p).rewindCursors p = { u.hushed p with
      site := ((u.hushed p).rewindCursors p).site, compliance := ((u.hushed p).rewindCursors p).compliance } := State.setPort_frame _ p _
  rw [← made, rewind, u.hushed_frame p] at lag
  exact lag

/-- R157: what a port reset leaves. -/
theorem State.portReset_does :
    let v := u.portReset p
    v = { u with quietLine := v.quietLine, site := v.site, compliance := v.compliance } ∧
    (v.quietLine = true ↔ (u.port p.other).quietRequest = true ∨ ∃ ch, (u.chan ch).quiet ≠ .none) ∧
    v.port p = { u.port p with
      notices := (v.port p).notices, conditions := ⟨.none, .none, .none, .none⟩, quietRequest := false, historyCursor := u.historyOldest
      periodCursor := u.periodOldest, eventCursor := u.eventOldest } ∧
    (∀ k, (v.port p).notice k =
      if k = .quiet ∧ v.quietLine ≠ u.quietLine then ⟨true, false, ⟨.ch0, if v.quietLine then 1 else 0, if p = .site then 1 else 2⟩⟩
      else if k = .historyLag ∧ 1792 ≤ u.minuteSeq - u.historyOldest then ⟨true, false, ⟨.ch0, 0, BitVec.ofNat 32 u.historyOldest⟩⟩
      else ⟨false, k == NoticeKind.reset, ⟨.ch0, 0, 0⟩⟩) ∧
    (v.quietLine = u.quietLine → v.port p.other = u.port p.other) ∧
    (v.quietLine ≠ u.quietLine →
      NoticeSet (u.port p.other) (v.port p.other) .quiet ⟨.ch0, if v.quietLine then 1 else 0, if p = .site then 1 else 2⟩) := by
  intro v
  have line : v.quietLine = (u.hushed p).quietLine := by
    show (u.portReset p).quietLine = _
    rw [u.portReset_frame]
  have port := u.portReset_port p
  have hushed := u.hushed_port p
  have other : p.other ≠ p := by cases p <;> decide
  refine ⟨?_, ?_, ?_, fun k => ?_, fun same => ?_, fun moved => ?_⟩
  · rw [line]
    exact u.portReset_frame p
  · rw [line]
    exact u.hushed_quietLine p
  · show (u.portReset p).port p = _
    rw [port, if_pos rfl, hushed]
    simp only [if_true]
    split <;> split <;> rfl
  · show ((u.portReset p).port p).notice k = _
    rw [line, port, if_pos rfl]
    simp only [notice_notify_if, notice_placed, u.hushed_notice]
    by_cases quiet : k = .quiet
    · subst quiet
      simp
    · simp [quiet, show (NoticeKind.historyLag == NoticeKind.reset) = false from rfl]
  · show (u.portReset p).port p.other = _
    rw [port, if_neg other, hushed, if_pos (line ▸ same)]
    simp only [if_neg other]
  · show NoticeSet _ ((u.portReset p).port p.other) _ _
    rw [line] at moved ⊢
    rw [port, if_neg other, hushed, if_neg moved]
    simp only [if_neg other]
    exact noticeSet_notify _ _ _

end

/-- Settles O46. -/
theorem portResets : Obligations.PortResets := by
  unfold Obligations.PortResets
  intro p s hr u
  exact ⟨u.portReset p, write_taken (owner := fun _ => portResetOwner p) rfl hr rfl rfl rfl, u.portReset_does p⟩

/-! ### SEEK (O20) -/

theorem clampCount_eq (lo hi n : Nat) : clampCount lo hi n = if n < lo then lo else min n hi := by
  unfold clampCount
  split
  · rfl
  · split <;> omega

theorem collection?_cases (b : Byte) : collection? b = if b.toNat = 0 then some .history else if b.toNat = 1 then some .periods
    else if b.toNat = 2 then some .events else none := by
  by_cases small : b.toNat < 3
  · have cases' : b = 0 ∨ b = 1 ∨ b = 2 := by bv_omega
    rcases cases' with rfl | rfl | rfl <;> rfl
  · rw [if_neg (by omega), if_neg (by omega), if_neg (by omega)]
    unfold collection?
    split
    · exact absurd (by decide) small
    · exact absurd (by decide) small
    · exact absurd (by decide) small
    · rfl

theorem position?_cases (b : Byte) : position? b = if b.toNat = 0 then some .oldest else if b.toNat = 1 then some .next
    else if b.toNat = 2 then some .sequence else none := by
  by_cases small : b.toNat < 3
  · have cases' : b = 0 ∨ b = 1 ∨ b = 2 := by bv_omega
    rcases cases' with rfl | rfl | rfl <;> rfl
  · rw [if_neg (by omega), if_neg (by omega), if_neg (by omega)]
    unfold position?
    split
    · exact absurd (by decide) small
    · exact absurd (by decide) small
    · exact absurd (by decide) small
    · rfl

/-- R145: a lag that has not risen sets no notice. -/
theorem State.lagRaised_same (s : State) (p : Port) : s.lagRaised (s.historyLag p) p = s := by
  unfold State.lagRaised
  rw [if_neg]
  simp only [Bool.and_eq_true, decide_eq_true_eq]
  omega

/-- R144: a position named by its code, and the cursor it gives. -/
theorem State.seekTarget_named (s : State) (c : Collection) (b : Byte) (n : Nat) (named : b.toNat ≤ 2) :
    ∃ x, position? b = some x ∧ s.seekTarget c x n = if b.toNat = 0 then s.oldestOf c else if b.toNat = 1 then s.nextOf c
      else if n < s.oldestOf c then s.oldestOf c else min n (s.nextOf c) := by
  rw [position?_cases]
  by_cases zero : b.toNat = 0
  · exact ⟨.oldest, by rw [if_pos zero], by rw [if_pos zero]; rfl⟩
  by_cases one : b.toNat = 1
  · exact ⟨.next, by rw [if_neg zero, if_pos one], by rw [if_neg zero, if_pos one]; rfl⟩
  · refine ⟨.sequence, by rw [if_neg zero, if_neg one, if_pos (by omega)], ?_⟩
    rw [if_neg zero, if_neg one, ← clampCount_eq]
    rfl

theorem State.seekCursor_history (u : State) (p : Port) (n : Nat) :
    let v := u.seekCursor p .history n
    v = u.setPort p (v.port p) ∧
    (let x : PortState := { u.port p with historyCursor := n }
     if u.minuteSeq - (u.port p).historyCursor < 1792 ∧ 1792 ≤ u.minuteSeq - x.historyCursor then
       NoticeSet x (v.port p) .historyLag ⟨.ch0, 0, BitVec.ofNat 32 x.historyCursor⟩
     else v.port p = x) := by
  intro v
  let x : PortState := { u.port p with historyCursor := n }
  have made : v = (u.setPort p x).lagRaised (u.historyLag p) p := rfl
  have lag : (u.setPort p x).historyLag p = u.minuteSeq - n := by
    rw [State.historyLag, State.port_setPort_self]
    cases p <;> rfl
  have raised : (decide (u.historyLag p < 1792) && decide (1792 ≤ (u.setPort p x).historyLag p)) = true ↔
      u.minuteSeq - (u.port p).historyCursor < 1792 ∧ 1792 ≤ u.minuteSeq - n := by
    rw [lag, Bool.and_eq_true]
    exact and_congr decide_eq_true_iff decide_eq_true_iff
  unfold State.lagRaised at made
  by_cases rises : u.minuteSeq - (u.port p).historyCursor < 1792 ∧ 1792 ≤ u.minuteSeq - n
  · rw [if_pos (raised.mpr rises), State.notifyLag, State.notify, State.port_setPort_self, State.setPort_setPort] at made
    rw [if_pos rises, made, State.port_setPort_self]
    exact ⟨rfl, noticeSet_notify _ _ _⟩
  · rw [if_neg fun e => rises (raised.mp e)] at made
    rw [if_neg rises, made, State.port_setPort_self]
    exact ⟨rfl, rfl⟩

theorem State.seekCursor_periods (u : State) (p : Port) (n : Nat) :
    u.seekCursor p .periods n = u.setPort p { u.port p with periodCursor := n } := by
  have lag : (u.setPort p ((u.port p).setCursor .periods n)).historyLag p = u.historyLag p := by cases p <;> rfl
  rw [State.seekCursor, ← lag, State.lagRaised_same]
  rfl

theorem State.seekCursor_events (u : State) (p : Port) (n : Nat) :
    u.seekCursor p .events n = u.setPort p { u.port p with eventCursor := n } := by
  have lag : (u.setPort p ((u.port p).setCursor .events n)).historyLag p = u.historyLag p := by cases p <;> rfl
  rw [State.seekCursor, ← lag, State.lagRaised_same]
  rfl

/-- Settles O20: the collection and the position are read, and the one cursor moves. -/
theorem seekMovesCursor : Obligations.SeekMovesCursor := by
  unfold Obligations.SeekMovesCursor
  intro p params s hr length u place target
  have byte0 : byteAt params 0 = params.getD 0 0 := rfl
  have byte1 : byteAt params 1 = params.getD 1 0 := rfl
  have taken (c : Collection) (code : collection? (params.getD 0 0) = some c) (near : place ≤ 2) :
      exec (.seek p (.whole params)) s = .next ((u.seekCursor p c (target (u.oldestOf c) (u.nextOf c))).wrote p .ok u params) := by
    obtain ⟨x, position, cursor⟩ := u.seekTarget_named c (params.getD 1 0) (u32At params 2) near
    refine write_taken (owner := seekOwner p) rfl hr length rfl ?_
    rw [seekOwner, byte0, byte1, code, position]
    exact congrArg (fun n => Except.ok (u.seekCursor p c n)) cursor
  refine ⟨fun out => ?_, fun periods near => ?_, fun events near => ?_, fun history near => ?_⟩
  · refine write_refused (owner := seekOwner p) rfl hr length rfl ?_
    rw [seekOwner, byte0, byte1, collection?_cases, position?_cases]
    rcases out with out | out
    · rw [if_neg (by omega), if_neg (by omega), if_neg (by omega)]
    · have out' : 2 < (params.getD 1 0).toNat := out
      rw [if_neg (c := (params.getD 1 0).toNat = 0) (by omega), if_neg (c := (params.getD 1 0).toNat = 1) (by omega),
        if_neg (c := (params.getD 1 0).toNat = 2) (by omega)]
      split
      next impossible => exact absurd impossible (by simp)
      next => rfl
  · rw [taken .periods (by rw [collection?_cases, periods]; rfl) near, State.seekCursor_periods]
    rfl
  · rw [taken .events (by rw [collection?_cases, events]; rfl) near, State.seekCursor_events]
    rfl
  · exact ⟨_, taken .history (by rw [collection?_cases, history]; rfl) near, State.seekCursor_history _ _ _⟩

end Sys2Proof.Machine

/-! The commissioning record and the setting store: their writes (O47, O48). -/
namespace Sys2Proof.Machine

/-! ### The device quiet condition of every channel -/

section

variable (s : State)

/-- The reason of a channel's condition does not read the other channels. -/
theorem State.quietReasonOf_holdQuiet {d ch : Ch} (differ : ch ≠ d) : (s.holdQuiet d).quietReasonOf ch = s.quietReasonOf ch := by
  have chan : (s.holdQuiet d).chan ch = s.chan ch := s.chan_setChan_ne differ _
  unfold State.quietReasonOf
  rw [chan]
  rfl

theorem State.holdQuiet_chan_ne {d ch : Ch} (differ : ch ≠ d) : (s.holdQuiet d).chan ch = s.chan ch := s.chan_setChan_ne differ _

theorem State.holdQuiet_chan (ch : Ch) : (s.holdQuiet ch).chan ch = { s.chan ch with quiet := s.quietReasonOf ch } := by
  rw [State.holdQuiet, State.chan_setChan, if_pos rfl]

theorem State.foldl_holdQuiet_chan (ch : Ch) : ∀ (l : List Ch) (s : State), l.Nodup →
    (l.foldl State.holdQuiet s).chan ch = if ch ∈ l then { s.chan ch with quiet := s.quietReasonOf ch } else s.chan ch
  | [], _, _ => rfl
  | d :: l, s, nodup => by
    obtain ⟨notIn, nodup⟩ := List.nodup_cons.mp nodup
    show (l.foldl State.holdQuiet (s.holdQuiet d)).chan ch = _
    rw [State.foldl_holdQuiet_chan ch l _ nodup]
    by_cases same : ch = d
    · subst same
      rw [if_neg notIn, if_pos (List.mem_cons_self ..), State.holdQuiet_chan]
    · rw [State.holdQuiet_chan_ne s same, State.quietReasonOf_holdQuiet s same]
      simp only [List.mem_cons, same, false_or]

theorem State.holdAllQuiet_chan (ch : Ch) : s.holdAllQuiet.chan ch = { s.chan ch with quiet := s.quietReasonOf ch } := by
  rw [State.holdAllQuiet, State.foldl_holdQuiet_chan ch Ch.list s (by decide), if_pos (Ch.mem_list ch)]

theorem State.holdAllQuiet_frame : s.holdAllQuiet = { s with channels := s.holdAllQuiet.channels } := rfl

/-- R156: the channel QUIET names is the lowest whose condition differs. -/
theorem quietChanged_lowest (t : State) {d : Ch} (moved : ¬ ((s.chan d).quiet = .none ↔ (t.chan d).quiet = .none)) :
    ¬ ((s.chan (quietChanged s t)).quiet = .none ↔ (t.chan (quietChanged s t)).quiet = .none) ∧ (quietChanged s t).index ≤ d.index := by
  have differs (ch : Ch) : ((s.chan ch).quietHeld != (t.chan ch).quietHeld) = true ↔
      ¬ ((s.chan ch).quiet = .none ↔ (t.chan ch).quiet = .none) := by
    rw [bne_iff_ne, Ne, Bool.eq_iff_iff, Channel.quietHeld_iff, Channel.quietHeld_iff, not_iff_not]
    exact not_iff_not
  cases found : Ch.list.find? fun ch => (s.chan ch).quietHeld != (t.chan ch).quietHeld with
  | none => exact absurd ((differs d).mpr moved) (List.find?_eq_none.mp found d (Ch.mem_list d))
  | some ch =>
    have named : quietChanged s t = ch := by rw [quietChanged, found, Option.getD_some]
    rw [named]
    refine ⟨(differs ch).mp (List.find?_some (p := fun ch => (s.chan ch).quietHeld != (t.chan ch).quietHeld) found), ?_⟩
    obtain ⟨_, i, hi, rfl, before⟩ := List.find?_eq_some_iff_getElem.mp found
    have place (j : Nat) (hj : j < Ch.list.length) : Ch.list[j].index = j := by
      have small : j < 4 := hj
      interval_cases j <;> rfl
    rw [place]
    by_contra lower
    have clear := before d.index (Nat.not_le.mp lower)
    have own : Ch.list[d.index]'(by cases d <;> decide) = d := by cases d <;> rfl
    rw [own, (differs d).mpr moved] at clear
    exact absurd clear (by decide)

/-- What an evaluation of every channel's condition leaves. -/
theorem State.reevaluateQuiet_does :
    let v := s.reevaluateQuiet
    v = { s with channels := v.channels, quietLine := v.quietLine, site := v.site, compliance := v.compliance } ∧
    (∀ ch, v.chan ch = { s.chan ch with quiet := s.quietReasonOf ch }) ∧
    (v.quietLine = true ↔ s.site.quietRequest = true ∨ s.compliance.quietRequest = true ∨ ∃ ch, (v.chan ch).quiet ≠ .none) ∧
    (v.quietLine = s.quietLine → v.site = s.site ∧ v.compliance = s.compliance) ∧
    (v.quietLine ≠ s.quietLine →
      let moved := fun ch : Ch => ¬ ((s.chan ch).quiet = .none ↔ (v.chan ch).quiet = .none)
      ∃ ch, SetOnBoth s v .quiet ⟨ch, if v.quietLine then 1 else 0, 3⟩ ∧ ∀ d, moved d → moved ch ∧ ch.index ≤ d.index) := by
  intro v
  have chan (ch : Ch) : v.chan ch = s.holdAllQuiet.chan ch := State.chan_bringQuiet _ _ _ _
  obtain ⟨still, moves⟩ := s.holdAllQuiet.bringQuiet_does (quietChanged s s.holdAllQuiet) .commissioning
  refine ⟨?_, fun ch => (chan ch).trans (s.holdAllQuiet_chan ch), ?_, still, fun moved => ?_⟩
  · have frame := s.holdAllQuiet.bringQuiet_frame (quietChanged s s.holdAllQuiet) .commissioning
    have channels : v.channels = s.holdAllQuiet.channels := by
      show s.reevaluateQuiet.channels = _
      rw [State.reevaluateQuiet, frame]
    rw [channels]
    exact frame
  · have line : v.quietLine = s.holdAllQuiet.quietDemand := State.bringQuiet_quietLine _ _ _
    rw [line, State.quietDemand_iff]
    simp only [chan]
    rfl
  · refine ⟨quietChanged s s.holdAllQuiet, moves moved, fun d differs => ?_⟩
    simp only [chan] at differs ⊢
    exact quietChanged_lowest s s.holdAllQuiet differs

end

/-! ### The commissioning record's writes (O47) -/

theorem isCharacter_iff (b : Byte) : isCharacter b = true ↔ b = 0 ∨ (0x20 ≤ b.toNat ∧ b.toNat ≤ 0x7E) := by
  simp only [isCharacter, Bool.or_eq_true, beq_iff_eq, Bool.and_eq_true, decide_eq_true_eq]

theorem charsAt_all_iff (bs : List Byte) (i n : Nat) :
    (charsAt bs i n).all isCharacter = true ↔ ∀ k, i ≤ k → k < i + n → isCharacter (byteAt bs k) = true := by
  rw [Vector.all_eq_true]
  constructor
  · intro all k low high
    have at' := all (k - i) (by omega)
    rw [charsAt, Vector.getElem_ofFn, Nat.add_sub_cancel' low] at at'
    exact at'
  · intro all k hk
    rw [charsAt, Vector.getElem_ofFn]
    exact all (i + k) (by omega) (by omega)

/-- R179: the characters of the record WRITE COMMISSIONING carries. -/
theorem printable_iff (params : List Byte) : (commissioningAt params).printable = true ↔
    ∀ i, i < 16 ∨ 20 ≤ i → i < 68 → byteAt params i = 0 ∨ (0x20 ≤ u8At params i ∧ u8At params i ≤ 0x7E) := by
  have fields : (commissioningAt params).printable = true ↔ (∀ k, 0 ≤ k → k < 0 + 16 → isCharacter (byteAt params k) = true) ∧
      (∀ k, 20 ≤ k → k < 20 + 12 → isCharacter (byteAt params k) = true) ∧
      (∀ k, 32 ≤ k → k < 32 + 12 → isCharacter (byteAt params k) = true) ∧
      (∀ k, 44 ≤ k → k < 44 + 12 → isCharacter (byteAt params k) = true) ∧
      (∀ k, 56 ≤ k → k < 56 + 12 → isCharacter (byteAt params k) = true) := by
    simp only [← charsAt_all_iff]
    simp [Commissioning.printable, Ch.list, commissioningAt, Quad.get]
  rw [fields]
  simp only [isCharacter_iff]
  constructor
  · rintro ⟨site, l0, l1, l2, l3⟩ i place high
    rcases place with low | low
    · exact site i (Nat.zero_le _) low
    · by_cases h0 : i < 32
      · exact l0 i low h0
      by_cases h1 : i < 44
      · exact l1 i (Nat.not_lt.mp h0) h1
      by_cases h2 : i < 56
      · exact l2 i (Nat.not_lt.mp h1) h2
      · exact l3 i (Nat.not_lt.mp h2) high
  · intro all
    exact ⟨fun k _ high => all k (.inl high) (by omega), fun k low high => all k (.inr (by omega)) (by omega),
      fun k low high => all k (.inr (by omega)) (by omega), fun k low high => all k (.inr (by omega)) (by omega),
      fun k low high => all k (.inr (by omega)) (by omega)⟩

/-- What an accepted WRITE COMMISSIONING leaves. -/
theorem State.writeCommissioning_does (u : State) (r : Commissioning) :
    let v := (u.recordCommissioning r).reevaluateQuiet
    v = { u with commissioning := r, store := v.store, channels := v.channels, quietLine := v.quietLine, site := v.site
                 compliance := v.compliance } ∧
    Queued u.store v.store (.commissioning r) ∧
    (∀ ch, ∃ x, v.chan ch = { u.chan ch with quiet := x } ∧ QuietReasonIs (maskHas r.installed ch) (u.chan ch) x) ∧
    (v.quietLine = true ↔ u.site.quietRequest = true ∨ u.compliance.quietRequest = true ∨ ∃ ch, (v.chan ch).quiet ≠ .none) ∧
    (v.quietLine = u.quietLine → v.site = u.site ∧ v.compliance = u.compliance) ∧
    (v.quietLine ≠ u.quietLine →
      let moved := fun ch : Ch => ¬ ((u.chan ch).quiet = .none ↔ (v.chan ch).quiet = .none)
      ∃ ch, SetOnBoth u v .quiet ⟨ch, if v.quietLine then 1 else 0, 3⟩ ∧ ∀ d, moved d → moved ch ∧ ch.index ≤ d.index) := by
  intro v
  obtain ⟨frame, chan, line, still, moves⟩ := (u.recordCommissioning r).reevaluateQuiet_does
  have store : v.store = u.store.enqueue (.commissioning r) := by
    show (u.recordCommissioning r).reevaluateQuiet.store = _
    rw [frame]
    rfl
  refine ⟨?_, ?_, fun ch => ⟨_, chan ch, (u.recordCommissioning r).quietReasonOf_is ch⟩, line, still, moves⟩
  · rw [store]
    exact frame
  · rw [store]
    exact u.store.queued_enqueue _

theorem State.recordCommissioning_does (u : State) (r : Commissioning) :
    let v := u.recordCommissioning r
    v = { u with commissioning := r, store := v.store } ∧ Queued u.store v.store (.commissioning r) :=
  ⟨rfl, u.store.queued_enqueue _⟩

/-- Settles O47: each check in its turn, then the record, its item and the conditions. -/
theorem commissioningWritten : Obligations.CommissioningWritten := by
  unfold Obligations.CommissioningWritten
  intro params s hr u
  have lock {r : Result} (e : lockCommissioningOwner u = .error r) : exec (.lockCommissioning .compliance (.whole [])) s =
      .next (u.wrote .compliance r u []) := write_refused (owner := fun _ => lockCommissioningOwner) rfl hr rfl rfl e
  refine ⟨fun length => ?_, fun locked => lock (check_fails locked), fun unlocked full => lock ?_, fun unlocked room => ?_⟩
  · intro r printable refused
    have refuses {x : Result} (e : writeCommissioningOwner params u = .error x) : refused x := write_refused rfl hr length rfl e
    have printable_iff : r.printable = true ↔ printable := printable_iff params
    refine ⟨fun locked => refuses (check_fails locked), fun unlocked out => ?_, fun unlocked fit full => ?_, fun unlocked fit room => ?_⟩
    all_goals have start : writeCommissioningOwner params u = _ := check_passes unlocked
    · exact refuses (start.trans (check_fails (by rw [Bool.not_eq_true', Bool.eq_false_iff]; exact fun e => out (printable_iff.mp e))))
    all_goals replace start := start.trans (check_passes (by rw [Bool.not_eq_false']; exact printable_iff.mpr fit))
    · exact refuses (start.trans (check_fails (Store.busy_fails full)))
    · exact ⟨_, write_taken rfl hr length rfl (start.trans (check_passes (Store.room_passes room))), u.writeCommissioning_does r⟩
  · exact (check_passes unlocked).trans (check_fails (Store.busy_fails full))
  · have taken : lockCommissioningOwner u = _ := (check_passes unlocked).trans (check_passes (Store.room_passes room))
    exact ⟨u.recordCommissioning { u.commissioning with locked := true },
      write_taken (owner := fun _ => lockCommissioningOwner) rfl hr rfl rfl taken, u.recordCommissioning_does _⟩

/-! ### The store's writes (O48) -/

theorem Store.beginWrite_none {st : Store} (h : st.writing ≠ none ∨ st.queue = []) : st.beginWrite = st := by
  obtain ⟨items, queue, writing⟩ := st
  cases writing with
  | some w => rfl
  | none =>
    cases queue with
    | nil => rfl
    | cons w rest => exact absurd h (by simp)

theorem Store.beginWrite_head {st : Store} {w : StoreWrite} {rest : List StoreWrite} (idle : st.writing = none) (head : st.queue = w :: rest) :
    st.beginWrite = ⟨st.items.clearMark w, rest, some w⟩ := by
  obtain ⟨items, queue, writing⟩ := st
  obtain rfl : writing = none := idle
  obtain rfl : queue = w :: rest := head
  rfl

theorem State.endStoreWrite_idle {s : State} (idle : s.store.writing = none) (ok : Bool) : s.endStoreWrite ok = s := by
  simp only [State.endStoreWrite, idle]

theorem State.endStoreWrite_good {s : State} {w : StoreWrite} (writing : s.store.writing = some w) :
    s.endStoreWrite true = { s with store := ⟨s.store.items.complete w, s.store.queue, none⟩ } := by
  simp only [State.endStoreWrite, writing, if_true]

theorem State.endStoreWrite_bad {s : State} {w : StoreWrite} (writing : s.store.writing = some w) :
    s.endStoreWrite false = { s with store := { s.store with writing := none } }.notifyBoth .store ⟨.ch0, 1, value32 w.item⟩ := by
  simp only [State.endStoreWrite, writing, Bool.false_eq_true, if_false]

theorem State.endStoreWrite_bad_does {s : State} {w : StoreWrite} (writing : s.store.writing = some w) :
    let t := s.endStoreWrite false
    t = { s with store := { s.store with writing := none }, site := t.site, compliance := t.compliance } ∧
    SetOnBoth s t .store ⟨.ch0, 1, BitVec.ofNat 32 w.item⟩ := by
  rw [State.endStoreWrite_bad writing]
  exact ⟨rfl, fun q => setOnBoth_notifyBoth _ .store _ q⟩

/-- Settles O48. -/
theorem storeWrites : Obligations.StoreWrites := by
  unfold Obligations.StoreWrites
  intro s stored
  have cleared (x : StoredItems) (w : StoreWrite) : stored x w false = x.clearMark w := by cases w <;> rfl
  have completed (x : StoredItems) (w : StoreWrite) : stored x w true = x.complete w := by cases w <;> rfl
  refine ⟨fun nothing => ?_, fun w rest idle head => ?_, fun ok idle => ?_, fun w writing => ⟨?_, ?_⟩⟩
  · exact congrArg Host.Outcome.next (by rw [State.beginStoreWrite, Store.beginWrite_none nothing])
  · rw [cleared]
    exact congrArg Host.Outcome.next (by rw [State.beginStoreWrite, Store.beginWrite_head idle head])
  · exact congrArg Host.Outcome.next (State.endStoreWrite_idle idle ok)
  · rw [completed]
    exact congrArg Host.Outcome.next (State.endStoreWrite_good writing)
  · exact ⟨s.settle.endStoreWrite false, rfl, State.endStoreWrite_bad_does writing⟩

end Sys2Proof.Machine

/-! The device resets: what each leaves at once, and once it is complete (O49 to O51). -/
namespace Sys2Proof.Machine

/-! ### What a reset leaves at once (O50) -/

theorem Transaction.abandoned_abandoned (x : Transaction) : x.abandoned.abandoned = x.abandoned := by
  obtain ⟨select, received, snapshot, answer, sent⟩ := x
  cases select <;> rfl

theorem notice_of_cleared (x : PortState) (k : NoticeKind) : x.cleared.notice k = ⟨false, k == .reset, ⟨.ch0, 0, 0⟩⟩ := by
  cases k <;> rfl

/-- What the beginning of a reset leaves, in the words of `ResetsHold`. -/
structure State.Wiped (u v : State) : Prop where
  lines : v.line0 = .reset ∧ v.line1 = .reset
  table : v.slots = Vector.replicate 8 .reset ∧ v.proposalSerial = 0
  run : v.calUnit.run = none
  lists : v.eventList = [] ∧ v.eventSeq = 0 ∧ v.minuteRing = [] ∧ v.minuteSeq = 0 ∧ v.periodList = [] ∧ v.periodSeq = 0
  quiet : v.quietLine = false
  store : v.store = ⟨u.store.items, [], none⟩
  pending : v.pending = u.pending
  channels : ∀ ch, v.chan ch = { Channel.reset with
    fs := (v.chan ch).fs, calSeq := (v.chan ch).calSeq, uncalibrated := (v.chan ch).uncalibrated, calRecord := (v.chan ch).calRecord }
  ports : ∀ q, v.port q = ⟨(v.port q).notices, .all .none, false, 0, 0, 0, .ok, (u.port q).transaction.abandoned⟩ ∧
    ∀ k, (v.port q).notice k = ⟨false, k == .reset, ⟨.ch0, 0, 0⟩⟩

theorem State.beginReset_chan (u : State) (ch : Ch) : u.beginReset.chan ch = (u.chan ch).deviceReset := by cases ch <;> rfl

theorem State.beginReset_port (u : State) (q : Port) : u.beginReset.port q = (u.port q).cleared := by cases q <;> rfl

/-- A reset that has begun has wiped the part, whatever is then set of the clock and the inputs. -/
theorem State.Wiped.begun {u v : State} (same : v = { u.beginReset with
    clock := v.clock, resetN := v.resetN, supply := v.supply, resetCause := v.resetCause, clockLossFound := v.clockLossFound }) : u.Wiped v := by
  have chan (ch : Ch) : v.chan ch = (u.chan ch).deviceReset := by
    rw [same]
    exact u.beginReset_chan ch
  have port (q : Port) : v.port q = (u.port q).cleared := by
    rw [same]
    exact u.beginReset_port q
  refine ⟨?_, ?_, ?_, ?_, ?_, ?_, ?_, fun ch => ?_, fun q => ⟨?_, fun k => ?_⟩⟩
  case refine_8 =>
    rw [chan]
    rfl
  case refine_9 =>
    rw [port]
    rfl
  case refine_10 =>
    rw [port]
    exact notice_of_cleared _ k
  all_goals
    rw [same]
  · exact ⟨rfl, rfl⟩
  · exact ⟨rfl, rfl⟩
  · rfl
  · exact ⟨rfl, rfl, rfl, rfl, rfl, rfl⟩
  · rfl
  · rfl
  · rfl

theorem State.settle_supply (s : State) : s.settle.supply = s.supply := by
  obtain ⟨_, supply, _⟩ := State.SameInputs.settle s
  exact supply

theorem State.settle_resetN (s : State) : s.settle.resetN = s.resetN := by
  obtain ⟨resetN, _⟩ := State.SameInputs.settle s
  exact resetN

section

variable (u : State)

theorem State.resetLow_held (low : u.resetN = false) : u.resetLow = u := by
  unfold State.resetLow
  rw [if_pos (by rw [low]; rfl)]

theorem State.resetLow_unpowered (high : u.resetN = true) (off : u.supply = false) : u.resetLow = { u with resetN := false } := by
  unfold State.resetLow
  rw [if_neg (by rw [high]; decide), if_neg (by rw [off]; decide)]

theorem State.resetLow_does (high : u.resetN = true) (on : u.supply = true) :
    let v := u.resetLow
    u.Wiped v ∧ v.resetN = false ∧ v.supply = true ∧ v.clock = u.clock ∧ v.resetCause = .line ∧ v.clockLossFound = false := by
  have made : u.resetLow = { u.beginReset with resetN := false, resetCause := .line, clockLossFound := false } := by
    unfold State.resetLow
    rw [if_neg (by rw [high]; decide), if_pos on]
  rw [made]
  exact ⟨.begun rfl, rfl, on, rfl, rfl, rfl⟩

theorem State.powerDown_does (u : State) :
    let v := u.powerDown
    u.Wiped v ∧ v.supply = false ∧ v.resetN = u.resetN ∧ v.clock = u.clock := ⟨.begun rfl, rfl, rfl, rfl⟩

theorem State.powerUp_held (lost : Bool) (low : u.resetN = false) :
    let v := u.powerUp lost
    u.Wiped v ∧ v.resetN = false ∧ v.supply = true ∧ v.clock = (if lost then ⟨false, 0, 0, 60, 0, 0⟩ else u.clock) ∧
    v.resetCause = .powerOn ∧ (v.clockLossFound = true ↔ u.clockLossFound = true ∨ lost = true) := by
  have held : ({ u.beginReset with supply := true }.loseClock lost).resetN = false := by cases lost <;> exact low
  have made : u.powerUp lost = { u.beginReset with
      clock := if lost then ⟨false, 0, 0, 60, 0, 0⟩ else u.clock, supply := true, resetCause := .powerOn
      clockLossFound := u.clockLossFound || lost } := by
    unfold State.powerUp
    exact (if_neg (by rw [held]; decide)).trans (by cases lost <;> rfl)
  rw [made]
  exact ⟨.begun rfl, low, rfl, rfl, rfl, Bool.or_eq_true _ _ ▸ Iff.rfl⟩

end

/-- Settles O50: each leaves the part as a reset begun leaves it. -/
theorem resetsHold : Obligations.ResetsHold := by
  unfold Obligations.ResetsHold
  intro s u volatile
  have wiped {v : State} (h : u.Wiped v) : volatile v := by
    obtain ⟨⟨line0, line1⟩, ⟨slots, serial⟩, run, ⟨events, eventSeq, minutes, minuteSeq, periods, periodSeq⟩, quiet, store, pending, channels,
      ports⟩ := h
    exact ⟨line0, line1, slots, serial, run, events, eventSeq, minutes, minuteSeq, periods, periodSeq, quiet, store, pending, channels, ports⟩
  have resetN : u.resetN = s.resetN := s.settle_resetN
  have supply : u.supply = s.supply := s.settle_supply
  refine ⟨fun low => ?_, fun high off => ?_, fun high on => ?_, ?_, fun lost low => ?_⟩
  · exact congrArg Host.Outcome.next (u.resetLow_held (resetN.trans low))
  · exact congrArg Host.Outcome.next (u.resetLow_unpowered (resetN.trans high) (supply.trans off))
  · obtain ⟨all, rest⟩ := u.resetLow_does (resetN.trans high) (supply.trans on)
    exact ⟨u.resetLow, rfl, wiped all, rest⟩
  · obtain ⟨all, off, line, clock⟩ := u.powerDown_does
    exact ⟨u.powerDown, rfl, wiped all, off, line.trans resetN, clock⟩
  · obtain ⟨all, rest⟩ := u.powerUp_held lost (resetN.trans low)
    exact ⟨u.powerUp lost, rfl, wiped all, rest⟩

/-! ### What the store load leaves -/

/-- `t` is `s` but for the entries and the notices of the ports. -/
def State.EntriesOnly (s t : State) : Prop :=
  t = { s with entries := t.entries, site := { s.site with notices := t.site.notices }
               compliance := { s.compliance with notices := t.compliance.notices } }

theorem State.EntriesOnly.made {s t : State} (h : s.EntriesOnly t) :
    ∃ e n m, t = { s with entries := e, site := { s.site with notices := n }, compliance := { s.compliance with notices := m } } := ⟨_, _, _, h⟩

theorem State.EntriesOnly.trans {s t u : State} (h : s.EntriesOnly t) (h' : t.EntriesOnly u) : s.EntriesOnly u := by
  unfold State.EntriesOnly at *
  rw [h'] at *
  rw [h]

theorem State.EntriesOnly.foldl {α : Type} {work : State → α → State} (h : ∀ s a, State.EntriesOnly s (work s a)) :
    ∀ (l : List α) (s : State), s.EntriesOnly (l.foldl work s)
  | [], _ => rfl
  | a :: l, s => (h s a).trans (State.EntriesOnly.foldl h l _)

theorem State.EntriesOnly.notifyBoth (s : State) (k : NoticeKind) (d : Detail) : s.EntriesOnly (s.notifyBoth k d) := rfl

theorem State.EntriesOnly.dropOverlapping (s : State) (i : Fin 16) : s.EntriesOnly (s.dropOverlapping i) := by
  unfold State.dropOverlapping
  split <;> rfl

/-- The store load as the copies, but for the entries, the notices and the run serial counter. -/
theorem State.loadStore_copies (s : State) :
    ∃ w, s.loadCopies.EntriesOnly w ∧ s.loadStore = w.resumeSerial :=
  ⟨_, State.EntriesOnly.trans (State.EntriesOnly.foldl (fun t _ => .notifyBoth t _ _) _ _)
    (State.EntriesOnly.foldl State.EntriesOnly.dropOverlapping _ _), rfl⟩

theorem maxSerial_le (a b : Serial) : a ≤ maxSerial a b ∧ b ≤ maxSerial a b ∧ (maxSerial a b = a ∨ maxSerial a b = b) := by
  unfold maxSerial
  split
  next less => exact ⟨BitVec.le_def.mpr (Nat.le_of_lt less), BitVec.le_def.mpr (Nat.le_refl _), .inr rfl⟩
  next less => exact ⟨BitVec.le_def.mpr (Nat.le_refl _), BitVec.le_def.mpr (Nat.not_lt.mp less), .inl rfl⟩

/-- The greatest of some serials and a first one. -/
theorem foldl_maxSerial {α : Type} (f : α → Serial) : ∀ (l : List α) (m : Serial), let x := l.foldl (fun m a => maxSerial m (f a)) m
    m ≤ x ∧ (∀ a ∈ l, f a ≤ x) ∧ (x = m ∨ ∃ a ∈ l, f a = x)
  | [], m => ⟨BitVec.le_refl m, nofun, .inl rfl⟩
  | a :: l, m => by
    obtain ⟨first, others, one⟩ := foldl_maxSerial f l (maxSerial m (f a))
    obtain ⟨left, right, either⟩ := maxSerial_le m (f a)
    refine ⟨BitVec.le_trans left first, fun b mem => ?_, ?_⟩
    · rcases List.mem_cons.mp mem with rfl | mem
      · exact BitVec.le_trans right first
      · exact others b mem
    · rcases one with same | ⟨b, mem, same⟩
      · rcases either with e | e
        · exact .inl (same.trans e)
        · exact .inr ⟨a, List.mem_cons_self .., (same.trans e).symm⟩
      · exact .inr ⟨b, List.mem_cons_of_mem _ mem, same⟩

/-! ### A device reset, complete (O49) -/

/-- R178: what the load has made of an entry that its item loads as `e`. -/
def EntryLoaded (final : Vector Entry 16) (i : Fin 16) (e : Entry) : Prop :=
  (final[i] = e ∨ final[i] = { e with present := false }) ∧ (i = 0 → final[i] = e) ∧
    (final[i] ≠ e → ∃ j : Fin 16, 0 < j.val ∧ j.val < i.val ∧ final[j].present = true ∧ e.overlaps final[j] = true)

theorem EntryLoaded.of {final : Vector Entry 16} {i : Fin 16} {e : Entry} (zero : i = 0 → final[i] = e)
    (other : i ≠ 0 → (overlapsBelow final i e ∧ final[i] = e.dropped) ∨ (¬ overlapsBelow final i e ∧ final[i] = e)) : EntryLoaded final i e := by
  by_cases first : i = 0
  · exact ⟨.inl (zero first), zero, fun differs => absurd (zero first) differs⟩
  · refine ⟨?_, zero, fun differs => ?_⟩
    · rcases other first with ⟨_, gone⟩ | ⟨_, stays⟩
      · exact .inr gone
      · exact .inl stays
    · rcases other first with ⟨⟨_, j, ne, lt, present, overlap⟩, _⟩ | ⟨_, stays⟩
      · exact ⟨j, Nat.pos_of_ne_zero fun e => ne (Fin.ext e), lt, present, overlap⟩
      · exact absurd stays differs

theorem State.startChannels_ports (u : State) (m : ChannelMask) (q : Port) :
    (u.startChannels m).port q = { u.port q with notices := ((u.startChannels m).port q).notices } := by
  obtain ⟨l, n, _, started⟩ := u.startChannels_started m
  obtain ⟨only, _, _⟩ := started.notices q
  exact only

section

variable (s : State) (cause : ResetCause) (lost : Bool)

/-- The state that the store load of a device reset finds. -/
def State.resetTold : State := (s.beginReset.notifyBoth .reset ⟨.ch0, cause.code, 0⟩).notifyClockLoss lost

/-- The state of a device reset before the installed channels start. -/
def State.awaiting : State := { (s.resetTold cause lost).loadStore.numberMinutes with resetCause := cause, clockLossFound := false }

theorem State.completeReset_eq : s.completeReset cause lost =
    (s.awaiting cause lost).startChannels (s.awaiting cause lost).commissioning.installed := by
  delta State.completeReset
  extract_lets s1 s2 s3
  have same : s.awaiting cause lost = s3 := by
    delta State.awaiting State.resetTold
    simp only [s3, s2, s1]
  rw [same]

theorem State.resetTold_only : s.beginReset.EntriesOnly (s.resetTold cause lost) := by
  cases lost <;> rfl

/-- The greatest run serial among the records of the channels. -/
def State.topSerial : Serial := Ch.list.foldl (fun m ch => maxSerial m (s.chan ch).calRecord.serial) 0

variable {s} in
theorem State.topSerial_congr {t : State} (h : ∀ ch, (t.chan ch).calRecord = (s.chan ch).calRecord) : t.topSerial = s.topSerial := by
  simp only [State.topSerial, h]

/-- What the installed channels of a device reset find, but for the entries. -/
structure State.Awaits (a : State) : Prop where
  pins : a.wx = s.wx ∧ a.prot = s.prot ∧ a.supply = s.supply ∧ a.resetN = s.resetN ∧ a.clock = s.clock ∧ a.pending = s.pending
  lines : a.line0 = .reset ∧ a.line1 = .reset
  table : a.slots = Vector.replicate 8 .reset ∧ a.proposalSerial = 0
  lists : a.eventList = [] ∧ a.eventSeq = 0 ∧ a.minuteRing = [] ∧ a.minuteSeq = 0 ∧ a.periodList = [] ∧ a.periodSeq = 0
  quiet : a.quietLine = false
  store : a.store = ⟨s.store.items, [], none⟩
  copies : a.header = s.store.items.header.getD .factory ∧ a.protection = s.store.items.protection.getD ⟨16, .openMode⟩ ∧
    a.commissioning = s.store.items.commissioning.getD .blank
  channels : ∀ ch, a.chan ch = { (s.chan ch).deviceReset.load (s.store.items.channels.get ch) with minuteNo := s.minuteNow }
  run : a.calUnit.run = none
  serial : a.calUnit.serial = a.topSerial
  recorded : a.resetCause = cause ∧ a.clockLossFound = false ∧ a.orderUses = s.orderUses
  ports : ∀ q, a.port q = ⟨(a.port q).notices, .all .none, false, 0, 0, 0, .ok, (s.port q).transaction.abandoned⟩

theorem State.awaiting_awaits : s.Awaits cause (s.awaiting cause lost) := by
  obtain ⟨w, copies, load⟩ := (s.resetTold cause lost).loadStore_copies
  have told := s.resetTold_only cause lost
  have made : s.awaiting cause lost = { w.resumeSerial.numberMinutes with resetCause := cause, clockLossFound := false } := by
    rw [State.awaiting, load]
  have serial (w : State) : ({ w.resumeSerial.numberMinutes with resetCause := cause, clockLossFound := false } : State).calUnit.serial =
      ({ w.resumeSerial.numberMinutes with resetCause := cause, clockLossFound := false } : State).topSerial :=
    (State.topSerial_congr (s := w) fun ch => by cases ch <;> rfl).symm
  rw [made]
  obtain ⟨e, n, m, rfl⟩ := copies.made
  generalize s.resetTold cause lost = b at told
  obtain ⟨e', n', m', rfl⟩ := told.made
  refine ⟨⟨rfl, rfl, rfl, rfl, rfl, rfl⟩, ⟨rfl, rfl⟩, ⟨rfl, rfl⟩, ⟨rfl, rfl, rfl, rfl, rfl, rfl⟩, rfl, rfl, ⟨rfl, rfl, rfl⟩, fun ch => ?_, rfl, ?_,
    ⟨rfl, rfl, rfl⟩, fun q => ?_⟩
  · cases ch <;> rfl
  · exact serial _
  · cases q <;> rfl

theorem State.resetTold_items : (s.resetTold cause lost).store.items = s.store.items := by
  cases lost <;> rfl

theorem State.awaiting_entries : (s.awaiting cause lost).entries = (s.resetTold cause lost).loadStore.entries := by
  have kept (w : State) : ({ w with resetCause := cause, clockLossFound := false } : State).entries = w.entries := rfl
  rw [State.awaiting, kept, State.numberMinutes_entries]

/-- R178: an entry of a device reset. -/
theorem State.awaiting_entry (i : Fin 16) : EntryLoaded (s.awaiting cause lost).entries i (s.store.items.entryLoaded i) := by
  have loaded := (s.resetTold cause lost).loadStore_entries i
  rw [State.resetTold_items, ← State.awaiting_entries] at loaded
  exact EntryLoaded.of loaded.1 loaded.2

theorem State.awaiting_apart (i j : Fin 16) (hi : i ≠ 0) (hj : j ≠ 0) (hij : i ≠ j) :
    let a := s.awaiting cause lost
    a.entries[i].present = true → a.entries[j].present = true → a.entries[i].overlaps a.entries[j] = false := by
  intro a
  rw [State.awaiting_entries]
  exact State.loadStore_apart _ i j hi hj hij

/-- R18: every installed channel starts FAULTED, every other stays OFF. -/
theorem Channel.reset_started (c : Channel) (item : Option ChannelItem) (n : MinuteOrAbsent) (installed : Bool) :
    (if installed then ({ c.deviceReset.load item with minuteNo := n } : Channel).started false
      else { c.deviceReset.load item with minuteNo := n }) = { Channel.reset with
    state := if installed then .faulted else .off
    minuteNo := n
    fs := (item.map ChannelItem.fs).getD 14000
    calSeq := (item.map ChannelItem.calSeq).getD 0
    uncalibrated := item.isNone
    calRecord := (item.map ChannelItem.record).getD .blank } := by
  cases item <;> cases installed <;> rfl

theorem Channel.load_off (c : Channel) (item : Option ChannelItem) : (c.deviceReset.load item).state = .off := by
  cases item <;> rfl

/-- A device reset of a part that has power and is not held is complete. -/
theorem State.completeReset_done (on : s.supply = true) (high : s.resetN = true) :
    ResetDone s (s.completeReset cause lost) cause lost := by
  have a := s.awaiting_awaits cause lost
  have entry := s.awaiting_entry cause lost
  have apart := s.awaiting_apart cause lost
  have notices := s.completeReset_notices cause lost
  rw [State.completeReset_eq] at notices ⊢
  generalize s.awaiting cause lost = w at a entry apart notices
  obtain ⟨frame, starts, stays, _, _⟩ := w.startChannels_does w.commissioning.installed
  have ports := w.startChannels_ports w.commissioning.installed
  generalize w.startChannels w.commissioning.installed = v at frame starts stays notices ports
  have lostLine (l : Line) : (w.rx l).present = false := by
    obtain ⟨line0, line1⟩ := a.lines
    cases l
    · exact congrArg LineRx.present line0
    · exact congrArg LineRx.present line1
  have off (ch : Ch) : (w.chan ch).state = .off := by
    rw [a.channels]
    exact Channel.load_off _ _
  have mask : v.commissioning = w.commissioning := by rw [frame]
  have chan (ch : Ch) : v.chan ch = if maskHas v.commissioning.installed ch then (w.chan ch).started false else w.chan ch := by
    rw [mask]
    split
    next named => rw [starts ch ⟨named, off ch⟩, lostLine]
    next unnamed => exact stays ch fun does => unnamed does.1
  have record (ch : Ch) : (v.chan ch).calRecord = (w.chan ch).calRecord := by
    rw [chan]
    split <;> rfl
  have serial : v.calUnit.serial = Ch.list.foldl (fun m ch => maxSerial m (v.chan ch).calRecord.serial) 0 := by
    have same : v.calUnit = w.calUnit := by rw [frame]
    rw [same, a.serial]
    exact (State.topSerial_congr record).symm
  obtain ⟨_, greatest, attained⟩ := foldl_maxSerial (fun ch => (v.chan ch).calRecord.serial) Ch.list 0
  rw [← serial] at greatest attained
  refine ⟨?_, ?_, ?_, ?_, ?_, ?_, ?_, ?_, ?_, fun ch => ?_, ⟨?_, fun ch => greatest ch (Ch.mem_list ch), ?_⟩, ?_, fun q => ?_, notices⟩
  case refine_10 =>
    rw [chan, a.channels]
    exact Channel.reset_started _ _ _ _
  case refine_12 => exact attained.imp_right fun ⟨ch, _, same⟩ => ⟨ch, same⟩
  case refine_14 =>
    have left := a.ports q
    rw [ports q]
    generalize w.port q = x at left
    rw [left]
  all_goals rw [frame]
  · obtain ⟨wx, prot, supply, resetN, clock, pending⟩ := a.pins
    exact ⟨wx, prot, supply.trans on, resetN.trans high, clock, pending⟩
  · exact a.lines
  · exact a.table
  · exact a.lists
  · exact a.quiet
  · exact a.store
  · exact a.copies
  · exact entry
  · exact apart
  · exact a.run
  · obtain ⟨c, found, _⟩ := a.recorded
    exact ⟨c, found⟩

end

/-- A reset that is done is done from every state that stands alike in what outlasts it. -/
theorem ResetDone.of {u u' v : State} {cause : ResetCause} {lost : Bool} (h : ResetDone u v cause lost)
    (pins : u.wx = u'.wx ∧ u.prot = u'.prot ∧ u.clock = u'.clock ∧ u.pending = u'.pending) (items : u.store.items = u'.store.items)
    (ports : ∀ q, (u.port q).transaction.abandoned = (u'.port q).transaction.abandoned) : ResetDone u' v cause lost := by
  obtain ⟨wx, prot, clock, pending⟩ := pins
  obtain ⟨pins, lines, table, lists, quiet, store, copies, entries, apart, channels, serial, recorded, port, notices⟩ := h
  rw [wx, prot, clock, pending] at pins
  rw [items] at store copies
  simp only [items] at entries channels
  simp only [clock] at channels
  simp only [ports] at port
  refine ⟨pins, lines, table, lists, quiet, store, copies, entries, apart, channels, serial, recorded, port, ?_⟩
  obtain ⟨enables, flags, unset, reset, clock', store', schedule, channel⟩ := notices
  rw [items] at flags store' schedule
  exact ⟨enables, flags, unset, reset, clock', store', schedule, channel⟩

section

variable (u : State)

theorem State.resetRelease_done (low : u.resetN = false) (on : u.supply = true) :
    ResetDone u u.resetRelease u.resetCause u.clockLossFound := by
  have made : u.resetRelease = { u with resetN := true }.completeReset u.resetCause u.clockLossFound := by
    unfold State.resetRelease
    rw [if_neg (by rw [low]; decide), if_pos on]
  rw [made]
  exact (State.completeReset_done { u with resetN := true } _ _ on rfl).of ⟨rfl, rfl, rfl, rfl⟩ rfl fun q => by cases q <;> rfl

theorem State.resetRelease_high (high : u.resetN = true) : u.resetRelease = u := by
  unfold State.resetRelease
  rw [if_pos high]

theorem State.resetRelease_unpowered (low : u.resetN = false) (off : u.supply = false) : u.resetRelease = { u with resetN := true } := by
  unfold State.resetRelease
  rw [if_neg (by rw [low]; decide), if_neg (by rw [off]; decide)]

/-- The state a power-on begins its reset in. -/
def State.powered (lost : Bool) : State := { u.beginReset with supply := true }.loseClock lost

theorem State.powered_resetN (lost : Bool) : (u.powered lost).resetN = u.resetN := by cases lost <;> rfl

theorem State.powered_supply (lost : Bool) : (u.powered lost).supply = true := by cases lost <;> rfl

theorem State.powered_port (lost : Bool) (q : Port) : (u.powered lost).port q = (u.port q).cleared := by cases lost <;> cases q <;> rfl

theorem State.powerUp_high (lost : Bool) (high : u.resetN = true) : u.powerUp lost = (u.powered lost).completeReset .powerOn lost := by
  delta State.powerUp
  extract_lets w
  exact if_pos ((u.powered_resetN lost).trans high)

theorem State.powerUp_done (lost : Bool) (high : u.resetN = true) :
    ResetDone { u with clock := if lost then ⟨false, 0, 0, 60, 0, 0⟩ else u.clock } (u.powerUp lost) .powerOn lost := by
  rw [u.powerUp_high lost high]
  refine ((u.powered lost).completeReset_done .powerOn lost (u.powered_supply lost) ((u.powered_resetN lost).trans high)).of ?_ ?_ fun q => ?_
  · cases lost <;> exact ⟨rfl, rfl, rfl, rfl⟩
  · cases lost <;> rfl
  · rw [u.powered_port]
    refine (Transaction.abandoned_abandoned _).trans ?_
    cases q <;> rfl

end

/-- Settles O49: each of the three completes a reset. -/
theorem deviceResets : Obligations.DeviceResets := by
  unfold Obligations.DeviceResets
  intro s u
  have resetN : u.resetN = s.resetN := s.settle_resetN
  have supply : u.supply = s.supply := s.settle_supply
  refine ⟨fun hr busy => ?_, fun hr empty idle => ?_, fun high => ?_, fun low on => ?_, fun low off => ?_, fun lost high => ?_⟩
  · exact write_refused (owner := fun _ => deviceResetOwner) rfl hr rfl rfl (check_fails ((Store.busy_iff _).mpr busy))
  · have free : u.store.busy = false := Bool.eq_false_iff.mpr fun busy => ((Store.busy_iff _).mp busy).elim (fun h => h empty) fun h => h idle
    obtain ⟨on, high⟩ := Bool.and_eq_true_iff.mp (s.settle_running.trans hr)
    exact ⟨u.completeReset .command false, write_taken (owner := fun _ => deviceResetOwner) rfl hr rfl rfl (check_passes free),
      u.completeReset_done .command false on high⟩
  · exact congrArg Host.Outcome.next (u.resetRelease_high (resetN.trans high))
  · exact ⟨u.resetRelease, rfl, u.resetRelease_done (resetN.trans low) (supply.trans on)⟩
  · exact congrArg Host.Outcome.next (u.resetRelease_unpowered (resetN.trans low) (supply.trans off))
  · exact ⟨u.powerUp lost, rfl, u.powerUp_done lost (resetN.trans high)⟩

/-! ### The first power-on (O51) -/

theorem Quad.ext_get {α : Type} {q r : Quad α} (h : ∀ ch, q.get ch = r.get ch) : q = r := by
  obtain ⟨a0, a1, a2, a3⟩ := q
  obtain ⟨b0, b1, b2, b3⟩ := r
  obtain rfl : a0 = b0 := h .ch0
  obtain rfl : a1 = b1 := h .ch1
  obtain rfl : a2 = b2 := h .ch2
  obtain rfl : a3 = b3 := h .ch3
  rfl

/-- Two ports' notices are the same where they are, kind by kind. -/
theorem notices_ext {x y : PortState} (h : ∀ k, x.notice k = y.notice k) : x.notices = y.notices := by
  refine Vector.ext fun i hi => ?_
  obtain ⟨k, hk⟩ := NoticeKind.index_surjective ⟨i, hi⟩
  have same := h k
  unfold PortState.notice at same
  simpa [hk] using same

theorem State.SameInputs.running {s t : State} (h : s.SameInputs t) : t.running = s.running := by
  obtain ⟨resetN, supply, _⟩ := h
  rw [State.running, supply, resetN]
  rfl

theorem State.deliver_held {s : State} (held : s.running = false) (b : Boundary) : s.deliver b = s := by
  unfold State.deliver
  rw [if_neg (by rw [held]; decide)]

/-- While the part is not running, nothing that falls due touches the store. -/
theorem State.takeDue_store {s : State} (held : s.running = false) (x : DueStep) : (s.takeDue x).store = s.store := by
  cases x with
  | slice ch =>
    show (s.frameSliceEnd ch).store = _
    unfold State.frameSliceEnd State.sliceDue
    rw [held]
    rfl
  | restored l =>
    show (s.lineRestored l).store = _
    unfold State.lineRestored
    rw [held]
    rfl
  | lapse ch =>
    show (s.lapseResult ch).store = _
    unfold State.lapseResult
    split <;> rfl
  | boundary =>
    show s.emitBoundary.store = _
    unfold State.emitBoundary
    split
    · exact (congrArg State.store (State.deliver_held (s := { s with clock := s.clock.nextMinute }) held _)).trans rfl
    · rfl

theorem State.foldl_takeDue_store : ∀ (l : List DueStep) (t : State), t.running = false → (l.foldl State.takeDue t).store = t.store
  | [], _, _ => rfl
  | x :: l, t, off =>
    (State.foldl_takeDue_store l _ ((State.SameInputs.takeDue t x).running.trans off)).trans (State.takeDue_store off x)

theorem State.inAnyOrder_takeDue_store (s : State) (held : s.running = false) (l : List DueStep) :
    (s.inAnyOrder l State.takeDue).store = s.store := by
  obtain ⟨_, arranged⟩ := s.arrange_perm l
  unfold State.inAnyOrder
  generalize (s.arrange l).2 = t at arranged
  have off : t.running = false := by
    rw [arranged]
    exact held
  rw [State.foldl_takeDue_store _ t off, arranged]

theorem State.settle_store {s : State} (held : s.running = false) (empty : s.store.queue = []) : s.settle.store = s.store := by
  have blocks : s.endBlocks.store = s.store := State.foldl_store _ (fun t ch => by unfold State.blockEnd; split <;> rfl) _ _
  have off : s.endBlocks.running = false :=
    (State.SameInputs.running (State.SameInputs.foldl State.blockEnd (fun t ch => (State.SameFrame.blockEnd t ch).inputs) _ _)).trans held
  have all := s.endBlocks.inAnyOrder_takeDue_store off s.endBlocks.dueSteps
  have same : s.settle.store = (s.endBlocks.inAnyOrder s.endBlocks.dueSteps State.takeDue).store.beginWrite := by
    unfold State.settle
    rfl
  rw [same, all, blocks, Store.beginWrite_none (.inr empty)]

theorem Notice.eq_of {n : Notice} {f e : Bool} {d : Detail} (flag : n.flag = f) (enable : n.enable = e) (detail : n.detail = d) :
    n = ⟨f, e, d⟩ := by
  subst flag enable detail
  rfl

/-- What the notices of the first power-on are. -/
theorem PortState.firstNotices {x : PortState} (enables : ∀ k, (x.notice k).enable = (k == .reset))
    (flags : ∀ k, (x.notice k).flag = true ↔ k = .reset ∨ k = .clock ∨ k = .store)
    (unset : ∀ k, (x.notice k).flag = false → (x.notice k).detail = ⟨.ch0, 0, 0⟩) (reset : (x.notice .reset).detail = ⟨.ch0, 1, 0⟩)
    (clock : (x.notice .clock).detail = ⟨.ch0, 3, 0xFFFFFFFF⟩) (store : (x.notice .store).detail = ⟨.ch0, 2, 21⟩) :
    x.notices = PortState.reset.notices := by
  refine notices_ext fun k => ?_
  by_cases raised : k = .reset ∨ k = .clock ∨ k = .store
  · have flag := (flags k).mpr raised
    have enable := enables k
    rcases raised with rfl | rfl | rfl
    · exact Notice.eq_of flag enable reset
    · exact Notice.eq_of flag enable clock
    · exact Notice.eq_of flag enable store
  · have flag : (x.notice k).flag = false := Bool.eq_false_iff.mpr fun e => raised ((flags k).mp e)
    refine (Notice.eq_of flag (enables k) (unset k flag)).trans ?_
    cases k
    case reset => exact absurd (.inl rfl) raised
    case clock => exact absurd (.inr (.inl rfl)) raised
    case store => exact absurd (.inr (.inr rfl)) raised
    all_goals rfl

/-- The items that have never been written. -/
theorem delivered_unmarked (n : Nat) : StoredItems.delivered.Unmarked n ↔ n = 18 ∨ n = 19 ∨ n = 20 ∨ n = 21 := by
  rw [← StoredItems.mem_incomplete, show StoredItems.delivered.incomplete = [18, 19, 20, 21] by decide]
  simp

theorem delivered_entryLoaded (i : Fin 16) : StoredItems.delivered.entryLoaded i = deliveredEntries[i] := by
  revert i
  decide

theorem delivered_kept {final : Vector Entry 16} {i : Fin 16} (h : EntryLoaded final i deliveredEntries[i]) :
    final[i] = deliveredEntries[i] := by
  obtain ⟨either, zero, _⟩ := h
  by_cases first : i = 0
  · exact zero first
  · have absent : ∀ i : Fin 16, i ≠ 0 → ({ deliveredEntries[i] with present := false } : Entry) = deliveredEntries[i] := by decide
    rcases either with same | gone
    · exact same
    · exact gone.trans (absent i first)

theorem State.startChannels_none (s : State) : s.startChannels 0 = s := by
  have empty : maskChannels 0 = [] := by decide
  rw [State.startChannels, empty]
  rfl

theorem State.topSerial_blank {s : State} (h : ∀ ch, (s.chan ch).calRecord = .blank) : s.topSerial = 0 := by
  simp only [State.topSerial, h]
  decide

/-- The state of the first power-on, from what its reset leaves. -/
theorem State.reset_of {u a : State} (store : u.store = ⟨.delivered, [], none⟩) (on : u.supply = true) (high : u.resetN = true)
    (clock : u.clock = .lost) (found : u.Awaits .powerOn a)
    (entries : ∀ i, EntryLoaded a.entries i (u.store.items.entryLoaded i)) (notices : ResetNotices u a .powerOn true) :
    a = { State.reset with
      site := { State.reset.site with transaction := u.site.transaction.abandoned }
      compliance := { State.reset.compliance with transaction := u.compliance.transaction.abandoned }
      wx := u.wx, prot := u.prot, orderUses := u.orderUses, pending := u.pending } := by
  have items : u.store.items = .delivered := by rw [store]
  have mask : a.commissioning = .blank := by
    obtain ⟨_, _, commissioning⟩ := found.copies
    rw [commissioning, items]
    rfl
  have entry (i : Fin 16) : a.entries[i] = deliveredEntries[i] := by
    have loaded := entries i
    rw [items, delivered_entryLoaded] at loaded
    exact delivered_kept loaded
  have chan (ch : Ch) : a.chan ch = .reset := by
    rw [found.channels, items, State.minuteNow, clock]
    cases ch <;> rfl
  have serial : a.calUnit = ⟨none, 0⟩ := by
    have top := found.serial.trans (State.topSerial_blank fun ch => by rw [chan]; rfl)
    rw [← found.run, ← top]
  have unmarked (n : Nat) : u.store.items.Unmarked n ↔ n = 18 ∨ n = 19 ∨ n = 20 ∨ n = 21 := by rw [items, delivered_unmarked]
  have uninstalled : ¬ ∃ ch, maskHas a.commissioning.installed ch = true := by
    rw [mask]
    rintro ⟨ch, has⟩
    cases ch <;> exact absurd has (by decide)
  have kept : ¬ ∃ i : Fin 16, a.entries[i] ≠ u.store.items.entryLoaded i := by
    rintro ⟨i, differs⟩
    rw [items, delivered_entryLoaded] at differs
    exact differs (entry i)
  have port (q : Port) : a.port q = { PortState.reset with transaction := (u.port q).transaction.abandoned } := by
    have told : (a.port q).notices = PortState.reset.notices := by
      refine PortState.firstNotices (notices.enables q) (fun k => ?_) (notices.unset q) (notices.reset q) (notices.clock rfl q) ?_
      · rw [notices.flags]
        have some' : ∃ n, u.store.items.Unmarked n := ⟨18, (unmarked 18).mpr (.inl rfl)⟩
        simp only [uninstalled, kept, some', and_false, and_true, false_or]
      · exact notices.store 21 ((unmarked 21).mpr (by simp)) (fun m h => by rcases (unmarked m).mp h with e | e | e | e <;> omega) q
    rw [found.ports q, told]
    rfl
  have channels : a.channels = .all .reset := Quad.ext_get fun ch => (chan ch).trans (by cases ch <;> rfl)
  have table : a.entries = deliveredEntries := Vector.ext fun i hi => entry ⟨i, hi⟩
  obtain ⟨wx, prot, supply, resetN, clock', pending⟩ := found.pins
  obtain ⟨line0, line1⟩ := found.lines
  obtain ⟨slots, proposals⟩ := found.table
  obtain ⟨events, eventSeq, minutes, minuteSeq, periods, periodSeq⟩ := found.lists
  obtain ⟨header, protection, _⟩ := found.copies
  obtain ⟨cause, loss, uses⟩ := found.recorded
  have quiet := found.quiet
  have stored : a.store = ⟨.delivered, [], none⟩ := by rw [found.store, items]
  have header' : a.header = .factory := by rw [header, items]; rfl
  have protection' : a.protection = ⟨0, .openMode⟩ := by rw [protection, items]; rfl
  have site := port .site
  have compliance := port .compliance
  cases a
  exact (State.mk.injEq ..).mpr ⟨channels, line0, line1, clock'.trans clock, table, header', protection', slots, proposals, serial, events, eventSeq,
    minutes, minuteSeq, periods, periodSeq, site, compliance, quiet, stored, mask, wx, prot, resetN.trans high, supply.trans on, cause, loss,
    uses, pending⟩

/-- The first power-on of a part that has settled as delivered. -/
theorem State.firstPowerUp (u : State) (store : u.store = ⟨.delivered, [], none⟩) (high : u.resetN = true) :
    u.powerUp true = { State.reset with
      site := { State.reset.site with transaction := u.site.transaction.abandoned }
      compliance := { State.reset.compliance with transaction := u.compliance.transaction.abandoned }
      wx := u.wx, prot := u.prot, orderUses := u.orderUses, pending := u.pending } := by
  have up := u.powerUp_high true high
  have begun : (u.powered true).store = ⟨.delivered, [], none⟩ := by
    show u.store.cutShort = _
    rw [store]
    rfl
  have notices := (u.powered true).completeReset_notices .powerOn true
  rw [State.completeReset_eq] at up notices
  have found := (u.powered true).awaiting_awaits .powerOn true
  have entries := (u.powered true).awaiting_entry .powerOn true
  generalize (u.powered true).awaiting .powerOn true = a at up notices found entries
  have mask : a.commissioning.installed = 0 := by
    obtain ⟨_, _, commissioning⟩ := found.copies
    rw [commissioning, begun]
    rfl
  rw [mask, State.startChannels_none] at up notices
  rw [up, State.reset_of begun rfl high rfl found entries notices]
  have site : (u.powered true).site.transaction.abandoned = u.site.transaction.abandoned := Transaction.abandoned_abandoned _
  have compliance : (u.powered true).compliance.transaction.abandoned = u.compliance.transaction.abandoned := Transaction.abandoned_abandoned _
  rw [site, compliance]
  rfl

/-- Settles O51. -/
theorem firstPowerOn : Obligations.FirstPowerOn := by
  unfold Obligations.FirstPowerOn
  intro s off high store
  have held : s.running = false := by rw [State.running, off]; rfl
  have settled : s.settle.store = ⟨.delivered, [], none⟩ := (State.settle_store held (by rw [store])).trans store
  refine congrArg Host.Outcome.next ?_
  exact s.settle.firstPowerUp settled (s.settle_resetN.trans high)

/-! ### The reset state (O56) -/

theorem State.reset_chan (ch : Ch) : State.reset.chan ch = .reset := by cases ch <;> rfl

theorem State.reset_recordsOk : State.reset.HistoryOk ∧ State.reset.EventsOk ∧ State.reset.CursorsOk := by
  refine ⟨⟨rfl, rfl⟩, ⟨by decide, .nil, nofun, nofun, fun ch e some' => ?_⟩, fun p => ?_⟩
  · rw [State.reset_chan] at some'
    exact nomatch some'
  · cases p <;> exact ⟨le_rfl, le_rfl, le_rfl⟩

theorem delivered_sound (i : Fin 16) : (StoreWrite.entry i deliveredEntries[i]).sound := by
  have all : ∀ i : Fin 16, (i = 0 → deliveredEntries[i].present = true) ∧
      (deliveredEntries[i].present = true → deliveredEntries[i].inRange = true) := by decide
  exact all i

theorem delivered_absent : ∀ i : Fin 16, i ≠ 0 → deliveredEntries[i].present = false := by decide

theorem delivered_stored : ∀ i : Fin 16, StoredItems.delivered.entries[i] = some deliveredEntries[i] := by decide

theorem StoredItems.delivered_sound : StoredItems.delivered.Sound where
  entries i e some' := by
    rw [delivered_stored] at some'
    exact Option.some.inj some' ▸ Machine.delivered_sound i
  header h some' := Option.some.inj some' ▸ (by decide : Header.factory.inRange = true)
  protection p some' := Option.some.inj some' ▸ Nat.zero_le 16
  channels ch c some' := by cases ch <;> exact nomatch some'

theorem State.reset_settingsOk : State.reset.SettingsOk ∧ State.reset.SlotsOk ∧ State.reset.QueueOk := by
  have chan := State.reset_chan
  have triggers : (4000 : Int) ≤ Channel.reset.trigger ∧ (Channel.reset.trigger : Int) ≤ 14000 ∧ (0 : Int) ≤ Channel.reset.hysteresis ∧
      (Channel.reset.hysteresis : Int) ≤ 1000 := by decide
  have fs : (10000 : Int) ≤ Channel.reset.fs ∧ (Channel.reset.fs : Int) ≤ 15000 := by decide
  refine ⟨⟨delivered_sound, fun i j hi _ _ present => ?_, by decide, Nat.zero_le 16, fun ch => ?_, fun ch => ?_, fun ch fs some' => ?_,
    fun ch r some' => ?_, StoredItems.delivered_sound, fun _ mem => absurd mem List.not_mem_nil, fun w some' => absurd some'.symm (Option.some_ne_none w)⟩, ?_,
    ⟨List.nodup_nil, Nat.zero_le 4, fun w some' => absurd some'.symm (Option.some_ne_none w)⟩⟩
  case refine_6 =>
    intro i j _ granted
    have slot : State.reset.slots[i] = .reset := Vector.getElem_replicate ..
    rw [slot] at granted
    exact absurd granted (by decide)
  · exact absurd ((delivered_absent i hi).symm.trans present) (by decide)
  · rw [chan]
    exact triggers
  · rw [chan]
    exact fs
  all_goals
    rw [chan] at some'
    exact nomatch some'

theorem State.reset_countersOk : State.reset.CountersOk := by
  have chan := State.reset_chan
  refine ⟨fun l => ?_, fun ch running => ?_, fun ch => ?_, fun ch => ?_, fun ch => ?_, fun ch => ?_, ?_, fun ch r some' => ?_, fun ch e some' => ?_⟩
  · cases l <;> exact ⟨nofun, by decide, by decide⟩
  · exact absurd (by rw [chan]; rfl) running
  · rw [chan]
    exact ⟨by decide, by decide⟩
  · rw [chan]
    exact ⟨rfl, by decide⟩
  · rw [chan]
    exact ⟨by decide, by decide⟩
  · rw [chan]
    exact ⟨by decide, by decide⟩
  · exact ⟨by decide, by decide, by decide, by decide⟩
  · rw [chan] at some'
    exact nomatch some'
  · rw [chan] at some'
    exact nomatch some'

theorem State.reset_minutesOk : State.reset.AccountsOk ∧ State.reset.MinutesOk := by
  have chan := State.reset_chan
  refine ⟨⟨fun ch p some' => ?_, fun ch d some' => ?_⟩, ⟨fun ch _ => ?_, fun ch _ => ?_, fun ch w some' => ?_, fun ch d some' => ?_, fun ch p some' => ?_⟩⟩
  case refine_3 => rw [chan]; rfl
  case refine_4 => rw [chan]; rfl
  all_goals
    rw [chan] at some'
    exact nomatch some'

theorem State.reset_calibrationOk : State.reset.CalibrationOk := by
  have chan := State.reset_chan
  refine ⟨fun ch _ => ?_, fun ch w some' => ?_, fun ch => ?_, nofun, fun ch r some' => ?_⟩
  · rw [chan]
    rfl
  · rw [chan] at some'
    exact nomatch some'
  · rw [chan]
    rfl
  · rw [chan] at some'
    exact nomatch some'

/-- Settles O56. -/
theorem resetMeetsInvariants : Obligations.ResetMeetsInvariants := by
  obtain ⟨history, events, cursors⟩ := State.reset_recordsOk
  obtain ⟨settings, slots, queue⟩ := State.reset_settingsOk
  obtain ⟨accounts, minutes⟩ := State.reset_minutesOk
  exact ⟨history, events, cursors, settings, slots, queue, State.reset_countersOk, accounts, minutes, State.reset_calibrationOk, rfl⟩

end Sys2Proof.Machine


/-! What one audio frame and one block end do to the engines (O24, O25). -/

namespace Sys2Proof.Machine

/-! ### Blocks -/

/-- A quotient by a positive number is no further from zero than what it divides. -/
theorem follow_between (d v b : Nat) :
    (follow d v b : Int) = v + Int.tdiv ((b : Int) - v) d ∧ min v b ≤ follow d v b ∧ follow d v b ≤ max v b := by
  have key : min (v : Int) b ≤ v + Int.tdiv ((b : Int) - v) d ∧ (v : Int) + Int.tdiv ((b : Int) - v) d ≤ max (v : Int) b := by
    rcases le_total v b with le | le
    · obtain ⟨k, rfl⟩ := Nat.exists_eq_add_of_le le
      have difference : ((v + k : Nat) : Int) - v = (k : Int) := by omega
      have low : (0 : Int) ≤ (k : Int) / d := Int.natCast_div k d ▸ Int.natCast_nonneg _
      have high : (k : Int) / d ≤ k := Int.natCast_div k d ▸ Int.ofNat_le.mpr (Nat.div_le_self k d)
      rw [difference, ← Int.ofNat_tdiv]
      constructor <;> push_cast <;> omega
    · obtain ⟨k, rfl⟩ := Nat.exists_eq_add_of_le le
      have difference : (b : Int) - (b + k : Nat) = -(k : Int) := by omega
      have low : (0 : Int) ≤ (k : Int) / d := Int.natCast_div k d ▸ Int.natCast_nonneg _
      have high : (k : Int) / d ≤ k := Int.natCast_div k d ▸ Int.ofNat_le.mpr (Nat.div_le_self k d)
      rw [difference, Int.neg_tdiv, ← Int.ofNat_tdiv]
      constructor <;> push_cast <;> omega
  unfold follow
  omega

theorem raiseTo_eq (o : Option Nat) (v : Nat) : raiseTo o v = some (max (o.getD v) v) := by
  cases o with
  | none => simp [raiseTo]
  | some m => rfl

theorem lowerTo_eq (o : Option Nat) (v : Nat) : lowerTo o v = some (min (o.getD v) v) := by
  cases o with
  | none => simp [lowerTo]
  | some m => rfl

theorem State.blockEnd_few {s : State} {ch : Ch} (short : (s.chan ch).engine.slice.blockCount < 48) : s.blockEnd ch = s := by
  simp [State.blockEnd, Channel.blockDue, Nat.not_le.mpr short]

theorem State.blockEnd_full {s : State} {ch : Ch} (full : 48 ≤ (s.chan ch).engine.slice.blockCount) :
    s.blockEnd ch = s.setChan ch { s.chan ch with engine := (s.chan ch).engine.blockEnd } := by
  simp [State.blockEnd, Channel.blockDue, full]

/-- Settles O25: `follow` moves a running value by a quotient no greater than the difference. -/
theorem blocksEnd : Obligations.BlocksEnd := by
  intro ch s
  refine ⟨fun short => congrArg _ (State.blockEnd_few short), fun full => ?_⟩
  obtain ⟨fast, fastLow, fastHigh⟩ := follow_between 125 (s.chan ch).engine.f (s.chan ch).engine.slice.blockMean
  obtain ⟨slow, slowLow, slowHigh⟩ := follow_between 1000 (s.chan ch).engine.s (s.chan ch).engine.slice.blockMean
  refine ⟨_, _, (congrArg _ (State.blockEnd_full full)).trans ?_, fast, slow, fastLow, fastHigh, slowLow, slowHigh⟩
  (simp only [Engine.blockEnd, raiseTo_eq, lowerTo_eq]; rfl)

/-! ### Frames -/

/-- R21: the output of a section, rounded and saturated. -/
theorem saturate_roundSum (k : Coefficients) (q : Section) (x : Int) :
    saturate (roundSum (q.exactSum k x)) = max (-2 ^ 23) (min (2 ^ 23 - 1) ((q.exactSum k x + 2 ^ 21) / 2 ^ 22)) := by
  rw [saturate, clampTo_eq (by decide), roundSum]

theorem Section.saturates_iff (k : Coefficients) (q : Section) (x : Int) :
    (q.step k x).2 = true ↔
      (q.exactSum k x + 2 ^ 21) / 2 ^ 22 < -2 ^ 23 ∨ 2 ^ 23 ≤ (q.exactSum k x + 2 ^ 21) / 2 ^ 22 := by
  show (saturate (roundSum (q.exactSum k x)) != roundSum (q.exactSum k x)) = true ↔ _
  rw [bne_iff_ne, saturate_roundSum, roundSum]
  generalize (q.exactSum k x + 2 ^ 21) / 2 ^ 22 = r
  omega

theorem isExtreme_iff (x : Int) : isExtreme x = true ↔ x = -2 ^ 23 ∨ x = 2 ^ 23 - 1 := by
  simp [isExtreme]

/-- What R21 to R24 make of one sample, in terms of the sections' outputs. -/
theorem Engine.useSample_does {out : Coefficients → Section → Int → Int} (outputs : out = fun k q x => (q.step k x).1.y1)
    {sq : Int → Nat} (squares : sq = square) (e : Engine) (sample : Sample) :
    let x := sample.toInt
    let q := e.filters
    let y1 := out coeffsA1 q.a1 x
    let y2 := out coeffsA2 q.a2 y1
    let yA := out coeffsA3 q.a3 y2
    let z1 := out coeffsA1 q.c1 x
    let yC := out coeffsC2 q.c2 z1
    e.useSample sample = { e with
      filters := ⟨⟨x, q.a1.x1, y1, q.a1.y1⟩, ⟨y1, q.a2.x1, y2, q.a2.y1⟩, ⟨y2, q.a3.x1, yA, q.a3.y1⟩, ⟨x, q.c1.x1, z1, q.c1.y1⟩,
        ⟨z1, q.c2.x1, yC, q.c2.y1⟩⟩
      slice := { e.slice with
        frames := e.slice.frames + 1, blockCount := e.slice.blockCount + 1, blockSum := e.slice.blockSum + sq yA
        sumA := e.slice.sumA + sq yA, sumC := e.slice.sumC + sq yC, sumZ := e.slice.sumZ + sq x
        causes := (e.useSample sample).slice.causes } } := by
  subst outputs squares
  rfl

theorem Engine.useSample_overload (e : Engine) (sample : Sample) :
    (e.useSample sample).slice.causes.overload = true ↔
      e.slice.causes.overload = true ∨ sample.toInt = -2 ^ 23 ∨ sample.toInt = 2 ^ 23 - 1 := by
  rw [← isExtreme_iff, ← Bool.or_eq_true]
  rfl

theorem Engine.useSample_saturation {out : Coefficients → Section → Int → Int} (outputs : out = fun k q x => (q.step k x).1.y1)
    {spills : Coefficients → Section → Int → Prop} (spilt : ∀ k q x, (q.step k x).2 = true ↔ spills k q x)
    (e : Engine) (sample : Sample) :
    let x := sample.toInt
    let q := e.filters
    let y1 := out coeffsA1 q.a1 x
    let y2 := out coeffsA2 q.a2 y1
    let z1 := out coeffsA1 q.c1 x
    (e.useSample sample).slice.causes.saturation = true ↔ e.slice.causes.saturation = true ∨ spills coeffsA1 q.a1 x ∨
      spills coeffsA2 q.a2 y1 ∨ spills coeffsA3 q.a3 y2 ∨ spills coeffsA1 q.c1 x ∨ spills coeffsC2 q.c2 z1 := by
  subst outputs
  have all (a b c d e f : Bool) : (a || (b || c || d || e || f)) = true ↔ a = true ∨ b = true ∨ c = true ∨ d = true ∨ e = true ∨ f = true := by
    simp only [Bool.or_eq_true, or_assoc]
  simp only [← spilt]
  exact all ..

/-- The half of a line's frame that is a channel's sample. -/
def sampleOf (ch : Ch) (lower upper : Sample) : Sample := if ch = .ch0 ∨ ch = .ch2 then lower else upper

/-- What a frame leaves of a channel whose line is `l`, or of another one. -/
def Channel.framed (c : Channel) (used : Bool) (x : Sample) : Channel :=
  if used && c.state != .off then { c with engine := c.engine.useSample x } else c

theorem State.takeFrame_does {s : State} {l : Line} (present : (s.rx l).present = true) (lower upper : Sample) :
    s.takeFrame l lower upper = { s.setRx l { s.rx l with pause := 0 } with channels := (s.takeFrame l lower upper).channels } ∧
      ∀ ch, (s.takeFrame l lower upper).chan ch = (s.chan ch).framed (ch.line == l) (sampleOf ch lower upper) := by
  have used (u : State) (ch : Ch) (x : Sample) : u.useFrame ch x = u.setChan ch ((u.chan ch).framed true x) := by
    simp only [State.useFrame, Channel.framed]
    cases h : (u.chan ch).state <;> simp [State.setChan_chan]
  have two (c d : Ch) (lists : l.channels = [c, d]) : s.takeFrame l lower upper =
      ((s.setRx l { s.rx l with pause := 0 }).useFrame c lower).useFrame d upper := by
    rw [State.takeFrame, if_pos present, lists]
    rfl
  cases l with
  | line0 =>
    rw [two .ch0 .ch1 rfl, used, used]
    refine ⟨rfl, fun ch => ?_⟩
    cases ch <;> rfl
  | line1 =>
    rw [two .ch2 .ch3 rfl, used, used]
    refine ⟨rfl, fun ch => ?_⟩
    cases ch <;> rfl

/-- Settles O24: each channel of the line uses its half of the frame, section by section. -/
theorem framesTaken : Obligations.FramesTaken := by
  intro l lower upper s
  refine ⟨coefficients_formed, rfl, fun running => ?_⟩
  intro u sq sum out spills
  have outputs : out = fun k q x => (q.step k x).1.y1 :=
    funext fun k => funext fun q => funext fun x => (saturate_roundSum k q x).symm
  have taken : exec (.audioFrame l lower upper) s = .next (s.settle.takeFrame l lower upper) :=
    congrArg _ (if_pos running)
  refine ⟨fun lost => ?_, fun present => ?_⟩
  · rw [taken, State.takeFrame, if_neg (Bool.eq_false_iff.mp lost), lost]
  · obtain ⟨kept, channels⟩ := State.takeFrame_does present lower upper
    refine ⟨_, taken, kept, fun ch spared => ?_, fun ch fed running => ?_⟩
    · rw [channels, Channel.framed, if_neg]
      rcases spared with other | off
      · simp [other]
      · simp [off]
    · have sample : (sampleOf ch lower upper).toInt = (if ch = .ch0 ∨ ch = .ch2 then lower else upper).toInt := rfl
      have does := Engine.useSample_does outputs (sq := sq) rfl (u.chan ch).engine (sampleOf ch lower upper)
      exact ⟨((u.chan ch).engine.useSample (sampleOf ch lower upper)).slice.causes,
        (channels ch).trans ((if_pos (by simp [fed, running])).trans (congrArg (fun e => { u.chan ch with engine := e }) does)),
        rfl, rfl, Engine.useSample_overload _ _, Engine.useSample_saturation outputs Section.saturates_iff _ _⟩
end Sys2Proof.Machine


/-! The exact conversions against their real formulas (O55). -/

namespace Sys2Proof.Machine

/-! ### Bisection -/

theorem greatest_spec (test : Nat → Bool) (bits acc : Nat) :
    acc ≤ greatest test bits acc ∧ greatest test bits acc < acc + 2 ^ bits ∧
      (greatest test bits acc = acc ∨ test (greatest test bits acc) = true) ∧
      (greatest test bits acc + 1 = acc + 2 ^ bits ∨ test (greatest test bits acc + 1) = false) := by
  induction bits generalizing acc with
  | zero => simp [greatest]
  | succ b ih =>
    have half : 2 ^ (b + 1) = 2 ^ b + 2 ^ b := by omega
    rw [greatest]
    split
    case isTrue passes =>
      obtain ⟨low, high, at_, above⟩ := ih (acc + 2 ^ b)
      refine ⟨by omega, by omega, .inr ?_, above.imp_left (by omega)⟩
      rcases at_ with same | passed
      · rw [same]; exact passes
      · exact passed
    case isFalse fails =>
      obtain ⟨low, high, at_, above⟩ := ih acc
      refine ⟨low, by omega, at_, .inr ?_⟩
      rcases above with last | failed
      · rw [last]; exact Bool.eq_false_iff.mpr fails
      · exact failed

/-! ### The logarithm -/

theorem le_iff_logb_le {x y : ℝ} (x_pos : 0 < x) (y_pos : 0 < y) : x ≤ y ↔ Real.logb 10 x ≤ Real.logb 10 y :=
  (Real.logb_le_logb (by norm_num) x_pos y_pos).symm

theorem logb_ten_pow (e : Nat) : Real.logb 10 ((10 : ℝ) ^ e) = e := by
  rw [Real.logb_pow, Real.logb_self_eq_one (by norm_num), mul_one]

theorem logAtLeast_iff {num den : Nat} (num_pos : 0 < num) (den_pos : 0 < den) (k : Int) :
    logAtLeast num den k = true ↔ (k : ℝ) - 1 / 2 ≤ 1000 * Real.logb 10 ((num : ℝ) / den) := by
  have num_real : (0 : ℝ) < num := by exact_mod_cast num_pos
  have den_real : (0 : ℝ) < den := by exact_mod_cast den_pos
  have ten (e : Nat) : (0 : ℝ) < 10 ^ e := by positivity
  rw [Real.logb_div num_real.ne' den_real.ne']
  unfold logAtLeast
  split
  case h_1 e odd =>
    have exponent : 2 * (k : ℝ) - 1 = e := by exact_mod_cast odd
    have reals : 10 ^ e * den ^ 2000 ≤ num ^ 2000 ↔ (10 : ℝ) ^ e * (den : ℝ) ^ 2000 ≤ (num : ℝ) ^ 2000 := by norm_cast
    rw [decide_eq_true_iff, reals, le_iff_logb_le (by positivity) (by positivity),
      Real.logb_mul (ten e).ne' (by positivity), logb_ten_pow, Real.logb_pow, Real.logb_pow, ← exponent]
    push_cast
    constructor <;> intro h <;> linarith
  case h_2 e odd =>
    have exponent : 2 * (k : ℝ) - 1 = -(e + 1 : Nat) := by exact_mod_cast odd
    have reals : den ^ 2000 ≤ num ^ 2000 * 10 ^ (e + 1) ↔ (den : ℝ) ^ 2000 ≤ (num : ℝ) ^ 2000 * (10 : ℝ) ^ (e + 1) := by norm_cast
    rw [decide_eq_true_iff, reals, le_iff_logb_le (by positivity) (by positivity),
      Real.logb_mul (by positivity) (ten (e + 1)).ne', logb_ten_pow, Real.logb_pow, Real.logb_pow]
    push_cast at exponent ⊢
    constructor <;> intro h <;> linarith

/-- `roundLog` is the nearest integer, held within −10000 and 6383. -/
theorem roundLog_spec {num den : Nat} (num_pos : 0 < num) (den_pos : 0 < den) :
    -10000 ≤ roundLog num den ∧ roundLog num den ≤ 6383 ∧
      (roundLog num den = -10000 ∨ (roundLog num den : ℝ) - 1 / 2 ≤ 1000 * Real.logb 10 ((num : ℝ) / den)) ∧
      (roundLog num den = 6383 ∨ 1000 * Real.logb 10 ((num : ℝ) / den) < (roundLog num den : ℝ) + 1 / 2) := by
  obtain ⟨-, high, at_, above⟩ := greatest_spec (fun k => logAtLeast num den ((k : Int) - 10000)) 14 0
  unfold roundLog
  generalize greatest (fun k => logAtLeast num den ((k : Int) - 10000)) 14 0 = g at high at_ above
  refine ⟨by omega, by omega, at_.imp (by omega) (logAtLeast_iff num_pos den_pos _).mp, above.imp (by omega) fun failed => ?_⟩
  have beyond := mt (logAtLeast_iff num_pos den_pos _).mpr (Bool.eq_false_iff.mp failed)
  push_cast at beyond ⊢
  linarith

theorem roundLog_near {num den : Nat} (num_pos : 0 < num) (den_pos : 0 < den)
    (low : -10000 ≤ 1000 * Real.logb 10 ((num : ℝ) / den)) (high : 1000 * Real.logb 10 ((num : ℝ) / den) ≤ 6383) :
    |(roundLog num den : ℝ) - 1000 * Real.logb 10 ((num : ℝ) / den)| ≤ 1 / 2 := by
  obtain ⟨-, -, below, above⟩ := roundLog_spec num_pos den_pos
  rw [abs_le]
  constructor
  · rcases above with top | above
    · rw [top]; push_cast; linarith
    · linarith
  · rcases below with bottom | below
    · rw [bottom]; push_cast; linarith
    · linarith

theorem roundLog_eq {num den : Nat} (num_pos : 0 < num) (den_pos : 0 < den) {k : Int} (low : -10000 ≤ k) (high : k ≤ 6383)
    (below : (k : ℝ) - 1 / 2 ≤ 1000 * Real.logb 10 ((num : ℝ) / den))
    (above : 1000 * Real.logb 10 ((num : ℝ) / den) < (k : ℝ) + 1 / 2) : roundLog num den = k := by
  obtain ⟨least, most, under, beyond⟩ := roundLog_spec num_pos den_pos
  generalize roundLog num den = r at least most under beyond
  have le : r ≤ k := by
    rcases under with bottom | under
    · omega
    · have : (r : ℝ) < k + 1 := by linarith
      exact Int.lt_add_one_iff.mp (by exact_mod_cast this)
  have ge : k ≤ r := by
    rcases beyond with top | beyond
    · omega
    · have : (k : ℝ) < r + 1 := by linarith
      exact Int.lt_add_one_iff.mp (by exact_mod_cast this)
  omega

/-- A power of a ratio bounds its logarithm. -/
theorem logb_le_of_pow {x : ℝ} (pos : 0 < x) {p q : Nat} (le : x ^ q ≤ 10 ^ p) : q * Real.logb 10 x ≤ p := by
  have := (le_iff_logb_le (by positivity) (by positivity)).mp le
  rwa [Real.logb_pow, logb_ten_pow] at this

theorem le_logb_of_pow {x : ℝ} (pos : 0 < x) {p q : Nat} (le : 10 ^ p ≤ x ^ q) : p ≤ q * Real.logb 10 x := by
  have := (le_iff_logb_le (by positivity) (by positivity)).mp le
  rwa [logb_ten_pow, Real.logb_pow] at this

/-- The durations of an event lie within the range of `roundLog` (R133). -/
theorem logb_duration_bounds {n : Nat} (one : 1 ≤ n) (most : n ≤ 28800) :
    -10000 ≤ 1000 * Real.logb 10 ((n : ℝ) / 8) ∧ 1000 * Real.logb 10 ((n : ℝ) / 8) ≤ 6383 := by
  have one_real : (1 : ℝ) ≤ n := by exact_mod_cast one
  have most_real : (n : ℝ) ≤ 28800 := by exact_mod_cast most
  have upper := logb_le_of_pow (x := (n : ℝ) / 8) (p := 4) (q := 1) (by positivity) (by rw [pow_one, div_le_iff₀ (by norm_num)]; linarith)
  have lower := logb_le_of_pow (x := 8) (p := 1) (q := 1) (by norm_num) (by norm_num)
  have rise := (le_iff_logb_le (x := (1 : ℝ) / 8) (y := n / 8) (by norm_num) (by positivity)).mp (by gcongr)
  rw [Real.logb_div one_ne_zero (by norm_num), Real.logb_one] at rise
  push_cast at upper lower
  constructor <;> linarith

theorem roundLog_one_eight : roundLog 1 8 = -903 := by
  have upper := logb_le_of_pow (x := 8) (p := 28) (q := 31) (by norm_num) (by norm_num)
  have lower := le_logb_of_pow (x := 8) (p := 65) (q := 72) (by norm_num) (by norm_num)
  have ratio : Real.logb 10 (((1 : Nat) : ℝ) / (8 : Nat)) = -Real.logb 10 8 := by
    rw [Real.logb_div (by norm_num) (by norm_num)]
    simp
  push_cast at upper lower
  apply roundLog_eq (by omega) (by omega) (by omega) (by omega) <;> rw [ratio] <;> push_cast <;> linarith

theorem roundLog_eight_eight : roundLog 8 8 = 0 := by
  have ratio : Real.logb 10 (((8 : Nat) : ℝ) / (8 : Nat)) = 0 := by norm_num
  apply roundLog_eq (by omega) (by omega) (by omega) (by omega) <;> rw [ratio] <;> norm_num

theorem roundLog_longest : roundLog 28800 8 = 3556 := by
  have upper := logb_le_of_pow (x := 36) (p := 193) (q := 124) (by norm_num) (by norm_num)
  have split : Real.logb 10 3600 = 2 + Real.logb 10 36 := by
    have hundred := logb_ten_pow 2
    rw [Nat.cast_ofNat] at hundred
    rw [← hundred, ← Real.logb_mul (by norm_num) (by norm_num)]
    norm_num
  have lower := le_logb_of_pow (x := 3600) (p := 32) (q := 9) (by norm_num) (by norm_num)
  have ratio : Real.logb 10 (((28800 : Nat) : ℝ) / (8 : Nat)) = Real.logb 10 3600 := by norm_num
  rw [split] at lower ratio
  push_cast at upper lower
  apply roundLog_eq (by omega) (by omega) (by omega) (by omega) <;> rw [ratio] <;> push_cast <;> linarith

/-! ### The conversion of a raw sum (R28) -/

theorem ratio_below_floor_iff {sum n : Nat} (n_pos : 0 < n) :
    (sum : ℝ) / (n * 2 ^ 46) < (10 : ℝ) ^ (-10 : ℝ) ↔ sum * 10 ^ 10 < n * 2 ^ 46 := by
  have n_real : (0 : ℝ) < n := by exact_mod_cast n_pos
  have floor : (10 : ℝ) ^ (-10 : ℝ) = 1 / 10 ^ 10 := by
    rw [Real.rpow_neg (by norm_num), one_div]
    norm_num
  rw [floor, div_lt_div_iff₀ (by positivity) (by positivity), one_mul]
  exact_mod_cast Iff.rfl

theorem convert_floored {fs : Level} {sum n : Nat} (low : sum * 10 ^ 10 < n * 2 ^ 46) : convert fs sum n = ⟨fs - 10000, true⟩ :=
  if_pos low

theorem convert_formed {fs : Level} {sum n : Nat} (enough : ¬ sum * 10 ^ 10 < n * 2 ^ 46) :
    convert fs sum n = ⟨fs + roundLog sum (n * 2 ^ 46), false⟩ := if_neg enough

theorem logb_ratio_bounds {sum den : Nat} (sum_pos : 0 < sum) (most : sum ≤ den) (enough : den ≤ sum * 10 ^ 10) :
    -10000 ≤ 1000 * Real.logb 10 ((sum : ℝ) / den) ∧ 1000 * Real.logb 10 ((sum : ℝ) / den) ≤ 0 := by
  have sum_real : (0 : ℝ) < sum := Nat.cast_pos.mpr sum_pos
  have den_real : (0 : ℝ) < den := Nat.cast_pos.mpr (by omega)
  have below : (sum : ℝ) ≤ den := Nat.cast_le.mpr most
  have above : (den : ℝ) ≤ sum * 10 ^ 10 := by exact_mod_cast enough
  rw [Real.logb_div sum_real.ne' den_real.ne']
  have upper := (le_iff_logb_le sum_real den_real).mp below
  have lower := (le_iff_logb_le den_real (by positivity)).mp above
  rw [Real.logb_mul sum_real.ne' (by norm_num), logb_ten_pow] at lower
  push_cast at lower
  constructor <;> linarith

theorem convert_exact {fs : Level} {sum n : Nat} (n_pos : 0 < n) (most : sum ≤ n * (2 ^ 46 - 1)) :
    ((sum : ℝ) / (n * 2 ^ 46) < 10 ^ (-10 : ℝ) → convert fs sum n = ⟨fs - 10000, true⟩) ∧
    ((10 : ℝ) ^ (-10 : ℝ) ≤ (sum : ℝ) / (n * 2 ^ 46) → (convert fs sum n).floored = false ∧
      |((convert fs sum n).level : ℝ) - fs - 1000 * Real.logb 10 ((sum : ℝ) / (n * 2 ^ 46))| ≤ 1 / 2) ∧
    fs - 10000 ≤ (convert fs sum n).level ∧ (convert fs sum n).level ≤ fs := by
  rw [← not_lt, ratio_below_floor_iff n_pos]
  by_cases low : sum * 10 ^ 10 < n * 2 ^ 46
  · rw [convert_floored low]
    exact ⟨fun _ => rfl, absurd low, le_refl _, Int.sub_le_self fs (by decide)⟩
  · have sum_pos : 0 < sum := by omega
    have most' : sum ≤ n * 2 ^ 46 := most.trans (Nat.mul_le_mul_left n (Nat.sub_le _ _))
    obtain ⟨lower, upper⟩ := logb_ratio_bounds (den := n * 2 ^ 46) sum_pos most' (Nat.not_lt.mp low)
    have near := roundLog_near sum_pos (by omega) lower (by linarith)
    obtain ⟨least, -, under, -⟩ := roundLog_spec sum_pos (by omega : 0 < n * 2 ^ 46)
    rw [convert_formed low]
    generalize roundLog sum (n * 2 ^ 46) = r at near least under
    have negative : r ≤ 0 := by
      rcases under with bottom | under
      · omega
      · have : (r : ℝ) < 1 := by linarith
        exact Int.lt_add_one_iff.mp (by exact_mod_cast this)
    refine ⟨fun h => absurd h low, fun _ => ⟨rfl, ?_⟩, Int.add_le_add_left least fs, Int.add_le_of_le_sub_left (by simpa using negative)⟩
    rw [Int.cast_add, add_sub_cancel_left]
    simpa only [Nat.cast_mul, Nat.cast_pow, Nat.cast_ofNat] using near

/-! ### Energy units (R38) -/

/-- The formula of R38. -/
noncomputable def unitEnergy (l : Level) : ℝ := 2 ^ 32 * (10 : ℝ) ^ (((l : ℝ) - 10000) / 1000)

theorem logb_unitEnergy (l : Level) : 1000 * Real.logb 10 (unitEnergy l) = 32000 * Real.logb 10 2 + (l - 10000) := by
  rw [unitEnergy, Real.logb_mul (by norm_num) (by positivity), Real.logb_pow, Real.logb_rpow (by norm_num) (by norm_num)]
  push_cast
  ring

theorem energyAtLeast_iff (l : Level) {n : Nat} (n_pos : 0 < n) : energyAtLeast l n = true ↔ (n : ℝ) - 1 / 2 ≤ unitEnergy l := by
  have odd : ((2 * n - 1 : Nat) : ℝ) = 2 * n - 1 := by
    rw [Nat.cast_sub (by omega)]
    push_cast
    rfl
  have odd_pos : (0 : ℝ) < (2 * n - 1 : Nat) := by exact_mod_cast (by omega : 0 < 2 * n - 1)
  have exponents : ((10000 - l).toNat : ℝ) = (l - 10000).toNat - (l - 10000) := by
    have : ((10000 - l).toNat : Int) = (l - 10000).toNat - (l - 10000) := by omega
    exact_mod_cast this
  have reals : (2 * n - 1) ^ 1000 * 10 ^ (10000 - l).toNat ≤ 2 ^ 33000 * 10 ^ (l - 10000).toNat ↔
      ((2 * n - 1 : Nat) : ℝ) ^ 1000 * 10 ^ (10000 - l).toNat ≤ 2 ^ 33000 * 10 ^ (l - 10000).toNat := by
    norm_cast
  have energy_pos : 0 < unitEnergy l := by unfold unitEnergy; positivity
  have doubled : (n : ℝ) - 1 / 2 ≤ unitEnergy l ↔ ((2 * n - 1 : Nat) : ℝ) ≤ 2 * unitEnergy l := by
    rw [odd]
    constructor <;> intro h <;> linarith
  have formula := logb_unitEnergy l
  rw [doubled, energyAtLeast, decide_eq_true_iff, reals, le_iff_logb_le (by positivity) (by positivity),
    le_iff_logb_le odd_pos (by positivity), Real.logb_mul (by positivity) (by positivity), Real.logb_mul (by positivity) (by positivity),
    Real.logb_mul (by norm_num) energy_pos.ne', logb_ten_pow, logb_ten_pow, Real.logb_pow, Real.logb_pow, exponents]
  push_cast at formula ⊢
  constructor <;> intro h <;> linarith

theorem energyUnit_spec (l : Level) :
    energyUnit l < 2 ^ 52 ∧ (energyUnit l = 0 ∨ (energyUnit l : ℝ) - 1 / 2 ≤ unitEnergy l) ∧
      (energyUnit l + 1 = 2 ^ 52 ∨ unitEnergy l < (energyUnit l : ℝ) + 1 / 2) := by
  obtain ⟨-, high, at_, above⟩ := greatest_spec (energyAtLeast l) 52 0
  unfold energyUnit
  generalize greatest (energyAtLeast l) 52 0 = g at high at_ above
  refine ⟨by omega, ?_, above.imp (by omega) fun failed => ?_⟩
  · rcases Nat.eq_zero_or_pos g with zero | pos
    · exact .inl zero
    · exact .inr ((energyAtLeast_iff l pos).mp (at_.resolve_left (by omega)))
  · have beyond := mt (energyAtLeast_iff l (Nat.succ_pos g)).mpr (Bool.eq_false_iff.mp failed)
    push_cast at beyond
    linarith

theorem unitEnergy_le {l m : Level} (le : l ≤ m) : unitEnergy l ≤ unitEnergy m := by
  have real : (l : ℝ) ≤ m := Int.cast_le.mpr le
  unfold unitEnergy
  gcongr
  norm_num

theorem unitEnergy_greatest : unitEnergy 16000 = 2 ^ 32 * 10 ^ 6 := by
  have exponent : (((16000 : Level) : ℝ) - 10000) / 1000 = (6 : Nat) := by norm_num
  rw [unitEnergy, exponent, Real.rpow_natCast]

theorem energyUnit_near {l : Level} (most : l ≤ 16000) : |(energyUnit l : ℝ) - unitEnergy l| ≤ 1 / 2 := by
  obtain ⟨-, below, above⟩ := energyUnit_spec l
  have positive : 0 < unitEnergy l := by unfold unitEnergy; positivity
  have bound := (unitEnergy_le most).trans_eq unitEnergy_greatest
  generalize energyUnit l = g at below above
  have under : (g : ℝ) - 1 / 2 ≤ unitEnergy l := by
    rcases below with zero | under
    · rw [zero]; push_cast; linarith
    · exact under
  have reach : unitEnergy l < (g : ℝ) + 1 / 2 := by
    rcases above with top | reach
    · have : (g : ℝ) + 1 = 2 ^ 52 := by exact_mod_cast top
      norm_num at bound this
      linarith
    · exact reach
  rw [abs_le]
  constructor <;> linarith

theorem energyUnit_mono {l m : Level} (le : l ≤ m) (most : m ≤ 16000) : energyUnit l ≤ energyUnit m := by
  have low := (abs_le.mp (energyUnit_near (le.trans most))).2
  have high := (abs_le.mp (energyUnit_near most)).1
  have rise := unitEnergy_le le
  obtain ⟨-, under, -⟩ := energyUnit_spec l
  obtain ⟨-, -, beyond⟩ := energyUnit_spec m
  have bound := energyUnit_spec l |>.1
  generalize energyUnit l = g at *
  generalize energyUnit m = h at *
  rcases under with zero | under
  · omega
  · rcases beyond with top | beyond
    · omega
    · have : (g : ℝ) < h + 1 := by linarith
      exact Nat.lt_add_one_iff.mp (by exact_mod_cast this)

/-! ### The level of an energy sum (R39) -/

/-- The range of `roundLog` reaches past both ends of the levels: clamping it is clamping the nearest integer. -/
theorem reverseLevel_near {sum n : Nat} (n_pos : 0 < n) (sum_pos : 0 < sum) :
    ∃ x l : Int, reverseLevel sum n = some l ∧ l = max 0 (min 16000 x) ∧
      |(x : ℝ) - 10000 - 1000 * Real.logb 10 ((sum : ℝ) / (n * 2 ^ 32))| ≤ 1 / 2 := by
  have formed : reverseLevel sum n = some (max 0 (min 16000 (10000 + roundLog sum (n * 2 ^ 32)))) := by
    rw [reverseLevel, if_neg n_pos.ne', if_neg sum_pos.ne', clampTo_eq (by decide)]
  obtain ⟨least, most, under, beyond⟩ := roundLog_spec sum_pos (by omega : 0 < n * 2 ^ 32)
  have cast : ((n * 2 ^ 32 : Nat) : ℝ) = n * 2 ^ 32 := by simp only [Nat.cast_mul, Nat.cast_pow, Nat.cast_ofNat]
  rw [cast] at under beyond
  generalize roundLog sum (n * 2 ^ 32) = r at formed least most under beyond
  generalize 1000 * Real.logb 10 ((sum : ℝ) / (n * 2 ^ 32)) = level at under beyond
  have low := Int.floor_le (level + 1 / 2)
  have high := Int.lt_floor_add_one (level + 1 / 2)
  generalize ⌊level + 1 / 2⌋ = nearest at low high
  have above : r = -10000 ∨ r ≤ nearest := under.imp_right fun under =>
    Int.lt_add_one_iff.mp (by exact_mod_cast (by linarith : (r : ℝ) < nearest + 1))
  have below : r = 6383 ∨ nearest ≤ r := beyond.imp_right fun beyond =>
    Int.lt_add_one_iff.mp (by exact_mod_cast (by linarith : (nearest : ℝ) < r + 1))
  refine ⟨10000 + nearest, _, formed, ?_, ?_⟩
  · omega
  · rw [abs_le]
    push_cast
    constructor <;> linarith

/-- Settles O55: each conversion is a bisection over a test that its real formula decides. -/
theorem levelsExact : Obligations.LevelsExact := by
  refine ⟨fun fs sum n pos most => convert_exact pos most, fun l _ most => ⟨energyUnit_near most, (energyUnit_spec l).1⟩,
    fun l m _ le most => energyUnit_mono le most, fun n one most => ?_, roundLog_one_eight, roundLog_eight_eight, roundLog_longest,
    fun e fs => rfl, fun sum n => ⟨fun none => ?_, fun pos zero => ?_, reverseLevel_near⟩⟩
  · obtain ⟨low, high⟩ := logb_duration_bounds one most
    exact_mod_cast roundLog_near (by omega) (by omega) (by exact_mod_cast low) (by exact_mod_cast high)
  · rw [reverseLevel, if_pos none]
  · rw [reverseLevel, if_neg pos.ne', if_pos zero]

end Sys2Proof.Machine


/-! The calendar and the minute number are each other's inverse (O36). -/

namespace Sys2Proof.Machine

theorem yearLength_ge (y : Nat) : 365 ≤ yearLength y := by
  unfold yearLength
  split <;> omega

theorem monthLength_pos (y m : Nat) : 0 < monthLength y m := by
  unfold monthLength
  split_ifs <;> omega

theorem daysToYear_succ {y : Nat} (late : 2000 ≤ y) : daysToYear (y + 1) = daysToYear y + yearLength y := by
  rw [daysToYear, daysToYear, Nat.sub_add_comm late, List.range_succ, List.map_append, List.sum_append, List.map_singleton,
    List.sum_singleton, Nat.add_sub_cancel' late]

theorem daysToMonth_succ (y : Nat) {m : Nat} (named : 1 ≤ m) : daysToMonth y (m + 1) = daysToMonth y m + monthLength y m := by
  rw [daysToMonth, daysToMonth, Nat.sub_add_comm named, List.range_succ, List.map_append, List.sum_append, List.map_singleton,
    List.sum_singleton, Nat.sub_add_cancel named]

/-- A year is its twelve months. -/
theorem daysToMonth_thirteen (y : Nat) : daysToMonth y 13 = yearLength y := by
  unfold daysToMonth monthLength yearLength
  cases leapYear y <;> decide

theorem daysToYear_le {y z : Nat} (late : 2000 ≤ y) (le : y ≤ z) : daysToYear y ≤ daysToYear z := by
  induction z, le using Nat.le_induction with
  | base => exact le_refl _
  | succ z le ih => rw [daysToYear_succ (late.trans le)]; omega

theorem daysToMonth_le (y : Nat) {m k : Nat} (named : 1 ≤ m) (le : m ≤ k) : daysToMonth y m ≤ daysToMonth y k := by
  induction k, le using Nat.le_induction with
  | base => exact le_refl _
  | succ k le ih => rw [daysToMonth_succ y (named.trans le)]; omega

/-- The search for the year ends at the one that holds the day. -/
theorem yearOfDay_holds (fuel y d : Nat) (late : 2000 ≤ y) (enough : d < 365 * fuel) :
    2000 ≤ (yearOfDay fuel y d).1 ∧ daysToYear (yearOfDay fuel y d).1 + (yearOfDay fuel y d).2 = daysToYear y + d ∧
      (yearOfDay fuel y d).2 < yearLength (yearOfDay fuel y d).1 := by
  induction fuel generalizing y d with
  | zero => omega
  | succ fuel ih =>
    rw [yearOfDay]
    split
    case isTrue within' => exact ⟨late, rfl, within'⟩
    case isFalse past =>
      have length := yearLength_ge y
      obtain ⟨at_, sum, held⟩ := ih (y + 1) (d - yearLength y) (by omega) (by omega)
      rw [daysToYear_succ late] at sum
      exact ⟨at_, by omega, held⟩

theorem monthOfDay_holds (y fuel m d : Nat) (named : 1 ≤ m) (left : m + fuel = 13) (enough : daysToMonth y m + d < daysToMonth y 13) :
    1 ≤ (monthOfDay y fuel m d).1 ∧ (monthOfDay y fuel m d).1 ≤ 12 ∧
      daysToMonth y (monthOfDay y fuel m d).1 + (monthOfDay y fuel m d).2 = daysToMonth y m + d ∧
      (monthOfDay y fuel m d).2 < monthLength y (monthOfDay y fuel m d).1 := by
  induction fuel generalizing m d with
  | zero => simp [show m = 13 from left] at enough
  | succ fuel ih =>
    rw [monthOfDay]
    split
    case isTrue within' => exact ⟨named, by omega, rfl, within'⟩
    case isFalse past =>
      have next := daysToMonth_succ y named
      obtain ⟨at_, last, sum, held⟩ := ih (m + 1) (d - monthLength y m) (by omega) (by omega) (by omega)
      exact ⟨at_, last, by omega, held⟩

/-- One year holds a day. -/
theorem year_unique {y z r q : Nat} (late : 2000 ≤ y) (late' : 2000 ≤ z) (held : r < yearLength y) (held' : q < yearLength z)
    (same : daysToYear y + r = daysToYear z + q) : y = z ∧ r = q := by
  have apart {a b : Nat} (late : 2000 ≤ a) (lt : a < b) : daysToYear a + yearLength a ≤ daysToYear b :=
    daysToYear_succ late ▸ daysToYear_le (by omega) lt
  rcases Nat.lt_trichotomy y z with lt | eq | lt
  · have := apart late lt; omega
  · subst eq; omega
  · have := apart late' lt; omega

theorem month_unique {y m k r q : Nat} (named : 1 ≤ m) (named' : 1 ≤ k) (held : r < monthLength y m) (held' : q < monthLength y k)
    (same : daysToMonth y m + r = daysToMonth y k + q) : m = k ∧ r = q := by
  have apart {a b : Nat} (named : 1 ≤ a) (lt : a < b) : daysToMonth y a + monthLength y a ≤ daysToMonth y b :=
    daysToMonth_succ y named ▸ daysToMonth_le y (by omega) lt
  rcases Nat.lt_trichotomy m k with lt | eq | lt
  · have := apart named lt; omega
  · subst eq; omega
  · have := apart named' lt; omega

/-- A calendar time whose fields are in range. -/
structure Calendar.Proper (c : Calendar) : Prop where
  year : 2000 ≤ c.year
  month : 1 ≤ c.month ∧ c.month ≤ 12
  day : 1 ≤ c.day ∧ c.day ≤ monthLength c.year c.month
  hour : c.hour ≤ 23
  minute : c.minute ≤ 59

/-- The days before it in its year. -/
theorem Calendar.Proper.dayOfYear {c : Calendar} (proper : c.Proper) :
    daysToMonth c.year c.month + (c.day - 1) < yearLength c.year := by
  have next := daysToMonth_succ c.year proper.month.1
  have upto := daysToMonth_le c.year (by omega : 1 ≤ c.month + 1) (by have := proper.month.2; omega : c.month + 1 ≤ 13)
  have day := proper.day
  rw [daysToMonth_thirteen] at upto
  omega

theorem calendarOf_proper (n : Nat) :
    (calendarOf n).Proper ∧ (calendarOf n).minuteNumber = n ∧ (calendarOf n).hour * 60 + (calendarOf n).minute = n % 1440 := by
  obtain ⟨late, days, held⟩ := yearOfDay_holds (n / 1440 / 365 + 1) 2000 (n / 1440) (le_refl _) (by omega)
  obtain ⟨named, last, rest, in_⟩ := monthOfDay_holds (yearOfDay (n / 1440 / 365 + 1) 2000 (n / 1440)).1 12 1
    (yearOfDay (n / 1440 / 365 + 1) 2000 (n / 1440)).2 (le_refl _) rfl (by rw [daysToMonth_thirteen]; simpa [daysToMonth] using held)
  have first : daysToYear 2000 = 0 := rfl
  have january (y : Nat) : daysToMonth y 1 = 0 := rfl
  unfold calendarOf Calendar.minuteNumber minuteOfDay
  dsimp only
  generalize yearOfDay (n / 1440 / 365 + 1) 2000 (n / 1440) = y at *
  generalize monthOfDay y.1 12 1 y.2 = m at *
  rw [january] at rest
  refine ⟨⟨late, ⟨named, last⟩, ⟨by show 1 ≤ m.2 + 1; omega, in_⟩, by show n % 1440 / 60 ≤ 23; omega, by show n % 60 ≤ 59; omega⟩, by omega, by omega⟩

theorem Calendar.Proper.inverse {c : Calendar} (proper : c.Proper) : calendarOf c.minuteNumber = c := by
  obtain ⟨formed, number, -⟩ := calendarOf_proper c.minuteNumber
  generalize calendarOf c.minuteNumber = x at formed number
  have ⟨lateC, namedC, dayC, hourC, minuteC⟩ := proper
  have ⟨lateX, namedX, dayX, hourX, minuteX⟩ := formed
  have days : daysToYear x.year + (daysToMonth x.year x.month + (x.day - 1)) = daysToYear c.year + (daysToMonth c.year c.month + (c.day - 1)) := by
    unfold Calendar.minuteNumber at number
    omega
  obtain ⟨year, rest⟩ := year_unique lateX lateC formed.dayOfYear proper.dayOfYear days
  rw [year] at rest dayX
  obtain ⟨month, day⟩ := month_unique namedX.1 namedC.1 (by omega) (by omega) rest
  unfold Calendar.minuteNumber at number
  obtain ⟨y, m, d, h, i⟩ := c
  obtain ⟨z, k, e, g, j⟩ := x
  simp only [Calendar.mk.injEq] at *
  omega

/-- The next date, at the same time. -/
def Calendar.nextDay (c : Calendar) : Calendar :=
  if c.day < monthLength c.year c.month then { c with day := c.day + 1 }
  else if c.month < 12 then { c with month := c.month + 1, day := 1 } else { c with year := c.year + 1, month := 1, day := 1 }

theorem Calendar.Proper.nextDay {c : Calendar} (proper : c.Proper) :
    c.nextDay.Proper ∧ c.nextDay.minuteNumber = c.minuteNumber + 1440 := by
  have ⟨late, named, day, hour, minute⟩ := proper
  have month := daysToMonth_succ c.year named.1
  have year := daysToYear_succ late
  unfold Calendar.nextDay Calendar.minuteNumber
  split_ifs with inMonth inYear
  · exact ⟨⟨late, named, ⟨Nat.le_add_left 1 _, inMonth⟩, hour, minute⟩, by dsimp only; omega⟩
  · exact ⟨⟨late, ⟨Nat.le_add_left 1 _, inYear⟩, ⟨le_refl 1, monthLength_pos ..⟩, hour, minute⟩, by dsimp only; omega⟩
  · have whole : daysToMonth c.year (c.month + 1) = yearLength c.year := by
      rw [show c.month = 12 by omega]; exact daysToMonth_thirteen c.year
    have first : daysToMonth (c.year + 1) 1 = 0 := rfl
    exact ⟨⟨by show 2000 ≤ c.year + 1; omega, ⟨le_refl 1, Nat.le_add_left 1 11⟩, ⟨le_refl 1, monthLength_pos ..⟩, hour, minute⟩, by dsimp only; omega⟩

theorem Calendar.proper_of_valid {c : Calendar} {second : Nat} (valid : c.valid second = true) : c.Proper := by
  simp only [Calendar.valid, Bool.and_eq_true, decide_eq_true_eq] at valid
  obtain ⟨⟨⟨⟨⟨⟨⟨⟨late, -⟩, january⟩, december⟩, first⟩, last⟩, hour⟩, minute⟩, -⟩ := valid
  exact ⟨late, ⟨january, december⟩, ⟨first, last⟩, hour, minute⟩

theorem leapYear_iff (y : Nat) : leapYear y = true ↔ y % 4 = 0 ∧ (y % 100 ≠ 0 ∨ y % 400 = 0) := by
  simp [leapYear]

/-- Settles O36: one proper calendar time has a minute number, and the next date is the one a day later. -/
theorem calendarInverse : Obligations.CalendarInverse := by
  refine ⟨fun c second valid => (Calendar.proper_of_valid valid).inverse, by decide, fun y => ?_, fun y m _ _ other => ?_, fun n => ?_⟩
  · rw [monthLength, if_pos rfl]
    simp only [leapYear_iff]
  · rw [monthLength, if_neg other]
  · intro c later
    obtain ⟨proper, number, clock⟩ := calendarOf_proper n
    have ⟨late, named, day, hour, minute⟩ := proper
    obtain ⟨next, after⟩ := proper.nextDay
    refine ⟨number, late, named.1, named.2, day.1, day.2, hour, minute, clock, ?_⟩
    rw [number] at after
    exact (congrArg calendarOf after).symm.trans next.inverse
end Sys2Proof.Machine


/-! What the work beside minute closes, boundaries, seconds and resets leaves of the minutes, the lapse counts and the open events; and how a
property of these that the rest keeps is kept by every command and event (O34, O59, O60). -/

namespace Sys2Proof.Machine

/-! ### A sequence of changes, whoever brings them about -/

def Changes : State → State → Prop := Relation.ReflTransGen fun s t => ∃ k, Effect k s t

theorem Effects.changes {k : Origin} {s t : State} (h : Effects k s t) : Changes s t :=
  Effects.keeps (P := Changes s) (fun _ _ e h => .tail h ⟨k, e⟩) h .refl

theorem Changes.refl (s : State) : Changes s s := Relation.ReflTransGen.refl

theorem Changes.trans {s t u : State} (h : Changes s t) (h' : Changes t u) : Changes s u := Relation.ReflTransGen.trans h h'

theorem Changes.keeps {K : State → Prop} (hK : ∀ k s t, Effect k s t → K s → K t) {s t : State} (h : Changes s t) : K s → K t := by
  intro hs
  induction h with
  | refl => exact hs
  | tail _ step ih => exact step.elim fun k e => hK k _ _ e ih

/-! ### Steady work -/

/-- The counts of an open period account (R90). -/
def Period.counts (p : Period) : Nat × Nat × Nat × Nat × Nat × Nat × Nat × Nat :=
  (p.opening, p.planned, p.elapsed, p.accounted, p.impulsive, p.lowFreq, p.triggers, p.breaches)

/-- Work on a channel that closes no minute and ticks no lapse count: its minute, its accounts and a pending switch stay, a result it holds
is its own or new, an open event stays within its counts. -/
structure Channel.Steady (a b : Channel) : Prop where
  waiting : b.waiting = a.waiting
  minuteNo : b.minuteNo = a.minuteNo
  day : b.day = a.day
  period : b.period.map Period.counts = a.period.map Period.counts
  switch : b.pendingFs = none → a.pendingFs = none
  lapse : ∀ r, b.pendingResult = some r → r.lapse = 0 ∨ a.pendingResult = some r
  event : (∀ e, a.openEvent = some e → e.Ok) → ∀ e, b.openEvent = some e → e.Ok

theorem Channel.Steady.of_eq {a b : Channel} (waiting : b.waiting = a.waiting) (minuteNo : b.minuteNo = a.minuteNo) (day : b.day = a.day)
    (period : b.period = a.period) (pendingFs : b.pendingFs = a.pendingFs) (pendingResult : b.pendingResult = a.pendingResult)
    (openEvent : b.openEvent = a.openEvent) : a.Steady b :=
  ⟨waiting, minuteNo, day, by rw [period], fun h => by rwa [← pendingFs], fun r h => .inr (by rwa [← pendingResult]),
    fun h => by rwa [openEvent]⟩

theorem Channel.Steady.refl (a : Channel) : a.Steady a := .of_eq rfl rfl rfl rfl rfl rfl rfl

theorem Channel.Steady.trans {a b c : Channel} (h : a.Steady b) (h' : b.Steady c) : a.Steady c where
  waiting := h'.waiting.trans h.waiting
  minuteNo := h'.minuteNo.trans h.minuteNo
  day := h'.day.trans h.day
  period := h'.period.trans h.period
  switch e := h.switch (h'.switch e)
  lapse r e := by
    obtain zero | same := h'.lapse r e
    · exact .inl zero
    · exact h.lapse r same
  event ok := h'.event (h.event ok)

/-- Steady work on the part; the channels that `ends` names may enter OFF. -/
structure State.SteadyBut (ends : Ch → Prop) (s t : State) : Prop where
  clock : t.clock = s.clock
  running : t.running = s.running
  chans : ∀ ch, (s.chan ch).Steady (t.chan ch)
  off : ∀ ch, ¬ ends ch → (t.chan ch).state = .off → (s.chan ch).state = .off
  changes : Changes s t

/-- Steady work that takes no channel to OFF. -/
abbrev State.Steady (s t : State) : Prop := s.SteadyBut (fun _ => False) t

section
variable {ends : Ch → Prop}

theorem State.SteadyBut.refl (s : State) : s.SteadyBut ends s := ⟨rfl, rfl, fun _ => .refl _, fun _ _ h => h, .refl s⟩

theorem State.SteadyBut.trans {s t u : State} (h : s.SteadyBut ends t) (h' : t.SteadyBut ends u) : s.SteadyBut ends u :=
  ⟨h'.clock.trans h.clock, h'.running.trans h.running, fun ch => (h.chans ch).trans (h'.chans ch),
    fun ch ne off => h.off ch ne (h'.off ch ne off), h.changes.trans h'.changes⟩

theorem State.Steady.but {s t : State} (h : s.Steady t) : s.SteadyBut ends t :=
  ⟨h.clock, h.running, h.chans, fun ch _ => h.off ch not_false, h.changes⟩

/-- Work that leaves the channels, the clock and the supply. -/
theorem State.SteadyBut.of_channels {s t : State} (changes : Changes s t) (channels : t.channels = s.channels) (clock : t.clock = s.clock)
    (running : t.running = s.running) : s.SteadyBut ends t :=
  have chan (ch : Ch) : t.chan ch = s.chan ch := by rw [State.chan, channels]; rfl
  ⟨clock, running, fun ch => by rw [chan]; exact .refl _, fun ch _ off => by rwa [chan] at off, changes⟩

/-- Work on one channel. -/
theorem State.SteadyBut.of_others {s t : State} {ch : Ch} (changes : Changes s t) (clock : t.clock = s.clock) (running : t.running = s.running)
    (others : ∀ d, d ≠ ch → t.chan d = s.chan d) (steady : (s.chan ch).Steady (t.chan ch))
    (off : ¬ ends ch → (t.chan ch).state = .off → (s.chan ch).state = .off) : s.SteadyBut ends t where
  clock := clock
  running := running
  chans d := by
    by_cases h : d = ch
    · exact h ▸ steady
    · rw [others d h]; exact .refl _
  off d := by
    by_cases h : d = ch
    · exact h ▸ off
    · rw [others d h]; exact fun _ h => h
  changes := changes

theorem State.SteadyBut.on {s t : State} {ch : Ch} (changes : Changes s t) (frame : s.SameFrame t) (others : ∀ d, d ≠ ch → t.chan d = s.chan d)
    (steady : (s.chan ch).Steady (t.chan ch)) (off : ¬ ends ch → (t.chan ch).state = .off → (s.chan ch).state = .off) : s.SteadyBut ends t :=
  .of_others changes frame.clock frame.running others steady off

theorem State.SteadyBut.setChan (s : State) (ch : Ch) {c : Channel} (changes : Changes s (s.setChan ch c)) (steady : (s.chan ch).Steady c)
    (off : ¬ ends ch → c.state = .off → (s.chan ch).state = .off) : s.SteadyBut ends (s.setChan ch c) :=
  .on changes (.setChan s ch c) (fun _ hd => State.chan_setChan_ne s hd c) (by rwa [State.chan_setChan_self]) (by rwa [State.chan_setChan_self])

theorem State.SteadyBut.setPort (s : State) (p : Port) (x : PortState) (changes : Changes s (s.setPort p x)) : s.SteadyBut ends (s.setPort p x) :=
  .of_channels changes (by simp) (by simp) (by simp)

theorem State.SteadyBut.notifyBoth (s : State) (k : NoticeKind) (d : Detail) : s.SteadyBut ends (s.notifyBoth k d) :=
  .of_channels (Effects.notifyBoth .own s k d).changes rfl rfl rfl

end

/-! ### Slices -/

theorem OpenEvent.Ok.takeSlice {e : OpenEvent} (h : e.Ok) (release : Level) (r : SliceResult) (fell : (e.takeSlice release r).fell = false)
    (long : (e.takeSlice release r).tooLong = false) : (e.takeSlice release r).Ok := by
  obtain ⟨count, span, tail, short⟩ := h
  simp only [OpenEvent.tooLong, fell, Bool.not_false, Bool.true_and, beq_eq_false_iff_ne, ne_eq] at long
  simp only [OpenEvent.fell, beq_eq_false_iff_ne, ne_eq] at fell
  unfold OpenEvent.takeSlice at fell long ⊢
  dsimp only at fell long ⊢
  by_cases h : release ≤ r.lafmax.getD 0
  · simp only [if_pos h] at fell long ⊢
    exact ⟨Nat.succ_le_succ (Nat.zero_le _), by simp only; omega, Nat.succ_pos _, by simp only; omega⟩
  · simp only [if_neg h] at fell long ⊢
    exact ⟨count, by simp only; omega, by simp only; omega, by simp only; omega⟩

theorem Channel.Steady.event_none {a : Channel} (b : Bool) : a.Steady { a with openEvent := none, continuation := b } :=
  ⟨rfl, rfl, rfl, rfl, fun h => h, fun _ h => .inr h, fun _ _ h => by cases h⟩

/-- R130, R132: the detector leaves an open event within its counts. -/
theorem State.detectSlice_steady (s : State) (ch : Ch) (r : SliceResult) : (s.chan ch).Steady ((s.detectSlice ch r).chan ch) := by
  have detected := s.detectSlice_chan ch r
  rw [Channel.Detected] at detected
  suffices event : (∀ e, (s.chan ch).openEvent = some e → e.Ok) → ∀ e, ((s.detectSlice ch r).chan ch).openEvent = some e → e.Ok from
    ⟨by rw [detected], by rw [detected], by rw [detected], by rw [detected], fun h => by rw [detected] at h; exact h,
      fun r h => .inr (by rw [detected] at h; exact h), event⟩
  intro ok e he
  have continued (t : State) (b : Bool) : ((t.setContinuation ch b).chan ch).openEvent = (t.chan ch).openEvent := by
    simp [State.setContinuation]
  have closed (t : State) (c : EndCause) : ((t.closeEvent ch c).chan ch).openEvent = none := by rw [State.closeEvent_chan]
  unfold State.detectSlice at he
  dsimp only at he
  split at he
  · rw [continued] at he
    split at he
    · simp only [State.openEvent, State.chan_notifyBoth, State.chan_setChan_self, Option.some.injEq] at he
      subst he
      exact ⟨le_rfl, rfl, Nat.succ_pos _, by simp only; omega⟩
    · exact ok e he
  · next x hx =>
    split at he
    · rw [continued, closed] at he; cases he
    · split at he
      · rw [continued, closed] at he; cases he
      · next fell =>
        split at he
        · rw [continued, closed] at he; cases he
        · next long =>
          rw [continued, State.chan_setChan_self] at he
          cases he
          exact (ok x hx).takeSlice _ r (by simpa using fell) (by simpa using long)

theorem Channel.countSlice_steady (c : Channel) (r : SliceResult) : c.Steady (c.countSlice r) := by
  have counts : (c.countSlice r).period.map Period.counts = c.period.map Period.counts := by
    unfold Channel.countSlice
    split
    · next p _ _ hp => rw [hp]; rfl
    · rfl
  have eq := c.countSlice_eq r
  exact ⟨by rw [eq], by rw [eq], by rw [eq], counts, fun h => by rw [eq] at h; exact h, fun q h => .inr (by rw [eq] at h; exact h),
    fun h => by rw [eq]; exact h⟩

theorem State.handOn_steady (s : State) (ch : Ch) (r : SliceResult) :
    (s.chan ch).Steady ((s.handOn ch r).chan ch) ∧ ((s.handOn ch r).chan ch).state = (s.chan ch).state := by
  refine ⟨?_, (s.handOn_slicesOn ch r).2.2⟩
  unfold State.handOn
  dsimp only
  rw [State.chan_setChan_self]
  have taken (t : State) : (t.calTakeSlice ch r).chan ch = t.chan ch := by
    unfold State.calTakeSlice
    split
    · rfl
    · split <;> rfl
  have counted := (s.chan ch).countSlice_steady r
  have detected := (s.setChan ch ((s.chan ch).countSlice r)).detectSlice_steady ch r
  rw [State.chan_setChan_self] at detected
  rw [taken]
  exact (counted.trans detected).trans (.of_eq rfl rfl rfl rfl rfl rfl rfl)

section
variable {ends : Ch → Prop}

theorem State.SteadyBut.handOn (s : State) (ch : Ch) (r : SliceResult) : s.SteadyBut ends (s.handOn ch r) := by
  obtain ⟨steady, state⟩ := s.handOn_steady ch r
  exact .on (effects_handOn (k := .own) s ch r).changes (.handOn s ch r) (fun _ hd => s.handOn_ne hd r) steady fun _ off => state ▸ off

theorem State.completeRun_steady (s : State) (ch : Ch) : (s.chan ch).Steady ((s.completeRun ch).chan ch) := by
  have outcome (c : Channel) (x : RunFigures) (n : MinuteOrAbsent) : c.Steady (c.takeOutcome x n) := by
    unfold Channel.takeOutcome
    dsimp only
    split
    · exact ⟨rfl, rfl, rfl, rfl, fun h => h, fun r h => .inl (by cases h; rfl), fun h => h⟩
    · exact ⟨rfl, rfl, rfl, rfl, fun h => (by cases h), fun _ h => .inr h, fun h => h⟩
    · exact .of_eq rfl rfl rfl rfl rfl rfl rfl
  unfold State.completeRun
  split
  · exact .refl _
  · split
    · simp only [State.notifyCal, State.chan_notifyBoth, State.chan_setChan_self]
      exact outcome _ _ _
    · exact .refl _

theorem State.endRun_steady (s : State) (ch : Ch) (o : CalOutcome) : (s.chan ch).Steady ((s.endRun ch o).chan ch) := by
  unfold State.endRun
  split
  · simp only [State.notifyCal, State.chan_notifyBoth, State.concludeRecord, State.chan_setChan_self]
    exact .of_eq rfl rfl rfl rfl rfl rfl rfl
  · exact .refl _

end

/-- R7, R10: the settle count moves on; the channel itself may enter OFF. -/
theorem State.settleProgress_steady (s : State) (ch : Ch) : s.SteadyBut (· = ch) (s.settleProgress ch) := by
  refine .on (effects_settleProgress (k := .own) rfl s ch).changes (.settleProgress s ch) (s.settleProgress_concludes ch).2.1 ?_
    fun ne => absurd rfl ne
  have enter (t : State) (x : ChannelState) : (t.chan ch).Steady ((t.enter ch x).chan ch) := by
    simp only [State.enter, State.chan_setChan_self]
    exact .of_eq rfl rfl rfl rfl rfl rfl rfl
  have more : (s.chan ch).Steady ((s.setChan ch { s.chan ch with settle := (s.chan ch).settle + 1 }).chan ch) := by
    rw [State.chan_setChan_self]
    exact .of_eq rfl rfl rfl rfl rfl rfl rfl
  have returned : (s.chan ch).Steady ((s.returnToOff ch).chan ch) := by
    simp only [State.returnToOff, State.notifyChannel, State.chan_notifyBoth, State.chan_setChan_self]
    exact .of_eq rfl rfl rfl rfl rfl rfl rfl
  unfold State.settleProgress
  dsimp only
  split
  · exact .refl _
  · exact .refl _
  · exact .refl _
  · split; exacts [enter s _, more]
  · split; exacts [enter s _, more]
  · split; exacts [(s.completeRun_steady ch).trans (enter _ _), more]
  · split; exacts [enter s _, more]
  · split; exacts [returned, more]

theorem State.Steady.blockEnd (s : State) (ch : Ch) : s.Steady (s.blockEnd ch) := by
  by_cases due : (s.chan ch).blockDue = true
  · rw [State.blockEnd, if_pos due]
    exact .setChan s ch (Effects.setChan (k := .own) s ch .blockEnds).changes (.of_eq rfl rfl rfl rfl rfl rfl rfl) fun _ h => h
  · rw [State.blockEnd, if_neg due]
    exact .refl s

theorem State.Steady.lapseResult (s : State) (ch : Ch) : s.Steady (s.lapseResult ch) := by
  refine .on (Effects.one (.lapsed (k := .own) s ch)).changes (.lapseResult s ch) (fun _ hd => s.lapseResult_ne hd) ?_ fun _ off => ?_
  · unfold State.lapseResult
    split
    · simp only [State.notifyCal, State.chan_notifyBoth, State.concludeRecord, State.chan_setChan_self]
      exact ⟨rfl, rfl, rfl, rfl, fun h => h, fun _ h => (by cases h), fun h => h⟩
    · exact .refl _
  · unfold State.lapseResult at off
    split at off
    · simpa [State.notifyCal, State.concludeRecord] using off
    · exact off

/-! ### Lines, frames, starting, calibrating -/

theorem State.Steady.enter (s : State) (ch : Ch) (x : ChannelState) (hx : x ≠ .off) (changes : Changes s (s.enter ch x)) : s.Steady (s.enter ch x) :=
  .setChan s ch changes (.of_eq rfl rfl rfl rfl rfl rfl rfl) fun _ h => absurd h hx


theorem State.Steady.endRun (s : State) (ch : Ch) (o : CalOutcome) (changes : Changes s (s.endRun ch o)) : s.Steady (s.endRun ch o) := by
  refine .on (ch := ch) changes (.endRun s ch o) (fun _ hd => State.endRun_ne s hd o) (s.endRun_steady ch o) fun _ off => ?_
  exact ((State.Calm.endRun s ch o).chans ch).state ▸ off

/-- R3: a run ends with FAULT and the channel enters FAULTED. -/
theorem State.Steady.faults (s : State) (ch : Ch) : s.Steady (((s.endRun ch .fault).enter ch .faulted).notifyChannel ch .faulted) := by
  have changes : Changes s ((s.endRun ch .fault).enter ch .faulted) := (Effects.one (.runFaults (k := .own) s ch rfl)).changes
  refine State.SteadyBut.trans (.on (ch := ch) changes ((State.SameFrame.endRun s ch .fault).trans (.setChan _ ch _)) (fun d hd => ?_) ?_ fun _ off => ?_)
    (.notifyBoth _ _ _)
  · rw [State.enter, State.chan_setChan_ne _ hd, State.endRun_ne s hd]
  · rw [State.enter, State.chan_setChan_self]
    exact (s.endRun_steady ch .fault).trans (.of_eq rfl rfl rfl rfl rfl rfl rfl)
  · rw [State.enter, State.chan_setChan_self] at off
    cases off

/-- R4: a channel enters SETTLING with its engine cleared. -/
theorem State.Steady.resettles (s : State) (ch : Ch) (h : (s.chan ch).state = .faulted) :
    let t := s.enter ch .settling
    s.Steady ((t.setChan ch { t.chan ch with engine := (t.chan ch).engine.clear }).notifyChannel ch .settling) := by
  intro t
  have entered : s.Steady t := .enter s ch .settling (by decide) (effects_enter (k := .own) rfl s ch .settling (by rw [h]; rfl)).changes
  exact (entered.trans (.setChan t ch (Effects.setChan (k := .own) t ch .engineCleared).changes (.of_eq rfl rfl rfl rfl rfl rfl rfl)
    fun _ h => h)).trans (.notifyBoth _ _ _)

theorem State.Steady.startChannel (s : State) (ch : Ch) : s.Steady (s.startChannel ch) := by
  refine .on (ch := ch) (effects_startChannel (k := .own) rfl s ch).changes (.startChannel s ch) (fun d hd => ?_) ?_ fun _ off => ?_
  · unfold State.startChannel
    split
    · dsimp only
      split
      · exact State.chan_setChan_ne _ hd _
      · rw [State.notifyChannel, State.chan_notifyBoth, State.chan_setChan_ne _ hd]
    · rfl
  · unfold State.startChannel
    split
    · dsimp only
      split
      · rw [State.chan_setChan_self]; exact .of_eq rfl rfl rfl rfl rfl rfl rfl
      · rw [State.notifyChannel, State.chan_notifyBoth, State.chan_setChan_self]; exact .of_eq rfl rfl rfl rfl rfl rfl rfl
    · exact .refl _
  · unfold State.startChannel at off
    split at off
    · assumption
    · exact off

theorem State.SteadyBut.foldl {α : Type} {work : State → α → State} (h : ∀ (s : State) (a : α), s.Steady (work s a)) :
    ∀ (l : List α) (s : State), s.Steady (l.foldl work s)
  | [], s => .refl s
  | a :: l, s => (h s a).trans (State.SteadyBut.foldl h l (work s a))

theorem State.Steady.arrange {α : Type} (s : State) (l : List α) : s.Steady (s.arrange l).2 :=
  .of_channels (Effects.arrange (k := .own) s l).changes (by rw [State.arrange_state]) (by rw [State.arrange_state])
    (by rw [State.arrange_state]; rfl)

theorem State.Steady.inAnyOrder {α : Type} {work : State → α → State} (h : ∀ (s : State) (a : α), s.Steady (work s a)) (s : State) (l : List α) :
    s.Steady (s.inAnyOrder l work) :=
  (State.Steady.arrange s l).trans (State.SteadyBut.foldl h _ _)

theorem State.Steady.startChannels (s : State) (m : ChannelMask) : s.Steady (s.startChannels m) := .inAnyOrder State.Steady.startChannel s _

/-- R8: all of a stop but the waiting close. -/
theorem State.SteadyBut.stops (s : State) (ch : Ch) :
    s.SteadyBut (· = ch) (((s.closeEvent ch .stopped).switchOff ch).notifyChannel ch .off) := by
  have closed : s.SteadyBut (· = ch) (s.closeEvent ch .stopped) := by
    refine .on (Effects.one (.eventClosed (k := .own) s ch _)).changes (.closeEvent s ch _) (State.SliceFrame.closeEvent s ch _).others ?_
      fun ne => absurd rfl ne
    rw [State.closeEvent_chan]
    exact ⟨rfl, rfl, rfl, rfl, fun h => h, fun _ h => .inr h, fun _ _ h => by cases h⟩
  have off (t : State) : t.SteadyBut (· = ch) (t.switchOff ch) := by
    refine .on (Effects.one (.runStopped (k := .own) t ch rfl)).changes ((State.SameFrame.endRun t ch .aborted).trans (.setChan _ ch _)) (fun d hd => ?_)
      ?_ fun ne => absurd rfl ne
    · unfold State.switchOff
      dsimp only
      rw [State.chan_setChan_ne _ hd, State.endRun_ne t hd]
    · unfold State.switchOff
      dsimp only
      rw [State.chan_setChan_self]
      exact (t.endRun_steady ch .aborted).trans (.of_eq rfl rfl rfl rfl rfl rfl rfl)
  exact (closed.trans (off _)).trans (.notifyBoth _ _ _)

theorem State.Steady.takeFrame (s : State) (l : Line) (a b : Sample) (short : s.BlocksShort) : s.Steady (s.takeFrame l a b) := by
  have changes := (effects_takeFrame (k := ⟨none, true, false, true⟩) rfl rfl s l a b short).changes
  have used (t : State) (ch : Ch) (x : Sample) : (t.useFrame ch x).clock = t.clock ∧ (t.useFrame ch x).running = t.running ∧
      ∀ d, (t.chan d).Steady ((t.useFrame ch x).chan d) ∧ ((t.useFrame ch x).chan d).state = (t.chan d).state := by
    unfold State.useFrame
    split
    · exact ⟨rfl, rfl, fun _ => ⟨.refl _, rfl⟩⟩
    · refine ⟨rfl, rfl, fun d => ?_⟩
      rw [State.chan_setChan]
      split
      · next same => subst same; exact ⟨.of_eq rfl rfl rfl rfl rfl rfl rfl, rfl⟩
      · exact ⟨.refl _, rfl⟩
  have two (t : State) (c d : Ch) (ht : t.channels = s.channels ∧ t.clock = s.clock ∧ t.running = s.running)
      (changes : Changes s ((t.useFrame c a).useFrame d b)) : s.Steady ((t.useFrame c a).useFrame d b) := by
    obtain ⟨channels, clock, running⟩ := ht
    have chan (ch : Ch) : t.chan ch = s.chan ch := by rw [State.chan, channels]; rfl
    obtain ⟨clock1, running1, chans1⟩ := used t c a
    obtain ⟨clock2, running2, chans2⟩ := used (t.useFrame c a) d b
    refine ⟨clock2.trans (clock1.trans clock), running2.trans (running1.trans running), fun ch => ?_, fun ch _ off => ?_, changes⟩
    · rw [← chan]; exact (chans1 ch).1.trans (chans2 ch).1
    · rwa [(chans2 ch).2, (chans1 ch).2, chan] at off
  unfold State.takeFrame at changes ⊢
  dsimp only at changes ⊢
  by_cases present : (s.rx l).present = true
  · rw [if_pos present] at changes ⊢
    cases l
    · exact two _ .ch0 .ch1 ⟨rfl, rfl, rfl⟩ changes
    · exact two _ .ch2 .ch3 ⟨rfl, rfl, rfl⟩ changes
  · rw [if_neg present] at changes ⊢
    exact .of_channels changes (by simp) (by simp) (by cases l <;> rfl)

/-! ### Calibration commands -/

theorem State.Steady.startRun (s : State) (ch : Ch) (l : Level) (changes : Changes s (s.startRun ch l)) : s.Steady (s.startRun ch l) := by
  have superseded : ((s.supersede ch).clock = s.clock ∧ (s.supersede ch).running = s.running) ∧
      ∀ d, (s.chan d).Steady ((s.supersede ch).chan d) ∧ ((s.supersede ch).chan d).state = (s.chan d).state := by
    unfold State.supersede
    split
    · exact ⟨⟨rfl, rfl⟩, fun _ => ⟨.refl _, rfl⟩⟩
    · refine ⟨⟨rfl, rfl⟩, fun d => ?_⟩
      rw [State.notifyCal, State.chan_notifyBoth, State.chan_setChan]
      split
      · next same => subst same; exact ⟨⟨rfl, rfl, rfl, rfl, fun h => h, fun _ h => (by cases h), fun h => h⟩, rfl⟩
      · exact ⟨.refl _, rfl⟩
  have entered (c : Channel) : c.Steady c.enterCalibration ∧ c.enterCalibration.state ≠ .off := by
    unfold Channel.enterCalibration
    split
    · exact ⟨.of_eq rfl rfl rfl rfl rfl rfl rfl, by simp⟩
    · exact ⟨.of_eq rfl rfl rfl rfl rfl rfl rfl, by simp⟩
  obtain ⟨⟨clock, running⟩, chans⟩ := superseded
  have ran (d : Ch) : (s.chan d).Steady ((s.startRun ch l).chan d) ∧ (((s.startRun ch l).chan d).state = .off → (s.chan d).state = .off) := by
    unfold State.startRun
    dsimp only
    rw [State.chan_setChan]
    split
    · next same =>
      subst same
      obtain ⟨steady, notOff⟩ := entered ((s.supersede d).chan d)
      exact ⟨((chans d).1.trans steady).trans (.of_eq rfl rfl rfl rfl rfl rfl rfl), fun off => absurd off notOff⟩
    · exact ⟨(chans d).1, fun off => (chans d).2 ▸ off⟩
  exact ⟨clock, running, fun d => (ran d).1, fun d _ => (ran d).2, changes⟩

theorem State.Steady.abortRun (s : State) (ch : Ch) (changes : Changes s (s.abortRun ch)) : s.Steady (s.abortRun ch) := by
  have recovered (c : Channel) : c.Steady c.recover ∧ (c.recover.state = .off → c.state = .off) := by
    unfold Channel.recover
    split
    · exact ⟨.of_eq rfl rfl rfl rfl rfl rfl rfl, fun h => by cases h⟩
    all_goals exact ⟨.refl _, fun h => h⟩
  have state : ((s.endRun ch .aborted).chan ch).state = (s.chan ch).state := ((State.Calm.endRun s ch .aborted).chans ch).state
  refine .on (ch := ch) changes ((State.SameFrame.endRun s ch .aborted).trans (.setChan _ ch _)) (fun d hd => ?_) ?_ fun _ off => ?_
  · unfold State.abortRun
    dsimp only
    rw [State.chan_setChan_ne _ hd, State.endRun_ne s hd]
  · unfold State.abortRun
    dsimp only
    rw [State.chan_setChan_self]
    exact (s.endRun_steady ch .aborted).trans (recovered _).1
  · unfold State.abortRun at off
    dsimp only at off
    rw [State.chan_setChan_self] at off
    exact state ▸ (recovered _).2 off

theorem State.Steady.decideResult (s : State) (ch : Ch) (o : CalOutcome) (r : PendingResult) (fs : Option Level)
    (hf : fs = some r.newFs ∨ fs = (s.chan ch).pendingFs) (changes : Changes s (s.decideResult ch o fs)) : s.Steady (s.decideResult ch o fs) := by
  have decided : (s.decideResult ch o fs).chan ch = { s.chan ch with
      pendingResult := none, pendingFs := fs, calRecord := (s.chan ch).calRecord.conclude o s.minuteNow } := by
    simp only [State.decideResult, State.notifyCal, State.chan_notifyBoth, State.concludeRecord, State.chan_setChan_self]
    rfl
  refine .of_others (ch := ch) changes rfl rfl (fun d hd => ?_) ?_ fun _ off => ?_
  · simp only [State.decideResult, State.notifyCal, State.chan_notifyBoth, State.concludeRecord]
    rw [State.chan_setChan_ne _ hd, State.chan_setChan_ne _ hd]
  · rw [decided]
    refine ⟨rfl, rfl, rfl, rfl, fun none => ?_, fun _ h => (by cases h), fun h => h⟩
    obtain rfl | rfl := hf
    · cases none
    · exact none
  · rw [decided] at off
    exact off

/-- The channels of a mask take other settings. -/
theorem State.Steady.update (s : State) (m : ChannelMask) {f : Channel → Channel} (changes : Changes s { s with channels := s.channels.update m f })
    (steady : ∀ c : Channel, c.Steady (f c)) (state : ∀ c : Channel, (f c).state = c.state) : s.Steady { s with channels := s.channels.update m f } := by
  refine ⟨rfl, rfl, fun ch => ?_, fun ch _ off => ?_, changes⟩
  · cases ch <;> simp only [State.chan, Quad.update, Quad.get] <;> split <;> first | exact steady _ | exact .refl _
  · cases ch <;> simp only [State.chan, Quad.update, Quad.get] at off ⊢ <;> split at off <;> simpa only [state] using off

theorem State.Steady.reevaluateQuiet (s : State) (changes : Changes s s.reevaluateQuiet) : s.Steady s.reevaluateQuiet := by
  have held (l : List Ch) : ∀ t : State, (l.foldl State.holdQuiet t).clock = t.clock ∧ (l.foldl State.holdQuiet t).running = t.running ∧
      ∀ ch, (t.chan ch).Steady ((l.foldl State.holdQuiet t).chan ch) ∧ ((l.foldl State.holdQuiet t).chan ch).state = (t.chan ch).state := by
    induction l with
    | nil => exact fun t => ⟨rfl, rfl, fun _ => ⟨.refl _, rfl⟩⟩
    | cons c l ih =>
      intro t
      obtain ⟨clock, running, chans⟩ := ih (t.holdQuiet c)
      refine ⟨clock, running, fun ch => ?_⟩
      have one : (t.chan ch).Steady ((t.holdQuiet c).chan ch) ∧ ((t.holdQuiet c).chan ch).state = (t.chan ch).state := by
        rw [State.holdQuiet, State.chan_setChan]
        split
        · next same => subst same; exact ⟨.of_eq rfl rfl rfl rfl rfl rfl rfl, rfl⟩
        · exact ⟨.refl _, rfl⟩
      exact ⟨one.1.trans (chans ch).1, (chans ch).2.trans one.2⟩
  obtain ⟨clock, running, chans⟩ := held Ch.list s
  have frame := State.SameFrame.bringQuiet s.holdAllQuiet (quietChanged s s.holdAllQuiet) .commissioning
  refine ⟨frame.clock.trans clock, frame.running.trans running, fun ch => ?_, fun ch _ off => ?_, changes⟩
  · rw [State.reevaluateQuiet, State.chan_bringQuiet]; exact (chans ch).1
  · rw [State.reevaluateQuiet, State.chan_bringQuiet] at off
    exact (chans ch).2 ▸ off

end Sys2Proof.Machine


/-! What every command and event but a second and a power-on keeps (O34, O59, O60). -/

namespace Sys2Proof.Machine

/-! ### Owners that leave the channels and the clock -/

/-- The channels, the clock and whether the part runs stay. -/
def State.Apart (s t : State) : Prop := t.channels = s.channels ∧ t.clock = s.clock ∧ t.running = s.running

theorem State.Apart.refl (s : State) : s.Apart s := ⟨rfl, rfl, rfl⟩

theorem State.Apart.trans {s t u : State} (h : s.Apart t) (h' : t.Apart u) : s.Apart u :=
  ⟨h'.1.trans h.1, h'.2.1.trans h.2.1, h'.2.2.trans h.2.2⟩

theorem State.Apart.setPort (s : State) (p : Port) (x : PortState) : s.Apart (s.setPort p x) := by
  cases p <;> exact ⟨rfl, rfl, rfl⟩

theorem State.Apart.bringQuiet (s : State) (ch : Ch) (i : QuietInput) : s.Apart (s.bringQuiet ch i) := by
  have frame := State.SameFrame.bringQuiet s ch i
  refine ⟨?_, frame.clock, frame.running⟩
  unfold State.bringQuiet
  split <;> rfl

theorem State.Apart.lagLeft (s : State) (p : Port) : s.Apart (s.lagLeft p) := by
  unfold State.lagLeft
  split
  · cases p <;> exact ⟨rfl, rfl, rfl⟩
  · exact .refl s

theorem State.Apart.seekCursor (s : State) (p : Port) (c : Collection) (n : Nat) : s.Apart (s.seekCursor p c n) := by
  refine .trans (t := s.setPort p ((s.port p).setCursor c n)) (.setPort ..) ?_
  unfold State.seekCursor State.lagRaised
  split
  · cases p <;> exact ⟨rfl, rfl, rfl⟩
  · exact .refl _

theorem State.Apart.endStoreWrite (s : State) (b : Bool) : s.Apart (s.endStoreWrite b) := by
  unfold State.endStoreWrite
  split
  · exact .refl _
  · split <;> exact ⟨rfl, rfl, rfl⟩

theorem State.Apart.steady {s t : State} (h : s.Apart t) (changes : Changes s t) : s.Steady t := .of_channels changes h.1 h.2.1 h.2.2

/-- An owner whose accepted command leaves channels and clock. -/
def OwnerApart (owner : State → Except Result State) : Prop := ∀ s t : State, owner s = .ok t → s.Apart t

theorem ownerApart_ok {f : State → State} (h : ∀ s : State, s.Apart (f s)) : OwnerApart fun s => .ok (f s) := fun s t e => by
  injection e with e
  exact e ▸ h s

theorem namedSlot_apart {params : List Byte} {s t : State} {go : Fin 8 → Except Result State} (h : namedSlot params s go = .ok t)
    (apart : ∀ i, go i = .ok t → s.Apart t) : s.Apart t := by
  unfold namedSlot at h
  split at h
  · cases h
  · exact apart _ (check_ok h).2

/-- A decision on a slot changes the table alone. -/
theorem changeSlot_apart {s t : State} {b : Bool} {i : Fin 8} {x : Slot} (h : check b .state (.ok (s.changeSlot i x)) = .ok t) : s.Apart t := by
  obtain ⟨-, h⟩ := check_ok h
  injection h with h
  exact h ▸ ⟨rfl, rfl, rfl⟩

theorem writeEntryOwner_apart (params : List Byte) : OwnerApart (writeEntryOwner params) := by
  intro s t h
  unfold writeEntryOwner at h
  split at h
  · cases h
  · obtain ⟨-, h⟩ := check_ok h
    obtain ⟨-, h⟩ := check_ok h
    obtain ⟨-, h⟩ := check_ok h
    obtain ⟨-, h⟩ := check_ok h
    injection h with h
    exact h ▸ ⟨rfl, rfl, rfl⟩

theorem deleteEntryOwner_apart (params : List Byte) : OwnerApart (deleteEntryOwner params) := by
  intro s t h
  unfold deleteEntryOwner at h
  split at h
  · cases h
  · obtain ⟨-, h⟩ := check_ok h
    obtain ⟨-, h⟩ := check_ok h
    obtain ⟨-, h⟩ := check_ok h
    injection h with h
    exact h ▸ ⟨rfl, rfl, rfl⟩

theorem writeHeaderOwner_apart (params : List Byte) : OwnerApart (writeHeaderOwner params) := by
  intro s t h
  obtain ⟨-, h⟩ := check_ok h
  obtain ⟨-, h⟩ := check_ok h
  obtain ⟨-, h⟩ := check_ok h
  injection h with h
  exact h ▸ ⟨rfl, rfl, rfl⟩

theorem setProtectionOwner_apart (params : List Byte) (prot : Bool) : OwnerApart (setProtectionOwner params prot) := by
  intro s t h
  obtain ⟨-, h⟩ := check_ok h
  obtain ⟨-, h⟩ := check_ok h
  split at h
  · cases h
  · obtain ⟨-, h⟩ := check_ok h
    obtain ⟨-, h⟩ := check_ok h
    injection h with h
    exact h ▸ ⟨rfl, rfl, rfl⟩

theorem proposeOwner_apart (params : List Byte) : OwnerApart (proposeOwner params) := by
  intro s t h
  obtain ⟨-, h⟩ := check_ok h
  obtain ⟨-, h⟩ := check_ok h
  obtain ⟨-, h⟩ := check_ok h
  split at h
  · cases h
  · injection h with h
    exact h ▸ ⟨rfl, rfl, rfl⟩

theorem withdrawOwner_apart (params : List Byte) : OwnerApart (withdrawOwner params) :=
  fun _ _ h => namedSlot_apart h fun _ h => changeSlot_apart h

theorem rejectOwner_apart (params : List Byte) : OwnerApart (rejectOwner params) :=
  fun _ _ h => namedSlot_apart h fun _ h => changeSlot_apart h

theorem revokeOwner_apart (params : List Byte) : OwnerApart (revokeOwner params) :=
  fun _ _ h => namedSlot_apart h fun _ h => changeSlot_apart h

theorem approveOwner_apart (params : List Byte) : OwnerApart (approveOwner params) := by
  refine fun s t h => namedSlot_apart h fun i h => ?_
  obtain ⟨-, h⟩ := check_ok h
  obtain ⟨-, h⟩ := check_ok h
  injection h with h
  exact h ▸ ⟨rfl, rfl, rfl⟩

theorem seekOwner_apart (p : Port) (params : List Byte) : OwnerApart (seekOwner p params) := by
  intro s t h
  unfold seekOwner at h
  split at h
  · injection h with h
    exact h ▸ .seekCursor ..
  · cases h

theorem lockCommissioningOwner_apart : OwnerApart lockCommissioningOwner := by
  intro s t h
  obtain ⟨-, h⟩ := check_ok h
  obtain ⟨-, h⟩ := check_ok h
  injection h with h
  exact h ▸ ⟨rfl, rfl, rfl⟩

theorem State.Apart.requestQuiet (s : State) (p : Port) (on : Bool) : s.Apart (s.requestQuiet p on) :=
  (State.Apart.setPort ..).trans (.bringQuiet ..)

theorem State.Apart.portReset (s : State) (p : Port) : s.Apart (s.portReset p) :=
  ((State.Apart.setPort ..).trans (.requestQuiet ..)).trans ((State.Apart.setPort ..).trans (.lagLeft ..))

theorem State.setRx_running (s : State) (l : Line) (r : LineRx) : (s.setRx l r).running = s.running := by cases l <;> rfl

theorem State.Steady.setRx (s : State) (l : Line) {r : LineRx} (h : LineEffect (s.rx l) r) : s.Steady (s.setRx l r) :=
  .of_channels (Effects.one (k := .own) (.line s l r h rfl)).changes (by simp) (by simp) (s.setRx_running l r)

/-- A read's owner that leaves channels and clock. -/
def ReadApart (owner : State → Except Result (State × List Byte)) : Prop := ∀ (s t : State) (d : List Byte), owner s = .ok (t, d) → s.Apart t

theorem readApart_ok {f : State → State} {data : State → List Byte} (h : ∀ s : State, s.Apart (f s)) :
    ReadApart fun s => .ok (f s, data s) := fun s t d e => by
  injection e with e
  injection e with e _
  exact e ▸ h s

theorem readChannelOwner_apart (ps : List Byte) (wx : Bool) : ReadApart (readChannelOwner ps wx) := by
  intro s t d h
  unfold readChannelOwner at h
  split at h
  · cases h
  · injection h with h
    injection h with h
    exact h ▸ ⟨rfl, rfl, rfl⟩

theorem readEntryOwner_apart (ps : List Byte) : ReadApart (readEntryOwner ps) := by
  intro s t d h
  unfold readEntryOwner at h
  split at h
  · cases h
  · injection h with h
    injection h with h
    exact h ▸ ⟨rfl, rfl, rfl⟩

theorem readDispensationOwner_apart (ps : List Byte) : ReadApart (readDispensationOwner ps) := by
  intro s t d h
  unfold readDispensationOwner at h
  split at h
  · cases h
  · injection h with h
    injection h with h
    exact h ▸ ⟨rfl, rfl, rfl⟩

theorem readAccountOwner_apart (ps : List Byte) : ReadApart (readAccountOwner ps) := by
  intro s t d h
  unfold readAccountOwner at h
  split at h
  · cases h
  · injection h with h
    injection h with h
    exact h ▸ ⟨rfl, rfl, rfl⟩

theorem readHistogramOwner_apart (ps : List Byte) : ReadApart (readHistogramOwner ps) := by
  intro s t d h
  unfold readHistogramOwner at h
  split at h
  · cases h
  · injection h with h
    injection h with h
    exact h ▸ ⟨rfl, rfl, rfl⟩

/-! ### A property of the channels' time that the rest keeps -/

/-- A channel as a device reset leaves it, but for its state, its minute and its stored settings. -/
def Channel.Fresh (c : Channel) : Prop :=
  c = { Channel.reset with
    state := c.state, minuteNo := c.minuteNo, fs := c.fs
    calSeq := c.calSeq, uncalibrated := c.uncalibrated, calRecord := c.calRecord }

/-- Every channel is fresh, and while the part runs it is in the clock's minute. -/
structure State.Fresh (t : State) : Prop where
  chans : ∀ ch, (t.chan ch).Fresh
  minutes : t.running = true → ∀ ch, (t.chan ch).minuteNo = if t.clock.set then some t.clock.minute else none

theorem State.Fresh.held {t u : State} (channels : t.channels = u.beginReset.channels) (held : t.running = false) : t.Fresh where
  chans ch := by
    rw [State.chan, channels]
    cases ch <;> rfl
  minutes running := by rw [held] at running; cases running

theorem ResetDone.fresh {u v : State} {cause : ResetCause} {lost : Bool} (h : ResetDone u v cause lost) : v.Fresh where
  chans ch := by
    rw [h.channels ch]
    rfl
  minutes _ ch := by
    obtain ⟨-, -, -, -, clock, -⟩ := h.pins
    rw [h.channels ch, clock]

/-- The fall and the release of RESET_N and the loss of supply reset the channels, or change nothing but the line. -/
theorem State.resetLow_fresh (s : State) : s.resetLow.clock = s.clock ∧ (s.resetLow.Fresh ∨ s.Apart s.resetLow) := by
  by_cases high : s.resetN = true
  · by_cases on : s.supply = true
    · have made : s.resetLow = { s.beginReset with resetN := false, resetCause := .line, clockLossFound := false } := by
        rw [State.resetLow, if_neg (by rw [high]; decide), if_pos on]
      rw [made]
      exact ⟨rfl, .inl (.held (u := s) rfl (Bool.and_false _))⟩
    · rw [s.resetLow_unpowered high (by simpa using on)]
      exact ⟨rfl, .inr ⟨rfl, rfl, by simp [State.running, on]⟩⟩
  · rw [s.resetLow_held (by simpa using high)]
    exact ⟨rfl, .inr (.refl s)⟩

theorem State.resetRelease_fresh (s : State) : s.resetRelease.clock = s.clock ∧ (s.resetRelease.Fresh ∨ s.Apart s.resetRelease) := by
  by_cases high : s.resetN = true
  · rw [s.resetRelease_high high]
    exact ⟨rfl, .inr (.refl s)⟩
  · by_cases on : s.supply = true
    · have done := s.resetRelease_done (by simpa using high) on
      obtain ⟨-, -, -, -, clock, -⟩ := done.pins
      exact ⟨clock, .inl done.fresh⟩
    · rw [s.resetRelease_unpowered (by simpa using high) (by simpa using on)]
      exact ⟨rfl, .inr ⟨rfl, rfl, by simp [State.running, on]⟩⟩

/-- What has to keep a property for what is due, and the slices and lines, to keep it. -/
structure PacedWork (Q : State → Prop) : Prop where
  steady : ∀ {s t : State}, s.Steady t → Q s → Q t
  closes : ∀ {s u : State} {ch : Ch}, s.running = true → s.SteadyBut (· = ch) u → Q s → Q (u.closeWaiting ch)
  boundary : ∀ {s : State}, Q s → Q s.emitBoundary

/-- What has to keep a property for every command and event but a second and a power-on to keep it. -/
structure Paced (Q : State → Prop) : Prop extends PacedWork Q where
  setTime : ∀ {s : State} (n : Nat) {second : Nat}, s.running = true → second ≤ 59 → Q s → Q (s.setTime n second)
  trimClock : ∀ {s : State} {offset : Int}, s.running = true → -30 ≤ offset → offset ≤ 30 → Q s → Q (s.trimClock offset)
  resets : ∀ {s t : State}, Changes s t → t.clock = s.clock → t.Fresh → Q s → Q t

section
variable {Q : State → Prop} (paced : PacedWork Q)
include paced

theorem PacedWork.apart {s t : State} (apart : s.Apart t) (changes : Changes s t) (hs : Q s) : Q t := paced.steady (apart.steady changes) hs

omit paced in
theorem PacedWork.foldl {α : Type} {work : State → α → State} (frame : ∀ s a, (work s a).running = s.running)
    (keeps : ∀ (s : State) (a : α), s.running = true → Q s → Q (work s a)) :
    ∀ (l : List α) (s : State), s.running = true → Q s → Q (l.foldl work s)
  | [], _, _, hs => hs
  | a :: l, s, hr, hs => PacedWork.foldl frame keeps l (work s a) ((frame s a).trans hr) (keeps s a hr hs)

theorem PacedWork.inAnyOrder {α : Type} {work : State → α → State} (frame : ∀ s a, (work s a).running = s.running)
    (keeps : ∀ (s : State) (a : α), s.running = true → Q s → Q (work s a)) (l : List α) {s : State} (hr : s.running = true) (hs : Q s) :
    Q (s.inAnyOrder l work) :=
  PacedWork.foldl frame keeps _ _ ((State.Steady.arrange s l).running.trans hr) (paced.steady (.arrange s l) hs)

/-! ### Slices and lines -/

theorem PacedWork.cutSlice {s : State} (ch : Ch) (hr : s.running = true) (hs : Q s) : Q (s.cutSlice ch) :=
  paced.closes hr (.handOn s ch _) hs

theorem PacedWork.endSlice {s : State} (ch : Ch) (hr : s.running = true) (hs : Q s) : Q (s.endSlice ch) :=
  paced.closes hr ((State.SteadyBut.handOn s ch _).trans (State.settleProgress_steady _ ch)) hs

theorem PacedWork.frameSliceEnd {s : State} (ch : Ch) (hs : Q s) : Q (s.frameSliceEnd ch) := by
  unfold State.frameSliceEnd
  split
  case isTrue due =>
    have running : s.running = true := ((s.sliceDue_iff ch).mp due).1
    exact paced.endSlice ch ((State.Steady.blockEnd s ch).running.trans running) (paced.steady (.blockEnd s ch) hs)
  case isFalse => exact hs

theorem PacedWork.crystalSliceEnd {s : State} (ch : Ch) (hs : Q s) : Q (s.crystalSliceEnd ch) := by
  unfold State.crystalSliceEnd
  split
  case isTrue due => exact paced.endSlice ch (by simp_all) hs
  case isFalse => exact hs

theorem PacedWork.loseChannel {s : State} (ch : Ch) (hr : s.running = true) (hs : Q s) : Q (s.loseChannel ch) := by
  unfold State.loseChannel
  split
  · exact hs
  · exact hs
  · exact paced.steady (.faults _ ch) (paced.cutSlice ch hr hs)

theorem PacedWork.restoreChannel {s : State} (ch : Ch) (hr : s.running = true) (hs : Q s) : Q (s.restoreChannel ch) := by
  unfold State.restoreChannel
  split
  case isTrue faulted =>
    exact paced.steady (.resettles _ ch (by rw [State.state_cutSlice, faulted])) (paced.cutSlice ch hr hs)
  case isFalse => exact hs

theorem PacedWork.lineLost {s : State} (l : Line) (hs : Q s) : Q (s.lineLost l) := by
  unfold State.lineLost
  split
  case isTrue running =>
    have left : Q (s.setRx l ⟨false, 0, 66⟩) := paced.steady (.setRx s l .noFrames) hs
    split
    · exact paced.inAnyOrder (fun s ch => (State.SameFrame.loseChannel s ch).running) (fun _ ch => paced.loseChannel ch) _
        ((s.setRx_running l _).trans running) left
    · exact left
  case isFalse => exact hs

theorem PacedWork.lineRestored {s : State} (l : Line) (hs : Q s) : Q (s.lineRestored l) := by
  unfold State.lineRestored
  split
  case isTrue due =>
    exact paced.inAnyOrder (fun s ch => (State.SameFrame.restoreChannel s ch).running) (fun _ ch => paced.restoreChannel ch) _
      ((s.setRx_running l _).trans (by simp_all)) (paced.steady (.setRx s l .restored) hs)
  case isFalse => exact hs

theorem PacedWork.stopChannel {s : State} (ch : Ch) (hr : s.running = true) (hs : Q s) : Q (s.stopChannel ch) := by
  unfold State.stopChannel
  split
  · exact hs
  · exact paced.closes hr (.stops s ch) hs

theorem PacedWork.stopChannels {s : State} (m : ChannelMask) (hr : s.running = true) (hs : Q s) : Q (s.stopChannels m) :=
  paced.inAnyOrder (fun s ch => (State.SameFrame.stopChannel s ch).running) (fun _ ch => paced.stopChannel ch) _ hr hs

/-! ### What is due -/

theorem PacedWork.takeDue {s : State} (x : DueStep) (hs : Q s) : Q (s.takeDue x) := by
  cases x with
  | slice ch => exact paced.frameSliceEnd ch hs
  | restored l => exact paced.lineRestored l hs
  | lapse ch => exact paced.steady (.lapseResult s ch) hs
  | boundary => exact paced.boundary hs

theorem PacedWork.dueSteps (l : List DueStep) : ∀ {s : State}, Q s → Q (l.foldl State.takeDue s) := by
  induction l with
  | nil => exact fun hs => hs
  | cons x l ih => exact fun hs => ih (paced.takeDue x hs)

theorem PacedWork.beginStoreWrite {s : State} (hs : Q s) : Q s.beginStoreWrite := by
  refine paced.apart ?_ (Effects.one (k := .own) (.writeBegun s)).changes hs
  unfold State.beginStoreWrite
  exact ⟨rfl, rfl, rfl⟩

theorem PacedWork.settle {s : State} (hs : Q s) : Q s.settle := by
  have blocks : Q s.endBlocks := paced.steady (State.SteadyBut.foldl State.Steady.blockEnd _ s) hs
  exact paced.beginStoreWrite (paced.dueSteps _ (paced.steady (.arrange s.endBlocks s.endBlocks.dueSteps) blocks))

end

section
variable {Q : State → Prop} (paced : Paced Q)
include paced

/-! ### Transactions -/

omit paced in
theorem State.SteadyBut.recordTransaction (s : State) (p : Port) (x : Transaction) : s.Steady (s.recordTransaction p x) :=
  .setPort s p _ (effects_recordTransaction (k := .calm p) rfl s x).changes

omit paced in
theorem State.SteadyBut.conclude (s : State) (p : Port) (r : Option Result) (x : Transaction) : s.Steady (s.conclude p r x) :=
  .setPort s p _ (effects_conclude (k := .calm p) rfl s r x).changes

theorem Paced.transact {s : State} (p : Port) (piece : Piece) (code : Byte) (judge : List Byte → List Byte → Bool → State → Judgement)
    (judged : ∀ before after rises (s : State), s.running = true → Q s → Q (judge before after rises s).state) (hs : Q s) :
    Q (s.transact p piece code judge) := by
  delta State.transact
  dsimp only
  split
  case isTrue running =>
    have settled := paced.settle hs
    split
    · exact settled
    · exact paced.steady (.recordTransaction ..) settled
    · split
      · exact paced.steady (.conclude ..) (judged _ _ _ _ (s.settle_running.trans running) settled)
      · exact settled
  case isFalse => exact paced.steady (.recordTransaction ..) hs

theorem Paced.portWrite {s : State} (p : Port) (code : Byte) (n : Nat) (role : Role) (piece : Piece)
    (owner : List Byte → State → Except Result State)
    (owned : ∀ ps (s t : State), role.allows p = true → owner ps s = .ok t → s.running = true → Q s → Q t) (hs : Q s) :
    Q (portWrite p code n role piece owner s) := by
  refine paced.transact p piece code _ (fun before after rises s running hs => ?_) hs
  unfold judgeWrite
  split
  · dsimp only
    split
    · exact hs
    · unfold judgeOwner
      split
      · exact hs
      · next allowed =>
        split
        · next t h => exact owned _ _ t (by simpa using allowed) h running hs
        · exact hs
  · exact hs

theorem Paced.portRead {s : State} (p : Port) (code : Byte) (n : Nat) (piece : Piece)
    (owner : List Byte → State → Except Result (State × List Byte))
    (apart : ∀ ps, ReadApart (owner ps)) (effects : ∀ ps (s t : State) d, owner ps s = .ok (t, d) → Effects (.calm p) s t) (hs : Q s) :
    Q (portRead p code n piece owner s) := by
  refine paced.transact p piece code _ (fun before after rises s running hs => ?_) hs
  unfold judgeRead
  split
  · unfold judgeSnapshot
    split
    · next t d h => exact paced.apart (apart _ _ _ d h) (effects _ _ _ d h).changes hs
    · exact hs
  · split <;> exact hs

/-- A write whose owner leaves the channels and the clock. -/
theorem Paced.plainWrite {s : State} {p : Port} {code : Byte} {n : Nat} {role : Role} {piece : Piece}
    {owner : List Byte → State → Except Result State} (apart : ∀ ps, OwnerApart (owner ps))
    (effects : ∀ ps (s t : State), role.allows p = true → owner ps s = .ok t → Effects (.calm p) s t) (hs : Q s) :
    Q (Sys2Proof.Machine.portWrite p code n role piece owner s) :=
  paced.portWrite p code n role piece owner (fun ps s t allowed h _ => paced.apart (apart ps s t h) (effects ps s t allowed h).changes) hs

/-! ### Owners that work on channels or the clock -/

omit paced in
theorem namedResult_decides {params : List Byte} {s t : State} {o : CalOutcome} {fs : Ch → PendingResult → Option Level}
    (h : namedResult params s (fun ch r => s.decideResult ch o (fs ch r)) = .ok t)
    (asked : ∀ ch r, fs ch r = some r.newFs ∨ fs ch r = (s.chan ch).pendingFs) (changes : Changes s t) : s.Steady t := by
  unfold namedResult at h
  split at h
  · cases h
  · obtain ⟨-, h⟩ := check_ok h
    split at h
    · cases h
    · injection h with h
      subst h
      exact .decideResult s _ o _ _ (asked _ _) changes

theorem Paced.setTimeOwner (ps : List Byte) {s t : State} (h : setTimeOwner ps s = .ok t) (running : s.running = true) (hs : Q s) : Q t := by
  obtain ⟨valid, h⟩ := check_ok h
  injection h with h
  refine h ▸ paced.setTime _ running ?_ hs
  simp only [Calendar.valid, Bool.not_eq_false', Bool.and_eq_true, decide_eq_true_eq] at valid
  exact valid.2

theorem Paced.trimClockOwner (ps : List Byte) {s t : State} (h : trimClockOwner ps s = .ok t) (running : s.running = true) (hs : Q s) : Q t := by
  obtain ⟨-, h⟩ := check_ok h
  injection h with h
  have clamped := clampTo_eq (lo := -30) (hi := 30) (by decide) (s8At ps 0)
  exact h ▸ paced.trimClock running (by omega) (by omega) hs

theorem Paced.calibrateOwner {p : Port} (ps : List Byte) {s t : State} (h : calibrateOwner ps s = .ok t) (hs : Q s) : Q t := by
  have changes := (effects_calibrateOwner (k := ⟨some p, true, false, false⟩) rfl rfl ps s t h).changes
  unfold Sys2Proof.Machine.calibrateOwner at h
  split at h
  · cases h
  · obtain ⟨-, h⟩ := check_ok h
    obtain ⟨-, h⟩ := check_ok h
    obtain ⟨-, h⟩ := check_ok h
    obtain ⟨-, h⟩ := check_ok h
    injection h with h
    subst h
    exact paced.steady (.startRun s _ _ changes) hs

theorem Paced.abortOwner {p : Port} (ps : List Byte) {s t : State} (h : abortOwner ps s = .ok t) (hs : Q s) : Q t := by
  have changes := (effects_abortOwner (k := ⟨some p, true, false, false⟩) rfl rfl ps s t h).changes
  unfold Sys2Proof.Machine.abortOwner at h
  split at h
  · cases h
  · obtain ⟨-, h⟩ := check_ok h
    injection h with h
    subst h
    exact paced.steady (.abortRun s _ changes) hs

theorem Paced.writeCommissioningOwner (ps : List Byte) {s t : State} (h : writeCommissioningOwner ps s = .ok t) (hs : Q s) : Q t := by
  obtain ⟨-, h⟩ := check_ok h
  obtain ⟨-, h⟩ := check_ok h
  obtain ⟨free, h⟩ := check_ok h
  injection h with h
  subst h
  have recorded : Effect (.calm .compliance) s (s.recordCommissioning (commissioningAt ps)) := .commissioned s _ (by simpa using free) rfl
  refine paced.steady (.reevaluateQuiet _ (Effects.one (k := .calm .compliance) (.reevaluated _ rfl)).changes)
    (paced.apart (s := s) (t := s.recordCommissioning _) ⟨rfl, rfl, rfl⟩ (Effects.one recorded).changes hs)

theorem Paced.resetLow {s : State} (hs : Q s) : Q s.resetLow := by
  have changes := (effects_resetLow (k := ⟨none, true, true, false⟩) rfl rfl s).changes
  obtain ⟨clock, fresh | apart⟩ := s.resetLow_fresh
  · exact paced.resets changes clock fresh hs
  · exact paced.apart apart changes hs

theorem Paced.resetRelease {s : State} (hs : Q s) : Q s.resetRelease := by
  have changes := (effects_resetRelease (k := ⟨none, true, true, false⟩) rfl rfl s).changes
  obtain ⟨clock, fresh | apart⟩ := s.resetRelease_fresh
  · exact paced.resets changes clock fresh hs
  · exact paced.apart apart changes hs

theorem Paced.powerDown {s : State} (hs : Q s) : Q s.powerDown :=
  paced.resets (effects_powerDown (k := ⟨none, true, true, false⟩) rfl rfl s).changes rfl (.held (u := s) rfl rfl) hs

/-! ### Every command and event -/

theorem Paced.frameSliceEndAt {s : State} (ch : Ch) (wx : Bool) (hs : Q s) : Q (s.frameSliceEndAt ch wx) := by
  unfold State.frameSliceEndAt
  split
  · exact paced.frameSliceEnd ch (paced.apart (s := s) (t := s.sampleWx wx) ⟨rfl, rfl, rfl⟩ (effects_sampleWx (k := .own) s wx).changes hs)
  · exact hs

theorem Paced.sliceEndFor {s : State} (ch : Ch) (wx b : Bool) (hs : Q s) : Q (s.sliceEndFor ch wx b) := by
  unfold State.sliceEndFor
  split
  · exact paced.frameSliceEndAt ch wx hs
  · exact hs

end

/-- The commands and events that a second and a power-on are not. -/
theorem exec_paced {Q : State → Prop} (paced : Paced Q) {i : Instr} {s t : State} (h : exec i s = .next t) (noSecond : i ≠ .secondTick)
    (noPower : ∀ lost, i ≠ .powerOn lost) (hs : Q s) : Q t := by
  revert hs; cases i <;> injection h with h <;> subst h <;> intro hs
  case nop p x => exact paced.transact p x 0x00 _ (fun _ _ _ _ _ h => h) hs
  case unknownCommandCode p c x =>
    exact paced.transact p x c _ (fun b a r u _ h => paced.apart (by unfold judgeUnknown; split <;> exact .refl u)
      (effects_judgeUnknown (k := .own) b a r u).changes h) hs
  case readLive p x wx => exact paced.portRead _ _ _ _ _ (fun _ => readApart_ok fun _ => ⟨rfl, rfl, rfl⟩) (fun _ => effects_readLiveOwner wx) hs
  case readChannel p x wx =>
    exact paced.portRead _ _ _ _ _ (fun ps => readChannelOwner_apart ps wx) (fun ps => effects_readChannelOwner ps wx) hs
  case readClock p x =>
    exact paced.portRead _ _ _ _ _ (fun _ => readApart_ok .refl) (fun ps s t d h => effects_data (f := State.clockBytes) s t d h) hs
  case readEntry p x =>
    exact paced.portRead _ _ _ _ _ readEntryOwner_apart (fun ps => effects_readEntryOwner ps) hs
  case readHeader p x prot => exact paced.portRead _ _ _ _ _ (fun _ => readApart_ok fun _ => ⟨rfl, rfl, rfl⟩) (fun _ => effects_readHeaderOwner prot) hs
  case readDispensation p x =>
    exact paced.portRead _ _ _ _ _ readDispensationOwner_apart (fun ps => effects_readDispensationOwner ps) hs
  case readAccount p x =>
    exact paced.portRead _ _ _ _ _ readAccountOwner_apart (fun ps => effects_readAccountOwner ps) hs
  case readHistogram p x =>
    exact paced.portRead _ _ _ _ _ readHistogramOwner_apart (fun ps => effects_readHistogramOwner ps) hs
  case readEvents p x =>
    exact paced.portRead _ _ _ _ _ (fun _ => readApart_ok fun _ => .setPort ..) (fun ps s t d h => by
      injection h with h; injection h with h _; subst h; exact .one (.readEvents s p _ rfl)) hs
  case readHistory p x =>
    exact paced.portRead _ _ _ _ _ (fun _ => readApart_ok fun _ => .setPort ..) (fun ps s t d h => by
      injection h with h; injection h with h _; subst h; exact .one (.readHistory s p _ rfl)) hs
  case readPeriods p x =>
    exact paced.portRead _ _ _ _ _ (fun _ => readApart_ok fun _ => .setPort ..) (fun ps s t d h => by
      injection h with h; injection h with h _; subst h; exact .one (.readPeriods s p _ rfl)) hs
  case readNotices p x =>
    exact paced.portRead _ _ _ _ _ (fun _ => readApart_ok fun _ => .setPort ..) (fun ps s t d h => by
      injection h with h; injection h with h _; subst h; exact effects_clearFlags s p) hs
  case readCommissioning p x =>
    exact paced.portRead _ _ _ _ _ (fun _ => readApart_ok .refl)
      (fun ps s t d h => effects_data (f := fun s => s.commissioning.bytes) s t d h) hs
  case identify p x =>
    exact paced.portRead _ _ _ _ _ (fun _ => readApart_ok .refl) (fun ps s t d h => effects_data (f := fun _ => identityBytes) s t d h) hs
  case seek p x => exact paced.plainWrite (seekOwner_apart p) (fun ps s t _ h => effects_seekOwner rfl ps s t h) hs
  case startChannels p x =>
    exact paced.portWrite _ _ _ _ _ _ (fun ps s t _ h _ => by
      obtain ⟨-, h⟩ := check_ok h
      injection h with h; subst h; exact paced.steady (.startChannels s _)) hs
  case stopChannels p x =>
    exact paced.portWrite _ _ _ _ _ _ (fun ps s t _ h running => by
      injection h with h; subst h; exact paced.stopChannels _ running) hs
  case exclude p x =>
    exact paced.portWrite _ _ _ _ _ _ (fun ps s t _ h _ => by
      have changes := (effects_excludeOwner (k := .calm .compliance) rfl ps s t h).changes
      injection h with h; subst h; exact paced.steady (.update s _ changes (fun _ => .of_eq rfl rfl rfl rfl rfl rfl rfl) fun _ => rfl)) hs
  case setEventTrigger p x =>
    exact paced.portWrite _ _ _ _ _ _ (fun ps s t _ h _ => by
      have changes := (effects_setEventTriggerOwner (k := .calm p) rfl ps s t h).changes
      injection h with h; subst h; exact paced.steady (.update s _ changes (fun _ => .of_eq rfl rfl rfl rfl rfl rfl rfl) fun _ => rfl)) hs
  case calibrate p x => exact paced.portWrite _ _ _ _ _ _ (fun ps _ _ _ h _ => paced.calibrateOwner (p := p) ps h) hs
  case abortCalibration p x => exact paced.portWrite _ _ _ _ _ _ (fun ps _ _ _ h _ => paced.abortOwner (p := p) ps h) hs
  case acceptCalibration p x =>
    exact paced.portWrite _ _ _ _ _ _ (fun ps s t _ h _ => paced.steady (namedResult_decides h (fun _ _ => .inl rfl)
      (effects_acceptOwner (k := .calm .compliance) rfl ps s t h).changes)) hs
  case rejectCalibration p x =>
    exact paced.portWrite _ _ _ _ _ _ (fun ps s t _ h _ => paced.steady (namedResult_decides h (fun _ _ => .inr rfl)
      (effects_rejectResultOwner (k := .calm .compliance) rfl ps s t h).changes)) hs
  case setTime p x => exact paced.portWrite _ _ _ _ _ _ (fun ps _ _ _ h => paced.setTimeOwner ps h) hs
  case trimClock p x => exact paced.portWrite _ _ _ _ _ _ (fun ps _ _ _ h => paced.trimClockOwner ps h) hs
  case writeEntry p x =>
    exact paced.portWrite _ _ _ _ _ _ (fun ps s t _ h _ => paced.apart (writeEntryOwner_apart ps s t h)
      (effects_writeEntryOwner (k := .calm .compliance) rfl ps s t h).changes) hs
  case deleteEntry p x =>
    exact paced.portWrite _ _ _ _ _ _ (fun ps s t _ h _ => paced.apart (deleteEntryOwner_apart ps s t h)
      (effects_deleteEntryOwner (k := .calm .compliance) rfl ps s t h).changes) hs
  case writeHeader p x =>
    exact paced.portWrite _ _ _ _ _ _ (fun ps s t _ h _ => paced.apart (writeHeaderOwner_apart ps s t h)
      (effects_writeHeaderOwner (k := .calm .compliance) rfl ps s t h).changes) hs
  case setProtection p x prot =>
    exact paced.portWrite _ _ _ _ _ _ (fun ps s t _ h _ => paced.apart (setProtectionOwner_apart ps prot s t h)
      (effects_setProtectionOwner (k := .calm .compliance) rfl ps prot s t h).changes) hs
  case proposeDispensation p x =>
    exact paced.portWrite _ _ _ _ _ _ (fun ps s t _ h _ => paced.apart (proposeOwner_apart ps s t h)
      (effects_proposeOwner (k := .calm .site) rfl ps s t h).changes) hs
  case withdrawDispensation p x => exact paced.plainWrite withdrawOwner_apart (fun ps s t _ h => effects_withdrawOwner ps s t h) hs
  case approveDispensation p x =>
    exact paced.portWrite _ _ _ _ _ _ (fun ps s t _ h _ => paced.apart (approveOwner_apart ps s t h)
      (effects_approveOwner (k := .calm .compliance) rfl ps s t h).changes) hs
  case rejectDispensation p x => exact paced.plainWrite rejectOwner_apart (fun ps s t _ h => effects_rejectOwner ps s t h) hs
  case revokeDispensation p x => exact paced.plainWrite revokeOwner_apart (fun ps s t _ h => effects_revokeOwner ps s t h) hs
  case setNoticeEnables p x =>
    exact paced.plainWrite (fun _ => ownerApart_ok fun _ => .setPort ..) (fun ps s t _ h => by
      injection h with h; subst h; exact .one (.enabled s p _ (s.port p).conditions rfl)) hs
  case clearConditions p x =>
    exact paced.plainWrite (fun _ => ownerApart_ok fun _ => .setPort ..) (fun ps s t _ h => by
      injection h with h; subst h; exact .one (.notices s p (s.port p).notices _ rfl)) hs
  case setQuietRequest p x =>
    exact paced.plainWrite (fun _ => ownerApart_ok fun _ => .requestQuiet ..) (fun ps s t _ h => by
      injection h with h; subst h; exact .one (.requested s p _ rfl)) hs
  case portReset p x =>
    exact paced.plainWrite (fun _ => ownerApart_ok fun _ => .portReset ..) (fun ps s t _ h => by
      injection h with h; subst h; exact effects_portReset rfl s) hs
  case writeCommissioning p x => exact paced.portWrite _ _ _ _ _ _ (fun ps _ _ _ h _ => paced.writeCommissioningOwner ps h) hs
  case lockCommissioning p x =>
    exact paced.portWrite _ _ _ _ _ _ (fun ps s t _ h _ => paced.apart (lockCommissioningOwner_apart s t h)
      (effects_lockCommissioningOwner (k := .calm .compliance) rfl s t h).changes) hs
  case deviceReset p x =>
    exact paced.portWrite _ _ _ _ _ _ (fun ps s t _ h running => by
      have changes := (effects_deviceResetOwner (k := ⟨some p, true, true, false⟩) rfl rfl s t h).changes
      obtain ⟨-, h⟩ := check_ok h
      injection h with h
      have done := s.completeReset_done .command false (Bool.and_eq_true_iff.mp running).1 (Bool.and_eq_true_iff.mp running).2
      subst h; exact paced.resets changes done.pins.2.2.2.2.1 done.fresh) hs
  case resetNLow => exact paced.resetLow (paced.settle hs)
  case resetNRelease => exact paced.resetRelease (paced.settle hs)
  case powerOn b => exact absurd rfl (noPower b)
  case lossOfSupply => exact paced.powerDown (paced.settle hs)
  case audioFrame l a b =>
    split
    · exact paced.steady (.takeFrame _ l a b s.blockCount_settle) (paced.settle hs)
    · exact hs
  case incompleteFrameDiscard l => exact hs
  case blockEnd ch => exact paced.steady (.blockEnd s ch) hs
  case frameSliceEnd ch wx => exact paced.frameSliceEndAt ch wx hs
  case crystalSliceEnd ch => exact paced.crystalSliceEnd ch (paced.settle hs)
  case lineLost l => exact paced.lineLost l (paced.settle hs)
  case lineRestored l => exact paced.lineRestored l hs
  case settlingComplete ch wx => exact paced.sliceEndFor ch wx _ hs
  case calSettleComplete ch wx => exact paced.sliceEndFor ch wx _ hs
  case calMeasureComplete ch wx => exact paced.sliceEndFor ch wx _ hs
  case calRecoverComplete ch wx => exact paced.sliceEndFor ch wx _ hs
  case calResultLapse ch => exact paced.steady (.lapseResult s ch) hs
  case secondTick => exact absurd rfl noSecond
  case minuteBoundary => exact paced.boundary hs
  case eventCloseFell ch wx => exact paced.sliceEndFor ch wx _ hs
  case eventCloseLong ch wx => exact paced.sliceEndFor ch wx _ hs
  case storeWriteBegin => exact paced.beginStoreWrite hs
  case storeWriteEnd b =>
    exact paced.apart (.endStoreWrite ..) (Effects.one (k := .own) (.writeEnded s.settle b)).changes (paced.settle hs)
end Sys2Proof.Machine


/-! Elapsed clock time and the lapse of pending results (O34). -/

namespace Sys2Proof.Machine

/-! ### A second -/

theorem Channel.tickLapse_eq (c : Channel) :
    c.tickLapse = { c with pendingResult := c.pendingResult.map fun r => { r with lapse := r.lapse + 1 } } := by
  unfold Channel.tickLapse
  split
  · next none => rw [none, Option.map_none, ← none]
  · next r some => rw [some, Option.map_some]

theorem State.elapse_whole {u : State} {n : Nat} (whole : 32768 ≤ u.clock.elapsed + n) :
    u.elapse n = { u with clock := { u.clock with elapsed := u.clock.elapsed + n - 32768 } }.tickLapses := by
  unfold State.elapse
  dsimp only
  rw [if_neg (Nat.not_lt.mpr whole)]

theorem State.elapse_part {u : State} {n : Nat} (part : u.clock.elapsed + n < 32768) :
    u.elapse n = { u with clock := { u.clock with elapsed := u.clock.elapsed + n } } := by
  unfold State.elapse
  dsimp only
  rw [if_pos part]

/-- R42, R44: elapsed clock time and the channels after `n` more crystal periods. -/
theorem State.elapse_does (u : State) (n : Nat) :
    u.elapse n = { u with
      clock := { u.clock with elapsed := if 32768 ≤ u.clock.elapsed + n then u.clock.elapsed + n - 32768 else u.clock.elapsed + n }
      channels := (u.elapse n).channels } ∧
    ∀ ch, (u.elapse n).chan ch = if 32768 ≤ u.clock.elapsed + n then (u.chan ch).tickLapse else u.chan ch := by
  by_cases whole : 32768 ≤ u.clock.elapsed + n
  · rw [State.elapse_whole whole, if_pos whole]
    refine ⟨rfl, fun ch => ?_⟩
    rw [if_pos whole]
    cases ch <;> rfl
  · rw [State.elapse_part (Nat.lt_of_not_le whole), if_neg whole]
    refine ⟨rfl, fun ch => ?_⟩
    rw [if_neg whole]
    rfl

/-- R42, R44: the clock and the channels after a wrap of the prescaler. -/
theorem State.secondElapsed_does (u : State) :
    let passed := u.clock.elapsed + (32768 - u.clock.prescaler)
    u.secondElapsed = { u with
      clock := { u.clock with
        prescaler := 0, seconds := u.clock.seconds + 1, elapsed := if 32768 ≤ passed then passed - 32768 else passed }
      channels := u.secondElapsed.channels } ∧
    ∀ ch, u.secondElapsed.chan ch = if 32768 ≤ passed then (u.chan ch).tickLapse else u.chan ch := by
  obtain ⟨made, chans⟩ := u.elapse_does (32768 - u.clock.prescaler)
  unfold State.secondElapsed
  dsimp only
  generalize u.elapse (32768 - u.clock.prescaler) = v at made chans
  refine ⟨?_, chans⟩
  rw [made]

/-! ### What moves no elapsed clock time -/

/-- Elapsed clock time stands as in `s`, and no lapse count has moved on since. -/
def State.Since (s t : State) : Prop :=
  t.clock.elapsed = s.clock.elapsed ∧
    ∀ ch r, (t.chan ch).pendingResult = some r → (s.chan ch).pendingResult = some r ∨ r.lapse = 0

theorem State.Since.trans {s t u : State} (h : s.Since t) (clock : u.clock.elapsed = t.clock.elapsed)
    (results : ∀ ch r, (u.chan ch).pendingResult = some r → (t.chan ch).pendingResult = some r ∨ r.lapse = 0) : s.Since u :=
  ⟨clock.trans h.1, fun ch r held => (results ch r held).elim (h.2 ch r) .inr⟩

theorem State.Since.slicesOn {s t u : State} (h : s.Since t) (clock : u.clock.elapsed = t.clock.elapsed) (on : t.SlicesOn u) : s.Since u :=
  h.trans clock fun ch => (on.chans ch).result

theorem State.Since.steady {ends : Ch → Prop} {s t u : State} (h : s.Since t) (steady : t.SteadyBut ends u) : s.Since u :=
  h.trans (by rw [steady.clock]) fun ch r held => ((steady.chans ch).lapse r held).symm

theorem State.emitBoundary_elapsed (s : State) : s.emitBoundary.clock.elapsed = s.clock.elapsed := by
  rw [State.emitBoundary_clock]
  split <;> rfl

theorem State.Since.trimClock {s t : State} (h : s.Since t) (offset : Int) : s.Since (t.trimClock offset) := by
  have set : s.Since { t with clock := { t.clock with length := (60 + offset).toNat } } := h
  exact (set.slicesOn (State.emitBoundary_elapsed _) (.emitBoundary _)).trans (by rfl) fun _ _ => .inl

theorem State.since_paced (s : State) : Paced s.Since where
  steady steady h := h.steady steady
  closes _ steady h := (h.steady steady).slicesOn (by rw [(State.SameFrame.closeWaiting _ _).clock]) (.closeWaiting _ _)
  boundary h := h.slicesOn (State.emitBoundary_elapsed _) (.emitBoundary _)
  setTime n second _ _ h := (h.slicesOn (by rw [State.deliver_clock]) (.deliver _ _)).trans (by rfl) fun _ _ => .inl
  trimClock _ _ _ h := h.trimClock _
  resets _ clock fresh h := h.trans (by rw [clock]) fun ch r held => by rw [fresh.chans ch] at held; cases held

/-! ### The lapse -/

theorem State.lapseResult_short {s : State} {ch : Ch} (short : ∀ r, (s.chan ch).pendingResult = some r → r.lapse < 600) :
    s.lapseResult ch = s := by
  refine if_neg ?_
  cases pending : (s.chan ch).pendingResult with
  | none => simp [Channel.lapseDue, pending]
  | some r => simpa [Channel.lapseDue, pending] using short r pending

/-- R122: a lapse is a decision that leaves a pending switch. -/
theorem State.lapseResult_decides {s : State} {ch : Ch} {r : PendingResult} (pending : (s.chan ch).pendingResult = some r) (due : 600 ≤ r.lapse) :
    s.lapseResult ch = s.decideResult ch .lapsed (s.chan ch).pendingFs := if_pos (by simp [Channel.lapseDue, pending, due])

theorem State.secondElapsed_tells (u : State) :
    let passed := u.clock.elapsed + (32768 - u.clock.prescaler)
    let t := u.secondElapsed
    t = { u with
      clock := { u.clock with
        prescaler := 0, seconds := u.clock.seconds + 1, elapsed := if 32768 ≤ passed then passed - 32768 else passed }
      channels := t.channels } ∧
    (∀ ch, t.chan ch = if 32768 ≤ passed then
      { u.chan ch with pendingResult := (u.chan ch).pendingResult.map fun r => { r with lapse := r.lapse + 1 } } else u.chan ch) ∧
    (u.clock.elapsed = u.clock.prescaler → u.clock.prescaler < 32768 → 32768 ≤ passed ∧ t.clock.elapsed = 0) := by
  intro passed t
  obtain ⟨made, chans⟩ := u.secondElapsed_does
  refine ⟨made, fun ch => Channel.tickLapse_eq (u.chan ch) ▸ chans ch, fun step below => ?_⟩
  have whole : 32768 ≤ passed := by omega
  have left : passed - 32768 = 0 := by omega
  refine ⟨whole, ?_⟩
  show u.secondElapsed.clock.elapsed = 0
  rw [made]
  exact (if_pos whole).trans left

/-- Settles O34: a wrap runs elapsed clock time on by what the prescaler had left, and nothing else moves it. -/
theorem secondsAndLapses : Obligations.SecondsAndLapses := by
  intro s
  refine ⟨⟨_, rfl, s.settle.secondElapsed_tells⟩, fun i t noSecond noPower h => exec_paced s.since_paced h noSecond noPower ⟨rfl, fun _ _ => .inl⟩,
    fun ch => ⟨fun short => congrArg _ (State.lapseResult_short short), fun r pending due => ?_⟩⟩
  have does := s.decideResult_does ch .lapsed (s.chan ch).pendingFs
  rw [← State.lapseResult_decides pending due] at does
  exact ⟨_, rfl, does⟩
end Sys2Proof.Machine


/-! Calibration unit and channels agree, and QUIET stands at its six inputs (O60). -/

namespace Sys2Proof.Machine

/-! ### The unit and one channel -/

/-- A channel and its record agree with the calibration unit (R114, R116, R119, R122). -/
structure Channel.Tied (x : CalUnit) (ch : Ch) (c : Channel) : Prop where
  running : (x.run.any fun r => r.ch == ch) = c.state.inRun
  record : ∀ r, x.run = some r → r.ch = ch → c.calRecord.outcome = .running ∧ c.calRecord.serial = r.serial ∧ r.serial = x.serial ∧
    c.pendingResult = none ∧ c.pendingFs = none
  result : ∀ r, c.pendingResult = some r → c.calRecord.outcome = .pending ∧ c.calRecord.serial = r.serial ∧ c.pendingFs = none

/-- Every channel agrees with the unit. -/
def State.RunOk (s : State) : Prop := ∀ ch, (s.chan ch).Tied s.calUnit ch

theorem State.calibrationOk_iff (s : State) : s.CalibrationOk ↔
    ((∀ ch, (s.chan ch).state = .off → (s.chan ch).waiting = none) ∧
      ∀ ch w, (s.chan ch).waiting = some w → w.makesSwitch = true → (s.chan ch).pendingFs ≠ none) ∧ s.RunOk := by
  refine ⟨fun h => ⟨⟨h.off, h.switches⟩, fun ch => ⟨h.running ch, fun r run named => named ▸ h.record r run, h.result ch⟩⟩,
    fun ⟨⟨off, switches⟩, tied⟩ => ⟨off, switches, fun ch => (tied ch).running, fun r run => (tied r.ch).record r run rfl, fun ch => (tied ch).result⟩⟩

/-- Work on a channel that leaves its calibration; a pending switch can only go. -/
structure Channel.RunKept (a b : Channel) : Prop where
  state : b.state.inRun = a.state.inRun
  record : b.calRecord = a.calRecord
  result : b.pendingResult.map PendingResult.serial = a.pendingResult.map PendingResult.serial
  switch : a.pendingFs = none → b.pendingFs = none

theorem Channel.RunKept.of_eq {a b : Channel} (state : b.state = a.state) (record : b.calRecord = a.calRecord)
    (result : b.pendingResult = a.pendingResult) (switch : b.pendingFs = a.pendingFs) : a.RunKept b :=
  ⟨by rw [state], record, by rw [result], fun none => switch.trans none⟩

theorem Channel.RunKept.refl (a : Channel) : a.RunKept a := .of_eq rfl rfl rfl rfl

theorem Channel.Tied.kept {x : CalUnit} {ch : Ch} {a b : Channel} (h : a.Tied x ch) (kept : a.RunKept b) : b.Tied x ch := by
  obtain ⟨state, record, result, switch⟩ := kept
  refine ⟨h.running.trans state.symm, fun r run named => ?_, fun r held => ?_⟩
  · obtain ⟨outcome, serial, unit, noResult, noSwitch⟩ := h.record r run named
    rw [record]
    refine ⟨outcome, serial, unit, ?_, switch noSwitch⟩
    rw [noResult] at result
    exact Option.map_eq_none_iff.mp result
  · rw [held] at result
    obtain ⟨q, had, same⟩ := Option.map_eq_some_iff.mp result.symm
    obtain ⟨outcome, serial, noSwitch⟩ := h.result q had
    rw [record]
    exact ⟨outcome, serial.trans same, switch noSwitch⟩

theorem ChanEffect.runKept {k : Origin} {a b : Channel} (h : ChanEffect k a b) : a.RunKept b := by
  cases h with
  | switched fs held => exact ⟨rfl, rfl, rfl, fun _ => rfl⟩
  | moves x n same => exact ⟨same, rfl, rfl, fun h => h⟩
  | returnsOff still => exact ⟨still.symm, rfl, rfl, fun h => h⟩
  | starts x off entered =>
    refine ⟨?_, rfl, rfl, fun h => h⟩
    rw [off]
    obtain rfl | rfl := entered <;> rfl
  | minuteEntered m low =>
    have accounted := a.accounted_enterMinute m low
    rw [Channel.Accounted] at accounted
    rw [accounted]
    exact .of_eq rfl rfl rfl rfl
  | sliceCounted r =>
    rw [a.countSlice_eq]
    exact .of_eq rfl rfl rfl rfl
  | _ => exact .of_eq rfl rfl rfl rfl

/-! ### The unit and all channels -/

theorem State.RunOk.of_chans {s t : State} (h : s.RunOk) (unit : t.calUnit = s.calUnit) (chans : ∀ ch, (s.chan ch).RunKept (t.chan ch)) : t.RunOk :=
  fun ch => unit ▸ (h ch).kept (chans ch)

theorem State.RunOk.of_channels {s t : State} (h : s.RunOk) (unit : t.calUnit = s.calUnit) (channels : t.channels = s.channels) : t.RunOk :=
  h.of_chans unit fun ch => by rw [State.chan, State.chan, channels]; exact .refl _

theorem State.RunOk.setChan {s : State} (h : s.RunOk) (ch : Ch) {c : Channel} (tied : c.Tied s.calUnit ch) : (s.setChan ch c).RunOk := by
  intro d
  rw [State.chan_setChan, State.setChan_calUnit]
  split
  · next same => exact same ▸ tied
  · exact h d

/-- The unit is IDLE. -/
theorem Channel.Tied.idle {n : Serial} {ch : Ch} {c : Channel} (state : c.state.inRun = false)
    (result : ∀ r, c.pendingResult = some r → c.calRecord.outcome = .pending ∧ c.calRecord.serial = r.serial ∧ c.pendingFs = none) :
    c.Tied ⟨none, n⟩ ch := ⟨state.symm, nofun, result⟩

/-- A run on another channel leaves this one. -/
theorem Channel.Tied.ends {x : CalUnit} {ch d : Ch} {c : Channel} {r : CalRun} (h : c.Tied x d) (run : x.run = some r) (named : r.ch = ch)
    (differ : d ≠ ch) : c.Tied { x with run := none } d := by
  refine .idle ?_ h.result
  rw [← h.running, run, Option.any_some, named]
  exact beq_false_of_ne differ.symm

/-- The unit runs on a channel, with its record in outcome RUNNING and nothing pending. -/
theorem State.RunOk.runs {s : State} (h : s.RunOk) {ch : Ch} (running : s.runningOn ch = true) :
    ∃ r, s.calUnit.run = some r ∧ r.ch = ch ∧ (s.chan ch).calRecord.outcome = .running ∧ (s.chan ch).calRecord.serial = r.serial ∧
      (s.chan ch).pendingResult = none ∧ (s.chan ch).pendingFs = none := by
  obtain ⟨r, run, named⟩ := (s.runningOn_iff ch).mp running
  obtain ⟨outcome, serial, -, noResult, noSwitch⟩ := (h ch).record r run named
  exact ⟨r, run, named, outcome, serial, noResult, noSwitch⟩

/-- R120, R121: the run on a channel ends, and the channel leaves CAL-SETTLE and CAL-MEASURE. -/
theorem State.RunOk.endRun {s : State} (h : s.RunOk) (ch : Ch) (o : CalOutcome) {c : Channel} (state : c.state.inRun = false)
    (record : c.calRecord = ((s.endRun ch o).chan ch).calRecord) (result : c.pendingResult = ((s.endRun ch o).chan ch).pendingResult)
    (switch : c.pendingFs = ((s.endRun ch o).chan ch).pendingFs) : ((s.endRun ch o).setChan ch c).RunOk := by
  intro d
  rw [State.chan_setChan, State.setChan_calUnit]
  by_cases running : s.runningOn ch = true
  · obtain ⟨r, run, named, -, -, noResult, -⟩ := h.runs running
    obtain ⟨frame, others, own, -⟩ := s.endRun_does ch o running
    have unit : (s.endRun ch o).calUnit = { s.calUnit with run := none } := by rw [frame]
    rw [unit]
    split
    · refine .idle state fun q held => ?_
      rw [result, own] at held
      rw [noResult] at held
      cases held
    · next differ =>
      rw [others d differ]
      exact (h d).ends run named differ
  · have same : s.endRun ch o = s := if_neg running
    rw [same] at record result switch ⊢
    split
    · next at_ =>
      subst at_
      refine ⟨(Bool.eq_false_iff.mpr running).trans state.symm, fun r run named => ?_, fun r held => ?_⟩
      · exact absurd ((s.runningOn_iff d).mpr ⟨r, run, named⟩) running
      · rw [record, switch]
        exact (h d).result r (result ▸ held)
    · exact h d

theorem Channel.takeOutcome_kept (c : Channel) (x : RunFigures) (n : MinuteOrAbsent) :
    (c.takeOutcome x n).state = c.state ∧ (c.takeOutcome x n).calRecord.serial = c.calRecord.serial ∧
      (∀ r, (c.takeOutcome x n).pendingResult = some r → c.pendingResult = some r ∨
        (c.takeOutcome x n).calRecord.outcome = .pending ∧ r.serial = c.calRecord.serial ∧ (c.takeOutcome x n).pendingFs = c.pendingFs) := by
  unfold Channel.takeOutcome
  dsimp only
  split
  · next outcome =>
    refine ⟨rfl, rfl, fun r held => .inr ⟨outcome, ?_, rfl⟩⟩
    injection held with held
    rw [← held]
  · exact ⟨rfl, rfl, fun r held => .inl held⟩
  · exact ⟨rfl, rfl, fun r held => .inl held⟩

/-- R118, R119: a run completes. -/
theorem State.RunOk.completeRun {s : State} (h : s.RunOk) {ch : Ch} {back : ReturnState} (measure : (s.chan ch).state = .calibrating .calMeasure back) :
    ((s.completeRun ch).enter ch (.calibrating .calRecover back)).RunOk := by
  have running : s.runningOn ch = true := (h ch).running.trans (by rw [measure]; rfl)
  obtain ⟨r, run, named, -, -, noResult, noSwitch⟩ := h.runs running
  intro d
  rw [State.enter, State.chan_setChan, State.setChan_calUnit]
  have made : s.completeRun ch = (({ s with calUnit := { s.calUnit with run := none } }).setChan ch
      ((s.chan ch).takeOutcome (r.figures (s.chan ch).fs ((s.chan ch).calRecord.reference.getD 0)) s.minuteNow)).notifyCal ch r.serial := by
    unfold State.completeRun
    simp only [run, if_pos named]
    rfl
  rw [made]
  split
  · rw [State.notifyCal, State.chan_notifyBoth, State.chan_setChan_self]
    obtain ⟨-, serial, results⟩ := (s.chan ch).takeOutcome_kept (r.figures (s.chan ch).fs ((s.chan ch).calRecord.reference.getD 0)) s.minuteNow
    refine .idle rfl fun q held => ?_
    obtain had | ⟨outcome, same, switch⟩ := results q held
    · rw [noResult] at had
      cases had
    · exact ⟨outcome, serial.trans same.symm, switch.trans noSwitch⟩
  · next differ =>
    rw [State.notifyCal, State.chan_notifyBoth, State.chan_setChan_ne _ differ]
    exact (h d).ends run named differ

/-- R122, R123: a result is decided, or lapses. -/
theorem State.RunOk.decideResult {s : State} (h : s.RunOk) {ch : Ch} {q : PendingResult} (pending : (s.chan ch).pendingResult = some q)
    (o : CalOutcome) (fs : Option Level) : (s.decideResult ch o fs).RunOk := by
  obtain ⟨frame, others, own, -⟩ := s.decideResult_does ch o fs
  have unit : (s.decideResult ch o fs).calUnit = s.calUnit := by rw [frame]
  intro d
  rw [unit]
  by_cases same : d = ch
  · subst same
    rw [own]
    refine ⟨(h d).running, fun r run named => ?_, nofun⟩
    obtain ⟨-, -, -, noResult, -⟩ := (h d).record r run named
    rw [pending] at noResult
    cases noResult
  · rw [others d same]
    exact h d

/-- R116: a run starts on a channel without a pending switch, the unit being IDLE. -/
theorem State.RunOk.startRun {s : State} (h : s.RunOk) {ch : Ch} (idle : s.calUnit.run = none) (free : s.calibrateBarred ch = false) (l : Level) :
    (s.startRun ch l).RunOk := by
  obtain ⟨-, unit, others, own, -⟩ := s.startRun_does ch l
  have noSwitch : (s.chan ch).pendingFs = none := by
    unfold State.calibrateBarred at free
    exact Option.isNone_iff_eq_none.mp (by simpa using (Bool.or_eq_false_iff.mp free).2)
  intro d
  rw [unit]
  by_cases same : d = ch
  · subst same
    rw [own]
    refine ⟨by simp [ChannelState.inRun], fun r run _ => ?_, nofun⟩
    injection run with run
    subst run
    exact ⟨rfl, rfl, rfl, rfl, noSwitch⟩
  · rw [others d same]
    refine ⟨?_, fun r run named => ?_, (h d).result⟩
    · rw [← (h d).running, idle]
      exact beq_false_of_ne (Ne.symm same)
    · injection run with run
      subst run
      exact absurd named.symm same

/-- R117: a slice taken in leaves the run its channel and its serial. -/
theorem State.RunOk.calTakeSlice {s : State} (h : s.RunOk) (ch : Ch) (r : SliceResult) : (s.calTakeSlice ch r).RunOk := by
  unfold State.calTakeSlice
  split
  · exact h
  · next x run =>
    split
    · intro d
      refine ⟨?_, fun y taken named => ?_, (h d).result⟩
      · exact (congrArg (fun run : Option CalRun => run.any fun r => r.ch == d) run).symm.trans (h d).running
      · injection taken with taken
        subst taken
        exact (h d).record x run named
    · exact h

theorem Channel.recover_leaves (c : Channel) :
    c.recover.state.inRun = false ∧ c.recover.calRecord = c.calRecord ∧ c.recover.pendingResult = c.pendingResult ∧
      c.recover.pendingFs = c.pendingFs := by
  unfold Channel.recover
  split
  · exact ⟨rfl, rfl, rfl, rfl⟩
  all_goals next state => exact ⟨by rw [state]; rfl, rfl, rfl, rfl⟩

theorem State.countPeriod_calUnit (s : State) : s.countPeriod.calUnit = s.calUnit := by
  unfold State.countPeriod
  dsimp only
  split <;> rfl

/-- R178: the store load begins with the unit IDLE and nothing pending. -/
theorem State.RunOk.loadStore {s : State} (h : s.RunOk) (idle : s.calUnit.run = none) (none' : ∀ ch, (s.chan ch).pendingResult = none) :
    s.loadStore.RunOk := by
  obtain ⟨w, only, made⟩ := s.loadStore_copies
  obtain ⟨e, n, m, rfl⟩ := only.made
  rw [made]
  intro ch
  have unit (x : CalUnit) (run : x.run = none) {c : Channel} (tied : ∀ n, c.Tied ⟨none, n⟩ ch) : c.Tied x ch := by
    cases x
    cases run
    exact tied _
  refine unit _ (by exact idle) fun serial => ?_
  have state (c : Channel) (x : Option ChannelItem) : (c.load x).state = c.state ∧ (c.load x).pendingResult = c.pendingResult := by
    cases x <;> exact ⟨rfl, rfl⟩
  have loaded : ∃ x, (s.loadCopies.chan ch) = (s.chan ch).load x := by cases ch <;> exact ⟨_, rfl⟩
  obtain ⟨x, loaded⟩ := loaded
  have same : (s.loadCopies.chan ch).state.inRun = false ∧ (s.loadCopies.chan ch).pendingResult = none := by
    rw [loaded, (state _ x).1, (state _ x).2]
    exact ⟨(h ch).running.symm.trans (by rw [idle]; rfl), none' ch⟩
  exact .idle same.1 fun r held => by
    have held : (s.loadCopies.chan ch).pendingResult = some r := held
    rw [same.2] at held
    cases held

/-! ### Every single change -/

theorem Effect.runOk {k : Origin} {s t : State} (effect : Effect k s t) (h : s.RunOk) : t.RunOk := by
  cases effect with
  | chan ch c change => exact h.setChan ch ((h ch).kept change.runKept)
  | line l r _ _ => exact h.of_channels (by simp) (by simp)
  | ticked =>
    refine h.of_chans rfl fun ch => ?_
    have tick : s.tickLapses.chan ch = (s.chan ch).tickLapse := by cases ch <;> rfl
    rw [tick, Channel.tickLapse_eq]
    refine ⟨rfl, rfl, ?_, fun none => none⟩
    simp [Option.map_map, Function.comp_def]
  | period _ =>
    refine h.of_chans s.countPeriod_calUnit fun ch => ?_
    rw [(s.countPeriod_does ch).1]
    unfold State.crystalChannel
    split
    · dsimp only
      split <;> exact .of_eq rfl rfl rfl rfl
    · exact .refl _
  | notices p n c _ => exact h.of_channels (by simp) (by simp)
  | evaluated ch =>
    obtain ⟨own, others⟩ := s.chan_evaluateQuiet ch
    refine h.of_chans (State.CloseFrame.evaluateQuiet s ch).calUnit fun d => ?_
    by_cases same : d = ch
    · subst same
      rw [own]
      exact .of_eq rfl rfl rfl rfl
    · rw [others d same]
      exact .refl _
  | eventOpened ch r _ =>
    exact (h.setChan ch ((h ch).kept (b := { s.chan ch with openEvent := some _ }) (.of_eq rfl rfl rfl rfl))).of_channels rfl rfl
  | eventClosed ch cause =>
    refine h.of_chans (s.closeEvent_calUnit ch cause) fun d => ?_
    by_cases same : d = ch
    · subst same
      rw [s.closeEvent_chan d cause]
      exact .of_eq rfl rfl rfl rfl
    · rw [(State.SliceFrame.closeEvent s ch cause).others d same]
      exact .refl _
  | calTaken ch r => exact h.calTakeSlice ch r
  | runFaults ch _ => exact h.endRun ch .fault rfl rfl rfl rfl
  | runStopped ch _ => exact h.endRun ch .aborted rfl rfl rfl rfl
  | runCompleted ch back measure _ => exact h.completeRun measure
  | lapsed ch =>
    by_cases due : (s.chan ch).lapseDue = true
    · obtain ⟨q, pending, -⟩ := (Option.any_eq_true _ _).mp due
      rw [show s.lapseResult ch = s.decideResult ch .lapsed (s.chan ch).pendingFs from if_pos due]
      exact h.decideResult pending _ _
    · rw [State.lapseResult, if_neg due]
      exact h
  | writeBegun => exact h.of_channels rfl rfl
  | writeEnded b => exact h.of_channels (by unfold State.endStoreWrite; split; rfl; split <;> rfl) (State.Apart.endStoreWrite s b).1
  | transaction p r x _ => exact h.of_channels (by simp) (by simp)
  | readHistory p n _ => exact h.of_channels (by simp) (by simp)
  | readPeriods p n _ => exact h.of_channels (by simp) (by simp)
  | readEvents p n _ => exact h.of_channels (by simp) (by simp)
  | sought p c x n _ => exact h.of_channels (by simp) (by simp)
  | rewound p _ => exact h.of_channels (by simp [State.rewindCursors]) (by simp [State.rewindCursors])
  | enabled p n c _ => exact h.of_channels (by simp) (by simp)
  | requested p b _ => exact h.of_channels (by rw [State.requestQuiet, State.bringQuiet_frame]; simp) (State.Apart.requestQuiet s p b).1
  | triggersSet m x y _ =>
    refine h.of_chans rfl fun ch => ?_
    rw [State.setTriggers_chan]
    split
    · exact .of_eq rfl rfl rfl rfl
    · exact .refl _
  | excludedSet m b _ =>
    refine h.of_chans rfl fun ch => ?_
    rw [State.excludeChannels_chan]
    split
    · exact .of_eq rfl rfl rfl rfl
    · exact .refl _
  | runStarted ch l idle free _ _ => exact h.startRun idle free l
  | runAborted ch _ _ =>
    obtain ⟨state, record, result, switch⟩ := Channel.recover_leaves ((s.endRun ch .aborted).chan ch)
    exact h.endRun ch .aborted state record result switch
  | decided ch o r fs pending _ _ => exact h.decideResult pending o fs
  | reevaluated _ =>
    obtain ⟨frame, chans, -⟩ := s.reevaluateQuiet_does
    refine h.of_chans (by rw [frame]) fun ch => ?_
    rw [chans ch]
    exact .of_eq rfl rfl rfl rfl
  | resetBegun _ _ =>
    intro ch
    rw [s.beginReset_chan ch]
    exact .idle rfl nofun
  | loaded idle none _ => exact h.loadStore idle none
  | numbered _ => exact h.of_chans rfl fun ch => by cases ch <;> exact .of_eq rfl rfl rfl rfl
  | _ => exact h.of_channels rfl rfl

/-! ### The QUIET line -/

theorem State.QuietOk.of_same {s t : State} (h : s.QuietOk) (line : t.quietLine = s.quietLine)
    (requests : ∀ q, (t.port q).quietRequest = (s.port q).quietRequest) (chans : ∀ ch, (t.chan ch).quiet = (s.chan ch).quiet) : t.QuietOk := by
  have site := requests .site
  have compliance := requests .compliance
  have held : (fun ch => (t.chan ch).quietHeld) = fun ch => (s.chan ch).quietHeld :=
    funext fun ch => by rw [Channel.quietHeld, Channel.quietHeld, chans]
  show t.quietLine = (t.site.quietRequest || t.compliance.quietRequest || Ch.list.any fun ch => (t.chan ch).quietHeld)
  rw [line, held]
  exact h.trans (by rw [State.quietDemand]; exact congr (congrArg _ (congr (congrArg _ site.symm) compliance.symm)) rfl)

theorem State.QuietOk.of_ports {s t : State} (h : s.QuietOk) (line : t.quietLine = s.quietLine) (ports : ∀ q, t.port q = s.port q)
    (channels : t.channels = s.channels) : t.QuietOk :=
  h.of_same line (fun q => by rw [ports]) fun ch => by rw [State.chan, channels]; rfl

/-- The line is brought to its inputs. -/
theorem State.bringQuiet_quietOk (s : State) (ch : Ch) (i : QuietInput) : (s.bringQuiet ch i).QuietOk := by
  have demand : (s.bringQuiet ch i).quietDemand = s.quietDemand := by
    unfold State.bringQuiet
    split <;> rfl
  exact (s.bringQuiet_quietLine ch i).trans demand.symm

theorem State.QuietOk.setPort {s : State} (h : s.QuietOk) (p : Port) {x : PortState} (request : x.quietRequest = (s.port p).quietRequest) :
    (s.setPort p x).QuietOk := by
  refine h.of_same (by simp) (fun q => ?_) fun ch => by rw [State.chan_setPort]
  cases p <;> cases q <;> first | exact request | rfl

theorem State.QuietOk.frame {s t : State} (h : s.QuietOk) (line : t.quietLine = s.quietLine) (frame : s.SameFrame t)
    (chans : ∀ ch, (t.chan ch).quiet = (s.chan ch).quiet) : t.QuietOk :=
  h.of_same line (fun q => by rw [frame.ports q]) chans

theorem ChanEffect.quiet {k : Origin} {a b : Channel} (h : ChanEffect k a b) : b.quiet = a.quiet := by
  cases h with
  | minuteEntered m low =>
    unfold Channel.enterMinute
    split
    · dsimp only
      split
      · split <;> rfl
      · rfl
    · rfl
  | sliceCounted r => rw [a.countSlice_eq]
  | _ => rfl

theorem State.SetOnBoth.request {u v : State} {k : NoticeKind} {d : Detail} (h : SetOnBoth u v k d) (q : Port) :
    (v.port q).quietRequest = (u.port q).quietRequest := by
  obtain ⟨⟨made, -⟩, -⟩ := h q
  rw [made]

theorem State.endRun_quiet (s : State) (ch : Ch) (o : CalOutcome) :
    (s.endRun ch o).quietLine = s.quietLine ∧ ∀ d, ((s.endRun ch o).chan d).quiet = (s.chan d).quiet := by
  by_cases running : s.runningOn ch = true
  · obtain ⟨frame, others, own, -⟩ := s.endRun_does ch o running
    refine ⟨by rw [frame], fun d => ?_⟩
    by_cases same : d = ch
    · subst same; rw [own]
    · rw [others d same]
  · rw [State.endRun, if_neg running]
    exact ⟨rfl, fun _ => rfl⟩

theorem State.QuietOk.setChan {s : State} (h : s.QuietOk) (ch : Ch) {c : Channel} (quiet : c.quiet = (s.chan ch).quiet) : (s.setChan ch c).QuietOk := by
  refine h.of_same rfl (fun q => by rw [State.port_setChan]) fun d => ?_
  rw [State.chan_setChan]
  split
  · next same => subst same; exact quiet
  · rfl

theorem State.QuietOk.endRun {s : State} (h : s.QuietOk) (ch : Ch) (o : CalOutcome) : (s.endRun ch o).QuietOk := by
  obtain ⟨line, chans⟩ := s.endRun_quiet ch o
  exact h.frame line (.endRun s ch o) chans

theorem State.QuietOk.completeRun {s : State} (h : s.QuietOk) (ch : Ch) : (s.completeRun ch).QuietOk := by
  refine h.frame (State.SliceFrame.completeRun s ch).quietLine (.completeRun s ch) fun d => ?_
  by_cases same : d = ch
  · subst same; rw [s.completeRun_chan d]
  · rw [(State.SliceFrame.completeRun s ch).others d same]

theorem State.QuietOk.decideResult {s : State} (h : s.QuietOk) (ch : Ch) (o : CalOutcome) (fs : Option Level) : (s.decideResult ch o fs).QuietOk := by
  obtain ⟨frame, others, own, told⟩ := s.decideResult_does ch o fs
  refine h.of_same (by rw [frame]) (State.SetOnBoth.request told) fun d => ?_
  by_cases same : d = ch
  · subst same; rw [own]
  · rw [others d same]

theorem State.QuietOk.startRun {s : State} (h : s.QuietOk) (ch : Ch) (l : Level) : (s.startRun ch l).QuietOk := by
  obtain ⟨frame, -, others, own, silent, told⟩ := s.startRun_does ch l
  refine h.of_same (by rw [frame]) (fun q => ?_) fun d => ?_
  · cases result : (s.chan ch).pendingResult with
    | none =>
      obtain ⟨site, compliance⟩ := silent result
      cases q
      · exact congrArg _ site
      · exact congrArg _ compliance
    | some r => exact State.SetOnBoth.request (told r result) q
  · by_cases same : d = ch
    · subst same; rw [own]
    · rw [others d same]

theorem State.QuietOk.loadStore {s : State} (h : s.QuietOk) : s.loadStore.QuietOk := by
  obtain ⟨w, only, made⟩ := s.loadStore_copies
  obtain ⟨e, n, m, rfl⟩ := only.made
  rw [made]
  have load (c : Channel) (x : Option ChannelItem) : (c.load x).quiet = c.quiet := by cases x <;> rfl
  exact h.of_same rfl (fun q => by cases q <;> rfl) fun ch => by cases ch <;> exact load ..

theorem Effect.quietOk {k : Origin} {s t : State} (effect : Effect k s t) (h : s.QuietOk) : t.QuietOk := by
  cases effect with
  | chan ch c change => exact h.setChan ch change.quiet
  | line l r _ _ => exact h.of_ports (by simp) (fun q => by cases l <;> rfl) (by simp)
  | ticked =>
    refine h.of_same rfl (fun _ => rfl) fun ch => ?_
    have tick : s.tickLapses.chan ch = (s.chan ch).tickLapse := by cases ch <;> rfl
    rw [tick, Channel.tickLapse_eq]
  | period _ =>
    refine h.of_same (by unfold State.countPeriod; dsimp only; split <;> rfl)
      (fun q => by unfold State.countPeriod; dsimp only; split <;> cases q <;> rfl) fun ch => ?_
    rw [(s.countPeriod_does ch).1]
    unfold State.crystalChannel
    split
    · dsimp only
      split <;> rfl
    · rfl
  | notices p n c _ => exact h.setPort p rfl
  | evaluated ch => exact State.bringQuiet_quietOk _ _ _
  | eventOpened ch r _ =>
    exact (h.setChan ch (c := { s.chan ch with openEvent := some _ }) rfl).of_same rfl (fun q => by cases q <;> rfl) fun _ => rfl
  | eventClosed ch cause =>
    refine h.frame (State.SliceFrame.closeEvent s ch cause).quietLine (.closeEvent s ch cause) fun d => ?_
    by_cases same : d = ch
    · subst same; rw [s.closeEvent_chan d cause]
    · rw [(State.SliceFrame.closeEvent s ch cause).others d same]
  | calTaken ch r =>
    unfold State.calTakeSlice
    split
    · exact h
    · split
      · exact h.of_ports rfl (fun _ => rfl) rfl
      · exact h
  | runFaults ch _ => exact (h.endRun ch .fault).setChan ch rfl
  | runStopped ch _ => exact (h.endRun ch .aborted).setChan ch rfl
  | runCompleted ch back measure _ => exact (h.completeRun ch).setChan ch rfl
  | lapsed ch =>
    by_cases due : (s.chan ch).lapseDue = true
    · rw [show s.lapseResult ch = s.decideResult ch .lapsed (s.chan ch).pendingFs from if_pos due]
      exact h.decideResult ch _ _
    · rw [State.lapseResult, if_neg due]
      exact h
  | writeEnded b =>
    unfold State.endStoreWrite
    split
    · exact h
    · split
      · exact h.of_ports rfl (fun _ => rfl) rfl
      · exact h.of_same rfl (fun q => by cases q <;> rfl) fun _ => rfl
  | transaction p r x _ => exact h.setPort p rfl
  | readHistory p n _ => exact h.setPort p rfl
  | readPeriods p n _ => exact h.setPort p rfl
  | readEvents p n _ => exact h.setPort p rfl
  | sought p c x n _ => exact h.setPort p (by cases c <;> rfl)
  | rewound p _ => exact h.setPort p rfl
  | enabled p n c _ => exact h.setPort p rfl
  | requested p b _ => exact State.bringQuiet_quietOk _ _ _
  | triggersSet m x y _ => exact h.of_same rfl (fun _ => rfl) fun ch => by rw [State.setTriggers_chan]; split <;> rfl
  | excludedSet m b _ => exact h.of_same rfl (fun _ => rfl) fun ch => by rw [State.excludeChannels_chan]; split <;> rfl
  | runStarted ch l _ _ _ _ => exact h.startRun ch l
  | runAborted ch _ _ => exact (h.endRun ch .aborted).setChan ch (by unfold Channel.recover; split <;> rfl)
  | decided ch o r fs _ _ _ => exact h.decideResult ch o fs
  | reevaluated _ => exact State.bringQuiet_quietOk _ _ _
  | resetBegun _ _ =>
    have quiet (ch : Ch) : (s.beginReset.chan ch).quietHeld = false := by rw [s.beginReset_chan ch]; rfl
    show false = (false || false || Ch.list.any fun ch => (s.beginReset.chan ch).quietHeld)
    simp [quiet]
  | loaded _ _ _ => exact h.loadStore
  | numbered _ => exact h.of_same rfl (fun _ => rfl) fun ch => by cases ch <;> rfl
  | _ => exact h.of_ports rfl (fun q => by cases q <;> rfl) rfl

/-! ### Waiting closes -/

/-- R46, R124: an OFF channel has no waiting close, and one that makes a switch finds one pending. -/
def Channel.WaitOk (c : Channel) : Prop := (c.state = .off → c.waiting = none) ∧ ∀ w, c.waiting = some w → w.makesSwitch = true → c.pendingFs ≠ none

def State.WaitsOk (s : State) : Prop := ∀ ch, (s.chan ch).WaitOk

theorem Channel.WaitOk.none {c : Channel} (h : c.waiting = none) : c.WaitOk := ⟨fun _ => h, fun w held => by rw [h] at held; cases held⟩

theorem Channel.WaitOk.steady {a b : Channel} (h : a.WaitOk) (steady : a.Steady b) (off : b.state = .off → a.state = .off) : b.WaitOk :=
  ⟨fun at_ => steady.waiting.trans (h.1 (off at_)), fun w held makes none => h.2 w (steady.waiting ▸ held) makes (steady.switch none)⟩

theorem State.WaitsOk.closes {s u : State} {ch : Ch} (h : s.WaitsOk) (steady : s.SteadyBut (· = ch) u) : (u.closeWaiting ch).WaitsOk := by
  intro d
  by_cases same : d = ch
  · subst same
    exact .none (u.chan_closeWaiting d).1
  · rw [u.chan_closeWaiting_ne same]
    exact (h d).steady (steady.chans d) (steady.off d same)

theorem Channel.Closed.state {a b : Channel} (h : a.Closed b) : b.state = a.state := by
  rw [Channel.Closed] at h
  rw [h]

/-- R45 to R47, R124: a boundary reaches a channel. -/
theorem State.WaitsOk.receiveBoundary {s : State} (h : s.WaitsOk) (b : Boundary) (ch : Ch) : (s.receiveBoundary b ch).WaitsOk := by
  unfold State.receiveBoundary
  split
  case isTrue off =>
    intro d
    by_cases same : d = ch
    · subst same
      obtain ⟨-, -, waiting, -⟩ := s.chan_closeMinute d ((s.chan d).hold b)
      exact .none (waiting.trans ((h d).1 off))
    · rw [s.chan_closeMinute_ne same]
      exact h d
  case isFalse on =>
    intro d
    dsimp only
    rw [State.chan_setChan]
    split
    case isTrue same =>
      subst same
      obtain ⟨-, closed⟩ := s.chan_closeWaiting d
      refine ⟨fun off => absurd (closed.state ▸ off) on, fun w held makes => ?_⟩
      injection held with held
      subst held
      exact Option.isSome_iff_ne_none.mp makes
    case isFalse differ =>
      rw [s.chan_closeWaiting_ne differ]
      exact h d

theorem State.WaitsOk.of_channels {s t : State} (h : s.WaitsOk) (channels : t.channels = s.channels) : t.WaitsOk := fun ch => by
  rw [State.chan, channels]
  exact h ch

theorem State.WaitsOk.foldl {α : Type} {work : State → α → State} (keeps : ∀ (s : State) (a : α), s.WaitsOk → (work s a).WaitsOk) :
    ∀ (l : List α) (s : State), s.WaitsOk → (l.foldl work s).WaitsOk
  | [], _, h => h
  | a :: l, s, h => State.WaitsOk.foldl keeps l _ (keeps s a h)

theorem State.Apart.moveSlots (s : State) (next : MinuteOrAbsent) : s.Apart (s.moveSlots next) := by
  have one (n : Nat) (t : State) (i : Fin 8) : t.Apart (t.moveSlot n i) := by
    unfold State.moveSlot
    split
    · exact .refl t
    · exact ⟨rfl, rfl, rfl⟩
  have many (n : Nat) (l : List (Fin 8)) : ∀ t : State, t.Apart (l.foldl (State.moveSlot n) t) := by
    induction l with
    | nil => exact .refl
    | cons i l ih => exact fun t => (one n t i).trans (ih _)
  unfold State.moveSlots
  split
  · exact .refl s
  · exact .trans (t := (s.arrange _).2) (by rw [State.arrange_state]; exact ⟨rfl, rfl, rfl⟩) (many ..)

/-- R44: a boundary reaches the four channels one after the other, the table having been moved. -/
theorem State.deliver_folds {s : State} (running : s.running = true) (b : Boundary) :
    ∃ (u : State) (l : List Ch), s.deliver b = l.foldl (State.receiveBoundary b) u ∧ l.Nodup ∧ (∀ ch, ch ∈ l) ∧ s.Apart u ∧
      ∃ n, u = { s.moveSlots b.next with orderUses := n } := by
  have closing : ∀ p : Ch → Bool, (Ch.list.filter p ++ Ch.list.filter fun ch => !p ch).Nodup ∧
      ∀ ch, ch ∈ Ch.list.filter p ++ Ch.list.filter fun ch => !p ch := fun p => by
    refine ⟨?_, fun ch => ?_⟩
    · have list : Ch.list.Nodup := by decide
      refine List.nodup_append.mpr ⟨list.filter _, list.filter _, fun a one c two same => ?_⟩
      subst same
      simp_all
    · cases h : p ch <;> simp [h, Ch.mem_list]
  let m := s.moveSlots b.next
  let p (ch : Ch) : Bool := (m.chan ch).closesAtOnce
  have made : s.deliver b = (Ch.list.filter fun ch => !p ch).foldl (State.receiveBoundary b)
      ((m.arrange (Ch.list.filter p)).1.foldl (State.receiveBoundary b) (m.arrange (Ch.list.filter p)).2) := if_pos running
  obtain ⟨perm, uses⟩ := State.arrange_perm m (Ch.list.filter p)
  obtain ⟨nodup, all⟩ := closing p
  have rearranged := perm.append_right (Ch.list.filter fun ch => !p ch)
  refine ⟨_, _, made.trans (List.foldl_append ..).symm, rearranged.nodup_iff.mpr nodup, fun ch => rearranged.mem_iff.mpr (all ch), ?_, _, uses⟩
  rw [uses]
  exact .moveSlots s b.next

theorem State.WaitsOk.deliver {s : State} (h : s.WaitsOk) (b : Boundary) : (s.deliver b).WaitsOk := by
  by_cases running : s.running = true
  · obtain ⟨u, l, made, -, -, apart, -⟩ := State.deliver_folds running b
    rw [made]
    exact .foldl (fun _ ch h => h.receiveBoundary b ch) l u (h.of_channels apart.1)
  · rw [State.deliver, if_neg running]
    exact h

theorem State.WaitsOk.emitBoundary {s : State} (h : s.WaitsOk) : s.emitBoundary.WaitsOk := by
  unfold State.emitBoundary
  split
  · exact State.WaitsOk.deliver (s := { s with clock := s.clock.nextMinute }) h _
  · exact h

theorem State.WaitsOk.trimClock {s : State} (h : s.WaitsOk) (offset : Int) : (s.trimClock offset).WaitsOk := by
  exact (State.WaitsOk.emitBoundary (s := { s with clock := { s.clock with length := (60 + offset).toNat } }) h).of_channels rfl

theorem State.Fresh.waiting {s : State} (h : s.Fresh) (ch : Ch) : (s.chan ch).waiting = Option.none := by
  have fresh := h.chans ch
  rw [Channel.Fresh] at fresh
  rw [fresh]
  rfl

theorem State.waitsOk_paced : Paced State.WaitsOk where
  steady steady h ch := (h ch).steady (steady.chans ch) (steady.off ch not_false)
  closes _ steady h := h.closes steady
  boundary h := h.emitBoundary
  setTime _ _ _ _ h := (h.deliver _).of_channels rfl
  trimClock _ _ _ h := h.trimClock _
  resets _ _ fresh _ ch := .none (fresh.waiting ch)

/-! ### Every step -/

theorem ResetDone.of_powerUp {u : State} {lost : Bool} (high : u.resetN = true) :
    (u.powerUp lost).Fresh ∧ (u.powerUp lost).clock = if lost then ⟨false, 0, 0, 60, 0, 0⟩ else u.clock := by
  have done := u.powerUp_done lost high
  obtain ⟨-, -, -, -, clock, -⟩ := done.pins
  exact ⟨done.fresh, clock⟩

/-- R172: a rise of the supply leaves the channels fresh; a lost clock begins anew. -/
theorem State.powerUp_fresh (u : State) (lost : Bool) :
    (u.powerUp lost).Fresh ∧ (u.powerUp lost).clock = if lost then ⟨false, 0, 0, 60, 0, 0⟩ else u.clock := by
  by_cases high : u.resetN = true
  · exact ResetDone.of_powerUp high
  · have low : u.resetN = false := by simpa using high
    obtain ⟨-, line, -, clock, -⟩ := u.powerUp_held lost low
    have made : (u.powerUp lost).channels = u.beginReset.channels := by
      have held : ({ u.beginReset with supply := true }.loseClock lost).resetN = false := by cases lost <;> exact low
      delta State.powerUp
      extract_lets w
      exact (congrArg State.channels (if_neg (by rw [held]; decide))).trans (by cases lost <;> rfl)
    exact ⟨.held made (by rw [State.running, line, Bool.and_false]), clock⟩

/-- What a step keeps that the paced work, a second, a power-on and a crystal period keep. -/
theorem step_paced {Q : State → Prop} (paced : Paced Q) (second : ∀ s, Q s → Q s.settle.secondElapsed)
    (power : ∀ s lost, Q s → Q (s.powerUp lost)) (crystal : ∀ s, Q s → Q s.crystalPeriod)
    (queue : ∀ s q, Q s → Q { s with pending := q }) {s t : State} (h : step s = .next t) (hs : Q s) : Q t := by
  cases front : s.pending with
  | nil =>
    simp only [step, front] at h
    injection h with h
    exact h ▸ crystal s hs
  | cons i rest =>
    simp only [step, front] at h
    have hs := queue s rest hs
    by_cases isSecond : i = .secondTick
    · subst isSecond
      injection h with h
      exact h ▸ second _ hs
    · by_cases isPower : ∃ lost, i = .powerOn lost
      · obtain ⟨lost, rfl⟩ := isPower
        injection h with h
        exact h ▸ power _ lost (paced.settle hs)
      · exact exec_paced paced h isSecond (fun lost e => isPower ⟨lost, e⟩) hs

/-- A crystal period keeps what its count, a second and the paced work keep. -/
theorem Paced.crystalPeriod {Q : State → Prop} (paced : Paced Q) (count : ∀ s, Q s → Q s.countPeriod) (elapse : ∀ s n, Q s → Q (s.elapse n))
    (second : ∀ s, Q s → Q s.secondElapsed) {s : State} (hs : Q s) : Q s.crystalPeriod := by
  have take (t : State) (x : CrystalStep) (ht : Q t) : Q (t.takeCrystal x) := by
    cases x with
    | second => exact paced.settle (second t ht)
    | elapsed => exact paced.settle (elapse t 0 ht)
    | pause l => exact paced.settle (paced.lineLost l ht)
    | slice ch => exact paced.settle (paced.crystalSliceEnd ch ht)
  have all (l : List CrystalStep) : ∀ t, Q t → Q (l.foldl State.takeCrystal t) := by
    induction l with
    | nil => exact fun _ ht => ht
    | cons x l ih => exact fun t ht => ih _ (take t x ht)
  delta State.crystalPeriod
  dsimp only
  exact all _ _ (paced.steady (.arrange _ _) (count _ (paced.settle hs)))

/-! ### The waiting closes at a crystal period -/

theorem Channel.WaitOk.congr {a b : Channel} (h : a.WaitOk) (state : b.state = a.state) (waiting : b.waiting = a.waiting)
    (switch : b.pendingFs = a.pendingFs) : b.WaitOk := by
  unfold Channel.WaitOk
  rw [state, waiting, switch]
  exact h

theorem State.WaitsOk.countPeriod {s : State} (h : s.WaitsOk) : s.countPeriod.WaitsOk := fun ch => by
  rw [(s.countPeriod_does ch).1]
  unfold State.crystalChannel
  split
  · dsimp only
    split
    · exact (h ch).congr rfl rfl rfl
    · exact h ch
  · exact h ch

theorem State.WaitsOk.elapse {s : State} (h : s.WaitsOk) (n : Nat) : (s.elapse n).WaitsOk := fun ch => by
  rw [(s.elapse_does n).2 ch, Channel.tickLapse_eq]
  split
  · exact (h ch).congr rfl rfl rfl
  · exact h ch

theorem State.WaitsOk.secondElapsed {s : State} (h : s.WaitsOk) : s.secondElapsed.WaitsOk := (h.elapse _).of_channels rfl

theorem step_waitsOk {s t : State} (h : step s = .next t) (hs : s.WaitsOk) : t.WaitsOk :=
  step_paced State.waitsOk_paced (fun _ hs => (State.waitsOk_paced.settle hs).secondElapsed)
    (fun s lost _ ch => .none ((s.powerUp_fresh lost).1.waiting ch))
    (fun _ hs => State.waitsOk_paced.crystalPeriod (fun _ h => h.countPeriod) (fun _ n h => h.elapse n) (fun _ h => h.secondElapsed) hs)
    (fun _ _ hs => hs) h hs

/-- Settles O60: the unit, the records and the line are kept by every single change, the waiting closes by the paced work. -/
theorem calibrationAndQuietKept : Obligations.CalibrationAndQuietKept := by
  rintro s t ⟨calibration, quiet⟩ h
  obtain ⟨⟨off, switches⟩, run⟩ := s.calibrationOk_iff.mp calibration
  have waits : t.WaitsOk := step_waitsOk h fun ch => ⟨off ch, switches ch⟩
  have kept : t.RunOk ∧ t.QuietOk := step_keeps (P := fun s => s.RunOk ∧ s.QuietOk) (fun _ _ _ effect h => ⟨effect.runOk h.1, effect.quietOk h.2⟩)
    (fun _ _ h => h) s t h ⟨run, quiet⟩
  exact ⟨t.calibrationOk_iff.mpr ⟨⟨fun ch => (waits ch).1, fun ch => (waits ch).2⟩, kept.1⟩, kept.2⟩

end Sys2Proof.Machine


/-! The counts of the open accounts, and the minutes of the channels beside the clock's (O59). -/

namespace Sys2Proof.Machine

/-! ### Accounts in a minute -/

/-- The open accounts of a channel keep their counts (R90 to R97). -/
structure Channel.AccountsOk (c : Channel) : Prop where
  periods : ∀ p, c.period = some p → p.Ok
  days : ∀ d, c.day = some d → d.spent ≤ d.allowance

/-- The day account of a channel holds minute `now`, and its open period has gone through every minute from its opening to before `now`, or, with
`gone` being 1, through `now` (R90, R91, R99, R101). -/
structure Channel.InMinute (c : Channel) (now : MinuteOrAbsent) (gone : Nat) : Prop where
  days : ∀ d, c.day = some d → ∃ k, now = some k ∧ d.start ≤ k ∧ k < d.start + 1440
  periods : ∀ p, c.period = some p → ∃ d k, c.day = some d ∧ now = some k ∧ d.start ≤ p.opening ∧ p.opening + p.elapsed = k + gone

/-- With an absent minute number there is neither account. -/
theorem Channel.InMinute.absent {c : Channel} {gone : Nat} (h : c.InMinute none gone) : c.day = none ∧ c.period = none := by
  refine ⟨Option.eq_none_iff_forall_ne_some.mpr fun d held => ?_, Option.eq_none_iff_forall_ne_some.mpr fun p held => ?_⟩
  · obtain ⟨k, absent, -⟩ := h.days d held
    cases absent
  · obtain ⟨d, k, -, absent, -⟩ := h.periods p held
    cases absent

theorem Channel.InMinute.none {c : Channel} {now : MinuteOrAbsent} {gone : Nat} (day : c.day = Option.none) (period : c.period = Option.none) :
    c.InMinute now gone := ⟨fun d held => (by rw [day] at held; cases held), fun p held => by rw [period] at held; cases held⟩

theorem Channel.AccountsOk.none {c : Channel} (day : c.day = Option.none) (period : c.period = Option.none) : c.AccountsOk :=
  ⟨fun p held => (by rw [period] at held; cases held), fun d held => by rw [day] at held; cases held⟩

theorem Channel.AccountsOk.of_eq {a b : Channel} (h : a.AccountsOk) (period : b.period = a.period) (day : b.day = a.day) : b.AccountsOk :=
  ⟨by rw [period]; exact h.periods, by rw [day]; exact h.days⟩

theorem Channel.InMinute.of_eq {a b : Channel} {now : MinuteOrAbsent} {gone : Nat} (h : a.InMinute now gone) (period : b.period = a.period)
    (day : b.day = a.day) : b.InMinute now gone := ⟨by rw [day]; exact h.days, by rw [period, day]; exact h.periods⟩

/-! ### A minute enters the accounts (R93 to R97) -/

theorem settleTrigger_keeps (works : Bool) (day : Option Day) (low : Nat) :
    ((settleTrigger works day low).1.map fun d => (d.start, d.allowance)) = (day.map fun d => (d.start, d.allowance)) ∧
      ((∀ d, day = some d → d.spent ≤ d.allowance) → ∀ d, (settleTrigger works day low).1 = some d → d.spent ≤ d.allowance) := by
  cases day with
  | none => exact ⟨rfl, nofun⟩
  | some d =>
    unfold settleTrigger
    dsimp only
    split
    · next room =>
      have room : d.spent < d.allowance := of_decide_eq_true (Bool.and_eq_true_iff.mp room).2
      split <;> exact ⟨rfl, fun _ e he => by injection he with he; subst he; exact room⟩
    · exact ⟨rfl, fun ok e he => by injection he with he; subst he; exact ok d rfl⟩

/-- One more minute gone through, `a` of it accountable and `t` of it a trigger minute. -/
theorem Period.Ok.enters {p q : Period} (ok : p.Ok) (short : p.elapsed < 1440) (a t : Nat) (one : a ≤ 1) (within : t ≤ a) (planned : q.planned = p.planned)
    (elapsed : q.elapsed = p.elapsed + 1) (accounted : q.accounted = p.accounted + a) (impulsive : q.impulsive ≤ p.impulsive + a)
    (lowFreq : q.lowFreq ≤ p.lowFreq + a) (triggers : q.triggers = p.triggers + t) (breaches : q.breaches ≤ p.breaches + t) : q.Ok := by
  have same := ok.planned
  obtain ⟨-, -, was, wasImpulsive, wasLowFreq, wasTriggers, wasBreaches⟩ := ok
  exact ⟨planned ▸ same, by omega, by omega, by omega, by omega, by omega, by omega⟩

theorem flag_le (b : Bool) (n : Nat) : n + (if b then 1 else 0) ≤ n + 1 := by cases b <;> simp

theorem flag_le' (b : Bool) (n : Nat) : n + (if b then 0 else 1) ≤ n + 1 := by cases b <;> simp

/-- An entered minute is one more of the period, and leaves the day. -/
theorem Channel.enterMinute_keeps (c : Channel) (m : Summary) (low : Nat) :
    ((c.enterMinute m low).chan.day.map fun d => (d.start, d.allowance)) = (c.day.map fun d => (d.start, d.allowance)) ∧
    ((c.period ≠ Option.none → m.boundary.ending ≠ Option.none) →
      ((c.enterMinute m low).chan.period.map fun p => (p.opening, p.elapsed)) = c.period.map fun p => (p.opening, p.elapsed + 1)) ∧
    (c.AccountsOk → (∀ p, c.period = some p → p.elapsed < 1440) → (c.enterMinute m low).chan.AccountsOk) := by
  unfold Channel.enterMinute
  split
  · next p k period ending =>
    have entered {q : Period} (enters : p.Ok → p.elapsed < 1440 → q.Ok) {day : Option Day}
        (spent : (∀ d, c.day = some d → d.spent ≤ d.allowance) → ∀ d, day = some d → d.spent ≤ d.allowance) (ok : c.AccountsOk)
        (short : ∀ p, c.period = some p → p.elapsed < 1440) : Channel.AccountsOk { c with period := some q, day := day } :=
      ⟨fun x held => by injection held with held; exact held ▸ enters (ok.periods p period) (short p period), spent ok.days⟩
    dsimp only
    split
    · split
      · obtain ⟨day, spent⟩ := settleTrigger_keeps p.rules.works c.day low
        refine ⟨day, fun _ => by rw [period]; rfl, entered (fun ok short => ?_) spent⟩
        exact ok.enters short 1 1 le_rfl le_rfl rfl rfl rfl (flag_le ..) (flag_le ..) rfl (flag_le' ..)
      · refine ⟨rfl, fun _ => by rw [period]; rfl, entered (fun ok short => ?_) id⟩
        exact ok.enters short 1 0 le_rfl (Nat.zero_le _) rfl rfl rfl (flag_le ..) (flag_le ..) rfl le_rfl
    · refine ⟨rfl, fun _ => by rw [period]; rfl, entered (fun ok short => ?_) id⟩
      exact ok.enters short 0 0 (Nat.zero_le _) le_rfl rfl rfl rfl le_rfl le_rfl rfl le_rfl
  · next absent =>
    refine ⟨rfl, fun present => ?_, fun ok _ => ok⟩
    cases period : c.period with
    | none => rfl
    | some p =>
      obtain ⟨k, ending⟩ := Option.ne_none_iff_exists'.mp (present (by rw [period]; nofun))
      exact (absent p k period ending).elim

/-! ### One minute ahead (R99 to R103) -/

theorem dayStartOf_between {start : Nat} (range : start < 1440) (n : Nat) : dayStartOf start n ≤ n ∧ n < dayStartOf start n + 1440 := by
  have below : n % 1440 ≤ n ∧ n % 1440 < 1440 := ⟨Nat.mod_le .., Nat.mod_lt _ (by decide)⟩
  unfold dayStartOf minuteOfDay
  split
  · omega
  · split <;> omega

theorem State.closeIfDue_chan (s : State) (ch : Ch) (set : Bool) (n : Nat) :
    ((s.closeIfDue ch set n).chan ch).day = (s.chan ch).day ∧
    (((s.closeIfDue ch set n).chan ch).period = none ∨ ((s.closeIfDue ch set n).chan ch).period = (s.chan ch).period ∧
      ∀ p, (s.chan ch).period = some p → s.closeCause ch set n p = none) := by
  unfold State.closeIfDue
  split
  · next absent => exact ⟨rfl, .inl absent⟩
  · next p held =>
    split
    · next open_ => exact ⟨rfl, .inr ⟨rfl, fun q same => by rw [held] at same; injection same with same; exact same ▸ open_⟩⟩
    · rw [(s.chan_closePeriod ch p _).1]
      exact ⟨rfl, .inl rfl⟩

/-- A period that no cause closes goes on within its day. -/
theorem State.closeCause_none {s : State} {ch : Ch} {set : Bool} {n : Nat} {p : Period} (none' : s.closeCause ch set n p = none) :
    set = false ∧ minuteOfDay n ≠ s.header.dayStart ∧ ∀ d, (s.chan ch).day = some d → n < d.start + 1440 := by
  unfold State.closeCause at none'
  split at none'
  · cases none'
  · next unset =>
    split at none'
    · cases none'
    · next within =>
      obtain ⟨early, day⟩ := not_or.mp within
      refine ⟨by simpa using unset, early, fun d held => ?_⟩
      rw [held] at day
      simpa [pastDay] using day

theorem State.lookAhead_chan (s : State) (ch : Ch) (set : Bool) (n : Nat) :
    ((s.lookAhead ch set n).chan ch).day =
      (if s.dayOpens ch set n then some ⟨dayStartOf s.header.dayStart n, s.header.allowance, 0, 0, false⟩ else (s.chan ch).day) ∧
    (((s.lookAhead ch set n).chan ch).period = (s.chan ch).period ∧ (s.chan ch).period ≠ none ∧
        (∀ p, (s.chan ch).period = some p → s.closeCause ch set n p = none) ∨
      ∃ p, ((s.lookAhead ch set n).chan ch).period = some p ∧ p.opening = n ∧ p.untouched) := by
  obtain ⟨day, period⟩ := s.closeIfDue_chan ch set n
  have header : (s.closeIfDue ch set n).header = s.header := (State.SameFrame.closeIfDue s ch set n).header
  unfold State.lookAhead
  dsimp only
  generalize s.closeIfDue ch set n = t at day period header
  let u := if s.dayOpens ch set n then t.openDay ch n else t
  have opened : (u.chan ch).day =
      (if s.dayOpens ch set n then some ⟨dayStartOf s.header.dayStart n, s.header.allowance, 0, 0, false⟩ else (s.chan ch).day) ∧
      (u.chan ch).period = (t.chan ch).period := by
    dsimp only [u]
    split
    · rw [State.openDay, State.chan_setChan_self, header]
      exact ⟨rfl, rfl⟩
    · exact ⟨day, rfl⟩
  show ((if (u.chan ch).period.isNone then u.openPeriod ch n else u).chan ch).day = _ ∧ _
  change _ ∧ (((if (u.chan ch).period.isNone then u.openPeriod ch n else u).chan ch).period = _ ∧ _ ∨
    ∃ p, ((if (u.chan ch).period.isNone then u.openPeriod ch n else u).chan ch).period = some p ∧ _)
  clear_value u
  obtain ⟨opens, same⟩ := opened
  split
  · rw [State.openPeriod, State.chan_setChan_self]
    exact ⟨opens, .inr ⟨_, rfl, rfl, State.newPeriod_untouched u ch n⟩⟩
  · next held =>
    rw [same] at held
    refine ⟨opens, .inl ⟨?_, ?_⟩⟩
    · obtain absent | ⟨kept, -⟩ := period
      · rw [absent] at held
        exact absurd rfl held
      · exact same.trans kept
    · obtain absent | ⟨kept, cause⟩ := period
      · rw [absent] at held
        exact absurd rfl held
      · exact ⟨fun none' => held (by rw [kept, none']; rfl), cause⟩

/-- The boundary goes on from its ending minute to the next, unless the time was set (R43, R50). -/
structure Boundary.Ok (b : Boundary) : Prop where
  set : b.timeSet = true → b.next ≠ none
  next : ∀ k, b.timeSet = false → b.ending = some k → b.next = some (k + 1)

/-- R99 to R102: one minute ahead, the accounts stand at the start of that minute. -/
theorem State.lookAhead_inMinute {s : State} {ch : Ch} {set : Bool} {n : Nat} {now : MinuteOrAbsent} (range : s.header.dayStart < 1440)
    (follows : ∀ k, set = false → now = some k → n = k + 1) (ok : (s.chan ch).AccountsOk) (at_ : (s.chan ch).InMinute now 1) :
    ((s.lookAhead ch set n).chan ch).AccountsOk ∧ ((s.lookAhead ch set n).chan ch).InMinute (some n) 0 := by
  obtain ⟨day, period⟩ := s.lookAhead_chan ch set n
  obtain ⟨startLow, startHigh⟩ := dayStartOf_between range n
  have within : ∀ d, ((s.lookAhead ch set n).chan ch).day = some d → d.spent ≤ d.allowance ∧ d.start ≤ n ∧ n < d.start + 1440 := by
    intro d held
    rw [day] at held
    split at held
    · injection held with held
      subst held
      exact ⟨Nat.zero_le _, startLow, startHigh⟩
    · next stays =>
      obtain ⟨k, ending, low, high⟩ := at_.days d held
      refine ⟨ok.days d held, ?_⟩
      unfold State.dayOpens at stays
      rw [held] at stays
      dsimp only at stays
      cases set with
      | true =>
        rw [if_pos rfl, bne_iff_ne, not_not] at stays
        rw [← stays]
        exact ⟨startLow, startHigh⟩
      | false =>
        rw [if_neg (by decide)] at stays
        have next := follows k rfl ending
        simp only [Bool.or_eq_true, beq_iff_eq, decide_eq_true_eq] at stays
        omega
  have fits : ∀ p, ((s.lookAhead ch set n).chan ch).period = some p → p.Ok ∧
      ∃ d, ((s.lookAhead ch set n).chan ch).day = some d ∧ d.start ≤ p.opening ∧ p.opening + p.elapsed = n := by
    intro p held
    obtain ⟨kept, present, goesOn⟩ | ⟨q, made, opening, elapsed, accounted, impulsive, lowFreq, triggers, breaches, planned⟩ := period
    · rw [kept] at held
      obtain ⟨unset, early, short⟩ := State.closeCause_none (goesOn p held)
      obtain ⟨d, k, holds, ending, low, gone⟩ := at_.periods p held
      have next := follows k unset ending
      refine ⟨ok.periods p held, d, ?_, low, by omega⟩
      have stays : s.dayOpens ch set n = false := by
        have := short d holds
        unfold State.dayOpens
        rw [holds, unset]
        simp [early]
        omega
      rw [day, stays]
      exact holds
    · rw [made] at held
      injection held with held
      subst held
      refine ⟨⟨planned, by omega, by omega, by omega, by omega, by omega, by omega⟩, ?_⟩
      cases here : ((s.lookAhead ch set n).chan ch).day with
      | some d => exact ⟨d, rfl, opening ▸ (within d here).2.1, by omega⟩
      | none =>
        rw [day] at here
        split at here
        · cases here
        · next stays => rw [State.dayOpens, here] at stays; exact absurd rfl stays
  refine ⟨⟨fun p held => (fits p held).1, fun d held => (within d held).1⟩, fun d held => ⟨n, rfl, (within d held).2⟩, fun p held => ?_⟩
  obtain ⟨-, d, holds, low, gone⟩ := fits p held
  exact ⟨d, n, holds, rfl, low, gone⟩

/-! ### A close (R34, R45, R93) -/

theorem Channel.enterMinute_inMinute {c : Channel} {m : Summary} (ok : c.AccountsOk) (at_ : c.InMinute m.boundary.ending 0) (low : Nat) :
    (c.enterMinute m low).chan.AccountsOk ∧ (c.enterMinute m low).chan.InMinute m.boundary.ending 1 := by
  obtain ⟨day, period, counts⟩ := c.enterMinute_keeps m low
  generalize (c.enterMinute m low).chan = e at day period counts
  have dayOf : ∀ d, e.day = some d → ∃ d', c.day = some d' ∧ d'.start = d.start := fun d held => by
    rw [held, Option.map_some] at day
    obtain ⟨d', was, same⟩ := Option.map_eq_some_iff.mp day.symm
    exact ⟨d', was, congrArg Prod.fst same⟩
  have dayTo : ∀ d, c.day = some d → ∃ d', e.day = some d' ∧ d'.start = d.start := fun d held => by
    rw [held, Option.map_some] at day
    obtain ⟨d', was, same⟩ := Option.map_eq_some_iff.mp day
    exact ⟨d', was, congrArg Prod.fst same⟩
  have short : ∀ p, c.period = some p → p.elapsed < 1440 := fun p held => by
    obtain ⟨d, k, holds, ending, low, gone⟩ := at_.periods p held
    obtain ⟨k', same, -, high⟩ := at_.days d holds
    rw [ending] at same
    injection same with same
    omega
  refine ⟨counts ok short, fun d held => ?_, fun p held => ?_⟩
  · obtain ⟨d', was, same⟩ := dayOf d held
    rw [← same]
    exact at_.days d' was
  · have moved := period fun present absent => by
      rw [absent] at at_
      exact present at_.absent.2
    rw [held, Option.map_some] at moved
    obtain ⟨p', was, same⟩ := Option.map_eq_some_iff.mp moved.symm
    obtain ⟨opening, elapsed⟩ := Prod.mk.inj same
    obtain ⟨d, k, holds, ending, low, gone⟩ := at_.periods p' was
    obtain ⟨d', holds', start⟩ := dayTo d holds
    exact ⟨d', k, holds', ending, by omega, by omega⟩

/-- R34, R45, R93: the close of a minute leaves the accounts at the start of the next. -/
theorem State.closeMinute_inMinute {s : State} {ch : Ch} {w : WaitingClose} (range : s.header.dayStart < 1440) (boundary : w.boundary.Ok)
    (ok : (s.chan ch).AccountsOk) (at_ : (s.chan ch).InMinute w.boundary.ending 0) :
    ((s.closeMinute ch w).chan ch).AccountsOk ∧ ((s.closeMinute ch w).chan ch).InMinute w.boundary.next 0 := by
  obtain ⟨r, -, -, -, record, accounted, -⟩ := s.closeMinute_accounts ch w
  have header : (s.minuteBegun ch w.boundary).header = s.header := rfl
  have begun : ((s.minuteBegun ch w.boundary).chan ch).AccountsOk ∧ ((s.minuteBegun ch w.boundary).chan ch).InMinute w.boundary.ending 0 := by
    rw [State.minuteBegun, State.chan_setChan_self]
    exact ⟨ok.of_eq rfl rfl, at_.of_eq rfl rfl⟩
  generalize s.minuteBegun ch w.boundary = u at accounted header begun
  have named : (r.summary w.boundary).ch = ch ∧ (r.summary w.boundary).boundary = w.boundary := ⟨record.channel, rfl⟩
  obtain ⟨entered, frame⟩ : ((u.enterMinute (r.summary w.boundary)).chan ch).AccountsOk ∧
      ((u.enterMinute (r.summary w.boundary)).chan ch).InMinute w.boundary.ending 1 := by
    have own := (u.chan_enterMinute (r.summary w.boundary)).1
    rw [named.1] at own
    rw [own]
    exact Channel.enterMinute_inMinute (m := r.summary w.boundary) begun.1 begun.2 _
  suffices turned : ((u.turned (r.summary w.boundary)).chan ch).AccountsOk ∧ ((u.turned (r.summary w.boundary)).chan ch).InMinute w.boundary.next 0 from
    ⟨turned.1.of_eq accounted.period accounted.day, turned.2.of_eq accounted.period accounted.day⟩
  have same : (u.enterMinute (r.summary w.boundary)).header = s.header := (State.SameFrame.enterMinute u _).header.trans header
  unfold State.turned
  rw [named.2, named.1]
  cases next : w.boundary.next with
  | none =>
    have absent : w.boundary.ending = none := by
      by_contra present
      obtain ⟨k, ending⟩ := Option.ne_none_iff_exists'.mp present
      cases set : w.boundary.timeSet with
      | true => exact boundary.set set next
      | false =>
        have := boundary.next k set ending
        rw [next] at this
        cases this
    rw [absent] at frame
    exact ⟨entered, .none frame.absent.1 frame.absent.2⟩
  | some n =>
    refine State.lookAhead_inMinute (same ▸ range) (fun k set ending => ?_) entered frame
    have := boundary.next k set ending
    rw [next] at this
    exact Option.some.inj this

/-! ### A channel's minute beside the clock's -/

/-- A channel in step with minute `now` of the clock (R44 to R47, R50, R90, R91, R129). -/
structure Channel.InStep (c : Channel) (now : MinuteOrAbsent) : Prop where
  current : c.waiting = none → c.minuteNo = now
  waits : ∀ w, c.waiting = some w → w.boundary.ending = c.minuteNo ∧ w.boundary.next = now ∧ w.boundary.Ok
  accounts : c.InMinute c.minuteNo 0

theorem State.minutesOk_iff (s : State) : s.MinutesOk ↔
    (∀ ch, (s.chan ch).state = .off → (s.chan ch).waiting = none) ∧ ∀ ch, (s.chan ch).InStep s.minuteNow := by
  constructor
  · rintro ⟨off, current, waits, days, periods⟩
    refine ⟨off, fun ch => ⟨current ch, fun w held => ?_, days ch, fun p held => ?_⟩⟩
    · obtain ⟨ending, next, set, ordinary⟩ := waits ch w held
      exact ⟨ending, next, set, ordinary⟩
    · obtain ⟨d, holds, low, gone⟩ := periods ch p held
      exact ⟨d, _, holds, gone, low, rfl⟩
  · rintro ⟨off, step⟩
    refine ⟨off, fun ch => (step ch).current, fun ch w held => ?_, fun ch => (step ch).accounts.days, fun ch p held => ?_⟩
    · obtain ⟨ending, next, set, ordinary⟩ := (step ch).waits w held
      exact ⟨ending, next, set, ordinary⟩
    · obtain ⟨d, k, holds, at_, low, gone⟩ := (step ch).accounts.periods p held
      exact ⟨d, holds, low, gone ▸ at_⟩

theorem Period.Ok.of_counts {p q : Period} (h : p.Ok) (same : q.counts = p.counts) : q.Ok := by
  simp only [Period.counts, Prod.mk.injEq] at same
  obtain ⟨-, planned, elapsed, accounted, impulsive, lowFreq, triggers, breaches⟩ := same
  obtain ⟨hplanned, helapsed, haccounted, himpulsive, hlowFreq, htriggers, hbreaches⟩ := h
  exact ⟨planned ▸ hplanned, by omega, by omega, by omega, by omega, by omega, by omega⟩

theorem Channel.Steady.period_of {a b : Channel} (h : a.Steady b) {q : Period} (held : b.period = some q) :
    ∃ p, a.period = some p ∧ p.counts = q.counts := by
  have same := h.period
  rw [held, Option.map_some] at same
  exact Option.map_eq_some_iff.mp same.symm

theorem Channel.AccountsOk.steady {a b : Channel} (h : a.AccountsOk) (steady : a.Steady b) : b.AccountsOk :=
  ⟨fun q held => by
    obtain ⟨p, was, same⟩ := steady.period_of held
    exact (h.periods p was).of_counts same.symm, by rw [steady.day]; exact h.days⟩

theorem Channel.InStep.steady {a b : Channel} {now : MinuteOrAbsent} (h : a.InStep now) (steady : a.Steady b) : b.InStep now := by
  obtain ⟨current, waits, days, periods⟩ := h
  refine ⟨by rwa [steady.waiting, steady.minuteNo], by rwa [steady.waiting, steady.minuteNo], by rwa [steady.minuteNo, steady.day], fun q held => ?_⟩
  obtain ⟨p, was, same⟩ := steady.period_of held
  simp only [Period.counts, Prod.mk.injEq] at same
  obtain ⟨opening, -, elapsed, -⟩ := same
  obtain ⟨d, k, holds, at_, low, gone⟩ := periods p was
  rw [steady.day, steady.minuteNo]
  exact ⟨d, k, holds, at_, by omega, by omega⟩

/-- R45 to R47: once its waiting close is made, a channel is in the clock's minute. -/
theorem State.closeWaiting_inStep {s : State} {ch : Ch} {now : MinuteOrAbsent} (range : s.header.dayStart < 1440) (ok : (s.chan ch).AccountsOk)
    (step : (s.chan ch).InStep now) : ((s.closeWaiting ch).chan ch).AccountsOk ∧ ((s.closeWaiting ch).chan ch).minuteNo = now ∧
      ((s.closeWaiting ch).chan ch).InMinute now 0 := by
  unfold State.closeWaiting
  split
  · next idle =>
    have here := step.current idle
    exact ⟨ok, here, here ▸ step.accounts⟩
  · next w held =>
    obtain ⟨ending, next, boundary⟩ := step.waits w held
    have free : ((s.setChan ch { s.chan ch with waiting := none }).chan ch).AccountsOk ∧
        ((s.setChan ch { s.chan ch with waiting := none }).chan ch).InMinute w.boundary.ending 0 := by
      rw [State.chan_setChan_self, ending]
      exact ⟨ok.of_eq rfl rfl, step.accounts.of_eq rfl rfl⟩
    obtain ⟨accounts, at_⟩ := State.closeMinute_inMinute (s := s.setChan ch { s.chan ch with waiting := none }) range boundary free.1 free.2
    obtain ⟨-, number, -⟩ := (s.setChan ch { s.chan ch with waiting := none }).chan_closeMinute ch w
    exact ⟨accounts, number.trans next, next ▸ at_⟩

/-- R44 to R47: a boundary takes a channel into its next minute. -/
theorem State.receiveBoundary_inStep {s : State} {ch : Ch} {b : Boundary} (range : s.header.dayStart < 1440) (boundary : b.Ok)
    (off : (s.chan ch).state = .off → (s.chan ch).waiting = none) (ok : (s.chan ch).AccountsOk) (step : (s.chan ch).InStep b.ending) :
    ((s.receiveBoundary b ch).chan ch).AccountsOk ∧ ((s.receiveBoundary b ch).chan ch).InStep b.next ∧
      (((s.receiveBoundary b ch).chan ch).state = .off → ((s.receiveBoundary b ch).chan ch).waiting = none) := by
  unfold State.receiveBoundary
  split
  · next isOff =>
    have idle := off isOff
    have here := step.current idle
    obtain ⟨accounts, at_⟩ := State.closeMinute_inMinute (w := (s.chan ch).hold b) range boundary ok (here ▸ step.accounts)
    obtain ⟨-, number, waiting, -⟩ := s.chan_closeMinute ch ((s.chan ch).hold b)
    have waiting := waiting.trans idle
    exact ⟨accounts, ⟨fun _ => number, fun w held => (by rw [waiting] at held; cases held), number ▸ at_⟩, fun _ => waiting⟩
  · next isOn =>
    obtain ⟨accounts, number, at_⟩ := State.closeWaiting_inStep range ok step
    obtain ⟨-, closed⟩ := s.chan_closeWaiting ch
    dsimp only
    rw [State.chan_setChan_self]
    refine ⟨accounts.of_eq rfl rfl, ⟨nofun, fun w held => ?_, ?_⟩, fun isOff => absurd (closed.state ▸ isOff) isOn⟩
    · injection held with held
      subst held
      exact ⟨number.symm, rfl, boundary⟩
    · rw [number]
      exact at_.of_eq rfl rfl

theorem State.receiveBoundary_ne (s : State) (b : Boundary) {ch d : Ch} (differ : d ≠ ch) : (s.receiveBoundary b ch).chan d = s.chan d := by
  unfold State.receiveBoundary
  split
  · exact s.chan_closeMinute_ne differ _
  · dsimp only
    rw [State.chan_setChan_ne _ differ]
    exact s.chan_closeWaiting_ne differ

/-- Every channel keeps its accounts and is in step with the minute that `now` gives it. -/
def State.AllInStep (s : State) (now : Ch → MinuteOrAbsent) : Prop :=
  ∀ ch, (s.chan ch).AccountsOk ∧ (s.chan ch).InStep (now ch) ∧ ((s.chan ch).state = .off → (s.chan ch).waiting = none)

theorem State.foldl_receiveBoundary {b : Boundary} (boundary : b.Ok) (l : List Ch) (distinct : l.Nodup) :
    ∀ s : State, s.header.dayStart < 1440 → (s.AllInStep fun ch => if ch ∈ l then b.ending else b.next) →
      (l.foldl (State.receiveBoundary b) s).AllInStep fun _ => b.next := by
  induction l with
  | nil => exact fun s _ step ch => by simpa using step ch
  | cons c l ih =>
    intro s range step
    obtain ⟨fresh, distinct⟩ := List.nodup_cons.mp distinct
    refine ih distinct _ (by rw [(State.SameFrame.receiveBoundary b s c).header]; exact range) fun ch => ?_
    obtain ⟨ok, inStep, off⟩ := step ch
    by_cases same : ch = c
    · subst same
      simp only [List.mem_cons_self, if_true] at inStep
      simp only [if_neg fresh]
      exact State.receiveBoundary_inStep range boundary off ok inStep
    · rw [s.receiveBoundary_ne b same]
      simp only [List.mem_cons, same, false_or] at inStep
      exact ⟨ok, inStep, off⟩

/-- The dispensation table has moved: slots and notices, and the orders used. -/
def State.SlotsMoved (s t : State) : Prop :=
  t = { s with
    slots := t.slots, orderUses := t.orderUses, site := { s.site with notices := t.site.notices }
    compliance := { s.compliance with notices := t.compliance.notices } }

theorem State.SlotsMoved.refl (s : State) : s.SlotsMoved s := rfl

theorem State.SlotsMoved.trans {s t u : State} (h : s.SlotsMoved t) (h' : t.SlotsMoved u) : s.SlotsMoved u := by
  rw [State.SlotsMoved] at h h' ⊢
  rw [h] at h'
  exact h'

theorem State.SlotsMoved.header {s t : State} (h : s.SlotsMoved t) : t.header = s.header := by rw [h]

/-- R84: a boundary moves slots and sets DISPENSATION. -/
theorem State.SlotsMoved.moveSlots (s : State) (next : MinuteOrAbsent) : s.SlotsMoved (s.moveSlots next) := by
  have one (n : Nat) (t : State) (i : Fin 8) : t.SlotsMoved (t.moveSlot n i) := by
    unfold State.moveSlot
    split
    · exact .refl t
    · rfl
  have many (n : Nat) (l : List (Fin 8)) : ∀ t : State, t.SlotsMoved (l.foldl (State.moveSlot n) t) := by
    induction l with
    | nil => exact .refl
    | cons i l ih => exact fun t => (one n t i).trans (ih _)
  unfold State.moveSlots
  split
  · exact .refl s
  · exact .trans (t := (s.arrange _).2) (by rw [State.arrange_state]; rfl) (many ..)

/-- R44: a boundary delivered takes every channel from its ending minute into its next. -/
theorem State.deliver_allInStep {s : State} {b : Boundary} (running : s.running = true) (range : s.header.dayStart < 1440) (boundary : b.Ok)
    (step : s.AllInStep fun _ => b.ending) : (s.deliver b).AllInStep fun _ => b.next := by
  obtain ⟨u, l, made, distinct, all, apart, n, moved⟩ := State.deliver_folds running b
  have header : u.header = s.header := by
    rw [moved]
    exact (State.SlotsMoved.moveSlots s b.next).header
  rw [made]
  refine State.foldl_receiveBoundary boundary l distinct u (header ▸ range) fun ch => ?_
  simp only [if_pos (all ch)]
  rw [State.chan, apart.1]
  exact step ch

/-! ### Every step -/

/-- The settings are in range, the accounts keep their counts, and while the part runs the minutes agree with the clock. -/
structure State.MinutesKept (s : State) : Prop where
  settings : s.ChannelsOk ∧ s.HeldOk False
  accounts : ∀ ch, (s.chan ch).AccountsOk
  minutes : s.running = true → s.AllInStep fun _ => s.minuteNow

theorem Header.dayStart_of_inRange {h : Header} (range : h.inRange = true) : h.dayStart < 1440 := by
  simp only [Header.inRange, Bool.and_eq_true, decide_eq_true_eq] at range
  omega

theorem State.MinutesKept.range {s : State} (h : s.MinutesKept) : s.header.dayStart < 1440 := Header.dayStart_of_inRange h.settings.2.header

theorem Changes.settings {s t : State} (changes : Changes s t) (h : s.ChannelsOk ∧ s.HeldOk False) : t.ChannelsOk ∧ t.HeldOk False :=
  changes.keeps (K := fun s => s.ChannelsOk ∧ s.HeldOk False)
    (fun _ _ _ effect h => ⟨effect.channelsOk h.1 h.2.store.items, effect.heldOk h.1 h.2⟩) h

theorem State.minuteNow_congr {s t : State} (clock : t.clock = s.clock) : t.minuteNow = s.minuteNow := by rw [State.minuteNow, clock]; rfl

theorem Clock.boundary_ok (c : Clock) : c.boundary.Ok ∧ c.boundary.ending = (if c.set then some c.minute else none) ∧
    c.boundary.next = if c.nextMinute.set then some c.nextMinute.minute else none := by
  unfold Clock.boundary Clock.nextMinute
  cases c.set
  · exact ⟨⟨nofun, nofun⟩, rfl, rfl⟩
  · exact ⟨⟨nofun, fun k _ ending => by injection ending with ending; subst ending; rfl⟩, rfl, rfl⟩

theorem State.MinutesKept.emitBoundary {s : State} (h : s.MinutesKept) : s.emitBoundary.MinutesKept := by
  have settings := (effects_emitBoundary (k := .own) s).changes.settings h.settings
  unfold State.emitBoundary at settings ⊢
  split at settings
  case isFalse idle => rw [if_neg idle]; exact h
  case isTrue due =>
    rw [if_pos due]
    obtain ⟨boundary, ending, next⟩ := s.clock.boundary_ok
    have clock := State.deliver_clock { s with clock := s.clock.nextMinute } s.clock.boundary
    by_cases running : s.running = true
    · have step := State.deliver_allInStep (s := { s with clock := s.clock.nextMinute }) (b := s.clock.boundary) running h.range boundary
        (by rw [ending]; exact h.minutes running)
      have now : ({ s with clock := s.clock.nextMinute }.deliver s.clock.boundary).minuteNow = s.clock.boundary.next := by
        rw [State.minuteNow, clock]
        exact next.symm
      exact ⟨settings, fun ch => (step ch).1, fun _ => by rw [now]; exact step⟩
    · have held : ({ s with clock := s.clock.nextMinute } : State).deliver s.clock.boundary = { s with clock := s.clock.nextMinute } :=
        if_neg running
      rw [held] at settings ⊢
      exact ⟨settings, h.accounts, fun runs => absurd runs running⟩

theorem State.MinutesKept.of_channels {s t : State} (h : s.MinutesKept) (settings : t.ChannelsOk ∧ t.HeldOk False) (channels : t.channels = s.channels)
    (running : t.running = s.running) (now : t.minuteNow = s.minuteNow) : t.MinutesKept := by
  have chan (ch : Ch) : t.chan ch = s.chan ch := by rw [State.chan, channels]; rfl
  refine ⟨settings, fun ch => by rw [chan]; exact h.accounts ch, fun runs ch => ?_⟩
  rw [chan, now]
  exact h.minutes (running ▸ runs) ch

theorem State.Fresh.accounts {s : State} (h : s.Fresh) (ch : Ch) : (s.chan ch).day = none ∧ (s.chan ch).period = none := by
  have fresh := h.chans ch
  rw [Channel.Fresh] at fresh
  rw [fresh]
  exact ⟨rfl, rfl⟩

theorem State.Fresh.minutesKept {s : State} (h : s.Fresh) (settings : s.ChannelsOk ∧ s.HeldOk False) : s.MinutesKept where
  settings := settings
  accounts ch := .none (h.accounts ch).1 (h.accounts ch).2
  minutes running ch := ⟨.none (h.accounts ch).1 (h.accounts ch).2, ⟨fun _ => h.minutes running ch,
    fun w held => (by rw [h.waiting ch] at held; cases held), .none (h.accounts ch).1 (h.accounts ch).2⟩, fun _ => h.waiting ch⟩

theorem State.minutesKept_paced : Paced State.MinutesKept where
  steady steady h := by
    refine ⟨steady.changes.settings h.settings, fun ch => (h.accounts ch).steady (steady.chans ch), fun running ch => ?_⟩
    obtain ⟨ok, step, off⟩ := h.minutes (steady.running ▸ running) ch
    rw [State.minuteNow_congr steady.clock]
    exact ⟨ok.steady (steady.chans ch), step.steady (steady.chans ch), fun isOff => (steady.chans ch).waiting.trans (off (steady.off ch not_false isOff))⟩
  closes {s u ch} running steady h := by
    have settings := (steady.changes.trans (effects_closeWaiting (k := .own) u ch).changes).settings h.settings
    have range : u.header.dayStart < 1440 := Header.dayStart_of_inRange (steady.changes.settings h.settings).2.header
    have now : (u.closeWaiting ch).minuteNow = s.minuteNow := State.minuteNow_congr ((State.SameFrame.closeWaiting u ch).clock.trans steady.clock)
    have all : (u.closeWaiting ch).AllInStep fun _ => s.minuteNow := fun d => by
      obtain ⟨ok, step, off⟩ := h.minutes running d
      have ok := ok.steady (steady.chans d)
      have step := step.steady (steady.chans d)
      by_cases same : d = ch
      · subst same
        obtain ⟨accounts, number, at_⟩ := State.closeWaiting_inStep range ok step
        obtain ⟨waiting, -⟩ := u.chan_closeWaiting d
        exact ⟨accounts, ⟨fun _ => number, fun w held => (by rw [waiting] at held; cases held), number ▸ at_⟩, fun _ => waiting⟩
      · rw [u.chan_closeWaiting_ne same]
        exact ⟨ok, step, fun isOff => (steady.chans d).waiting.trans (off (steady.off d same isOff))⟩
    exact ⟨settings, fun d => (all d).1, fun _ => by rw [now]; exact all⟩
  boundary h := h.emitBoundary
  setTime {s} n second running _ h := by
    have settings := (effects_setTime (k := .own) s n second).changes.settings h.settings
    have step := State.deliver_allInStep (b := ⟨s.minuteNow, some n, true⟩) running h.range ⟨fun _ => nofun, nofun⟩ (h.minutes running)
    exact ⟨settings, fun ch => (step ch).1, fun _ => step⟩
  trimClock {s offset} running _ _ h := by
    have trimmed : State.MinutesKept { s with clock := { s.clock with length := (60 + offset).toNat } } :=
      h.of_channels ((Effects.one (k := .own) (.clock s _)).changes.settings h.settings) rfl rfl rfl
    exact trimmed.emitBoundary.of_channels ((effects_trimClock (k := .own) s offset).changes.settings h.settings) rfl rfl rfl
  resets changes _ fresh h := fresh.minutesKept (changes.settings h.settings)

/-- Work on the counters leaves the accounts. -/
theorem State.MinutesKept.counted {s t : State} (h : s.MinutesKept) (changes : Changes s t) (running : t.running = s.running)
    (now : t.minuteNow = s.minuteNow)
    (same : ∀ ch, (t.chan ch).state = (s.chan ch).state ∧ (t.chan ch).waiting = (s.chan ch).waiting ∧ (t.chan ch).minuteNo = (s.chan ch).minuteNo ∧
      (t.chan ch).period = (s.chan ch).period ∧ (t.chan ch).day = (s.chan ch).day) : t.MinutesKept := by
  refine ⟨changes.settings h.settings, fun ch => ?_, fun runs ch => ?_⟩
  · obtain ⟨-, -, -, period, day⟩ := same ch
    exact (h.accounts ch).of_eq period day
  · obtain ⟨ok, step, off⟩ := h.minutes (running ▸ runs) ch
    obtain ⟨state, waiting, number, period, day⟩ := same ch
    rw [now]
    refine ⟨ok.of_eq period day, ⟨?_, ?_, ?_⟩, ?_⟩
    · rw [waiting, number]; exact step.current
    · rw [waiting, number]; exact step.waits
    · rw [number]; exact step.accounts.of_eq period day
    · rw [state, waiting]; exact off

theorem State.MinutesKept.elapse {s : State} (h : s.MinutesKept) (n : Nat) : (s.elapse n).MinutesKept := by
  obtain ⟨made, chans⟩ := s.elapse_does n
  refine h.counted (effects_elapse (k := .own) s n).changes (by rw [made]; rfl) (by rw [made]; rfl) fun ch => ?_
  rw [chans ch, Channel.tickLapse_eq]
  split <;> exact ⟨rfl, rfl, rfl, rfl, rfl⟩

theorem State.MinutesKept.secondElapsed {s : State} (h : s.MinutesKept) : s.secondElapsed.MinutesKept :=
  (h.elapse _).of_channels ((effects_secondElapsed (k := .own) s).changes.settings h.settings) rfl rfl rfl

theorem State.MinutesKept.countPeriod {s : State} (h : s.MinutesKept) : s.countPeriod.MinutesKept := by
  refine h.counted (Effects.one (k := .own) (.period s rfl)).changes s.countPeriod_running ?_ fun ch => ?_
  · unfold State.countPeriod
    dsimp only
    split <;> rfl
  · rw [(s.countPeriod_does ch).1]
    unfold State.crystalChannel
    split
    · dsimp only
      split <;> exact ⟨rfl, rfl, rfl, rfl, rfl⟩
    · exact ⟨rfl, rfl, rfl, rfl, rfl⟩

theorem step_minutesKept {s t : State} (h : step s = .next t) (hs : s.MinutesKept) : t.MinutesKept :=
  step_paced State.minutesKept_paced (fun _ hs => (State.minutesKept_paced.settle hs).secondElapsed)
    (fun s lost h => (s.powerUp_fresh lost).1.minutesKept ((effects_powerUp (k := ⟨none, true, true, false⟩) rfl rfl s lost).changes.settings h.settings))
    (fun _ hs => State.minutesKept_paced.crystalPeriod (fun _ h => h.countPeriod) (fun _ n h => h.elapse n) (fun _ h => h.secondElapsed) hs)
    (fun _ _ hs => hs.of_channels ⟨hs.settings.1.of_channels rfl, hs.settings.2.of_view rfl⟩ rfl rfl rfl) h hs

end Sys2Proof.Machine


/-! The counters of the receivers, the engines, the clock, the lapses and the events (O59). -/

namespace Sys2Proof.Machine

/-! ### The engines and the receivers, change by change -/

/-- R25, R26, R32, R48: the block, the running values and the minute of an engine lie within their ranges. -/
structure Engine.RangeOk (e : Engine) : Prop where
  minute : e.minute.Ok
  running : e.f < 2 ^ 46 ∧ e.s < 2 ^ 46
  count : e.slice.blockCount ≤ 48
  sum : e.slice.blockSum ≤ e.slice.blockCount * (2 ^ 46 - 1)

theorem MinuteAcc.Ok.empty : MinuteAcc.empty.Ok := ⟨rfl, Nat.zero_le _⟩

theorem MinuteAcc.Ok.takeSlice {m : MinuteAcc} (h : m.Ok) (sl : SliceAcc) (r : SliceResult) : (m.takeSlice sl r).Ok := by
  have counted (short : m.duration < 721) : (m.count r.cls).Ok := by
    obtain ⟨sum, -⟩ := h
    unfold MinuteAcc.count
    dsimp only
    split <;> exact ⟨by simp only; omega, short⟩
  unfold MinuteAcc.takeSlice
  split
  · exact ⟨h.sum, h.most⟩
  · next short =>
    have ok := counted (by omega)
    split <;> exact ⟨ok.sum, ok.most⟩

theorem Engine.RangeOk.empty {e : Engine} (slice : e.slice = .empty) (minute : e.minute.Ok) (running : e.f < 2 ^ 46 ∧ e.s < 2 ^ 46) : e.RangeOk :=
  ⟨minute, running, by rw [slice]; exact Nat.zero_le _, by rw [slice]; exact Nat.zero_le _⟩

theorem Engine.RangeOk.cleared {e : Engine} (slice : e.slice = .empty) (minute : e.minute.Ok) (fast : e.f = 0) (slow : e.s = 0) : e.RangeOk :=
  .empty slice minute (by rw [fast, slow]; decide)

theorem LineRx.Ok.reset : LineRx.reset.Ok := ⟨nofun, by decide, by decide⟩

theorem Engine.RangeOk.useSample {e : Engine} (h : e.RangeOk) (short : e.slice.blockCount < 48) (x : Sample) : (e.useSample x).RangeOk := by
  obtain ⟨minute, running, -, sum⟩ := h
  refine ⟨minute, running, short, ?_⟩
  have square_le (y : Int) : square y ≤ 2 ^ 46 - 1 := Nat.min_le_right ..
  calc (e.useSample x).slice.blockSum
      = e.slice.blockSum + square (e.filters.step x.toInt).yA := rfl
    _ ≤ e.slice.blockCount * (2 ^ 46 - 1) + (2 ^ 46 - 1) := Nat.add_le_add sum (square_le _)
    _ = (e.useSample x).slice.blockCount * (2 ^ 46 - 1) := (Nat.succ_mul ..).symm

theorem Engine.RangeOk.blockEnd {e : Engine} (h : e.RangeOk) : e.blockEnd.RangeOk := by
  obtain ⟨minute, ⟨fast, slow⟩, count, sum⟩ := h
  have mean : e.slice.blockMean < 2 ^ 46 := by
    have most : e.slice.blockSum ≤ 48 * (2 ^ 46 - 1) := sum.trans (Nat.mul_le_mul_right _ count)
    unfold SliceAcc.blockMean
    omega
  refine ⟨minute, ⟨?_, ?_⟩, Nat.zero_le _, Nat.zero_le _⟩
  · exact lt_of_le_of_lt (follow_between 125 e.f e.slice.blockMean).2.2 (max_lt fast mean)
  · exact lt_of_le_of_lt (follow_between 1000 e.s e.slice.blockMean).2.2 (max_lt slow mean)

theorem ChanEffect.rangeOk {k : Origin} {a b : Channel} (h : ChanEffect k a b) (ok : a.engine.RangeOk) : b.engine.RangeOk := by
  have zero : (0 : Nat) < 2 ^ 46 := by decide
  cases h with
  | minuteClosed n => exact ⟨.empty, ok.running, ok.count, ok.sum⟩
  | minuteEntered m low =>
    have accounted := a.accounted_enterMinute m low
    rw [Channel.Accounted] at accounted
    rw [accounted]
    exact ok
  | sliceCounted r => rw [a.countSlice_eq]; exact ok
  | sliceEnds r => exact .empty rfl (ok.minute.takeSlice _ r) ok.running
  | blockEnds => exact ok.blockEnd
  | takesSample x short => exact ok.useSample short x
  | engineCleared => exact ⟨ok.minute, ⟨zero, zero⟩, ok.count, ok.sum⟩
  | returnsOff => exact .empty rfl ok.minute ok.running
  | starts => exact .cleared rfl ok.minute rfl rfl
  | _ => exact ok

theorem LineEffect.ok {a b : LineRx} (h : LineEffect a b) (ok : a.Ok) : b.Ok := by
  cases h with
  | noFrames => exact ⟨nofun, by decide, by decide⟩
  | restored => exact ⟨fun _ => rfl, le_rfl, ok.pause⟩
  | frameUsed => exact ⟨ok.present, ok.run, Nat.zero_le _⟩
  | frameCounted lost => exact ⟨fun present => absurd (lost.symm.trans present) (by decide), Nat.min_le_right .., Nat.zero_le _⟩

/-- The receivers' counters and the engines lie within their ranges. -/
structure State.RangesOk (s : State) : Prop where
  lines : ∀ l, (s.rx l).Ok
  engines : ∀ ch, (s.chan ch).engine.RangeOk

theorem State.RangesOk.of_engines {s t : State} (h : s.RangesOk) (lines : ∀ l, t.rx l = s.rx l)
    (engines : ∀ ch, (t.chan ch).engine = (s.chan ch).engine) : t.RangesOk :=
  ⟨fun l => by rw [lines]; exact h.lines l, fun ch => by rw [engines]; exact h.engines ch⟩

theorem State.RangesOk.of_channels {s t : State} (h : s.RangesOk) (lines : ∀ l, t.rx l = s.rx l) (channels : t.channels = s.channels) : t.RangesOk :=
  h.of_engines lines fun ch => by rw [State.chan, channels]; rfl

theorem State.RangesOk.setChan {s : State} (h : s.RangesOk) (ch : Ch) {c : Channel} (ok : c.engine.RangeOk) : (s.setChan ch c).RangesOk := by
  refine ⟨fun l => by rw [State.rx_setChan]; exact h.lines l, fun d => ?_⟩
  rw [State.chan_setChan]
  split
  · exact ok
  · exact h.engines d

/-- Work on one channel. -/
theorem State.RangesOk.on {s t : State} (h : s.RangesOk) (ch : Ch) (lines : ∀ l, t.rx l = s.rx l) (others : ∀ d, d ≠ ch → t.chan d = s.chan d)
    (ok : (t.chan ch).engine.RangeOk) : t.RangesOk := by
  refine ⟨fun l => by rw [lines]; exact h.lines l, fun d => ?_⟩
  by_cases same : d = ch
  · exact same ▸ ok
  · rw [others d same]
    exact h.engines d

theorem State.RangesOk.setPort {s : State} (h : s.RangesOk) (p : Port) (x : PortState) : (s.setPort p x).RangesOk :=
  h.of_channels (fun l => by cases p <;> cases l <;> rfl) (by simp)

theorem State.endRun_engine (s : State) (ch : Ch) (o : CalOutcome) :
    (∀ l, (s.endRun ch o).rx l = s.rx l) ∧ ∀ d, ((s.endRun ch o).chan d).engine = (s.chan d).engine := by
  refine ⟨(State.Calm.endRun s ch o).lines, fun d => ?_⟩
  by_cases running : s.runningOn ch = true
  · obtain ⟨-, others, own, -⟩ := s.endRun_does ch o running
    by_cases same : d = ch
    · subst same; rw [own]
    · rw [others d same]
  · rw [State.endRun, if_neg running]

theorem State.RangesOk.endRun {s : State} (h : s.RangesOk) (ch : Ch) (o : CalOutcome) : (s.endRun ch o).RangesOk :=
  h.of_engines (s.endRun_engine ch o).1 (s.endRun_engine ch o).2

theorem State.RangesOk.decideResult {s : State} (h : s.RangesOk) (ch : Ch) (o : CalOutcome) (fs : Option Level) : (s.decideResult ch o fs).RangesOk := by
  obtain ⟨frame, others, own, -⟩ := s.decideResult_does ch o fs
  refine h.on ch (fun l => by rw [frame]; cases l <;> rfl) others ?_
  rw [own]
  exact h.engines ch

theorem State.RangesOk.bringQuiet {s : State} (h : s.RangesOk) (ch : Ch) (i : QuietInput) : (s.bringQuiet ch i).RangesOk :=
  h.of_channels (State.Calm.bringQuiet s ch i).lines (State.Apart.bringQuiet s ch i).1

theorem Effect.rangesOk {k : Origin} {s t : State} (effect : Effect k s t) (h : s.RangesOk) : t.RangesOk := by
  cases effect with
  | chan ch c change => exact h.setChan ch (change.rangeOk (h.engines ch))
  | line l r change _ =>
    refine ⟨fun d => ?_, fun ch => by rw [State.chan_setRx]; exact h.engines ch⟩
    rw [State.rx_setRx]
    split
    · exact change.ok (h.lines l)
    · exact h.lines d
  | ticked =>
    refine h.of_engines (fun l => by cases l <;> rfl) fun ch => ?_
    have tick : s.tickLapses.chan ch = (s.chan ch).tickLapse := by cases ch <;> rfl
    rw [tick, Channel.tickLapse_eq]
  | period _ =>
    have counted (r : LineRx) (ok : r.Ok) : r.period.Ok := ⟨ok.present, ok.run, Nat.min_le_right ..⟩
    refine ⟨fun l => ?_, fun ch => ?_⟩
    · obtain ⟨ch, rfl⟩ : ∃ ch : Ch, ch.line = l := by cases l; exacts [⟨.ch0, rfl⟩, ⟨.ch2, rfl⟩]
      rw [(s.countPeriod_does ch).2]
      split
      · exact counted _ (h.lines _)
      · exact h.lines _
    · rw [(s.countPeriod_does ch).1]
      have ok := h.engines ch
      unfold State.crystalChannel
      split
      · dsimp only
        split <;> exact ⟨ok.minute, ok.running, ok.count, ok.sum⟩
      · exact ok
  | notices p n c _ => exact h.setPort p _
  | evaluated ch => exact State.RangesOk.bringQuiet (s := s.holdQuiet ch) (h.setChan ch (c := { s.chan ch with quiet := _ }) (h.engines ch)) _ _
  | eventOpened ch r _ => exact (h.setChan ch (c := { s.chan ch with openEvent := some _ }) (h.engines ch)).of_channels (fun l => by cases l <;> rfl) rfl
  | eventClosed ch cause =>
    refine h.on ch (fun l => State.SameFrame.rx (.closeEvent s ch cause) l) (State.SliceFrame.closeEvent s ch cause).others ?_
    rw [s.closeEvent_chan ch cause]
    exact h.engines ch
  | calTaken ch r =>
    unfold State.calTakeSlice
    split
    · exact h
    · split
      · exact h.of_channels (fun l => by cases l <;> rfl) rfl
      · exact h
  | runFaults ch _ => exact (h.endRun ch .fault).setChan ch ((h.endRun ch .fault).engines ch)
  | runStopped ch _ =>
    have ok := (h.endRun ch .aborted).engines ch
    exact (h.endRun ch .aborted).setChan ch (.empty rfl ok.minute ok.running)
  | runCompleted ch back _ _ =>
    have ok : (s.completeRun ch).RangesOk := by
      refine h.on ch (fun l => State.SameFrame.rx (.completeRun s ch) l) (State.SliceFrame.completeRun s ch).others ?_
      rw [s.completeRun_chan ch]
      exact h.engines ch
    exact ok.setChan ch (ok.engines ch)
  | lapsed ch =>
    by_cases due : (s.chan ch).lapseDue = true
    · rw [show s.lapseResult ch = s.decideResult ch .lapsed (s.chan ch).pendingFs from if_pos due]
      exact h.decideResult ch _ _
    · rw [State.lapseResult, if_neg due]
      exact h
  | writeEnded b =>
    unfold State.endStoreWrite
    split
    · exact h
    · split <;> exact h.of_channels (fun l => by cases l <;> rfl) rfl
  | transaction p r x _ => exact h.setPort p _
  | readHistory p n _ => exact h.setPort p _
  | readPeriods p n _ => exact h.setPort p _
  | readEvents p n _ => exact h.setPort p _
  | sought p c x n _ => exact h.setPort p _
  | rewound p _ => exact h.setPort p _
  | enabled p n c _ => exact h.setPort p _
  | requested p b _ => exact State.RangesOk.bringQuiet (h.setPort p _) _ _
  | triggersSet m x y _ =>
    refine h.of_engines (fun l => by cases l <;> rfl) fun ch => ?_
    rw [State.setTriggers_chan]
    split <;> rfl
  | excludedSet m b _ =>
    refine h.of_engines (fun l => by cases l <;> rfl) fun ch => ?_
    rw [State.excludeChannels_chan]
    split <;> rfl
  | runStarted ch l _ _ _ _ =>
    obtain ⟨frame, -, others, own, -⟩ := s.startRun_does ch l
    refine h.on ch (fun l => by rw [frame]; cases l <;> rfl) others ?_
    have ok := h.engines ch
    rw [own]
    dsimp only
    split
    · exact .cleared rfl ok.minute rfl rfl
    · exact ok
  | runAborted ch _ _ =>
    refine (h.endRun ch .aborted).setChan ch ?_
    unfold Channel.recover
    split <;> exact (h.endRun ch .aborted).engines ch
  | decided ch o r fs _ _ _ => exact h.decideResult ch o fs
  | reevaluated _ =>
    obtain ⟨frame, chans, -⟩ := s.reevaluateQuiet_does
    exact h.of_engines (fun l => by rw [frame]; cases l <;> rfl) fun ch => by rw [chans ch]
  | resetBegun _ _ =>
    refine ⟨fun l => by cases l <;> exact .reset, fun ch => ?_⟩
    rw [s.beginReset_chan ch]
    exact .cleared rfl .empty rfl rfl
  | loaded _ _ _ =>
    refine ⟨fun l => by rw [(State.Calm.loadStore s).lines]; exact h.lines l, fun ch => ?_⟩
    obtain ⟨-, -, -, channels, -⟩ := s.loadStore_rest
    have load (c : Channel) (x : Option ChannelItem) : (c.load x).engine = c.engine := by cases x <;> rfl
    have same : (s.loadStore.chan ch).engine = (s.chan ch).engine := by
      rw [State.chan, channels]
      cases ch <;> exact load ..
    rw [same]
    exact h.engines ch
  | numbered _ => exact h.of_engines (fun l => by cases l <;> rfl) fun ch => by cases ch <;> rfl
  | _ => exact h.of_channels (fun l => by cases l <;> rfl) rfl

/-! ### The clock, the lapses and the events -/

/-- Prescaler and elapsed clock time are as `P` has it; the seconds, the lapse counts and the open events lie within their ranges (R42, R43, R52, R122,
R130, R132). -/
structure State.TimesOk (P : Nat → Nat → Prop) (s : State) : Prop where
  parts : P s.clock.prescaler s.clock.elapsed
  length : 30 ≤ s.clock.length ∧ s.clock.length ≤ 90
  seconds : s.clock.seconds ≤ s.clock.length
  lapses : ∀ ch r, (s.chan ch).pendingResult = some r → r.lapse ≤ 600
  events : ∀ ch e, (s.chan ch).openEvent = some e → e.Ok

section
variable {P : Nat → Nat → Prop}

theorem State.TimesOk.steady {ends : Ch → Prop} {s t : State} (h : s.TimesOk P) (steady : s.SteadyBut ends t) : t.TimesOk P := by
  obtain ⟨parts, length, seconds, lapses, events⟩ := h
  refine ⟨by rwa [steady.clock], by rwa [steady.clock], by rwa [steady.clock], fun ch r held => ?_, fun ch => (steady.chans ch).event (events ch)⟩
  obtain fresh | had := (steady.chans ch).lapse r held
  · omega
  · exact lapses ch r had

/-- Work that leaves the open events, and no result but its own or a new one, under a clock within its ranges. -/
theorem State.TimesOk.under {s t : State} (h : s.TimesOk P) (results : ∀ ch r, (t.chan ch).pendingResult = some r →
    (s.chan ch).pendingResult = some r ∨ r.lapse = 0) (events : ∀ ch, (t.chan ch).openEvent = (s.chan ch).openEvent)
    (parts : P t.clock.prescaler t.clock.elapsed) (length : 30 ≤ t.clock.length ∧ t.clock.length ≤ 90)
    (seconds : t.clock.seconds ≤ t.clock.length) : t.TimesOk P := by
  refine ⟨parts, length, seconds, fun ch r held => ?_, fun ch => by rw [events ch]; exact h.events ch⟩
  obtain had | fresh := results ch r held
  · exact h.lapses ch r had
  · omega

theorem Channel.Closed.openEvent {a b : Channel} (h : a.Closed b) : b.openEvent = a.openEvent := by
  rw [Channel.Closed] at h
  rw [h]

theorem State.closeWaiting_openEvent (s : State) (ch d : Ch) : ((s.closeWaiting ch).chan d).openEvent = (s.chan d).openEvent := by
  by_cases same : d = ch
  · subst same
    exact (s.chan_closeWaiting d).2.openEvent
  · rw [s.chan_closeWaiting_ne same]

theorem State.deliver_openEvent (s : State) (b : Boundary) (d : Ch) : ((s.deliver b).chan d).openEvent = (s.chan d).openEvent := by
  have one (t : State) (ch : Ch) : ((t.receiveBoundary b ch).chan d).openEvent = (t.chan d).openEvent := by
    by_cases same : d = ch
    · subst same
      unfold State.receiveBoundary
      split
      · exact (t.chan_closeMinute d _).2.2.2.openEvent
      · dsimp only
        rw [State.chan_setChan_self]
        exact t.closeWaiting_openEvent d d
    · rw [t.receiveBoundary_ne b same]
  have all (l : List Ch) : ∀ t : State, ((l.foldl (State.receiveBoundary b) t).chan d).openEvent = (t.chan d).openEvent := by
    induction l with
    | nil => exact fun _ => rfl
    | cons ch l ih => exact fun t => (ih _).trans (one t ch)
  by_cases running : s.running = true
  · obtain ⟨u, l, made, -, -, apart, -⟩ := State.deliver_folds running b
    rw [made, all, State.chan, apart.1]
    rfl
  · rw [State.deliver, if_neg running]

theorem State.emitBoundary_openEvent (s : State) (d : Ch) : (s.emitBoundary.chan d).openEvent = (s.chan d).openEvent := by
  unfold State.emitBoundary
  split
  · exact State.deliver_openEvent { s with clock := s.clock.nextMinute } _ d
  · rfl

theorem sixty : 30 ≤ 60 ∧ 60 ≤ 90 := by decide

/-- R43: an ordinary boundary, where the length of the minute may be a new one. -/
theorem State.TimesOk.emitBoundary {s : State} (h : s.TimesOk P) {length : Nat} (range : 30 ≤ length ∧ length ≤ 90) :
    ({ s with clock := { s.clock with length := length } }.emitBoundary).TimesOk P := by
  obtain ⟨u, same⟩ : ∃ u, u = { s with clock := { s.clock with length := length } } := ⟨_, rfl⟩
  have clock := u.emitBoundary_clock
  have on := State.SlicesOn.emitBoundary u
  have events := u.emitBoundary_openEvent
  rw [← same]
  refine h.under (fun ch r held => ?_) (fun ch => ?_) ?_ ?_ ?_
  · have := (on.chans ch).result r held
    rwa [same] at this
  · rw [events ch, same]; rfl
  · rw [clock]
    have parts : P u.clock.prescaler u.clock.elapsed := by rw [same]; exact h.parts
    split <;> exact parts
  · rw [clock]
    split
    · exact sixty
    · rw [same]; exact range
  · rw [clock]
    split
    · exact Nat.zero_le _
    · next idle => exact (Nat.lt_of_not_le fun due => idle (decide_eq_true due)).le

theorem State.timesOk_work : PacedWork (State.TimesOk P) where
  steady steady h := h.steady steady
  closes {_ u ch} _ steady h := by
    have h := h.steady steady
    have clock := (State.SameFrame.closeWaiting u ch).clock
    exact h.under (fun d r held => ((State.SlicesOn.closeWaiting u ch).chans d).result r held) (u.closeWaiting_openEvent ch)
      (by rw [clock]; exact h.parts) (by rw [clock]; exact h.length) (by rw [clock]; exact h.seconds)
  boundary h := h.emitBoundary h.length

/-- Both lie within a second. -/
def WithinSecond (prescaler elapsed : Nat) : Prop := prescaler < 32768 ∧ elapsed < 32768

theorem State.Fresh.timesOk {s : State} (h : s.Fresh) (parts : P s.clock.prescaler s.clock.elapsed) (length : 30 ≤ s.clock.length ∧ s.clock.length ≤ 90)
    (seconds : s.clock.seconds ≤ s.clock.length) : s.TimesOk P := by
  refine ⟨parts, length, seconds, fun ch r held => ?_, fun ch e held => ?_⟩ <;> · rw [h.chans ch] at held; cases held

theorem State.timesOk_paced : Paced (State.TimesOk WithinSecond) where
  toPacedWork := State.timesOk_work
  setTime {s} n second _ short h := by
    have long : second ≤ 60 := by omega
    exact h.under (t := s.setTime n second) (fun ch r held => ((State.SlicesOn.deliver s _).chans ch).result r held) (s.deliver_openEvent _)
      ⟨Nat.succ_pos _, by exact (congrArg Clock.elapsed (s.deliver_clock _)).trans_lt h.parts.2⟩ sixty long
  trimClock {s offset} _ low high h := by
    have trimmed := h.emitBoundary (length := (60 + offset).toNat) (by omega)
    exact ⟨trimmed.parts, trimmed.length, trimmed.seconds, trimmed.lapses, trimmed.events⟩
  resets _ clock fresh h := fresh.timesOk (clock ▸ h.parts) (clock ▸ h.length) (clock ▸ h.seconds)

/-! ### What is settled is ready for a second -/

/-- Nothing of a second is due: the minute has not reached its length, nor a lapse count 600. -/
structure State.Ready (s : State) : Prop where
  minute : s.clock.seconds < s.clock.length
  lapses : ∀ ch r, (s.chan ch).pendingResult = some r → r.lapse < 600

theorem State.LossTreated.ready {s : State} (h : s.LossTreated) : s.settle.Ready := by
  have settled := s.settle_settled h
  simp only [State.settled, Bool.and_eq_true, List.isEmpty_iff] at settled
  obtain ⟨⟨-, empty⟩, -⟩ := settled
  have idle (x : DueStep) : s.settle.isDue x ≠ true := fun due => by
    have member := (s.settle.mem_dueSteps x).mpr due
    rw [empty] at member
    cases member
  refine ⟨?_, fun ch r held => ?_⟩
  · have := idle .boundary
    simpa [State.isDue, Clock.boundaryDue] using this
  · have := idle (.lapse ch)
    simpa [State.isDue, Channel.lapseDue, held] using this

/-- R42, R122: elapsed clock time runs on. -/
theorem State.TimesOk.elapse {Q : Nat → Nat → Prop} {s : State} (h : s.TimesOk P) (ready : s.Ready) (n : Nat)
    (parts : Q s.clock.prescaler (if 32768 ≤ s.clock.elapsed + n then s.clock.elapsed + n - 32768 else s.clock.elapsed + n)) : (s.elapse n).TimesOk Q := by
  obtain ⟨made, chans⟩ := s.elapse_does n
  refine ⟨by rw [made]; exact parts, by rw [made]; exact h.length, by rw [made]; exact h.seconds, fun ch r held => ?_, fun ch e held => ?_⟩
  · rw [chans ch] at held
    split at held
    · rw [Channel.tickLapse_eq] at held
      obtain ⟨q, had, rfl⟩ := Option.map_eq_some_iff.mp held
      exact ready.lapses ch q had
    · exact h.lapses ch r held
  · rw [chans ch] at held
    split at held
    · rw [Channel.tickLapse_eq] at held
      exact h.events ch e held
    · exact h.events ch e held

/-- R42: a second has passed. -/
theorem State.TimesOk.secondElapsed {s : State} (h : s.TimesOk fun p e => p ≤ 32768 ∧ e ≤ p ∨ WithinSecond p e) (ready : s.Ready) :
    s.secondElapsed.TimesOk WithinSecond := by
  have elapsed : (s.elapse (32768 - s.clock.prescaler)).TimesOk fun _ e => e < 32768 := h.elapse ready _ <| by
    have parts := h.parts
    unfold WithinSecond at parts
    split <;> omega
  have clock : s.secondElapsed.clock = { (s.elapse (32768 - s.clock.prescaler)).clock with
      prescaler := 0, seconds := (s.elapse (32768 - s.clock.prescaler)).clock.seconds + 1 } := rfl
  have made := (s.elapse_does (32768 - s.clock.prescaler)).1
  refine ⟨by rw [clock]; exact ⟨Nat.succ_pos _, elapsed.parts⟩, by rw [clock]; exact elapsed.length, ?_, elapsed.lapses, elapsed.events⟩
  rw [clock, made]
  exact ready.minute

/-! ### A crystal period -/

/-- What is known before each step that a crystal period brings about, `l` being those still to come: where the prescaler or elapsed clock time has
counted a whole second, the step for it is one of them. -/
structure State.Counting (l : List CrystalStep) (s : State) : Prop where
  times : s.TimesOk fun p e => WithinSecond p e ∨ (.second ∈ l ∧ p = 32768 ∧ e ≤ 32768) ∨ (.elapsed ∈ l ∧ .second ∉ l ∧ p < 32768 ∧ e = 32768)
  timed : s.TimedBut fun _ => True
  ready : s.Ready

theorem State.TimesOk.mono {Q : Nat → Nat → Prop} {s : State} (h : s.TimesOk P) (more : ∀ p e, P p e → Q p e) : s.TimesOk Q :=
  ⟨more _ _ h.parts, h.length, h.seconds, h.lapses, h.events⟩

theorem State.TimesOk.settle {s : State} (h : s.TimesOk P) : s.settle.TimesOk P := State.timesOk_work.settle h

theorem State.Counting.takeCrystal {x : CrystalStep} {l : List CrystalStep} (fresh : x ∉ l) {s : State} (h : s.Counting (x :: l)) :
    (s.takeCrystal x).Counting l := by
  obtain ⟨times, timed, ready⟩ := h
  have others {t : State} (notSecond : x ≠ .second) (notElapsed : x ≠ .elapsed)
      (kept : t.TimesOk fun p e => WithinSecond p e ∨ (.second ∈ x :: l ∧ p = 32768 ∧ e ≤ 32768) ∨
        (.elapsed ∈ x :: l ∧ .second ∉ x :: l ∧ p < 32768 ∧ e = 32768)) (timed : t.TimedBut fun _ => True) : t.settle.Counting l := by
    refine ⟨(kept.mono fun p e h => ?_).settle, timed.settle, timed.lossTreated.ready⟩
    simpa only [List.mem_cons, notSecond.symm, notElapsed.symm, false_or] using h
  cases x with
  | second =>
    have second : s.secondElapsed.TimesOk WithinSecond := (times.mono fun p e h => by
      rcases h with within | ⟨-, whole, few⟩ | ⟨-, none', -⟩
      · exact .inr within
      · exact .inl ⟨whole.le, few.trans whole.ge⟩
      · exact absurd (List.mem_cons_self ..) none').secondElapsed ready
    exact ⟨second.settle.mono fun _ _ => .inl, timed.secondElapsed.settle, timed.secondElapsed.lossTreated.ready⟩
  | elapsed =>
    refine ⟨State.TimesOk.settle (times.elapse ready 0 ?_), (timed.elapse 0).settle, (timed.elapse 0).lossTreated.ready⟩
    obtain ⟨p, e⟩ | ⟨due, p, e⟩ | ⟨-, -, p, e⟩ := times.parts
    · exact .inl ⟨p, by split <;> omega⟩
    · exact .inr (.inl ⟨by simpa using due, p, by split <;> omega⟩)
    · exact .inl ⟨p, by split <;> omega⟩
  | pause l' => exact others nofun nofun (State.timesOk_work.lineLost l' times) (timed.lineLost l')
  | slice ch => exact others nofun nofun (State.timesOk_work.crystalSliceEnd ch times) ((State.SlicesOn.crystalSliceEnd s ch).timed timed)

theorem State.Counting.foldl : ∀ (l : List CrystalStep), l.Nodup → ∀ s : State, s.Counting l → (l.foldl State.takeCrystal s).Counting []
  | [], _, _, h => h
  | _ :: l, distinct, _, h =>
    State.Counting.foldl l (List.nodup_cons.mp distinct).2 _ (h.takeCrystal (List.nodup_cons.mp distinct).1)

/-- R1, R2, R11, R42: a crystal period keeps the clock within its ranges. -/
theorem State.TimesOk.crystalPeriod {s : State} (h : s.TimesOk WithinSecond) (timed : s.Timed) : s.crystalPeriod.TimesOk WithinSecond := by
  have settled : s.settle.TimesOk WithinSecond := h.settle
  have timed' : s.settle.Timed := State.TimedBut.settle timed
  have ready : s.settle.Ready := (State.TimedBut.lossTreated timed).ready
  delta State.crystalPeriod
  dsimp only
  generalize s.settle = u at settled timed' ready
  have clock : u.countPeriod.clock = { u.clock with prescaler := u.clock.prescaler + 1, elapsed := u.clock.elapsed + 1 } := by
    unfold State.countPeriod
    dsimp only
    split <;> rfl
  have chans (ch : Ch) : (u.countPeriod.chan ch).pendingResult = (u.chan ch).pendingResult ∧
      (u.countPeriod.chan ch).openEvent = (u.chan ch).openEvent := by
    rw [(u.countPeriod_does ch).1]
    unfold State.crystalChannel
    split
    · dsimp only
      split <;> exact ⟨rfl, rfl⟩
    · exact ⟨rfl, rfl⟩
  obtain ⟨perm, uses⟩ := State.arrange_perm u.countPeriod (CrystalStep.list.filter (State.crystalDue u u.countPeriod))
  have distinct : (u.countPeriod.arrange (CrystalStep.list.filter (State.crystalDue u u.countPeriod))).1.Nodup :=
    perm.symm.nodup ((by decide : CrystalStep.list.Nodup).filter _)
  have member (x : CrystalStep) : x ∈ (u.countPeriod.arrange (CrystalStep.list.filter (State.crystalDue u u.countPeriod))).1 ↔
      State.crystalDue u u.countPeriod x = true := by
    rw [perm.mem_iff, List.mem_filter]
    exact ⟨And.right, fun due => ⟨by cases x with
      | second => decide
      | elapsed => decide
      | pause l => cases l <;> decide
      | slice ch => cases ch <;> decide, due⟩⟩
  have counting : u.countPeriod.Counting (u.countPeriod.arrange (CrystalStep.list.filter (State.crystalDue u u.countPeriod))).1 := by
    refine ⟨⟨?_, by rw [clock]; exact settled.length, by rw [clock]; exact settled.seconds, fun ch r held => ?_, fun ch e held => ?_⟩,
      timed'.countPeriod.mono fun _ _ => trivial, ⟨by rw [clock]; exact ready.minute, fun ch r held => ?_⟩⟩
    · have parts := settled.parts
      have second := member .second
      have elapsed := member .elapsed
      simp only [State.crystalDue, clock, Bool.and_eq_true, decide_eq_true_eq] at second elapsed
      rw [clock]
      unfold WithinSecond at parts ⊢
      dsimp only
      rw [second, elapsed]
      omega
    · exact settled.lapses ch r ((chans ch).1 ▸ held)
    · exact settled.events ch e ((chans ch).2 ▸ held)
    · exact ready.lapses ch r ((chans ch).1 ▸ held)
  have arranged : (u.countPeriod.arrange (CrystalStep.list.filter (State.crystalDue u u.countPeriod))).2.Counting
      (u.countPeriod.arrange (CrystalStep.list.filter (State.crystalDue u u.countPeriod))).1 := by
    obtain ⟨⟨parts, length, seconds, lapses, events⟩, timed, ⟨minute, short⟩⟩ := counting
    rw [uses] at *
    exact ⟨⟨parts, length, seconds, lapses, events⟩, timed, ⟨minute, short⟩⟩
  refine (State.Counting.foldl _ distinct _ arranged).times.mono fun p e h => ?_
  simpa using h

/-! ### Every step -/

theorem State.timesOk_powerUp {s : State} (h : s.TimesOk WithinSecond) (lost : Bool) : (s.powerUp lost).TimesOk WithinSecond := by
  obtain ⟨fresh, clock⟩ := s.powerUp_fresh lost
  cases lost with
  | true => exact fresh.timesOk (by rw [clock]; exact ⟨Nat.succ_pos _, Nat.succ_pos _⟩) (by rw [clock]; exact sixty) (by rw [clock]; exact Nat.zero_le _)
  | false => exact fresh.timesOk (by rw [clock]; exact h.parts) (by rw [clock]; exact h.length) (by rw [clock]; exact h.seconds)

/-- Both: what is timed, and the clock. -/
theorem step_timesOk {s t : State} (h : step s = .next t) (timed : s.Timed) (hs : s.TimesOk WithinSecond) : t.TimesOk WithinSecond := by
  cases front : s.pending with
  | nil =>
    simp only [step, front] at h
    injection h with h
    exact h ▸ hs.crystalPeriod timed
  | cons i rest =>
    simp only [step, front] at h
    have rested : State.TimesOk WithinSecond { s with pending := rest } := ⟨hs.parts, hs.length, hs.seconds, hs.lapses, hs.events⟩
    by_cases second : i = .secondTick
    · subst second
      injection h with h
      have lossTreated : State.LossTreated { s with pending := rest } := State.TimedBut.lossTreated timed
      exact h ▸ State.TimesOk.secondElapsed (rested.settle.mono fun _ _ => .inr) lossTreated.ready
    · by_cases power : ∃ lost, i = .powerOn lost
      · obtain ⟨lost, rfl⟩ := power
        injection h with h
        exact h ▸ State.timesOk_powerUp (State.timesOk_paced.settle rested) lost
      · exact exec_paced State.timesOk_paced h second (fun lost e => power ⟨lost, e⟩) rested

theorem State.countersOk_iff (s : State) : s.CountersOk ↔ s.Timed ∧ s.RangesOk ∧ s.TimesOk WithinSecond := by
  rw [s.timed_iff]
  constructor
  · rintro ⟨lines, faulted, slices, minutes, running, blocks, clock, lapses, events⟩
    exact ⟨⟨faulted, slices⟩, ⟨lines, fun ch => ⟨minutes ch, running ch, (blocks ch).1, (blocks ch).2⟩⟩,
      ⟨clock.prescaler, clock.elapsed⟩, clock.length, clock.seconds, lapses, events⟩
  · rintro ⟨⟨faulted, slices⟩, ⟨lines, engines⟩, ⟨parts, length, seconds, lapses, events⟩⟩
    exact ⟨lines, faulted, slices, fun ch => (engines ch).minute, fun ch => (engines ch).running, fun ch => ⟨(engines ch).count, (engines ch).sum⟩,
      ⟨parts.1, parts.2, length, seconds⟩, lapses, events⟩

end

/-- Settles O59: what is timed, the engines and the receivers, the clock, and the accounts and minutes are kept each on its own. -/
theorem countsKept : Obligations.CountsKept := by
  rintro s t ⟨counters, accounts, minutes, settings⟩ h
  obtain ⟨timed, ranges, times⟩ := s.countersOk_iff.mp counters
  have kept : t.MinutesKept := step_minutesKept h {
    settings := (settingsOk_iff s).mp settings
    accounts := fun ch => ⟨accounts.periods ch, accounts.days ch⟩
    minutes := fun running ch => by
      obtain ⟨off, step⟩ := s.minutesOk_iff.mp (minutes running)
      exact ⟨⟨accounts.periods ch, accounts.days ch⟩, step ch, off ch⟩ }
  refine ⟨t.countersOk_iff.mpr ⟨step_timed s t h timed, ?_, step_timesOk h timed times⟩,
    ⟨fun ch => (kept.accounts ch).periods, fun ch => (kept.accounts ch).days⟩, fun running => t.minutesOk_iff.mpr ⟨?_, ?_⟩⟩
  · exact step_keeps (fun _ _ _ effect h => effect.rangesOk h) (fun _ _ h => ⟨h.lines, h.engines⟩) s t h ranges
  · exact fun ch => (kept.minutes running ch).2.2
  · exact fun ch => (kept.minutes running ch).2.1

end Sys2Proof.Machine


/-! What is due, and one crystal period (O3, O4). -/

namespace Sys2Proof.Machine

/-! ### What is due -/

theorem State.settled_iff (s : State) : s.settled = true ↔
    (∀ ch, (s.chan ch).engine.slice.blockCount < 48) ∧ (∀ x, ¬ s.isDue x = true) ∧ (s.store.writing = none → s.store.queue = []) := by
  have blocks : (Ch.list.all fun ch => !(s.chan ch).blockDue) = true ↔ ∀ ch, (s.chan ch).engine.slice.blockCount < 48 := by
    simp only [List.all_eq_true, Bool.not_eq_true', State.blockDue_false]
    exact ⟨fun h ch => h ch (Ch.mem_list ch), fun h ch _ => h ch⟩
  have steps : s.dueSteps.isEmpty = true ↔ ∀ x, ¬ s.isDue x = true := by
    rw [List.isEmpty_iff, List.eq_nil_iff_forall_not_mem]
    simp only [State.mem_dueSteps]
  rw [State.settled, Bool.and_eq_true, Bool.and_eq_true, blocks, steps, Bool.not_eq_true', Store.beginDue_false, and_assoc]

theorem State.endBlocks_idle {s : State} (short : ∀ ch, (s.chan ch).engine.slice.blockCount < 48) : s.endBlocks = s := by
  have stays (l : List Ch) : l.foldl State.blockEnd s = s := by
    induction l with
    | nil => rfl
    | cons ch l ih => rw [List.foldl_cons, State.blockEnd_few (short ch), ih]
  exact stays _

/-- Where nothing is due, doing what is due changes nothing. -/
theorem State.settle_of_settled {s : State} (h : s.settled = true) : s.settle = s := by
  obtain ⟨short, idle, empty⟩ := s.settled_iff.mp h
  have none' : s.dueSteps = [] := List.eq_nil_iff_forall_not_mem.mpr fun x member => idle x ((s.mem_dueSteps x).mp member)
  have begins : s.beginStoreWrite = s := by
    have : s.store.beginWrite = s.store := by
      unfold Store.beginWrite
      split
      · next w rest writing queue =>
        rw [empty writing] at queue
        cases queue
      · rfl
    unfold State.beginStoreWrite
    rw [this]
  unfold State.settle
  dsimp only
  rw [State.endBlocks_idle short, none']
  exact begins

theorem RunsTo.foldl {α : Type} {row : α → Instr} {work : State → α → State} {K : State → Prop}
    (runs : ∀ s a, K s → exec (row a) s = .next (work s a)) (keeps : ∀ s a, K s → K (work s a)) :
    ∀ (l : List α) (s : State), K s → RunsTo (l.map row) s (l.foldl work s)
  | [], _, _ => rfl
  | a :: l, s, h => ⟨_, runs s a h, RunsTo.foldl runs keeps l _ (keeps s a h)⟩

theorem State.foldl_same {α β : Type} {work : State → α → State} {f : State → β} (h : ∀ s a, f (work s a) = f s) :
    ∀ (l : List α) (s : State), f (l.foldl work s) = f s
  | [], _ => rfl
  | a :: l, s => (State.foldl_same h l _).trans (h s a)

theorem State.isDue_endBlocks (s : State) (x : DueStep) : s.endBlocks.isDue x = s.isDue x := by
  have one (t : State) (ch : Ch) : (t.blockEnd ch).isDue x = t.isDue x := by
    unfold State.blockEnd
    split
    · have same (d : Ch) : ((t.setChan ch { t.chan ch with engine := (t.chan ch).engine.blockEnd }).chan d).state = (t.chan d).state ∧
          ((t.setChan ch { t.chan ch with engine := (t.chan ch).engine.blockEnd }).chan d).engine.slice.frames = (t.chan d).engine.slice.frames ∧
          ((t.setChan ch { t.chan ch with engine := (t.chan ch).engine.blockEnd }).chan d).pendingResult = (t.chan d).pendingResult := by
        rw [State.chan_setChan]
        split
        · next same => subst same; exact ⟨rfl, rfl, rfl⟩
        · exact ⟨rfl, rfl, rfl⟩
      cases x with
      | slice d =>
        obtain ⟨state, frames, -⟩ := same d
        rw [Bool.eq_iff_iff]
        simp only [State.isDue, State.sliceDue_iff, state, frames, State.rx_setChan]
        rfl
      | restored l => simp only [State.isDue, State.rx_setChan]; rfl
      | lapse d => simp only [State.isDue, Channel.lapseDue, (same d).2.2]
      | boundary => rfl
    · rfl
  exact State.foldl_same (f := fun t => t.isDue x) one _ s

/-- Settles O4: `settle` is the rows it names, and what is settled it leaves. -/
theorem settledStays : Obligations.SettledStays := by
  intro s due row
  have dueIff (u : State) (x : DueStep) : u.isDue x = true ↔ due u x := by
    cases x with
    | slice ch => exact u.sliceDue_iff ch
    | restored l => simp only [State.isDue, LineRx.restoreDue, Bool.and_eq_true, Bool.not_eq_true', decide_eq_true_eq]; rfl
    | lapse ch => simp only [State.isDue, Channel.lapseDue, Option.any_eq_true, decide_eq_true_eq]; rfl
    | boundary => exact decide_eq_true_iff
  refine ⟨?_, ?_, State.settle_of_settled, s.settle_settled⟩
  · rw [s.settled_iff]
    simp only [dueIff]
  · let b := s.endBlocks
    obtain ⟨perm, -⟩ := State.arrange_perm b b.dueSteps
    have uses := State.arrange_state b b.dueSteps
    have wx : b.wx = s.wx := s.endBlocks_slicesOn.wx
    have noneUsed : b.orderUses = s.orderUses := State.foldl_same (f := State.orderUses) (fun t ch => by unfold State.blockEnd; split <;> rfl) _ s
    refine ⟨(b.arrange b.dueSteps).1, b, (b.arrange b.dueSteps).1.foldl State.takeDue (b.arrange b.dueSteps).2, ?_, fun x => ?_, ?_, ?_, rfl⟩
    · exact perm.nodup_iff.mpr (DueStep.list_nodup.filter _)
    · rw [perm.mem_iff, State.mem_dueSteps, s.isDue_endBlocks, dueIff]
    · exact RunsTo.foldl (K := fun _ => True) (fun _ _ _ => rfl) (fun _ _ _ => trivial) Ch.list s trivial
    · rw [uses, noneUsed]
      refine RunsTo.foldl (K := fun t => t.wx = s.wx) (fun t x same => ?_) (fun t x same => (t.takeDue_does x).1.trans same) _ _ wx
      cases x with
      | slice ch =>
        have end_ := t.frameSliceEndAt_wx ch
        rw [show t.wx = s.wx from same] at end_
        exact congrArg _ end_
      | _ => rfl

/-! ### One crystal period -/

theorem State.countPeriod_frame (s : State) : s.countPeriod = { s with
    clock := { s.clock with prescaler := s.clock.prescaler + 1, elapsed := s.clock.elapsed + 1 }
    line0 := s.countPeriod.line0, line1 := s.countPeriod.line1, channels := s.countPeriod.channels } := by
  unfold State.countPeriod
  dsimp only
  split <;> rfl

theorem State.countPeriod_clock (s : State) :
    s.countPeriod.clock = { s.clock with prescaler := s.clock.prescaler + 1, elapsed := s.clock.elapsed + 1 } := by
  unfold State.countPeriod
  dsimp only
  split <;> rfl

theorem State.countPeriod_rx (s : State) (l : Line) :
    s.countPeriod.rx l = if s.running then { s.rx l with pause := min ((s.rx l).pause + 1) 66 } else s.rx l := by
  obtain ⟨ch, rfl⟩ : ∃ ch : Ch, ch.line = l := by cases l; exacts [⟨.ch0, rfl⟩, ⟨.ch2, rfl⟩]
  exact (s.countPeriod_does ch).2

theorem State.countPeriod_chan (s : State) (ch : Ch) : s.countPeriod.chan ch =
    if s.running ∧ (s.chan ch).state ≠ .off ∧ (s.rx ch.line).present = false then
      { s.chan ch with engine := { (s.chan ch).engine with slice :=
          { (s.chan ch).engine.slice with crystal := (s.chan ch).engine.slice.crystal + 1 } } }
    else s.chan ch := by
  rw [(s.countPeriod_does ch).1]
  unfold State.crystalChannel State.linePresent
  by_cases running : s.running = true <;> simp [running]

/-- R1, R2, R11, R42: what the count of a period brings about. -/
theorem State.crystalDue_second (s : State) : State.crystalDue s s.countPeriod .second = true ↔ 32767 ≤ s.clock.prescaler := by
  have clock : s.countPeriod.clock.prescaler = s.clock.prescaler + 1 := by rw [s.countPeriod_clock]
  simp only [State.crystalDue, clock, decide_eq_true_eq]
  omega

theorem State.crystalDue_elapsed (s : State) :
    State.crystalDue s s.countPeriod .elapsed = true ↔ 32767 ≤ s.clock.elapsed ∧ s.clock.prescaler < 32767 := by
  simp only [State.crystalDue, s.countPeriod_clock, Bool.and_eq_true, decide_eq_true_eq]
  omega

theorem State.crystalDue_pause (s : State) (l : Line) :
    State.crystalDue s s.countPeriod (.pause l) = true ↔ s.running = true ∧ (s.rx l).pause = 65 := by
  simp only [State.crystalDue, s.countPeriod_rx, Bool.and_eq_true, beq_iff_eq]
  by_cases running : s.running = true
  · rw [if_pos running]
    simp only [running, true_and]
    omega
  · rw [if_neg running]
    exact ⟨fun ⟨before, after⟩ => absurd (before.symm.trans after) (by decide), fun ⟨runs, _⟩ => absurd runs running⟩

theorem State.crystalDue_slice (s : State) (ch : Ch) : State.crystalDue s s.countPeriod (.slice ch) = true ↔
    s.running = true ∧ (s.chan ch).state ≠ .off ∧ (s.rx ch.line).present = false ∧ 4095 ≤ (s.chan ch).engine.slice.crystal := by
  have chan := s.countPeriod_chan ch
  have present : (s.countPeriod.rx ch.line).present = (s.rx ch.line).present := by
    rw [s.countPeriod_rx]
    split <;> rfl
  simp only [State.crystalDue, State.linePresent, present, s.countPeriod_running, Bool.and_eq_true, decide_eq_true_eq, bne_iff_ne, Bool.not_eq_true']
  rw [chan]
  split
  · next counts =>
    obtain ⟨running, on, lost⟩ := counts
    simp only [running, lost, and_true, true_and]
    exact ⟨fun ⟨due, on⟩ => ⟨on, by omega⟩, fun ⟨on, due⟩ => ⟨by omega, on⟩⟩
  · next idle =>
    constructor
    · exact fun ⟨⟨⟨running, _⟩, on⟩, lost⟩ => absurd ⟨running, on, lost⟩ idle
    · exact fun ⟨running, on, lost, _⟩ => absurd ⟨running, on, lost⟩ idle

/-- Settles O3: a period is the count and the rows that it makes due. -/
theorem crystalPeriodCounts : Obligations.CrystalPeriodCounts := by
  unfold Obligations.CrystalPeriodCounts
  constructor
  · intro s empty settled counted due
    obtain ⟨perm, -⟩ := State.arrange_perm counted (CrystalStep.list.filter (State.crystalDue s counted))
    have uses := State.arrange_state counted (CrystalStep.list.filter (State.crystalDue s counted))
    have noneUsed : counted.orderUses = s.orderUses := by
      show s.countPeriod.orderUses = _
      rw [s.countPeriod_frame]
    refine ⟨⟨_, perm.nodup_iff.mpr ((by decide : CrystalStep.list.Nodup).filter _), fun x => ?_, ?_⟩, ?_, s.countPeriod_rx, s.countPeriod_chan⟩
    · rw [perm.mem_iff, List.mem_filter]
      cases x with
      | second => exact (and_iff_right (by decide)).trans s.crystalDue_second
      | elapsed => exact (and_iff_right (by decide)).trans s.crystalDue_elapsed
      | pause l => exact (and_iff_right (by cases l <;> decide)).trans (s.crystalDue_pause l)
      | slice ch => exact (and_iff_right (by cases ch <;> decide)).trans (s.crystalDue_slice ch)
    · rw [noneUsed] at uses
      simp only [step, empty]
      rw [← uses, State.crystalPeriod, State.settle_of_settled settled]
      rfl
    · exact s.countPeriod_frame
  · intro v settled
    have still := State.settle_of_settled settled
    refine ⟨⟨_, rfl, ?_⟩, fun whole => ⟨v.elapse 0, ?_, fun ch => ?_, rfl⟩, fun l => ⟨_, rfl, ?_⟩, fun ch => ⟨_, rfl, ?_⟩⟩
    · rw [still]; rfl
    · have made := (v.elapse_does 0).1
      rw [if_pos (by exact whole)] at made
      exact made
    · rw [(v.elapse_does 0).2 ch, if_pos (by exact whole), Channel.tickLapse_eq]
    · rw [still]; rfl
    · rw [still]; rfl

end Sys2Proof.Machine


/-! The entry of a minute: what a port takes of its record, and the accounts (O52). -/

namespace Sys2Proof.Machine

/-! ### What a port takes of a minute record -/

/-- R153: a cause the port has not held yet. -/
def PortState.newCause (x : PortState) (r : MinuteRecord) (k : Cause) : Bool := r.causes.has k && !(x.conditions.get r.ch).has k

theorem PortState.takeCause_frame (x : PortState) (r : MinuteRecord) (k : Cause) :
    x.takeCause r k = { x with notices := (x.takeCause r k).notices, conditions := (x.takeCause r k).conditions } := by
  unfold PortState.takeCause; split <;> rfl

theorem PortState.takeCause_newCause (x : PortState) (r : MinuteRecord) {k j : Cause} (differ : j ≠ k) :
    (x.takeCause r k).newCause r j = x.newCause r j := by
  unfold PortState.newCause
  rw [PortState.takeCause_conditions]
  split
  · rw [Quad.get_set_self]
    cases k <;> cases j <;> first | rfl | exact absurd rfl differ
  · rfl

/-- R153: one cause of a record, at the notices of a port. -/
theorem PortState.takeCause_notice (x : PortState) (r : MinuteRecord) (k : Cause) (j : NoticeKind) : (x.takeCause r k).notice j =
    if j = .condition ∧ x.newCause r k = true then ⟨true, (x.notice .condition).enable, ⟨r.ch, k.code, value32 r.sequence⟩⟩ else x.notice j := by
  unfold PortState.takeCause PortState.newCause
  by_cases fresh : (r.causes.has k && !(x.conditions.get r.ch).has k) = true
  · rw [if_pos fresh, PortState.notice_notify]
    simp only [fresh, and_true]
    rfl
  · rw [if_neg fresh, if_neg fun h => fresh h.2]

/-- The qualifier that the causes not yet held leave, the last in the order of R153; none where there is none. -/
def PortState.lastCause (x : PortState) (r : MinuteRecord) : Option Byte :=
  if x.newCause r .frameLoss then some 4 else if x.newCause r .underrange then some 3
  else if x.newCause r .saturation then some 2 else if x.newCause r .overload then some 1 else none

/-- R153: a record's causes, at the notices of a port. -/
theorem PortState.takeCauses_notice (x : PortState) (r : MinuteRecord) (j : NoticeKind) : (x.takeCauses r).notice j =
    if j = .condition then
      (x.lastCause r).elim (x.notice .condition) fun code => ⟨true, (x.notice .condition).enable, ⟨r.ch, code, value32 r.sequence⟩⟩
    else x.notice j := by
  show ((((x.takeCause r .overload).takeCause r .saturation).takeCause r .underrange).takeCause r .frameLoss).notice j = _
  by_cases kind : j = .condition
  · subst kind
    simp only [PortState.takeCause_notice, PortState.takeCause_newCause _ r (j := .saturation) (k := .overload) (by decide),
      PortState.takeCause_newCause _ r (j := .underrange) (k := .saturation) (by decide),
      PortState.takeCause_newCause _ r (j := .underrange) (k := .overload) (by decide),
      PortState.takeCause_newCause _ r (j := .frameLoss) (k := .underrange) (by decide),
      PortState.takeCause_newCause _ r (j := .frameLoss) (k := .saturation) (by decide),
      PortState.takeCause_newCause _ r (j := .frameLoss) (k := .overload) (by decide), true_and, if_true]
    unfold PortState.lastCause
    cases x.newCause r .frameLoss <;> cases x.newCause r .underrange <;> cases x.newCause r .saturation <;> cases x.newCause r .overload <;> rfl
  · simp only [PortState.takeCause_notice, kind, false_and, if_false]

theorem PortState.takeCauses_frame (x : PortState) (r : MinuteRecord) :
    x.takeCauses r = { x with notices := (x.takeCauses r).notices, conditions := (x.takeCauses r).conditions } := by
  have all : ∀ (l : List Cause) (y : PortState), l.foldl (fun x k => x.takeCause r k) y =
      { y with notices := (l.foldl (fun x k => x.takeCause r k) y).notices, conditions := (l.foldl (fun x k => x.takeCause r k) y).conditions } := by
    intro l
    induction l with
    | nil => intro y; rfl
    | cons k l ih =>
      intro y
      rw [List.foldl_cons, ih (y.takeCause r k), PortState.takeCause_frame y r k]
  exact all Cause.list x

@[simp] theorem PortState.takeCauses_historyCursor (x : PortState) (r : MinuteRecord) : (x.takeCauses r).historyCursor = x.historyCursor := by
  rw [PortState.takeCauses_frame]

/-- R98, R145, R153: what a port takes of a minute record, which is the `n`th to be written. -/
def PortState.takeRecord (x : PortState) (r : MinuteRecord) (n : Nat) : PortState :=
  let y := (x.notify .minute (plainDetail r.ch (value32 r.sequence))).takeCauses r
  if n - x.historyCursor < 1792 ∧ 1792 ≤ n + 1 - x.historyCursor then y.notify .historyLag ⟨.ch0, 0, value32 x.historyCursor⟩ else y

theorem State.lagRaised_port (s : State) (n : Nat) (p q : Port) : (s.lagRaised n p).port q =
    if q = p ∧ n < 1792 ∧ 1792 ≤ s.historyLag p then (s.port q).notify .historyLag ⟨.ch0, 0, value32 (s.port p).historyCursor⟩ else s.port q := by
  unfold State.lagRaised State.notifyLag State.notify
  by_cases raised : n < 1792 ∧ 1792 ≤ s.historyLag p
  · rw [if_pos (by simpa using raised), State.port_setPort]
    by_cases named : q = p
    · subst named; rw [if_pos rfl, if_pos ⟨rfl, raised⟩]
    · rw [if_neg named, if_neg fun h => named h.1]
  · rw [if_neg (by simpa using raised), if_neg fun h => raised h.2]

theorem State.writeMinuteRecord_port (s : State) (r : MinuteRecord) (q : Port) :
    (s.writeMinuteRecord r).port q = (s.port q).takeRecord r s.minuteSeq := by
  delta State.writeMinuteRecord
  extract_lets site compliance ringed told taken
  have port : ∀ p, taken.port p = ((s.port p).notify .minute (plainDetail r.ch (value32 r.sequence))).takeCauses r := by
    intro p; cases p <;> rfl
  have cursor : ∀ p, (taken.port p).historyCursor = (s.port p).historyCursor := fun p => by rw [port, PortState.takeCauses_frame]; rfl
  have lag : ∀ p, taken.historyLag p = s.minuteSeq + 1 - (s.port p).historyCursor := fun p =>
    congrArg (fun n => s.minuteSeq + 1 - n) (cursor p)
  have lag' : ∀ p, (taken.lagRaised site .site).historyLag p = s.minuteSeq + 1 - (s.port p).historyCursor := by
    intro p
    unfold State.historyLag
    rw [State.lagRaised_minuteSeq, State.lagRaised_port]
    split
    · exact lag p
    · exact lag p
  rw [State.lagRaised_port, State.lagRaised_port, lag', lag, State.lagRaised_port]
  unfold PortState.takeRecord
  cases q <;> simp only [reduceCtorEq, false_and, if_false, true_and, port, PortState.takeCauses_historyCursor] <;> rfl

theorem PortState.takeRecord_frame (x : PortState) (r : MinuteRecord) (n : Nat) :
    x.takeRecord r n = { x with notices := (x.takeRecord r n).notices, conditions := (x.takeRecord r n).conditions } := by
  unfold PortState.takeRecord
  dsimp only
  split
  · unfold PortState.notify
    rw [PortState.takeCauses_frame]
  · rw [PortState.takeCauses_frame]; rfl

/-- R98, R145, R153: the notices of a port once a minute record is written. -/
theorem PortState.takeRecord_notice (x : PortState) (r : MinuteRecord) (n : Nat) (j : NoticeKind) : (x.takeRecord r n).notice j =
    if j = .historyLag ∧ n - x.historyCursor < 1792 ∧ 1792 ≤ n + 1 - x.historyCursor then
      ⟨true, (x.notice .historyLag).enable, ⟨.ch0, 0, value32 x.historyCursor⟩⟩
    else if j = .condition then
      (x.lastCause r).elim (x.notice .condition) fun code => ⟨true, (x.notice .condition).enable, ⟨r.ch, code, value32 r.sequence⟩⟩
    else if j = .minute then ⟨true, (x.notice .minute).enable, ⟨r.ch, 0, value32 r.sequence⟩⟩ else x.notice j := by
  have last : (x.notify .minute (plainDetail r.ch (value32 r.sequence))).lastCause r = x.lastCause r := rfl
  unfold PortState.takeRecord
  dsimp only
  by_cases raised : n - x.historyCursor < 1792 ∧ 1792 ≤ n + 1 - x.historyCursor
  · rw [if_pos raised, PortState.notice_notify, PortState.takeCauses_notice, PortState.takeCauses_notice, last]
    simp only [raised, and_true, PortState.notice_notify, reduceCtorEq, if_false]
    rfl
  · rw [if_neg raised, PortState.takeCauses_notice, last]
    simp only [raised, and_false, if_false, PortState.notice_notify, reduceCtorEq]
    rfl

theorem PortState.takeRecord_conditions (x : PortState) (r : MinuteRecord) (n : Nat) :
    (x.takeRecord r n).conditions = x.conditions.set r.ch ((x.conditions.get r.ch).merge r.causes) := by
  have h := PortState.takeCauses_conditions (x.notify .minute (plainDetail r.ch (value32 r.sequence))) r
  unfold PortState.takeRecord
  dsimp only
  split <;> exact h

/-! ### The accounts -/

/-- R96, R97: what a trigger minute makes of the day account, and that it is spent where the source permits works and some allowance is left. -/
theorem settleTrigger_eq (works : Bool) (day : Option Day) (mark : Nat) :
    let left := (day.map fun d => d.allowance - d.spent).getD 0
    let spends := works = true ∧ 0 < left
    (settleTrigger works day mark).1 = (day.map fun d => { d with
      spent := d.spent + (if spends then 1 else 0), breaches := d.breaches + (if ¬ spends then 1 else 0)
      lowGiven := d.lowGiven || decide (spends ∧ left - 1 ≤ mark) }) ∧
    ((settleTrigger works day mark).2.1 = true ↔ spends) := by
  intro left spends
  cases day with
  | none => exact ⟨rfl, by simp [settleTrigger, spends, left]⟩
  | some d =>
    have remains : left = d.allowance - d.spent := rfl
    unfold settleTrigger
    dsimp only [Option.map_some]
    by_cases spent : works = true ∧ d.spent < d.allowance
    · have yes : spends := ⟨spent.1, by omega⟩
      have next : Day.remaining { d with spent := d.spent + 1 } = left - 1 := by
        rw [remains]; exact Nat.sub_add_eq _ _ _
      rw [if_pos (by simpa using spent), next]
      simp only [yes, true_and, not_true_eq_false, if_true, if_false, iff_true]
      by_cases few : left - 1 ≤ mark <;> cases given : d.lowGiven <;> simp [few]
    · have no : ¬ spends := fun h => spent ⟨h.1, by have := h.2; omega⟩
      rw [if_neg (by simpa using spent)]
      simp [no]

/-- R94 to R98: an accountable minute entered into an open period. -/
theorem Channel.enterMinute_rated (c : Channel) (m : Summary) (mark : Nat) (p : Period) (k : Nat) (laeq lafmax lceq : Level)
    (period : c.period = some p) (ending : m.boundary.ending = some k) (accountable : 240 ≤ m.valid)
    (levels : m.laeq = some laeq ∧ m.lafmax = some lafmax ∧ m.lceq = some lceq) :
    let impulsive := p.rules.impulseThreshold ≤ lafmax - laeq
    let lowFreq := p.rules.lowFreqThreshold ≤ lceq - laeq
    let penalty := min ((if impulsive then p.rules.impulsePenalty else 0) + (if lowFreq then p.rules.lowFreqPenalty else 0)) p.rules.cap
    let lr := laeq + penalty
    let trigger := p.rules.trigger ≠ 0 ∧ p.rules.trigger ≤ lr
    let left := (c.day.map fun d => d.allowance - d.spent).getD 0
    let spends := trigger ∧ p.rules.works = true ∧ 0 < left
    let breach := trigger ∧ ¬ (p.rules.works = true ∧ 0 < left)
    let low := spends ∧ left - 1 ≤ mark
    let e := c.enterMinute m mark
    e.chan = { c with
      period := some { p with
        elapsed := p.elapsed + 1, last := some k, accounted := p.accounted + 1
        impulsive := p.impulsive + (if impulsive then 1 else 0), lowFreq := p.lowFreq + (if lowFreq then 1 else 0)
        triggers := p.triggers + (if trigger then 1 else 0), breaches := p.breaches + (if breach then 1 else 0)
        ratedSum := p.ratedSum + energyUnit lr, plainSum := p.plainSum + energyUnit laeq
        greatestLr := some (max (p.greatestLr.getD lr) lr), lafMax := some (max (p.lafMax.getD lafmax) lafmax) }
      day := c.day.map fun d => { d with
        spent := d.spent + (if spends then 1 else 0), breaches := d.breaches + (if breach then 1 else 0)
        lowGiven := d.lowGiven || decide low } } ∧
    e.source = some p.source ∧ e.accountable = true ∧ e.lr = some lr ∧ e.penalty = penalty ∧
    (e.impulsive = true ↔ impulsive) ∧ (e.lowFreq = true ↔ lowFreq) ∧ (e.allowanceSpent = true ↔ spends) ∧ (e.breach = true ↔ breach) := by
  intro impulsive lowFreq penalty lr trigger left spends breach low e
  obtain ⟨laeq', lafmax', lceq'⟩ := levels
  have rated : p.rules.rate laeq lafmax lceq = ⟨decide impulsive, decide lowFreq, penalty, lr⟩ := by
    simp only [Rules.rate, lr, penalty, decide_eq_true_eq]
    rfl
  have raised : ∀ (o : LevelOrVoid) (l : Level), raiseLevel o l = some (max (o.getD l) l) := by
    intro o l; cases o <;> simp [raiseLevel]
  have entry : e = c.enterMinute m mark := rfl
  unfold Channel.enterMinute at entry
  rw [period, ending] at entry
  dsimp only at entry
  rw [if_pos accountable, laeq', lafmax', lceq'] at entry
  dsimp only [Option.getD_some] at entry
  simp only [rated, Period.account, raised, decide_eq_true_eq] at entry
  obtain ⟨day, spent⟩ := settleTrigger_eq p.rules.works c.day mark
  by_cases triggers : trigger
  · have whole : spends ↔ p.rules.works = true ∧ 0 < left := ⟨fun h => h.2, fun h => ⟨triggers, h⟩⟩
    have other : breach ↔ ¬ (p.rules.works = true ∧ 0 < left) := ⟨fun h => h.2, fun h => ⟨triggers, h⟩⟩
    have mark' : low ↔ (p.rules.works = true ∧ 0 < left) ∧ left - 1 ≤ mark := and_congr_left fun _ => whole
    rw [if_pos (show _ from triggers)] at entry
    rw [entry]
    refine ⟨?_, rfl, rfl, rfl, rfl, by simp, by simp, spent.trans whole.symm, ?_⟩
    · rw [day]
      have flags : (if (settleTrigger p.rules.works c.day mark).2.1 = true then 0 else 1) = if breach then 1 else 0 := by
        rw [if_congr spent rfl rfl, if_congr other rfl rfl]; split <;> simp_all
      rw [flags]
      simp only [whole, other, mark', triggers, if_true]
      rfl
    · rw [other, ← spent]; simp
  · have spends' : ¬ spends := fun h => triggers h.1
    have breach' : ¬ breach := fun h => triggers h.1
    have low' : ¬ low := fun h => spends' h.1
    rw [if_neg (show ¬ _ from triggers)] at entry
    rw [entry]
    refine ⟨?_, rfl, rfl, rfl, rfl, by simp, by simp, by simp [spends'], by simp [breach']⟩
    have kept : (c.day.map fun d => { d with
        spent := d.spent + (if spends then 1 else 0), breaches := d.breaches + (if breach then 1 else 0)
        lowGiven := d.lowGiven || decide low }) = c.day := by
      cases c.day with
      | none => rfl
      | some d => simp [spends', breach', low']
    rw [kept, if_neg triggers, if_neg breach']
    rfl

/-! ### The entry -/

/-- R98: the record that the entry of a minute writes. -/
def State.enteredRecord (s : State) (m : Summary) : MinuteRecord :=
  minuteRecord s.minuteSeq m ((s.chan m.ch).enterMinute m s.header.lowMark)

/-- R96, R97: a port told of a breach minute and of a day's low mark. -/
def PortState.told (x : PortState) (breach low : Bool) (ch : Ch) (n : Nat) : PortState :=
  let y := if breach then x.notify .breach ⟨ch, 1, value32 n⟩ else x
  if low then y.notify .allowanceLow ⟨ch, 0, value32 n⟩ else y

theorem PortState.told_frame (x : PortState) (breach low : Bool) (ch : Ch) (n : Nat) :
    x.told breach low ch n = { x with notices := (x.told breach low ch n).notices } := by
  cases breach <;> cases low <;> rfl

theorem PortState.told_notice (x : PortState) (breach low : Bool) (ch : Ch) (n : Nat) (k : NoticeKind) : (x.told breach low ch n).notice k =
    if k = .breach ∧ breach = true then ⟨true, (x.notice .breach).enable, ⟨ch, 1, value32 n⟩⟩
    else if k = .allowanceLow ∧ low = true then ⟨true, (x.notice .allowanceLow).enable, ⟨ch, 0, value32 n⟩⟩ else x.notice k := by
  unfold PortState.told
  by_cases isBreach : k = .breach <;> by_cases isLow : k = .allowanceLow <;> cases breach <;> cases low <;>
    simp_all [PortState.notice_notify]

theorem State.enterMinute_port (s : State) (m : Summary) (q : Port) :
    let e := (s.chan m.ch).enterMinute m s.header.lowMark
    (s.enterMinute m).port q = ((s.port q).told e.breach e.lowNotice m.ch s.minuteSeq).takeRecord (s.enteredRecord m) s.minuteSeq := by
  delta State.enterMinute
  extract_lets e seq r s1 s2 s3
  have notified : ∀ (t : State) (b : Bool) k d, (if b then t.notifyBoth k d else t).port q = if b then (t.port q).notify k d else t.port q := by
    intro t b k d; cases b
    · rfl
    · exact State.port_notifyBoth _ _ _ _
  have number : s3.minuteSeq = s.minuteSeq := by
    dsimp only [s3, s2]; cases e.lowNotice <;> cases e.breach <;> rfl
  rw [State.writeMinuteRecord_port, number]
  dsimp only [s3, s2]
  rw [notified, notified, State.port_setChan]
  rfl

theorem State.enterMinute_frame (s : State) (m : Summary) : s.enterMinute m = { s with
    channels := (s.enterMinute m).channels, minuteRing := (s.enterMinute m).minuteRing, minuteSeq := (s.enterMinute m).minuteSeq
    site := (s.enterMinute m).site, compliance := (s.enterMinute m).compliance } := by
  have lag : ∀ (t : State) n p, t.lagRaised n p = { t with site := (t.lagRaised n p).site, compliance := (t.lagRaised n p).compliance } := by
    intro t n p; unfold State.lagRaised; split
    · cases p <;> rfl
    · rfl
  delta State.enterMinute State.writeMinuteRecord
  extract_lets e seq r s1 s2 s3 _ _ s4 s5 s6
  rw [lag, lag s6]
  dsimp only [s6, s5, s4, s3, s2]
  cases e.lowNotice <;> cases e.breach <;> rfl

theorem State.enterMinute_minuteRing (s : State) (m : Summary) :
    (s.enterMinute m).minuteRing = pushBounded 2048 s.minuteRing (s.enteredRecord m) := by
  delta State.enterMinute
  extract_lets e seq r s1 s2 s3
  rw [State.writeMinuteRecord_minuteRing]
  dsimp only [s3, s2]
  cases e.lowNotice <;> cases e.breach <;> rfl

theorem pushBounded_eq {α : Type} (cap : Nat) (l : List α) (a : α) :
    pushBounded cap l a = (if l.length < cap then l else l.drop 1) ++ [a] := by
  unfold pushBounded; split <;> split <;> first | rfl | omega

/-- R93: the notices that the entry of a minute leaves at a port. -/
theorem State.enterMinute_notices (s : State) (m : Summary) (q : Port) (k : NoticeKind) :
    let e := (s.chan m.ch).enterMinute m s.header.lowMark
    let x := s.port q
    ((s.enterMinute m).port q).notice k =
      if k = .historyLag ∧ s.minuteSeq - x.historyCursor < 1792 ∧ 1792 ≤ s.minuteSeq + 1 - x.historyCursor then
        ⟨true, (x.notice .historyLag).enable, ⟨.ch0, 0, value32 x.historyCursor⟩⟩
      else if k = .condition then (x.lastCause (s.enteredRecord m)).elim (x.notice .condition) fun code =>
        ⟨true, (x.notice .condition).enable, ⟨m.ch, code, value32 s.minuteSeq⟩⟩
      else if k = .minute then ⟨true, (x.notice .minute).enable, ⟨m.ch, 0, value32 s.minuteSeq⟩⟩
      else if k = .breach ∧ e.breach = true then ⟨true, (x.notice .breach).enable, ⟨m.ch, 1, value32 s.minuteSeq⟩⟩
      else if k = .allowanceLow ∧ e.lowNotice = true then ⟨true, (x.notice .allowanceLow).enable, ⟨m.ch, 0, value32 s.minuteSeq⟩⟩
      else x.notice k := by
  intro e x
  have told := PortState.told_frame x e.breach e.lowNotice m.ch s.minuteSeq
  have cursor : (x.told e.breach e.lowNotice m.ch s.minuteSeq).historyCursor = x.historyCursor := by rw [told]
  have cause : (x.told e.breach e.lowNotice m.ch s.minuteSeq).lastCause (s.enteredRecord m) = x.lastCause (s.enteredRecord m) := by rw [told]; rfl
  rw [State.enterMinute_port, PortState.takeRecord_notice, cursor, cause]
  simp only [PortState.told_notice, reduceCtorEq, false_and, if_false]
  rfl

/-- R93: of a port the entry of a minute changes notices and condition flags. -/
theorem State.enterMinute_port_frame (s : State) (m : Summary) (q : Port) : (s.enterMinute m).port q =
    { s.port q with notices := ((s.enterMinute m).port q).notices, conditions := ((s.enterMinute m).port q).conditions } :=
  (State.SameFrame.enterMinute s m).ports q

theorem State.enterMinute_conditions (s : State) (m : Summary) (q : Port) :
    ((s.enterMinute m).port q).conditions = (s.port q).conditions.set m.ch (((s.port q).conditions.get m.ch).merge m.causes) := by
  rw [State.enterMinute_port, PortState.takeRecord_conditions, PortState.told_frame]
  rfl

/-- R153: whether a record leaves a qualifier, and which. -/
theorem State.enteredRecord_lastCause (s : State) (m : Summary) (q : Port) (x : Notice) (f : Byte → Notice) :
    let old := (s.port q).conditions.get m.ch
    let new : Causes := ⟨m.causes.overload && !old.overload, m.causes.saturation && !old.saturation,
      m.causes.underrange && !old.underrange, m.causes.frameLoss && !old.frameLoss⟩
    ((s.port q).lastCause (s.enteredRecord m)).elim x f = if new = ⟨false, false, false, false⟩ then x else
      f (if new.frameLoss then 4 else if new.underrange then 3 else if new.saturation then 2 else 1) := by
  intro old new
  have last : (s.port q).lastCause (s.enteredRecord m) = if new.frameLoss then some 4 else if new.underrange then some 3
      else if new.saturation then some 2 else if new.overload then some 1 else none := rfl
  rw [last]
  rcases new with ⟨_ | _, _ | _, _ | _, _ | _⟩ <;> rfl

/-- R98: the record of a minute that is not entered has no source, no rating and no marks. -/
theorem State.enterMinute_unentered {s : State} {m : Summary} (out : (s.chan m.ch).period = none ∨ m.boundary.ending = none) :
    (s.enterMinute m).chan m.ch = s.chan m.ch ∧ s.enteredRecord m = minuteRecord s.minuteSeq m
      ⟨s.chan m.ch, none, false, false, 0, none, false, false, false, false⟩ ∧
    ∀ q k, k = .breach ∨ k = .allowanceLow → ((s.enterMinute m).port q).notice k = (s.port q).notice k := by
  have entry := Channel.enterMinute_not_entered s m out
  refine ⟨by rw [(s.chan_enterMinute m).1, entry], congrArg _ entry, ?_⟩
  rintro q k (rfl | rfl)
  · exact (State.enterMinute_notice s m q).1 (by rw [entry])
  · exact (State.enterMinute_notice s m q).2 (by rw [entry])

/-- R94: a minute of fewer than 240 VALID slices counts as elapsed and no more. -/
theorem Channel.enterMinute_short (c : Channel) (m : Summary) (mark : Nat) (p : Period) (k : Nat)
    (period : c.period = some p) (ending : m.boundary.ending = some k) (few : m.valid < 240) :
    c.enterMinute m mark = ⟨{ c with period := some { p with elapsed := p.elapsed + 1, last := some k } }, some p.source, false, false, 0,
      none, false, false, false, false⟩ := by
  unfold Channel.enterMinute
  rw [period, ending]
  dsimp only
  rw [if_neg (by omega)]

theorem Channel.enterMinute_source (c : Channel) (m : Summary) (mark : Nat) (p : Period) (k : Nat)
    (period : c.period = some p) (ending : m.boundary.ending = some k) : (c.enterMinute m mark).source = some p.source := by
  unfold Channel.enterMinute
  rw [period, ending]
  dsimp only
  split
  · split <;> rfl
  · rfl

/-- Settles O52: a port takes the record of a minute as `enterMinute_notices` has it, and the accounts take the minute as the rating
of `enterMinute_rated` has it. -/
theorem minutesEntered : Obligations.MinutesEntered := by
  intro s m
  have frame := State.SameFrame.enterMinute s m
  have ring : (s.enterMinute m).minuteRing.getLast? = some (s.enteredRecord m) := State.enterMinute_newest s m
  refine ⟨(s.chan_enterMinute m).2, s.enterMinute_minuteSeq m, s.enterMinute_frame m, fun q => ⟨frame.ports q, (frame.raised q).enable, ?_⟩,
    ⟨s.enteredRecord m, ?_, rfl, rfl, rfl, rfl, rfl, ?_⟩, fun q => ⟨?_, ?_, fun ch => ?_, ?_, ?_⟩, fun p k period ending => ?_⟩
  · intro k h1 h2 h3 h4 h5
    rw [State.enterMinute_notices, if_neg (fun h => h3 h.1), if_neg h2, if_neg h1, if_neg (fun h => h4 h.1), if_neg (fun h => h5 h.1)]
  · rw [State.enterMinute_minuteRing, pushBounded_eq]
  · intro out
    obtain ⟨chan, record, stays⟩ := State.enterMinute_unentered out
    rw [record]
    exact ⟨chan, rfl, rfl, rfl, rfl, rfl, rfl, rfl, rfl, fun q => stays q _ (.inl rfl), fun q => stays q _ (.inr rfl)⟩
  · rw [State.enterMinute_notices]; rfl
  · rw [State.enterMinute_notices]; rfl
  · rw [State.enterMinute_conditions, Quad.get_set]; rfl
  · rw [State.enterMinute_notices, if_neg (fun h => by cases h.1), if_pos rfl, State.enteredRecord_lastCause]; rfl
  · rw [State.enterMinute_notices]; simp only [true_and, reduceCtorEq, false_and, if_false]; rfl
  · refine ⟨_, ring, ?_, fun few => ?_, fun laeq lafmax lceq accountable h1 h2 h3 => ?_⟩
    · exact Channel.enterMinute_source _ m s.header.lowMark p k period ending
    · have entry := Channel.enterMinute_short (s.chan m.ch) m s.header.lowMark p k period ending few
      have record : s.enteredRecord m = minuteRecord s.minuteSeq m _ := congrArg (minuteRecord s.minuteSeq m) entry
      obtain ⟨breach, low⟩ := And.intro (fun q => (State.enterMinute_notice s m q).1) fun q => (State.enterMinute_notice s m q).2
      refine ⟨by rw [(s.chan_enterMinute m).1, entry], ?_⟩
      rw [record]
      exact ⟨rfl, rfl, rfl, rfl, rfl, rfl, rfl, fun q => breach q (by rw [entry]),
        fun q => low q (by rw [entry])⟩
    · obtain ⟨chan, -, isAccountable, lr, penalty, impulsive, lowFreq, spent, breach⟩ :=
        Channel.enterMinute_rated (s.chan m.ch) m s.header.lowMark p k laeq lafmax lceq period ending accountable ⟨h1, h2, h3⟩
      obtain ⟨-, low⟩ := Channel.enterMinute_marks s m p k laeq lafmax lceq period ending accountable h1 h2 h3
      refine ⟨(s.chan_enterMinute m).1.trans chan, isAccountable, lr, penalty, impulsive, lowFreq, spent, breach, fun h q => ?_,
        fun h q => ?_, fun h given q => ?_, fun h q => ?_⟩
      · rw [State.enterMinute_notices]
        simp only [reduceCtorEq, false_and, if_false, true_and, breach.2 h, if_true]
        exact rfl
      · exact (State.enterMinute_notice s m q).1 (Bool.eq_false_iff.2 fun e => h (breach.1 e))
      · rw [State.enterMinute_notices]
        simp only [reduceCtorEq, false_and, if_false, true_and, low.2 ⟨h, given⟩, if_true]
        exact rfl
      · exact (State.enterMinute_notice s m q).2 (Bool.eq_false_iff.2 fun e => h (low.1 e))

end Sys2Proof.Machine


/-! One minute ahead: what a closing period leaves, and the day and the period that open (O53). -/

namespace Sys2Proof.Machine

/-! ### A period closes -/

theorem State.closeIfDue_stays {s : State} {ch : Ch} {set : Bool} {n : Nat}
    (goes : ∀ p, (s.chan ch).period = some p → s.closeCause ch set n p = none) : s.closeIfDue ch set n = s := by
  unfold State.closeIfDue
  split
  · rfl
  · next p held => rw [goes p held]

theorem State.closeIfDue_closes {s : State} {ch : Ch} {set : Bool} {n : Nat} {p : Period} {c : CloseCause}
    (held : (s.chan ch).period = some p) (cause : s.closeCause ch set n p = some c) : s.closeIfDue ch set n = s.closePeriod ch p c := by
  unfold State.closeIfDue
  rw [held]
  dsimp only
  rw [cause]

theorem State.closeIfDue_cases (s : State) (ch : Ch) (set : Bool) (n : Nat) : s.closeIfDue ch set n = s ∨
    ∃ p c, (s.chan ch).period = some p ∧ s.closeCause ch set n p = some c ∧ s.closeIfDue ch set n = s.closePeriod ch p c := by
  cases held : (s.chan ch).period with
  | none => exact .inl (State.closeIfDue_stays fun p h => by rw [held] at h; cases h)
  | some p =>
    cases cause : s.closeCause ch set n p with
    | none => exact .inl (State.closeIfDue_stays fun q h => by rw [held] at h; injection h with h; exact h ▸ cause)
    | some c => exact .inr ⟨p, c, rfl, cause, State.closeIfDue_closes held cause⟩

theorem State.closePeriod_frame (s : State) (ch : Ch) (p : Period) (c : CloseCause) : s.closePeriod ch p c = { s with
    channels := (s.setChan ch { s.chan ch with period := none }).channels
    periodList := pushBounded 96 s.periodList (periodRecord s.periodSeq ch p c s.header.coverage), periodSeq := s.periodSeq + 1
    site := (s.closePeriod ch p c).site, compliance := (s.closePeriod ch p c).compliance } := by
  unfold State.closePeriod
  dsimp only
  split <;> rfl

/-- R100: the notices that a closing period leaves at a port. -/
theorem State.closePeriod_port (s : State) (ch : Ch) (p : Period) (c : CloseCause) (q : Port) : (s.closePeriod ch p c).port q =
    let x := (s.port q).notify .period ⟨ch, 0, value32 s.periodSeq⟩
    if p.verdict s.header.coverage = .breach then x.notify .breach ⟨ch, 2, value32 s.periodSeq⟩ else x := by
  unfold State.closePeriod
  dsimp only
  have verdict : (periodRecord s.periodSeq ch p c s.header.coverage).verdict = p.verdict s.header.coverage := rfl
  rw [verdict]
  split <;> cases q <;> rfl

theorem State.closePeriod_notice (s : State) (ch : Ch) (p : Period) (c : CloseCause) (q : Port) (k : NoticeKind) :
    ((s.closePeriod ch p c).port q).notice k =
      if k = .breach ∧ p.verdict s.header.coverage = .breach then ⟨true, ((s.port q).notice .breach).enable, ⟨ch, 2, value32 s.periodSeq⟩⟩
      else if k = .period then ⟨true, ((s.port q).notice .period).enable, ⟨ch, 0, value32 s.periodSeq⟩⟩ else (s.port q).notice k := by
  rw [State.closePeriod_port]
  by_cases breach : p.verdict s.header.coverage = .breach
  · dsimp only
    rw [if_pos breach]
    simp only [PortState.notice_notify, breach, and_true, reduceCtorEq, if_false]
  · dsimp only
    rw [if_neg breach]
    simp only [PortState.notice_notify, breach, and_false, if_false]

/-! ### The look ahead -/

/-- R101: the state once the day account stands for minute `n`. -/
def State.dayTurned (s : State) (ch : Ch) (set : Bool) (n : Nat) : State :=
  if s.dayOpens ch set n then (s.closeIfDue ch set n).openDay ch n else s.closeIfDue ch set n

theorem State.lookAhead_eq (s : State) (ch : Ch) (set : Bool) (n : Nat) : s.lookAhead ch set n =
    if ((s.dayTurned ch set n).chan ch).period.isNone then (s.dayTurned ch set n).openPeriod ch n else s.dayTurned ch set n := rfl

/-- R99 to R102: beside the close of the period, the look ahead changes its channel alone. -/
theorem State.lookAhead_frame (s : State) (ch : Ch) (set : Bool) (n : Nat) :
    s.lookAhead ch set n = { s.closeIfDue ch set n with channels := (s.lookAhead ch set n).channels } := by
  have day : s.dayTurned ch set n = { s.closeIfDue ch set n with channels := (s.dayTurned ch set n).channels } := by
    unfold State.dayTurned; split <;> rfl
  rw [State.lookAhead_eq]
  split
  · rw [State.openPeriod, day]; rfl
  · exact day

theorem State.lookAhead_port (s : State) (ch : Ch) (set : Bool) (n : Nat) (q : Port) :
    (s.lookAhead ch set n).port q = (s.closeIfDue ch set n).port q := by
  rw [State.lookAhead_frame]; cases q <;> rfl

/-! ### The period that opens -/

theorem State.sourceOf_congr {s t : State} (slots : t.slots = s.slots) (entries : t.entries = s.entries) (ch : Ch) (n : Nat) :
    t.sourceOf ch n = s.sourceOf ch n :=
  State.SourceKept.sourceOf ⟨entries, fun i => by rw [slots], fun i => by rw [slots]⟩

theorem State.plannedAfter_congr {s t : State} (slots : t.slots = s.slots) (entries : t.entries = s.entries) (header : t.header = s.header)
    (ch : Ch) (source : Source) : ∀ fuel n, t.plannedAfter ch source fuel n = s.plannedAfter ch source fuel n
  | 0, _ => rfl
  | fuel + 1, n => by
    rw [State.plannedAfter, State.plannedAfter, State.plannedAfter_congr slots entries header ch source fuel, header,
      State.sourceOf_congr slots entries]

/-- R99 to R102: of its channel the look ahead changes the period and the day account. -/
theorem State.lookAhead_channel (s : State) (ch : Ch) (set : Bool) (n : Nat) : (s.lookAhead ch set n).chan ch =
    { s.chan ch with period := ((s.lookAhead ch set n).chan ch).period, day := ((s.lookAhead ch set n).chan ch).day } := by
  have closed : ((s.closeIfDue ch set n).chan ch).quiet = (s.chan ch).quiet := by
    obtain is | ⟨p, c, -, -, is⟩ := s.closeIfDue_cases ch set n
    · rw [is]
    · rw [is, (s.chan_closePeriod ch p c).1]
  have day : ((s.dayTurned ch set n).chan ch).quiet = (s.chan ch).quiet := by
    unfold State.dayTurned
    split
    · rw [State.openDay, State.chan_setChan_self]; exact closed
    · exact closed
  have all : ((s.lookAhead ch set n).chan ch).quiet = (s.chan ch).quiet := by
    rw [State.lookAhead_eq]
    split
    · rw [State.openPeriod, State.chan_setChan_self]; exact day
    · exact day
  have others := s.accounted_lookAhead ch set n
  unfold Channel.Accounted at others
  rw [all] at others
  exact others

/-- R100: of a port the look ahead changes PERIOD and BREACH. -/
theorem State.lookAhead_notice (s : State) (ch : Ch) (set : Bool) (n : Nat) (q : Port) {k : NoticeKind} (period : k ≠ .period) (breach : k ≠ .breach) :
    ((s.lookAhead ch set n).port q).notice k = (s.port q).notice k := by
  rw [State.lookAhead_port]
  obtain is | ⟨p, c, -, -, is⟩ := s.closeIfDue_cases ch set n
  · rw [is]
  · rw [is, State.closePeriod_notice, if_neg fun h => breach h.1, if_neg period]

theorem State.lookAhead_port_frame (s : State) (ch : Ch) (set : Bool) (n : Nat) (q : Port) :
    (s.lookAhead ch set n).port q = { s.port q with notices := ((s.lookAhead ch set n).port q).notices } := by
  rw [State.lookAhead_port]
  obtain is | ⟨p, c, -, -, is⟩ := s.closeIfDue_cases ch set n
  · rw [is]
  · rw [is, State.closePeriod_port]
    dsimp only
    split <;> rfl

/-- R102: the settings alone decide the period that opens. -/
theorem State.newPeriod_congr {s t : State} (slots : t.slots = s.slots) (entries : t.entries = s.entries) (header : t.header = s.header)
    (ch : Ch) (n : Nat) : t.newPeriod ch n = s.newPeriod ch n := by
  have source := State.sourceOf_congr slots entries ch n
  have planned : t.planned ch n = s.planned ch n := by
    rw [State.planned, State.planned, source, State.plannedAfter_congr slots entries header]
  have rules : ∀ x, t.rulesOf ch n x = s.rulesOf ch n x := by
    intro x
    cases x <;> simp only [State.rulesOf, State.entryFor, slots, entries]
  have reason : ∀ x, t.reasonOf x = s.reasonOf x := by
    intro x
    cases x <;> simp only [State.reasonOf, slots]
  simp only [State.newPeriod, source, planned, rules, reason]

/-- R103: the plan goes on while the source does, within the account day. -/
theorem State.plannedAfter_spec (s : State) (ch : Ch) (source : Source) : ∀ fuel n, s.plannedAfter ch source fuel n ≤ fuel ∧
    (∀ j, 0 < j → j ≤ s.plannedAfter ch source fuel n → s.sourceOf ch (n + j) = source ∧ (n + j) % 1440 ≠ s.header.dayStart) ∧
    (s.plannedAfter ch source fuel n < fuel → s.sourceOf ch (n + (s.plannedAfter ch source fuel n + 1)) ≠ source ∨
      (n + (s.plannedAfter ch source fuel n + 1)) % 1440 = s.header.dayStart)
  | 0, n => ⟨Nat.le_refl _, fun j low high => absurd high (Nat.not_le.2 low), fun h => absurd h (Nat.lt_irrefl _)⟩
  | fuel + 1, n => by
    obtain ⟨within, goes, stops⟩ := s.plannedAfter_spec ch source fuel (n + 1)
    rw [State.plannedAfter]
    split
    · next ends =>
      refine ⟨Nat.zero_le _, fun j low high => absurd high (Nat.not_le.2 low), fun _ => ?_⟩
      exact ends.symm
    · next goesOn =>
      obtain ⟨early, same⟩ := not_or.mp goesOn
      refine ⟨Nat.succ_le_succ within, fun j low high => ?_, fun short => ?_⟩
      · rcases Nat.lt_or_ge 1 j with later | first
        · have := goes (j - 1) (by omega) (by omega)
          rwa [show n + 1 + (j - 1) = n + j by omega] at this
        · rw [show j = 1 by omega]
          exact ⟨not_not.mp same, early⟩
      · have := stops (Nat.lt_of_succ_lt_succ short)
        rwa [show n + 1 + (s.plannedAfter ch source fuel (n + 1) + 1) = n + (s.plannedAfter ch source fuel (n + 1) + 1 + 1) by omega] at this

/-- R103: the planned minutes of a period. -/
theorem State.planned_spec (s : State) (ch : Ch) (n : Nat) : 1 ≤ s.planned ch n ∧ s.planned ch n ≤ 1440 ∧
    (∀ j, 0 < j → j < s.planned ch n → s.sourceOf ch (n + j) = s.sourceOf ch n ∧ (n + j) % 1440 ≠ s.header.dayStart) ∧
    (s.planned ch n < 1440 → s.sourceOf ch (n + s.planned ch n) ≠ s.sourceOf ch n ∨ (n + s.planned ch n) % 1440 = s.header.dayStart) := by
  obtain ⟨within, goes, stops⟩ := s.plannedAfter_spec ch (s.sourceOf ch n) 1439 n
  unfold State.planned
  exact ⟨Nat.succ_le_succ (Nat.zero_le _), Nat.succ_le_succ within, fun j low high => goes j low (Nat.le_of_lt_succ high),
    fun short => stops (Nat.lt_of_succ_lt_succ short)⟩

/-! ### The day account -/

/-- R101: the day start of a minute is the one day start within a day before it. -/
theorem dayStartOf_iff {start : Nat} (range : start ≤ 1439) (n x : Nat) :
    (x ≤ n ∧ n < x + 1440 ∧ (x % 1440 = start ∨ (x = 0 ∧ n < start))) ↔ x = dayStartOf start n := by
  unfold dayStartOf minuteOfDay
  split
  · omega
  · split <;> omega

theorem State.dayTurned_chan (s : State) (ch : Ch) (set : Bool) (n : Nat) : ((s.dayTurned ch set n).chan ch).period =
      ((s.closeIfDue ch set n).chan ch).period ∧ ((s.dayTurned ch set n).chan ch).day =
      (if s.dayOpens ch set n then some ⟨dayStartOf s.header.dayStart n, s.header.allowance, 0, 0, false⟩ else (s.chan ch).day) := by
  have header : (s.closeIfDue ch set n).header = s.header := (State.SameFrame.closeIfDue s ch set n).header
  unfold State.dayTurned
  split
  · rw [State.openDay, State.chan_setChan_self, header]
    exact ⟨rfl, rfl⟩
  · exact ⟨rfl, (s.closeIfDue_chan ch set n).1⟩

theorem State.dayTurned_settings (s : State) (ch : Ch) (set : Bool) (n : Nat) : (s.dayTurned ch set n).slots = s.slots ∧
    (s.dayTurned ch set n).entries = s.entries ∧ (s.dayTurned ch set n).header = s.header := by
  have frame := State.SameFrame.closeIfDue s ch set n
  unfold State.dayTurned
  split <;> exact ⟨frame.slots, frame.entries, frame.header⟩

/-- R60, R102: what the period of an entry takes from it. -/
theorem State.newPeriod_entry {s : State} {ch : Ch} {n : Nat} {i : Fin 16} (source : s.sourceOf ch n = .entry i) :
    (s.newPeriod ch n).reason = 0 ∧ (s.newPeriod ch n).rules = s.entries[i].rules := by
  unfold State.newPeriod
  dsimp only
  rw [source]
  exact ⟨rfl, rfl⟩

/-- R60, R102: what the period of a dispensation takes from its slot and the entry under it. -/
theorem State.newPeriod_dispensation {s : State} {ch : Ch} {n : Nat} {i : Fin 8} {x : Serial} (source : s.sourceOf ch n = .dispensation i x) :
    x = s.slots[i].serial ∧ (s.newPeriod ch n).reason = s.slots[i].reason ∧ (s.newPeriod ch n).rules =
      { s.entries[s.entryFor ch n].rules with limit := s.slots[i].limit, trigger := s.slots[i].trigger, works := s.slots[i].works } := by
  have serial : x = s.slots[i].serial := by
    unfold State.sourceOf at source
    split at source
    · injection source with slot serial
      rw [← slot, serial]
    · cases source
  unfold State.newPeriod
  dsimp only
  rw [source]
  exact ⟨serial, rfl, rfl⟩

/-- R102: where no period is open after the close, the period of minute `n` is. -/
theorem State.lookAhead_period (s : State) (ch : Ch) (set : Bool) (n : Nat) : ((s.lookAhead ch set n).chan ch).period =
    some (((s.closeIfDue ch set n).chan ch).period.getD (s.newPeriod ch n)) := by
  obtain ⟨slots, entries, header⟩ := s.dayTurned_settings ch set n
  have period := (s.dayTurned_chan ch set n).1
  rw [State.lookAhead_eq, ← period]
  split
  · next absent =>
    rw [State.openPeriod, State.chan_setChan_self, Option.isNone_iff_eq_none.1 absent, State.newPeriod_congr slots entries header]
    rfl
  · next held =>
    obtain ⟨p, found⟩ := Option.ne_none_iff_exists'.1 fun absent => held (Option.isNone_iff_eq_none.2 absent)
    rw [found]
    rfl

/-- R99: the day of minute `n` ends the open day account. -/
def State.dayEnds (s : State) (ch : Ch) (n : Nat) : Prop :=
  n % 1440 = s.header.dayStart ∨ ∃ d, (s.chan ch).day = some d ∧ d.start + 1440 ≤ n

theorem State.dayEnds_iff (s : State) (ch : Ch) (n : Nat) :
    (minuteOfDay n = s.header.dayStart ∨ pastDay (s.chan ch).day n = true) ↔ s.dayEnds ch n := by
  have past : pastDay (s.chan ch).day n = true ↔ ∃ d, (s.chan ch).day = some d ∧ d.start + 1440 ≤ n := by
    unfold pastDay
    cases (s.chan ch).day <;> simp
  exact or_congr_right past

/-- R99: the cause of a close, in its order. -/
theorem State.closeCause_cases (s : State) (ch : Ch) (set : Bool) (n : Nat) (p : Period) :
    (¬ (set = true ∨ s.dayEnds ch n ∨ s.sourceOf ch n ≠ p.source) → s.closeCause ch set n p = none) ∧
    (set = true ∨ s.dayEnds ch n ∨ s.sourceOf ch n ≠ p.source → ∃ c, s.closeCause ch set n p = some c ∧
      (set = true → c = .timeSet) ∧ (set = false → s.dayEnds ch n → c = .day) ∧ (set = false → ¬ s.dayEnds ch n → c = .source)) := by
  have ends := s.dayEnds_iff ch n
  unfold State.closeCause
  by_cases given : set = true
  · rw [if_pos given]
    exact ⟨fun h => absurd (.inl given) h, fun _ => ⟨_, rfl, fun _ => rfl, fun h => absurd (h ▸ given) Bool.false_ne_true,
      fun h => absurd (h ▸ given) Bool.false_ne_true⟩⟩
  · rw [if_neg given]
    by_cases day : s.dayEnds ch n
    · rw [if_pos (ends.2 day)]
      exact ⟨fun h => absurd (.inr (.inl day)) h, fun _ => ⟨_, rfl, fun h => absurd h given, fun _ _ => rfl, fun _ h => absurd day h⟩⟩
    · rw [if_neg fun h => day (ends.1 h)]
      by_cases source : s.sourceOf ch n ≠ p.source
      · rw [if_pos source]
        exact ⟨fun h => absurd (.inr (.inr source)) h, fun _ => ⟨_, rfl, fun h => absurd h given, fun _ h => absurd h day, fun _ _ => rfl⟩⟩
      · rw [if_neg source]
        exact ⟨fun _ => rfl, fun h => by rcases h with h | h | h <;> contradiction⟩

/-- R101: when a day account opens. -/
theorem State.dayOpens_cases {s : State} {ch : Ch} {set : Bool} {n : Nat} {x : Nat} (start : x = dayStartOf s.header.dayStart n) :
    (∀ d, (s.chan ch).day = some d → (set = true → d.start = x) → (set = false → ¬ s.dayEnds ch n) → s.dayOpens ch set n = false) ∧
    ((∀ d, (s.chan ch).day = some d → if set then d.start ≠ x else s.dayEnds ch n) → s.dayOpens ch set n = true) := by
  have ends : ∀ d, (s.chan ch).day = some d →
      ((minuteOfDay n == s.header.dayStart || decide (d.start + 1440 ≤ n)) = true ↔ s.dayEnds ch n) := by
    intro d held
    rw [State.dayEnds, held]
    simp [minuteOfDay]
  unfold State.dayOpens
  constructor
  · intro d held at_ within
    rw [held]
    cases set with
    | false => exact Bool.eq_false_iff.2 fun h => within rfl ((ends d held).1 h)
    | true => simp [at_ rfl, start]
  · intro opens
    cases held : (s.chan ch).day with
    | none => rfl
    | some d =>
      have := opens d held
      cases set with
      | false => exact (ends d held).2 (by simpa using this)
      | true => exact bne_iff_ne.2 fun same => this (by rw [start, same])

/-- Settles O53: the period closes by the causes of `closeCause_cases`, the day opens as `dayOpens_cases` has it, and the period that opens is that of
`newPeriod`. -/
theorem periodsTurn : Obligations.PeriodsTurn := by
  intro s ch set n range
  have frame := State.SameFrame.lookAhead s ch set n
  have stays {p : Period} (held : (s.chan ch).period = some p) (goes : ¬ (set = true ∨ s.dayEnds ch n ∨ s.sourceOf ch n ≠ p.source)) :
      s.closeIfDue ch set n = s := State.closeIfDue_stays fun x same => by
    rw [held] at same; injection same with same
    exact same ▸ (s.closeCause_cases ch set n p).1 goes
  have same {u : State} (is : s.closeIfDue ch set n = u) : (s.lookAhead ch set n).periodSeq = u.periodSeq ∧
      (s.lookAhead ch set n).periodList = u.periodList ∧ (s.lookAhead ch set n).site = u.site ∧ (s.lookAhead ch set n).compliance = u.compliance := by
    rw [State.lookAhead_frame, is]; exact ⟨rfl, rfl, rfl, rfl⟩
  have start := dayStartOf_iff range n
  refine ⟨fun d hd => s.chan_lookAhead_ne hd set n, ?_, ?_, fun q => ⟨?_, (frame.raised q).enable, fun k h1 h2 => ?_⟩,
    fun absent => same (State.closeIfDue_stays fun p held => by rw [absent] at held; cases held), fun p held goes => ⟨?_, same (stays held goes)⟩,
    fun p held closes => ?_, fun d held given within => ?_, fun x isStart opens => ?_, fun closes => ?_⟩
  · exact s.lookAhead_channel ch set n
  · rw [State.lookAhead_frame]
    obtain is | ⟨p, c, -, -, is⟩ := s.closeIfDue_cases ch set n
    · rw [is]
    · rw [is, State.closePeriod_frame]
  · exact s.lookAhead_port_frame ch set n q
  · exact s.lookAhead_notice ch set n q h1 h2
  · rw [State.lookAhead_period, stays held goes, held]; rfl
  · obtain ⟨c, cause, order⟩ := (s.closeCause_cases ch set n p).2 closes
    have is := State.closeIfDue_closes held cause
    obtain ⟨seq, list, -, -⟩ := same is
    rw [State.closePeriod_frame] at seq list
    have notice (q : Port) (k : NoticeKind) : ((s.lookAhead ch set n).port q).notice k = ((s.closePeriod ch p c).port q).notice k := by
      rw [State.lookAhead_port, is]
    refine ⟨seq, periodRecord s.periodSeq ch p c s.header.coverage, list.trans (pushBounded_eq ..), rfl, rfl, rfl, rfl, rfl, rfl, rfl, rfl, rfl,
      rfl, rfl, rfl, rfl, rfl, rfl, rfl, rfl, rfl, rfl, rfl, rfl, rfl, order.1, order.2.1, order.2.2, fun q => ?_, fun verdict q => ?_,
      fun verdict q => ?_⟩
    · rw [notice, State.closePeriod_notice, if_neg (fun h => by cases h.1), if_pos rfl]
      exact ⟨rfl, rfl⟩
    · rw [notice, State.closePeriod_notice, if_pos ⟨rfl, verdict⟩]
      exact ⟨rfl, rfl⟩
    · rw [notice, State.closePeriod_notice, if_neg (fun h => verdict h.2), if_neg (by decide)]
  · obtain ⟨shut, -⟩ := State.dayOpens_cases (s := s) (ch := ch) (set := set) (n := n) rfl
    rw [(s.lookAhead_chan ch set n).1, shut d held (fun h => (start d.start).1 (given h)) within]
    exact held
  · obtain rfl := (start x).1 isStart
    rw [(s.lookAhead_chan ch set n).1, (State.dayOpens_cases rfl).2 opens]
    rfl
  · have absent : ((s.closeIfDue ch set n).chan ch).period = none := by
      obtain is | ⟨p, c, -, -, is⟩ := s.closeIfDue_cases ch set n
      · cases held : (s.chan ch).period with
        | none => rw [is, held]
        | some p =>
          obtain ⟨c, cause, -⟩ := (s.closeCause_cases ch set n p).2 (closes p held)
          rw [State.closeIfDue_closes held cause, (s.chan_closePeriod ch p c).1]
      · rw [is, (s.chan_closePeriod ch p c).1]
    obtain ⟨one, most, goes, ends⟩ := s.planned_spec ch n
    refine ⟨s.newPeriod ch n, by rw [State.lookAhead_period, absent]; rfl, rfl, rfl, rfl, rfl, rfl, rfl, rfl, rfl, rfl, rfl, rfl, rfl, rfl, rfl,
      fun i source => State.newPeriod_entry source, fun i x source => State.newPeriod_dispensation source, one, most, goes, ends⟩

end Sys2Proof.Machine


/-! The close of one channel's minute: its record, the account unit's work and the FS switch, and how the closes of several channels
add up. -/

namespace Sys2Proof.Machine

/-! ### What the account unit's work leaves -/

theorem State.enterMinute_store (s : State) (m : Summary) : (s.enterMinute m).store = s.store := by rw [State.enterMinute_frame]

theorem State.lookAhead_store (s : State) (ch : Ch) (set : Bool) (n : Nat) : (s.lookAhead ch set n).store = s.store := by
  rw [State.lookAhead_frame]
  obtain is | ⟨p, c, -, -, is⟩ := s.closeIfDue_cases ch set n
  · rw [is]
  · rw [is, State.closePeriod_frame]

theorem State.turned_store (s : State) (x : Summary) : (s.turned x).store = s.store := by
  unfold State.turned
  split
  · exact s.enterMinute_store x
  · exact (State.lookAhead_store _ _ _ _).trans (s.enterMinute_store x)

theorem State.evaluateQuiet_store (s : State) (ch : Ch) : (s.evaluateQuiet ch).store = s.store := by
  rw [State.evaluateQuiet, State.bringQuiet_store]; rfl

/-- R156: the evaluation of a quiet condition leaves every notice but QUIET, and QUIET where the line stays. -/
theorem State.evaluateQuiet_notice (s : State) (ch : Ch) (q : Port) (k : NoticeKind)
    (h : k ≠ .quiet ∨ (s.evaluateQuiet ch).quietLine = s.quietLine) : ((s.evaluateQuiet ch).port q).notice k = (s.port q).notice k := by
  unfold State.evaluateQuiet at h ⊢
  rw [State.bringQuiet_quietLine] at h
  have line : (s.holdQuiet ch).quietLine = s.quietLine := rfl
  rw [State.bringQuiet_port, line]
  split
  · rw [State.holdQuiet, State.port_setChan]
  · next moved =>
    rw [PortState.notice_notify, if_neg, State.holdQuiet, State.port_setChan]
    exact h.resolve_right moved

/-- R156: a quiet condition that moves the line sets QUIET. -/
theorem State.evaluateQuiet_moved {s : State} {ch : Ch} (moved : (s.evaluateQuiet ch).quietLine ≠ s.quietLine) (q : Port) :
    (((s.evaluateQuiet ch).port q).notice .quiet).flag = true ∧
    (((s.evaluateQuiet ch).port q).notice .quiet).detail = ⟨ch, if (s.evaluateQuiet ch).quietLine then 1 else 0, 0⟩ := by
  unfold State.evaluateQuiet at moved ⊢
  rw [State.bringQuiet_quietLine] at moved ⊢
  rw [State.bringQuiet_port, if_neg (show _ ≠ (s.holdQuiet ch).quietLine from moved), PortState.notice_notify, if_pos rfl]
  exact ⟨rfl, rfl⟩

/-- R156: the line stands at its inputs. -/
theorem State.evaluateQuiet_line (s : State) (ch : Ch) : (s.evaluateQuiet ch).quietLine = true ↔
    (∃ q, (s.port q).quietRequest = true) ∨ ∃ d, ((s.evaluateQuiet ch).chan d).quiet ≠ .none := by
  have ports : (∃ q, (s.port q).quietRequest = true) ↔ s.site.quietRequest = true ∨ s.compliance.quietRequest = true :=
    ⟨fun ⟨q, h⟩ => by cases q; exact .inl h; exact .inr h, fun h => h.elim (fun h => ⟨.site, h⟩) fun h => ⟨.compliance, h⟩⟩
  rw [State.evaluateQuiet, State.bringQuiet_quietLine, State.quietDemand_iff, ports, or_assoc]
  simp only [State.chan_bringQuiet]
  rfl

theorem State.turned_conditions (s : State) (x : Summary) (q : Port) :
    ((s.turned x).port q).conditions = (s.port q).conditions.set x.ch (((s.port q).conditions.get x.ch).merge x.causes) := by
  rw [← State.enterMinute_conditions]
  unfold State.turned
  split
  · rfl
  · rw [State.lookAhead_port_frame]

theorem State.turned_minuteNotice (s : State) (x : Summary) (q : Port) : (((s.turned x).port q).notice .minute).flag = true ∧
    (((s.turned x).port q).notice .minute).detail = ⟨x.ch, 0, BitVec.ofNat 32 s.minuteSeq⟩ := by
  have entered : (((s.enterMinute x).port q).notice .minute).flag = true ∧
      (((s.enterMinute x).port q).notice .minute).detail = ⟨x.ch, 0, BitVec.ofNat 32 s.minuteSeq⟩ := by
    rw [State.enterMinute_notices]; exact ⟨rfl, rfl⟩
  unfold State.turned
  split
  · exact entered
  · rw [State.lookAhead_notice _ _ _ _ _ (by decide) (by decide)]; exact entered

theorem State.turned_quietLine (s : State) (x : Summary) : (s.turned x).quietLine = s.quietLine ∧
    ∀ q, ((s.turned x).port q).notice .quiet = (s.port q).notice .quiet := by
  have entered : (s.enterMinute x).quietLine = s.quietLine ∧ ∀ q, ((s.enterMinute x).port q).notice .quiet = (s.port q).notice .quiet :=
    ⟨by rw [State.enterMinute_frame], fun q => by rw [State.enterMinute_notices]; rfl⟩
  unfold State.turned
  split
  · exact entered
  · refine ⟨Eq.trans ?_ entered.1, fun q => (State.lookAhead_notice _ _ _ _ _ (by decide) (by decide)).trans (entered.2 q)⟩
    rw [State.lookAhead_frame]
    obtain is | ⟨p, c, -, -, is⟩ := (s.enterMinute x).closeIfDue_cases x.ch x.boundary.timeSet ‹_›
    · rw [is]
    · rw [is, State.closePeriod_frame]

/-- R100, R139: the period list takes the record of at most one period. -/
theorem State.turned_periodList (s : State) (x : Summary) : (s.turned x).periodSeq = s.periodSeq ∧ (s.turned x).periodList = s.periodList ∨
    ∃ k, (s.turned x).periodSeq = s.periodSeq + 1 ∧ (s.turned x).periodList = pushBounded 96 s.periodList k := by
  have entered : (s.enterMinute x).periodSeq = s.periodSeq ∧ (s.enterMinute x).periodList = s.periodList := by
    rw [State.enterMinute_frame]; exact ⟨rfl, rfl⟩
  unfold State.turned
  split
  · exact .inl entered
  · rw [State.lookAhead_frame]
    obtain is | ⟨p, c, -, -, is⟩ := (s.enterMinute x).closeIfDue_cases x.ch x.boundary.timeSet ‹_›
    · rw [is]; exact .inl entered
    · rw [is, State.closePeriod_frame, entered.1, entered.2]
      exact .inr ⟨_, rfl, rfl⟩

/-! ### One channel's close -/

/-- Channel `b` stands, for the close of its minute, as `a` does. -/
structure Channel.Stands (a b : Channel) : Prop where
  day : b.day = a.day
  quiet : b.quiet = a.quiet
  number : b.minuteNo = a.minuteNo
  fs : b.fs = a.fs
  calSeq : b.calSeq = a.calSeq
  uncalibrated : b.uncalibrated = a.uncalibrated

theorem Channel.Stands.refl (a : Channel) : a.Stands a := ⟨rfl, rfl, rfl, rfl, rfl, rfl⟩

theorem Channel.Stands.trans {a b c : Channel} (h : a.Stands b) (h' : b.Stands c) : a.Stands c :=
  ⟨h'.day.trans h.day, h'.quiet.trans h.quiet, h'.number.trans h.number, h'.fs.trans h.fs, h'.calSeq.trans h.calSeq,
    h'.uncalibrated.trans h.uncalibrated⟩

/-- What work on one channel leaves between `s` and `u`, before a waiting close of it is made: the settings, the other channels, the records,
the QUIET line, the store, and all notices but EVENT, CAL and CHANNEL. -/
structure State.Readied (ch : Ch) (s u : State) : Prop where
  frame : s.SameFrame u
  others : ∀ c, c ≠ ch → u.chan c = s.chan c
  minutes : u.minuteRing = s.minuteRing ∧ u.minuteSeq = s.minuteSeq
  periods : u.periodList = s.periodList ∧ u.periodSeq = s.periodSeq
  quietLine : u.quietLine = s.quietLine
  store : u.store = s.store
  conditions : ∀ q, (u.port q).conditions = (s.port q).conditions
  notices : ∀ q k, ¬ k.besideAccounts → (u.port q).notice k = (s.port q).notice k
  stands : (s.chan ch).Stands (u.chan ch)

theorem State.Readied.refl (ch : Ch) (s : State) : s.Readied ch s :=
  ⟨.refl s, fun _ _ => rfl, ⟨rfl, rfl⟩, ⟨rfl, rfl⟩, rfl, rfl, fun _ => rfl, fun _ _ _ => rfl, .refl _⟩

theorem State.Readied.trans {ch : Ch} {s t u : State} (h : s.Readied ch t) (h' : t.Readied ch u) : s.Readied ch u where
  frame := h.frame.trans h'.frame
  others c hc := (h'.others c hc).trans (h.others c hc)
  minutes := ⟨h'.minutes.1.trans h.minutes.1, h'.minutes.2.trans h.minutes.2⟩
  periods := ⟨h'.periods.1.trans h.periods.1, h'.periods.2.trans h.periods.2⟩
  quietLine := h'.quietLine.trans h.quietLine
  store := h'.store.trans h.store
  conditions q := (h'.conditions q).trans (h.conditions q)
  notices q k hk := (h'.notices q k hk).trans (h.notices q k hk)
  stands := h.stands.trans h'.stands

/-- Between `s` and `t` the minute `m` of a channel, whose open period is then `p`, has been closed by the boundary `b`: of `MinuteClosed`, what the
record and the account unit leave. -/
structure State.MinuteMade (s t : State) (ch : Ch) (b : Boundary) (m : MinuteAcc) (p : Option Period) : Prop where
  number : (t.chan ch).minuteNo = b.next
  empty : (t.chan ch).engine.minute = .empty
  sequence : t.minuteSeq = s.minuteSeq + 1
  record : ∃ r u, t.minuteRing.getLast? = some r ∧ r.sequence = s.minuteSeq ∧ r.Of ch (s.chan ch) m b ∧
    Accounted s u t ch b p r ∧ AccountedAlone s u t (r.summary b)
  notice : ∀ q, ((t.port q).notice .minute).flag = true ∧ ((t.port q).notice .minute).detail = ⟨ch, 0, BitVec.ofNat 32 s.minuteSeq⟩

theorem MinuteRecord.Of.stands {r : MinuteRecord} {ch : Ch} {a c : Channel} {m : MinuteAcc} {b : Boundary} (h : r.Of ch c m b) (stands : a.Stands c) :
    r.Of ch a m b where
  channel := h.channel
  minute := h.minute
  counts := h.counts
  levels := stands.fs ▸ h.levels
  standing := ⟨h.standing.1.trans stands.fs, h.standing.2.1.trans stands.calSeq, h.standing.2.2.trans stands.uncalibrated⟩
  causes := stands.fs ▸ h.causes

section

variable {s u : State} {ch : Ch}

/-- R93: work before the close changes nothing that the account unit's work reads or leaves. -/
theorem State.Readied.accounted {v t : State} {b : Boundary} {p : Option Period} {r : MinuteRecord} (h : s.Readied ch u) (done : Accounted u v t ch b p r) :
    Accounted s v t ch b p r where
  settings := by
    obtain ⟨header, entries, slots, commissioning⟩ := done.settings
    exact ⟨header.trans h.frame.header, entries.trans h.frame.entries, slots.trans h.frame.slots, commissioning.trans h.frame.commissioning⟩
  before := ⟨done.before.1, done.before.2.trans h.stands.day⟩
  later := ⟨h.minutes.2 ▸ done.later.1, h.periods.2 ▸ done.later.2⟩
  marked := done.marked
  listed := done.listed
  period := done.period
  day := done.day
  quiet := done.quiet
  closed := done.closed

theorem State.Readied.alone {v t : State} {x : Summary} (h : s.Readied ch u) (named : x.ch = ch) (done : AccountedAlone u v t x) :
    AccountedAlone s v t x where
  collections := by
    obtain ⟨ring, seq, list, next⟩ := done.collections
    exact ⟨ring.trans h.minutes.1, seq.trans h.minutes.2, list.trans h.periods.1, next.trans h.periods.2⟩
  line := ⟨done.line.1.trans h.quietLine, fun d hd => (done.line.2 d hd).trans (h.others d (named ▸ hd))⟩
  ports q := by
    obtain ⟨port, notices⟩ := done.ports q
    refine ⟨?_, fun k hk => (notices k hk).trans (h.notices q k hk)⟩
    have frame := h.frame.ports q
    rw [h.conditions q] at frame
    rw [port, frame]
  minuteRing := done.minuteRing
  periodList := done.periodList
  periodSeq := done.periodSeq
  quietLine := done.quietLine
  conditions := done.conditions
  notices := done.notices

/-- R34, R45, R93: a channel's minute is closed, whatever work on the channel went before. -/
theorem State.Readied.made (h : s.Readied ch u) (w : WaitingClose) :
    s.MinuteMade (u.closeMinute ch w) ch w.boundary (u.chan ch).engine.minute (u.chan ch).period := by
  obtain ⟨empty, number, -, -⟩ := u.chan_closeMinute ch w
  obtain ⟨r, newest, seq, sequence, is, done, alone⟩ := u.closeMinute_accounts ch w
  have named : (r.summary w.boundary).ch = ch := is.channel
  refine ⟨number, empty, seq.trans (congrArg (· + 1) h.minutes.2), ⟨r, _, newest, sequence.trans h.minutes.2, is.stands h.stands, h.accounted done,
    h.alone named alone⟩, fun q => ?_⟩
  have told := State.turned_minuteNotice (u.minuteBegun ch w.boundary) (r.summary w.boundary) q
  rw [named, show (u.minuteBegun ch w.boundary).minuteSeq = s.minuteSeq from h.minutes.2] at told
  rw [alone.notices q .minute (by unfold NoticeKind.besideAccounts; decide), State.evaluateQuiet_notice _ _ _ _ (.inl (by decide))]
  exact told

end

/-! ### The FS switch of a close -/

/-- The switch that a close `w` makes on a channel that stands as `c` (R124). -/
def WaitingClose.switch (w : WaitingClose) (c : Channel) : Option Level := if w.makesSwitch then c.pendingFs else none

theorem WaitingClose.switch_some {w : WaitingClose} {c : Channel} {fs : Level} :
    w.switch c = some fs ↔ w.makesSwitch = true ∧ c.pendingFs = some fs := by
  unfold WaitingClose.switch; split <;> simp_all

/-- Between `s` and `t` a channel has made the FS switch `o`, or none. -/
structure State.Switched (s t : State) (ch : Ch) (o : Option Level) : Prop where
  made : ∀ fs, o = some fs → FsSwitched s t ch fs ∧ Queued s.store t.store (switchItem s t ch fs) ∧ CalSet t ch
  kept : o = none → t.store = s.store ∧ (t.chan ch).fs = (s.chan ch).fs ∧ (t.chan ch).calSeq = (s.chan ch).calSeq ∧
    (t.chan ch).uncalibrated = (s.chan ch).uncalibrated

theorem State.switchFs_none {s : State} {ch : Ch} (pending : (s.chan ch).pendingFs = none) : s.switchFs ch = s := by
  unfold State.switchFs; rw [pending]

theorem State.switchFs_some {s : State} {ch : Ch} {fs : Level} (pending : (s.chan ch).pendingFs = some fs) :
    (s.switchFs ch).chan ch = { s.chan ch with fs := fs, calSeq := (s.chan ch).calSeq + 1, uncalibrated := false, pendingFs := none } ∧
    (s.switchFs ch).store = s.store.enqueue (.channel ch ⟨fs, (s.chan ch).calSeq + 1, (s.chan ch).calRecord⟩) ∧
    ∀ q, (s.switchFs ch).port q = (s.port q).notify .cal ⟨ch, 0, (s.chan ch).calRecord.serial.setWidth 32⟩ := by
  unfold State.switchFs
  rw [pending]
  exact ⟨State.chan_setChan_self _ _ _, rfl, fun q => by cases q <;> rfl⟩

section

variable {s u : State} {ch : Ch}

/-- R93: what the account unit's work leaves for the switch. -/
theorem State.accountMinute_switch (s : State) (x : Summary) : (s.accountMinute x).store = s.store ∧
    ((s.accountMinute x).chan x.ch).fs = (s.chan x.ch).fs ∧ ((s.accountMinute x).chan x.ch).calSeq = (s.chan x.ch).calSeq ∧
    ((s.accountMinute x).chan x.ch).uncalibrated = (s.chan x.ch).uncalibrated ∧
    ((s.accountMinute x).chan x.ch).pendingFs = (s.chan x.ch).pendingFs ∧
    ((s.accountMinute x).chan x.ch).calRecord = (s.chan x.ch).calRecord ∧
    ∀ q, ((s.accountMinute x).port q).notice .cal = (s.port q).notice .cal := by
  have chan := s.accounted_accountMinute x
  unfold Channel.Accounted at chan
  refine ⟨?_, by rw [chan], by rw [chan], by rw [chan], by rw [chan], by rw [chan],
    fun q => (State.CloseFrame.accountMinute s x).notices q .cal (.inr rfl)⟩
  rw [State.accountMinute_eq, State.evaluateQuiet_store, State.turned_store]

theorem State.closeMinute_eq (s : State) (ch : Ch) (w : WaitingClose) : s.closeMinute ch w =
    let v := (s.minuteBegun ch w.boundary).accountMinute ((s.chan ch).summary ch w.boundary)
    if w.makesSwitch then v.switchFs ch else v := rfl

/-- R124: a close makes the switch that is pending, if it was pending as the boundary came. -/
theorem State.Readied.switched (h : s.Readied ch u) (w : WaitingClose) :
    s.Switched (u.closeMinute ch w) ch (w.switch (u.chan ch)) ∧
    (w.switch (u.chan ch) = none → ((u.closeMinute ch w).chan ch).pendingFs = (u.chan ch).pendingFs ∧
      ∀ q, ((u.closeMinute ch w).port q).notice .cal = (u.port q).notice .cal) := by
  obtain ⟨store, fs, calSeq, uncalibrated, pending, record, cal⟩ :=
    (u.minuteBegun ch w.boundary).accountMinute_switch ((u.chan ch).summary ch w.boundary)
  have begun : (u.minuteBegun ch w.boundary).chan ch = { u.chan ch with
      engine := { (u.chan ch).engine with minute := .empty }, minuteNo := w.boundary.next } := State.chan_setChan_self _ _ _
  have named : ((u.chan ch).summary ch w.boundary).ch = ch := rfl
  rw [State.closeMinute_eq]
  rw [named, begun] at fs calSeq uncalibrated pending record
  generalize (u.minuteBegun ch w.boundary).accountMinute ((u.chan ch).summary ch w.boundary) = v at *
  have store' : v.store = s.store := store.trans h.store
  have cal' (q : Port) : (v.port q).notice .cal = (u.port q).notice .cal := (cal q).trans (by rw [State.minuteBegun, State.port_setChan])
  dsimp only
  by_cases makes : w.makesSwitch = true
  · rw [if_pos makes, WaitingClose.switch, if_pos makes]
    cases asked : (u.chan ch).pendingFs with
    | none =>
      rw [asked] at pending
      rw [State.switchFs_none pending]
      exact ⟨⟨nofun, fun _ => ⟨store', fs.trans h.stands.fs, calSeq.trans h.stands.calSeq, uncalibrated.trans h.stands.uncalibrated⟩⟩,
        fun _ => ⟨pending, cal'⟩⟩
    | some f =>
      rw [asked] at pending
      obtain ⟨chan, queue, ports⟩ := State.switchFs_some pending
      refine ⟨⟨fun g is => ?_, fun h => by cases h⟩, fun h => by cases h⟩
      injection is with is
      subst is
      unfold FsSwitched switchItem CalSet
      rw [chan, queue, store']
      refine ⟨⟨rfl, congrArg (· + 1) (calSeq.trans h.stands.calSeq), rfl, rfl⟩, ?_, fun q => ?_⟩
      · rw [← h.stands.calSeq, ← calSeq]
        exact s.store.queued_enqueue _
      · rw [ports, PortState.notice_notify, if_pos rfl]
        exact ⟨rfl, rfl⟩
  · rw [if_neg makes, WaitingClose.switch, if_neg makes]
    exact ⟨⟨nofun, fun _ => ⟨store', fs.trans h.stands.fs, calSeq.trans h.stands.calSeq, uncalibrated.trans h.stands.uncalibrated⟩⟩,
      fun _ => ⟨pending, cal'⟩⟩

end

theorem State.closeWaiting_none {s : State} {ch : Ch} (waiting : (s.chan ch).waiting = none) : s.closeWaiting ch = s := by
  unfold State.closeWaiting; rw [waiting]

theorem State.closeWaiting_some {s : State} {ch : Ch} {w : WaitingClose} (waiting : (s.chan ch).waiting = some w) :
    s.closeWaiting ch = (s.setChan ch { s.chan ch with waiting := none }).closeMinute ch w := by
  unfold State.closeWaiting; rw [waiting]

theorem State.Readied.setChan (s : State) (ch : Ch) {c : Channel} (stands : (s.chan ch).Stands c) : s.Readied ch (s.setChan ch c) :=
  ⟨.setChan .., fun _ hd => State.chan_setChan_ne _ hd _, ⟨rfl, rfl⟩, ⟨rfl, rfl⟩, rfl, rfl, fun _ => by rw [State.port_setChan],
    fun _ _ _ => by rw [State.port_setChan], by rwa [State.chan_setChan_self]⟩

/-- R45, R124: where a close waits, the minute closes as `MinuteClosed` has it, whatever work on the channel went before. -/
theorem State.Readied.minuteClosed {s u : State} {ch : Ch} (h : s.Readied ch u) {w : WaitingClose} (waiting : (u.chan ch).waiting = some w)
    (pending : ¬ s.completesRun ch → (u.chan ch).pendingFs = (s.chan ch).pendingFs) :
    MinuteClosed s (u.closeWaiting ch) ch w (u.chan ch).engine.minute (u.chan ch).period := by
  let v := u.setChan ch { u.chan ch with waiting := none }
  have chan : v.chan ch = { u.chan ch with waiting := none } := State.chan_setChan_self _ _ _
  have ready : s.Readied ch v := h.trans (.setChan u ch ⟨rfl, rfl, rfl, rfl, rfl, rfl⟩)
  have made := ready.made w
  obtain ⟨switched, unswitched⟩ := ready.switched w
  have emptied := (u.chan_closeWaiting ch).1
  rw [State.closeWaiting_some waiting] at emptied ⊢
  rw [chan] at made switched unswitched
  refine ⟨emptied, made.number, made.empty, made.sequence, made.record, made.notice, fun keeps => ?_, fun _ goesOn none' => ?_, fun fs makes goesOn asked => ?_⟩
  · have no : w.switch { u.chan ch with waiting := none } = none := by unfold WaitingClose.switch; rw [keeps]; rfl
    obtain ⟨store, fs, calSeq, uncalibrated⟩ := switched.kept no
    exact ⟨store, fs, calSeq, uncalibrated, fun goesOn => (unswitched no).1.trans (pending goesOn)⟩
  · have no : w.switch { u.chan ch with waiting := none } = none :=
      Option.eq_none_iff_forall_ne_some.2 fun fs h => by
        rw [WaitingClose.switch_some] at h
        exact Option.some_ne_none fs ((h.2.symm.trans (pending goesOn)).trans none')
    obtain ⟨store, fs, calSeq, uncalibrated⟩ := switched.kept no
    exact ⟨store, fs, calSeq, uncalibrated, (unswitched no).1.trans (pending goesOn)⟩
  · exact switched.made fs (WaitingClose.switch_some.2 ⟨makes, (pending goesOn).trans asked⟩)

end Sys2Proof.Machine


/-! The end of a slice: what enters the minute and the period, how the settling and the phases go on, the event it interrupts, and a waiting
close (O26, O27, O29). -/

namespace Sys2Proof.Machine

/-! ### A slice enters the minute and the period -/

theorem SliceAcc.result_cls (a : SliceAcc) (cls : SliceClass) (fs : Level) : (a.result cls fs).cls = cls := by cases cls <;> rfl

theorem SliceAcc.result_sumA (a : SliceAcc) (cls : SliceClass) (fs : Level) :
    (a.result cls fs).sumA = if cls = .missing then 0 else a.sumA := by cases cls <;> rfl

/-- R33: the causes of a slice are taken, whatever the minute holds. -/
theorem MinuteAcc.takeSlice_causes (m : MinuteAcc) (a : SliceAcc) (r : SliceResult) :
    (m.takeSlice a r).causes = (m.causes.merge r.causes).merge { Causes.none with frameLoss := r.cls == .missing } := by
  have counted : (m.count r.cls).causes = m.causes := by cases h : r.cls <;> rfl
  unfold MinuteAcc.takeSlice
  split
  · rfl
  · split <;> simp only [MinuteAcc.takeCauses, MinuteAcc.takeLevels, counted]

/-- R32, R33, R48: the slice is taken into the minute. -/
theorem Engine.takeSlice_taken (e : Engine) (cls : SliceClass) (fs : Level) :
    SliceTaken e cls fs (e.minute.takeSlice e.slice (e.slice.result cls fs)) := by
  have isMissing : ∀ c : SliceClass, (c == .missing) = decide (c = .missing) ∧ (c != .missing) = !decide (c = .missing) := by
    intro c; cases c <;> exact ⟨rfl, rfl⟩
  constructor
  case overload | saturation | frameLoss | underrange =>
    rw [MinuteAcc.takeSlice_causes]
    cases cls <;> simp [Causes.merge, SliceAcc.result, Causes.none, Bool.or_assoc, isMissing]
  all_goals
    unfold MinuteAcc.takeSlice
    by_cases full : 721 ≤ e.minute.duration
    · simp [full, Nat.not_lt.2 full, MinuteAcc.takeCauses]
    · cases cls <;> simp [full, Nat.not_le.1 full, MinuteAcc.count, MinuteAcc.takeLevels, MinuteAcc.takeCauses, SliceAcc.result_cls]

theorem Period.countSlice_countedIn (p : Period) (l : Level) : CountedIn l p (p.countSlice l) := by
  refine ⟨rfl, fun b => ?_⟩
  have bin : histogramBin l = b ↔ b.val = if l < 2000 then 0 else min 239 ((l - 2000) / 50).toNat := by
    rw [Fin.ext_iff, histogramBin]
    dsimp only
    split
    · have : ((l - 2000) / 50).toNat = 0 := by
        have below : (l - 2000) / 50 < 0 := Int.ediv_neg_of_neg_of_pos (by unfold Level at *; omega) (by decide)
        exact Int.toNat_of_nonpos below.le
      rw [this]
      exact eq_comm
    · rw [Nat.min_comm]
      exact eq_comm
  show (p.histogram.set _ _)[b] = _
  rw [Fin.getElem_fin, Vector.getElem_set]
  by_cases same : histogramBin l = b
  · subst same
    rw [if_pos rfl, if_pos (bin.1 rfl)]
  · rw [if_neg fun h => same (Fin.ext h), if_neg fun h => same (bin.2 h)]
    rfl

theorem Channel.countSlice_valid {c : Channel} {r : SliceResult} {l : Level} {p : Period} (valid : r.cls = .valid) (level : r.laeq = some l)
    (period : c.period = some p) : (c.countSlice r).period = some (p.countSlice l) := by
  unfold Channel.countSlice
  rw [valid, level, period]

theorem Channel.countSlice_other {c : Channel} {r : SliceResult} (h : r.cls ≠ .valid ∨ c.period = none) : c.countSlice r = c := by
  unfold Channel.countSlice
  split
  · next valid _ period =>
    rcases h with h | h
    · exact absurd valid h
    · rw [h] at period; cases period
  · rfl

/-- R92: a slice reaches the open period. -/
theorem Channel.countSlice_counted (c : Channel) (a : SliceAcc) (cls : SliceClass) :
    Counted cls (convert c.fs a.sumA 6000).level c.period (c.countSlice (a.result cls c.fs)).period := by
  have is : (a.result cls c.fs).cls = cls := SliceAcc.result_cls a cls c.fs
  refine ⟨fun absent => by rw [Channel.countSlice_other (.inr absent)]; exact absent, fun p period => ?_⟩
  by_cases valid : cls = .valid
  · have level : (a.result cls c.fs).laeq = some (convert c.fs a.sumA 6000).level := by subst valid; rfl
    exact ⟨_, Channel.countSlice_valid (is.trans valid) level period, fun _ => Period.countSlice_countedIn _ _, fun h => absurd valid h⟩
  · exact ⟨p, by rw [Channel.countSlice_other (.inl fun h => valid (is.symm.trans h))]; exact period, fun h => absurd h valid, fun _ => rfl⟩

/-! ### The settling and the phases -/

/-- R7, R10: the state and the settle count of a channel once a slice has ended on it. -/
def Channel.nextPhase (c : Channel) : ChannelState × Nat :=
  match c.state with
  | .off => (.off, c.settle)
  | .measuring => (.measuring, c.settle)
  | .faulted => (.faulted, c.settle)
  | .settling => if 16 ≤ c.settle + 1 then (.measuring, 0) else (.settling, c.settle + 1)
  | .calibrating .calSettle r => if 40 ≤ c.settle + 1 then (.calibrating .calMeasure r, 0) else (.calibrating .calSettle r, c.settle + 1)
  | .calibrating .calMeasure r => if 160 ≤ c.settle + 1 then (.calibrating .calRecover r, 0) else (.calibrating .calMeasure r, c.settle + 1)
  | .calibrating .calRecover .settling =>
    if 16 ≤ c.settle + 1 then (.settling, 0) else (.calibrating .calRecover .settling, c.settle + 1)
  | .calibrating .calRecover .off => if 16 ≤ c.settle + 1 then (.off, 0) else (.calibrating .calRecover .off, c.settle + 1)

/-- Between `s` and `t` a channel has gone to the phase `x`; a return to OFF drops what it kept and sets CHANNEL. -/
structure State.Phased (s t : State) (ch : Ch) (x : ChannelState × Nat) : Prop where
  state : (t.chan ch).state = x.1
  settle : (t.chan ch).settle = x.2
  goesOn : x.1 ≠ .off → (t.chan ch).engine = (s.chan ch).engine
  stops : x.1 = .off → (t.chan ch).engine = (s.chan ch).engine.discardSlice ∧
    ∀ q, ((t.port q).notice .channel).flag = true ∧ ((t.port q).notice .channel).detail = ⟨ch, 3, 0⟩

/-- R7, R10: the settle count's moving on takes a channel to its next phase. -/
theorem State.settleProgress_phase (s : State) (ch : Ch) (runs : (s.chan ch).state ≠ .off) :
    s.Phased (s.settleProgress ch) ch (s.chan ch).nextPhase := by
  have enters (u : State) (x : ChannelState) (on : x ≠ .off) (same : (u.chan ch).engine = (s.chan ch).engine) :
      s.Phased (u.enter ch x) ch (x, 0) := by
    constructor <;> rw [State.enter, State.chan_setChan_self]
    · exact fun _ => same
    · exact fun h => absurd h on
  have counts (x : ChannelState) (on : x ≠ .off) :
      s.Phased (s.setChan ch { s.chan ch with state := x, settle := (s.chan ch).settle + 1 }) ch (x, (s.chan ch).settle + 1) := by
    constructor <;> rw [State.chan_setChan_self]
    · exact fun _ => rfl
    · exact fun h => absurd h on
  have stays {x : ChannelState} (state : (s.chan ch).state = x) (on : x ≠ .off) : s.Phased s ch (x, (s.chan ch).settle) :=
    ⟨state, rfl, fun _ => rfl, fun h => absurd h on⟩
  have returns : s.Phased (s.returnToOff ch) ch (.off, 0) := by
    constructor <;> rw [State.returnToOff, State.notifyChannel, State.chan_notifyBoth, State.chan_setChan_self]
    · exact fun h => absurd rfl h
    · refine fun _ => ⟨rfl, fun q => ?_⟩
      rw [State.port_notifyBoth, PortState.notice_notify, if_pos rfl]
      exact ⟨rfl, rfl⟩
  have completed : ((s.completeRun ch).chan ch).engine = (s.chan ch).engine := by rw [s.completeRun_chan ch]
  unfold State.settleProgress Channel.nextPhase
  dsimp only
  cases state : (s.chan ch).state with
  | off => exact absurd state runs
  | measuring => exact stays state nofun
  | faulted => exact stays state nofun
  | settling =>
    dsimp only
    split
    · exact enters s _ nofun rfl
    · exact counts .settling nofun
  | calibrating phase r =>
    cases phase with
    | calSettle =>
      dsimp only
      split
      · exact enters s _ nofun rfl
      · exact counts (.calibrating .calSettle r) nofun
    | calMeasure =>
      dsimp only
      split
      · exact enters _ _ nofun completed
      · exact counts (.calibrating .calMeasure r) nofun
    | calRecover =>
      cases r with
      | settling =>
        dsimp only
        split
        · exact enters s _ nofun rfl
        · exact counts (.calibrating .calRecover .settling) nofun
      | off =>
        dsimp only
        split
        · exact returns
        · exact counts (.calibrating .calRecover .off) nofun

/-! ### The hand-on of a slice -/

/-- The state of the detector's work on a slice result that a hand-on begins with (R11, R92, R129). -/
def State.detected (s : State) (ch : Ch) (r : SliceResult) : State := (s.setChan ch ((s.chan ch).countSlice r)).detectSlice ch r

theorem State.calTakeSlice_frame (s : State) (ch : Ch) (r : SliceResult) : s.calTakeSlice ch r = { s with calUnit := (s.calTakeSlice ch r).calUnit } := by
  unfold State.calTakeSlice
  split
  · rfl
  · split <;> rfl

theorem State.closeEvent_wx (s : State) (ch : Ch) (c : EndCause) : (s.closeEvent ch c).wx = s.wx := by
  unfold State.closeEvent; dsimp only; split <;> rfl

theorem State.detectSlice_wx (s : State) (ch : Ch) (r : SliceResult) : (s.detectSlice ch r).wx = s.wx := by
  unfold State.detectSlice State.setContinuation; dsimp only
  split
  · split <;> rfl
  · split
    · exact State.closeEvent_wx _ _ _
    · split
      · exact State.closeEvent_wx _ _ _
      · split
        · exact State.closeEvent_wx _ _ _
        · rfl

/-- R11, R129: what a hand-on leaves of events is what the detector leaves. -/
theorem State.handOn_events (s : State) (ch : Ch) (r : SliceResult) :
    ((s.handOn ch r).chan ch).openEvent = ((s.detected ch r).chan ch).openEvent ∧
    ((s.handOn ch r).chan ch).continuation = ((s.detected ch r).chan ch).continuation ∧
    (s.handOn ch r).eventList = (s.detected ch r).eventList ∧ (s.handOn ch r).eventSeq = (s.detected ch r).eventSeq ∧
    (∀ q, ((s.handOn ch r).port q).notice .event = ((s.detected ch r).port q).notice .event) ∧ (s.handOn ch r).wx = s.wx := by
  have is : s.handOn ch r = ((s.detected ch r).calTakeSlice ch r).setChan ch { ((s.detected ch r).calTakeSlice ch r).chan ch with
      engine := (((s.detected ch r).calTakeSlice ch r).chan ch).engine.endSlice r } := rfl
  have wx : (s.detected ch r).wx = s.wx := State.detectSlice_wx _ _ _
  rw [is, State.chan_setChan_self, State.calTakeSlice_frame]
  exact ⟨rfl, rfl, rfl, rfl, fun q => by rw [State.port_setChan]; cases q <;> rfl, wx⟩

theorem State.SliceFrame.readied {k : NoticeKind} {ch : Ch} {s t : State} (h : SliceFrame k ch s t) (kind : k.besideAccounts) (frame : s.SameFrame t)
    (stands : (s.chan ch).Stands (t.chan ch)) : s.Readied ch t :=
  ⟨frame, h.others, h.minutes, h.periods, h.quietLine, h.store, h.conditions, fun q j hj => h.notices q j fun e => hj (e ▸ kind), stands⟩

theorem State.Readied.handOn (s : State) (ch : Ch) (r : SliceResult) : s.Readied ch (s.handOn ch r) :=
  (State.SliceFrame.handOn s ch r).readied (.inl rfl) (.handOn s ch r) (by rw [s.handOn_chan ch r]; exact ⟨rfl, rfl, rfl, rfl, rfl, rfl⟩)

theorem Channel.Concluded.stands {a b : Channel} (h : a.Concluded b) : a.Stands b := by
  unfold Channel.Concluded at h
  rw [h]
  exact ⟨rfl, rfl, rfl, rfl, rfl, rfl⟩

theorem State.Readied.settleProgress (s : State) (ch : Ch) : s.Readied ch (s.settleProgress ch) := by
  obtain ⟨concluded, others, ring, seq, list, next, line, store, ports, -, -, -⟩ := s.settleProgress_concludes ch
  exact ⟨.settleProgress s ch, others, ⟨ring, seq⟩, ⟨list, next⟩, line, store, fun q => (ports q).1, fun q => (ports q).2, concluded.stands⟩

/-- A run in CAL-MEASURE is completed by the hand-on of a slice just where it was by the slice. -/
theorem State.handOn_completesRun (s : State) (ch : Ch) (r : SliceResult) : (s.handOn ch r).completesRun ch ↔ s.completesRun ch := by
  have runs : (s.handOn ch r).runningOn ch = s.runningOn ch := by
    have unit : (s.detected ch r).calUnit = s.calUnit := State.detectSlice_calUnit _ _ _
    show ((s.detected ch r).calTakeSlice ch r).runningOn ch = s.runningOn ch
    unfold State.calTakeSlice State.runningOn
    rw [unit]
    cases run : s.calUnit.run with
    | none => simp [unit, run]
    | some x => dsimp only; split <;> simp [unit, run, CalRun.takeSlice]
  unfold State.completesRun
  rw [runs, s.handOn_chan ch r]

/-- The state of a channel whose slice has ended, before a waiting close is made (R11, R45). -/
def State.sliceHanded (s : State) (ch : Ch) : State := (s.handOn ch (s.sliceResult ch false)).settleProgress ch

theorem State.endSlice_eq (s : State) (ch : Ch) : s.endSlice ch = (s.sliceHanded ch).closeWaiting ch := rfl

theorem State.Readied.sliceHanded (s : State) (ch : Ch) : s.Readied ch (s.sliceHanded ch) :=
  (State.Readied.handOn s ch _).trans (.settleProgress _ ch)

theorem Engine.discardSlice_minute (e : Engine) : e.discardSlice.minute = e.minute := rfl

/-- R11, R32, R92: what an ended slice leaves of its channel before the close. -/
theorem State.sliceHanded_chan (s : State) (ch : Ch) :
    let c := s.chan ch
    let d := (s.sliceHanded ch).chan ch
    let r := s.sliceResult ch false
    d.engine.minute = c.engine.minute.takeSlice c.engine.slice r ∧ d.period = (c.countSlice r).period ∧ d.waiting = c.waiting ∧
    (¬ s.completesRun ch → d.pendingFs = c.pendingFs) := by
  intro c d r
  have handed := s.handOn_chan ch r
  obtain ⟨concluded, -, -, -, -, -, -, -, -, -, engine, -⟩ := (s.handOn ch r).settleProgress_concludes ch
  have minute : d.engine.minute = ((s.handOn ch r).chan ch).engine.minute := by
    rcases engine with h | h
    · exact congrArg Engine.minute h
    · exact (congrArg Engine.minute h).trans (Engine.discardSlice_minute _)
  refine ⟨by rw [minute, handed]; rfl, ?_, ?_, fun goesOn => ?_⟩
  · show ((s.sliceHanded ch).chan ch).period = _
    rw [State.sliceHanded, concluded, handed]
  · show ((s.sliceHanded ch).chan ch).waiting = _
    rw [State.sliceHanded, concluded, handed]
  · have progressed := ((s.handOn ch r).settleProgress_leaves ch fun h => goesOn ((s.handOn_completesRun ch r).1 h)).2.1
    show ((s.sliceHanded ch).chan ch).pendingFs = _
    rw [State.sliceHanded, progressed, handed]

/-! ### The end of a slice -/

/-- Between `s` and `t` the events are as they were. -/
structure State.SameEvents (s t : State) : Prop where
  list : t.eventList = s.eventList
  sequence : t.eventSeq = s.eventSeq
  notices : ∀ q, (t.port q).notice .event = (s.port q).notice .event

theorem State.SameEvents.trans {s t u : State} (h : s.SameEvents t) (h' : t.SameEvents u) : s.SameEvents u :=
  ⟨h'.list.trans h.list, h'.sequence.trans h.sequence, fun q => (h'.notices q).trans (h.notices q)⟩

section

variable {s u : State} {ch : Ch} {e : Engine}

/-- The state `u` is `s` but for the engine `e` of a channel, as a block end leaves it, and the WX level presented. -/
def State.EngineIs (s u : State) (ch : Ch) (e : Engine) : Prop := ∃ wx, u = { s.setChan ch { s.chan ch with engine := e } with wx := wx }

theorem State.EngineIs.chan (h : s.EngineIs u ch e) : u.chan ch = { s.chan ch with engine := e } := by
  obtain ⟨wx, rfl⟩ := h; exact State.chan_setChan_self _ _ _

theorem State.EngineIs.port (h : s.EngineIs u ch e) (q : Port) : u.port q = s.port q := by
  obtain ⟨wx, rfl⟩ := h; cases q <;> rfl

theorem State.EngineIs.rx (h : s.EngineIs u ch e) {l : Line} : u.rx l = s.rx l := by
  obtain ⟨wx, rfl⟩ := h; cases l <;> rfl

theorem State.EngineIs.calUnit (h : s.EngineIs u ch e) : u.calUnit = s.calUnit := by
  obtain ⟨wx, rfl⟩ := h; rfl

theorem State.EngineIs.events (h : s.EngineIs u ch e) : s.SameEvents u :=
  ⟨by obtain ⟨wx, rfl⟩ := h; rfl, by obtain ⟨wx, rfl⟩ := h; rfl, fun q => by rw [h.port]⟩

theorem Channel.countSlice_engine (c : Channel) (e : Engine) (r : SliceResult) :
    (Channel.countSlice { c with engine := e } r).period = (c.countSlice r).period := by
  unfold Channel.countSlice
  dsimp only
  split <;> rfl

theorem State.SameFrame.wx (s : State) (wx : Bool) : s.SameFrame { s with wx := wx } :=
  ⟨rfl, rfl, rfl, rfl, rfl, rfl, rfl, rfl, rfl, rfl, rfl, rfl, rfl, rfl, rfl, rfl, rfl, fun q => by cases q <;> rfl,
    fun q => by cases q <;> exact .refl _⟩

theorem State.EngineIs.readied (h : s.EngineIs u ch e) : s.Readied ch u := by
  obtain ⟨wx, rfl⟩ := h
  have set := State.Readied.setChan s ch (c := { s.chan ch with engine := e }) ⟨rfl, rfl, rfl, rfl, rfl, rfl⟩
  exact ⟨set.frame.trans (.wx _ wx), set.others, set.minutes, set.periods, set.quietLine, set.store, fun q => by cases q <;> rfl,
    fun q k _ => by cases q <;> rfl, set.stands⟩

theorem State.EngineIs.runningOn (h : s.EngineIs u ch e) : u.runningOn ch = s.runningOn ch := by
  unfold State.runningOn; rw [h.calUnit]

theorem State.EngineIs.completesRun (h : s.EngineIs u ch e) : u.completesRun ch ↔ s.completesRun ch := by
  unfold State.completesRun
  rw [h.runningOn, h.chan]

/-- R11, R23, R27, R45, R92, R93, R117: the end of a slice, from the state before the block end that goes with it. -/
theorem State.EngineIs.sliceEnded (h : s.EngineIs u ch e) {cls : SliceClass} (class_ : u.sliceClass ch false = cls) :
    SliceEnded s (u.endSlice ch) ch e cls := by
  obtain ⟨others, channel, results, unit, missed, cal, entered, unclosed⟩ := u.endSlice_leaves ch
  have chan := h.chan
  have before := h.readied
  have ready : s.Readied ch (u.sliceHanded ch) := before.trans (.sliceHanded u ch)
  obtain ⟨minute, period, waiting, pending⟩ := u.sliceHanded_chan ch
  rw [h.completesRun] at results missed cal unclosed pending
  simp only [class_, h.runningOn, h.calUnit, h.port, chan] at results unit missed cal entered unclosed channel waiting pending minute period
  have result : u.sliceResult ch false = e.slice.result cls (s.chan ch).fs := by rw [State.sliceResult, class_, chan]
  refine ⟨before.frame.trans (.endSlice u ch), fun c hc => (others c hc).trans (before.others c hc), channel, results, unit, missed, cal, entered,
    e.minute.takeSlice e.slice (e.slice.result cls (s.chan ch).fs), ((s.chan ch).countSlice (e.slice.result cls (s.chan ch).fs)).period,
    e.takeSlice_taken cls _, (s.chan ch).countSlice_counted e.slice cls, fun none' => ?_, fun w waits => ?_⟩
  · have stays : u.endSlice ch = u.sliceHanded ch := State.closeWaiting_none (waiting.trans none')
    rw [result, Channel.countSlice_engine] at period
    rw [result] at minute
    obtain ⟨ring, seq, list, next, line, store, number, fs, calSeq, uncalibrated, switch, day, quiet, ports⟩ := unclosed none'
    exact ⟨by rw [stays]; exact minute, number, ring.trans before.minutes.1, seq.trans before.minutes.2, list.trans before.periods.1,
      next.trans before.periods.2, line.trans before.quietLine, store.trans before.store, fs, calSeq, uncalibrated, switch,
      by rw [stays]; exact period, day, quiet, ports⟩
  · have closed := ready.minuteClosed (waiting.trans waits) pending
    rw [minute, period, result, Channel.countSlice_engine] at closed
    exact closed

end

/-! ### The event a slice interrupts -/

theorem EventClose.Of.congr {x : EventClose} {a b : Channel} {count sumA : Nat} {peak : Level} (h : x.Of a count sumA peak) (fs : b.fs = a.fs)
    (period : b.period.map Period.rules = a.period.map Period.rules) : x.Of b count sumA peak where
  duration := h.duration
  peak := h.peak
  laeq := fs ▸ h.laeq
  lae := h.lae
  impulsive := by
    have rules (c : Channel) : (c.period.map fun p => decide (p.rules.impulseThreshold ≤ x.peak - x.laeq)) =
        (c.period.map Period.rules).map fun r => decide (r.impulseThreshold ≤ x.peak - x.laeq) := by rw [Option.map_map]; rfl
    rw [h.impulsive, rules, rules, period]

theorem EventsClosed.before {s u t : State} {closes : Ch → Prop} {cause : EndCause} (h : EventsClosed u t closes cause) (same : s.SameEvents u)
    (chans : ∀ ch, closes ch → (u.chan ch).openEvent = (s.chan ch).openEvent ∧ (u.chan ch).fs = (s.chan ch).fs ∧
      (u.chan ch).period.map Period.rules = (s.chan ch).period.map Period.rules) : EventsClosed s t closes cause where
  sequence := h.sequence.trans same.sequence
  records := by
    have records := h.records
    rw [same.list] at records
    refine records.imp fun r x ⟨stays, ends⟩ => ⟨fun other => stays fun ch e named opened => other ch e named ((chans ch named).1 ▸ opened), ?_⟩
    rintro ⟨ch, e, named, opened, sequence⟩
    obtain ⟨ch, e, k, named, opened, rest, is, cause', figures⟩ := ends ⟨ch, e, named, (chans ch named).1.trans opened, sequence⟩
    obtain ⟨event, fs, period⟩ := chans ch named
    exact ⟨ch, e, k, named, event ▸ opened, rest, is, cause', figures.congr fs.symm period.symm⟩
  notice := by
    rintro ⟨ch, e, named, opened⟩
    obtain ⟨ch, e, named, opened, told⟩ := h.notice ⟨ch, e, named, (chans ch named).1.trans opened⟩
    exact ⟨ch, e, named, (chans ch named).1 ▸ opened, told⟩
  none shut q := (h.none (fun ch named => (chans ch named).1.trans (shut ch named)) q).trans (same.notices q)

theorem EventsClosed.after {s u t : State} {closes : Ch → Prop} {cause : EndCause} (h : EventsClosed s u closes cause) (same : u.SameEvents t) :
    EventsClosed s t closes cause where
  sequence := same.sequence.trans h.sequence
  records := by rw [same.list]; exact h.records
  notice opens := by
    obtain ⟨ch, e, named, opened, told⟩ := h.notice opens
    exact ⟨ch, e, named, opened, fun q => by rw [same.notices]; exact told q⟩
  none shut q := (same.notices q).trans (h.none shut q)

/-- R131: a slice that is not VALID closes an open event, and the continuation flag is clear. -/
theorem State.detectSlice_invalid {s : State} {ch : Ch} {r : SliceResult} (invalid : r.cls ≠ .valid) :
    s.detectSlice ch r = (s.closeEvent ch .interrupted).setContinuation ch false := by
  unfold State.detectSlice
  dsimp only
  cases opened : (s.chan ch).openEvent with
  | none =>
    have opens : r.opens (s.chan ch).trigger = false := by
      unfold SliceResult.opens; rw [beq_eq_false_iff_ne.2 invalid]; rfl
    have shut : s.closeEvent ch .interrupted = s := by unfold State.closeEvent; dsimp only; rw [opened]
    rw [opens, shut]
    rfl
  | some e => dsimp only; rw [if_pos invalid]

theorem State.settleProgress_events (s : State) (ch : Ch) : s.SameEvents (s.settleProgress ch) := by
  obtain ⟨-, -, -, -, -, -, -, -, -, -, -, list, seq, -⟩ := s.settleProgress_concludes ch
  refine ⟨list, seq, fun q => ?_⟩
  have completed := (State.SliceFrame.completeRun s ch).notices q .event (by decide)
  have enters (u : State) (c : Channel) : ((u.setChan ch c).port q).notice .event = (u.port q).notice .event := by rw [State.port_setChan]
  have returns : ((s.returnToOff ch).port q).notice .event = (s.port q).notice .event := by
    rw [State.returnToOff, State.notifyChannel, State.port_notifyBoth, PortState.notice_notify, if_neg (by decide), State.port_setChan]
  unfold State.settleProgress
  dsimp only
  split
  case h_4 | h_5 | h_7 => split <;> exact enters _ _
  case h_6 =>
    split
    · exact (enters _ _).trans completed
    · exact enters _ _
  case h_8 =>
    split
    · exact returns
    · exact enters _ _
  all_goals rfl

theorem State.closeWaiting_events (s : State) (ch : Ch) : s.SameEvents (s.closeWaiting ch) :=
  have frame := State.CloseFrame.closeWaiting s ch
  ⟨frame.eventList, frame.eventSeq, fun q => frame.notices q .event (.inl rfl)⟩

/-- R11: after the detector, the end of a slice leaves the events. -/
theorem State.endSlice_events (s : State) (ch : Ch) : (s.detected ch (s.sliceResult ch false)).SameEvents (s.endSlice ch) ∧
    ((s.endSlice ch).chan ch).openEvent = ((s.detected ch (s.sliceResult ch false)).chan ch).openEvent ∧
    ((s.endSlice ch).chan ch).continuation = ((s.detected ch (s.sliceResult ch false)).chan ch).continuation ∧ (s.endSlice ch).wx = s.wx := by
  obtain ⟨event, continuation, list, seq, notices, wx⟩ := s.handOn_events ch (s.sliceResult ch false)
  obtain ⟨concluded, -, -, -, -, -, -, -, -, -, -, -, -, wx'⟩ := (s.handOn ch (s.sliceResult ch false)).settleProgress_concludes ch
  have closed := ((s.sliceHanded ch).chan_closeWaiting ch).2
  unfold Channel.Closed at closed
  rw [State.endSlice_eq]
  refine ⟨State.SameEvents.trans ⟨list, seq, notices⟩ ((State.settleProgress_events _ ch).trans (State.closeWaiting_events _ ch)), ?_, ?_,
    (State.CloseFrame.closeWaiting _ ch).wx.trans (wx'.trans wx)⟩
  · rw [closed, ← event, State.sliceHanded, concluded]
  · rw [closed, ← continuation, State.sliceHanded, concluded]

/-- R131: the end of a slice that is not VALID closes the channel's event INTERRUPTED. -/
theorem State.EngineIs.interrupts {s u : State} {ch : Ch} {e : Engine} (h : s.EngineIs u ch e) (invalid : u.sliceClass ch false ≠ .valid) :
    ((u.endSlice ch).chan ch).openEvent = none ∧ ((u.endSlice ch).chan ch).continuation = false ∧
    EventsClosed s (u.endSlice ch) (· = ch) .interrupted := by
  have class_ : (u.sliceResult ch false).cls ≠ .valid := by rw [State.sliceResult, SliceAcc.result_cls]; exact invalid
  have kept : (u.chan ch).countSlice (u.sliceResult ch false) = u.chan ch := Channel.countSlice_other (.inl class_)
  obtain ⟨same, event, continuation, -⟩ := u.endSlice_events ch
  have detected : u.detected ch (u.sliceResult ch false) = (u.closeEvent ch .interrupted).setContinuation ch false := by
    rw [State.detected, kept, State.setChan_chan, State.detectSlice_invalid class_]
  rw [detected] at same event continuation
  rw [event, continuation, State.setContinuation, State.chan_setChan_self, State.closeEvent_chan]
  refine ⟨rfl, rfl, ?_⟩
  have closed := (u.closeEvent_closes ch .interrupted).before h.events (by rintro c rfl; rw [h.chan]; exact ⟨rfl, rfl, rfl⟩)
  exact closed.after (State.SameEvents.trans (t := (u.closeEvent ch .interrupted).setContinuation ch false)
    ⟨rfl, rfl, fun q => by rw [State.setContinuation, State.port_setChan]⟩ same)

/-- R7, R10, R40: the phase and the kept result of a channel whose slice has ended. -/
theorem State.endSlice_phase (s : State) (ch : Ch) (runs : (s.chan ch).state ≠ .off) :
    let c := s.chan ch
    let t := s.endSlice ch
    (t.chan ch).state = c.nextPhase.1 ∧ (t.chan ch).settle = c.nextPhase.2 ∧
    (c.nextPhase.1 ≠ .off → (t.chan ch).engine.kept =
      some ⟨s.sliceClass ch false, if s.sliceClass ch false = .missing then 0 else c.engine.slice.sumA⟩) ∧
    (c.nextPhase.1 = .off → (t.chan ch).engine.kept = none ∧
      ∀ q, ((t.port q).notice .channel).flag = true ∧ ((t.port q).notice .channel).detail = ⟨ch, 3, 0⟩) := by
  intro c t
  let r := s.sliceResult ch false
  have handed := s.handOn_chan ch r
  have phase : ((s.handOn ch r).chan ch).nextPhase = c.nextPhase := by
    unfold Channel.nextPhase; rw [handed]
  have phased := (s.handOn ch r).settleProgress_phase ch (by rw [handed]; exact runs)
  rw [phase] at phased
  have closed := ((s.sliceHanded ch).chan_closeWaiting ch).2
  unfold Channel.Closed at closed
  have engine : (t.chan ch).engine.kept = ((s.sliceHanded ch).chan ch).engine.kept := by
    show ((s.endSlice ch).chan ch).engine.kept = _; rw [State.endSlice_eq, closed]
  refine ⟨?_, ?_, fun goesOn => ?_, fun stops => ⟨?_, fun q => ?_⟩⟩
  · show ((s.endSlice ch).chan ch).state = _; rw [State.endSlice_eq, closed]; exact phased.state
  · show ((s.endSlice ch).chan ch).settle = _; rw [State.endSlice_eq, closed]; exact phased.settle
  · have kept : ((s.sliceHanded ch).chan ch).engine.kept = some ⟨r.cls, r.sumA⟩ := by
      rw [State.sliceHanded, phased.goesOn goesOn, handed]; rfl
    rw [engine, kept]
    dsimp only [r]
    rw [State.sliceResult, SliceAcc.result_cls, SliceAcc.result_sumA]
  · rw [engine, State.sliceHanded, (phased.stops stops).1]; rfl
  · show (((s.endSlice ch).port q).notice .channel).flag = true ∧ (((s.endSlice ch).port q).notice .channel).detail = _
    rw [State.endSlice_eq, (State.CloseFrame.closeWaiting _ ch).notices q .channel (.inr (.inl rfl))]
    exact (phased.stops stops).2 q

/-! ### Frame-timed and crystal-timed slices -/

theorem State.EngineIs.blockEnd (s : State) (ch : Ch) (wx : Bool) :
    s.EngineIs ({ s with wx := wx }.blockEnd ch) ch ((s.blockEnd ch).chan ch).engine := by
  have sampled : { s with wx := wx }.blockEnd ch = { s.blockEnd ch with wx := wx } := by
    have chan : { s with wx := wx }.chan ch = s.chan ch := rfl
    unfold State.blockEnd
    rw [chan]
    by_cases due : (s.chan ch).blockDue = true
    · rw [if_pos due, if_pos due]; rfl
    · rw [if_neg due, if_neg due]
  have ends : s.blockEnd ch = s.setChan ch { s.chan ch with engine := ((s.blockEnd ch).chan ch).engine } := by
    unfold State.blockEnd
    split
    · rw [State.chan_setChan_self]
    · exact (State.setChan_chan s ch).symm
  exact ⟨wx, sampled.trans (congrArg (fun u : State => { u with wx := wx }) ends)⟩

theorem State.blockEnd_wx (s : State) (ch : Ch) : (s.blockEnd ch).wx = s.wx := by
  unfold State.blockEnd; split <;> rfl

theorem State.blockEnd_sumA (s : State) (ch : Ch) : ((s.blockEnd ch).chan ch).engine.slice.sumA = (s.chan ch).engine.slice.sumA := by
  unfold State.blockEnd
  split
  · rw [State.chan_setChan_self]; rfl
  · rfl

theorem State.EngineIs.refl (s : State) (ch : Ch) : s.EngineIs s ch (s.chan ch).engine := ⟨s.wx, by rw [State.setChan_chan]⟩

/-- R12: the class of a slice that ends on a PRESENT line. -/
theorem State.sliceClass_present {s : State} {ch : Ch} (present : (s.rx ch.line).present = true) :
    ((s.chan ch).state = .settling ∨ (∃ r, (s.chan ch).state = .calibrating .calRecover r) → s.sliceClass ch false = .settling) ∧
    ((∃ r, (s.chan ch).state = .calibrating .calSettle r ∨ (s.chan ch).state = .calibrating .calMeasure r) → s.sliceClass ch false = .calibration) ∧
    ((s.chan ch).state = .measuring → s.sliceClass ch false =
      if (s.chan ch).excluded = true ∨ (s.wx = true ∧ maskHas s.commissioning.weather ch = true) then .excluded else .valid) := by
  have line : (false || !s.linePresent ch) = false := by rw [State.linePresent, present]; rfl
  unfold State.sliceClass
  rw [line]
  simp only [Bool.false_eq_true, if_false]
  refine ⟨?_, ?_, fun state => ?_⟩
  · rintro (state | ⟨r, state⟩) <;> rw [state]
  · rintro ⟨r, state | state⟩ <;> rw [state]
  · rw [state]
    simp only [State.measuredClass, State.weatherExcluded, Bool.or_eq_true, Bool.and_eq_true]

theorem State.sliceClass_missing {s : State} {ch : Ch} : s.sliceClass ch false = .missing ↔ (s.rx ch.line).present = false := by
  have measured : s.measuredClass ch ≠ .missing := by unfold State.measuredClass; split <;> decide
  unfold State.sliceClass State.linePresent
  cases (s.rx ch.line).present
  · exact ⟨fun _ => rfl, fun _ => rfl⟩
  · simp only [Bool.false_or, Bool.not_true, Bool.false_eq_true, if_false, reduceCtorEq, iff_false]
    cases (s.chan ch).state with
    | calibrating x r => cases x <;> exact nofun
    | settling => exact nofun
    | _ => exact measured

theorem Channel.nextPhase_measuring {c : Channel} (state : c.state = .measuring) : c.nextPhase = (.measuring, c.settle) := by
  unfold Channel.nextPhase; rw [state]

/-- R11, R25: a slice that has its 6000 frames ends as `endSlice` has it, after the block end that goes with it. -/
theorem State.frameSliceEndAt_due {s : State} {ch : Ch} (wx : Bool) (due : s.sliceDue ch = true) :
    ∃ u, s.frameSliceEndAt ch wx = u.endSlice ch ∧ s.EngineIs u ch ((s.blockEnd ch).chan ch).engine ∧ u.wx = wx := by
  refine ⟨{ s with wx := wx }.blockEnd ch, ?_, .blockEnd s ch wx, State.blockEnd_wx _ _⟩
  have due' : { s with wx := wx }.sliceDue ch = true := due
  unfold State.frameSliceEndAt State.frameSliceEnd
  rw [if_pos due, if_pos due']

theorem State.frameSliceEndAt_idle {s : State} {ch : Ch} {wx : Bool} (idle : s.sliceDue ch = false) : s.frameSliceEndAt ch wx = s := by
  unfold State.frameSliceEndAt
  rw [idle]
  rfl

/-- Settles O26. -/
theorem frameSlicesEnd : Obligations.FrameSlicesEnd := by
  intro ch wx s
  refine ⟨fun idle => ?_, fun running on present full => ?_⟩
  · refine congrArg _ (State.frameSliceEndAt_idle (Bool.eq_false_iff.2 fun due => ?_))
    obtain ⟨running, on, present, full⟩ := (s.sliceDue_iff ch).1 due
    rcases idle with idle | idle | idle | idle
    · rw [running] at idle; cases idle
    · exact on idle
    · rw [present] at idle; cases idle
    · omega
  · have due := (s.sliceDue_iff ch).2 ⟨running, on, present, full⟩
    obtain ⟨u, ends, is, wx'⟩ := State.frameSliceEndAt_due wx due
    have state : (u.chan ch).state = (s.chan ch).state := by rw [is.chan]
    obtain ⟨settling, calibration, measured⟩ := State.sliceClass_present (s := u) (ch := ch) (by rw [is.rx]; exact present)
    rw [state] at settling calibration measured
    obtain ⟨phase, settle, kept, dropped⟩ := u.endSlice_phase ch (state ▸ on)
    refine ⟨u.endSlice ch, u.sliceClass ch false, congrArg Host.Outcome.next ends, (u.endSlice_events ch).2.2.2.trans wx', is.sliceEnded rfl, settling, calibration, ?_, fun goesOn => ?_,
      fun stops => ?_, is.interrupts, ?_⟩
    · rw [wx', is.readied.frame.commissioning, is.chan] at measured
      exact measured
    · rw [phase] at goesOn
      have there : u.sliceClass ch false ≠ .missing := fun h => by
        rw [State.sliceClass_missing, is.rx, present] at h; cases h
      rw [kept goesOn, if_neg there, is.chan, State.blockEnd_sumA]
    · rw [phase] at stops
      exact (dropped stops).1
    · intro measuring
      have next := Channel.nextPhase_measuring (c := u.chan ch) (state.trans measuring)
      rw [phase, settle, next, is.chan]
      exact ⟨rfl, rfl⟩

theorem Channel.nextPhase_faulted {c : Channel} (state : c.state = .faulted) : c.nextPhase = (.faulted, c.settle) := by
  unfold Channel.nextPhase; rw [state]

/-- R11, R45, R131: the end of a crystal-timed slice. -/
theorem State.crystalSliceEnd_does (u : State) (ch : Ch) :
    (u.running = false ∨ (u.chan ch).state = .off ∨ (u.rx ch.line).present = true → u.crystalSliceEnd ch = u) ∧
    (u.running = true → (u.chan ch).state ≠ .off → (u.rx ch.line).present = false →
      u.crystalSliceEnd ch = u.endSlice ch ∧ let t := u.endSlice ch
      SliceEnded u t ch (u.chan ch).engine .missing ∧
        t.wx = u.wx ∧ (t.chan ch).openEvent = none ∧ (t.chan ch).continuation = false ∧ EventsClosed u t (· = ch) .interrupted ∧
        ((u.chan ch).state = .faulted → (t.chan ch).state = .faulted ∧ (t.chan ch).settle = (u.chan ch).settle ∧
          (t.chan ch).engine.kept = some ⟨.missing, 0⟩ ∧ t.calUnit = u.calUnit)) := by
  have due : (u.running && (u.chan ch).state != .off && !u.linePresent ch) = true ↔
      u.running = true ∧ (u.chan ch).state ≠ .off ∧ (u.rx ch.line).present = false := by
    unfold State.linePresent
    simp only [Bool.and_eq_true, bne_iff_ne, Bool.not_eq_true', and_assoc]
  refine ⟨fun idle => ?_, fun running on lost => ⟨?_, ?_⟩⟩
  · unfold State.crystalSliceEnd
    refine if_neg fun h => ?_
    obtain ⟨running, on, lost⟩ := due.1 h
    rcases idle with idle | idle | idle
    · rw [running] at idle; cases idle
    · exact on idle
    · rw [lost] at idle; cases idle
  · unfold State.crystalSliceEnd
    exact if_pos (due.2 ⟨running, on, lost⟩)
  · have missing := State.sliceClass_missing.2 lost
    have is := State.EngineIs.refl u ch
    have ended := is.sliceEnded missing
    obtain ⟨event, continuation, closed⟩ := is.interrupts (by rw [missing]; decide)
    obtain ⟨phase, settle, kept, -⟩ := u.endSlice_phase ch on
    refine ⟨ended, (u.endSlice_events ch).2.2.2, event, continuation, closed, fun faulted => ?_⟩
    have next := Channel.nextPhase_faulted faulted
    refine ⟨by rw [phase, next], by rw [settle, next], ?_, ended.missed nofun ?_⟩
    · rw [kept (by rw [next]; exact nofun), missing]
      rfl
    · rintro ⟨⟨r, measure⟩, -⟩
      rw [faulted] at measure
      cases measure

/-- Settles O27. -/
theorem crystalSlicesEnd : Obligations.CrystalSlicesEnd := by
  intro ch s
  have running := s.settle_running
  obtain ⟨idle, ends⟩ := s.settle.crystalSliceEnd_does ch
  rw [running] at idle ends
  refine ⟨fun h => congrArg Host.Outcome.next (idle h), fun on runs lost => ?_⟩
  obtain ⟨is, done⟩ := ends on runs lost
  exact ⟨_, congrArg Host.Outcome.next is, done⟩

/-! ### The slice ends that complete a settling or a phase -/

/-- R7, R10: a slice end that is due takes its channel to the next phase. -/
theorem State.frameSliceEndAt_phase {s : State} {ch : Ch} (wx : Bool) (due : s.sliceDue ch = true) {x : ChannelState × Nat}
    (next : (s.chan ch).nextPhase = x) : ((s.frameSliceEndAt ch wx).chan ch).state = x.1 ∧ ((s.frameSliceEndAt ch wx).chan ch).settle = x.2 ∧
    (x.1 = .off → ∀ q, (((s.frameSliceEndAt ch wx).port q).notice .channel).flag = true ∧
      (((s.frameSliceEndAt ch wx).port q).notice .channel).detail = ⟨ch, 3, 0⟩) := by
  obtain ⟨u, ends, is, -⟩ := State.frameSliceEndAt_due wx due
  obtain ⟨-, on, -⟩ := (s.sliceDue_iff ch).1 due
  have phase : (u.chan ch).nextPhase = x := by rw [← next, is.chan]; rfl
  obtain ⟨state, settle, -, stops⟩ := u.endSlice_phase ch (by rw [is.chan]; exact on)
  rw [phase] at state settle stops
  rw [ends]
  exact ⟨state, settle, fun off => (stops off).2⟩

/-- A row that names the completion of a settling or a phase of `n` slices takes the whole slice end where it is the last, and nothing otherwise. -/
theorem State.completionRow {s : State} {ch : Ch} (wx : Bool) (due : s.sliceDue ch = true) {n : Nat} {x y : ChannelState} {row : Bool}
    (next : (s.chan ch).nextPhase = if n ≤ (s.chan ch).settle + 1 then (x, 0) else (y, (s.chan ch).settle + 1))
    (named : row = decide (n ≤ (s.chan ch).settle + 1)) :
    let t := s.frameSliceEndAt ch wx
    (n ≤ (s.chan ch).settle + 1 → s.sliceEndFor ch wx row = t ∧ (t.chan ch).state = x ∧ (t.chan ch).settle = 0 ∧
      (x = .off → ∀ q, ((t.port q).notice .channel).flag = true ∧ ((t.port q).notice .channel).detail = ⟨ch, 3, 0⟩)) ∧
    ((s.chan ch).settle + 1 < n → s.sliceEndFor ch wx row = s ∧ (t.chan ch).state = y ∧ (t.chan ch).settle = (s.chan ch).settle + 1) := by
  obtain ⟨state, settle, stops⟩ := State.frameSliceEndAt_phase wx due next
  refine ⟨fun last => ?_, fun more => ?_⟩
  · rw [if_pos last] at state settle stops
    exact ⟨by rw [named, decide_eq_true last]; rfl, state, settle, stops⟩
  · rw [if_neg (by omega)] at state settle
    exact ⟨by rw [named, decide_eq_false (by omega)]; rfl, state, settle⟩

/-- Settles O29: each settling or phase goes on by `completionRow`. -/
theorem phasesComplete : Obligations.PhasesComplete := by
  intro ch wx s running present full c
  have due (on : c.state ≠ .off) : s.sliceDue ch = true := (s.sliceDue_iff ch).2 ⟨running, on, present, full⟩
  refine ⟨fun state => ?_, fun r state => ?_, fun r state => ?_⟩
  · obtain ⟨last, more⟩ := State.completionRow (row := c.settlingEnds) wx (due (by rw [state]; exact nofun)) (n := 16) (x := .measuring) (y := .settling)
      (by unfold Channel.nextPhase; rw [state]) (by unfold Channel.settlingEnds Channel.slicesReach; rw [state]; rfl)
    refine ⟨fun h => ?_, fun h => ?_⟩
    · obtain ⟨is, at_, settle, -⟩ := last (Nat.succ_le_succ h)
      exact ⟨_, congrArg Host.Outcome.next is, rfl, at_, settle⟩
    · obtain ⟨is, at_, settle⟩ := more (Nat.succ_lt_succ h)
      exact ⟨congrArg Host.Outcome.next is, _, rfl, at_, settle⟩
  · obtain ⟨last, more⟩ := State.completionRow (row := c.calSettleEnds) wx (due (by rw [state]; exact nofun)) (n := 40)
      (x := .calibrating .calMeasure r) (y := .calibrating .calSettle r) (by unfold Channel.nextPhase; rw [state])
      (by unfold Channel.calSettleEnds Channel.slicesReach; rw [state]; cases r <;> rfl)
    refine ⟨fun h => ?_, fun h => ?_⟩
    · obtain ⟨is, at_, settle, -⟩ := last (Nat.succ_le_succ h)
      exact ⟨_, congrArg Host.Outcome.next is, rfl, at_, settle⟩
    · obtain ⟨is, at_, settle⟩ := more (Nat.succ_lt_succ h)
      exact ⟨congrArg Host.Outcome.next is, _, rfl, at_.trans state.symm, settle⟩
  · obtain ⟨last, more⟩ := State.completionRow (row := c.calRecoverEnds) wx (due (by rw [state]; exact nofun)) (n := 16)
      (x := if r = .off then .off else .settling) (y := .calibrating .calRecover r) (by unfold Channel.nextPhase; rw [state]; cases r <;> rfl)
      (by unfold Channel.calRecoverEnds Channel.slicesReach; rw [state]; cases r <;> rfl)
    refine ⟨fun h => ?_, fun h => ?_⟩
    · obtain ⟨is, at_, settle, stops⟩ := last (Nat.succ_le_succ h)
      exact ⟨_, congrArg Host.Outcome.next is, rfl, at_, settle, fun off => stops (if_pos off)⟩
    · obtain ⟨is, at_, settle⟩ := more (Nat.succ_lt_succ h)
      exact ⟨congrArg Host.Outcome.next is, _, rfl, at_.trans state.symm, settle⟩

end Sys2Proof.Machine


/-! The end of a calibration run (O30). -/

namespace Sys2Proof.Machine

theorem within_iff {lo hi x : Int} : within lo hi x = true ↔ lo ≤ x ∧ x ≤ hi := by
  unfold within; simp

theorem raiseVoid_eq (o : LevelOrVoid) (l : Level) : raiseVoid o l = some (max (o.getD l) l) := by
  cases o <;> simp [raiseVoid]

theorem lowerVoid_eq (o : LevelOrVoid) (l : Level) : lowerVoid o l = some (min (o.getD l) l) := by
  cases o <;> simp [lowerVoid]

/-- R118: the outcome of a run with the given delta, new FS, spread and overload, the first that applies. -/
def outcomeOf (loud : Bool) (spread delta newFs : Level) : CalOutcome :=
  if loud then .overload else if 30 < spread then .unstable
  else if delta < -300 ∨ 300 < delta ∨ newFs < 10000 ∨ 15000 < newFs then .outOfRange
  else if -50 ≤ delta ∧ delta ≤ 50 then .applied else .pending

/-- R118: what a run forms of its accumulators. -/
theorem CalRun.figures_eq {x : CalRun} {top bottom : Level} (greatest : x.greatestLZ = some top) (least : x.leastLZ = some bottom)
    (fs reference : Level) :
    let delta := reference - (convert fs x.zSum 960000).level
    x.figures fs reference = ⟨(convert fs x.zSum 960000).level, delta, fs + delta, outcomeOf x.overload (top - bottom) delta (fs + delta)⟩ := by
  unfold CalRun.figures outcomeOf
  rw [greatest, least]
  dsimp only [Option.getD_some]
  generalize (convert fs x.zSum 960000).level = meas
  have range : (!within (-300) 300 (reference - meas) || !within 10000 15000 (fs + (reference - meas))) = true ↔
      (reference - meas < -300 ∨ 300 < reference - meas ∨ fs + (reference - meas) < 10000 ∨ 15000 < fs + (reference - meas)) := by
    rw [Bool.or_eq_true, Bool.not_eq_true', Bool.not_eq_true', ← Bool.not_eq_true, ← Bool.not_eq_true, within_iff, within_iff]
    unfold Level at *
    omega
  congr 1
  simp only [range, within_iff]

/-- R119: what the outcome of a run leaves on its channel. -/
theorem Channel.takeOutcome_does (c : Channel) (f : RunFigures) (n : MinuteOrAbsent) :
    c.takeOutcome f n = { c with
      calRecord := { c.calRecord with outcome := f.outcome, meas := some f.meas, delta := some f.delta, minute := n, newFs := some f.newFs }
      pendingResult := if f.outcome = .pending then some ⟨c.calRecord.serial, f.newFs, 0⟩ else c.pendingResult
      pendingFs := if f.outcome = .applied then some f.newFs else c.pendingFs } := by
  obtain ⟨meas, delta, newFs, outcome⟩ := f
  unfold Channel.takeOutcome
  cases outcome <;> rfl

theorem State.completeRun_does {s : State} {ch : Ch} {x : CalRun} (run : s.calUnit.run = some x) (named : x.ch = ch) :
    (s.completeRun ch).calUnit = { s.calUnit with run := none } ∧
    (s.completeRun ch).chan ch =
      (s.chan ch).takeOutcome (x.figures (s.chan ch).fs ((s.chan ch).calRecord.reference.getD 0)) s.minuteNow ∧
    ∀ q, (((s.completeRun ch).port q).notice .cal).flag = true ∧ (((s.completeRun ch).port q).notice .cal).detail = ⟨ch, 0, x.serial.setWidth 32⟩ := by
  unfold State.completeRun
  rw [run]
  dsimp only
  rw [if_pos named]
  refine ⟨rfl, State.chan_setChan_self _ _ _, fun q => ?_⟩
  rw [State.notifyCal, State.port_notifyBoth, PortState.notice_notify, if_pos rfl]
  exact ⟨rfl, rfl⟩

/-- R117: the unit takes in a slice of CAL-MEASURE of its run's own channel. -/
theorem State.calTakeSlice_takes {s : State} {ch : Ch} {x : CalRun} {r : SliceResult} (run : s.calUnit.run = some x) (named : x.ch = ch)
    (measure : (s.chan ch).state.isMeasure = true) (class_ : r.cls = .calibration) :
    (s.calTakeSlice ch r).calUnit = { s.calUnit with run := some (x.takeSlice r) } := by
  unfold State.calTakeSlice
  rw [run]
  dsimp only
  rw [if_pos ⟨named, measure, class_⟩]

section

variable {s : State} {ch : Ch} {back : ReturnState} {x : CalRun} {r : SliceResult}

theorem State.handOn_takes (run : s.calUnit.run = some x) (named : x.ch = ch) (state : (s.chan ch).state = .calibrating .calMeasure back)
    (class_ : r.cls = .calibration) : (s.handOn ch r).calUnit = { s.calUnit with run := some (x.takeSlice r) } := by
  have unit : (s.detected ch r).calUnit = s.calUnit := State.detectSlice_calUnit _ _ _
  have measure : ((s.detected ch r).chan ch).state.isMeasure = true := by
    have detected : ((s.setChan ch ((s.chan ch).countSlice r)).chan ch).Detected ((s.detected ch r).chan ch) := State.detectSlice_chan _ _ _
    unfold Channel.Detected at detected
    rw [detected, State.chan_setChan_self, Channel.countSlice_eq, state]
    rfl
  have takes := State.calTakeSlice_takes (unit ▸ run) named measure class_
  rw [unit] at takes
  exact takes

/-- R117: a slice of CAL-MEASURE before the last is taken in, and no more. -/
theorem State.endSlice_measures (run : s.calUnit.run = some x) (named : x.ch = ch) (state : (s.chan ch).state = .calibrating .calMeasure back)
    (class_ : s.sliceClass ch false = .calibration) (more : (s.chan ch).settle < 159) :
    (s.endSlice ch).calUnit = { s.calUnit with run := some (x.takeSlice (s.sliceResult ch false)) } := by
  have cls : (s.sliceResult ch false).cls = .calibration := by rw [State.sliceResult, SliceAcc.result_cls, class_]
  have goesOn : ¬ (s.handOn ch (s.sliceResult ch false)).completesRun ch := fun h => by
    have := ((s.handOn_completesRun ch _).1 h).2.1
    omega
  rw [State.endSlice_eq, (State.CloseFrame.closeWaiting _ ch).calUnit, State.sliceHanded, (State.settleProgress_leaves _ ch goesOn).2.2.1,
    State.handOn_takes run named state cls]

/-- R118, R119: the last slice of CAL-MEASURE completes the run that took it in. -/
theorem State.sliceHanded_completes (run : s.calUnit.run = some x) (named : x.ch = ch) (state : (s.chan ch).state = .calibrating .calMeasure back)
    (class_ : s.sliceClass ch false = .calibration) (last : 159 ≤ (s.chan ch).settle) {meas delta newFs : Level} {outcome : CalOutcome}
    (formed : (x.takeSlice (s.sliceResult ch false)).figures (s.chan ch).fs ((s.chan ch).calRecord.reference.getD 0) =
      ⟨meas, delta, newFs, outcome⟩) :
    let c := s.chan ch
    let t := s.sliceHanded ch
    t.calUnit = { s.calUnit with run := none } ∧
    (t.chan ch).calRecord = { c.calRecord with
      outcome := outcome, meas := some meas, delta := some delta, minute := s.minuteNow, newFs := some newFs } ∧
    (t.chan ch).pendingResult = (if outcome = .pending then some ⟨c.calRecord.serial, newFs, 0⟩ else c.pendingResult) ∧
    (t.chan ch).pendingFs = (if outcome = .applied then some newFs else c.pendingFs) ∧ (t.chan ch).fs = c.fs ∧
    ∀ q, ((t.port q).notice .cal).flag = true ∧ ((t.port q).notice .cal).detail = ⟨ch, 0, x.serial.setWidth 32⟩ := by
  intro c t
  have cls : (s.sliceResult ch false).cls = .calibration := by rw [State.sliceResult, SliceAcc.result_cls, class_]
  have unit := State.handOn_takes run named state cls
  have handed := s.handOn_chan ch (s.sliceResult ch false)
  have now : (s.handOn ch (s.sliceResult ch false)).minuteNow = s.minuteNow := State.minuteNow_congr (State.SameFrame.handOn s ch _).clock
  have is : t = ((s.handOn ch (s.sliceResult ch false)).completeRun ch).enter ch (.calibrating .calRecover back) := by
    show State.settleProgress _ ch = _
    unfold State.settleProgress
    dsimp only
    rw [handed, state]
    dsimp only
    rw [if_pos (by omega)]
  obtain ⟨idle, chan, cal⟩ := State.completeRun_does (s := s.handOn ch (s.sliceResult ch false)) (x := x.takeSlice (s.sliceResult ch false)) (by rw [unit]) named
  rw [now, handed] at chan
  dsimp only at chan
  rw [formed, Channel.takeOutcome_does] at chan
  rw [is, State.enter, State.chan_setChan_self, chan]
  refine ⟨?_, rfl, rfl, rfl, rfl, fun q => ?_⟩
  · show ((s.handOn ch _).completeRun ch).calUnit = _
    rw [idle, unit]
  · rw [State.port_setChan]
    exact cal q

end

/-- R124: a close that makes no switch leaves the FS and the switch asked for. -/
theorem State.closeWaiting_keepsFs {s : State} {ch : Ch} (none' : ∀ w, (s.chan ch).waiting = some w → w.makesSwitch = false) :
    ((s.closeWaiting ch).chan ch).fs = (s.chan ch).fs ∧ ((s.closeWaiting ch).chan ch).pendingFs = (s.chan ch).pendingFs := by
  cases waiting : (s.chan ch).waiting with
  | none => rw [State.closeWaiting_none waiting]; exact ⟨rfl, rfl⟩
  | some w =>
    have ready : s.Readied ch (s.setChan ch { s.chan ch with waiting := none }) := .setChan s ch ⟨rfl, rfl, rfl, rfl, rfl, rfl⟩
    obtain ⟨switched, unswitched⟩ := ready.switched w
    have no : w.switch ((s.setChan ch { s.chan ch with waiting := none }).chan ch) = none := by
      unfold WaitingClose.switch; rw [none' w waiting]; rfl
    rw [State.closeWaiting_some waiting]
    exact ⟨(switched.kept no).2.1, (unswitched no).1.trans (by rw [State.chan_setChan_self])⟩

theorem State.blockEnd_slice (s : State) (ch : Ch) :
    ((s.blockEnd ch).chan ch).engine.slice.sumZ = (s.chan ch).engine.slice.sumZ ∧
    ((s.blockEnd ch).chan ch).engine.slice.causes = (s.chan ch).engine.slice.causes := by
  unfold State.blockEnd
  split
  · rw [State.chan_setChan_self]; exact ⟨rfl, rfl⟩
  · exact ⟨rfl, rfl⟩

/-- R31, R117: what a CALIBRATION slice adds to the accumulators of a run. -/
theorem CalRun.takeSlice_eq (x : CalRun) (a : SliceAcc) (fs : Level) :
    let lz := (convert fs a.sumZ 6000).level
    x.takeSlice (a.result .calibration fs) =
      ⟨x.ch, x.serial, x.zSum + a.sumZ, x.count + 1, some (max (x.greatestLZ.getD lz) lz), some (min (x.leastLZ.getD lz) lz),
        x.overload || a.causes.overload⟩ := by
  intro lz
  have level : (a.result .calibration fs).lzeq = some lz := rfl
  have rest : (a.result .calibration fs).sumZ = a.sumZ ∧ (a.result .calibration fs).causes.overload = a.causes.overload := ⟨rfl, rfl⟩
  unfold CalRun.takeSlice
  rw [level, rest.1, rest.2, Option.getD_some, raiseVoid_eq, lowerVoid_eq]

/-- Settles O30. -/
theorem runsComplete : Obligations.RunsComplete := by
  intro ch wx back x reference s running present full state run named recorded switchless c lz zSum top bottom loud
  have due : s.sliceDue ch = true := (s.sliceDue_iff ch).2 ⟨running, by rw [state]; exact nofun, present, full⟩
  obtain ⟨last, more⟩ := State.completionRow (row := c.calMeasureEnds) wx due (n := 160) (x := .calibrating .calRecover back)
    (y := .calibrating .calMeasure back) (by unfold Channel.nextPhase; rw [state])
    (by unfold Channel.calMeasureEnds Channel.slicesReach; rw [state]; rfl)
  obtain ⟨u, ends, is, -⟩ := State.frameSliceEndAt_due wx due
  have class_ : u.sliceClass ch false = .calibration := (State.sliceClass_present (by rw [is.rx]; exact present)).2.1 ⟨back, .inr (by rw [is.chan]; exact state)⟩
  have takes : x.takeSlice (u.sliceResult ch false) = ⟨ch, x.serial, zSum, x.count + 1, some top, some bottom, loud⟩ := by
    rw [State.sliceResult, class_, is.chan, CalRun.takeSlice_eq, named, (s.blockEnd_slice ch).1, (s.blockEnd_slice ch).2]
  have run' : u.calUnit.run = some x := by rw [is.calUnit]; exact run
  have state' : (u.chan ch).state = .calibrating .calMeasure back := by rw [is.chan]; exact state
  have settle' : (u.chan ch).settle = c.settle := by rw [is.chan]
  refine ⟨fun h => ?_, fun h => ?_⟩
  · obtain ⟨stays, at_, settle⟩ := more (Nat.succ_lt_succ h)
    refine ⟨congrArg Host.Outcome.next stays, _, rfl, at_.trans state.symm, settle, ?_⟩
    rw [ends, State.endSlice_measures run' named state' class_ (by omega), is.calUnit, takes]
  · intro meas delta outcome
    obtain ⟨completes, at_, settle, -⟩ := last (Nat.succ_le_succ h)
    have now : u.minuteNow = if s.clock.set then some s.clock.minute else none := State.minuteNow_congr is.readied.frame.clock
    have figures : (x.takeSlice (u.sliceResult ch false)).figures (u.chan ch).fs ((u.chan ch).calRecord.reference.getD 0) =
        ⟨meas, delta, c.fs + delta, outcome⟩ := by
      rw [takes, is.chan]
      show CalRun.figures _ c.fs (c.calRecord.reference.getD 0) = _
      rw [recorded]
      exact CalRun.figures_eq rfl rfl c.fs reference
    obtain ⟨idle, record, result, switch, fs, cal⟩ := State.sliceHanded_completes run' named state' class_ (settle' ▸ h) figures
    rw [now, is.chan] at record
    rw [is.chan] at result switch
    have closed := ((u.sliceHanded ch).chan_closeWaiting ch).2
    unfold Channel.Closed at closed
    have waiting : ((u.sliceHanded ch).chan ch).waiting = c.waiting := by rw [(u.sliceHanded_chan ch).2.2.1, is.chan]
    have switchless' : ∀ w, ((u.sliceHanded ch).chan ch).waiting = some w → w.makesSwitch = false := fun w h => switchless w (waiting ▸ h)
    obtain ⟨keepsFs, keepsSwitch⟩ := State.closeWaiting_keepsFs switchless'
    refine ⟨s.frameSliceEndAt ch wx, congrArg Host.Outcome.next completes, rfl, at_, settle, ?_⟩
    have ended := is.sliceEnded class_
    rw [ends]
    rw [State.endSlice_eq] at ended ⊢
    refine ⟨?_, ?_, ?_, keepsSwitch.trans switch, ?_, fun w waits => ?_, fun q => ?_⟩
    · rw [(State.CloseFrame.closeWaiting _ ch).calUnit, idle, is.calUnit]
    · rw [closed]; exact record
    · rw [closed]; exact result
    · rw [keepsFs, fs, is.chan]
    · obtain ⟨m, p, taken, ⟨absent, held⟩, -, closes⟩ := ended.minute
      have period : p = c.period := by
        cases open_ : c.period with
        | none => exact absent open_
        | some q =>
          obtain ⟨y, eq, -, same⟩ := held q open_
          rw [eq, same nofun]
      exact ⟨m, taken, period ▸ closes w waits⟩
    · rw [State.closeWaiting_cal _ ch fun w h makes => absurd makes (by rw [switchless' w h]; decide)]
      exact cal q

end Sys2Proof.Machine


/-! How a VALID slice opens, carries on and closes an event (O35). -/

namespace Sys2Proof.Machine

/-! ### The detector -/

section

variable {s : State} {ch : Ch} {r : SliceResult} {l : Level}

/-- R129: with no event open, a VALID slice below the trigger only clears the continuation flag. -/
theorem State.detectSlice_quiet (shut : (s.chan ch).openEvent = none) (valid : r.cls = .valid) (level : r.lafmax = some l)
    (below : l < (s.chan ch).trigger) : s.detectSlice ch r = s.setContinuation ch false := by
  have opens : r.opens (s.chan ch).trigger = false := by
    unfold SliceResult.opens
    rw [valid, level]
    simpa using below
  unfold State.detectSlice
  dsimp only
  rw [shut, opens]
  rfl

/-- R129: with no event open, a VALID slice at or above the trigger opens one. -/
theorem State.detectSlice_opens (shut : (s.chan ch).openEvent = none) (valid : r.cls = .valid) (level : r.lafmax = some l)
    (above : (s.chan ch).trigger ≤ l) : s.detectSlice ch r = (s.openEvent ch r).setContinuation ch false := by
  have opens : r.opens (s.chan ch).trigger = true := by
    unfold SliceResult.opens
    rw [valid, level]
    simpa using above
  unfold State.detectSlice
  dsimp only
  rw [shut, opens]
  rfl

/-- R129, R134: what an opening leaves. -/
theorem State.openEvent_does (level : r.lafmax = some l) :
    ((s.openEvent ch r).chan ch).openEvent = some ⟨s.eventSeq, 1, r.sumA, l, 0, 0, 1⟩ ∧
    (s.openEvent ch r).eventSeq = s.eventSeq + 1 ∧
    (s.openEvent ch r).eventList = makeRoom s.eventList ++
      [⟨s.eventSeq, ch, (s.chan ch).minuteNo, (s.chan ch).engine.minute.duration, (s.chan ch).continuation, none⟩] ∧
    ∀ q, (((s.openEvent ch r).port q).notice .event).flag = true ∧
      (((s.openEvent ch r).port q).notice .event).detail = ⟨ch, 1, value32 s.eventSeq⟩ := by
  unfold State.openEvent
  dsimp only
  rw [level, State.chan_notifyBoth, State.chan_setChan_self]
  refine ⟨rfl, rfl, rfl, fun q => ?_⟩
  rw [State.port_notifyBoth, PortState.notice_notify, if_pos rfl]
  exact ⟨rfl, rfl⟩

/-- R130, R132: what a VALID slice makes of an open event. -/
theorem State.detectSlice_event {e x : OpenEvent} (held : (s.chan ch).openEvent = some e) (valid : r.cls = .valid)
    (taken : e.takeSlice (s.chan ch).release r = x) :
    let u := s.setChan ch { s.chan ch with openEvent := some x }
    s.detectSlice ch r = if x.fell then (u.closeEvent ch .fell).setContinuation ch false
      else if x.tooLong then (u.closeEvent ch .long).setContinuation ch true else u.setContinuation ch false := by
  unfold State.detectSlice
  dsimp only
  rw [held]
  dsimp only
  rw [if_neg (not_not.2 valid), taken]

/-- R133: what the close of an event leaves in the list and in EVENT. -/
theorem State.closeEvent_held {e : OpenEvent} (held : (s.chan ch).openEvent = some e) (cause : EndCause) :
    (s.closeEvent ch cause).eventList = s.eventList.map (fun r => if r.sequence = e.sequence then
      { r with closed := some ((s.chan ch).closeFigures e cause) } else r) ∧ (s.closeEvent ch cause).eventSeq = s.eventSeq ∧
    ∀ q, (((s.closeEvent ch cause).port q).notice .event).flag = true ∧
      (((s.closeEvent ch cause).port q).notice .event).detail = ⟨ch, 2, value32 e.sequence⟩ := by
  unfold State.closeEvent
  dsimp only
  rw [held]
  refine ⟨rfl, rfl, fun q => ?_⟩
  dsimp only
  rw [State.port_notifyBoth, PortState.notice_notify, if_pos rfl]
  exact ⟨rfl, rfl⟩

/-- R127, R130: the committed figures, the tail and the span of an event after a VALID slice. -/
theorem OpenEvent.takeSlice_eq (e : OpenEvent) (release : Level) (level : r.lafmax = some l) :
    e.takeSlice release r = ⟨e.sequence, if release ≤ l then e.count + e.tailCount + 1 else e.count,
      if release ≤ l then e.sumA + e.tailSum + r.sumA else e.sumA, if release ≤ l then max e.peak l else e.peak,
      if release ≤ l then 0 else e.tailCount + 1, if release ≤ l then 0 else e.tailSum + r.sumA, e.span + 1⟩ := by
  unfold OpenEvent.takeSlice
  rw [level]
  dsimp only [Option.getD_some]
  split <;> rfl

end

/-! ### The slice end that the detector is told of -/

/-- A channel `b` that the detector sees as it sees `a`. -/
structure Channel.Watched (a b : Channel) : Prop where
  event : b.openEvent = a.openEvent
  continuation : b.continuation = a.continuation
  trigger : b.trigger = a.trigger
  release : b.release = a.release
  number : b.minuteNo = a.minuteNo
  duration : b.engine.minute.duration = a.engine.minute.duration
  fs : b.fs = a.fs
  rules : b.period.map Period.rules = a.period.map Period.rules

theorem Channel.countSlice_rules (c : Channel) (r : SliceResult) : (c.countSlice r).period.map Period.rules = c.period.map Period.rules := by
  unfold Channel.countSlice
  split
  · next period => rw [period]; rfl
  · rfl

theorem Channel.countSlice_watched (a b : Channel) (r : SliceResult) (h : a.Watched b) : a.Watched (b.countSlice r) := by
  have rules := b.countSlice_rules r
  rw [b.countSlice_eq r] at rules ⊢
  exact ⟨h.event, h.continuation, h.trigger, h.release, h.number, h.duration, h.fs, rules.trans h.rules⟩

theorem State.blockEnd_duration (s : State) (ch : Ch) :
    ((s.blockEnd ch).chan ch).engine.minute.duration = (s.chan ch).engine.minute.duration := by
  unfold State.blockEnd
  split
  · rw [State.chan_setChan_self]; rfl
  · rfl

/-- R11, R129: the events after a slice end that is due are those the detector leaves on the slice's result. -/
theorem State.frameSliceEndAt_detects {s : State} {ch : Ch} (wx : Bool) (due : s.sliceDue ch = true) :
    let r := s.nextResult ch wx
    let t := s.frameSliceEndAt ch wx
    ∃ v, s.SameEvents v ∧ (s.chan ch).Watched (v.chan ch) ∧ (v.detectSlice ch r).SameEvents t ∧
      (t.chan ch).openEvent = ((v.detectSlice ch r).chan ch).openEvent ∧ (t.chan ch).continuation = ((v.detectSlice ch r).chan ch).continuation := by
  intro r t
  obtain ⟨u, ends, is, result⟩ : ∃ u, s.frameSliceEndAt ch wx = u.endSlice ch ∧ s.EngineIs u ch ((s.blockEnd ch).chan ch).engine ∧
      u.sliceResult ch false = s.nextResult ch wx := by
    refine ⟨{ s with wx := wx }.blockEnd ch, ?_, .blockEnd s ch wx, rfl⟩
    have due' : { s with wx := wx }.sliceDue ch = true := due
    unfold State.frameSliceEndAt State.frameSliceEnd
    rw [if_pos due, if_pos due']
  obtain ⟨same, event, continuation, -⟩ := u.endSlice_events ch
  rw [result, ← ends] at same event continuation
  refine ⟨u.setChan ch ((u.chan ch).countSlice r), is.events.trans ⟨rfl, rfl, fun q => by rw [State.port_setChan]⟩, ?_,
    same, event, continuation⟩
  rw [State.chan_setChan_self]
  refine Channel.countSlice_watched _ _ _ ?_
  rw [is.chan]
  exact ⟨rfl, rfl, rfl, rfl, rfl, s.blockEnd_duration ch, rfl, rfl⟩

theorem State.nextResult_sumA {s : State} {ch : Ch} {wx : Bool} (valid : (s.nextResult ch wx).cls = .valid) :
    (s.nextResult ch wx).sumA = (s.chan ch).engine.slice.sumA := by
  have sums : ((({ s with wx := wx } : State).blockEnd ch).chan ch).engine.slice.sumA = (s.chan ch).engine.slice.sumA := State.blockEnd_sumA _ ch
  unfold State.nextResult State.sliceResult at valid ⊢
  rw [SliceAcc.result_cls] at valid
  rw [SliceAcc.result_sumA, valid, if_neg nofun, sums]

/-- Settles O35. -/
theorem eventsOpenAndClose : Obligations.EventsOpenAndClose := by
  intro ch wx l s running present full measuring valid level c sumA
  have due : s.sliceDue ch = true := (s.sliceDue_iff ch).2 ⟨running, by rw [measuring]; exact nofun, present, full⟩
  have sums : (s.nextResult ch wx).sumA = sumA := State.nextResult_sumA valid
  obtain ⟨v, before, watched, same, event, continuation⟩ := State.frameSliceEndAt_detects wx due
  refine ⟨s.frameSliceEndAt ch wx, rfl, fun shut below => ?_, fun shut above => ?_, fun e held => ?_⟩
  · rw [State.detectSlice_quiet (watched.event.trans shut) valid level (watched.trigger ▸ below)] at same event continuation
    rw [State.setContinuation, State.chan_setChan_self] at event continuation
    exact ⟨event.trans (watched.event.trans shut), continuation, same.list.trans before.list, same.sequence.trans before.sequence,
      fun q => (same.notices q).trans (by rw [State.setContinuation, State.port_setChan]; exact before.notices q)⟩
  · rw [State.detectSlice_opens (watched.event.trans shut) valid level (watched.trigger ▸ above)] at same event continuation
    rw [State.setContinuation, State.chan_setChan_self] at event continuation
    obtain ⟨opened, sequence, list, told⟩ := State.openEvent_does (s := v) (ch := ch) level
    rw [sums, before.sequence] at opened
    rw [before.list, before.sequence, watched.number, watched.duration, watched.continuation] at list
    have list' := same.list.trans list
    refine ⟨event.trans opened, continuation, (same.sequence.trans sequence).trans (congrArg (· + 1) before.sequence),
      ⟨fun room => ?_, fun older r newer full split shut' closed => ?_⟩, fun q => ?_⟩
    · rw [list', makeRoom_keeps _ room]
    · rw [list', split, makeRoom_removes older newer r (split ▸ full) shut' closed]
    · rw [same.notices, State.setContinuation, State.port_setChan, ← before.sequence]
      exact told q
  · intro up count total peak tail closes
    have taken := OpenEvent.takeSlice_eq e c.release level
    rw [sums] at taken
    let x : OpenEvent := ⟨e.sequence, count, total, peak, tail, if up then 0 else e.tailSum + sumA, e.span + 1⟩
    let w := v.setChan ch { v.chan ch with openEvent := some x }
    have detects := State.detectSlice_event (watched.event.trans held) valid (watched.release ▸ taken : _ = x)
    have held' : (w.chan ch).openEvent = some x := by rw [State.chan_setChan_self]
    have next : s.nextEvent ch wx = some x := by
      unfold State.nextEvent
      rw [if_pos valid, show (s.chan ch).openEvent = some e from held]
      exact congrArg some taken
    have closing (o : EndCause) (is : v.detectSlice ch (s.nextResult ch wx) = (w.closeEvent ch o).setContinuation ch (o == .long)) : closes o := by
      obtain ⟨list, sequence, told⟩ := State.closeEvent_held held' o
      rw [is] at same event continuation
      rw [State.setContinuation, State.chan_setChan_self] at event continuation
      rw [State.closeEvent_chan] at event
      have figures := (w.chan ch).closeFigures_of x o
      refine ⟨event, continuation, (same.sequence.trans sequence).trans before.sequence, ⟨_, figures.congr ?_ ?_, rfl, (same.list.trans list).trans ?_⟩,
        fun q => ?_⟩
      · rw [State.chan_setChan_self]; exact watched.fs.symm
      · rw [State.chan_setChan_self]; exact watched.rules.symm
      · exact congrArg (List.map _) before.list
      · rw [same.notices, State.setContinuation, State.port_setChan]
        exact told q
    have fell : x.fell = decide (tail = 8) := rfl
    have tooLong : x.tooLong = true ↔ tail ≠ 8 ∧ e.span = 28799 := by
      unfold OpenEvent.tooLong
      rw [fell]
      simp only [Bool.and_eq_true, Bool.not_eq_true', decide_eq_false_iff_not, beq_iff_eq]
      exact and_congr_right fun _ => Nat.succ_inj (a := e.span) (b := 28799)
    have rowFell (b : Bool) (h : x.fell = b) : exec (.eventCloseFell ch wx) s = .next (s.sliceEndFor ch wx b) := by
      show Host.Outcome.next (s.sliceEndFor ch wx ((s.nextEvent ch wx).any OpenEvent.fell)) = _
      rw [next, Option.any_some, h]
    have rowLong (b : Bool) (h : x.tooLong = b) : exec (.eventCloseLong ch wx) s = .next (s.sliceEndFor ch wx b) := by
      show Host.Outcome.next (s.sliceEndFor ch wx ((s.nextEvent ch wx).any OpenEvent.tooLong)) = _
      rw [next, Option.any_some, h]
    refine ⟨fun last => ?_, fun more span => ?_, fun more short => ?_⟩
    · have isFell : x.fell = true := fell.trans (decide_eq_true last)
      have notLong : x.tooLong = false := Bool.eq_false_iff.2 fun h => (tooLong.1 h).1 last
      exact ⟨closing .fell (detects.trans (if_pos isFell)), rowFell true isFell, rowLong false notLong⟩
    · have notFell : x.fell = false := fell.trans (decide_eq_false more)
      have isLong : x.tooLong = true := tooLong.2 ⟨more, span⟩
      exact ⟨closing .long (detects.trans ((if_neg (by rw [notFell]; decide)).trans (if_pos isLong))), rowLong true isLong, rowFell false notFell⟩
    · have notFell : x.fell = false := fell.trans (decide_eq_false more)
      have notLong : x.tooLong = false := Bool.eq_false_iff.2 fun h => short (tooLong.1 h).2
      rw [detects, if_neg (by rw [notFell]; decide), if_neg (by rw [notLong]; decide)] at same event continuation
      rw [State.setContinuation, State.chan_setChan_self] at event continuation
      refine ⟨event.trans held', continuation, same.list.trans before.list, same.sequence.trans before.sequence, fun q => ?_, rowFell false notFell,
        rowLong false notLong⟩
      rw [same.notices, State.setContinuation, State.port_setChan, State.port_setChan]
      exact before.notices q

end Sys2Proof.Machine


/-! The closes of several channels, one after another: records, switches and CAL add up. -/

namespace Sys2Proof.Machine

/-! ### One channel closes -/

/-- The boundary that closes one channel, and no other. -/
def closesOne (ch : Ch) (o : Option Boundary) (c : Ch) : Option Boundary := if c = ch then o else none

theorem closesOne_self (ch : Ch) (o : Option Boundary) : closesOne ch o ch = o := if_pos rfl

theorem closesOne_ne {ch c : Ch} (h : c ≠ ch) (o : Option Boundary) : closesOne ch o c = none := if_neg h

theorem closesOne_some {ch c : Ch} {b d : Boundary} : closesOne ch (some b) c = some d ↔ c = ch ∧ b = d := by
  unfold closesOne; split <;> simp_all

theorem closesOne_isSome {ch c : Ch} {b : Boundary} : closesOne ch (some b) c ≠ none ↔ c = ch := by
  unfold closesOne; split <;> simp_all

theorem count_closesOne (ch : Ch) (b : Boundary) : (Ch.list.filter fun c => (closesOne ch (some b) c).isSome).length = 1 := by
  cases ch <;> rfl

theorem State.SameFrame.turned (s : State) (x : Summary) : s.SameFrame (s.turned x) := by
  unfold State.turned
  split
  · exact .enterMinute s x
  · exact (State.SameFrame.enterMinute s x).trans (.lookAhead _ _ _ _)

theorem State.chan_turned_ne (s : State) {x : Summary} {d : Ch} (hd : d ≠ x.ch) : (s.turned x).chan d = s.chan d := by
  unfold State.turned
  split
  · exact (s.chan_enterMinute x).2 d hd
  · exact (State.chan_lookAhead_ne _ hd _ _).trans ((s.chan_enterMinute x).2 d hd)

/-! ### Records join a collection -/

/-- The records `rs` have joined a collection of `cap` at its newest end, and only the oldest have left where it is full (R137, R139). -/
def JoinedTo {α : Type} (cap : Nat) (l l' rs : List α) : Prop :=
  ∃ k, k ≤ rs.length ∧ l' = (l ++ rs).drop k ∧ (l.length + rs.length ≤ cap → k = 0)

section

variable {α : Type} {cap : Nat} {l l' l'' rs rs' : List α}

theorem JoinedTo.nil (cap : Nat) (l : List α) : JoinedTo cap l l [] := ⟨0, Nat.le_refl _, (List.append_nil l).symm, fun _ => rfl⟩

theorem JoinedTo.push (hc : 0 < cap) (l : List α) (a : α) : JoinedTo cap l (pushBounded cap l a) [a] := by
  obtain ⟨k, few, is, room⟩ := pushBounded_drop cap 0 l [] a hc (Nat.zero_le _) fun _ => rfl
  rw [List.append_nil, List.drop_zero] at is
  exact ⟨k, few, is, room⟩

theorem JoinedTo.trans (h : JoinedTo cap l l' rs) (h' : JoinedTo cap l' l'' rs') : JoinedTo cap l l'' (rs ++ rs') := by
  obtain ⟨k, few, rfl, room⟩ := h
  obtain ⟨j, few', rfl, room'⟩ := h'
  have long : k ≤ (l ++ rs).length := by rw [List.length_append]; omega
  refine ⟨k + j, by rw [List.length_append]; omega, ?_, fun fits => ?_⟩
  · rw [← List.append_assoc, ← List.drop_append_of_le_length long, List.drop_drop]
  · rw [List.length_append] at fits
    have none' := room (by omega)
    subst none'
    rw [room' (by rw [List.drop_zero, List.length_append]; omega)]

/-- A record that has joined with at most four is there. -/
theorem JoinedTo.mem (h : JoinedTo cap l l' rs) (few : rs.length ≤ 4) (wide : 8 ≤ cap) {a : α} (joined : a ∈ rs) : a ∈ l' := by
  obtain ⟨k, short, rfl, room⟩ := h
  have within : k ≤ l.length := by
    by_contra more
    have := room (by omega)
    omega
  rw [List.drop_append_of_le_length within]
  exact List.mem_append_right _ joined

end

/-- The number of channels that close. -/
def closeCount (closes : Ch → Option Boundary) : Nat := (Ch.list.filter fun c => (closes c).isSome).length

theorem closeCount_le (closes : Ch → Option Boundary) : closeCount closes ≤ 4 := List.length_filter_le _ _

theorem closeCount_none : closeCount (fun _ => none) = 0 := rfl

theorem closeCount_or {a b : Ch → Option Boundary} (apart : ∀ c, b c ≠ none → a c = none) :
    closeCount (fun c => (a c).or (b c)) = closeCount a + closeCount b := by
  have all : ∀ l : List Ch, (l.filter fun c => ((a c).or (b c)).isSome).length =
      (l.filter fun c => (a c).isSome).length + (l.filter fun c => (b c).isSome).length := by
    intro l
    induction l with
    | nil => rfl
    | cons c l ih =>
      have one := apart c
      simp only [List.filter_cons]
      cases ha : a c <;> cases hb : b c <;> simp_all <;> omega
  exact all Ch.list

/-- The account unit's work on a channel's minute, as `Accounted` has it, but for the places of its records, of which `ps` are those of periods. -/
structure AccountedBy (s u t : State) (ch : Ch) (b : Boundary) (p : Option Period) (r : MinuteRecord) (ps : List PeriodRecord) : Prop where
  settings : u.header = s.header ∧ u.entries = s.entries ∧ u.slots = s.slots ∧ u.commissioning = s.commissioning
  before : (u.chan ch).period = p ∧ (u.chan ch).day = (s.chan ch).day
  later : s.minuteSeq ≤ u.minuteSeq ∧ s.periodSeq ≤ u.periodSeq
  marked : (u.enterMinute (r.summary b)).minuteRing.getLast? = some r
  period : (t.chan ch).period = ((u.turned (r.summary b)).chan ch).period
  day : (t.chan ch).day = ((u.turned (r.summary b)).chan ch).day
  quiet : (t.chan ch).quiet = (((u.turned (r.summary b)).evaluateQuiet ch).chan ch).quiet
  closed : (u.turned (r.summary b)).periodSeq ≠ u.periodSeq → ∃ k ∈ ps, (u.turned (r.summary b)).periodList.getLast? = some k

/-- `MinutesClosed` with its records named: those of the minutes `rs`, those of the periods `ps`. -/
structure State.Joins (s t : State) (closes : Ch → Option Boundary) (minute : Ch → MinuteAcc → Prop) (rs : List MinuteRecord)
    (ps : List PeriodRecord) : Prop where
  each : ∀ ch b, closes ch = some b → (t.chan ch).minuteNo = b.next ∧ (t.chan ch).engine.minute = .empty ∧
    ∃ m r u, minute ch m ∧ r ∈ rs ∧ s.minuteSeq ≤ r.sequence ∧ r.sequence < t.minuteSeq ∧ r.Of ch (s.chan ch) m b ∧
      AccountedBy s u t ch b (s.chan ch).period r ps ∧ ∀ q, (t.port q).conditions.get ch = ((s.port q).conditions.get ch).merge r.causes
  conditions : ∀ ch, closes ch = none → ∀ q, (t.port q).conditions.get ch = (s.port q).conditions.get ch
  count : rs.length = closeCount closes
  written : t.minuteSeq = s.minuteSeq + rs.length
  few : ps.length ≤ closeCount closes
  next : t.periodSeq = s.periodSeq + ps.length
  ring : JoinedTo 2048 s.minuteRing t.minuteRing rs
  list : JoinedTo 96 s.periodList t.periodList ps
  notice : (∃ ch, closes ch ≠ none) → ∃ ch, closes ch ≠ none ∧
    ∀ q, ((t.port q).notice .minute).flag = true ∧ ((t.port q).notice .minute).detail = ⟨ch, 0, BitVec.ofNat 32 (t.minuteSeq - 1)⟩
  line : (∃ ch, closes ch ≠ none) →
    (t.quietLine = true ↔ (∃ q, (s.port q).quietRequest = true) ∨ ∃ ch, (t.chan ch).quiet ≠ .none)
  moved : t.quietLine ≠ s.quietLine → ∃ ch, closes ch ≠ none ∧
    ∀ q, ((t.port q).notice .quiet).flag = true ∧ ((t.port q).notice .quiet).detail = ⟨ch, if t.quietLine then 1 else 0, 0⟩
  unclosed : (∀ ch, closes ch = none) → t.minuteRing = s.minuteRing ∧ t.periodList = s.periodList ∧ t.periodSeq = s.periodSeq ∧
    t.quietLine = s.quietLine ∧ ∀ q k, ¬ k.besideAccounts → k ≠ .dispensation → k ≠ .clock → (t.port q).notice k = (s.port q).notice k

theorem State.Joins.minutesClosed {s t : State} {closes : Ch → Option Boundary} {minute : Ch → MinuteAcc → Prop} {rs : List MinuteRecord}
    {ps : List PeriodRecord} (h : s.Joins t closes minute rs ps) : MinutesClosed s t closes minute where
  each ch b closes' := by
    have rs4 : rs.length ≤ 4 := h.count ▸ closeCount_le closes
    have ps4 : ps.length ≤ 4 := h.few.trans (closeCount_le closes)
    obtain ⟨number, empty, m, r, u, is, joined, low, high, of, done, conditions⟩ := h.each ch b closes'
    refine ⟨number, empty, m, r, u, is, low, of, ⟨done.settings, done.before, done.later, done.marked, ⟨h.ring.mem rs4 (by decide) joined, high⟩,
      done.period, done.day, done.quiet, fun turns => ?_⟩, conditions⟩
    obtain ⟨k, joined, last⟩ := done.closed turns
    exact ⟨k, h.list.mem ps4 (by decide) joined, last⟩
  conditions := h.conditions
  written := h.written.trans (congrArg (s.minuteSeq + ·) h.count)
  minutes := by
    obtain ⟨k, few, is, room⟩ := h.ring
    exact ⟨rs, k, h.written.symm, few, is, room⟩
  periods := by
    obtain ⟨k, few, is, room⟩ := h.list
    exact ⟨ps, k, h.next.symm, few, is, room⟩
  notice := h.notice
  line := h.line
  moved := h.moved
  unclosed := h.unclosed

section

variable {s u t : State} {ch : Ch} {minute : Ch → MinuteAcc → Prop}

/-- Work that closes no minute. -/
theorem State.Readied.unclosed (h : s.Readied ch t) : s.Joins t (fun _ => none) minute [] [] where
  each := nofun
  conditions _ _ q := by rw [h.conditions q]
  count := rfl
  written := h.minutes.2
  few := Nat.le_refl _
  next := h.periods.2
  ring := by rw [h.minutes.1]; exact .nil _ _
  list := by rw [h.periods.1]; exact .nil _ _
  notice := fun ⟨_, h⟩ => absurd rfl h
  line := fun ⟨_, h⟩ => absurd rfl h
  moved differ := absurd h.quietLine differ
  unclosed _ := ⟨h.minutes.1, h.periods.1, h.periods.2, h.quietLine, fun q k kind _ _ => h.notices q k kind⟩

/-- R93, R98, R137, R139, R153, R156: one minute closes. -/
theorem State.MinuteMade.closed {b : Boundary} {m : MinuteAcc} (h : s.MinuteMade t ch b m (s.chan ch).period)
    (others : ∀ c, c ≠ ch → t.chan c = s.chan c) (is : minute ch m) :
    (∃ rs ps, s.Joins t (closesOne ch (some b)) minute rs ps) ∧
    (t.quietLine = s.quietLine → ∀ q, (t.port q).notice .quiet = (s.port q).notice .quiet) := by
  obtain ⟨r, u, newest, sequence, of, done, alone⟩ := h.record
  have named : (r.summary b).ch = ch := of.channel
  have ring : t.minuteRing = pushBounded 2048 s.minuteRing r := by
    have entered := State.enterMinute_minuteRing u (r.summary b)
    have is : r = u.enteredRecord (r.summary b) := Option.some.inj (done.marked.symm.trans (u.enterMinute_newest (r.summary b)))
    rw [alone.minuteRing, (u.turned_minutes (r.summary b)).1, entered, ← is, alone.collections.1]
  have conditions (q : Port) : (t.port q).conditions = (s.port q).conditions.set ch (((s.port q).conditions.get ch).merge r.causes) := by
    rw [alone.conditions, State.turned_conditions, (alone.ports q).1, named]
    rfl
  have line : (u.turned (r.summary b)).quietLine = s.quietLine := (State.turned_quietLine _ _).1.trans alone.line.1
  have quiet (q : Port) : ((u.turned (r.summary b)).port q).notice .quiet = (s.port q).notice .quiet :=
    ((State.turned_quietLine _ _).2 q).trans ((alone.ports q).2 _ (by unfold NoticeKind.besideAccounts; decide))
  have told (q : Port) := alone.notices q .quiet (by unfold NoticeKind.besideAccounts; decide)
  obtain ⟨ps, few, next, list, last⟩ : ∃ ps : List PeriodRecord, ps.length ≤ 1 ∧ t.periodSeq = s.periodSeq + ps.length ∧
      JoinedTo 96 s.periodList t.periodList ps ∧
      ((u.turned (r.summary b)).periodSeq ≠ u.periodSeq → ∃ k ∈ ps, (u.turned (r.summary b)).periodList.getLast? = some k) := by
    obtain ⟨-, -, list, next⟩ := alone.collections
    rw [alone.periodSeq, alone.periodList, ← next, ← list]
    obtain ⟨seq, same⟩ | ⟨k, seq, pushed⟩ := u.turned_periodList (r.summary b)
    · exact ⟨[], Nat.zero_le _, seq, same ▸ .nil _ _, fun turns => absurd seq turns⟩
    · exact ⟨[k], Nat.le_refl _, seq, pushed ▸ .push (Nat.succ_pos _) _ _, fun _ => ⟨k, List.mem_singleton_self k, by
        rw [pushed]; exact pushBounded_getLast? _ _ _⟩⟩
  have one := count_closesOne ch b
  refine ⟨⟨[r], ps, fun c d closes => ?_, fun c none' q => ?_, one.symm, h.sequence, few.trans (Nat.le_of_eq one.symm), next,
    ring ▸ .push (Nat.succ_pos _) _ _, list, fun _ => ?_, fun _ => ?_, fun moved => ?_, fun none' => ?_⟩, fun stays q => ?_⟩
  · obtain ⟨rfl, rfl⟩ := closesOne_some.1 closes
    exact ⟨h.number, h.empty, m, r, u, is, List.mem_singleton_self r, Nat.le_of_eq sequence.symm, by rw [h.sequence, sequence]; exact Nat.lt_succ_self _,
      of, ⟨done.settings, done.before, done.later, done.marked, done.period, done.day, done.quiet, last⟩,
      fun q => by rw [conditions, Quad.get_set_self]⟩
  · rw [conditions, Quad.get_set_ne]
    rintro rfl
    rw [closesOne_self] at none'
    cases none'
  · exact ⟨ch, closesOne_isSome.2 rfl, fun q => by rw [h.sequence]; exact h.notice q⟩
  · rw [alone.quietLine, State.evaluateQuiet_line]
    refine or_congr (exists_congr fun q => ?_) (exists_congr fun d => not_congr ?_)
    · rw [(State.SameFrame.turned u (r.summary b)).ports q, (alone.ports q).1]
    · by_cases same : d = ch
      · subst same
        rw [done.quiet, named]
      · rw [(State.chan_evaluateQuiet _ _).2 d (named ▸ same), State.chan_turned_ne u (named ▸ same), alone.line.2 d (named ▸ same), others d same]
  · refine ⟨ch, closesOne_isSome.2 rfl, fun q => ?_⟩
    rw [told, alone.quietLine]
    rw [alone.quietLine, ← line] at moved
    rw [← named]
    exact State.evaluateQuiet_moved moved q
  · have := none' ch
    rw [closesOne_self] at this
    cases this
  · rw [told, State.evaluateQuiet_notice _ _ _ _ (.inr (by rw [← alone.quietLine, stays, line])), quiet]

end

/-! ### One close after another -/

/-- What the account unit's work reads, beside the channels, is the same in `t` as in `s`. -/
structure State.SameSettings (s t : State) : Prop where
  header : t.header = s.header
  entries : t.entries = s.entries
  slots : t.slots = s.slots
  commissioning : t.commissioning = s.commissioning
  requests : ∀ q, (t.port q).quietRequest = (s.port q).quietRequest

theorem State.SameFrame.settings {s t : State} (h : s.SameFrame t) : s.SameSettings t :=
  ⟨h.header, h.entries, h.slots, h.commissioning, fun q => by rw [h.ports q]⟩

theorem State.SameSettings.trans {s t u : State} (h : s.SameSettings t) (h' : t.SameSettings u) : s.SameSettings u :=
  ⟨h'.header.trans h.header, h'.entries.trans h.entries, h'.slots.trans h.slots, h'.commissioning.trans h.commissioning,
    fun q => (h'.requests q).trans (h.requests q)⟩

theorem AccountedBy.mono {s u t : State} {ch : Ch} {b : Boundary} {p : Option Period} {r : MinuteRecord} {ps qs : List PeriodRecord}
    (h : AccountedBy s u t ch b p r ps) {s' t' : State} (frame : s'.SameSettings s) (day : (s.chan ch).day = (s'.chan ch).day)
    (later : s'.minuteSeq ≤ s.minuteSeq ∧ s'.periodSeq ≤ s.periodSeq) (same : t'.chan ch = t.chan ch) (within : ∀ k ∈ ps, k ∈ qs) :
    AccountedBy s' u t' ch b p r qs where
  settings := by
    obtain ⟨header, entries, slots, commissioning⟩ := h.settings
    exact ⟨header.trans frame.header, entries.trans frame.entries, slots.trans frame.slots, commissioning.trans frame.commissioning⟩
  before := ⟨h.before.1, h.before.2.trans day⟩
  later := ⟨later.1.trans h.later.1, later.2.trans h.later.2⟩
  marked := h.marked
  period := by rw [same]; exact h.period
  day := by rw [same]; exact h.day
  quiet := by rw [same]; exact h.quiet
  closed turns := by
    obtain ⟨k, joined, last⟩ := h.closed turns
    exact ⟨k, within k joined, last⟩

/-- The channels of `b` close after those of `a`. -/
theorem State.Joins.trans {s t v : State} {a b : Ch → Option Boundary} {minute : Ch → MinuteAcc → Prop} {rs rs' : List MinuteRecord}
    {ps ps' : List PeriodRecord} (h : s.Joins t a minute rs ps) (h' : t.Joins v b minute rs' ps') (frame : s.SameSettings t)
    (apart : ∀ c, b c ≠ none → a c = none ∧ t.chan c = s.chan c) (kept : ∀ c, a c ≠ none → v.chan c = t.chan c)
    (quiet : ∀ c, b c = none → (v.chan c).quiet = (t.chan c).quiet)
    (still : v.quietLine = t.quietLine → ∀ q, (v.port q).notice .quiet = (t.port q).notice .quiet) :
    s.Joins v (fun c => (a c).or (b c)) minute (rs ++ rs') (ps ++ ps') := by
  have counts := closeCount_or fun c hb => (apart c hb).1
  have later : s.minuteSeq ≤ t.minuteSeq ∧ s.periodSeq ≤ t.periodSeq := 
    ⟨by rw [h.written]; exact Nat.le_add_right _ _, by rw [h.next]; exact Nat.le_add_right _ _⟩
  have notB (c : Ch) (ha : a c ≠ none) : b c = none := by
    by_contra hb
    exact ha (apart c hb).1
  have neither (c : Ch) (none' : (a c).or (b c) = none) : a c = none ∧ b c = none := Option.or_eq_none_iff.1 none'
  constructor
  case each =>
    intro c d closes
    cases ha : a c with
    | some x =>
      rw [ha, Option.some_or] at closes
      have same := kept c (by rw [ha]; exact nofun)
      obtain ⟨number, empty, m, r, u, is, joined, low, high, of, done, conditions⟩ := h.each c d (by rw [ha]; exact closes)
      refine ⟨by rw [same]; exact number, by rw [same]; exact empty, m, r, u, is, List.mem_append_left _ joined, low,
        high.trans_le (by rw [h'.written]; exact Nat.le_add_right _ _), of,
        done.mono (State.SameFrame.refl s).settings rfl ⟨Nat.le_refl _, Nat.le_refl _⟩ same fun k => List.mem_append_left _, fun q => ?_⟩
      rw [h'.conditions c (notB c (by rw [ha]; exact nofun))]
      exact conditions q
    | none =>
      rw [ha, Option.none_or] at closes
      have same := (apart c (by rw [closes]; exact nofun)).2
      obtain ⟨number, empty, m, r, u, is, joined, low, high, of, done, conditions⟩ := h'.each c d closes
      rw [same] at of done
      refine ⟨number, empty, m, r, u, is, List.mem_append_right _ joined, later.1.trans low, high, of,
        done.mono frame (by rw [same]) later rfl fun k => List.mem_append_right _, fun q => ?_⟩
      rw [conditions q, h.conditions c ha]
  case conditions => exact fun c none' q => (h'.conditions c (neither c none').2 q).trans (h.conditions c (neither c none').1 q)
  case count => rw [List.length_append, h.count, h'.count, counts]
  case written => rw [List.length_append, h'.written, h.written, Nat.add_assoc]
  case few => rw [List.length_append, counts]; exact Nat.add_le_add h.few h'.few
  case next => rw [List.length_append, h'.next, h.next, Nat.add_assoc]
  case ring => exact h.ring.trans h'.ring
  case list => exact h.list.trans h'.list
  case unclosed =>
    intro none'
    obtain ⟨ring, list, next, line, notices⟩ := h.unclosed fun c => (neither c (none' c)).1
    obtain ⟨ring', list', next', line', notices'⟩ := h'.unclosed fun c => (neither c (none' c)).2
    exact ⟨ring'.trans ring, list'.trans list, next'.trans next, line'.trans line,
      fun q k h1 h2 h3 => (notices' q k h1 h2 h3).trans (notices q k h1 h2 h3)⟩
  case notice =>
    rintro ⟨c, closes⟩
    by_cases some : ∃ d, b d ≠ none
    · obtain ⟨d, hd, told⟩ := h'.notice some
      exact ⟨d, fun none' => hd (neither d none').2, told⟩
    · have nothing : ∀ d, b d = none := fun d => by_contra fun hd => some ⟨d, hd⟩
      obtain ⟨d, hd, told⟩ := h.notice ⟨c, fun ha => closes (Option.or_eq_none_iff.2 ⟨ha, nothing c⟩)⟩
      have seq : v.minuteSeq = t.minuteSeq := by
        rw [h'.written, h'.count, show b = fun _ => none from funext nothing]; rfl
      refine ⟨d, fun none' => hd (neither d none').1, fun q => ?_⟩
      rw [(h'.unclosed nothing).2.2.2.2 q .minute (by unfold NoticeKind.besideAccounts; decide) (by decide) (by decide), seq]
      exact told q
  case line =>
    rintro ⟨c, closes⟩
    by_cases some : ∃ d, b d ≠ none
    · rw [h'.line some]
      exact or_congr_left (exists_congr fun q => by rw [frame.requests q])
    · have nothing : ∀ d, b d = none := fun d => by_contra fun hd => some ⟨d, hd⟩
      rw [(h'.unclosed nothing).2.2.2.1, h.line ⟨c, fun ha => closes (Option.or_eq_none_iff.2 ⟨ha, nothing c⟩)⟩]
      exact or_congr_right (exists_congr fun d => by rw [quiet d (nothing d)])
  case moved =>
    intro moved
    by_cases last : v.quietLine = t.quietLine
    · obtain ⟨d, hd, told⟩ := h.moved (last ▸ moved)
      exact ⟨d, fun none' => hd (neither d none').1, fun q => by rw [still last q, last]; exact told q⟩
    · obtain ⟨d, hd, told⟩ := h'.moved last
      exact ⟨d, fun none' => hd (neither d none').2, told⟩

/-! ### FS switches and CAL -/

theorem Ch.index_inj {c d : Ch} (h : c.index = d.index) : c = d := by
  revert h
  cases c <;> cases d <;> decide

theorem Queued.mem_iff {a b : Store} {w x : StoreWrite} (h : Queued a b w) : x ∈ b.queue ↔ x = w ∨ (x ∈ a.queue ∧ x.item ≠ w.item) := by
  by_cases held : ∃ y ∈ a.queue, y.item = w.item
  · rw [h.replaced held, List.mem_map]
    constructor
    · rintro ⟨y, there, rfl⟩
      split
      · exact .inl rfl
      · next other => exact .inr ⟨there, other⟩
    · rintro (rfl | ⟨there, other⟩)
      · obtain ⟨y, there, same⟩ := held
        exact ⟨y, there, if_pos same⟩
      · exact ⟨x, there, if_neg other⟩
  · have none' : ∀ y ∈ a.queue, y.item ≠ w.item := fun y there same => held ⟨y, there, same⟩
    rw [h.joined none', List.mem_append, List.mem_singleton, or_comm]
    exact or_congr_right ⟨fun there => ⟨there, none' x there⟩, fun both => both.1⟩

/-- The switches of one channel. -/
theorem State.Switched.made_one {s t : State} {ch : Ch} {o : Option Level} {record : Ch → CalRecord} (h : s.Switched t ch o)
    (others : ∀ c, c ≠ ch → t.chan c = s.chan c) (pending : o = none → (t.chan ch).pendingFs = (s.chan ch).pendingFs)
    (recorded : (t.chan ch).calRecord = record ch) : SwitchesMade s t (fun c fs => c = ch ∧ o = some fs) record := by
  have kept (c : Ch) (differ : c ≠ ch) : FsKept s t c := by unfold FsKept; rw [others c differ]; exact ⟨rfl, rfl, rfl, rfl⟩
  cases made : o with
  | none =>
    obtain ⟨store, fs, calSeq, uncalibrated⟩ := h.kept made
    refine ⟨fun _ _ is => (by cases is.2), fun c _ => ?_, fun x => ?_, fun _ => store⟩
    · by_cases same : c = ch
      · subst same; exact ⟨fs, calSeq, uncalibrated, pending made⟩
      · exact kept c same
    · rw [store]
      refine ⟨fun there => .inr ⟨there, fun _ _ is => (by cases is.2)⟩, ?_⟩
      rintro (⟨_, _, is, -⟩ | ⟨there, -⟩)
      · cases is.2
      · exact there
  | some fs =>
    obtain ⟨switched, queued, -⟩ := h.made fs made
    unfold switchItem at queued
    rw [recorded] at queued
    refine ⟨?_, fun c none' => ?_, fun x => ?_, fun none' => absurd ⟨rfl, rfl⟩ (none' ch fs)⟩
    · rintro c f ⟨rfl, is⟩
      injection is with is
      exact is ▸ switched
    · exact kept c fun same => none' fs ⟨same, rfl⟩
    · rw [queued.mem_iff]
      refine or_congr ⟨fun is => ⟨ch, fs, ⟨rfl, rfl⟩, is⟩, ?_⟩ (and_congr_right fun _ => ⟨?_, fun all => all ch fs ⟨rfl, rfl⟩⟩)
      · rintro ⟨c, f, ⟨rfl, is⟩, eq⟩
        injection is with is
        exact is ▸ eq
      · rintro other c f ⟨rfl, -⟩
        exact other

theorem SwitchesMade.trans {s t v : State} {a b : Ch → Level → Prop} {record : Ch → CalRecord} (h : SwitchesMade s t a record)
    (h' : SwitchesMade t v b record) (apart : ∀ c f g, a c f → ¬ b c g) :
    SwitchesMade s v (fun c fs => a c fs ∨ b c fs) record where
  switched c fs made := by
    rcases made with made | made
    · obtain ⟨fs', calSeq, uncalibrated, pending⟩ := h'.kept c fun g => apart c fs g made
      obtain ⟨h1, h2, h3, h4⟩ := h.switched c fs made
      exact ⟨fs'.trans h1, calSeq.trans h2, uncalibrated.trans h3, pending.trans h4⟩
    · obtain ⟨-, calSeq, -⟩ := h.kept c fun g ha => apart c g fs ha made
      obtain ⟨h1, h2, h3, h4⟩ := h'.switched c fs made
      exact ⟨h1, h2.trans (congrArg (· + 1) calSeq), h3, h4⟩
  kept c none' := by
    obtain ⟨h1, h2, h3, h4⟩ := h.kept c fun fs ha => none' fs (.inl ha)
    obtain ⟨h5, h6, h7, h8⟩ := h'.kept c fun fs hb => none' fs (.inr hb)
    exact ⟨h5.trans h1, h6.trans h2, h7.trans h3, h8.trans h4⟩
  queued x := by
    have seq (c : Ch) (g : Level) (hb : b c g) : (t.chan c).calSeq = (s.chan c).calSeq := (h.kept c fun f ha => apart c f g ha hb).2.1
    rw [h'.queued, h.queued]
    constructor
    · rintro (⟨c, g, hb, is⟩ | ⟨⟨c, f, ha, is⟩ | ⟨there, others⟩, others'⟩)
      · exact .inl ⟨c, g, .inr hb, by rw [← seq c g hb]; exact is⟩
      · exact .inl ⟨c, f, .inl ha, is⟩
      · exact .inr ⟨there, fun c f made => made.elim (others c f) (others' c f)⟩
    · rintro (⟨c, f, ha | hb, is⟩ | ⟨there, others⟩)
      · refine .inr ⟨.inl ⟨c, f, ha, is⟩, fun d g hb same => ?_⟩
        rw [is] at same
        have named : c = d := Ch.index_inj (Nat.add_left_cancel same)
        subst named
        exact apart c f g ha hb
      · exact .inl ⟨c, f, hb, by rw [seq c f hb]; exact is⟩
      · exact .inr ⟨.inr ⟨there, fun c f ha => others c f (.inl ha)⟩, fun c f hb => others c f (.inr hb)⟩
  none none' := (h'.none fun c fs hb => none' c fs (.inr hb)).trans (h.none fun c fs ha => none' c fs (.inl ha))

theorem CalCalled.trans {s t v : State} {a b : Ch → Prop} (h : CalCalled s t a) (h' : CalCalled t v b)
    (kept : ∀ c, a c → (v.chan c).calRecord = (t.chan c).calRecord) : CalCalled s v fun c => a c ∨ b c := by
  refine ⟨fun ⟨c, calls⟩ => ?_, fun none' q => (h'.2 (fun c hb => none' c (.inr hb)) q).trans (h.2 (fun c ha => none' c (.inl ha)) q)⟩
  by_cases last : ∃ d, b d
  · obtain ⟨d, hb, set⟩ := h'.1 last
    exact ⟨d, .inr hb, set⟩
  · have nothing : ∀ d, ¬ b d := fun d hb => last ⟨d, hb⟩
    obtain ⟨d, ha, set⟩ := h.1 ⟨c, calls.resolve_right (nothing c)⟩
    refine ⟨d, .inl ha, fun q => ?_⟩
    rw [h'.2 nothing q, kept d ha]
    exact set q

end Sys2Proof.Machine


/-! Work on several channels, one after the other: what each leaves of the closes, the FS switches and CAL adds up. -/

namespace Sys2Proof.Machine

/-! ### Work of one kind on some channels -/

/-- What a kind of work brings about on each channel: the boundary that closes its minute, what that minute holds, the FS switch made, the record this
queues, and whether CAL is called for. -/
structure Service where
  closes : Ch → Option Boundary
  minute : Ch → MinuteAcc → Prop
  switch : Ch → Option Level
  record : Ch → CalRecord
  calls : Ch → Prop

/-- The closes of the channels of a list. -/
def Service.closing (x : Service) (l : List Ch) (c : Ch) : Option Boundary := if c ∈ l then x.closes c else none

/-- Where the QUIET line has not moved between `s` and `t`, the QUIET notices are as they were. -/
def State.StillQuiet (s t : State) : Prop := t.quietLine = s.quietLine → ∀ q, (t.port q).notice .quiet = (s.port q).notice .quiet

/-- The work of a kind has been done on the channels of a list between `s` and `t`. -/
structure State.Served (s t : State) (l : List Ch) (x : Service) : Prop where
  settings : s.SameSettings t
  others : ∀ c, c ∉ l → t.chan c = s.chan c
  joins : ∃ rs ps, s.Joins t (x.closing l) x.minute rs ps
  calm : ∀ c ∈ l, x.closes c = none → (t.chan c).quiet = (s.chan c).quiet
  switches : SwitchesMade s t (fun c fs => c ∈ l ∧ x.switch c = some fs) x.record
  cal : CalCalled s t fun c => c ∈ l ∧ x.calls c

section

variable {s t v : State} {l l' : List Ch} {x : Service}

theorem Service.closing_mem (x : Service) {l : List Ch} {c : Ch} (h : c ∈ l) : x.closing l c = x.closes c := if_pos h

theorem Service.closing_not_mem (x : Service) {l : List Ch} {c : Ch} (h : c ∉ l) : x.closing l c = none := if_neg h

theorem Service.mem_of_closing {c : Ch} (h : x.closing l c ≠ none) : c ∈ l := by
  by_contra out
  exact h (x.closing_not_mem out)

theorem Service.closing_append (x : Service) (l l' : List Ch) : x.closing (l ++ l') = fun c => (x.closing l c).or (x.closing l' c) := by
  funext c
  by_cases h : c ∈ l <;> by_cases h' : c ∈ l' <;> simp [Service.closing, h, h']

/-- The channels of `l'` are worked on after those of `l`. -/
theorem State.Served.append (h : s.Served t l x) (h' : t.Served v l' x) (apart : ∀ c ∈ l', c ∉ l)
    (still : t.StillQuiet v) : s.Served v (l ++ l') x where
  settings := h.settings.trans h'.settings
  others c out := by
    rw [List.mem_append, not_or] at out
    exact (h'.others c out.2).trans (h.others c out.1)
  joins := by
    obtain ⟨rs, ps, joins⟩ := h.joins
    obtain ⟨rs', ps', joins'⟩ := h'.joins
    refine ⟨rs ++ rs', ps ++ ps', x.closing_append l l' ▸ joins.trans joins' h.settings (fun c closes => ?_) (fun c closes => ?_)
      (fun c closes => ?_) still⟩
    · have out := apart c (Service.mem_of_closing closes)
      exact ⟨x.closing_not_mem out, h.others c out⟩
    · exact h'.others c fun later => apart c later (Service.mem_of_closing closes)
    · by_cases later : c ∈ l'
      · exact h'.calm c later (x.closing_mem later ▸ closes)
      · rw [h'.others c later]
  calm c mem none' := by
    by_cases later : c ∈ l'
    · rw [h'.calm c later none', h.others c (apart c later)]
    · rw [h'.others c later, h.calm c ((List.mem_append.1 mem).resolve_right later) none']
  switches := by
    have made := h.switches.trans h'.switches fun c f g first second => apart c second.1 first.1
    exact (show (fun c fs => c ∈ l ++ l' ∧ x.switch c = some fs) = fun c fs => (c ∈ l ∧ x.switch c = some fs) ∨ (c ∈ l' ∧ x.switch c = some fs) by
      funext c fs; rw [List.mem_append, or_and_right]) ▸ made
  cal := by
    have called := h.cal.trans h'.cal fun c calls => by rw [h'.others c fun later => apart c later calls.1]
    exact (show (fun c => c ∈ l ++ l' ∧ x.calls c) = fun c => (c ∈ l ∧ x.calls c) ∨ (c ∈ l' ∧ x.calls c) by
      funext c; rw [List.mem_append, or_and_right]) ▸ called

/-- No channel has been worked on. -/
theorem State.Served.nil (settings : s.SameSettings t) (chans : t.channels = s.channels) (minutes : t.minuteRing = s.minuteRing ∧ t.minuteSeq = s.minuteSeq)
    (periods : t.periodList = s.periodList ∧ t.periodSeq = s.periodSeq) (line : t.quietLine = s.quietLine) (store : t.store = s.store)
    (ports : ∀ q, (t.port q).conditions = (s.port q).conditions ∧ ∀ k, k ≠ .dispensation → k ≠ .clock → (t.port q).notice k = (s.port q).notice k)
    (x : Service) : s.Served t [] x where
  settings := settings
  others c _ := by rw [State.chan, chans, State.chan]
  joins := ⟨[], [], nofun, fun _ _ q => by rw [(ports q).1], rfl, minutes.2, Nat.le_refl _, periods.2, by rw [minutes.1]; exact .nil _ _,
    by rw [periods.1]; exact .nil _ _, fun ⟨_, h⟩ => absurd rfl h, fun ⟨_, h⟩ => absurd rfl h, fun moved => absurd line moved,
    fun _ => ⟨minutes.1, periods.1, periods.2, line, fun q k _ => (ports q).2 k⟩⟩
  calm := nofun
  switches := ⟨nofun, fun c _ => by unfold FsKept; rw [State.chan, State.chan, chans]; exact ⟨rfl, rfl, rfl, rfl⟩,
    fun y => by rw [store]; exact ⟨fun there => .inr ⟨there, nofun⟩, fun h => h.elim nofun And.left⟩, fun _ => store⟩
  cal := ⟨nofun, fun _ q => (ports q).2 _ (by decide) (by decide)⟩

end

/-! ### One channel -/

section

variable {s u v : State} {ch : Ch} {x : Service}

theorem Service.closing_one (x : Service) (ch : Ch) : x.closing [ch] = closesOne ch (x.closes ch) := by
  funext c
  by_cases same : c = ch
  · subst same; rw [closesOne_self, x.closing_mem (List.mem_singleton_self c)]
  · rw [closesOne_ne same, x.closing_not_mem (by rwa [List.mem_singleton])]

theorem State.Switched.served {o : Option Level} (h : s.Switched v ch o) (is : x.switch ch = o) (others : ∀ c, c ≠ ch → v.chan c = s.chan c)
    (pending : o = none → (v.chan ch).pendingFs = (s.chan ch).pendingFs) (recorded : (v.chan ch).calRecord = x.record ch) :
    SwitchesMade s v (fun c fs => c ∈ [ch] ∧ x.switch c = some fs) x.record := by
  have made := h.made_one others pending recorded
  refine (show (fun c fs => c ∈ [ch] ∧ x.switch c = some fs) = fun c fs => c = ch ∧ o = some fs from ?_) ▸ made
  funext c fs
  rw [List.mem_singleton]
  exact propext (and_congr_right fun same => by rw [same, is])

/-- Work on a channel that comes after its close leaves what the close has left. -/
theorem State.Joins.after {t : State} {closes : Ch → Option Boundary} {minute : Ch → MinuteAcc → Prop} {rs : List MinuteRecord} {ps : List PeriodRecord}
    (h : s.Joins t closes minute rs ps) (h' : t.Readied ch v) (empty : (v.chan ch).engine.minute = (t.chan ch).engine.minute)
    (period : (v.chan ch).period = (t.chan ch).period) : s.Joins v closes minute rs ps := by
  have chans (c : Ch) : (t.chan c).Stands (v.chan c) ∧ (v.chan c).engine.minute = (t.chan c).engine.minute ∧ (v.chan c).period = (t.chan c).period := by
    by_cases same : c = ch
    · subst same; exact ⟨h'.stands, empty, period⟩
    · rw [h'.others c same]; exact ⟨.refl _, rfl, rfl⟩
  have notice (k : NoticeKind) (hk : ¬ k.besideAccounts) (q : Port) := h'.notices q k hk
  refine ⟨fun c b closes => ?_, fun c none' q => by rw [h'.conditions, h.conditions c none'], h.count, h'.minutes.2.trans h.written, h.few,
    h'.periods.2.trans h.next, h'.minutes.1 ▸ h.ring, h'.periods.1 ▸ h.list, fun some => ?_, fun some => ?_, fun moved => ?_, fun none' => ?_⟩
  · obtain ⟨stands, minute, period⟩ := chans c
    obtain ⟨number, empty, m, r, u, is, joined, low, high, of, done, conditions⟩ := h.each c b closes
    refine ⟨stands.number.trans number, minute.trans empty, m, r, u, is, joined, low, h'.minutes.2 ▸ high, of,
      ⟨done.settings, done.before, done.later, done.marked, period.trans done.period, stands.day.trans done.day, stands.quiet.trans done.quiet,
        done.closed⟩, fun q => ?_⟩
    rw [h'.conditions]
    exact conditions q
  · obtain ⟨c, closes, told⟩ := h.notice some
    refine ⟨c, closes, fun q => ?_⟩
    rw [notice _ (by unfold NoticeKind.besideAccounts; decide), h'.minutes.2]
    exact told q
  · rw [h'.quietLine, h.line some]
    exact or_congr_right (exists_congr fun c => by rw [(chans c).1.quiet])
  · rw [h'.quietLine] at moved
    obtain ⟨c, closes, told⟩ := h.moved moved
    refine ⟨c, closes, fun q => ?_⟩
    rw [notice _ (by unfold NoticeKind.besideAccounts; decide), h'.quietLine]
    exact told q
  · obtain ⟨ring, list, next, line, notices⟩ := h.unclosed none'
    exact ⟨h'.minutes.1.trans ring, h'.periods.1.trans list, h'.periods.2.trans next, h'.quietLine.trans line,
      fun q k h1 h2 h3 => (notice k h1 q).trans (notices q k h1 h2 h3)⟩

theorem SwitchesMade.after {t : State} {a : Ch → Level → Prop} {record : Ch → CalRecord} (h : SwitchesMade s t a record) (h' : t.Readied ch v)
    (pending : (v.chan ch).pendingFs = (t.chan ch).pendingFs) : SwitchesMade s v a record := by
  have chans (c : Ch) : (t.chan c).Stands (v.chan c) ∧ (v.chan c).pendingFs = (t.chan c).pendingFs := by
    by_cases same : c = ch
    · subst same; exact ⟨h'.stands, pending⟩
    · rw [h'.others c same]; exact ⟨.refl _, rfl⟩
  refine ⟨fun c fs made => ?_, fun c none' => ?_, fun y => by rw [h'.store]; exact h.queued y, fun none' => h'.store.trans (h.none none')⟩
  · obtain ⟨stands, pending⟩ := chans c
    obtain ⟨fs', seq, uncalibrated, pending'⟩ := h.switched c fs made
    exact ⟨stands.fs.trans fs', stands.calSeq.trans seq, stands.uncalibrated.trans uncalibrated, pending.trans pending'⟩
  · obtain ⟨stands, pending⟩ := chans c
    obtain ⟨fs', seq, uncalibrated, pending'⟩ := h.kept c none'
    exact ⟨stands.fs.trans fs', stands.calSeq.trans seq, stands.uncalibrated.trans uncalibrated, pending.trans pending'⟩

theorem State.Served.after {t : State} {p : Ch → Prop} (h : s.Served t [ch] { x with calls := p }) (h' : t.Readied ch v)
    (empty : (v.chan ch).engine.minute = (t.chan ch).engine.minute) (period : (v.chan ch).period = (t.chan ch).period)
    (pending : (v.chan ch).pendingFs = (t.chan ch).pendingFs)
    (cal : CalCalled s v fun c => c ∈ [ch] ∧ x.calls c) : s.Served v [ch] x where
  settings := h.settings.trans h'.frame.settings
  others c out := (h'.others c fun same => out (same ▸ List.mem_singleton_self _)).trans (h.others c out)
  joins := by
    obtain ⟨rs, ps, joins⟩ := h.joins
    exact ⟨rs, ps, joins.after h' empty period⟩
  calm c mem none' := by
    have calm := h.calm c mem none'
    rw [List.mem_singleton.1 mem] at calm ⊢
    exact h'.stands.quiet.trans calm
  switches := h.switches.after h' pending
  cal := cal

theorem State.StillQuiet.after {t : State} (h : s.StillQuiet t) (h' : t.Readied ch v) : s.StillQuiet v := fun stays q =>
  (h'.notices q _ (by unfold NoticeKind.besideAccounts; decide)).trans (h (h'.quietLine ▸ stays) q)

/-- Whether the work on one channel calls for CAL decides what is left of it. -/
theorem calCalled_one (called : x.calls ch → CalSet v ch) (uncalled : ¬ x.calls ch → ∀ q, (v.port q).notice .cal = (s.port q).notice .cal) :
    CalCalled s v fun c => c ∈ [ch] ∧ x.calls c := by
  refine ⟨?_, fun none' => uncalled fun calls => none' ch ⟨List.mem_singleton_self ch, calls⟩⟩
  rintro ⟨c, named, calls⟩
  obtain rfl := List.mem_singleton.1 named
  exact ⟨c, ⟨named, calls⟩, called calls⟩

/-- Work on a channel before its close: what it holds of the switch, and whether it has called for CAL itself. -/
structure State.Prepared (s u : State) (ch : Ch) (x : Service) (runs : Prop) : Prop where
  ready : s.Readied ch u
  period : (u.chan ch).period = (s.chan ch).period
  pending : (u.chan ch).pendingFs = (s.chan ch).pendingFs
  recorded : (u.chan ch).calRecord = x.record ch
  calls : x.calls ch ↔ runs ∨ ∃ fs, x.switch ch = some fs
  called : runs → CalSet u ch
  uncalled : ¬ runs → ∀ q, (u.port q).notice .cal = (s.port q).notice .cal

variable {runs : Prop}

/-- Work on a channel that closes no minute. -/
theorem State.Prepared.unclosed (h : s.Prepared u ch x runs) (closes : x.closes ch = none) (switch : x.switch ch = none) :
    s.Served u [ch] x ∧ s.StillQuiet u := by
  have calls : x.calls ch ↔ runs := by rw [h.calls, switch]; simp
  refine ⟨⟨h.ready.frame.settings, fun c out => h.ready.others c fun same => out (same ▸ List.mem_singleton_self _), ⟨[], [], ?_⟩, fun c mem _ => ?_,
    State.Switched.served (o := none) ⟨(fun _ is => nomatch is), fun _ =>
      ⟨h.ready.store, h.ready.stands.fs, h.ready.stands.calSeq, h.ready.stands.uncalibrated⟩⟩ switch h.ready.others (fun _ => h.pending) h.recorded,
    calCalled_one (fun c => h.called (calls.1 c)) fun c => h.uncalled fun r => c (calls.2 r)⟩,
    fun _ q => h.ready.notices q _ (by unfold NoticeKind.besideAccounts; decide)⟩
  · rw [x.closing_one, closes, show closesOne ch none = fun _ => none by funext c; unfold closesOne; exact ite_self _]
    exact h.ready.unclosed
  · rw [List.mem_singleton.1 mem]
    exact h.ready.stands.quiet

/-- R34, R93, R124: work on a channel, then the close of its minute. -/
theorem State.Prepared.closed (h : s.Prepared u ch x runs) (w : WaitingClose) (closes : x.closes ch = some w.boundary)
    (switch : x.switch ch = w.switch (s.chan ch)) (minute : x.minute ch (u.chan ch).engine.minute) :
    s.Served (u.closeMinute ch w) [ch] x ∧ s.StillQuiet (u.closeMinute ch w) := by
  have made := h.ready.made w
  obtain ⟨switched, unswitched⟩ := h.ready.switched w
  rw [h.period] at made
  have same : w.switch (u.chan ch) = x.switch ch := by rw [switch, WaitingClose.switch, WaitingClose.switch, h.pending]
  rw [same] at switched unswitched
  have others (c : Ch) (hc : c ≠ ch) : (u.closeMinute ch w).chan c = s.chan c := (u.chan_closeMinute_ne hc w).trans (h.ready.others c hc)
  have chan := (u.chan_closeMinute ch w).2.2.2
  unfold Channel.Closed at chan
  have record : ((u.closeMinute ch w).chan ch).calRecord = (u.chan ch).calRecord := by rw [chan]
  obtain ⟨joins, still⟩ := made.closed (minute := x.minute) others minute
  refine ⟨⟨(h.ready.frame.trans (.closeMinute u ch w)).settings, fun c out => others c fun same => out (same ▸ List.mem_singleton_self _), ?_,
    fun c mem none' => ?_, switched.served rfl others (fun none' => (unswitched none').1.trans h.pending) (record.trans h.recorded),
    calCalled_one (fun calls => ?_) fun uncalled => ?_⟩, still⟩
  · rw [x.closing_one, closes]
    exact joins
  · rw [List.mem_singleton.1 mem, closes] at none'
    cases none'
  · cases asked : x.switch ch with
    | some fs => exact (switched.made fs asked).2.2
    | none =>
      have ran : runs := (h.calls.1 calls).resolve_right fun ⟨fs, is⟩ => by rw [asked] at is; cases is
      intro q
      rw [(unswitched asked).2, record]
      exact h.called ran q
  · have none' : x.switch ch = none := Option.eq_none_iff_forall_ne_some.2 fun fs is => uncalled (h.calls.2 (.inr ⟨fs, is⟩))
    exact fun q => ((unswitched none').2 q).trans (h.uncalled (fun ran => uncalled (h.calls.2 (.inl ran))) q)

/-- R45, R124: work on a channel, then its waiting close, if there is one. -/
theorem State.Prepared.closeWaiting (h : s.Prepared u ch x runs) (waiting : (u.chan ch).waiting = (s.chan ch).waiting)
    (closes : x.closes ch = (s.chan ch).waiting.map WaitingClose.boundary) (switch : x.switch ch = (s.chan ch).waiting.bind fun w => w.switch (s.chan ch))
    (minute : x.minute ch (u.chan ch).engine.minute) : s.Served (u.closeWaiting ch) [ch] x ∧ s.StillQuiet (u.closeWaiting ch) := by
  cases waits : (s.chan ch).waiting with
  | none =>
    rw [waits] at waiting closes switch
    rw [State.closeWaiting_none waiting]
    exact h.unclosed closes switch
  | some w =>
    rw [waits] at waiting closes switch
    rw [State.closeWaiting_some waiting]
    have chan : (u.setChan ch { u.chan ch with waiting := none }).chan ch = { u.chan ch with waiting := none } := State.chan_setChan_self _ _ _
    have prepared : s.Prepared (u.setChan ch { u.chan ch with waiting := none }) ch x runs :=
      ⟨h.ready.trans (.setChan u ch ⟨rfl, rfl, rfl, rfl, rfl, rfl⟩), by rw [chan]; exact h.period, by rw [chan]; exact h.pending,
        by rw [chan]; exact h.recorded, h.calls, fun ran q => by rw [State.port_setChan, chan]; exact h.called ran q,
        fun ran q => by rw [State.port_setChan]; exact h.uncalled ran q⟩
    exact prepared.closed w closes switch (by rw [chan]; exact minute)

end

end Sys2Proof.Machine


/-! The loss and the restoration of a line: one channel after another (O28). -/

namespace Sys2Proof.Machine

/-! ### A treatment of several channels -/

/-- A kind of work that ends slices and events of the channels it acts on, beside its closes: with what cause their events close, what CHANNEL tells, whose
run ends, and what is left of each channel. -/
structure Treatment extends Service where
  acts : Ch → Bool
  cause : EndCause
  enters : Entered
  ends : Ch → Bool
  leaves : Ch → Channel → Prop

/-- The channels of a list have been treated between `s` and `t`. -/
structure State.Treated (s t : State) (l : List Ch) (y : Treatment) : Prop where
  served : s.Served t l y.toService
  events : EventsClosed s t (· ∈ l) y.cause
  chan : ∀ c ∈ l, y.leaves c (t.chan c)
  told : l ≠ [] → ∃ c ∈ l, ∀ q, ((t.port q).notice .channel).flag = true ∧ ((t.port q).notice .channel).detail = ⟨c, y.enters.code, 0⟩
  untold : l = [] → ∀ q, (t.port q).notice .channel = (s.port q).notice .channel
  goesOn : (∀ c ∈ l, y.ends c = false) → t.calUnit = s.calUnit
  ended : (∃ c ∈ l, y.ends c = true) → t.calUnit = { s.calUnit with run := none }
  clock : t.clock = s.clock
  outside : t.wx = s.wx ∧ ∀ q k, k = .dispensation ∨ k = .clock → (t.port q).notice k = (s.port q).notice k

section

variable {s t v : State} {l : List Ch} {y : Treatment}

theorem State.Treated.push (h : s.Treated t l y) {a : Ch} (h' : t.Treated v [a] y) (apart : a ∉ l) (still : t.StillQuiet v) :
    s.Treated v (l ++ [a]) y where
  served := h.served.append h'.served (fun c mem => List.mem_singleton.1 mem ▸ apart) still
  events := by
    have closed := h.events.trans h'.events fun c mem => h.served.others c (List.mem_singleton.1 mem ▸ apart)
    exact (show (· ∈ l ++ [a]) = fun c => c ∈ l ∨ c ∈ [a] by funext c; rw [List.mem_append]) ▸ closed
  chan c mem := by
    rcases List.mem_append.1 mem with first | last
    · rw [h'.served.others c fun last => apart (List.mem_singleton.1 last ▸ first)]
      exact h.chan c first
    · exact h'.chan c last
  told _ := by
    obtain ⟨c, mem, told⟩ := h'.told (List.cons_ne_nil a [])
    exact ⟨c, List.mem_append_right _ mem, told⟩
  untold none' := absurd none' (List.append_ne_nil_of_right_ne_nil _ (List.cons_ne_nil a []))
  goesOn none' := (h'.goesOn fun c mem => none' c (List.mem_append_right _ mem)).trans (h.goesOn fun c mem => none' c (List.mem_append_left _ mem))
  ended := by
    rintro ⟨c, mem, ends⟩
    by_cases first : ∃ c ∈ l, y.ends c = true
    · by_cases last : y.ends a = true
      · rw [h'.ended ⟨a, List.mem_singleton_self a, last⟩, h.ended first]
      · rw [h'.goesOn fun d mem => List.mem_singleton.1 mem ▸ Bool.eq_false_iff.2 last, h.ended first]
    · have same := h.goesOn fun d mem => Bool.eq_false_iff.2 fun ends => first ⟨d, mem, ends⟩
      have last : c ∈ [a] := (List.mem_append.1 mem).resolve_left fun mem => first ⟨c, mem, ends⟩
      rw [h'.ended ⟨c, last, ends⟩, same]
  clock := h'.clock.trans h.clock
  outside := ⟨h'.outside.1.trans h.outside.1, fun q k hk => (h'.outside.2 q k hk).trans (h.outside.2 q k hk)⟩

/-- While a run ends with its channel, another channel has the run it had. -/
theorem State.Treated.runningOn (h : s.Treated t l y) (ends : y.ends = s.runningOn) {a : Ch} (apart : a ∉ l) : t.runningOn a = s.runningOn a := by
  by_cases some : ∃ c ∈ l, y.ends c = true
  · obtain ⟨c, mem, running⟩ := some
    have idle : t.runningOn a = false := by rw [State.runningOn, h.ended ⟨c, mem, running⟩]; rfl
    rw [idle]
    refine (Bool.eq_false_iff.2 fun also => ?_).symm
    rw [ends] at running
    obtain ⟨r, run, rfl⟩ := (s.runningOn_iff c).1 running
    obtain ⟨r', run', rfl⟩ := (s.runningOn_iff a).1 also
    rw [run] at run'
    cases run'
    exact apart mem
  · rw [State.runningOn, h.goesOn fun c mem => Bool.eq_false_iff.2 fun e => some ⟨c, mem, e⟩, State.runningOn]

/-- Work that treats each channel it acts on, and leaves another alone, treats those of a list. -/
theorem State.Treated.foldl {work : State → Ch → State}
    (step : ∀ (l : List Ch) (t : State) (a : Ch), s.Treated t l y → a ∉ l → y.acts a = true → t.Treated (work t a) [a] y ∧ t.StillQuiet (work t a))
    (idle : ∀ (t : State) (a : Ch), t.chan a = s.chan a → y.acts a = false → work t a = t) :
    ∀ (l done : List Ch) (t : State), (done ++ l).Nodup → s.Treated t (done.filter y.acts) y → s.Treated (l.foldl work t) ((done ++ l).filter y.acts) y
  | [], done, t, _, h => by rwa [List.append_nil]
  | a :: l, done, t, nodup, h => by
    have apart : a ∉ done.filter y.acts := fun mem => by
      have := List.disjoint_of_nodup_append nodup (List.mem_of_mem_filter mem)
      exact this (List.mem_cons_self ..)
    have next : s.Treated (work t a) ((done ++ [a]).filter y.acts) y := by
      rw [List.filter_append]
      cases acts : y.acts a with
      | true =>
        obtain ⟨treated, still⟩ := step _ t a h apart acts
        rw [List.filter_cons_of_pos acts]
        exact h.push treated apart still
      | false =>
        rw [idle t a (h.served.others a apart) acts, List.filter_cons_of_neg (by rw [acts]; decide), List.filter_nil, List.append_nil]
        exact h
    have rest := State.Treated.foldl step idle l (done ++ [a]) (work t a) (by rwa [List.append_assoc]) next
    rw [List.append_assoc] at rest
    exact rest

/-- No channel has been treated: a line may have changed, and an order may have been used. -/
theorem State.Treated.nil (s : State) (y : Treatment) (line0 line1 : LineRx) (n : Nat) :
    s.Treated { s with line0 := line0, line1 := line1, orderUses := n } [] y where
  served := by
    have settings : s.SameSettings { s with line0 := line0, line1 := line1, orderUses := n } := ⟨rfl, rfl, rfl, rfl, fun q => by cases q <;> rfl⟩
    exact .nil settings rfl ⟨rfl, rfl⟩ ⟨rfl, rfl⟩ rfl rfl (fun q => by cases q <;> exact ⟨rfl, fun _ _ _ => rfl⟩) _
  events := ⟨rfl, List.forall₂_same.2 fun r _ => ⟨fun _ => rfl, fun ⟨_, _, mem, _⟩ => nomatch mem⟩, fun ⟨_, _, mem, _⟩ => (nomatch mem),
    fun _ q => by cases q <;> rfl⟩
  chan := nofun
  told h := absurd rfl h
  untold _ q := by cases q <;> rfl
  goesOn _ := rfl
  ended := nofun
  clock := rfl
  outside := ⟨rfl, fun q k _ => by cases q <;> rfl⟩

/-- Channels are treated in any order. -/
theorem State.Treated.inAnyOrder {work : State → Ch → State}
    (step : ∀ (l : List Ch) (t : State) (a : Ch), s.Treated t l y → a ∉ l → y.acts a = true → t.Treated (work t a) [a] y ∧ t.StillQuiet (work t a))
    (idle : ∀ (t : State) (a : Ch), t.chan a = s.chan a → y.acts a = false → work t a = t) {l : List Ch} (nodup : l.Nodup) {u : State}
    (begun : ∃ line0 line1, u = { s with line0 := line0, line1 := line1 }) :
    ∃ l', (∀ c, c ∈ l' ↔ c ∈ l ∧ y.acts c = true) ∧ s.Treated (u.inAnyOrder l work) l' y := by
  obtain ⟨line0, line1, rfl⟩ := begun
  obtain ⟨perm, state⟩ := State.arrange_perm { s with line0 := line0, line1 := line1 } l
  refine ⟨_, fun c => ?_, State.Treated.foldl step idle _ [] _ (by rw [List.nil_append]; exact perm.symm.nodup nodup) ?_⟩
  · rw [List.nil_append, List.mem_filter, perm.mem_iff]
  · rw [state]
    exact .nil s y line0 line1 _

end

/-! ### A slice cut short -/

/-- The work that ends a minute of each channel with its waiting close, with the switch of that close; `runs` says whose run ends with it. -/
def State.serviceOf (s : State) (minute : Ch → MinuteAcc → Prop) (record : Ch → CalRecord) (runs : Ch → Prop) : Service where
  closes c := (s.chan c).waiting.map WaitingClose.boundary
  minute := minute
  switch c := (s.chan c).waiting.bind fun w => w.switch (s.chan c)
  record := record
  calls c := runs c ∨ ∃ fs, ((s.chan c).waiting.bind fun w => w.switch (s.chan c)) = some fs

/-- What a cut slice is in the minute of each channel. -/
def State.cutMinute (s : State) (c : Ch) (m : MinuteAcc) : Prop := SliceTaken (s.chan c).engine .missing (s.chan c).fs m

/-- What a cut slice, with the waiting close made, leaves of its channel. -/
structure Channel.Cut (a b : Channel) : Prop where
  is : b = { a with
    engine := { a.engine with slice := .empty, minute := b.engine.minute, kept := some ⟨.missing, 0⟩ }
    openEvent := none, continuation := false, minuteNo := b.minuteNo, waiting := none, period := b.period, day := b.day, quiet := b.quiet
    fs := b.fs, calSeq := b.calSeq, uncalibrated := b.uncalibrated, pendingFs := b.pendingFs }
  goesOn : a.waiting = none → SliceTaken a.engine .missing a.fs b.engine.minute ∧ b.minuteNo = a.minuteNo ∧ b.period = a.period ∧ b.day = a.day ∧
    b.quiet = a.quiet

section

variable (u : State) (ch : Ch)

theorem State.cutResult : u.sliceResult ch true = (u.chan ch).engine.slice.result .missing (u.chan ch).fs := rfl

theorem State.cutResult_invalid : (u.sliceResult ch true).cls ≠ .valid := by
  rw [u.cutResult ch, SliceAcc.result_cls]; decide

/-- R131: the detector closes the channel's event as the slice is cut short. -/
theorem State.cutDetected : u.detected ch (u.sliceResult ch true) = (u.closeEvent ch .interrupted).setContinuation ch false := by
  rw [State.detected, Channel.countSlice_other (.inl (u.cutResult_invalid ch)), State.setChan_chan,
    State.detectSlice_invalid (u.cutResult_invalid ch)]

/-- The hand-on of a slice cut short. -/
def State.cutHanded : State := u.handOn ch (u.sliceResult ch true)

theorem State.cutSlice_eq : u.cutSlice ch = (u.cutHanded ch).closeWaiting ch := rfl

theorem State.cutHanded_chan : (u.cutHanded ch).chan ch = { u.chan ch with
    engine := { (u.chan ch).engine with
      slice := .empty, kept := some ⟨.missing, 0⟩
      minute := (u.chan ch).engine.minute.takeSlice (u.chan ch).engine.slice ((u.chan ch).engine.slice.result .missing (u.chan ch).fs) }
    openEvent := none, continuation := false } := by
  have handed := u.handOn_chan ch (u.sliceResult ch true)
  obtain ⟨event, continuation, -⟩ := u.handOn_events ch (u.sliceResult ch true)
  rw [u.cutDetected ch, State.setContinuation, State.chan_setChan_self, State.closeEvent_chan] at event continuation
  rw [Channel.countSlice_other (.inl (u.cutResult_invalid ch))] at handed
  dsimp only at handed
  rw [event, continuation] at handed
  exact handed

theorem State.cutHanded_notice (q : Port) (k : NoticeKind) (hk : k ≠ .event) : ((u.cutHanded ch).port q).notice k = (u.port q).notice k :=
  (State.SliceFrame.handOn u ch _).notices q k hk

theorem State.cutSlice_cut : (u.chan ch).Cut ((u.cutSlice ch).chan ch) := by
  have handed := u.cutHanded_chan ch
  obtain ⟨waiting, closed⟩ := (u.cutHanded ch).chan_closeWaiting ch
  unfold Channel.Closed at closed
  rw [u.cutSlice_eq ch]
  refine ⟨?_, fun none' => ?_⟩
  · rw [waiting, handed] at closed
    exact closed
  · rw [State.closeWaiting_none (by rw [handed]; exact none'), handed]
    exact ⟨Engine.takeSlice_taken _ _ _, rfl, rfl, rfl, rfl⟩

theorem State.cutSlice_events : EventsClosed u (u.cutSlice ch) (· = ch) .interrupted := by
  obtain ⟨-, -, list, seq, notices, -⟩ := u.handOn_events ch (u.sliceResult ch true)
  rw [u.cutDetected ch] at list seq notices
  have before : (u.closeEvent ch .interrupted).SameEvents ((u.closeEvent ch .interrupted).setContinuation ch false) :=
    ⟨rfl, rfl, fun q => by rw [State.setContinuation, State.port_setChan]⟩
  exact (u.closeEvent_closes ch .interrupted).after (before.trans (.trans ⟨list, seq, notices⟩ (State.closeWaiting_events _ ch)))

theorem State.cutSlice_outside : (u.cutSlice ch).calUnit = u.calUnit ∧ (u.cutSlice ch).wx = u.wx ∧
    ∀ q k, k = .channel ∨ k = .dispensation ∨ k = .clock → ((u.cutSlice ch).port q).notice k = (u.port q).notice k := by
  have closed := State.CloseFrame.closeWaiting (u.cutHanded ch) ch
  have unit : (u.cutHanded ch).calUnit = u.calUnit := u.handOn_calUnit ch _ (.inl (by rw [u.cutResult ch, SliceAcc.result_cls]; decide))
  refine ⟨closed.calUnit.trans unit, closed.wx.trans (u.handOn_wx ch _), fun q k hk => ?_⟩
  have beside : k.besideClose := .inr hk
  refine (closed.notices q k beside).trans (u.cutHanded_notice ch q k ?_)
  rintro rfl
  rcases hk with h | h | h <;> cases h

variable {u ch}

/-- R3, R4, R45, R124: a cut slice with the waiting close that is made with it. -/
theorem State.cutSlice_served {s : State} (same : u.chan ch = s.chan ch) (record : Ch → CalRecord) (recorded : record ch = (u.chan ch).calRecord) :
    u.Served (u.cutSlice ch) [ch] (s.serviceOf s.cutMinute record fun _ => False) ∧ u.StillQuiet (u.cutSlice ch) := by
  have handed := u.cutHanded_chan ch
  have prepared : u.Prepared (u.cutHanded ch) ch (s.serviceOf s.cutMinute record fun _ => False) False :=
    ⟨.handOn u ch _, by rw [handed], by rw [handed], by rw [handed]; exact recorded.symm, Iff.rfl, nofun,
      fun _ q => u.cutHanded_notice ch q _ (by decide)⟩
  rw [u.cutSlice_eq ch]
  refine prepared.closeWaiting (by rw [handed]) (congrArg (fun c => c.waiting.map WaitingClose.boundary) same.symm)
    (congrArg (fun c : Channel => c.waiting.bind fun w => w.switch c) same.symm) ?_
  show SliceTaken (s.chan ch).engine .missing (s.chan ch).fs _
  rw [handed, ← same]
  exact Engine.takeSlice_taken _ _ _

end

/-! ### The end of a run, and CHANNEL -/

/-- The calibration record of a channel once a run on it, if there is one, has ended early with an outcome (R120, R121). -/
def State.concluded (s : State) (o : CalOutcome) (c : Ch) : CalRecord :=
  if s.runningOn c then { (s.chan c).calRecord with outcome := o, minute := if s.clock.set then some s.clock.minute else none } else (s.chan c).calRecord

theorem State.endRun_idle {u : State} {ch : Ch} {o : CalOutcome} (idle : u.runningOn ch = false) : u.endRun ch o = u := by
  unfold State.endRun; rw [idle]; rfl

/-- What the early end of a run leaves. -/
structure State.RunEnded (u v : State) (ch : Ch) (o : CalOutcome) : Prop where
  ready : u.Readied ch v
  chan : v.chan ch = { u.chan ch with calRecord := u.concluded o ch }
  events : u.SameEvents v
  wx : v.wx = u.wx
  notices : ∀ q k, k ≠ .cal → (v.port q).notice k = (u.port q).notice k
  ended : u.runningOn ch = true → v.calUnit = { u.calUnit with run := none } ∧ CalSet v ch
  idle : u.runningOn ch = false → v = u

theorem State.endRun_leaves (u : State) (ch : Ch) (o : CalOutcome) : u.RunEnded (u.endRun ch o) ch o := by
  cases running : u.runningOn ch with
  | false =>
    rw [State.endRun_idle running]
    refine ⟨.refl ch u, ?_, ⟨rfl, rfl, fun _ => rfl⟩, rfl, fun _ _ _ => rfl, fun h => ?_, fun _ => rfl⟩
    · rw [State.concluded, running]; rfl
    · rw [running] at h; cases h
  | true =>
    obtain ⟨frame, others, chan, set⟩ := u.endRun_does ch o running
    have notices (q : Port) (k : NoticeKind) (hk : k ≠ .cal) := (set q).1.2.1 k hk
    have conditions (q : Port) : ((u.endRun ch o).port q).conditions = (u.port q).conditions := by rw [(set q).1.1]
    refine ⟨⟨.endRun u ch o, others, ?_, ?_, ?_, ?_, conditions, fun q k hk => notices q k fun e => hk (.inr (.inl e)),
      by rw [chan]; exact ⟨rfl, rfl, rfl, rfl, rfl, rfl⟩⟩, ?_, ⟨?_, ?_, fun q => notices q _ (by decide)⟩, ?_, notices, fun _ => ⟨?_, fun q => ?_⟩,
      fun h => ?_⟩
    case refine_5 => rw [chan, State.concluded, if_pos running]
    case refine_10 => rw [chan]; exact (set q).2
    case refine_11 => rw [running] at h; cases h
    all_goals rw [frame]
    all_goals exact ⟨rfl, rfl⟩

theorem State.Readied.notifyChannel (s : State) (ch : Ch) (e : Entered) : s.Readied ch (s.notifyChannel ch e) :=
  (State.SliceFrame.notifyBoth .channel s ch _).readied (.inr (.inr rfl)) (.notifyBoth s _ _) (.refl _)

/-- Between `v` and `w` a channel has become `c`, and CHANNEL tells what state it has entered. -/
structure State.Shifted (v w : State) (ch : Ch) (c : Channel) (e : Entered) : Prop where
  ready : (v.chan ch).Stands c → v.Readied ch w
  chan : w.chan ch = c
  events : v.SameEvents w
  kept : w.calUnit = v.calUnit ∧ w.wx = v.wx ∧ w.clock = v.clock
  notices : ∀ q k, k ≠ .channel → (w.port q).notice k = (v.port q).notice k
  told : ∀ q, ((w.port q).notice .channel).flag = true ∧ ((w.port q).notice .channel).detail = ⟨ch, e.code, 0⟩
  records : c.calRecord = (v.chan ch).calRecord → ∀ d, (w.chan d).calRecord = (v.chan d).calRecord

theorem State.shifted (v : State) (ch : Ch) (c : Channel) (e : Entered) : v.Shifted ((v.setChan ch c).notifyChannel ch e) ch c e := by
  have port (q : Port) : ((v.setChan ch c).notifyChannel ch e).port q = (v.port q).notify .channel ⟨ch, e.code, 0⟩ := by
    rw [State.notifyChannel, State.port_notifyBoth, State.port_setChan]
  have notices (q : Port) (k : NoticeKind) (hk : k ≠ .channel) : (((v.setChan ch c).notifyChannel ch e).port q).notice k = (v.port q).notice k := by
    rw [port, PortState.notice_notify, if_neg hk]
  refine ⟨fun stands => (State.Readied.setChan v ch stands).trans (.notifyChannel _ ch e), by rw [State.notifyChannel, State.chan_notifyBoth, State.chan_setChan_self],
    ⟨rfl, rfl, fun q => notices q _ (by decide)⟩, ⟨rfl, rfl, rfl⟩, notices, fun q => ?_, fun record d => ?_⟩
  · rw [port, PortState.notice_notify, if_pos rfl]
    exact ⟨rfl, rfl⟩
  · rw [State.notifyChannel, State.chan_notifyBoth, State.chan_setChan]
    split
    · next same => rw [same, record]
    · rfl

/-! ### The loss of a line -/

/-- What the loss of a line does to its channels, found as in `s` (R3, R121). -/
def State.losing (s : State) : Treatment where
  toService := s.serviceOf s.cutMinute (fun c => (s.chan c).calRecord) fun c => s.runningOn c = true
  acts c := decide ((s.chan c).state ≠ .off ∧ (s.chan c).state ≠ .faulted)
  cause := .interrupted
  enters := .faulted
  ends := s.runningOn
  leaves c d := ∃ b, (s.chan c).Cut b ∧ d = { b with state := .faulted, settle := 0, calRecord := s.concluded .fault c }

section

variable {s u : State} {ch : Ch}

theorem State.loseChannel_runs (runs : (u.chan ch).state ≠ .off ∧ (u.chan ch).state ≠ .faulted) :
    u.loseChannel ch = (((u.cutSlice ch).endRun ch .fault).enter ch .faulted).notifyChannel ch .faulted := by
  unfold State.loseChannel
  split
  · next h => exact absurd h runs.1
  · next h => exact absurd h runs.2
  · rfl

/-- CAL is called for on one channel where its run has ended there, and otherwise as it was before. -/
theorem CalCalled.runEnded {t v : State} {o : CalOutcome} {runs p : Ch → Prop} (h : CalCalled u t fun c => c ∈ [ch] ∧ (False ∨ p c))
    (ended : t.RunEnded v ch o) (running : runs ch ↔ t.runningOn ch = true) : CalCalled u v fun c => c ∈ [ch] ∧ (runs c ∨ p c) := by
  have mem := List.mem_singleton_self ch
  cases run : t.runningOn ch with
  | true =>
    exact ⟨fun _ => ⟨ch, ⟨mem, .inl (running.2 run)⟩, (ended.ended run).2⟩, fun none' => absurd ⟨mem, .inl (running.2 run)⟩ (none' ch)⟩
  | false =>
    rw [ended.idle run]
    have same : (fun c => c ∈ [ch] ∧ (runs c ∨ p c)) = fun c => c ∈ [ch] ∧ (False ∨ p c) := by
      funext c
      refine propext (and_congr_right fun named => or_congr_left ⟨fun r => ?_, False.elim⟩)
      rw [List.mem_singleton.1 named, running, run] at r
      cases r
    rw [same]
    exact h

/-- CAL stays as it was called for where neither it nor a record changes. -/
theorem CalCalled.stays {t v : State} {p : Ch → Prop} (h : CalCalled u t p) (cal : ∀ q, (v.port q).notice .cal = (t.port q).notice .cal)
    (record : ∀ c, (v.chan c).calRecord = (t.chan c).calRecord) : CalCalled u v p := by
  refine ⟨fun some => ?_, fun none' q => (cal q).trans (h.2 none' q)⟩
  obtain ⟨c, calls, set⟩ := h.1 some
  exact ⟨c, calls, fun q => by rw [cal, record]; exact set q⟩

theorem EventsClosed.one {t : State} {cause : EndCause} (h : EventsClosed u t (· = ch) cause) : EventsClosed u t (· ∈ [ch]) cause :=
  (show (· ∈ [ch]) = (· = ch) by funext c; exact propext List.mem_singleton) ▸ h

/-- R3, R121: a running channel treats the loss of its line. -/
theorem State.loseChannel_treated (same : u.chan ch = s.chan ch) (running : u.runningOn ch = s.runningOn ch) (clock : u.clock = s.clock)
    (acts : s.losing.acts ch = true) :
    u.Treated (u.loseChannel ch) [ch] s.losing ∧ u.StillQuiet (u.loseChannel ch) := by
  have runs := of_decide_eq_true acts
  rw [State.loseChannel_runs (same.symm ▸ runs)]
  obtain ⟨served, still⟩ := State.cutSlice_served same (fun c => (s.chan c).calRecord) (by rw [same])
  have cut := u.cutSlice_cut ch
  have events := u.cutSlice_events ch
  obtain ⟨unit, wx, notices⟩ := u.cutSlice_outside ch
  have clock' := (State.SameFrame.cutSlice u ch).clock
  generalize u.cutSlice ch = t at *
  have ended := t.endRun_leaves ch .fault
  generalize t.endRun ch .fault = v at *
  have shifted : v.Shifted ((v.enter ch .faulted).notifyChannel ch .faulted) ch { v.chan ch with state := .faulted, settle := 0 } .faulted := v.shifted ch _ _
  have after := ended.ready.trans (shifted.ready ⟨rfl, rfl, rfl, rfl, rfl, rfl⟩)
  have runs' : t.runningOn ch = s.runningOn ch := by rw [← running, State.runningOn, State.runningOn, unit]
  have cal := (served.cal.runEnded (runs := fun c => s.runningOn c = true) ended (by rw [runs'])).stays
    (fun q => shifted.notices q _ (by decide)) (shifted.records rfl)
  have chan := shifted.chan
  rw [ended.chan] at chan
  have only {c : Ch} (mem : c ∈ [ch]) : c = ch := List.mem_singleton.1 mem
  refine ⟨⟨served.after (x := s.losing.toService) after (by rw [chan]) (by rw [chan]) (by rw [chan]) cal,
    (events.after (ended.events.trans shifted.events)).one, fun c mem => ?_, fun _ => ⟨ch, List.mem_singleton_self ch, shifted.told⟩, nofun,
    fun none' => ?_, ?_, after.frame.clock.trans clock', ended.wx.trans wx, fun q k hk => ?_⟩, still.after after⟩
  · rw [only mem]
    refine ⟨t.chan ch, same ▸ cut, chan.trans ?_⟩
    rw [State.concluded, State.concluded, runs', clock', clock, cut.is, same]
  · have idle := none' ch (List.mem_singleton_self ch)
    show v.calUnit = u.calUnit
    rw [ended.idle (runs'.trans idle), unit]
  · rintro ⟨c, mem, ran⟩
    rw [only mem] at ran
    show v.calUnit = _
    rw [(ended.ended (runs'.trans ran)).1, unit]
  · rw [shifted.notices q k (by rintro rfl; rcases hk with h | h <;> cases h), ended.notices q k (by rintro rfl; rcases hk with h | h <;> cases h),
      notices q k (.inr hk)]

theorem State.loseChannel_idle (same : u.chan ch = s.chan ch) (idle : s.losing.acts ch = false) :
    u.loseChannel ch = u := by
  have still : (u.chan ch).state = .off ∨ (u.chan ch).state = .faulted := by
    rw [same]
    by_contra runs
    exact (of_decide_eq_false idle) (not_or.1 runs)
  unfold State.loseChannel
  rcases still with h | h <;> rw [h]

/-! ### The restoration of a line -/

/-- What the restoration of a line does to its channels, found as in `s` (R4). -/
def State.restoring (s : State) : Treatment where
  toService := s.serviceOf s.cutMinute (fun c => (s.chan c).calRecord) fun _ => False
  acts c := decide ((s.chan c).state = .faulted)
  cause := .interrupted
  enters := .settling
  ends _ := false
  leaves c d := ∃ b, (s.chan c).Cut b ∧ d = { b with state := .settling, settle := 0, engine := b.engine.clear }

theorem State.restoreChannel_faulted (faulted : (u.chan ch).state = .faulted) : u.restoreChannel ch =
    ((u.cutSlice ch).setChan ch { (u.cutSlice ch).chan ch with
      state := .settling, settle := 0, engine := ((u.cutSlice ch).chan ch).engine.clear }).notifyChannel ch .settling := by
  unfold State.restoreChannel
  rw [if_pos faulted]
  dsimp only
  rw [State.enter, State.chan_setChan_self, State.setChan_setChan]

theorem State.restoreChannel_idle (same : u.chan ch = s.chan ch) (idle : s.restoring.acts ch = false) :
    u.restoreChannel ch = u := by
  unfold State.restoreChannel
  rw [same, if_neg fun faulted => (of_decide_eq_false idle) faulted]

/-- R4: a FAULTED channel treats the restoration of its line. -/
theorem State.restoreChannel_treated (same : u.chan ch = s.chan ch) (acts : s.restoring.acts ch = true) :
    u.Treated (u.restoreChannel ch) [ch] s.restoring ∧ u.StillQuiet (u.restoreChannel ch) := by
  have faulted := of_decide_eq_true acts
  rw [State.restoreChannel_faulted (same.symm ▸ faulted)]
  obtain ⟨served, still⟩ := State.cutSlice_served same (fun c => (s.chan c).calRecord) (by rw [same])
  have cut := u.cutSlice_cut ch
  have events := u.cutSlice_events ch
  obtain ⟨unit, wx, notices⟩ := u.cutSlice_outside ch
  have clock := (State.SameFrame.cutSlice u ch).clock
  generalize u.cutSlice ch = t at *
  have shifted := t.shifted ch { t.chan ch with state := .settling, settle := 0, engine := (t.chan ch).engine.clear } .settling
  have after := shifted.ready ⟨rfl, rfl, rfl, rfl, rfl, rfl⟩
  have chan := shifted.chan
  refine ⟨⟨served.after (x := s.restoring.toService) after (by rw [chan]; rfl) (by rw [chan]) (by rw [chan])
    (served.cal.stays (fun q => shifted.notices q _ (by decide)) (shifted.records rfl)), (events.after shifted.events).one, fun c mem => ?_,
    fun _ => ⟨ch, List.mem_singleton_self ch, shifted.told⟩, nofun, fun _ => unit, nofun, clock, wx, fun q k hk => ?_⟩, still.after after⟩
  · rw [List.mem_singleton.1 mem]
    exact ⟨t.chan ch, same ▸ cut, chan⟩
  · rw [shifted.notices q k (by rintro rfl; rcases hk with h | h <;> cases h), notices q k (.inr hk)]

end

/-! ### What the cut slices of several channels are together -/

theorem WaitingClose.switch_at {c : Channel} {fs : Level} (on : c.state ≠ .off) :
    (c.waiting.bind fun w => w.switch c) = some fs ↔ c.pendingFs = some fs ∧ (c.state = .off ∨ ∃ w, c.waiting = some w ∧ w.makesSwitch = true) := by
  cases c.waiting with
  | none => simp [on]
  | some w => simp [on, WaitingClose.switch_some, and_comm]

theorem State.Treated.closed {s t : State} {l : List Ch} {y : Treatment} (h : s.Treated t l y) {acts : Ch → Prop} [DecidablePred acts]
    (all : ∀ c, c ∈ l ↔ acts c) : MinutesClosed s t (fun c => if acts c then y.closes c else none) y.minute := by
  obtain ⟨rs, ps, joins⟩ := h.served.joins
  have same : y.closing l = fun c => if acts c then y.closes c else none := by
    funext c
    unfold Service.closing
    by_cases h : acts c
    · rw [if_pos h, if_pos ((all c).2 h)]
    · rw [if_neg h, if_neg fun mem => h ((all c).1 mem)]
  exact same ▸ joins.minutesClosed

theorem State.Treated.switches {s t : State} {l : List Ch} {y : Treatment} (h : s.Treated t l y) {p : Ch → Level → Prop}
    (all : ∀ c fs, c ∈ l ∧ y.switch c = some fs ↔ p c fs) : SwitchesMade s t p y.record :=
  (show (fun c fs => c ∈ l ∧ y.switch c = some fs) = p by funext c fs; exact propext (all c fs)) ▸ h.served.switches

theorem State.Treated.cal {s t : State} {l : List Ch} {y : Treatment} (h : s.Treated t l y) {p : Ch → Prop}
    (all : ∀ c, c ∈ l ∧ y.calls c ↔ p c) : CalCalled s t p :=
  (show (fun c => c ∈ l ∧ y.calls c) = p by funext c; exact propext (all c)) ▸ h.served.cal

theorem State.Treated.closesEvents {s t : State} {l : List Ch} {y : Treatment} (h : s.Treated t l y) {p : Ch → Prop}
    (all : ∀ c, c ∈ l ↔ p c) : EventsClosed s t p y.cause :=
  (show (· ∈ l) = p by funext c; exact propext (all c)) ▸ h.events

/-- R3, R4, R45, R131: channels whose slices were cut short have them cut as `SlicesCut` has it, whatever is then left of their states. -/
theorem State.Treated.slicesCut {s t : State} {l : List Ch} {y : Treatment} {runs : Ch → Prop} (h : s.Treated t l y) {acts : Ch → Bool}
    (all : ∀ c, c ∈ l ↔ acts c = true) (service : y.toService = s.serviceOf s.cutMinute (fun c => (s.chan c).calRecord) runs) (cause : y.cause = .interrupted)
    (on : ∀ c, acts c = true → (s.chan c).state ≠ .off)
    (cut : ∀ c d, y.leaves c d → ∃ b, (s.chan c).Cut b ∧ ∃ x n f g k r,
      d = { b with state := x, settle := n, calRecord := r, engine := { b.engine with filters := f, f := g, s := k } }) : SlicesCut s t acts := by
  have left (c : Ch) (named : acts c = true) := cut c _ (h.chan c ((all c).2 named))
  refine ⟨fun c named => ?_, fun c named none' => ?_, ?_, ?_, ?_, fun c named => ?_, h.outside⟩
  · obtain ⟨b, is, x, n, f, g, k, r, eq⟩ := left c named
    rw [eq, is.is]
    exact ⟨rfl, rfl, rfl, rfl, rfl⟩
  · obtain ⟨b, is, x, n, f, g, k, r, eq⟩ := left c named
    rw [eq]
    exact is.goesOn none'
  · have closed := h.closed all
    rw [service] at closed
    exact closed
  · have switches := h.switches (p := fun c fs => acts c = true ∧ s.switchAt c fs) fun c fs => by
      rw [all, service]
      exact and_congr_right fun named => WaitingClose.switch_at (on c named)
    rw [service] at switches
    exact switches
  · exact cause ▸ h.closesEvents all
  · obtain ⟨b, is, x, n, f, g, k, r, eq⟩ := left c named
    rw [eq, is.is]

theorem State.setRx_lines (s : State) (l : Line) (r : LineRx) : ∃ line0 line1, s.setRx l r = { s with line0 := line0, line1 := line1 } := by
  cases l
  · exact ⟨r, s.line1, rfl⟩
  · exact ⟨s.line0, r, rfl⟩

theorem State.lineLost_idle (u : State) (l : Line) :
    (u.running = false → u.lineLost l = u) ∧ (u.running = true → (u.rx l).present = false → u.lineLost l = u.setRx l ⟨false, 0, 66⟩) := by
  refine ⟨fun held => ?_, fun running lost => ?_⟩
  · unfold State.lineLost; rw [held]; rfl
  · unfold State.lineLost; rw [running, lost]; rfl

/-- R2, R3: the loss of a PRESENT line treats its channels one after the other. -/
theorem State.lineLost_treated {u : State} {l : Line} (running : u.running = true) (present : (u.rx l).present = true) :
    (u.setRx l ⟨false, 0, 66⟩).SameFrame (u.lineLost l) ∧
    ∃ l', (∀ c, c ∈ l' ↔ c ∈ l.channels ∧ u.losing.acts c = true) ∧ u.Treated (u.lineLost l) l' u.losing := by
  have is : u.lineLost l = (u.setRx l ⟨false, 0, 66⟩).inAnyOrder l.channels State.loseChannel := by
    unfold State.lineLost; rw [if_pos running, if_pos present]
  rw [is]
  exact ⟨.inAnyOrder _ State.SameFrame.loseChannel _ _, State.Treated.inAnyOrder
    (fun _ _ a h apart acts => State.loseChannel_treated (h.served.others a apart) (h.runningOn rfl apart) h.clock acts)
    (fun _ a same idle => State.loseChannel_idle same idle) (lineChannels_nodup l) (u.setRx_lines l ⟨false, 0, 66⟩)⟩

theorem LineRx.restoreDue_iff (r : LineRx) : r.restoreDue = true ↔ r.present = false ∧ 4800 ≤ r.run := by
  unfold LineRx.restoreDue; simp

theorem State.lineRestored_idle {s : State} {l : Line} (idle : s.running = false ∨ (s.rx l).present = true ∨ (s.rx l).run < 4800) :
    s.lineRestored l = s := by
  refine s.lineRestored_not_due l (Bool.eq_false_iff.2 fun due => ?_)
  rw [Bool.and_eq_true, LineRx.restoreDue_iff] at due
  obtain ⟨running, lost, run⟩ := due
  rcases idle with h | h | h
  · rw [running] at h; cases h
  · rw [lost] at h; cases h
  · omega

/-- R2, R4: the restoration of a LOST line treats its channels one after the other. -/
theorem State.lineRestored_treated {s : State} {l : Line} (running : s.running = true) (due : (s.rx l).restoreDue = true) :
    (s.setRx l { s.rx l with present := true, run := 4800 }).SameFrame (s.lineRestored l) ∧
    ∃ l', (∀ c, c ∈ l' ↔ c ∈ l.channels ∧ s.restoring.acts c = true) ∧ s.Treated (s.lineRestored l) l' s.restoring := by
  have is : s.lineRestored l = (s.setRx l { s.rx l with present := true, run := 4800 }).inAnyOrder l.channels State.restoreChannel := by
    unfold State.lineRestored; rw [if_pos (by rw [running, due]; rfl)]
  rw [is]
  exact ⟨.inAnyOrder _ State.SameFrame.restoreChannel _ _, State.Treated.inAnyOrder
    (fun _ _ a h apart acts => State.restoreChannel_treated (h.served.others a apart) acts)
    (fun _ a same idle => State.restoreChannel_idle same idle) (lineChannels_nodup l) (s.setRx_lines l _)⟩

/-- A run is on one channel at a time. -/
theorem State.runningOn_unique {u : State} {c d : Ch} (hc : u.runningOn c = true) (hd : u.runningOn d = true) : c = d := by
  obtain ⟨r, run, rfl⟩ := (u.runningOn_iff c).1 hc
  obtain ⟨r', run', rfl⟩ := (u.runningOn_iff d).1 hd
  rw [run] at run'
  cases run'
  rfl

/-- R3, R4, R45, R131: what the loss and the restoration of a line leave, `l'` being the channels whose slices are cut short. -/
theorem State.Treated.lines {s t : State} {l' : List Ch} {y : Treatment} (h : s.Treated t l' y) {acts : Ch → Bool} (all : ∀ c, c ∈ l' ↔ acts c = true) :
    t.wx = s.wx ∧ (∀ c, acts c = false → t.chan c = s.chan c) ∧
    ((∃ c, acts c = true) → ∃ c, acts c = true ∧
      ∀ q, ((t.port q).notice .channel).flag = true ∧ ((t.port q).notice .channel).detail = ⟨c, y.enters.code, 0⟩) ∧
    ((∀ c, acts c = false) → ∀ q, (t.port q).notice .channel = (s.port q).notice .channel) := by
  have out {c : Ch} (idle : acts c = false) : c ∉ l' := fun mem => by
    have := (all c).1 mem
    rw [idle] at this
    cases this
  refine ⟨h.outside.1, fun c idle => h.served.others c (out idle), fun ⟨c, named⟩ => ?_,
    fun none' => h.untold (List.eq_nil_iff_forall_not_mem.2 fun c => out (none' c))⟩
  obtain ⟨d, mem, told⟩ := h.told (List.ne_nil_of_mem ((all c).2 named))
  exact ⟨d, (all d).1 mem, told⟩

/-- Settles O28: the channels of the line are treated one after the other, each by a cut slice. -/
theorem linesLostAndRestored : Obligations.LinesLostAndRestored := by
  intro l s
  have running := s.settle_running
  obtain ⟨held, absent⟩ := s.settle.lineLost_idle l
  rw [running] at held absent
  refine ⟨⟨fun h => congrArg Host.Outcome.next (held h), fun on lost => congrArg Host.Outcome.next (absent on lost), ?_⟩,
    fun idle => congrArg Host.Outcome.next (State.lineRestored_idle idle), ?_⟩
  · intro on present
    have ran' : exec (.lineLost l) s = .next (s.settle.lineLost l) := rfl
    generalize s.settle = u at *
    intro falls
    obtain ⟨frame, l', mem, treated⟩ := State.lineLost_treated (running.trans on) present
    have all (c : Ch) : c ∈ l' ↔ falls c = true := by
      rw [mem, mem_lineChannels, decide_eq_true_iff]
      exact and_congr_right fun _ => decide_eq_true_iff
    have named {c : Ch} (f : falls c = true) := of_decide_eq_true f
    obtain ⟨wx, others, told, untold⟩ := treated.lines all
    have cal := treated.cal (p := fun c => falls c = true ∧ (u.runningOn c = true ∨ ∃ fs, u.switchAt c fs)) fun c => by
      rw [all]
      exact and_congr_right fun f => or_congr_right (exists_congr fun fs => WaitingClose.switch_at (named f).2.1)
    have left {c : Ch} (f : falls c = true) := treated.chan c ((all c).2 f)
    refine ⟨_, ran', frame, wx, others, treated.slicesCut all rfl rfl (fun c f => (named f).2.1) ?_, fun c f => ?_,
      fun none' => treated.goesOn fun c mem => none' c ((all c).1 mem), ?_, cal, fun c f ran none' q => ?_, told, untold⟩
    · rintro c d ⟨b, cut, is⟩
      exact ⟨b, cut, _, _, _, _, _, _, is⟩
    · obtain ⟨b, cut, is⟩ := left f
      rw [is, cut.is]
      exact ⟨rfl, rfl, rfl, rfl, rfl, rfl⟩
    · rintro ⟨c, f, ran⟩
      exact treated.ended ⟨c, (all c).2 f, ran⟩
    · obtain ⟨d, ⟨fd, called⟩, set⟩ := cal.1 ⟨c, f, .inl ran⟩
      have alone := called.resolve_right fun ⟨fs, switches⟩ => none' d fs fd switches
      rw [State.runningOn_unique alone ran] at set
      obtain ⟨b, cut, is⟩ := left f
      have serial : ((u.lineLost l).chan c).calRecord.serial = (u.chan c).calRecord.serial := by
        rw [is]
        show (u.concluded .fault c).serial = _
        rw [State.concluded, if_pos ran]
      rw [(set q).2, serial]
  · intro on lost run rises
    obtain ⟨frame, l', mem, treated⟩ := State.lineRestored_treated on ((s.rx l).restoreDue_iff.2 ⟨lost, run⟩)
    have all (c : Ch) : c ∈ l' ↔ rises c = true := by
      rw [mem, mem_lineChannels, decide_eq_true_iff]
      exact and_congr_right fun _ => decide_eq_true_iff
    have running' (c : Ch) (f : rises c = true) : (s.chan c).state ≠ .off := by rw [(of_decide_eq_true f).2]; exact nofun
    obtain ⟨wx, others, told, untold⟩ := treated.lines all
    refine ⟨_, rfl, frame, wx, others, treated.slicesCut all rfl rfl running' ?_, fun c f => ?_, treated.goesOn fun _ _ => rfl,
      treated.cal fun c => ?_, told, untold⟩
    · rintro c d ⟨b, cut, is⟩
      exact ⟨b, cut, _, _, _, _, _, _, is⟩
    · obtain ⟨b, cut, is⟩ := treated.chan c ((all c).2 f)
      rw [is, cut.is]
      exact ⟨rfl, rfl, rfl, rfl, rfl, rfl⟩
    · rw [all]
      exact and_congr_right fun f => (or_iff_right not_false).trans (exists_congr fun fs => WaitingClose.switch_at (running' c f))

end Sys2Proof.Machine


/-! The stop of channels (O22). -/

namespace Sys2Proof.Machine

/-- What a stop, with its waiting close made, leaves of its channel, whose calibration record is then `r` (R8, R46). -/
structure Channel.Stopped (a : Channel) (r : CalRecord) (d : Channel) : Prop where
  unclosed : a.waiting = none → d = { a with
    state := .off, settle := 0, openEvent := none, continuation := false
    engine := { a.engine with slice := .empty, kept := none }
    calRecord := r }
  closed : ∀ w, a.waiting = some w → d = { a with
    state := .off, settle := 0, openEvent := none, continuation := false, waiting := none, minuteNo := w.boundary.next
    engine := { a.engine with slice := .empty, kept := none, minute := .empty }
    calRecord := r, period := d.period, day := d.day, quiet := d.quiet
    fs := d.fs, calSeq := d.calSeq, uncalibrated := d.uncalibrated, pendingFs := d.pendingFs }

/-- What STOP CHANNELS does to the channels it stops, found as in `s` (R8, R121, R132). -/
def State.stopping (s : State) : Treatment where
  toService := s.serviceOf (fun c m => m = (s.chan c).engine.minute) (s.concluded .aborted) fun c => s.runningOn c = true
  acts c := decide ((s.chan c).state ≠ .off)
  cause := .stopped
  enters := .off
  ends := s.runningOn
  leaves c := (s.chan c).Stopped (s.concluded .aborted c)

section

variable {s u : State} {ch : Ch}

theorem State.stopChannel_idle (same : u.chan ch = s.chan ch) (idle : s.stopping.acts ch = false) : u.stopChannel ch = u := by
  unfold State.stopChannel
  rw [same, if_pos (not_not.1 (of_decide_eq_false idle))]

theorem State.Readied.closeEvent (s : State) (ch : Ch) (c : EndCause) : s.Readied ch (s.closeEvent ch c) :=
  (State.SliceFrame.closeEvent s ch c).readied (.inl rfl) (.closeEvent s ch c) (by rw [State.closeEvent_chan]; exact ⟨rfl, rfl, rfl, rfl, rfl, rfl⟩)

/-- What a channel is once it has been switched off, before a waiting close is made. -/
def Channel.stilled (c : Channel) (r : CalRecord) : Channel :=
  { c with
    state := .off, settle := 0, openEvent := none, continuation := false
    engine := { c.engine with slice := .empty, kept := none }
    calRecord := r }

/-- R8, R121: what a stop leaves before a waiting close is made. -/
structure State.Stilled (u v : State) (ch : Ch) : Prop where
  ready : u.Readied ch v
  chan : v.chan ch = (u.chan ch).stilled (u.concluded .aborted ch)
  events : EventsClosed u v (· = ch) .stopped
  kept : v.wx = u.wx ∧ v.clock = u.clock ∧ ∀ q k, k = .dispensation ∨ k = .clock → (v.port q).notice k = (u.port q).notice k
  told : ∀ q, ((v.port q).notice .channel).flag = true ∧ ((v.port q).notice .channel).detail = ⟨ch, 3, 0⟩
  ran : u.runningOn ch = true → v.calUnit = { u.calUnit with run := none } ∧ CalSet v ch
  idle : u.runningOn ch = false → v.calUnit = u.calUnit ∧ ∀ q, (v.port q).notice .cal = (u.port q).notice .cal

theorem State.stopChannel_stilled (on : (u.chan ch).state ≠ .off) : ∃ v, u.stopChannel ch = v.closeWaiting ch ∧ u.Stilled v ch := by
  let t := (u.closeEvent ch .stopped).endRun ch .aborted
  let c : Channel := { t.chan ch with state := .off, settle := 0, continuation := false, engine := (t.chan ch).engine.discardSlice }
  refine ⟨(t.setChan ch c).notifyChannel ch .off, by unfold State.stopChannel; rw [if_neg on]; rfl, ?_⟩
  have shut := State.Readied.closeEvent u ch .stopped
  have closes := u.closeEvent_closes ch .stopped
  have beside (q : Port) (k : NoticeKind) (hk : k ≠ .event) := (State.SliceFrame.closeEvent u ch .stopped).notices q k hk
  have unit := State.closeEvent_calUnit u ch .stopped
  have wx := State.closeEvent_wx u ch .stopped
  have chan := u.closeEvent_chan ch .stopped
  have clock := shut.frame.clock
  have ended : State.RunEnded (u.closeEvent ch .stopped) t ch .aborted := State.endRun_leaves _ ch .aborted
  have running : (u.closeEvent ch .stopped).runningOn ch = u.runningOn ch := by rw [State.runningOn, unit]; rfl
  have record : (u.closeEvent ch .stopped).concluded .aborted ch = u.concluded .aborted ch := by
    unfold State.concluded; rw [running, chan, clock]
  have shifted : t.Shifted ((t.setChan ch c).notifyChannel ch .off) ch c .off := t.shifted ch c .off
  have ready := shut.trans (ended.ready.trans (shifted.ready ⟨rfl, rfl, rfl, rfl, rfl, rfl⟩))
  refine ⟨ready, ?_, closes.after (ended.events.trans shifted.events), ⟨shifted.kept.2.1.trans (ended.wx.trans wx), ready.frame.clock, fun q k hk => ?_⟩,
    shifted.told, fun ran => ?_, fun idle => ?_⟩
  · rw [shifted.chan, ← record]
    dsimp only [c]
    rw [ended.chan, chan]
    rfl
  · rw [shifted.notices q k (by rintro rfl; rcases hk with h | h <;> cases h), ended.notices q k (by rintro rfl; rcases hk with h | h <;> cases h),
      beside q k (by rintro rfl; rcases hk with h | h <;> cases h)]
  · obtain ⟨dropped, set⟩ := ended.ended (running.trans ran)
    refine ⟨shifted.kept.1.trans (by rw [dropped, unit]), fun q => ?_⟩
    rw [shifted.notices q _ (by decide), shifted.records rfl]
    exact set q
  · have same := ended.idle (running.trans idle)
    refine ⟨shifted.kept.1.trans (by rw [same, unit]), fun q => ?_⟩
    rw [shifted.notices q _ (by decide), same, beside q _ (by decide)]

/-- R8, R46, R121: a running channel stops. -/
theorem State.stopChannel_treated (same : u.chan ch = s.chan ch) (running : u.runningOn ch = s.runningOn ch) (clock : u.clock = s.clock)
    (acts : s.stopping.acts ch = true) : u.Treated (u.stopChannel ch) [ch] s.stopping ∧ u.StillQuiet (u.stopChannel ch) := by
  have on := of_decide_eq_true acts
  obtain ⟨v, is, stilled⟩ := State.stopChannel_stilled (same.symm ▸ on)
  have record : u.concluded .aborted ch = s.concluded .aborted ch := by unfold State.concluded; rw [running, same, clock]
  have chan := stilled.chan
  rw [record] at chan
  have prepared : u.Prepared v ch s.stopping.toService (s.runningOn ch = true) :=
    ⟨stilled.ready, by rw [chan]; rfl, by rw [chan]; rfl, by rw [chan]; rfl, Iff.rfl, fun ran => (stilled.ran (running.trans ran)).2,
      fun idle => (stilled.idle (running.trans (Bool.eq_false_iff.2 idle))).2⟩
  obtain ⟨served, still⟩ := prepared.closeWaiting (by rw [chan]; rfl) (congrArg (fun c => c.waiting.map WaitingClose.boundary) same.symm)
    (congrArg (fun c : Channel => c.waiting.bind fun w => w.switch c) same.symm) (by
      show (v.chan ch).engine.minute = (s.chan ch).engine.minute
      rw [chan, same]; rfl)
  have frame := State.CloseFrame.closeWaiting v ch
  have only {c : Ch} (mem : c ∈ [ch]) : c = ch := List.mem_singleton.1 mem
  rw [is]
  refine ⟨⟨served, (stilled.events.after (v.closeWaiting_events ch)).one, fun c mem => ?_, fun _ => ⟨ch, List.mem_singleton_self ch, fun q => ?_⟩, nofun,
    fun none' => ?_, ?_, (State.SameFrame.closeWaiting v ch).clock.trans stilled.kept.2.1, frame.wx.trans stilled.kept.1, fun q k hk => ?_⟩, still⟩
  · rw [only mem]
    show (s.chan ch).Stopped _ _
    rw [← same]
    refine ⟨fun none' => ?_, fun w waits => ?_⟩
    · rw [State.closeWaiting_none (by rw [chan]; exact none'), chan]
      rfl
    · have waits' : (v.chan ch).waiting = some w := by rw [chan]; exact waits
      rw [State.closeWaiting_some waits']
      obtain ⟨empty, number, waiting, closed⟩ := (v.setChan ch { v.chan ch with waiting := none }).chan_closeMinute ch w
      unfold Channel.Closed at closed
      generalize State.closeMinute _ ch w = t at *
      rw [State.chan_setChan_self] at waiting closed
      rw [waiting, number, empty, chan] at closed
      exact closed
  · rw [frame.notices q .channel (.inr (.inl rfl))]
    exact stilled.told q
  · rw [frame.calUnit, (stilled.idle (running.trans (none' ch (List.mem_singleton_self ch)))).1]
  · rintro ⟨c, mem, ran⟩
    rw [only mem] at ran
    rw [frame.calUnit, (stilled.ran (running.trans ran)).1]
  · rw [frame.notices q k (.inr (.inr hk)), stilled.kept.2.2 q k hk]

end

/-- R8: the running channels of a mask stop one after the other. -/
theorem State.stopChannels_treated (u : State) (m : ChannelMask) : ∃ l, (∀ c, c ∈ l ↔ maskHas m c = true ∧ (u.chan c).state ≠ .off) ∧
    u.Treated (u.stopChannels m) l u.stopping := by
  obtain ⟨l, all, treated⟩ := State.Treated.inAnyOrder (s := u) (u := u) (y := u.stopping) (work := State.stopChannel)
    (fun _ _ a h apart acts => State.stopChannel_treated (h.served.others a apart) (h.runningOn rfl apart) h.clock acts)
    (fun _ a same idle => State.stopChannel_idle same idle) ((maskChannels_nodup m).filter fun c => (u.chan c).state != .off) ⟨_, _, rfl⟩
  refine ⟨l, fun c => ?_, treated⟩
  rw [all, List.mem_filter, mem_maskChannels, bne_iff_ne, and_assoc, State.stopping, decide_eq_true_iff, and_self]

/-- The records that no switch queues do not matter. -/
theorem SwitchesMade.congr {s t : State} {a : Ch → Level → Prop} {r r' : Ch → CalRecord} (h : SwitchesMade s t a r) (same : ∀ c fs, a c fs → r c = r' c) :
    SwitchesMade s t a r' :=
  ⟨h.switched, h.kept, fun x => (h.queued x).trans (or_congr_left (exists_congr fun c => exists_congr fun fs =>
    and_congr_right fun made => by rw [same c fs made])), h.none⟩

/-- Settles O22: the running channels of the mask stop one after the other. -/
theorem channelsStop : Obligations.ChannelsStop := by
  intro params s hr length u stops record
  have taken : exec (.stopChannels .compliance (.whole params)) s = .next ((u.stopChannels (maskAt params 0)).wrote .compliance .ok u params) :=
    write_taken (owner := stopOwner) rfl hr length rfl rfl
  clear_value u
  obtain ⟨l, all, treated⟩ := u.stopChannels_treated (maskAt params 0)
  have frame : u.SameFrame (u.stopChannels (maskAt params 0)) := .inAnyOrder _ State.SameFrame.stopChannel _ _
  generalize u.stopChannels (maskAt params 0) = v at *
  have left {c : Ch} (named : stops c) := treated.chan c ((all c).2 named)
  have out {c : Ch} (goes : ¬ stops c) : c ∉ l := fun mem => goes ((all c).1 mem)
  have recorded {c : Ch} (named : stops c) : (v.chan c).calRecord = record c := by
    have made := left named
    cases waiting : (u.chan c).waiting with
    | none => rw [made.unclosed waiting]; rfl
    | some w => rw [made.closed w waiting]; rfl
  have runs {r : CalRun} (run : u.calUnit.run = some r) : u.runningOn r.ch = true := (u.runningOn_iff r.ch).2 ⟨r, run, rfl⟩
  have cal := treated.cal (p := fun c => stops c ∧ (u.runningOn c = true ∨ ∃ fs, u.switchAt c fs)) fun c => by
    rw [all]
    exact and_congr_right fun named => or_congr_right (exists_congr fun fs => WaitingClose.switch_at named.2)
  have switches := treated.switches (p := fun c fs => stops c ∧ u.switchAt c fs) fun c fs => by
    rw [all]
    exact and_congr_right fun named => WaitingClose.switch_at named.2
  refine ⟨v, taken, frame, treated.outside.1, fun c goes => treated.served.others c (out goes), fun c named => (left named).unclosed,
    fun c w named => (left named).closed w, treated.closed all, switches.congr fun c fs made => (recorded made.1).symm, cal,
    fun idle => ?_, fun r run => ⟨fun named => ?_, fun goes => ?_⟩,
    fun r run named q => ?_, treated.closesEvents all, fun ⟨c, named⟩ => ?_, fun none' => ?_, treated.outside.2⟩
  · exact treated.goesOn fun c _ => Bool.eq_false_iff.2 fun ran => by
      obtain ⟨r, run, -⟩ := (u.runningOn_iff c).1 ran
      rw [idle] at run
      cases run
  · exact treated.ended ⟨r.ch, (all _).2 named, runs run⟩
  · exact treated.goesOn fun c mem => Bool.eq_false_iff.2 fun ran =>
      goes (State.runningOn_unique ran (runs run) ▸ (all c).1 mem)
  · obtain ⟨c, ⟨namedC, called⟩, set⟩ := cal.1 ⟨r.ch, named, .inl (runs run)⟩
    refine ⟨(set q).1, fun none' => ?_⟩
    have alone := State.runningOn_unique (called.resolve_right fun ⟨fs, switches⟩ => none' c fs namedC switches) (runs run)
    have serial : (record r.ch).serial = (u.chan r.ch).calRecord.serial := by
      show CalRecord.serial (if _ then _ else _) = _
      rw [if_pos (runs run)]
    rw [(set q).2, recorded namedC, alone, serial]
  · obtain ⟨d, mem, told⟩ := treated.told (List.ne_nil_of_mem ((all c).2 named))
    exact ⟨d, (all d).1 mem, told⟩
  · exact treated.untold (List.eq_nil_iff_forall_not_mem.2 fun c => out (none' c))

end Sys2Proof.Machine


/-! The minute boundaries: the dispensation table, the channels, and the three ways a boundary comes about (O37). -/

namespace Sys2Proof.Machine

/-! ### The dispensation table at a boundary -/

/-- What a boundary into minute `n` leaves of a slot (R84). -/
def Slot.moved (x : Slot) (n : Nat) : Slot := (x.atMinute n).getD x

section

variable {x : Slot} {n : Nat}

theorem Slot.moved_free (state : x.state = .free) : x.moved n = x := by
  unfold Slot.moved Slot.atMinute; rw [state]; rfl

theorem Slot.moved_proposed (state : x.state = .proposed) :
    x.moved n = if x.start ≤ n then { x with state := .free, outcome := .lapsed } else x := by
  unfold Slot.moved Slot.atMinute; rw [state]; dsimp only; split <;> rfl

theorem Slot.moved_approved (state : x.state = .approved) : x.moved n =
    if x.stop ≤ n then { x with state := .free, outcome := .ended } else if x.start ≤ n then { x with state := .active } else x := by
  unfold Slot.moved Slot.atMinute; rw [state]; dsimp only
  split
  · rfl
  · split <;> rfl

theorem Slot.moved_active (state : x.state = .active) : x.moved n =
    if x.stop ≤ n then { x with state := .free, outcome := .ended } else if n < x.start then { x with state := .approved } else x := by
  unfold Slot.moved Slot.atMinute; rw [state]; dsimp only
  split
  · rfl
  · split <;> rfl

/-- R84: every row of the table changes the state of its slot. -/
theorem Slot.atMinute_ne {y : Slot} (h : x.atMinute n = some y) : y ≠ x := by
  suffices differ : y.state ≠ x.state from fun same => differ (congrArg Slot.state same)
  unfold Slot.atMinute at h
  cases state : x.state <;> rw [state] at h <;> dsimp only at h
  case free => cases h
  case proposed =>
    split at h <;> cases h
    exact nofun
  case approved | active =>
    split at h
    · cases h; exact nofun
    · split at h <;> cases h
      exact nofun

theorem Slot.moved_some {y : Slot} (h : x.atMinute n = some y) : x.moved n = y := by rw [Slot.moved, h]; rfl

theorem Slot.moved_none (h : x.atMinute n = none) : x.moved n = x := by rw [Slot.moved, h]; rfl

theorem Slot.moved_ne_iff : x.moved n ≠ x ↔ (x.atMinute n).isSome = true := by
  cases h : x.atMinute n with
  | none => simp [Slot.moved_none h]
  | some y => simp [Slot.moved_some h, Slot.atMinute_ne h]

end

/-- The slots of a list have been moved between `s` and `t` by a boundary into minute `n`, the last of them leaving its detail in DISPENSATION. -/
structure State.TableMoved (s t : State) (n : Nat) (l : List (Fin 8)) : Prop where
  frame : s.SlotsMoved t
  slots : ∀ i : Fin 8, t.slots[i] = if i ∈ l then s.slots[i].moved n else s.slots[i]
  notices : ∀ q, NoticeOnly (s.port q) (t.port q) .dispensation ∧ NoticesRaised (s.port q) (t.port q)
  told : l ≠ [] → ∃ i ∈ l, ∀ q, ((t.port q).notice .dispensation).flag = true ∧
    ((t.port q).notice .dispensation).detail = ⟨.ch0, BitVec.ofNat 8 i.val, s.slots[i].serial.setWidth 32⟩
  untold : l = [] → ∀ q, t.port q = s.port q

section

variable {s t v : State} {n : Nat}

theorem State.changeSlot_slot (s : State) (i : Fin 8) (x : Slot) (j : Fin 8) : (s.changeSlot i x).slots[j] = if j = i then x else s.slots[j] := by
  show (s.slots.set i x)[j] = _
  simp only [Fin.getElem_fin, Vector.getElem_set, Fin.ext_iff, eq_comm]

theorem State.moveSlot_some {i : Fin 8} {y : Slot} (h : s.slots[i].atMinute n = some y) : s.moveSlot n i = s.changeSlot i y := by
  unfold State.moveSlot; rw [h]

/-- R77, R84: one slot is moved. -/
theorem State.TableMoved.one {i : Fin 8} (moves : (s.slots[i].atMinute n).isSome = true) : s.TableMoved (s.moveSlot n i) n [i] := by
  obtain ⟨y, is⟩ := Option.isSome_iff_exists.1 moves
  have port (q : Port) : (s.changeSlot i y).port q = (s.port q).notify .dispensation ⟨.ch0, BitVec.ofNat 8 i.val, serial32 y.serial⟩ := by
    rw [State.changeSlot, State.port_notifyBoth]; cases q <;> rfl
  have serial : serial32 y.serial = s.slots[i].serial.setWidth 32 := by rw [(Slot.atMinute_governs (ch := .ch0) is).1]; rfl
  rw [State.moveSlot_some is]
  refine ⟨rfl, fun j => ?_, fun q => ?_, fun _ => ⟨i, List.mem_singleton_self i, fun q => ?_⟩, nofun⟩
  · rw [s.changeSlot_slot]
    by_cases same : j = i
    · subst same; rw [if_pos rfl, if_pos (List.mem_singleton_self j), Slot.moved_some is]
    · rw [if_neg same, if_neg (by rwa [List.mem_singleton])]
  · have set := (setOnBoth_notifyBoth s .dispensation ⟨.ch0, BitVec.ofNat 8 i.val, serial32 y.serial⟩ q).1
    rw [State.port_notifyBoth] at set
    rw [port]
    exact ⟨set, .notify _ _ (by unfold NoticeKind.ofWork; decide)⟩
  · rw [port, PortState.notice_notify, if_pos rfl, serial]
    exact ⟨rfl, rfl⟩

theorem State.TableMoved.trans {l l' : List (Fin 8)} (h : s.TableMoved t n l) (h' : t.TableMoved v n l') (apart : ∀ i ∈ l', i ∉ l) :
    s.TableMoved v n (l ++ l') where
  frame := h.frame.trans h'.frame
  slots i := by
    rw [h'.slots, h.slots]
    by_cases later : i ∈ l'
    · rw [if_pos later, if_neg (apart i later), if_pos (List.mem_append_right _ later)]
    · rw [if_neg later]
      by_cases first : i ∈ l
      · rw [if_pos first, if_pos (List.mem_append_left _ first)]
      · rw [if_neg first, if_neg fun mem => (List.mem_append.1 mem).elim first later]
  notices q := ⟨(h.notices q).1.trans (h'.notices q).1, (h.notices q).2.trans (h'.notices q).2⟩
  told some := by
    by_cases last : l' = []
    · rw [last, List.append_nil] at some
      obtain ⟨i, mem, told⟩ := h.told some
      exact ⟨i, List.mem_append_left _ mem, fun q => by rw [h'.untold last]; exact told q⟩
    · obtain ⟨i, mem, told⟩ := h'.told last
      refine ⟨i, List.mem_append_right _ mem, fun q => ?_⟩
      have same : t.slots[i] = s.slots[i] := by rw [h.slots, if_neg (apart i mem)]
      rw [← same]
      exact told q
  untold none' q := by
    obtain ⟨first, last⟩ := List.append_eq_nil_iff.1 none'
    rw [h'.untold last, h.untold first]

theorem State.TableMoved.nil (s : State) (n k : Nat) : s.TableMoved { s with orderUses := k } n [] :=
  ⟨rfl, fun i => (if_neg List.not_mem_nil).symm, fun q => by cases q <;> exact ⟨.refl _ _, .refl _⟩, fun h => absurd rfl h, fun _ q => by cases q <;> rfl⟩

theorem State.TableMoved.foldl : ∀ (l : List (Fin 8)) (s : State), l.Nodup → (∀ i ∈ l, (s.slots[i].atMinute n).isSome = true) →
    s.TableMoved (l.foldl (State.moveSlot n) s) n l
  | [], s, _, _ => .nil s n s.orderUses
  | i :: l, s, nodup, moves => by
    obtain ⟨out, nodup⟩ := List.nodup_cons.1 nodup
    have first := State.TableMoved.one (moves i (List.mem_cons_self ..))
    have differ {j : Fin 8} (mem : j ∈ l) : j ∉ [i] := fun same => out (List.mem_singleton.1 same ▸ mem)
    exact first.trans (State.TableMoved.foldl l _ nodup fun j mem => by
      rw [first.slots, if_neg (differ mem)]; exact moves j (List.mem_cons_of_mem _ mem)) fun j mem => differ mem

/-- R84: a boundary into minute `n` moves exactly the slots that meet a row of the table. -/
theorem State.moveSlots_table (s : State) (n : Nat) : ∃ l : List (Fin 8), (∀ i, i ∈ l ↔ (s.slots[i].atMinute n).isSome = true) ∧
    s.TableMoved (s.moveSlots (some n)) n l := by
  let due := (List.finRange 8).filter fun i => (s.slots[i].atMinute n).isSome
  obtain ⟨perm, state⟩ := s.arrange_perm due
  have all (i : Fin 8) : i ∈ (s.arrange due).1 ↔ (s.slots[i].atMinute n).isSome = true := by
    rw [perm.mem_iff, List.mem_filter]
    exact and_iff_right (List.mem_finRange i)
  have begun : s.TableMoved (s.arrange due).2 n [] := by rw [state]; exact .nil ..
  refine ⟨(s.arrange due).1, all, begun.trans (State.TableMoved.foldl _ _ (perm.symm.nodup ((List.nodup_finRange 8).filter _)) fun i mem => ?_)
    fun _ _ => List.not_mem_nil⟩
  rw [begun.slots]
  exact (all i).1 mem

end

/-- What a boundary with the next minute `next` leaves of the dispensation table and of DISPENSATION. -/
structure State.TableReached (s t : State) (next : MinuteOrAbsent) : Prop where
  frame : s.SlotsMoved t
  absent : next = none → t.slots = s.slots
  slots : ∀ n, next = some n → ∀ i : Fin 8, t.slots[i] = s.slots[i].moved n
  notices : ∀ q, NoticeOnly (s.port q) (t.port q) .dispensation ∧ NoticesRaised (s.port q) (t.port q)
  told : (∃ i : Fin 8, t.slots[i] ≠ s.slots[i]) → ∃ i : Fin 8, t.slots[i] ≠ s.slots[i] ∧ ∀ q, ((t.port q).notice .dispensation).flag = true ∧
    ((t.port q).notice .dispensation).detail = ⟨.ch0, BitVec.ofNat 8 i.val, s.slots[i].serial.setWidth 32⟩
  untold : (∀ i : Fin 8, t.slots[i] = s.slots[i]) → ∀ q, (t.port q).notice .dispensation = (s.port q).notice .dispensation

theorem State.moveSlots_reached (s : State) (next : MinuteOrAbsent) : s.TableReached (s.moveSlots next) next := by
  cases next with
  | none => exact ⟨rfl, fun _ => rfl, nofun, fun q => ⟨.refl _ _, .refl _⟩, fun ⟨i, differ⟩ => absurd rfl differ, fun _ _ => rfl⟩
  | some n =>
    obtain ⟨l, all, moved⟩ := s.moveSlots_table n
    have differs (i : Fin 8) : (s.moveSlots (some n)).slots[i] ≠ s.slots[i] ↔ i ∈ l := by
      rw [moved.slots]
      by_cases mem : i ∈ l
      · rw [if_pos mem, Slot.moved_ne_iff, all]
      · rw [if_neg mem]
        exact ⟨fun h => absurd rfl h, fun h => absurd h mem⟩
    refine ⟨moved.frame, nofun, fun k is i => ?_, moved.notices, fun ⟨i, differ⟩ => ?_, fun same q => ?_⟩
    · obtain rfl := Option.some.inj is
      rw [moved.slots]
      split
      · rfl
      · next out => exact (not_not.1 fun differ => out ((all i).2 (Slot.moved_ne_iff.1 differ))).symm
    · obtain ⟨j, mem, told⟩ := moved.told (List.ne_nil_of_mem ((differs i).1 differ))
      exact ⟨j, (differs j).2 mem, told⟩
    · rw [moved.untold (List.eq_nil_iff_forall_not_mem.2 fun i mem => (differs i).2 mem (same i))]

/-! ### A boundary reaches the channels -/

/-- What a boundary does to the channels, found as in `s` (R46, R47, R124). -/
def State.reaching (s : State) (b : Boundary) : Service where
  closes c := if (s.chan c).state = .off then some b else (s.chan c).waiting.map WaitingClose.boundary
  minute c m := m = (s.chan c).engine.minute
  switch c := if (s.chan c).state = .off then (s.chan c).pendingFs else (s.chan c).waiting.bind fun w => w.switch (s.chan c)
  record c := (s.chan c).calRecord
  calls c := ∃ fs, (if (s.chan c).state = .off then (s.chan c).pendingFs else (s.chan c).waiting.bind fun w => w.switch (s.chan c)) = some fs

/-- What a boundary leaves of a channel that it reaches. -/
structure Channel.Reached (b : Boundary) (a c : Channel) : Prop where
  running : a.state ≠ .off → a.waiting = none → c = { a with waiting := some ⟨b, a.pendingFs.isSome⟩ }
  waited : ∀ w, a.state ≠ .off → a.waiting = some w → c.waiting = some ⟨b, c.pendingFs.isSome⟩
  off : a.state = .off → c.waiting = a.waiting
  rest : a.Closed c

theorem Channel.hold_switch (c : Channel) (b : Boundary) : (c.hold b).switch c = c.pendingFs := by
  unfold Channel.hold WaitingClose.switch
  cases c.pendingFs <;> rfl

section

variable {s t : State} {ch : Ch} {b : Boundary}

theorem State.receiveBoundary_off (off : (t.chan ch).state = .off) : t.receiveBoundary b ch = t.closeMinute ch ((t.chan ch).hold b) := by
  unfold State.receiveBoundary; rw [if_pos off]

theorem State.receiveBoundary_running (on : (t.chan ch).state ≠ .off) : t.receiveBoundary b ch =
    (t.closeWaiting ch).setChan ch { (t.closeWaiting ch).chan ch with waiting := some (((t.closeWaiting ch).chan ch).hold b) } := by
  unfold State.receiveBoundary; rw [if_neg on]

theorem State.receiveBoundary_reached (t : State) (ch : Ch) (b : Boundary) : (t.chan ch).Reached b ((t.receiveBoundary b ch).chan ch) := by
  by_cases off : (t.chan ch).state = .off
  · rw [State.receiveBoundary_off off]
    obtain ⟨-, -, waiting, closed⟩ := t.chan_closeMinute ch ((t.chan ch).hold b)
    exact ⟨fun h => absurd off h, fun _ h => absurd off h, fun _ => waiting, closed⟩
  · rw [State.receiveBoundary_running off, State.chan_setChan_self]
    obtain ⟨-, closed⟩ := t.chan_closeWaiting ch
    refine ⟨fun _ none' => ?_, fun _ _ _ => rfl, fun h => absurd h off, ?_⟩
    · rw [State.closeWaiting_none none']
      rfl
    · exact closed.trans rfl

/-- R46, R47, R93, R124: a boundary reaches one channel. -/
theorem State.receiveBoundary_served (same : t.chan ch = s.chan ch) :
    t.Served (t.receiveBoundary b ch) [ch] (s.reaching b) ∧ t.StillQuiet (t.receiveBoundary b ch) := by
  have prepared : t.Prepared t ch (s.reaching b) False :=
    ⟨.refl ch t, rfl, rfl, congrArg Channel.calRecord same, (or_iff_right not_false).symm, nofun, fun _ _ => rfl⟩
  by_cases off : (t.chan ch).state = .off
  · rw [State.receiveBoundary_off off]
    have off' := same ▸ off
    exact prepared.closed _ (if_pos off') ((if_pos off').trans (by rw [Channel.hold_switch, same])) (by rw [same]; rfl)
  · rw [State.receiveBoundary_running off]
    have on : (s.chan ch).state ≠ .off := same ▸ off
    obtain ⟨served, still⟩ := prepared.closeWaiting rfl ((if_neg on).trans (by rw [same])) ((if_neg on).trans (by rw [same])) (by rw [same]; rfl)
    have set := State.Readied.setChan (t.closeWaiting ch) ch
      (c := { (t.closeWaiting ch).chan ch with waiting := some (((t.closeWaiting ch).chan ch).hold b) }) ⟨rfl, rfl, rfl, rfl, rfl, rfl⟩
    refine ⟨served.after (x := s.reaching b) set ?_ ?_ ?_ (served.cal.stays (fun q => by rw [State.port_setChan]) fun c => ?_), still.after set⟩
    case refine_4 =>
      rw [State.chan_setChan]
      split
      · next same => rw [same]
      · rfl
    all_goals rw [State.chan_setChan_self]

/-- A boundary reaches the channels of a list one after the other. -/
theorem State.Served.foldl_receiveBoundary {s : State} {b : Boundary} : ∀ (l done : List Ch) (t : State), (done ++ l).Nodup →
    s.Served t done (s.reaching b) → s.Served (l.foldl (State.receiveBoundary b) t) (done ++ l) (s.reaching b)
  | [], done, t, _, h => by rwa [List.append_nil]
  | a :: l, done, t, nodup, h => by
    have apart : a ∉ done := fun mem => List.disjoint_of_nodup_append nodup mem (List.mem_cons_self ..)
    obtain ⟨served, still⟩ := State.receiveBoundary_served (b := b) (h.others a apart)
    have rest := State.Served.foldl_receiveBoundary l (done ++ [a]) _ (by rwa [List.append_assoc])
      (h.append served (fun c mem => List.mem_singleton.1 mem ▸ apart) still)
    rw [List.append_assoc] at rest
    exact rest

end

/-! ### What a boundary leaves of the whole part -/

/-- The state `v` is `r` but for the clock and the CLOCK notice. -/
structure State.Retimed (r v : State) : Prop where
  is : ∃ k x y, v = { r with clock := k, site := x, compliance := y }
  notices : ∀ q, NoticeOnly (r.port q) (v.port q) .clock ∧ NoticesRaised (r.port q) (v.port q)

theorem State.Retimed.refl (r : State) : r.Retimed r := ⟨⟨r.clock, r.site, r.compliance, rfl⟩, fun _ => ⟨.refl _ _, .refl _⟩⟩

/-- R149: the clock has taken new values and CLOCK is set. -/
theorem State.Retimed.told (r : State) (k : Clock) (d : Detail) : r.Retimed ({ r with clock := k }.notifyBoth .clock d) := by
  refine ⟨⟨k, _, _, rfl⟩, fun q => ⟨?_, ?_⟩⟩
  · cases q
    · exact (setOnBoth_notifyBoth r .clock d .site).1
    · exact (setOnBoth_notifyBoth r .clock d .compliance).1
  · cases q <;> exact .notify _ d (by unfold NoticeKind.ofWork; decide)

section

variable {s t u v : State} {b : Boundary}

theorem State.SameFrame.retime (h : s.SameFrame t) (k : Clock) : { s with clock := k }.SameFrame { t with clock := k } :=
  ⟨h.line0, h.line1, rfl, h.entries, h.header, h.protection, h.slots, h.proposalSerial, h.commissioning, h.prot, h.resetN, h.supply, h.resetCause,
    h.clockLossFound, h.pending, h.items, h.writing, fun q => by have := h.ports q; cases q <;> exact this,
    fun q => by have := h.raised q; cases q <;> exact this⟩

theorem NoticeOnly.state {x y : PortState} {k : NoticeKind} (h : NoticeOnly x y k) :
    y = { x with notices := y.notices, conditions := y.conditions } ∧ y.conditions = x.conditions ∧ y.quietRequest = x.quietRequest := by
  obtain ⟨state, -⟩ := h
  have conditions : y.conditions = x.conditions := by rw [state]
  refine ⟨?_, conditions, by rw [state]⟩
  rw [conditions]
  exact state

theorem State.Retimed.frame (h : t.Retimed v) : { t with clock := v.clock }.SameFrame v := by
  obtain ⟨⟨k, x, y, rfl⟩, notices⟩ := h
  refine ⟨rfl, rfl, rfl, rfl, rfl, rfl, rfl, rfl, rfl, rfl, rfl, rfl, rfl, rfl, rfl, rfl, rfl, fun q => ?_, fun q => ?_⟩
  · have state := (notices q).1.state.1
    cases q <;> exact state
  · have raised := (notices q).2
    cases q <;> exact raised

variable {next : MinuteOrAbsent} {j : Clock}

/-- What a boundary leaves as the table has been moved, the clock being moved with it. -/
theorem State.TableReached.is (h : State.TableReached { s with clock := j } t next) :
    ∃ uses x y, t = { s with slots := t.slots, clock := j, orderUses := uses, site := x, compliance := y } := ⟨_, _, _, h.frame⟩

theorem State.TableReached.sameFrame (h : State.TableReached { s with clock := j } t next) (k : Clock) (n : Nat) :
    { s with slots := t.slots, clock := k }.SameFrame { t with orderUses := n, clock := k } := by
  obtain ⟨uses, x, y, is⟩ := h.is
  have notices := h.notices
  rw [is] at notices ⊢
  refine ⟨rfl, rfl, rfl, rfl, rfl, rfl, rfl, rfl, rfl, rfl, rfl, rfl, rfl, rfl, rfl, rfl, rfl, fun q => ?_, fun q => ?_⟩
  · have state := (notices q).1.state.1
    cases q <;> exact state
  · have raised := (notices q).2
    cases q <;> exact raised

/-- The table, moved, is where the work on the channels begins. -/
theorem State.TableReached.served (h : State.TableReached { s with clock := j } t next) (n : Nat) (x : Service) :
    State.Served { s with slots := t.slots } { t with orderUses := n } [] x := by
  obtain ⟨uses, a, c, is⟩ := h.is
  have notices := h.notices
  rw [is] at notices ⊢
  refine .nil ?settings ?chans ?minutes ?periods ?line ?store (fun q => ?ports) x
  case settings =>
    refine ⟨rfl, rfl, rfl, rfl, fun q => ?_⟩
    obtain ⟨-, -, request⟩ := (notices q).1.state
    cases q <;> exact request
  case chans | line | store => rfl
  case minutes | periods => exact ⟨rfl, rfl⟩
  case ports =>
    obtain ⟨only, -⟩ := notices q
    obtain ⟨-, conditions, -⟩ := only.state
    obtain ⟨-, others, -⟩ := only
    cases q <;> exact ⟨conditions, fun k dispensation _ => others k dispensation⟩

/-- What follows the boundary on the clock leaves the work on the channels. -/
theorem State.Served.retimed {x : Service} {l : List Ch} (h : s.Served t l x) (h' : t.Retimed v) : s.Served v l x := by
  have later : t.Served v [] x := by
    obtain ⟨⟨k, a, c, rfl⟩, notices⟩ := h'
    refine .nil ?settings ?chans ?minutes ?periods ?line ?store (fun q => ?ports) x
    case settings => exact ⟨rfl, rfl, rfl, rfl, fun q => (notices q).1.state.2.2⟩
    case chans | line | store => rfl
    case minutes | periods => exact ⟨rfl, rfl⟩
    case ports =>
      obtain ⟨only, -⟩ := notices q
      obtain ⟨-, conditions, -⟩ := only.state
      obtain ⟨-, others, -⟩ := only
      exact ⟨conditions, fun k _ clock => others k clock⟩
  have quiet : t.StillQuiet v := fun _ q => (h'.notices q).1.2.1 _ (by decide)
  have both := h.append later nofun quiet
  rwa [List.append_nil] at both

theorem State.Retimed.chan (h : t.Retimed v) (ch : Ch) : v.chan ch = t.chan ch := by obtain ⟨⟨k, x, y, rfl⟩, -⟩ := h; rfl

/-- What a boundary leaves of the whole part, before its clauses are read off: `m` is the part with the table moved, `l` the channels in the order taken. -/
structure State.Boundaried (s v m : State) (b : Boundary) (l : List Ch) (j : Clock) : Prop where
  table : State.TableReached { s with clock := j } m b.next
  slots : v.slots = m.slots
  all : ∀ ch, ch ∈ l
  served : State.Served { s with slots := m.slots } v l (State.reaching { s with slots := m.slots } b)
  frame : { s with slots := m.slots, clock := v.clock }.SameFrame v
  reached : ∀ ch, (s.chan ch).Reached b (v.chan ch)
  kept : v.wx = s.wx ∧ v.calUnit = s.calUnit ∧ v.eventList = s.eventList ∧ v.eventSeq = s.eventSeq
  notices : ∀ q k, k = .event ∨ k = .channel ∨ k = .dispensation → (v.port q).notice k = (m.port q).notice k

/-- R44: a boundary delivered moves the table and reaches every channel, and what then becomes of the clock leaves that. -/
theorem State.boundaried (running : s.running = true) (j : Clock) (after : ({ s with clock := j }.deliver b).Retimed v) :
    ∃ m l, s.Boundaried v m b l j := by
  obtain ⟨w, l, made, nodup, all, -, n, begun⟩ := State.deliver_folds (s := { s with clock := j }) running b
  have table := State.moveSlots_reached { s with clock := j } b.next
  rw [made] at after
  generalize State.moveSlots { s with clock := j } b.next = m at begun table
  subst begun
  have served := table.served n (State.reaching { s with slots := m.slots } b)
  have folded := (State.Served.foldl_receiveBoundary l [] _ nodup served).retimed after
  have frame : State.SameFrame { m with orderUses := n } (l.foldl (State.receiveBoundary b) { m with orderUses := n }) :=
    .foldl _ (State.SameFrame.receiveBoundary b) _ _
  have close : State.CloseFrame NoticeKind.besideClose { m with orderUses := n } (l.foldl (State.receiveBoundary b) { m with orderUses := n }) :=
    .foldl _ (State.CloseFrame.receiveBoundary b) _ _
  have chans (c : Ch) := (State.foldl_chan (State.receiveBoundary b) (Channel.Reached b) (fun s c d => s.receiveBoundary_ne b)
    (fun s c => s.receiveBoundary_reached c b) l { m with orderUses := n } c nodup).1 (all c)
  generalize l.foldl (State.receiveBoundary b) { m with orderUses := n } = r at *
  obtain ⟨uses, x, y, is⟩ := table.is
  refine ⟨m, l, table, ?_, all, folded, ?_, fun ch => ?_, ?_, fun q k hk => ?_⟩
  · obtain ⟨⟨k, x, y, rfl⟩, -⟩ := after
    exact frame.slots
  · exact (table.sameFrame v.clock n).trans ((frame.retime v.clock).trans after.frame)
  · rw [after.chan]
    have same : State.chan { m with orderUses := n } ch = s.chan ch := by rw [is]; rfl
    exact same ▸ chans ch
  · have kept : m.wx = s.wx ∧ m.calUnit = s.calUnit ∧ m.eventList = s.eventList ∧ m.eventSeq = s.eventSeq := by rw [is]; exact ⟨rfl, rfl, rfl, rfl⟩
    obtain ⟨wx, unit, list, seq⟩ := kept
    obtain ⟨⟨k, x, y, rfl⟩, -⟩ := after
    exact ⟨close.wx.trans wx, close.calUnit.trans unit, close.eventList.trans list, close.eventSeq.trans seq⟩
  · have clock : k ≠ .clock := by rintro rfl; rcases hk with h | h | h <;> cases h
    rw [(after.notices q).1.2.1 k clock, close.notices q k (hk.imp_right (Or.imp_right .inl))]
    cases q <;> rfl

/-- R124: the switch that a boundary makes at once is the one that is named. -/
theorem State.reaching_switch (s : State) (b : Boundary) (c : Ch) (fs : Level) : (s.reaching b).switch c = some fs ↔ s.switchAt c fs := by
  show (if (s.chan c).state = .off then _ else _) = some fs ↔ _ ∧ _
  by_cases off : (s.chan c).state = .off
  · rw [if_pos off]
    exact (and_iff_left (.inl off)).symm
  · rw [if_neg off]
    exact WaitingClose.switch_at off

theorem State.Boundaried.closed {m : State} {l : List Ch} (h : s.Boundaried v m b l j) : MinutesClosed { s with slots := v.slots } v
    (fun ch => if (s.chan ch).state = .off then some b else (s.chan ch).waiting.map WaitingClose.boundary) (fun ch x => x = (s.chan ch).engine.minute) := by
  obtain ⟨rs, ps, joins⟩ := h.served.joins
  have all : (State.reaching { s with slots := m.slots } b).closing l = (State.reaching { s with slots := m.slots } b).closes :=
    funext fun c => Service.closing_mem _ (h.all c)
  rw [h.slots]
  exact (all ▸ joins).minutesClosed

theorem State.Boundaried.switches {m : State} {l : List Ch} (h : s.Boundaried v m b l j) :
    SwitchesMade s v s.switchAt (fun ch => (v.chan ch).calRecord) := by
  have made := h.served.switches
  have named : (fun c fs => c ∈ l ∧ (State.reaching { s with slots := m.slots } b).switch c = some fs) = s.switchAt := by
    funext c fs
    exact propext ((and_iff_right (h.all c)).trans (State.reaching_switch { s with slots := m.slots } b c fs))
  rw [named] at made
  have of_s : SwitchesMade s v s.switchAt (fun ch => (s.chan ch).calRecord) := ⟨made.switched, made.kept, made.queued, made.none⟩
  refine of_s.congr fun c fs _ => ?_
  have rest := (h.reached c).rest
  unfold Channel.Closed at rest
  rw [rest]

theorem State.Boundaried.cal {m : State} {l : List Ch} (h : s.Boundaried v m b l j) : CalCalled s v fun ch => ∃ fs, s.switchAt ch fs := by
  have called := h.served.cal
  have named : (fun c => c ∈ l ∧ (State.reaching { s with slots := m.slots } b).calls c) = fun c => ∃ fs, s.switchAt c fs := by
    funext c
    exact propext ((and_iff_right (h.all c)).trans (exists_congr fun fs => State.reaching_switch { s with slots := m.slots } b c fs))
  rw [named] at called
  exact ⟨called.1, fun none' q => (called.2 none' q).trans (by cases q <;> rfl)⟩

/-- R44: what a boundary leaves, clause by clause. -/
theorem State.boundaryReached (running : s.running = true) (j : Clock) (after : ({ s with clock := j }.deliver b).Retimed v) : BoundaryReached s v b := by
  obtain ⟨m, l, h⟩ := State.boundaried running j after
  have table := h.table
  have port (q : Port) : State.port { s with clock := j } q = s.port q := by cases q <;> rfl
  have moved (n : Nat) (next : b.next = some n) (i : Fin 8) : v.slots[i] = s.slots[i].moved n := by rw [h.slots]; exact table.slots n next i
  have beside (q : Port) (k : NoticeKind) (hk : k = .event ∨ k = .channel) : (v.port q).notice k = (s.port q).notice k := by
    rw [h.notices q k (hk.imp_right .inl), (table.notices q).1.2.1 k (by rintro rfl; rcases hk with h | h <;> cases h), port]
  constructor
  case frame => rw [h.slots]; exact h.frame
  case absent => exact fun next => h.slots.trans (table.absent next)
  case proposed => exact fun n next i state => (moved n next i).trans (Slot.moved_proposed state)
  case approved => exact fun n next i state => (moved n next i).trans (Slot.moved_approved state)
  case active => exact fun n next i state => (moved n next i).trans (Slot.moved_active state)
  case free =>
    intro i state
    cases next : b.next with
    | none => rw [h.slots, table.absent next]
    | some n => exact (moved n next i).trans (Slot.moved_free state)
  case movedSlot =>
    rw [h.slots]
    intro some
    obtain ⟨i, differs, told⟩ := table.told some
    exact ⟨i, differs, fun q => by rw [h.notices q _ (.inr (.inr rfl))]; exact told q⟩
  case unmoved =>
    rw [h.slots]
    exact fun same q => by rw [h.notices q _ (.inr (.inr rfl)), table.untold same, port]
  case running => exact fun ch => (h.reached ch).running
  case waited => exact fun ch w => (h.reached ch).waited w
  case off => exact fun ch => (h.reached ch).off
  case closed => exact h.closed
  case switches => exact h.switches
  case cal => exact h.cal
  case untouched =>
    obtain ⟨wx, unit, list, seq⟩ := h.kept
    exact ⟨wx, unit, list, seq, fun q => ⟨beside q _ (.inl rfl), beside q _ (.inr rfl)⟩⟩
  case rest => exact fun ch => (h.reached ch).rest

/-- R44: a boundary leaves CLOCK. -/
theorem State.deliver_clockNotice (s : State) (b : Boundary) (q : Port) : ((s.deliver b).port q).notice .clock = (s.port q).notice .clock := by
  rcases State.CloseFrame.deliver s b with h | h
  · rw [h.notices q .clock (.inr (.inr (.inr rfl))), ((s.moveSlots_reached b.next).notices q).1.2.1 _ (by decide)]
  · rw [h]

end

/-! ### The three ways a boundary comes about -/

theorem Clock.boundaryDue_iff (c : Clock) : c.boundaryDue = true ↔ c.length ≤ c.seconds := decide_eq_true_iff

theorem State.emitBoundary_idle {s : State} (idle : s.clock.seconds < s.clock.length) : s.emitBoundary = s := by
  unfold State.emitBoundary
  rw [if_neg fun due => Nat.not_le.2 idle ((Clock.boundaryDue_iff _).1 due)]

theorem State.emitBoundary_due {s : State} (due : s.clock.length ≤ s.clock.seconds) :
    s.emitBoundary = { s with clock := s.clock.nextMinute }.deliver s.clock.boundary := by
  unfold State.emitBoundary
  rw [if_pos ((Clock.boundaryDue_iff _).2 due)]

/-- R43: the ordinary boundary. -/
theorem State.emitBoundary_does (s : State) :
    (s.clock.length ≤ s.clock.seconds → s.running = false → s.emitBoundary = { s with clock := s.clock.nextMinute }) ∧
    (s.clock.length ≤ s.clock.seconds → s.running = true → s.emitBoundary.clock = s.clock.nextMinute ∧
      BoundaryReached s s.emitBoundary s.clock.boundary ∧ ∀ q, (s.emitBoundary.port q).notice .clock = (s.port q).notice .clock) := by
  refine ⟨fun due held => ?_, fun due running => ?_⟩
  · rw [State.emitBoundary_due due, State.deliver, if_neg (by rw [show State.running { s with clock := s.clock.nextMinute } = s.running from rfl, held]; decide)]
  · rw [State.emitBoundary_due due]
    exact ⟨State.deliver_clock _ _, State.boundaryReached running _ (.refl _), fun q => by rw [State.deliver_clockNotice]; cases q <;> rfl⟩

/-- R52: the trim of the clock, where it makes no boundary due and where it makes one. -/
theorem State.trimClock_does {u : State} (running : u.running = true) (set : u.clock.set = true) (offset : Int) :
    let v := u.trimClock offset
    let length := (60 + offset).toNat
    (u.clock.seconds < length → v.clock = { u.clock with length := length } ∧
      v = { u with clock := v.clock, site := v.site, compliance := v.compliance } ∧
      SetOnBoth u v .clock ⟨.ch0, 2, BitVec.ofNat 32 u.clock.minute⟩) ∧
    (length ≤ u.clock.seconds → v.clock = { u.clock with minute := u.clock.minute + 1, seconds := 0, length := 60 } ∧
      BoundaryReached u v ⟨some u.clock.minute, some (u.clock.minute + 1), false⟩ ∧
      ∀ q, ((v.port q).notice .clock).flag = true ∧ ((v.port q).notice .clock).detail = ⟨.ch0, 2, BitVec.ofNat 32 (u.clock.minute + 1)⟩) := by
  intro v length
  let t : State := { u with clock := { u.clock with length := length } }
  have is : v = t.emitBoundary.notifyBoth .clock ⟨.ch0, 2, minute32 t.emitBoundary.minuteNow⟩ := rfl
  refine ⟨fun idle => ?_, fun due => ?_⟩
  · have now : t.minuteNow = some u.clock.minute := by unfold State.minuteNow; rw [show t.clock.set = true from set]; rfl
    rw [State.emitBoundary_idle (s := t) idle, now] at is
    rw [is]
    refine ⟨rfl, rfl, fun q => ?_⟩
    have told := setOnBoth_notifyBoth t .clock ⟨.ch0, 2, BitVec.ofNat 32 u.clock.minute⟩ q
    cases q <;> exact told
  · have next : t.clock.nextMinute = { u.clock with minute := u.clock.minute + 1, seconds := 0, length := 60 } := by
      unfold Clock.nextMinute; rw [if_pos (show t.clock.set = true from set)]
    have boundary : t.clock.boundary = ⟨some u.clock.minute, some (u.clock.minute + 1), false⟩ := by
      unfold Clock.boundary; rw [show t.clock.set = true from set]; rfl
    have clock : t.emitBoundary.clock = t.clock.nextMinute := ((State.emitBoundary_does t).2 due running).1
    have now : t.emitBoundary.minuteNow = some (u.clock.minute + 1) := by
      unfold State.minuteNow; rw [clock, next, show u.clock.set = true from set]; rfl
    rw [now] at is
    refine ⟨by rw [is]; exact clock.trans next, ?_, fun q => ?_⟩
    · refine State.boundaryReached running t.clock.nextMinute ?_
      rw [is, State.emitBoundary_due (s := t) due, boundary]
      exact .told _ (State.clock _) _
    · rw [is, State.port_notifyBoth, PortState.notice_notify, if_pos rfl]
      exact ⟨rfl, rfl⟩

/-- R50: the set of the clock. -/
theorem State.setTime_does {u : State} (running : u.running = true) (n second : Nat) :
    let v := u.setTime n second
    v.clock = ⟨true, n, second, 60, 0, u.clock.elapsed⟩ ∧
    BoundaryReached u v ⟨if u.clock.set then some u.clock.minute else none, some n, true⟩ ∧
    ∀ q, ((v.port q).notice .clock).flag = true ∧ ((v.port q).notice .clock).detail = ⟨.ch0, 1, BitVec.ofNat 32 n⟩ := by
  let r := u.deliver ⟨u.minuteNow, some n, true⟩
  have is : u.setTime n second = { r with clock := ⟨true, n, second, 60, 0, r.clock.elapsed⟩ }.notifyBoth .clock ⟨.ch0, 1, value32 n⟩ := rfl
  have elapsed : r.clock.elapsed = u.clock.elapsed := congrArg Clock.elapsed (State.deliver_clock _ _)
  rw [elapsed] at is
  intro v
  refine ⟨congrArg State.clock is, State.boundaryReached running u.clock ?_, fun q => ?_⟩
  · show r.Retimed (u.setTime n second)
    rw [is]
    exact .told r _ _
  · show (((u.setTime n second).port q).notice .clock).flag = true ∧ (((u.setTime n second).port q).notice .clock).detail = _
    rw [is, State.port_notifyBoth, PortState.notice_notify, if_pos rfl]
    exact ⟨rfl, rfl⟩

theorem Calendar.valid_iff (c : Calendar) (second : Nat) : c.valid second = true ↔
    2000 ≤ c.year ∧ c.year ≤ 2099 ∧ 1 ≤ c.month ∧ c.month ≤ 12 ∧ 1 ≤ c.day ∧ c.day ≤ monthLength c.year c.month ∧
      c.hour ≤ 23 ∧ c.minute ≤ 59 ∧ second ≤ 59 := by
  simp only [Calendar.valid, Bool.and_eq_true, decide_eq_true_iff, and_assoc]

/-- Settles O37: each of the three ways delivers a boundary. -/
theorem boundariesComeAbout : Obligations.BoundariesComeAbout := by
  refine ⟨fun s => ?_, fun params s hr length => ?_, fun params s hr length => ?_⟩
  · obtain ⟨held, taken⟩ := s.emitBoundary_does
    exact ⟨fun idle => congrArg Host.Outcome.next (State.emitBoundary_idle idle), fun due off => congrArg Host.Outcome.next (held due off),
      fun due on => ⟨_, rfl, taken due on⟩⟩
  · have running := s.settle_running.trans hr
    refine ⟨fun unset => ?_, fun set => ?_⟩
    · exact write_refused (owner := trimClockOwner) rfl hr length rfl (check_fails (by rw [unset]; rfl))
    · have taken : trimClockOwner params s.settle = .ok (s.settle.trimClock (max (-30) (min 30 (s8At params 0)))) := by
        rw [← clampTo_eq (by decide)]
        exact check_passes (by rw [set]; rfl)
      exact ⟨_, write_taken (owner := trimClockOwner) rfl hr length rfl taken, State.trimClock_does running set _⟩
  · have running := s.settle_running.trans hr
    refine ⟨fun invalid => ?_, fun valid => ?_⟩
    · exact write_refused (owner := setTimeOwner) rfl hr length rfl (check_fails (by
        rw [Bool.not_eq_true', Bool.eq_false_iff]
        exact fun h => invalid ((Calendar.valid_iff _ _).1 h)))
    · have valid' : (calendarAt params).valid (u8At params 6) = true := (Calendar.valid_iff _ _).2 valid
      exact ⟨_, write_taken (owner := setTimeOwner) rfl hr length rfl (check_passes (by rw [valid']; rfl)),
        State.setTime_does running (calendarAt params).minuteNumber (u8At params 6)⟩

end Sys2Proof.Machine
